-- ==== Sys2Proof/Word.lean ====
section
/-!
DEFINITION. The word types of the Zhevly architecture and the one sparse-map type that holds every numbered
piece of state (register files, memories, tables) in a canonical form.
-/

namespace Sys2Proof

/-- A 64-bit register value (03 R24). -/
abbrev Word := BitVec 64
/-- One byte of memory. -/
abbrev Byte := BitVec 8
/-- A 512-bit vector or mask register (03 R24). -/
abbrev Vec := BitVec 512

/-- A map from numbers to values in which an unlisted key reads as a default. Canonical form: keys strictly rising,
no entry equal to the default. -/
structure Sp (α : Type) where
  entries : List (Nat × α)
  deriving DecidableEq, Repr

namespace Sp

/-- The map in which nothing is listed. -/
def empty {α : Type} : Sp α := ⟨[]⟩

/-- The first entry of a list with key `k`, or the default. -/
def getL {α : Type} (d : α) : List (Nat × α) → Nat → α
  | [], _ => d
  | (j, a) :: r, k => if j = k then a else getL d r k

/-- The value at key `k`. -/
def get {α : Type} (d : α) (m : Sp α) (k : Nat) : α := getL d m.entries k

/-- Remove every entry with key `k`. -/
def dropL {α : Type} (k : Nat) : List (Nat × α) → List (Nat × α)
  | [] => []
  | (j, a) :: r => if j = k then dropL k r else (j, a) :: dropL k r

/-- Insert an entry before the first larger key. -/
def insL {α : Type} (k : Nat) (v : α) : List (Nat × α) → List (Nat × α)
  | [] => [(k, v)]
  | (j, a) :: r => if k < j then (k, v) :: (j, a) :: r else (j, a) :: insL k v r

/-- The map with `v` at key `k`; writing the default removes the entry. -/
def set {α : Type} [DecidableEq α] (d : α) (m : Sp α) (k : Nat) (v : α) : Sp α :=
  if v = d then ⟨dropL k m.entries⟩ else ⟨insL k v (dropL k m.entries)⟩

/-- The keys of a list rise strictly from above `lo`, and no entry is the default. -/
def wfL {α : Type} [DecidableEq α] (d : α) : Option Nat → List (Nat × α) → Bool
  | _, [] => true
  | lo, (j, a) :: r => (match lo with | none => true | some l => decide (l < j)) && !decide (a = d) && wfL d (some j) r

/-- The canonical form. -/
def wf {α : Type} [DecidableEq α] (d : α) (m : Sp α) : Bool := wfL d none m.entries

end Sp

/-- Read bits [lo+n-1:lo] of a number. -/
def bitsOf (w lo n : Nat) : Nat := w / 2 ^ lo % 2 ^ n

end Sys2Proof
end

