-- ==== Sys2Proof/Syntax.lean ====
section
/-!
DEFINITION. The instructions and events of the Cywen as data: one constructor of `Instr` for every row of the table
of operations and events. Operand types hold what the encoding chapter (05 R48 to R74) places in each field.
-/

namespace Sys2Proof

/-- A general or vector register number (05 R50). -/
abbrev Reg := Fin 32
/-- A mask register number (05 R50). -/
abbrev MReg := Fin 8

/-- Routing class (05 R51). -/
inductive RClass where
  | o | a | v
  deriving DecidableEq, Repr

/-- Operand format of scalar floating point (05 R58). -/
inductive FFmt where
  | h | bf | s | d
  deriving DecidableEq, Repr

/-- Rounding field of an instruction: FCSR.RM or a fixed mode (05 R58, 03 R36). -/
inductive Rnd where
  | dyn | rne | rtz | rdn | rup
  deriving DecidableEq, Repr

/-- Type codes of FCVT (05 R58). -/
inductive CvtTy where
  | fp32 | fp64 | fp16 | bf16 | int64 | uint64 | int32 | uint32
  deriving DecidableEq, Repr

/-- Element type codes of VCVT and VQSCALE (05 R70). -/
inductive VTy where
  | fp64 | fp32 | bf16 | fp16 | e4m3 | e5m2 | int8 | uint8 | int16 | int32 | int64
  deriving DecidableEq, Repr

/-- Vector operand form (05 R66, R67). -/
inductive VForm where
  | vv | vx | vi | vf
  deriving DecidableEq, Repr

/-- Element width of a vector memory instruction (05 R61). -/
inductive Ew where
  | e8 | e16 | e32 | e64
  deriving DecidableEq, Repr

/-- Neighbour direction (05 R73, 00 R7). -/
inductive Dir where
  | n | e | s | w | t
  deriving DecidableEq, Repr

/-- Scope of a FENCE (05 R62). -/
inductive Scope where
  | core | cluster | die | package | system
  deriving DecidableEq, Repr

/-- Why an encoding is not an instruction (05 R45, causes 0x01 to 0x03). -/
inductive Reject where
  | reservedMajor   -- 0x01
  | unassigned      -- 0x02
  | reservedBit     -- 0x03
  deriving DecidableEq, Repr

/-- What a read of a protected word finds (17 R222). -/
inductive EccError where
  | none | single | double
  deriving DecidableEq, Repr

/-- A component descriptor (01 R11). `clmask` lists the cluster bits of dies 0 to 7; `reserved` is the sum of its
reserved fields. -/
structure Component where
  clmask : List (BitVec 64)
  asid : BitVec 12
  stealdom : BitVec 2
  nlmode : Bool
  valid : Bool
  lead : BitVec 13
  initv : Bool
  reserved : Nat
  trapvec : Word
  initpc : Word
  inita0 : Word
  inita1 : Word
  win : BitVec 32
  segimg : List (BitVec 128)
  deriving DecidableEq, Repr

/-- A step-table entry (15 R203). -/
structure StepEntry where
  comp : BitVec 6
  valid : Bool
  ovr : BitVec 2
  reserved : Nat
  first : Word
  period : Word
  pc : Word
  a0 : Word
  a1 : Word
  ovrcnt : BitVec 32
  pend : Bool
  run : Bool
  deriving DecidableEq, Repr

/-- A mailbox descriptor (15 R206). -/
structure Mailbox where
  ring : BitVec 57
  valid : Bool
  slots : BitVec 13
  wake : BitVec 17
  reserved : Nat
  deriving DecidableEq, Repr

/-- A fault-service descriptor (27 R274). -/
structure FaultService where
  ring : BitVec 57
  valid : Bool
  slots : BitVec 13
  wake : BitVec 17
  fsbound : Word
  twin : BitVec 57
  reserved : Nat
  deriving DecidableEq, Repr

/-- An entry of the ASID table (17 R225). -/
structure AsidEntry where
  live : Bool
  root : Nat
  base : Nat
  size : Nat
  deriving DecidableEq, Repr

/-- What Rambeod chooses as it loads a component (06 R86, R88; 17 R225; 27 R274): the ASID it would give, the physical region with the
root node in it, the GVA of the table window (0 for none), and 16 KiB nodes of the region that are free for the window's tables. -/
structure Placing where
  asid : Nat
  region : AsidEntry
  twin : Nat
  nodes : List Nat
  deriving DecidableEq, Repr

/-- A program as Rambeod loads it (01 R10 to R12; 06 R86, R88; 17 R221, R225, R230; 27 R274): its tables, what Rambeod chooses for each
component, the segments (component, number) that name a table window, the bytes it places, the component to which each slice line is
assigned (none: shared), the clusters named as Prism hosts, and its image as the owner sent it. Rambeod fills in the ASID of a component,
the TWIN of a fault service and the images of table segments: what the tables hold there counts for nothing, the rights of a table segment
excepted. Addresses of bytes and lines are locations (a GVA of the on-chip map, or a physical address). -/
structure Program where
  comps : List (Nat × Component)
  steps : List (Nat × StepEntry)
  mailboxes : List (Nat × Mailbox)
  faultsvcs : List (Nat × FaultService)
  placings : List (Nat × Placing)
  tableSegs : List (Nat × Nat)
  prismHosts : List Nat
  tags : List (Nat × Option Nat)
  bytes : List (Nat × Byte)
  image : List Byte
  deriving DecidableEq, Repr

/-- An Erg packet (29 R284): the 256 header bits, the payload as sent, and the trailer. -/
structure Packet where
  header : BitVec 256
  payload : List Byte
  trailer : BitVec 64
  deriving DecidableEq, Repr

/-- What a management read asks for (29 R292). -/
inductive ReadItem where
  | telemetry
  | stepEntry (i : Nat)
  | saveArea (comp off : Nat)
  deriving DecidableEq, Repr

/-- What an event takes from outside itself: the agents it names by number and the choices the surroundings make. Each
event's docstring says which it reads. -/
structure Arg where
  n : Nat
  k : Nat
  p : Nat
  q : Nat
  r : Nat
  yes : Bool
  dir : Dir
  word : Word
  nums : List Nat
  bytes : List Byte
  ecc : EccError
  item : ReadItem
  pkt : Packet
  prog : Program
  deriving DecidableEq, Repr

/-- An event that names nothing. -/
def Arg.none : Arg :=
  ⟨0, 0, 0, 0, 0, false, .n, 0, [], [], .none, .telemetry, ⟨0, [], 0⟩, ⟨[], [], [], [], [], [], [], [], [], []⟩⟩

/-- Every step of the part: one constructor per row of the table of operations and events, the encoded rows first, in the
table's order. Register fields are numbered as R48 places them: `d` field A as a destination, `b` field B, `c` field C.
An event takes what the surroundings or the hardware's own record say of it from `State.arg`. -/
inductive Instr where
  /-- R93. Writes gB + gC to gA, wrapping modulo 2^64. -/
  | add (d b c : Reg)
  /-- R93. Writes gB - gC to gA. -/
  | sub (d b c : Reg)
  /-- R93. Writes the bitwise and of gB and gC to gA. -/
  | and (d b c : Reg)
  /-- R93. Writes the bitwise or of gB and gC to gA. -/
  | or (d b c : Reg)
  /-- R93. Writes the bitwise xor of gB and gC to gA. -/
  | xor (d b c : Reg)
  /-- R93. Writes gB and not gC to gA. -/
  | andn (d b c : Reg)
  /-- R93. Writes 1 to gA if gB < gC signed, else 0. -/
  | slt (d b c : Reg)
  /-- R93. Writes 1 to gA if gB < gC unsigned, else 0. -/
  | sltu (d b c : Reg)
  /-- R93. Writes gB shifted left by gC mod 64 to gA. -/
  | sll (d b c : Reg)
  /-- R93. Writes gB shifted right logically by gC mod 64 to gA. -/
  | srl (d b c : Reg)
  /-- R93. Writes gB shifted right arithmetically by gC mod 64 to gA. -/
  | sra (d b c : Reg)
  /-- R94. Funnel-shifts the pair gA:gB left by gC mod 64 and writes the high word to gA. -/
  | fshl (d b c : Reg)
  /-- R94. Funnel-shifts the pair gA:gB right by gC mod 64 and writes the low word to gA. -/
  | fshr (d b c : Reg)
  /-- R93. Writes the signed lesser of gB and gC to gA. -/
  | min (d b c : Reg)
  /-- R93. Writes the unsigned lesser of gB and gC to gA. -/
  | minu (d b c : Reg)
  /-- R93. Writes the signed greater of gB and gC to gA. -/
  | max (d b c : Reg)
  /-- R93. Writes the unsigned greater of gB and gC to gA. -/
  | maxu (d b c : Reg)
  /-- R93. Writes the low 64 bits of gB times gC to gA. -/
  | mul (d b c : Reg)
  /-- R93. Writes the high 64 bits of the signed product gB times gC to gA. -/
  | mulh (d b c : Reg)
  /-- R93. Writes the high 64 bits of the unsigned product gB times gC to gA. -/
  | mulhu (d b c : Reg)
  /-- R93. Writes gB / gC signed, truncated, to gA; a zero divisor raises 0x5F. -/
  | div (d b c : Reg)
  /-- R93. Writes gB / gC unsigned to gA; a zero divisor raises 0x5F. -/
  | divu (d b c : Reg)
  /-- R93. Writes the signed remainder of gB by gC to gA; a zero divisor raises 0x5F. -/
  | rem (d b c : Reg)
  /-- R93. Writes the unsigned remainder of gB by gC to gA; a zero divisor raises 0x5F. -/
  | remu (d b c : Reg)
  /-- R95. Writes the count of leading zero bits of gB to gA. -/
  | clz (d b : Reg)
  /-- R95. Writes the count of trailing zero bits of gB to gA. -/
  | ctz (d b : Reg)
  /-- R95. Writes the number of one bits of gB to gA. -/
  | popc (d b : Reg)
  /-- R95. Writes gB[31:0] sign-extended to gA. -/
  | sextw (d b : Reg)
  /-- R95. Writes gB[31:0] zero-extended to gA. -/
  | zextw (d b : Reg)
  /-- R95. Writes gB with its byte order reversed to gA. -/
  | bswap (d b : Reg)
  /-- R96. Writes gB plus the sign-extended immediate to gA. -/
  | addi (d b : Reg) (i : BitVec 12)
  /-- R96. Writes 1 to gA if gB is below the immediate, signed. -/
  | slti (d b : Reg) (i : BitVec 12)
  /-- R96. Writes 1 to gA if gB is below the sign-extended immediate, unsigned. -/
  | sltiu (d b : Reg) (i : BitVec 12)
  /-- R96. Writes gB xor the immediate to gA. -/
  | xori (d b : Reg) (i : BitVec 12)
  /-- R96. Writes gB or the immediate to gA. -/
  | ori (d b : Reg) (i : BitVec 12)
  /-- R96. Writes gB and the immediate to gA. -/
  | andi (d b : Reg) (i : BitVec 12)
  /-- R96. Writes gB shifted left by the unsigned immediate to gA. -/
  | slli (d b : Reg) (n : Fin 64)
  /-- R96. Writes gB shifted right logically by the immediate to gA. -/
  | srli (d b : Reg) (n : Fin 64)
  /-- R96. Writes gB shifted right arithmetically by the immediate to gA. -/
  | srai (d b : Reg) (n : Fin 64)
  /-- R55. Writes imm20 shifted left by 12, sign-extended, to gA. -/
  | lui (d : Reg) (i : BitVec 20)
  /-- R55. Writes PC plus imm20 shifted left by 12 to gA. -/
  | auipc (d : Reg) (i : BitVec 20)
  /-- R101. Branches by 2*imm12 when gB equals gC. -/
  | beq (b c : Reg) (i : BitVec 12)
  /-- R101. Branches by 2*imm12 when gB differs from gC. -/
  | bne (b c : Reg) (i : BitVec 12)
  /-- R101. Branches when gB < gC signed. -/
  | blt (b c : Reg) (i : BitVec 12)
  /-- R101. Branches when gB >= gC signed. -/
  | bge (b c : Reg) (i : BitVec 12)
  /-- R101. Branches when gB < gC unsigned. -/
  | bltu (b c : Reg) (i : BitVec 12)
  /-- R101. Branches when gB >= gC unsigned. -/
  | bgeu (b c : Reg) (i : BitVec 12)
  /-- R102. Writes PC + 4 to gA and jumps by 2*imm20. -/
  | jal (d : Reg) (i : BitVec 20)
  /-- R102. Writes PC + 4 to gA and jumps to gB + imm12. -/
  | jalr (d b : Reg) (i : BitVec 12)
  /-- R106. Branches through a table indexed by the tag of the head entry of an input queue, parking while it is empty. -/
  | btag (dir : Dir) (n : Fin 16) (b : Reg) (i : BitVec 12)
  /-- R103. Sets up hardware-loop level L with the count in gB. -/
  | loop (lvl : Fin 2) (b : Reg) (i : BitVec 12)
  /-- R103. Sets up hardware-loop level L with an immediate count. -/
  | loopi (lvl : Fin 2) (n : Fin 1024) (i : BitVec 12)
  /-- R98. Scalar FP addition with one rounding. -/
  | fadd (f : FFmt) (r : Rnd) (d b c : Reg)
  /-- R98. Scalar FP subtraction with one rounding. -/
  | fsub (f : FFmt) (r : Rnd) (d b c : Reg)
  /-- R98. Scalar FP multiplication with one rounding. -/
  | fmul (f : FFmt) (r : Rnd) (d b c : Reg)
  /-- R98. Scalar FP division with one rounding. -/
  | fdiv (f : FFmt) (r : Rnd) (d b c : Reg)
  /-- R98. Scalar FP square root with one rounding. -/
  | fsqrt (f : FFmt) (r : Rnd) (d b : Reg)
  /-- R98. Writes the lesser FP operand to gA. -/
  | fmin (f : FFmt) (d b c : Reg)
  /-- R98. Writes the greater FP operand to gA. -/
  | fmax (f : FFmt) (d b c : Reg)
  /-- R98. Writes 1 to gA if the FP operands are equal. -/
  | feq (f : FFmt) (d b c : Reg)
  /-- R98. Writes 1 to gA if gB < gC as FP. -/
  | flt (f : FFmt) (d b c : Reg)
  /-- R98. Writes 1 to gA if gB <= gC as FP. -/
  | fle (f : FFmt) (d b c : Reg)
  /-- R98. Writes the class word of the FP operand to gA. -/
  | fclass (f : FFmt) (d b : Reg)
  /-- R98. Writes the magnitude of gB with the sign of gC, bits copied. -/
  | fsgnj (f : FFmt) (d b c : Reg)
  /-- R99. Converts a value of the source type in field C to FP format fmt. -/
  | fcvtToFp (f : FFmt) (r : Rnd) (ty : CvtTy) (d b : Reg)
  /-- R99. Converts to FP format fmt with saturation. -/
  | fcvtSat (f : FFmt) (r : Rnd) (ty : CvtTy) (d b : Reg)
  /-- R99. Converts an FP value of format fmt to the integer type in field C, clamping. -/
  | fcvtToInt (f : FFmt) (r : Rnd) (ty : CvtTy) (d b : Reg)
  /-- R98. Writes gB*gC + gD with one rounding to gA. -/
  | fma (f : FFmt) (r : Rnd) (d b c e : Reg)
  /-- R110. Raises cause 0xB0 + n. -/
  | trap (n : Fin 16)
  /-- R111. Returns to EPC and restores the previous privilege. -/
  | eret
  /-- R109. Puts the thread in the halted state, keeping all its state. -/
  | halt
  /-- R107. Moves the thread to the young end of the age list. -/
  | yield
  /-- R108. Parks until a selected input queue holds an entry or the wake flag is set. -/
  | waite (b : Reg)
  /-- R112. Reads a system register into gA. -/
  | sysr (n : BitVec 12) (d : Reg)
  /-- R113. Writes gB to a system register, subject to access and reserved-bit checks. -/
  | sysw (n : BitVec 12) (b : Reg)
  /-- R114. Loads a 16-byte segment image into a segment register (privileged). -/
  | segld (sg : Fin 8) (b : Reg) (i : BitVec 12)
  /-- R115. Stores a segment register as a 16-byte image. -/
  | segst (sg : Fin 8) (b : Reg) (i : BitVec 12)
  /-- R148. Loads a byte, sign-extended. -/
  | lb (k : RClass) (d b : Reg) (i : BitVec 10)
  /-- R148. Loads two bytes, sign-extended. -/
  | lh (k : RClass) (d b : Reg) (i : BitVec 10)
  /-- R148. Loads four bytes, sign-extended. -/
  | lw (k : RClass) (d b : Reg) (i : BitVec 10)
  /-- R148. Loads eight bytes. -/
  | ld (k : RClass) (d b : Reg) (i : BitVec 10)
  /-- R148. Loads a byte, zero-extended. -/
  | lbz (k : RClass) (d b : Reg) (i : BitVec 10)
  /-- R148. Loads two bytes, zero-extended. -/
  | lhz (k : RClass) (d b : Reg) (i : BitVec 10)
  /-- R148. Loads four bytes, zero-extended. -/
  | lwz (k : RClass) (d b : Reg) (i : BitVec 10)
  /-- R148. Stores one byte of gC. -/
  | sb (k : RClass) (c b : Reg) (i : BitVec 10)
  /-- R148. Stores two bytes of gC. -/
  | sh (k : RClass) (c b : Reg) (i : BitVec 10)
  /-- R148. Stores four bytes of gC. -/
  | sw (k : RClass) (c b : Reg) (i : BitVec 10)
  /-- R148. Stores eight bytes of gC. -/
  | sd (k : RClass) (c b : Reg) (i : BitVec 10)
  /-- R154. Atomically adds gC at the address and returns the old value. -/
  | amoadd (k : RClass) (dbl : Bool) (d b c : Reg)
  /-- R154. Atomic and, returning the old value. -/
  | amoand (k : RClass) (dbl : Bool) (d b c : Reg)
  /-- R154. Atomic or, returning the old value. -/
  | amoor (k : RClass) (dbl : Bool) (d b c : Reg)
  /-- R154. Atomic xor, returning the old value. -/
  | amoxor (k : RClass) (dbl : Bool) (d b c : Reg)
  /-- R154. Atomic swap, returning the old value. -/
  | amoswap (k : RClass) (dbl : Bool) (d b c : Reg)
  /-- R154. Atomic signed minimum. -/
  | amomin (k : RClass) (dbl : Bool) (d b c : Reg)
  /-- R154. Atomic signed maximum. -/
  | amomax (k : RClass) (dbl : Bool) (d b c : Reg)
  /-- R154. Atomic unsigned minimum. -/
  | amominu (k : RClass) (dbl : Bool) (d b c : Reg)
  /-- R154. Atomic unsigned maximum. -/
  | amomaxu (k : RClass) (dbl : Bool) (d b c : Reg)
  /-- R154. Atomic compare-and-swap against the old value of gA. -/
  | amocas (k : RClass) (dbl : Bool) (d b c : Reg)
  /-- R154. Atomic FP addition, rounded by RNE at the home. -/
  | amofadd (k : RClass) (dbl : Bool) (d b c : Reg)
  /-- R154. Atomic absolute-maximum fold, leaving a non-negative value or NaN. -/
  | amofmaxa (k : RClass) (dbl : Bool) (d b c : Reg)
  /-- R152. Reads a full word and empties it, set aside at the home while it is empty. -/
  | synld (k : RClass) (d b : Reg)
  /-- R152. With release effect, writes an empty word and fills it, set aside while it is full. -/
  | synst (k : RClass) (b c : Reg)
  /-- R152. Returns the full/empty bit of a word. -/
  | feread (k : RClass) (d b : Reg)
  /-- R152. Sets the full/empty bit of a word from gC[0]. -/
  | feset (k : RClass) (b c : Reg)
  /-- R163. Waits until the covered earlier accesses are performed at the scope. -/
  | fence (paths : BitVec 6) (scope : Scope) (classes : BitVec 3)
  /-- R164. Waits for earlier stores at core scope, then discards fetched parcels. -/
  | ifence
  /-- R156. Unit-stride vector load, resumable by VSTART. -/
  | vld (ew : Ew) (k : RClass) (m : MReg) (v b : Reg)
  /-- R156. Strided vector load. -/
  | vlds (ew : Ew) (k : RClass) (m : MReg) (v b c : Reg)
  /-- R156. Indexed vector load. -/
  | vldx (ew : Ew) (k : RClass) (m : MReg) (v b c : Reg)
  /-- R158. First-fault vector load that trims VL at a fault beyond the first active element. -/
  | vldff (ew : Ew) (k : RClass) (m : MReg) (v b : Reg)
  /-- R162. Expands a compressed record into a register group. -/
  | vldz (ew : Ew) (k : RClass) (v b c : Reg)
  /-- R156. Unit-stride vector store, resumable by VSTART. -/
  | vst (ew : Ew) (k : RClass) (m : MReg) (v b : Reg)
  /-- R156. Strided vector store. -/
  | vsts (ew : Ew) (k : RClass) (m : MReg) (v b c : Reg)
  /-- R156. Indexed vector store. -/
  | vstx (ew : Ew) (k : RClass) (m : MReg) (v b c : Reg)
  /-- R159. Byte-masked store, all or nothing after checking every selected byte. -/
  | vstb (ew : Ew) (k : RClass) (m : MReg) (v b : Reg)
  /-- R161. Writes a compressed record of the group, raising 0x62 on overrun before writing. -/
  | vstz (ew : Ew) (k : RClass) (v b c : Reg)
  /-- R122. Sets VTYPE from gC and VL from AVL in gB. -/
  | vsetl (d b c : Reg)
  /-- R122. Sets VTYPE from the immediate and VL from AVL in gB. -/
  | vsetli (sew : Fin 8) (grp : Fin 4) (ta ma : Bool) (d b : Reg)
  /-- R123. Element-wise integer addition. -/
  | vadd (f : VForm) (m : MReg) (d c b : Reg)
  /-- R123. Element-wise a - b. -/
  | vsub (f : VForm) (m : MReg) (d c b : Reg)
  /-- R123. Element-wise b - a. -/
  | vrsub (f : VForm) (m : MReg) (d c b : Reg)
  /-- R123. Element-wise low product. -/
  | vmul (f : VForm) (m : MReg) (d c b : Reg)
  /-- R123. Element-wise signed high product. -/
  | vmulh (f : VForm) (m : MReg) (d c b : Reg)
  /-- R123. Element-wise unsigned high product. -/
  | vmulhu (f : VForm) (m : MReg) (d c b : Reg)
  /-- R123. Element-wise d + a*b. -/
  | vmacc (f : VForm) (m : MReg) (d c b : Reg)
  /-- R123. Element-wise d - a*b. -/
  | vnmsac (f : VForm) (m : MReg) (d c b : Reg)
  /-- R123. Element-wise and. -/
  | vand (f : VForm) (m : MReg) (d c b : Reg)
  /-- R123. Element-wise or. -/
  | vor (f : VForm) (m : MReg) (d c b : Reg)
  /-- R123. Element-wise xor. -/
  | vxor (f : VForm) (m : MReg) (d c b : Reg)
  /-- R123. Element-wise left shift. -/
  | vsll (f : VForm) (m : MReg) (d c b : Reg)
  /-- R123. Element-wise logical right shift. -/
  | vsrl (f : VForm) (m : MReg) (d c b : Reg)
  /-- R123. Element-wise arithmetic right shift. -/
  | vsra (f : VForm) (m : MReg) (d c b : Reg)
  /-- R123. Element-wise signed minimum. -/
  | vmin (f : VForm) (m : MReg) (d c b : Reg)
  /-- R123. Element-wise signed maximum. -/
  | vmax (f : VForm) (m : MReg) (d c b : Reg)
  /-- R123. Element-wise unsigned minimum. -/
  | vminu (f : VForm) (m : MReg) (d c b : Reg)
  /-- R123. Element-wise unsigned maximum. -/
  | vmaxu (f : VForm) (m : MReg) (d c b : Reg)
  /-- R123. Element-wise funnel shift left. -/
  | vfshl (f : VForm) (m : MReg) (d c b : Reg)
  /-- R123. Element-wise funnel shift right. -/
  | vfshr (f : VForm) (m : MReg) (d c b : Reg)
  /-- R123. Element-wise count of leading zeros. -/
  | vclz (m : MReg) (d c : Reg)
  /-- R123. Element-wise count of one bits. -/
  | vpopc (m : MReg) (d c : Reg)
  /-- R124. Writes mask bits for a = b. -/
  | vseq (f : VForm) (m : MReg) (d : MReg) (c b : Reg)
  /-- R124. Writes mask bits for a != b. -/
  | vsne (f : VForm) (m : MReg) (d : MReg) (c b : Reg)
  /-- R124. Writes mask bits for a < b signed. -/
  | vslt (f : VForm) (m : MReg) (d : MReg) (c b : Reg)
  /-- R124. Writes mask bits for a < b unsigned. -/
  | vsltu (f : VForm) (m : MReg) (d : MReg) (c b : Reg)
  /-- R124. Writes mask bits for a <= b signed. -/
  | vsle (f : VForm) (m : MReg) (d : MReg) (c b : Reg)
  /-- R124. Writes mask bits for a <= b unsigned. -/
  | vsleu (f : VForm) (m : MReg) (d : MReg) (c b : Reg)
  /-- R125. Writes b where the mask bit is 1 and a elsewhere. -/
  | vmerge (f : VForm) (m : MReg) (d c b : Reg)
  /-- R125. Writes b into every body element, unmasked. -/
  | vmv (f : VForm) (d b : Reg)
  /-- R46. 16-bit lane form of VMV. -/
  | vmvParcel (x : Bool) (d s : Reg)
  /-- R46. 16-bit lane form of VADD. -/
  | vaddParcel (x : Bool) (d s : Reg)
  /-- R46. 16-bit lane form of VSUB. -/
  | vsubParcel (x : Bool) (d s : Reg)
  /-- R46. 16-bit lane form of VMUL. -/
  | vmulParcel (x : Bool) (d s : Reg)
  /-- R46. 16-bit lane form of VAND. -/
  | vandParcel (x : Bool) (d s : Reg)
  /-- R46. 16-bit lane form of VOR. -/
  | vorParcel (x : Bool) (d s : Reg)
  /-- R46. 16-bit lane form of VXOR. -/
  | vxorParcel (x : Bool) (d s : Reg)
  /-- R46. 16-bit lane form of VSLL. -/
  | vsllParcel (x : Bool) (d s : Reg)
  /-- R46. 16-bit lane form of VSRL. -/
  | vsrlParcel (x : Bool) (d s : Reg)
  /-- R46. 16-bit lane form of VMIN. -/
  | vminParcel (x : Bool) (d s : Reg)
  /-- R46. 16-bit lane form of VMAX. -/
  | vmaxParcel (x : Bool) (d s : Reg)
  /-- R46. 16-bit lane form of VFADD. -/
  | vfaddParcel (x : Bool) (d s : Reg)
  /-- R46. 16-bit lane form of VFSUB. -/
  | vfsubParcel (x : Bool) (d s : Reg)
  /-- R46. 16-bit lane form of VFMUL. -/
  | vfmulParcel (x : Bool) (d s : Reg)
  /-- R46. 16-bit lane form of VFMAX. -/
  | vfmaxParcel (x : Bool) (d s : Reg)
  /-- R46. 16-bit lane form of VFMIN. -/
  | vfminParcel (x : Bool) (d s : Reg)
  /-- R47. The parcel 0x0000 raises cause 0x05 in every state. -/
  | zeroParcel
  /-- R126. Element-wise FP addition. -/
  | vfadd (bf : Bool) (f : VForm) (m : MReg) (d c b : Reg)
  /-- R126. Element-wise FP subtraction. -/
  | vfsub (bf : Bool) (f : VForm) (m : MReg) (d c b : Reg)
  /-- R126. Element-wise FP multiplication. -/
  | vfmul (bf : Bool) (f : VForm) (m : MReg) (d c b : Reg)
  /-- R126. Element-wise FP division. -/
  | vfdiv (bf : Bool) (f : VForm) (m : MReg) (d c b : Reg)
  /-- R126. Element-wise FP square root. -/
  | vfsqrt (bf : Bool) (m : MReg) (d c : Reg)
  /-- R126. Element-wise fused a*b + d. -/
  | vfmacc (bf : Bool) (f : VForm) (m : MReg) (d c b : Reg)
  /-- R126. Element-wise fused -(a*b + d). -/
  | vfnmacc (bf : Bool) (f : VForm) (m : MReg) (d c b : Reg)
  /-- R126. Element-wise FP minimum. -/
  | vfmin (bf : Bool) (f : VForm) (m : MReg) (d c b : Reg)
  /-- R126. Element-wise FP maximum. -/
  | vfmax (bf : Bool) (f : VForm) (m : MReg) (d c b : Reg)
  /-- R126. Element-wise sign injection. -/
  | vfsgnj (bf : Bool) (f : VForm) (m : MReg) (d c b : Reg)
  /-- R126. Writes mask bits for FP equality. -/
  | vfeq (bf : Bool) (f : VForm) (m : MReg) (d : MReg) (c b : Reg)
  /-- R126. Writes mask bits for FP less-than. -/
  | vflt (bf : Bool) (f : VForm) (m : MReg) (d : MReg) (c b : Reg)
  /-- R126. Writes mask bits for FP less-or-equal. -/
  | vfle (bf : Bool) (f : VForm) (m : MReg) (d : MReg) (c b : Reg)
  /-- R126. Element-wise FP class word. -/
  | vfclass (bf : Bool) (m : MReg) (d c : Reg)
  /-- R127. Integer sum reduction into element 0. -/
  | vredsum (m : MReg) (d c b : Reg)
  /-- R127. Signed maximum reduction. -/
  | vredmax (m : MReg) (d c b : Reg)
  /-- R127. Unsigned maximum reduction. -/
  | vredmaxu (m : MReg) (d c b : Reg)
  /-- R127. Signed minimum reduction. -/
  | vredmin (m : MReg) (d c b : Reg)
  /-- R127. Unsigned minimum reduction. -/
  | vredminu (m : MReg) (d c b : Reg)
  /-- R127. And reduction. -/
  | vredand (m : MReg) (d c b : Reg)
  /-- R127. Or reduction. -/
  | vredor (m : MReg) (d c b : Reg)
  /-- R128. Ordered sequential FP sum reduction. -/
  | vfredosum (m : MReg) (d c b : Reg)
  /-- R128. Fixed pairwise-tree FP sum reduction. -/
  | vfredtsum (m : MReg) (d c b : Reg)
  /-- R128. FP maximum reduction. -/
  | vfredmax (m : MReg) (d c b : Reg)
  /-- R128. FP minimum reduction. -/
  | vfredmin (m : MReg) (d c b : Reg)
  /-- R129. Writes the element index into each active element. -/
  | vid (m : MReg) (d : Reg)
  /-- R130. Slides elements up by an offset. -/
  | vslideup (f : VForm) (m : MReg) (d c b : Reg)
  /-- R130. Slides elements down by an offset. -/
  | vslidedn (f : VForm) (m : MReg) (d c b : Reg)
  /-- R130. Slides up by one, inserting a scalar at element 0. -/
  | vslide1up (m : MReg) (d c b : Reg)
  /-- R130. Slides down by one, inserting a scalar at element vl - 1. -/
  | vslide1dn (m : MReg) (d c b : Reg)
  /-- R131. Gathers elements by index. -/
  | vgather (f : VForm) (m : MReg) (d c b : Reg)
  /-- R132. Packs the mask-selected elements to the front. -/
  | vcompress (d c : Reg) (mk : MReg)
  /-- R133. Writes one element, sign-extended, to a g register. -/
  | vextract (f : VForm) (d c b : Reg)
  /-- R133. Writes a g register into one element below vl. -/
  | vinsert (d c b : Reg)
  /-- R134. Mask and. -/
  | mand (d b c : MReg)
  /-- R134. Mask or. -/
  | mor (d b c : MReg)
  /-- R134. Mask xor. -/
  | mxor (d b c : MReg)
  /-- R134. Mask and-not. -/
  | mandn (d b c : MReg)
  /-- R134. Counts set mask bits below vl into a g register. -/
  | mpopc (d : Reg) (c : MReg)
  /-- R134. Writes the index of the first set mask bit, or -1. -/
  | mfirst (d : Reg) (c : MReg)
  /-- R134. Sets mask bits before the first set bit. -/
  | msbf (d c : MReg)
  /-- R136. Element-wise type conversion, optionally saturating. -/
  | vcvt (src tgt : VTy) (sat : Bool) (m : MReg) (d c : Reg)
  /-- R137. Quantises blocks of 32 elements, writing E8M0 scales. -/
  | vqscale (tgt : VTy) (d c b : Reg)
  /-- R139. Packs elements into a DXB block stream. -/
  | vdxbpack (w4 : Bool) (sh : Fin 16) (d c : Reg)
  /-- R140. Decodes a DXB block stream into elements. -/
  | vdxbunpack (w4 : Bool) (d c : Reg)
  /-- R173. Queues a command that zeroes an accumulator. -/
  | mzero (n : Fin 4)
  /-- R174. Queues a matrix multiply-accumulate. -/
  | mma (sa sb : Bool) (n : Fin 4) (f : Fin 8) (a b : Reg)
  /-- R176. Queues a multiply-accumulate that then rotates its operands over the cluster torus. -/
  | mmar (sa sb : Bool) (n : Fin 4) (f : Fin 8) (a b : Reg)
  /-- R177. Queues a load of an accumulator from scratchpad rows. -/
  | mlda (n : Fin 4) (b : Reg)
  /-- R177. Queues a store of an accumulator to scratchpad rows. -/
  | msta (n : Fin 4) (b : Reg)
  /-- R175. Queues a sparse multiply-accumulate with groups of 1. -/
  | mmasN1 (sa sb : Bool) (n : Fin 4) (f : Fin 8) (a b c : Reg)
  /-- R175. Queues a sparse multiply-accumulate with groups of 2. -/
  | mmasN2 (sa sb : Bool) (n : Fin 4) (f : Fin 8) (a b c : Reg)
  /-- R175. Queues a sparse multiply-accumulate with groups of 4. -/
  | mmasN4 (sa sb : Bool) (n : Fin 4) (f : Fin 8) (a b c : Reg)
  /-- R178. Reads and checks a copy descriptor and queues a copy command on a tag. -/
  | cpy (k : RClass) (tag : Fin 8) (d b e : Reg)
  /-- R184. Queues a copy with a follow-on matrix command. -/
  | cpym (k : RClass) (tag : Fin 8) (d b e : Reg)
  /-- R185. Parks until the tag's command and follow-on complete, raising a recorded error. -/
  | cwait (tag : Fin 8)
  /-- R185. Returns the tag's status and clears its recorded error. -/
  | cpoll (tag : Fin 8) (d : Reg)
  /-- R187. Parks until the buffer holds at least the count, with acquire effect. -/
  | cbwait (buf : Fin 16) (c : Reg)
  /-- R187. After earlier path-T accesses, adds the count to the posted count. -/
  | cbpost (buf : Fin 16) (c : Reg)
  /-- R187. Adds the count to the freed count. -/
  | cbfree (buf : Fin 16) (c : Reg)
  /-- R187. Returns the buffer's space and fill. -/
  | cbstat (buf : Fin 16) (d : Reg)
  /-- R189. Pushes a word with a tag to a neighbour queue, parking without a credit. -/
  | npush (rl : Bool) (dir : Dir) (b c : Reg)
  /-- R189. Pushes a vector register with a tag to a neighbour queue. -/
  | npushv (rl : Bool) (dir : Dir) (b c : Reg)
  /-- R190. Takes the head entry of an input queue as a word, parking while empty. -/
  | npop (aq : Bool) (dir : Dir) (d c : Reg)
  /-- R190. Takes the head entry of an input queue into a vector register. -/
  | npopv (aq : Bool) (dir : Dir) (d c : Reg)
  /-- R190. Reads the head entry without removing it. -/
  | npeek (dir : Dir) (d c : Reg)
  /-- R191. Returns the status of the queues and links in a direction. -/
  | nstat (dir : Dir) (d : Reg)
  /-- R193. Requests binding or unbinding of a field port, parking until the Prism answers. -/
  | pbind (b c : Reg)
  /-- R194. Sends one span of the sender's field on a port with release effect. -/
  | psend (b c : Reg)
  /-- R195. Receives an interval's result on a port with acquire effect. -/
  | precv (b c : Reg)
  /-- R196. Returns the port status word. -/
  | pstat (d b : Reg)
  /-- R20. Reads a task record, increments its join counter and pushes it, or runs it inline when the deque is full. -/
  | fork (k : RClass) (b : Reg)
  /-- R198. Parks until the join counter reads zero, with acquire effect. -/
  | join (k : RClass) (b : Reg)
  /-- R20. Reports recorded engine errors, decrements the join counter and ends the task or returns from an inline task. -/
  | tend (k : RClass)
  /-- R201. Arrives at a core barrier. -/
  | barc (b : Fin 4)
  /-- R201. Arrives at a cluster barrier. -/
  | bark (b : Fin 16)
  /-- R45. Issuing an encoding that is not an instruction raises 0x01, 0x02 or 0x03 and changes no state. -/
  | invalidInstruction (why : Reject) (bits : BitVec 32)
  /-- R172. The matrix unit takes the next queued command and reads its operands and accumulator. Reads core = arg.n. -/
  | matrixCommandStart
  /-- R172. After its occupancy, a matrix command writes its accumulator or rows, or ends in a deferred error. Reads core = arg.n. -/
  | matrixCommandEnd
  /-- R176. A rotated tile arrives in the receiver's rotation buffer or its operand locations. Reads core = arg.n, isB = arg.yes. -/
  | mmarTileArrival
  /-- R176. An MMAR whose tiles have not arrived within NBOUND ends with deferred error 0x66. Reads core = arg.n. -/
  | mmarRotationTimeout
  /-- R181. A copy command starts, samples bank formats and makes its start checks. Reads core = arg.n, cmd = arg.k. -/
  | copyStart
  /-- R180. Every element of a copy has been performed, or the copy ends at a failing element. Reads core = arg.n, cmd = arg.k. -/
  | copyComplete
  /-- R183. A copy into a circular buffer writes its bytes once space is free and adds to the posted count. Reads core = arg.n, cmd = arg.k. -/
  | cbCopySpace
  /-- R184. After the copy lands, the follow-on command enters the matrix queue when it has room. Reads core = arg.n, cmd = arg.k. -/
  | followOnEnqueue
  /-- R189. A pushed entry crosses the link and stands in the partner's input queue. Reads tid = arg.n, dir = arg.dir. -/
  | neighbourEntryLand
  /-- R189. A credit returned by a pop reaches the pusher, which may resume. Reads tid = arg.n, dir = arg.dir. -/
  | neighbourCreditReturn
  /-- R190. A push, pop or BTAG parked beyond NBOUND raises 0x81. Reads tid = arg.n. -/
  | neighbourTimeout
  /-- R260. The Prism checks a descriptor and weight table and binds the port or refuses with a reason. Reads cluster = arg.n. -/
  | prismBind
  /-- R261. The Prism unbinds a port, releasing parked senders and receivers with 0x84. Reads cluster = arg.n. -/
  | prismUnbind
  /-- R263. The Prism checks a span, reads BUF and adds it into the accumulators. Reads cluster = arg.n. -/
  | prismSend
  /-- R263. A set-aside send resumes once the pending interval close is done. Reads port = arg.n. -/
  | prismSendResume
  /-- R264. The Prism delivers the held interval, releases it, or sets the receive aside. Reads cluster = arg.n. -/
  | prismReceive
  /-- R264. A set-aside receive is served once J reaches the interval it asks for. Reads port = arg.n. -/
  | prismReceiveResume
  /-- R196. The Prism answers a status query with the port status word. Reads cluster = arg.n. -/
  | prismStatus
  /-- R267. Once RESFREE is 1, the Prism averages, remaps, normalises and checks conservation, advancing J. Reads port = arg.n. -/
  | intervalClose
  /-- R266. A PSEND or PRECV parked beyond WAIT raises 0x82. Reads tid = arg.n. -/
  | portWaitTimeout
  /-- R198. A parked JOIN re-reads its counter at its home at the interval or after a decrement. Reads tid = arg.n. -/
  | joinPoll
  /-- R201. An arrival is counted once its earlier path-T accesses are performed, releasing the generation at NEED. Reads tid = arg.n. -/
  | barrierArrivalCount
  /-- R233. Instruction fetch brings parcels into the thread's fetch buffer under seg0. Reads tid = arg.n, ahead = arg.yes, offset = arg.word. -/
  | parcelFetch
  /-- R16. The core's service thread executes one active message in its slot. Reads core = arg.n. -/
  | serviceMessage
  /-- R153. A queued examination pass completes the first set-aside full/empty operation whose condition holds. Reads core = arg.n. -/
  | feExamination
  /-- R153. Every 1,024 cycles from its arrival, a set-aside entry is examined again. Reads core = arg.n, entry = arg.k. -/
  | fePeriodicExamination
  /-- R150. The answer to a load, atomic or full/empty operation arrives and the thread resumes. Reads req = arg.n, keep = arg.yes. -/
  | remoteReply
  /-- R146. A posted store is acknowledged by its home, or a deferred cause is recorded for its thread. Reads req = arg.n. -/
  | storeAcknowledge
  /-- R286. After its back-off, a refused request is injected again, raising 0x90 past RNRLIM. Reads req = arg.n. -/
  | rnrRetry
  /-- R239. A home applies a request to a location, one at a time. Reads req = arg.n, replica = arg.yes. -/
  | homeApply
  /-- R243. A held class O write is applied once the prefix vector covers its stamp. Reads req = arg.n. -/
  | gateApply
  /-- R243. A flit header updates the receiving die's prefix vector. Reads src = arg.n, dst = arg.k. -/
  | beaconReceive
  /-- R243. A changed prefix with no flit due is sent within 32 cycles. Reads src = arg.n, dst = arg.k. -/
  | beaconTimer
  /-- R245. A replica applies a write sent by its home. Reads die = arg.n, line = arg.k. -/
  | replicaUpdate
  /-- R245. A replica is dropped from a cache array. Reads die = arg.n, line = arg.k. -/
  | replicaDrop
  /-- R275. A fault record held for a full ring is written once a slot frees, and the service is woken. Reads comp = arg.n. -/
  | faultRecordRelease
  /-- R275. A store to WAKEGVA sets the wake flag and releases the accesses held on page faults. Reads tid = arg.n. -/
  | faultWake
  /-- R275. A fault with no wake message within FSBOUND raises 0x36. Reads tid = arg.n. -/
  | faultServiceTimeout
  /-- R273. A thread parked on an unbounded wait beyond WDLIM*1024 cycles raises 0xA1. Reads tid = arg.n. -/
  | watchdog
  /-- R108. A write to a thread's wake word sets its wake flag. Reads tid = arg.n. -/
  | wakeWordWrite
  /-- R277. A write to SDREQ starts a TLB shoot-down across the package. Reads core = arg.n; die + 1 =
  arg.k where the request reaches another die. -/
  | shootdownRequest
  /-- R277. A cluster port acknowledges a shoot-down; the last acknowledgement clears BUSY. Reads core = arg.n, cluster =
  arg.k, and whether the acknowledgement arrives = arg.yes. -/
  | shootdownAck
  /-- R219. A write to a control-window register that has no row of its own. Reads core = arg.n, off = arg.k, v = arg.word, priv = arg.yes. -/
  | controlWindowWrite
  /-- R208. An idle thread takes a record from the landing slot or deque bottom. Reads core = arg.n. -/
  | taskTake
  /-- R19. A core with an idle thread and no records sends a steal request to its victim. Reads core = arg.n. -/
  | stealRequest
  /-- R207. A victim answers a steal request with its top record or empty. Reads thief = arg.n. -/
  | stealService
  /-- R19. A steal reply arrives; a record goes to the landing slot. Reads core = arg.n. -/
  | stealReply
  /-- R208. The steal back-off after an empty reply runs out. Reads core = arg.n. -/
  | stealBackoffExpiry
  /-- R204. An entry's slot time is reached and it starts, skips, defers or faults by its overrun rule. Reads entry = arg.n. -/
  | stepSlot
  /-- R21. A root record held for a full deque is pushed once a slot frees. Reads entry = arg.n. -/
  | sequencerRootPush
  /-- R206. A host message is placed in a mailbox ring, HEAD advanced and the dispatcher woken. Reads mbox = arg.n, spkg = arg.k, msg = arg.bytes. -/
  | mailboxWrite
  /-- R12. Rambeod checks the descriptors and makes a program resident or refuses it. Reads spkg = arg.n, img = arg.prog. -/
  | programResident
  /-- R10. Rambeod removes the resident program. Reads spkg = arg.n. -/
  | programRemove
  /-- R279. Rambeod suspends a component and saves its state. Reads spkg = arg.n, comp = arg.k, saveLs = arg.yes. -/
  | componentSuspend
  /-- R279. Rambeod restores a suspended component's state. Reads spkg = arg.n, comp = arg.k. -/
  | componentResume
  /-- R281. A component is ended, its threads halted and its ports unbound. Reads spkg = arg.n, comp = arg.k. -/
  | componentEnd
  /-- R222. The scrubber reads a word, correcting single errors and poisoning lines on uncorrectable ones. Reads loc = arg.n, err = arg.ecc. -/
  | scrubRead
  /-- R15. A debugger halts a thread. Reads tid = arg.n. -/
  | debugHalt
  /-- R15. A debugger resumes a halted thread to ready. Reads tid = arg.n. -/
  | debugResume
  /-- R282. A UCIe flit is received, checked by CRC and its messages delivered, or replay is requested. Reads src = arg.n, dst = arg.k, flit = arg.bytes. -/
  | flitReceive
  /-- R282. The sender replays flits go-back-N from its replay buffer. Reads src = arg.n, dst = arg.k. -/
  | flitReplay
  /-- R285. A gateway receives an Erg packet and converts it into the package, in SEQ order for class O. Reads gw = arg.n, link = arg.k, pkt =
  arg.pkt; a packet that the other gateway has passed on over UCIe = arg.yes, with the time of its arrival in arg.nums. -/
  | ergPacketReceive
  /-- R285. An unacknowledged packet is resent after ETO cycles, answering unreachable after the seventh resend. Reads gw = arg.n, tag = arg.k. -/
  | gatewayResendTimeout
  /-- R287. Every 1,024 cycles RATE tokens are added to an ASID's bucket. Reads gw = arg.n, asid = arg.k. -/
  | tokenAdd
  /-- R287. Rambeod sets an ASID's token bucket on the owner's request. Reads spkg = arg.n, gw = arg.k, asid = arg.p, rate = arg.q, burst = arg.r. -/
  | tokenBucketSet
  /-- R288. Rambeod sets the reserved buffer entries of the traffic groups. Reads spkg = arg.n, buf = arg.k, mins = arg.nums. -/
  | trafficMinSet
  /-- R291. A Sync message is timestamped by the 1588 clock. Reads seq = arg.n, domain = arg.q, sender = arg.r, and the time
  of its arrival at a link of die 9 in arg.nums. -/
  | ptpSync
  /-- R291. A Follow_Up message gives the master timestamp and the clock is corrected. Reads seq = arg.n, masterNs =
  arg.k, fraction = arg.p, domain = arg.q, sender = arg.r. -/
  | ptpFollowUp
  /-- R291. A Delay_Resp completes a delay measurement. Reads seq = arg.n, masterNs = arg.k, fraction = arg.p,
  domain = arg.q, sender = arg.r. -/
  | ptpDelayResp
  /-- R291. An Announce message is received by the 1588 clock. Reads domain = arg.n, master = arg.k. -/
  | ptpAnnounce
  /-- R293. A host claims ownership, granted if there is no owner. Reads host = arg.n. -/
  | claim
  /-- R293. The owner restarts its lease. Reads host = arg.n. -/
  | renew
  /-- R293. The owner nominates another host. Reads host = arg.n, nominee = arg.k. -/
  | handover
  /-- R293. The nominee takes ownership within the lease. Reads host = arg.n. -/
  | accept
  /-- R293. The owner's lease runs out and no host is owner. -/
  | leaseExpiry
  /-- R295. Rambeod answers a nonce with a signed quote. Reads host = arg.n, nonce = arg.bytes. -/
  | attestQuote
  /-- R292. A host reads telemetry, step-entry state or the save area. Reads host = arg.n, what = arg.item. -/
  | managementRead
  /-- R294. In recovery, the device accepts a new firmware image by management message. Reads image = arg.n, forFirmware = arg.yes. -/
  | recoveryImage
  /-- R296. Power-on or module reset runs the cold start sequence. Reads image = arg.n, firmware = arg.k. -/
  | coldStart
  /-- R296. At the owner's request the device restarts, keeping HBM if asked. Reads host = arg.n, image = arg.k, firmware = arg.p, keepHbm = arg.yes. -/
  | warmStart
  /-- R297. A thermal alarm is reported to the owner. -/
  | thermalAlarm
  /-- R297. The management controller removes power on a thermal trip. -/
  | thermalTrip
  /-- R146. The core links or cluster port accept a posted store with its checks and translation passed, numbering it if class O, and a thread parked for the acceptance resumes. Reads req = arg.n. -/
  | postedStoreAcceptance
  /-- R291. The slave clock sends a Delay_Req and takes its transmit timestamp as the first byte leaves the link. Reads seq = arg.n. -/
  | ptpDelayReq
  deriving DecidableEq, Repr

end Sys2Proof
end

