-- ==== Sys2Proof/Machine/Format.lean ====
section
/-!
DEFINITION. The number formats and their exact arithmetic (03 R33 to R43): decoding a code to an exact value, the one
rounding of `roundTo`, the operations of 07 R97 to R99 on codes, block scales, DXB blocks and the matrix dot product.
A finite value is a signed dyadic, (−1)^neg · m · 2^e.
-/

namespace Sys2Proof.Machine

/-- The five flags, as the low bits of FCSR (03 R37): NX, UF, OF, DZ, NV. -/
abbrev Flags := BitVec 5
def fNX : Flags := 1
def fUF : Flags := 2
def fOF : Flags := 4
def fDZ : Flags := 8
def fNV : Flags := 16

/-- A rounding mode (03 R36). -/
inductive RMode where
  | rne | rtz | rdn | rup
  deriving DecidableEq, Repr

/-- A floating-point format: exponent bits, fraction bits, bias; `e4m3` has no infinity and one NaN code (03 R33). -/
structure Fmt where
  eb : Nat
  fb : Nat
  bias : Nat
  e4m3 : Bool
  deriving DecidableEq, Repr

def FP64 : Fmt := ⟨11, 52, 1023, false⟩
def FP32 : Fmt := ⟨8, 23, 127, false⟩
def FP16 : Fmt := ⟨5, 10, 15, false⟩
def BF16 : Fmt := ⟨8, 7, 127, false⟩
def E4M3 : Fmt := ⟨4, 3, 7, true⟩
def E5M2 : Fmt := ⟨5, 2, 15, false⟩

namespace Fmt
def width (f : Fmt) : Nat := 1 + f.eb + f.fb
/-- Exponent of the smallest normal. -/
def emin (f : Fmt) : Int := 1 - f.bias
/-- Exponent of the largest finite value. -/
def emax (f : Fmt) : Int := (if f.e4m3 then 2 ^ f.eb - 1 else 2 ^ f.eb - 2) - f.bias
/-- Significand of the largest finite value, in units of 2^(emax − fb). -/
def mmax (f : Fmt) : Nat := if f.e4m3 then 2 ^ (f.fb + 1) - 2 else 2 ^ (f.fb + 1) - 1
/-- The magnitude code of infinity. -/
def infCode (f : Fmt) : Nat := (2 ^ f.eb - 1) * 2 ^ f.fb
/-- The magnitude code of the largest finite value. -/
def maxCode (f : Fmt) : Nat := if f.e4m3 then 2 ^ (f.eb + f.fb) - 2 else f.infCode - 1
/-- The canonical NaN: in the IEEE formats and E5M2 the quiet bit alone, in E4M3 code 0x7F (03 R33). -/
def canonNaN (f : Fmt) : Nat := if f.e4m3 then 2 ^ (f.eb + f.fb) - 1 else f.infCode + 2 ^ (f.fb - 1)
/-- Put the sign on a magnitude code. -/
def sign (f : Fmt) (neg : Bool) (mag : Nat) : Nat := if neg then 2 ^ (f.eb + f.fb) + mag else mag
end Fmt

/-- An exact value. -/
inductive FVal where
  | nan (sig : Bool)
  | inf (neg : Bool)
  | fin (neg : Bool) (m : Nat) (e : Int)
  deriving DecidableEq, Repr

namespace FVal
def isNaN : FVal → Bool | nan _ => true | _ => false
def isSig : FVal → Bool | nan s => s | _ => false
def isInf : FVal → Bool | inf _ => true | _ => false
def isZero : FVal → Bool | fin _ m _ => m == 0 | _ => false
def neg : FVal → FVal
  | nan s => nan s | inf n => inf (!n) | fin n m e => fin (!n) m e
def abs : FVal → FVal
  | nan s => nan s | inf _ => inf false | fin _ m e => fin false m e
def isNeg : FVal → Bool | nan _ => false | inf n => n | fin n _ _ => n
/-- Multiply by 2^k. -/
def scale (k : Int) : FVal → FVal
  | nan s => nan s | inf n => inf n | fin n m e => fin n m (e + k)
end FVal

/-- The value of a code (03 R33). In the 8-bit formats every NaN is quiet. -/
def decodeF (f : Fmt) (c : Nat) : FVal :=
  let s := c / 2 ^ (f.eb + f.fb) % 2 == 1
  let e := c / 2 ^ f.fb % 2 ^ f.eb
  let m := c % 2 ^ f.fb
  let top := 2 ^ f.eb - 1
  if f.e4m3 && e == top && m == 2 ^ f.fb - 1 then .nan false
  else if !f.e4m3 && e == top then
    if m = 0 then .inf s else .nan (decide (8 < f.width) && decide (m < 2 ^ (f.fb - 1)))
  else if e = 0 then .fin s m (f.emin - f.fb)
  else .fin s (m + 2 ^ f.fb) ((e : Int) - f.bias - f.fb)

/-- A subnormal code: exponent zero and fraction nonzero. -/
def isSubnormal (f : Fmt) (c : Nat) : Bool := c / 2 ^ f.fb % 2 ^ f.eb == 0 && c % 2 ^ f.fb != 0

/-- A nonnegative rational times a power of two, split into integer part, remainder and denominator. -/
def divPow (num den : Nat) (k : Int) : Nat × Nat × Nat :=
  if 0 ≤ k then let n := num * 2 ^ k.toNat; (n / den, n % den, den)
  else let d := den * 2 ^ (-k).toNat; (num / d, num % d, d)

/-- RoundInt on a magnitude (03 R38): the integer part, corrected by the remainder. -/
def roundMag (rm : RMode) (neg : Bool) (q r d : Nat) : Nat :=
  match rm with
  | .rne => if d < 2 * r || (2 * r == d && q % 2 == 1) then q + 1 else q
  | .rtz => q
  | .rdn => if neg && r != 0 then q + 1 else q
  | .rup => if !neg && r != 0 then q + 1 else q

/-- floor(log2 (num/den)) for positive num and den. -/
def log2Rat (num den : Nat) : Int :=
  let d : Int := (Nat.log2 num : Int) - (Nat.log2 den : Int)
  let ge := if 0 ≤ d then decide (den * 2 ^ d.toNat ≤ num) else decide (den ≤ num * 2 ^ (-d).toNat)
  if ge then d else d - 1

/-- Rounds towards zero for overflow (03 R38). -/
def towardsZero (rm : RMode) (neg : Bool) : Bool :=
  match rm with | .rne => false | .rtz => true | .rdn => !neg | .rup => neg

/-- RoundToFormat on (−1)^neg · (num/den) · 2^e (03 R38), with the flags of 03 R37 and R39. -/
def roundRat (f : Fmt) (rm : RMode) (sat neg : Bool) (num den : Nat) (e : Int) : Nat × Flags :=
  if num = 0 then (f.sign neg 0, 0) else
  let l := log2Rat num den + e
  let ex := max l f.emin
  let (q0, r, d) := divPow num den (e - ex + f.fb)
  let q := roundMag rm neg q0 r d
  let nx := r != 0
  if f.emax < ex || (ex == f.emax && decide (f.mmax < q)) then
    let c := if sat || towardsZero rm neg then f.sign neg f.maxCode
      else if f.e4m3 then f.canonNaN else f.sign neg f.infCode
    (c, fOF ||| fNX)
  else
    let (u0, ur, ud) := divPow num den (e - l + f.fb)
    let u := roundMag rm neg u0 ur ud
    let tiny := decide (l < f.emin) && !(l == f.emin - 1 && u == 2 ^ (f.fb + 1))
    (f.sign neg ((ex - f.emin).toNat * 2 ^ f.fb + q),
      (if nx then fNX else 0) ||| (if tiny && nx then fUF else 0))

/-- RoundToFormat of a value (03 R38) with the flags of the table of R39. -/
def roundTo (f : Fmt) (rm : RMode) (sat : Bool) : FVal → Nat × Flags
  | .nan sig => (f.canonNaN, if sig then fNV else 0)
  | .inf n =>
    if sat then (f.sign n f.maxCode, fNV)
    else if f.e4m3 then (f.canonNaN, fNV)
    else (f.sign n f.infCode, 0)
  | .fin n m e => roundRat f rm sat n m 1 e

/-- A signed dyadic sum: mantissa and exponent. -/
def addDy (a b : Int × Int) : Int × Int :=
  let e := min a.2 b.2
  (a.1 * 2 ^ (a.2 - e).toNat + b.1 * 2 ^ (b.2 - e).toNat, e)

/-- A finite value as a signed dyadic. -/
def toDy (n : Bool) (m : Nat) (e : Int) : Int × Int := (if n then -(m : Int) else m, e)

/-- The exact sum of two values (07 R97). The flag is NV. -/
def addV (rm : RMode) (a b : FVal) : FVal × Flags :=
  match a, b with
  | .nan s, y => (.nan false, if s || y.isSig then fNV else 0)
  | _, .nan s => (.nan false, if s then fNV else 0)
  | .inf n, .inf k => if n = k then (.inf n, 0) else (.nan false, fNV)
  | .inf n, .fin _ _ _ => (.inf n, 0)
  | .fin _ _ _, .inf n => (.inf n, 0)
  | .fin n m e, .fin k o h =>
    let s := addDy (toDy n m e) (toDy k o h)
    if s.1 = 0 then (.fin (if n = k then n else rm == .rdn) 0 0, 0)
    else (.fin (decide (s.1 < 0)) s.1.natAbs s.2, 0)

/-- The exact product of two values (07 R97). -/
def mulV (a b : FVal) : FVal × Flags :=
  match a, b with
  | .nan s, y => (.nan false, if s || y.isSig then fNV else 0)
  | _, .nan s => (.nan false, if s then fNV else 0)
  | .inf n, .inf k => (.inf (n != k), 0)
  | .inf n, .fin k o _ => if o = 0 then (.nan false, fNV) else (.inf (n != k), 0)
  | .fin n m _, .inf k => if m = 0 then (.nan false, fNV) else (.inf (n != k), 0)
  | .fin n m e, .fin k o h => (.fin (n != k) (m * o) (e + h), 0)

/-- Round a value that an operation formed exactly, keeping the operation's flags. -/
def roundOp (f : Fmt) (rm : RMode) (x : FVal × Flags) : Nat × Flags :=
  match x.1 with
  | .nan _ => (f.canonNaN, x.2)
  | v => let r := roundTo f rm false v; (r.1, x.2 ||| r.2)

def fAdd (f : Fmt) (rm : RMode) (a b : Nat) : Nat × Flags := roundOp f rm (addV rm (decodeF f a) (decodeF f b))
def fSub (f : Fmt) (rm : RMode) (a b : Nat) : Nat × Flags := roundOp f rm (addV rm (decodeF f a) (decodeF f b).neg)
def fMul (f : Fmt) (rm : RMode) (a b : Nat) : Nat × Flags := roundOp f rm (mulV (decodeF f a) (decodeF f b))

/-- a·b + d with one rounding; 0·∞ raises NV even when d is a quiet NaN (07 R98). -/
def fmaV (rm : RMode) (a b d : FVal) : FVal × Flags :=
  let p := mulV a b
  let s := addV rm p.1 d
  (s.1, p.2 ||| s.2)
def fFma (f : Fmt) (rm : RMode) (a b d : Nat) : Nat × Flags :=
  roundOp f rm (fmaV rm (decodeF f a) (decodeF f b) (decodeF f d))
/-- −(a·b + d), the exact negated value rounded once (09 R126). DEDUCED: an exact zero a·b + d is signed by 07 R97 and then
negated (log entry 20). -/
def fNma (f : Fmt) (rm : RMode) (a b d : Nat) : Nat × Flags :=
  let s := fmaV rm (decodeF f a) (decodeF f b) (decodeF f d)
  roundOp f rm (s.1.neg, s.2)

/-- Division (07 R97). -/
def fDiv (f : Fmt) (rm : RMode) (a b : Nat) : Nat × Flags :=
  match decodeF f a, decodeF f b with
  | .nan s, y => (f.canonNaN, if s || y.isSig then fNV else 0)
  | _, .nan s => (f.canonNaN, if s then fNV else 0)
  | .inf _, .inf _ => (f.canonNaN, fNV)
  | .inf n, .fin k _ _ => (f.sign (n != k) f.infCode, 0)
  | .fin n _ _, .inf k => (f.sign (n != k) 0, 0)
  | .fin n m e, .fin k o h =>
    if o = 0 then
      if m = 0 then (f.canonNaN, fNV) else (f.sign (n != k) f.infCode, fDZ)
    else roundRat f rm false (n != k) m o (e - h)

/-- The integer square root, bit by bit. -/
def isqrtAux : Nat → Nat → Nat → Nat
  | 0, _, r => r
  | k + 1, n, r => let t := r + 2 ^ k; isqrtAux k n (if t * t ≤ n then t else r)
def isqrt (n : Nat) : Nat := isqrtAux (Nat.log2 n / 2 + 1) n 0

/-- Square root (07 R97): the root is taken with 60 bits more than it needs, and a sticky bit. -/
def fSqrt (f : Fmt) (rm : RMode) (a : Nat) : Nat × Flags :=
  match decodeF f a with
  | .nan s => (f.canonNaN, if s then fNV else 0)
  | .inf n => if n then (f.canonNaN, fNV) else (f.infCode, 0)
  | .fin n m e =>
    if m = 0 then (f.sign n 0, 0)
    else if n then (f.canonNaN, fNV)
    else
      let k := 2 * (f.fb + 4) + (if e % 2 = 0 then 0 else 1)
      let mm := m * 2 ^ k
      let r := isqrt mm
      let t := 2 * r + (if r * r = mm then 0 else 1)
      roundRat f rm false false t 1 ((e - k) / 2 - 1)

/-- Order of two values that are not NaN: −1, 0 or 1; zeros are equal. -/
def cmpV (a b : FVal) : Int :=
  match a, b with
  | .inf n, .inf k => if n = k then 0 else if n then -1 else 1
  | .inf n, _ => if n then -1 else 1
  | _, .inf k => if k then 1 else -1
  | .fin n m e, .fin k o h =>
    let s := addDy (toDy n m e) (toDy (!k) o h)
    if s.1 < 0 then -1 else if s.1 = 0 then 0 else 1
  | _, _ => 0

/-- FMIN (mx false) and FMAX (mx true) on codes: −0 below +0; one NaN gives the other operand (07 R98). -/
def fMinMax (f : Fmt) (mx : Bool) (a b : Nat) : Nat × Flags :=
  let x := decodeF f a; let y := decodeF f b
  let fl : Flags := if x.isSig || y.isSig then fNV else 0
  if x.isNaN && y.isNaN then (f.canonNaN, fl)
  else if x.isNaN then (b, fl)
  else if y.isNaN then (a, fl)
  else
    let c := cmpV x y
    let less := decide (c < 0) || (c == 0 && x.isNeg)
    (if less != mx then a else b, fl)

/-- FEQ, FLT, FLE (07 R98). -/
def fEq (f : Fmt) (a b : Nat) : Bool × Flags :=
  let x := decodeF f a; let y := decodeF f b
  if x.isNaN || y.isNaN then (false, if x.isSig || y.isSig then fNV else 0) else (cmpV x y == 0, 0)
def fLt (f : Fmt) (a b : Nat) : Bool × Flags :=
  let x := decodeF f a; let y := decodeF f b
  if x.isNaN || y.isNaN then (false, fNV) else (decide (cmpV x y < 0), 0)
def fLe (f : Fmt) (a b : Nat) : Bool × Flags :=
  let x := decodeF f a; let y := decodeF f b
  if x.isNaN || y.isNaN then (false, fNV) else (decide (cmpV x y ≤ 0), 0)

/-- The class word (07 R98). -/
def fClass (f : Fmt) (a : Nat) : Nat :=
  let s := a / 2 ^ (f.eb + f.fb) % 2
  let k := match decodeF f a with
    | .nan sig => if sig then 64 else 32
    | .inf _ => 16
    | .fin _ m _ => if m = 0 then 2 else if isSubnormal f a then 4 else 8
  s + k

/-- Magnitude of a, sign of b, bits copied (07 R98). -/
def fSgnj (f : Fmt) (a b : Nat) : Nat :=
  a % 2 ^ (f.eb + f.fb) + (b / 2 ^ (f.eb + f.fb) % 2) * 2 ^ (f.eb + f.fb)

/-- Clamp (03, helper Sat). -/
def satInt (x lo hi : Int) : Int := if x < lo then lo else if hi < x then hi else x

/-- The signed integer nearest a finite value under a mode, and whether it is inexact. -/
def roundInt (rm : RMode) (n : Bool) (m : Nat) (e : Int) : Int × Bool :=
  let (q, r, d) := divPow m 1 e
  let k := roundMag rm n q r d
  (if n then -(k : Int) else k, r != 0)

/-- FP to integer (03 R39, 07 R99): clamped to [lo, hi]; NaN gives 0. Whether a value is beyond the range is judged on the rounded
integer: 127.4 to INT8 is 127 with NX (DESIGN CHOICE, log entry 52: R39 does not say whether it is the source value that counts). -/
def fToInt (rm : RMode) (lo hi : Int) : FVal → Int × Flags
  | .nan _ => (0, fNV)
  | .inf n => (if n then lo else hi, fNV)
  | .fin n m e =>
    let r := roundInt rm n m e
    if r.1 < lo || hi < r.1 then (satInt r.1 lo hi, fNV) else (r.1, if r.2 then fNX else 0)

/-- An integer as a value. -/
def ofInt (x : Int) : FVal := .fin (decide (x < 0)) x.natAbs 0

/-! ### Block scales and DXB blocks -/

/-- The greatest magnitude of a list; NaN if any element is NaN (03 R40). -/
def amaxV : List FVal → FVal
  | [] => .fin false 0 0
  | x :: r =>
    let t := amaxV r
    if x.isNaN || t.isNaN then .nan false else if cmpV t x.abs < 0 then x.abs else t

/-- BlockScale (03 R40). -/
def blockScale (amax : FVal) (emax : Int) : Nat :=
  match amax with
  | .nan _ => 0xFF
  | .inf _ => 0xFF
  | .fin _ m e =>
    if m = 0 then 0x7F
    else
      let c := log2Rat m 1 + e - emax + 127
      if c < 0 then 0 else if 254 < c then 0xFE else c.toNat

/-- DxbDecode (03 R35); `w4` selects DXB4. -/
def dxbDecode (w4 : Bool) (el e0 e1 : Nat) : FVal :=
  let mb := if w4 then 2 else 6
  let m := el % 2 ^ mb
  let sel := el / 2 ^ mb % 2
  let s := el / 2 ^ (mb + 1) % 2 == 1
  let e := if sel = 1 then e1 else e0
  if e = 0xFF then .nan false
  else .fin s m ((e : Int) - 127 - (if w4 then 1 else 6))

/-- DxbEncode (03 R41): E0, E1 and the 32 element codes. -/
def dxbEncode (w4 : Bool) (shift : Nat) (x : List FVal) : Nat × Nat × List Nat :=
  if x.any (fun v => v.isNaN || v.isInf) then (0xFF, 0xFF, x.map fun _ => 0) else
  let mb := if w4 then 2 else 6
  let lg : Int := if w4 then 1 else 6
  let mmax := 2 ^ mb - 1
  let e0 := blockScale (amaxV x) (if w4 then 0 else -1)
  let e1 := e0 - shift
  let enc (v : FVal) : Nat :=
    match v with
    | .fin n m e =>
      let s := if n then 2 ^ (mb + 1) else 0
      let m1 := (roundInt .rne false m (e + lg - ((e1 : Int) - 127))).1.toNat
      if m1 ≤ mmax then s + 2 ^ mb + m1
      else s + min (roundInt .rne false m (e + lg - ((e0 : Int) - 127))).1.toNat mmax
    | _ => 0
  (e0, e1, x.map enc)

/-- Bytes of a DXB block (03 R35). -/
def blockLen (w4 : Bool) : Nat := if w4 then 18 else 34

/-- Pairs of DXB4 codes in bytes, the lower code first. -/
def pairUp : List Nat → List Nat
  | a :: b :: r => (a + 16 * b) :: pairUp r
  | l => l

/-- A block as bytes: E0, E1, then the elements (03 R35). -/
def blockBytes (w4 : Bool) (b : Nat × Nat × List Nat) : List Nat :=
  b.1 :: b.2.1 :: (if w4 then pairUp b.2.2 else b.2.2)

/-- The value of element k of a block's bytes (03 R35). -/
def blockElem (w4 : Bool) (at' : Nat → Nat) (k : Nat) : FVal :=
  let el := if w4 then at' (2 + k / 2) / 16 ^ (k % 2) % 16 else at' (2 + k)
  dxbDecode w4 el (at' 0) (at' 1)

/-! ### The matrix dot product -/

/-- FusedDot (03 R42): the FP32 code of c + Σ a·b, summed exactly. -/
def fusedDot (ab : List (FVal × FVal)) (c : FVal) : Nat :=
  let ps := ab.map fun p => (mulV p.1 p.2).1
  let ts := c :: ps
  let pos := ts.any fun t => match t with | .inf false => true | _ => false
  let ng := ts.any fun t => match t with | .inf true => true | _ => false
  if ts.any FVal.isNaN || (pos && ng) then FP32.canonNaN
  else if pos then FP32.infCode
  else if ng then FP32.sign true FP32.infCode
  else
    let s := ts.foldl (fun a t => match t with | .fin n m e => addDy a (toDy n m e) | _ => a) ((0, 0) : Int × Int)
    if s.1 = 0 then FP32.sign (ts.all FVal.isNeg) 0
    else (roundRat FP32 .rne false (decide (s.1 < 0)) s.1.natAbs 1 s.2).1

/-- The FP formats a bank can hold, by FMT code (03 R27). -/
def bankFmt : Nat → Option Fmt
  | 1 => some FP32 | 2 => some BF16 | 3 => some FP16 | 4 => some E4M3 | 5 => some E5M2 | _ => none

/-- The value of an element code under a bank format that is not DXB (13 R171). -/
def codeVal (fmt c : Nat) : FVal :=
  match bankFmt fmt with
  | some f => decodeF f c
  | none => if fmt = 6 then ofInt (BitVec.ofNat 8 c).toInt else ofInt (c % 256 : Nat)

end Sys2Proof.Machine

namespace Sys2Proof

open Machine in
/-- Formats by operand letter and type code (05 R58, R70). -/
def FFmt.fmt : FFmt → Fmt | .h => FP16 | .bf => BF16 | .s => FP32 | .d => FP64
open Machine in
def VTy.fp : VTy → Option Fmt
  | .fp64 => some FP64 | .fp32 => some FP32 | .bf16 => some BF16 | .fp16 => some FP16 | .e4m3 => some E4M3
  | .e5m2 => some E5M2 | _ => none
def VTy.width : VTy → Nat
  | .fp64 => 64 | .fp32 => 32 | .bf16 => 16 | .fp16 => 16 | .e4m3 => 8 | .e5m2 => 8 | .int8 => 8 | .uint8 => 8
  | .int16 => 16 | .int32 => 32 | .int64 => 64
def VTy.signed : VTy → Bool | .uint8 => false | _ => true

end Sys2Proof
end

