-- ==== Sys2Proof/Config.lean ====
section
/-!
DEFINITION. What an implementation or an installation fixes, and the values the manual leaves open. Each is a
constant with no body, so nothing can be proved about which value it is.
-/

namespace Sys2Proof.Config

/-- A value the manual does not state, one for each count of the free-value counter (log entry 2). -/
opaque freeWord : Nat → Word

/-- Which cached translation an access uses when the TLBs hold a matching leaf: 0 walks the tables afresh, k + 1 uses
the k-th cached leaf (17 R229; log entry 8). -/
opaque tlbChoice : Nat → Nat

/-- The header check of an Erg packet, over header bits [239:0]: the manual names a CRC-16 and no polynomial
(29 R284; log entry 12). -/
opaque headerCrc : Nat → BitVec 16

/-- The payload of a packet that carries a request to another package, and what a request packet that comes in asks for:
kind (0 read, 1 write, 2 and above an atomic), size, operand, compare value, bytes. The manual gives no payload layout
(29 R284; log entry 12). -/
opaque ergPayload : Nat → Nat → Word → Word → List Byte → List Byte
opaque ergRequest : List Byte → Nat × Nat × Word × Word × List Byte

/-- How many words a compressed payload stands for: the manual does not say how the receiver learns it (29 R290; log entry
12). -/
opaque expandedWords : List Byte → Nat

/-- CTHR, in bytes of a link's transmit queue, set by the firmware (29 R290; log entry 12). -/
opaque cthr : Nat

/-- The group that Rambeod assigns to an ASID, taken modulo 14: 0 to 13 (29 R288; log entry 12). -/
opaque assigned : Nat → Nat

/-- What a management packet says, from its payload, and the payload that says it: a kind and three numbers. The manual gives no
layout (29 R291, R292; log entry 12). -/
opaque mgmtMessage : List Byte → Nat × Nat × Nat × Nat
/-- The domain number of a message of the 1588 clock, from its payload (29 R291; log entry 12). -/
opaque ptpDomain : List Byte → Nat
opaque mgmtPayload : Nat → Nat → Nat → Nat → List Byte

/-- The payload of a flit, from what its message makes happen and after how many cycles, and the stamp it carries (request, whether in
full, mask, words): the manual lays out no message header (29 R282; log entry 12). -/
opaque flitPayload : Option (Nat × Instr × Arg) → Option (Nat × Bool × Nat × List Nat) → List Byte

/-- The gate of a die has space for this many class O writes of a source die beyond the first (21 R243; log entry 53). -/
opaque gateSpace : Nat → Nat → Nat

/-- The parts of a firmware image: the public key it carries (modulus, exponent) and its bytes, the bytes its signature covers,
its signature, and, in Rambeod's image, the key for the management firmware's. The manual gives no layout (29 R294; log entry
13). -/
opaque imageKey : Nat → Nat × Nat
opaque imageKeyBytes : Nat → List Byte
opaque imageSigned : Nat → List Byte
opaque imageSignature : Nat → Nat
opaque firmwareKey : Nat → Nat × Nat
opaque imageBytes : Nat → List Byte

/-- The bytes of the tables that Rambeod loads from a program (29 R295; log entry 13). -/
opaque tableBytes : Program → List Byte

/-- The body of an attestation quote: nonce, digests of the Rambeod image, the firmware image, the program image and its tables,
count of starts, the flag of kept HBM. The manual lists these and gives no layout (29 R295; log entry 13). -/
opaque quoteBody : List Byte → Nat → Nat → Nat → Nat → Nat → Bool → List Byte

/-- The identity key pair (modulus, private exponent) that the boot ROM derives from the fused secret, the same at every cold start
(29 R295; log entry 13). -/
opaque identityKey : Nat → Nat × Nat

/-- The 64-byte salt of the n-th signature (29 R294; log entry 13). -/
opaque salt : Nat → BitVec 512

/-- Cycles after which a gateway resends an unacknowledged packet, set by the firmware (29 R285; log entry 12). -/
opaque eto : Nat

/-- The 1588 lock threshold in nanoseconds, set by the firmware (29 R291; log entry 14). -/
opaque lockThr : Nat

/-- The entry count of a receive buffer, reported in telemetry: buffer 10·source + destination for a UCIe module, 100 + 16·gateway
+ link for an Erg link (29 R288; log entry 12). -/
opaque bufferEntries : Nat → Nat

/-- The gateway (0 for die 8, 1 for die 9) that carries class O requests for a package: the routing table is the
installation's (21 R251; log entry 12). -/
opaque gatewayFor : Nat → Bool

/-- The Erg link of a gateway, modulo 16, by which packets for a package leave in a cycle: the routes are the firmware's, which may
change them (29 R284, R285, R294; log entry 12). -/
opaque linkFor : Nat → Nat → Nat → Nat

end Sys2Proof.Config
end

