-- ==== Sys2Proof/WellFormed.lean ====
section
/-!
DEFINITION. Which terms of `Instr` stand for a step the manual has: the forms and codes an encoding admits
(05 R53 to R74), and the numbering ranges of agents (00 R3, R6).
-/

namespace Sys2Proof

/-- The FCVT type that names an operand format (05 R58). -/
def FFmt.cvtTy : FFmt → CvtTy
  | .h => .fp16 | .bf => .bf16 | .s => .fp32 | .d => .fp64

/-- The integer types of FCVT (05 R58). -/
def CvtTy.isInt : CvtTy → Bool
  | .int64 | .uint64 | .int32 | .uint32 => true
  | _ => false

/-- A system-register number that R64 assigns. -/
def sysAssigned (n : Nat) : Bool :=
  decide (n ≤ 0x010) || (decide (0x100 ≤ n) && decide (n ≤ 0x107)) || (decide (0x110 ≤ n) && decide (n ≤ 0x13F))

/-- The forms of an integer vector operation (05 R66). -/
def VForm.inVVXI : VForm → Bool | .vf => false | _ => true
def VForm.inVVX : VForm → Bool | .vv | .vx => true | _ => false
def VForm.inVXI : VForm → Bool | .vx | .vi => true | _ => false
def VForm.inVVF : VForm → Bool | .vv | .vf => true | _ => false

/-- The targets of VQSCALE (05 R70). -/
def VTy.isScaleTarget : VTy → Bool | .e4m3 | .e5m2 | .fp16 | .int8 => true | _ => false

/-- Numbering ranges (00 R3, R6; 13 R192). -/
def coreOk (n : Nat) : Bool := decide (n < 8192)
def tidOk (n : Nat) : Bool := decide (n < 131072)
def clusterOk (n : Nat) : Bool := decide (n < 512)
def portOk (n : Nat) : Bool := decide (n < 8192)
def dieOk (n : Nat) : Bool := decide (n < 10)
def pkgOk (n : Nat) : Bool := decide (n < 4096)

/-- The instruction is one the manual has: an encoding exists for it, or its agent numbers lie in range. -/
def Instr.wf : Instr → Bool
  | .loop _ _ i | .loopi _ _ i => decide (2 ≤ i.toNat)
  | .fcvtToFp f _ ty _ _ | .fcvtSat f _ ty _ _ => decide (ty ≠ f.cvtTy)
  | .fcvtToInt _ _ ty _ _ => ty.isInt
  | .sysr n _ | .sysw n _ => sysAssigned n.toNat
  | .vadd f .. | .vand f .. | .vor f .. | .vxor f .. | .vsll f .. | .vsrl f .. | .vsra f .. | .vfshl f .. | .vfshr f ..
  | .vseq f .. | .vsne f .. | .vslt f .. | .vsltu f .. | .vsle f .. | .vsleu f .. | .vmerge f .. | .vmv f ..
  | .vgather f .. => f.inVVXI
  | .vsub f .. | .vmul f .. | .vmulh f .. | .vmulhu f .. | .vmacc f .. | .vnmsac f .. | .vmin f .. | .vmax f ..
  | .vminu f .. | .vmaxu f .. => f.inVVX
  | .vrsub f .. | .vslideup f .. | .vslidedn f .. | .vextract f .. => f.inVXI
  | .vfadd _ f .. | .vfsub _ f .. | .vfmul _ f .. | .vfdiv _ f .. | .vfmacc _ f .. | .vfnmacc _ f .. | .vfmin _ f ..
  | .vfmax _ f .. | .vfsgnj _ f .. | .vfeq _ f .. | .vflt _ f .. | .vfle _ f .. => f.inVVF
  | .vmvParcel x d s => x || decide (d ≠ 0) || decide (s ≠ 0)
  | .vcvt src tgt .. => decide (src ≠ tgt)
  | .vqscale tgt .. => tgt.isScaleTarget
  | .vdxbpack _ n .. => decide (n ≠ 0)
  | .mma x y _ f .. | .mmar x y _ f .. | .mmasN1 x y _ f .. | .mmasN2 x y _ f .. | .mmasN4 x y _ f .. =>
      !(x && y) || decide (f = 0)
  | .invalidInstruction _ bits => bits.getLsbD 0
  | _ => true

/-- An event's agent numbers lie in range. -/
def eventOk (i : Instr) (a : Arg) : Bool :=
  match i with
  | .matrixCommandStart | .matrixCommandEnd | .mmarRotationTimeout | .mmarTileArrival | .serviceMessage
  | .feExamination | .shootdownRequest | .taskTake | .stealRequest | .stealReply | .stealBackoffExpiry
  | .copyStart | .copyComplete | .cbCopySpace | .followOnEnqueue | .fePeriodicExamination
  | .stealService | .controlWindowWrite => coreOk a.n
  | .neighbourEntryLand | .neighbourCreditReturn | .neighbourTimeout | .portWaitTimeout | .joinPoll
  | .barrierArrivalCount | .parcelFetch | .faultWake | .faultServiceTimeout | .watchdog | .wakeWordWrite
  | .debugHalt | .debugResume => tidOk a.n
  | .prismBind | .prismUnbind | .prismSend | .prismReceive | .prismStatus => clusterOk a.n
  | .prismSendResume | .prismReceiveResume | .intervalClose => portOk a.n
  | .beaconReceive | .beaconTimer | .flitReplay => dieOk a.n && dieOk a.k && decide (a.n ≠ a.k)
  | .flitReceive => dieOk a.n && dieOk a.k && decide (a.n ≠ a.k) && (a.bytes.isEmpty || decide (a.bytes.length = 256))
  | .replicaUpdate | .replicaDrop => decide (a.n < 8)
  | .faultRecordRelease => decide (a.n < 64)
  | .componentEnd | .componentSuspend | .componentResume => pkgOk a.n && decide (a.k < 64)
  | .shootdownAck => coreOk a.n && clusterOk a.k
  | .stepSlot | .sequencerRootPush => decide (a.n < 256)
  | .mailboxWrite => decide (a.n < 64) && pkgOk a.k && decide (a.bytes.length ≤ 2048)
  | .programResident | .programRemove | .claim | .renew | .accept | .managementRead | .warmStart => pkgOk a.n
  | .handover => pkgOk a.n && pkgOk a.k
  | .attestQuote => pkgOk a.n && decide (a.bytes.length = 64)
  | .ergPacketReceive => decide (a.n < 2) && decide (a.k < 16) && decide (a.pkt.payload.length ≤ 2048)
  | .gatewayResendTimeout => decide (a.n < 2)
  | .tokenAdd => decide (a.n < 2) && decide (a.k < 4096)
  | .tokenBucketSet => pkgOk a.n && decide (a.k < 2) && decide (a.p < 4096)
  | .trafficMinSet => pkgOk a.n && decide (a.k < 132) && decide (a.nums.length = 16)
  | .remoteReply | .storeAcknowledge | .rnrRetry | .homeApply | .gateApply | .postedStoreAcceptance | .scrubRead
  | .ptpSync | .ptpFollowUp | .ptpDelayReq | .ptpDelayResp | .ptpAnnounce | .leaseExpiry | .recoveryImage
  | .coldStart | .thermalAlarm | .thermalTrip => true
  | _ => false

end Sys2Proof
end

