-- ==== Sys2Proof/Decode.lean ====
section
/-!
DEFINITION. The decoder, total on any bytes, which rejects by name (05 R44 to R74), and after it the encoder written
from the same tables.
-/

namespace Sys2Proof

/-- The fields every 32-bit instruction has (05 R48): major [6:1], A [11:7], B [16:12], C [21:17], and bits [31:22]. -/
structure Fields where
  major : Nat
  a : Nat
  b : Nat
  c : Nat
  hi : Nat
  deriving DecidableEq, Repr

/-- Take a 32-bit word apart (05 R48). -/
def unpack (w : Nat) : Fields :=
  ⟨w / 2 % 64, w / 128 % 32, w / 4096 % 32, w / 131072 % 32, w / 4194304 % 1024⟩

/-- Put the fields of a 32-bit word together; bit 0 is 1 (05 R48). -/
def pack (f : Fields) : Nat := 1 + 2 * f.major + 128 * f.a + 4096 * f.b + 131072 * f.c + 4194304 * f.hi

/-- A register field (05 R50). -/
def rg (n : Nat) : Reg := Fin.ofNat 32 n
/-- A mask register field; bits [4:3] are checked where the field is read (05 R50). -/
def mr (n : Nat) : MReg := Fin.ofNat 8 n

/-- Bits [31:17] of an I-format word: f3 in the low three bits, imm12 above them (05 R48). -/
def Fields.ifmt (f : Fields) : Nat := f.c + 32 * f.hi
/-- imm12 of the B format (05 R48). -/
def Fields.bimm (f : Fields) : BitVec 12 := BitVec.ofNat 12 (f.a + 32 * (f.hi / 8))
/-- imm20 of the U and J formats (05 R48). -/
def Fields.uimm (f : Fields) : BitVec 20 := BitVec.ofNat 20 (f.b + 32 * f.c + 1024 * f.hi)

abbrev Dec := Except Reject Instr

/-- Cause 0x02 unless the condition holds (05 R45 step 4). -/
def need2 (ok : Bool) (x : Dec) : Dec := if ok then x else .error .unassigned
/-- Cause 0x03 unless the condition holds (05 R45 step 5). -/
def need3 (ok : Bool) (x : Dec) : Dec := if ok then x else .error .reservedBit

/-- Routing class (05 R51). -/
def clsOf : Nat → Option RClass
  | 0 => some .o | 1 => some .a | 2 => some .v | _ => none
def withCls (n : Nat) (k : RClass → Dec) : Dec :=
  match clsOf n with | some c => k c | none => .error .unassigned

/-- Rounding field (05 R58). -/
def rndOf : Nat → Option Rnd
  | 0 => some .dyn | 1 => some .rne | 2 => some .rtz | 3 => some .rdn | 4 => some .rup | _ => none
def withRnd (n : Nat) (k : Rnd → Dec) : Dec :=
  match rndOf n with | some c => k c | none => .error .unassigned

/-- Operand format (05 R58). -/
def fmtOf : Nat → FFmt
  | 0 => .h | 1 => .bf | 2 => .s | _ => .d

/-- FCVT type code (05 R58). -/
def cvtOf : Nat → Option CvtTy
  | 0 => some .fp32 | 1 => some .fp64 | 2 => some .fp16 | 3 => some .bf16
  | 4 => some .int64 | 5 => some .uint64 | 6 => some .int32 | 7 => some .uint32 | _ => none
def withCvt (n : Nat) (k : CvtTy → Dec) : Dec :=
  match cvtOf n with | some c => k c | none => .error .unassigned

/-- Element type code (05 R70). -/
def vtyOf : Nat → Option VTy
  | 0 => some .fp64 | 1 => some .fp32 | 2 => some .bf16 | 3 => some .fp16 | 4 => some .e4m3 | 5 => some .e5m2
  | 6 => some .int8 | 7 => some .uint8 | 8 => some .int16 | 9 => some .int32 | 10 => some .int64 | _ => none
def withVty (n : Nat) (k : VTy → Dec) : Dec :=
  match vtyOf n with | some c => k c | none => .error .unassigned

/-- Vector form (05 R66). -/
def formOf : Nat → VForm
  | 0 => .vv | 1 => .vx | 2 => .vi | _ => .vf

/-- Memory element width (05 R61). -/
def ewOf : Nat → Ew
  | 0 => .e8 | 1 => .e16 | 2 => .e32 | _ => .e64

/-- Direction of NPORT (05 R73). -/
def dirOf : Nat → Option Dir
  | 0 => some .n | 1 => some .e | 2 => some .s | 3 => some .w | 4 => some .t | _ => none
def withDir (n : Nat) (k : Dir → Dec) : Dec :=
  match dirOf n with | some c => k c | none => .error .unassigned

/-- Scope of FENCE (05 R62). -/
def scopeOf : Nat → Option Scope
  | 0 => some .core | 1 => some .cluster | 2 => some .die | 3 => some .package | 4 => some .system | _ => none

def bool1 (n : Nat) : Bool := n % 2 == 1

/-- OP group: bits [31:22] are {f7, f3} (05 R53). -/
def decOp (f : Fields) : Dec :=
  let d := rg f.a; let b := rg f.b; let c := rg f.c
  match f.hi with
  | 0 => .ok (.add d b c) | 1 => .ok (.sub d b c) | 2 => .ok (.and d b c) | 3 => .ok (.or d b c)
  | 4 => .ok (.xor d b c) | 5 => .ok (.andn d b c) | 6 => .ok (.slt d b c) | 7 => .ok (.sltu d b c)
  | 64 => .ok (.sll d b c) | 65 => .ok (.srl d b c) | 66 => .ok (.sra d b c)
  | 67 => .ok (.fshl d b c) | 68 => .ok (.fshr d b c)
  | 128 => .ok (.min d b c) | 129 => .ok (.minu d b c) | 130 => .ok (.max d b c) | 131 => .ok (.maxu d b c)
  | 192 => .ok (.mul d b c) | 193 => .ok (.mulh d b c) | 194 => .ok (.mulhu d b c)
  | 196 => .ok (.div d b c) | 197 => .ok (.divu d b c) | 198 => .ok (.rem d b c) | 199 => .ok (.remu d b c)
  | 384 => need3 (f.c == 0) (.ok (.clz d b)) | 385 => need3 (f.c == 0) (.ok (.ctz d b))
  | 386 => need3 (f.c == 0) (.ok (.popc d b)) | 387 => need3 (f.c == 0) (.ok (.sextw d b))
  | 388 => need3 (f.c == 0) (.ok (.zextw d b)) | 389 => need3 (f.c == 0) (.ok (.bswap d b))
  | _ => .error .unassigned

/-- OPI group (05 R54). -/
def decOpi (f : Fields) : Dec :=
  let d := rg f.a; let b := rg f.b
  let i := BitVec.ofNat 12 (f.ifmt / 8)
  let n := Fin.ofNat 64 (f.ifmt / 8)
  match f.ifmt % 8 with
  | 0 => .ok (.addi d b i) | 1 => .ok (.slti d b i) | 2 => .ok (.sltiu d b i)
  | 3 => .ok (.xori d b i) | 4 => .ok (.ori d b i) | 5 => .ok (.andi d b i)
  | 6 => match f.ifmt / 512 with
    | 0 => .ok (.slli d b n) | 1 => .ok (.srli d b n) | 2 => .ok (.srai d b n) | _ => .error .unassigned
  | _ => .error .unassigned

/-- LOAD group (05 R59). -/
def decLoad (f : Fields) : Dec :=
  let d := rg f.a; let b := rg f.b; let i := BitVec.ofNat 10 (f.c + 32 * (f.hi / 32))
  need2 (f.hi % 8 != 7) <| withCls (f.hi / 8 % 4) fun k =>
    match f.hi % 8 with
    | 0 => .ok (.lb k d b i) | 1 => .ok (.lh k d b i) | 2 => .ok (.lw k d b i) | 3 => .ok (.ld k d b i)
    | 4 => .ok (.lbz k d b i) | 5 => .ok (.lhz k d b i) | _ => .ok (.lwz k d b i)

/-- STORE group (05 R59). -/
def decStore (f : Fields) : Dec :=
  let c := rg f.c; let b := rg f.b; let i := BitVec.ofNat 10 (f.a + 32 * (f.hi / 32))
  withCls (f.hi / 8 % 4) fun k =>
    match f.hi % 8 with
    | 0 => .ok (.sb k c b i) | 1 => .ok (.sh k c b i) | 2 => .ok (.sw k c b i) | 3 => .ok (.sd k c b i)
    | _ => .error .unassigned

/-- AMO group (05 R60). -/
def decAmo (f : Fields) : Dec :=
  let d := rg f.a; let b := rg f.b; let c := rg f.c
  let w := f.hi % 8
  let dbl := w == 1
  withCls (f.hi / 8 % 4) fun k => need2 (decide (w ≤ 1)) <|
    match f.hi / 32 with
    | 0 => .ok (.amoadd k dbl d b c) | 1 => .ok (.amoand k dbl d b c) | 2 => .ok (.amoor k dbl d b c)
    | 3 => .ok (.amoxor k dbl d b c) | 4 => .ok (.amoswap k dbl d b c) | 5 => .ok (.amomin k dbl d b c)
    | 6 => .ok (.amomax k dbl d b c) | 7 => .ok (.amominu k dbl d b c) | 8 => .ok (.amomaxu k dbl d b c)
    | 9 => .ok (.amocas k dbl d b c) | 10 => .ok (.amofadd k dbl d b c) | 11 => .ok (.amofmaxa k dbl d b c)
    | 16 => need2 dbl (need3 (f.c == 0) (.ok (.synld k d b)))
    | 17 => need2 dbl (need3 (f.a == 0) (.ok (.synst k b c)))
    | 18 => need2 dbl (need3 (f.c == 0) (.ok (.feread k d b)))
    | 19 => need2 dbl (need3 (f.a == 0) (.ok (.feset k b c)))
    | _ => .error .unassigned

/-- BRANCH group (05 R56). -/
def decBranch (f : Fields) : Dec :=
  let b := rg f.b; let c := rg f.c; let i := f.bimm
  match f.hi % 8 with
  | 0 => .ok (.beq b c i) | 1 => .ok (.bne b c i) | 4 => .ok (.blt b c i) | 5 => .ok (.bge b c i)
  | 6 => .ok (.bltu b c i) | 7 => .ok (.bgeu b c i) | _ => .error .unassigned

/-- JALR and BTAG (05 R56). -/
def decJalr (f : Fields) : Dec :=
  let b := rg f.b; let i := BitVec.ofNat 12 (f.ifmt / 8)
  match f.ifmt % 8 with
  | 0 => .ok (.jalr (rg f.a) b i)
  | 6 | 7 => .error .unassigned
  | k => withDir (k - 1) fun d => need3 (decide (f.a < 16)) (.ok (.btag d (Fin.ofNat 16 f.a) b i))

/-- LOOP group (05 R57). -/
def decLoop (f : Fields) : Dec :=
  let i := BitVec.ofNat 12 (f.ifmt / 8)
  need2 (decide (2 ≤ f.ifmt / 8)) <|
    match f.ifmt % 8 with
    | 0 => need3 (f.a == 0) (.ok (.loop 0 (rg f.b) i))
    | 1 => need3 (f.a == 0) (.ok (.loop 1 (rg f.b) i))
    | 2 => .ok (.loopi 0 (Fin.ofNat 1024 (32 * f.a + f.b)) i)
    | 3 => .ok (.loopi 1 (Fin.ofNat 1024 (32 * f.a + f.b)) i)
    | _ => .error .unassigned

/-- FP group (05 R58). -/
def decFp (f : Fields) : Dec :=
  let d := rg f.a; let b := rg f.b; let c := rg f.c
  let p := fmtOf (f.hi / 8 % 4); let r := f.hi % 8
  match f.hi / 32 with
  | 1 => withRnd r fun r => .ok (.fadd p r d b c)
  | 2 => withRnd r fun r => .ok (.fsub p r d b c)
  | 3 => withRnd r fun r => .ok (.fmul p r d b c)
  | 4 => withRnd r fun r => .ok (.fdiv p r d b c)
  | 5 => withRnd r fun r => need3 (f.c == 0) (.ok (.fsqrt p r d b))
  | 6 => match r with
    | 0 => .ok (.fmin p d b c) | 1 => .ok (.fmax p d b c) | _ => .error .unassigned
  | 7 => match r with
    | 0 => .ok (.feq p d b c) | 1 => .ok (.flt p d b c) | 2 => .ok (.fle p d b c) | _ => .error .unassigned
  | 8 => need2 (r == 0) (need3 (f.c == 0) (.ok (.fclass p d b)))
  | 9 => need2 (r == 0) (.ok (.fsgnj p d b c))
  | 10 => withRnd r fun r => withCvt f.c fun t => need2 (decide (t ≠ p.cvtTy)) (.ok (.fcvtToFp p r t d b))
  | 11 => withRnd r fun r => withCvt f.c fun t => need2 (decide (t ≠ p.cvtTy)) (.ok (.fcvtSat p r t d b))
  | 12 => withRnd r fun r => withCvt f.c fun t => need2 t.isInt (.ok (.fcvtToInt p r t d b))
  | _ => .error .unassigned

/-- FMA (05 R58). -/
def decFma (f : Fields) : Dec :=
  withRnd (f.hi % 8) fun r => .ok (.fma (fmtOf (f.hi / 256)) r (rg f.a) (rg f.b) (rg f.c) (rg (f.hi / 8)))

/-- FENCE and IFENCE (05 R62). -/
def decFence (f : Fields) : Dec :=
  if f.hi / 8 % 2 = 0 then
    match scopeOf (f.hi % 8) with
    | some sc => need3 (f.a == 0 && f.b == 0 && decide (f.c < 8))
        (.ok (.fence (BitVec.ofNat 6 (f.hi / 16)) sc (BitVec.ofNat 3 f.c)))
    | none => .error .unassigned
  else need3 (f.a == 0 && f.b == 0 && f.c == 0 && f.hi == 8) (.ok .ifence)

/-- SYSTEM group (05 R63). -/
def decSystem (f : Fields) : Dec :=
  let n := f.ifmt / 8; let i := BitVec.ofNat 12 n
  let z := f.a == 0 && f.b == 0
  match f.ifmt % 8 with
  | 0 =>
    if n < 16 then need3 z (.ok (.trap (Fin.ofNat 16 n)))
    else if n = 16 then need3 z (.ok .eret)
    else if n = 17 then need3 z (.ok .halt)
    else if n = 18 then need3 z (.ok .yield)
    else if n = 19 then need3 (f.a == 0) (.ok (.waite (rg f.b)))
    else .error .unassigned
  | 1 => need2 (sysAssigned n) (need3 (f.b == 0) (.ok (.sysr i (rg f.a))))
  | 2 => need2 (sysAssigned n) (need3 (f.a == 0) (.ok (.sysw i (rg f.b))))
  | 3 => need3 (decide (f.a < 8)) (.ok (.segld (mr f.a) (rg f.b) i))
  | 4 => need3 (decide (f.a < 8)) (.ok (.segst (mr f.a) (rg f.b) i))
  | _ => .error .unassigned

/-- VSET group (05 R65). -/
def decVset (f : Fields) : Dec :=
  let d := rg f.a; let b := rg f.b
  match f.hi % 8 with
  | 0 => need3 (f.hi / 8 == 0) (.ok (.vsetl d b (rg f.c)))
  | 1 => need3 (f.c == 0) (.ok (.vsetli (Fin.ofNat 8 (f.hi / 8)) (Fin.ofNat 4 (f.hi / 64)) (bool1 (f.hi / 256))
      (bool1 (f.hi / 512)) d b))
  | _ => .error .unassigned

/-- VINT group (05 R66): f5 = hi / 32, form = hi / 8 % 4, mask = hi % 8. -/
def decVint (f : Fields) : Dec :=
  let d := rg f.a; let b := rg f.b; let c := rg f.c
  let fm := formOf (f.hi / 8 % 4); let m := mr (f.hi % 8); let md := mr f.a
  let cmp (x : Instr) : Dec := need2 fm.inVVXI (need3 (decide (f.a < 8)) (.ok x))
  match f.hi / 32 with
  | 0 => need2 fm.inVVXI (.ok (.vadd fm m d c b))
  | 1 => need2 fm.inVVX (.ok (.vsub fm m d c b))
  | 2 => need2 fm.inVXI (.ok (.vrsub fm m d c b))
  | 3 => need2 fm.inVVX (.ok (.vmul fm m d c b))
  | 4 => need2 fm.inVVX (.ok (.vmulh fm m d c b))
  | 5 => need2 fm.inVVX (.ok (.vmulhu fm m d c b))
  | 6 => need2 fm.inVVX (.ok (.vmacc fm m d c b))
  | 7 => need2 fm.inVVX (.ok (.vnmsac fm m d c b))
  | 8 => need2 fm.inVVXI (.ok (.vand fm m d c b))
  | 9 => need2 fm.inVVXI (.ok (.vor fm m d c b))
  | 10 => need2 fm.inVVXI (.ok (.vxor fm m d c b))
  | 11 => need2 fm.inVVXI (.ok (.vsll fm m d c b))
  | 12 => need2 fm.inVVXI (.ok (.vsrl fm m d c b))
  | 13 => need2 fm.inVVXI (.ok (.vsra fm m d c b))
  | 14 => need2 fm.inVVX (.ok (.vmin fm m d c b))
  | 15 => need2 fm.inVVX (.ok (.vmax fm m d c b))
  | 16 => need2 fm.inVVX (.ok (.vminu fm m d c b))
  | 17 => need2 fm.inVVX (.ok (.vmaxu fm m d c b))
  | 18 => need2 fm.inVVXI (.ok (.vfshl fm m d c b))
  | 19 => need2 fm.inVVXI (.ok (.vfshr fm m d c b))
  | 20 => need2 (fm == .vv) (need3 (f.b == 0) (.ok (.vclz m d c)))
  | 21 => need2 (fm == .vv) (need3 (f.b == 0) (.ok (.vpopc m d c)))
  | 22 => cmp (.vseq fm m md c b)
  | 23 => cmp (.vsne fm m md c b)
  | 24 => cmp (.vslt fm m md c b)
  | 25 => cmp (.vsltu fm m md c b)
  | 26 => cmp (.vsle fm m md c b)
  | 27 => cmp (.vsleu fm m md c b)
  | 28 => need2 fm.inVVXI (.ok (.vmerge fm m d c b))
  | 29 => need2 fm.inVVXI (need3 (f.c == 0 && f.hi % 8 == 0) (.ok (.vmv fm d b)))
  | _ => .error .unassigned

/-- VFP group (05 R67): f5[4] selects BF16, f5[3:0] the operation. -/
def decVfp (f : Fields) : Dec :=
  let d := rg f.a; let b := rg f.b; let c := rg f.c
  let fm := formOf (f.hi / 8 % 4); let m := mr (f.hi % 8); let md := mr f.a; let bf := bool1 (f.hi / 512)
  let bin (x : Instr) : Dec := need2 fm.inVVF (.ok x)
  let cmp (x : Instr) : Dec := need2 fm.inVVF (need3 (decide (f.a < 8)) (.ok x))
  let un (x : Instr) : Dec := need2 (fm == .vv) (need3 (f.b == 0) (.ok x))
  match f.hi / 32 % 16 with
  | 0 => bin (.vfadd bf fm m d c b)
  | 1 => bin (.vfsub bf fm m d c b)
  | 2 => bin (.vfmul bf fm m d c b)
  | 3 => bin (.vfdiv bf fm m d c b)
  | 4 => un (.vfsqrt bf m d c)
  | 5 => bin (.vfmacc bf fm m d c b)
  | 6 => bin (.vfnmacc bf fm m d c b)
  | 7 => bin (.vfmin bf fm m d c b)
  | 8 => bin (.vfmax bf fm m d c b)
  | 9 => bin (.vfsgnj bf fm m d c b)
  | 10 => cmp (.vfeq bf fm m md c b)
  | 11 => cmp (.vflt bf fm m md c b)
  | 12 => cmp (.vfle bf fm m md c b)
  | 13 => un (.vfclass bf m d c)
  | _ => .error .unassigned

/-- VRED and VPERM group (05 R68). -/
def decVred (f : Fields) : Dec :=
  let d := rg f.a; let b := rg f.b; let c := rg f.c
  let fm := formOf (f.hi / 8 % 4); let m := mr (f.hi % 8)
  let um := f.hi % 8 == 0
  match f.hi / 32 with
  | 0 => need2 (fm == .vv) (.ok (.vredsum m d c b))
  | 1 => need2 (fm == .vv) (.ok (.vredmax m d c b))
  | 2 => need2 (fm == .vv) (.ok (.vredmaxu m d c b))
  | 3 => need2 (fm == .vv) (.ok (.vredmin m d c b))
  | 4 => need2 (fm == .vv) (.ok (.vredminu m d c b))
  | 5 => need2 (fm == .vv) (.ok (.vredand m d c b))
  | 6 => need2 (fm == .vv) (.ok (.vredor m d c b))
  | 7 => need2 (fm == .vv) (.ok (.vfredosum m d c b))
  | 8 => need2 (fm == .vv) (.ok (.vfredtsum m d c b))
  | 9 => need2 (fm == .vv) (.ok (.vfredmax m d c b))
  | 10 => need2 (fm == .vv) (.ok (.vfredmin m d c b))
  | 16 => need2 (fm == .vv) (need3 (f.b == 0 && f.c == 0) (.ok (.vid m d)))
  | 17 => need2 fm.inVXI (.ok (.vslideup fm m d c b))
  | 18 => need2 fm.inVXI (.ok (.vslidedn fm m d c b))
  | 19 => need2 (fm == .vx) (.ok (.vslide1up m d c b))
  | 20 => need2 (fm == .vx) (.ok (.vslide1dn m d c b))
  | 21 => need2 fm.inVVXI (.ok (.vgather fm m d c b))
  | 22 => need2 (fm == .vv) (need3 (um && decide (f.b < 8)) (.ok (.vcompress d c (mr f.b))))
  | 23 => need2 fm.inVXI (need3 um (.ok (.vextract fm d c b)))
  | 24 => need2 (fm == .vx) (need3 um (.ok (.vinsert d c b)))
  | _ => .error .unassigned

/-- VMASK group (05 R69). -/
def decVmask (f : Fields) : Dec :=
  let vv := formOf (f.hi / 8 % 4) == .vv; let um := f.hi % 8 == 0
  let d := mr f.a; let b := mr f.b; let c := mr f.c
  let a8 := decide (f.a < 8); let b8 := decide (f.b < 8); let c8 := decide (f.c < 8)
  match f.hi / 32 with
  | 0 => need2 vv (need3 (um && a8 && b8 && c8) (.ok (.mand d b c)))
  | 1 => need2 vv (need3 (um && a8 && b8 && c8) (.ok (.mor d b c)))
  | 2 => need2 vv (need3 (um && a8 && b8 && c8) (.ok (.mxor d b c)))
  | 3 => need2 vv (need3 (um && a8 && b8 && c8) (.ok (.mandn d b c)))
  | 4 => need2 vv (need3 (um && c8 && f.b == 0) (.ok (.mpopc (rg f.a) c)))
  | 5 => need2 vv (need3 (um && c8 && f.b == 0) (.ok (.mfirst (rg f.a) c)))
  | 6 => need2 vv (need3 (um && a8 && c8 && f.b == 0) (.ok (.msbf d c)))
  | _ => .error .unassigned

/-- VLOAD and VSTORE groups (05 R61): ew = hi / 256, mode = hi / 32 % 8, class = hi / 8 % 4, mask = hi % 8. -/
def decVload (f : Fields) : Dec :=
  let v := rg f.a; let b := rg f.b; let c := rg f.c
  let ew := ewOf (f.hi / 256); let m := mr (f.hi % 8); let c0 := f.c == 0
  withCls (f.hi / 8 % 4) fun k =>
    match f.hi / 32 % 8 with
    | 0 => need3 c0 (.ok (.vld ew k m v b))
    | 1 => .ok (.vlds ew k m v b c)
    | 2 => .ok (.vldx ew k m v b c)
    | 3 => need3 c0 (.ok (.vldff ew k m v b))
    | 5 => need3 (f.hi % 8 == 0) (.ok (.vldz ew k v b c))
    | _ => .error .unassigned
def decVstore (f : Fields) : Dec :=
  let v := rg f.a; let b := rg f.b; let c := rg f.c
  let ew := ewOf (f.hi / 256); let m := mr (f.hi % 8); let c0 := f.c == 0
  withCls (f.hi / 8 % 4) fun k =>
    match f.hi / 32 % 8 with
    | 0 => need3 c0 (.ok (.vst ew k m v b))
    | 1 => .ok (.vsts ew k m v b c)
    | 2 => .ok (.vstx ew k m v b c)
    | 4 => need3 c0 (.ok (.vstb ew k m v b))
    | 5 => need3 (f.hi % 8 == 0) (.ok (.vstz ew k v b c))
    | _ => .error .unassigned

/-- VCVT group (05 R70). -/
def decVcvt (f : Fields) : Dec :=
  let d := rg f.a; let c := rg f.c; let um := f.hi % 8 == 0
  match f.hi / 256 with
  | 0 => withVty (f.hi / 16 % 16) fun s => withVty (f.b % 16) fun t => need2 (decide (s ≠ t))
      (need3 (decide (f.b < 16)) (.ok (.vcvt s t (bool1 (f.hi / 8)) (mr (f.hi % 8)) d c)))
  | 1 => withVty (f.hi / 16 % 16) fun t => need2 t.isScaleTarget
      (need3 (um && f.hi / 8 % 2 == 0) (.ok (.vqscale t d c (rg f.b))))
  | 2 =>
      let sh := f.hi / 16 % 8 + 8 * (f.hi / 8 % 2)
      need2 (sh != 0) (need3 (um && f.b == 0) (.ok (.vdxbpack (bool1 (f.hi / 128)) (Fin.ofNat 16 sh) d c)))
  | _ => need3 (um && f.b == 0 && f.hi / 8 % 16 == 0) (.ok (.vdxbunpack (bool1 (f.hi / 128)) d c))

/-- MATRIX group (05 R71): f5[4:2] = hi / 128, sources hi / 64 % 2 and hi / 32 % 2, accumulator hi / 8 % 4, f3 = hi % 8. -/
def decMatrix (f : Fields) : Dec :=
  let sa := bool1 (f.hi / 64); let sb := bool1 (f.hi / 32); let n := Fin.ofNat 4 (f.hi / 8)
  let t := mr (f.hi % 8); let a := rg f.a; let b := rg f.b; let c := rg f.c
  let reg := !(sa && sb) || f.hi % 8 == 0
  match f.hi / 128 with
  | 0 => need2 (!sa && !sb) (need3 (f.a == 0 && f.b == 0 && f.c == 0 && f.hi % 8 == 0) (.ok (.mzero n)))
  | 1 => need3 (f.c == 0 && reg) (.ok (.mma sa sb n t a b))
  | 2 => need3 (f.c == 0 && reg) (.ok (.mmar sa sb n t a b))
  | 3 => need2 (!sa && !sb) (need3 (f.a == 0 && f.c == 0 && f.hi % 8 == 0) (.ok (.mlda n b)))
  | 4 => need2 (!sa && !sb) (need3 (f.a == 0 && f.c == 0 && f.hi % 8 == 0) (.ok (.msta n b)))
  | 5 => need3 reg (.ok (.mmasN1 sa sb n t a b c))
  | 6 => need3 reg (.ok (.mmasN2 sa sb n t a b c))
  | _ => need3 reg (.ok (.mmasN4 sa sb n t a b c))

/-- COPY group (05 R72). -/
def decCopy (f : Fields) : Dec :=
  let t := mr (f.hi % 8); let d := rg f.a; let b := rg f.b; let e := rg f.c
  let z := f.hi / 8 % 4 == 0
  match f.hi / 32 with
  | 0 => withCls (f.hi / 8 % 4) fun k => .ok (.cpy k t d b e)
  | 1 => withCls (f.hi / 8 % 4) fun k => .ok (.cpym k t d b e)
  | 2 => need3 (z && f.a == 0 && f.b == 0 && f.c == 0) (.ok (.cwait t))
  | 3 => need3 (z && f.b == 0 && f.c == 0) (.ok (.cpoll t d))
  | _ => .error .unassigned

/-- CBUF group (05 R72). -/
def decCbuf (f : Fields) : Dec :=
  let n := Fin.ofNat 16 f.b; let z := f.hi % 32 == 0 && decide (f.b < 16)
  match f.hi / 32 with
  | 0 => need3 (z && f.a == 0) (.ok (.cbwait n (rg f.c)))
  | 1 => need3 (z && f.a == 0) (.ok (.cbpost n (rg f.c)))
  | 2 => need3 (z && f.a == 0) (.ok (.cbfree n (rg f.c)))
  | 3 => need3 (z && f.c == 0) (.ok (.cbstat n (rg f.a)))
  | _ => .error .unassigned

/-- NPORT group (05 R73). -/
def decNport (f : Fields) : Dec :=
  let o := bool1 (f.hi / 8); let z26 := f.hi / 16 % 2 == 0; let d := rg f.a; let b := rg f.b; let c := rg f.c
  need2 (decide (f.hi / 32 ≤ 5)) <| withDir (f.hi % 8) fun r =>
    match f.hi / 32 with
    | 0 => need3 (z26 && f.a == 0) (.ok (.npush o r b c))
    | 1 => need3 (z26 && f.a == 0) (.ok (.npushv o r b c))
    | 2 => need3 (z26 && f.b == 0) (.ok (.npop o r d c))
    | 3 => need3 (z26 && f.b == 0) (.ok (.npopv o r d c))
    | 4 => need3 (z26 && !o && f.b == 0) (.ok (.npeek r d c))
    | _ => need3 (z26 && !o && f.b == 0 && f.c == 0) (.ok (.nstat r d))

/-- FPORT group (05 R74). -/
def decFport (f : Fields) : Dec :=
  let z := f.hi % 32 == 0; let b := rg f.b; let c := rg f.c
  match f.hi / 32 with
  | 0 => need3 (z && f.a == 0) (.ok (.pbind b c))
  | 1 => need3 (z && f.a == 0) (.ok (.psend b c))
  | 2 => need3 (z && f.a == 0) (.ok (.precv b c))
  | 3 => need3 (z && f.c == 0) (.ok (.pstat (rg f.a) b))
  | _ => .error .unassigned

/-- TASK group (05 R74). -/
def decTask (f : Fields) : Dec :=
  let z := f.hi % 8 == 0 && f.a == 0 && f.c == 0
  need2 (decide (f.hi / 32 ≤ 2)) <| withCls (f.hi / 8 % 4) fun k =>
    match f.hi / 32 with
    | 0 => need3 z (.ok (.fork k (rg f.b)))
    | 1 => need3 z (.ok (.join k (rg f.b)))
    | _ => need3 (z && f.b == 0) (.ok (.tend k))

/-- BARRIER group (05 R74). -/
def decBarrier (f : Fields) : Dec :=
  let z := f.hi % 32 == 0 && f.a == 0 && f.c == 0
  match f.hi / 32 with
  | 0 => need3 (z && decide (f.b < 4)) (.ok (.barc (Fin.ofNat 4 f.b)))
  | 1 => need3 (z && decide (f.b < 16)) (.ok (.bark (Fin.ofNat 16 f.b)))
  | _ => .error .unassigned

/-- The opcode map (05 R52). -/
def decFields (f : Fields) : Dec :=
  match f.major with
  | 0x01 => decOp f
  | 0x02 => decOpi f
  | 0x03 => .ok (.lui (rg f.a) f.uimm)
  | 0x04 => .ok (.auipc (rg f.a) f.uimm)
  | 0x05 => decLoad f
  | 0x06 => decStore f
  | 0x07 => decAmo f
  | 0x08 => decBranch f
  | 0x09 => .ok (.jal (rg f.a) f.uimm)
  | 0x0A => decJalr f
  | 0x0B => decLoop f
  | 0x0C => decFp f
  | 0x0D => decFma f
  | 0x0E => decFence f
  | 0x0F => decSystem f
  | 0x10 => decVset f
  | 0x11 => decVint f
  | 0x12 => decVfp f
  | 0x13 => decVred f
  | 0x14 => decVmask f
  | 0x15 => decVload f
  | 0x16 => decVstore f
  | 0x17 => decVcvt f
  | 0x18 => decMatrix f
  | 0x19 => decCopy f
  | 0x1A => decCbuf f
  | 0x1B => decNport f
  | 0x1C => decFport f
  | 0x1D => decTask f
  | 0x1E => decBarrier f
  | _ => .error .reservedMajor

/-- Decode a 32-bit word (05 R48). -/
def decodeWord (w : BitVec 32) : Dec := decFields (unpack w.toNat)

/-- Decode a 16-bit parcel (05 R46, R47). -/
def decodeParcel (p : BitVec 16) : Instr :=
  let w := p.toNat
  let x := bool1 (w / 2); let d := rg (w / 2048); let s := rg (w / 64)
  if w = 0 then .zeroParcel
  else match w / 4 % 16 with
    | 0 => .vmvParcel x d s | 1 => .vaddParcel x d s | 2 => .vsubParcel x d s | 3 => .vmulParcel x d s
    | 4 => .vandParcel x d s | 5 => .vorParcel x d s | 6 => .vxorParcel x d s | 7 => .vsllParcel x d s
    | 8 => .vsrlParcel x d s | 9 => .vminParcel x d s | 10 => .vmaxParcel x d s | 11 => .vfaddParcel x d s
    | 12 => .vfsubParcel x d s | 13 => .vfmulParcel x d s | 14 => .vfmaxParcel x d s | _ => .vfminParcel x d s

/-- What the decoder reads from a list of bytes, lowest address first. -/
inductive Decoded where
  | instr (i : Instr) (len : Nat) (rest : List Byte)
  | reject (why : Reject) (bits : BitVec 32) (rest : List Byte)
  | short
  deriving DecidableEq, Repr

/-- Decode the instruction at the front of a list of bytes: bit 0 of the first parcel sets the length (05 R44); bytes
are little-endian (03 R26). -/
def decode : List Byte → Decoded
  | b0 :: b1 :: rest =>
    if b0.getLsbD 0 then
      match rest with
      | b2 :: b3 :: rest' =>
        let w := b3 ++ b2 ++ b1 ++ b0
        match decodeWord w with
        | .ok i => .instr i 4 rest'
        | .error why => .reject why w rest'
      | _ => .short
    else .instr (decodeParcel (b1 ++ b0)) 2 rest
  | _ => .short

/-- The bytes of a number, least significant first. -/
def bytesOf : Nat → Nat → List Byte
  | 0, _ => []
  | n + 1, w => BitVec.ofNat 8 w :: bytesOf n (w / 256)

/-- The instruction that the decoder reads from a table row's bits, stored as the hardware stores them. -/
def decodeTableWord (nbits w : Nat) : Option Instr :=
  match decode (bytesOf (if nbits ≤ 16 then 4 else nbits / 8) w) with
  | .instr i _ _ => some i
  | _ => none

/-! ### The encoder -/

def RClass.code : RClass → Nat | .o => 0 | .a => 1 | .v => 2
def Rnd.code : Rnd → Nat | .dyn => 0 | .rne => 1 | .rtz => 2 | .rdn => 3 | .rup => 4
def FFmt.code : FFmt → Nat | .h => 0 | .bf => 1 | .s => 2 | .d => 3
def CvtTy.code : CvtTy → Nat
  | .fp32 => 0 | .fp64 => 1 | .fp16 => 2 | .bf16 => 3 | .int64 => 4 | .uint64 => 5 | .int32 => 6 | .uint32 => 7
def VTy.code : VTy → Nat
  | .fp64 => 0 | .fp32 => 1 | .bf16 => 2 | .fp16 => 3 | .e4m3 => 4 | .e5m2 => 5 | .int8 => 6 | .uint8 => 7
  | .int16 => 8 | .int32 => 9 | .int64 => 10
def VForm.code : VForm → Nat | .vv => 0 | .vx => 1 | .vi => 2 | .vf => 3
def Ew.code : Ew → Nat | .e8 => 0 | .e16 => 1 | .e32 => 2 | .e64 => 3
def Dir.code : Dir → Nat | .n => 0 | .e => 1 | .s => 2 | .w => 3 | .t => 4
def Scope.code : Scope → Nat | .core => 0 | .cluster => 1 | .die => 2 | .package => 3 | .system => 4
def bit (b : Bool) : Nat := if b then 1 else 0

/-- R format: {f7, f3} in bits [31:22]. -/
def encR (major a b c f7 f3 : Nat) : Fields := ⟨major, a, b, c, 8 * f7 + f3⟩
/-- I format (05 R48). -/
def encI (major a b f3 imm : Nat) : Fields := ⟨major, a, b, (8 * imm + f3) % 32, (8 * imm + f3) / 32⟩
/-- U and J formats (05 R48). -/
def encU (major a imm : Nat) : Fields := ⟨major, a, imm % 32, imm / 32 % 32, imm / 1024⟩
/-- B format (05 R48). -/
def encB (major b c cond imm : Nat) : Fields := ⟨major, imm % 32, b, c, 8 * (imm / 32) + cond⟩
/-- L format (05 R48). -/
def encL (major a b k width imm : Nat) : Fields := ⟨major, a, b, imm % 32, 32 * (imm / 32) + 8 * k + width⟩
/-- S format (05 R48). -/
def encS (major b c k width imm : Nat) : Fields := ⟨major, imm % 32, b, c, 32 * (imm / 32) + 8 * k + width⟩
/-- V, A and X formats: f5 or op, two bits, three bits (05 R48). -/
def encV (major a b c f5 two three : Nat) : Fields := ⟨major, a, b, c, 32 * f5 + 8 * two + three⟩
/-- VM format (05 R48). -/
def encVM (major a b c ew mode k m : Nat) : Fields := ⟨major, a, b, c, 256 * ew + 32 * mode + 8 * k + m⟩
/-- A lane parcel (05 R46). -/
def encP (op : Nat) (x : Bool) (d s : Reg) : Nat := 2048 * d.val + 64 * s.val + 4 * op + 2 * bit x

/-- The fields of a 32-bit instruction; none for parcels and events. -/
def encFields : Instr → Option Fields
  | .add d b c => some (encR 1 d b c 0 0) | .sub d b c => some (encR 1 d b c 0 1)
  | .and d b c => some (encR 1 d b c 0 2) | .or d b c => some (encR 1 d b c 0 3)
  | .xor d b c => some (encR 1 d b c 0 4) | .andn d b c => some (encR 1 d b c 0 5)
  | .slt d b c => some (encR 1 d b c 0 6) | .sltu d b c => some (encR 1 d b c 0 7)
  | .sll d b c => some (encR 1 d b c 8 0) | .srl d b c => some (encR 1 d b c 8 1)
  | .sra d b c => some (encR 1 d b c 8 2) | .fshl d b c => some (encR 1 d b c 8 3)
  | .fshr d b c => some (encR 1 d b c 8 4)
  | .min d b c => some (encR 1 d b c 16 0) | .minu d b c => some (encR 1 d b c 16 1)
  | .max d b c => some (encR 1 d b c 16 2) | .maxu d b c => some (encR 1 d b c 16 3)
  | .mul d b c => some (encR 1 d b c 24 0) | .mulh d b c => some (encR 1 d b c 24 1)
  | .mulhu d b c => some (encR 1 d b c 24 2) | .div d b c => some (encR 1 d b c 24 4)
  | .divu d b c => some (encR 1 d b c 24 5) | .rem d b c => some (encR 1 d b c 24 6)
  | .remu d b c => some (encR 1 d b c 24 7)
  | .clz d b => some (encR 1 d b 0 48 0) | .ctz d b => some (encR 1 d b 0 48 1) | .popc d b => some (encR 1 d b 0 48 2)
  | .sextw d b => some (encR 1 d b 0 48 3) | .zextw d b => some (encR 1 d b 0 48 4)
  | .bswap d b => some (encR 1 d b 0 48 5)
  | .addi d b i => some (encI 2 d b 0 i.toNat) | .slti d b i => some (encI 2 d b 1 i.toNat)
  | .sltiu d b i => some (encI 2 d b 2 i.toNat) | .xori d b i => some (encI 2 d b 3 i.toNat)
  | .ori d b i => some (encI 2 d b 4 i.toNat) | .andi d b i => some (encI 2 d b 5 i.toNat)
  | .slli d b n => some (encI 2 d b 6 n.val) | .srli d b n => some (encI 2 d b 6 (64 + n.val))
  | .srai d b n => some (encI 2 d b 6 (128 + n.val))
  | .lui d i => some (encU 3 d i.toNat) | .auipc d i => some (encU 4 d i.toNat) | .jal d i => some (encU 9 d i.toNat)
  | .lb k d b i => some (encL 5 d b k.code 0 i.toNat) | .lh k d b i => some (encL 5 d b k.code 1 i.toNat)
  | .lw k d b i => some (encL 5 d b k.code 2 i.toNat) | .ld k d b i => some (encL 5 d b k.code 3 i.toNat)
  | .lbz k d b i => some (encL 5 d b k.code 4 i.toNat) | .lhz k d b i => some (encL 5 d b k.code 5 i.toNat)
  | .lwz k d b i => some (encL 5 d b k.code 6 i.toNat)
  | .sb k c b i => some (encS 6 b c k.code 0 i.toNat) | .sh k c b i => some (encS 6 b c k.code 1 i.toNat)
  | .sw k c b i => some (encS 6 b c k.code 2 i.toNat) | .sd k c b i => some (encS 6 b c k.code 3 i.toNat)
  | .amoadd k w d b c => some (encV 7 d b c 0 k.code (bit w)) | .amoand k w d b c => some (encV 7 d b c 1 k.code (bit w))
  | .amoor k w d b c => some (encV 7 d b c 2 k.code (bit w)) | .amoxor k w d b c => some (encV 7 d b c 3 k.code (bit w))
  | .amoswap k w d b c => some (encV 7 d b c 4 k.code (bit w)) | .amomin k w d b c => some (encV 7 d b c 5 k.code (bit w))
  | .amomax k w d b c => some (encV 7 d b c 6 k.code (bit w))
  | .amominu k w d b c => some (encV 7 d b c 7 k.code (bit w))
  | .amomaxu k w d b c => some (encV 7 d b c 8 k.code (bit w)) | .amocas k w d b c => some (encV 7 d b c 9 k.code (bit w))
  | .amofadd k w d b c => some (encV 7 d b c 10 k.code (bit w))
  | .amofmaxa k w d b c => some (encV 7 d b c 11 k.code (bit w))
  | .synld k d b => some (encV 7 d b 0 16 k.code 1) | .synst k b c => some (encV 7 0 b c 17 k.code 1)
  | .feread k d b => some (encV 7 d b 0 18 k.code 1) | .feset k b c => some (encV 7 0 b c 19 k.code 1)
  | .beq b c i => some (encB 8 b c 0 i.toNat) | .bne b c i => some (encB 8 b c 1 i.toNat)
  | .blt b c i => some (encB 8 b c 4 i.toNat) | .bge b c i => some (encB 8 b c 5 i.toNat)
  | .bltu b c i => some (encB 8 b c 6 i.toNat) | .bgeu b c i => some (encB 8 b c 7 i.toNat)
  | .jalr d b i => some (encI 10 d b 0 i.toNat)
  | .btag r n b i => some (encI 10 n.val b (r.code + 1) i.toNat)
  | .loop l b i => some (encI 11 0 b l.val i.toNat)
  | .loopi l n i => some (encI 11 (n.val / 32) (n.val % 32) (2 + l.val) i.toNat)
  | .fadd f r d b c => some (encV 12 d b c 1 f.code r.code) | .fsub f r d b c => some (encV 12 d b c 2 f.code r.code)
  | .fmul f r d b c => some (encV 12 d b c 3 f.code r.code) | .fdiv f r d b c => some (encV 12 d b c 4 f.code r.code)
  | .fsqrt f r d b => some (encV 12 d b 0 5 f.code r.code)
  | .fmin f d b c => some (encV 12 d b c 6 f.code 0) | .fmax f d b c => some (encV 12 d b c 6 f.code 1)
  | .feq f d b c => some (encV 12 d b c 7 f.code 0) | .flt f d b c => some (encV 12 d b c 7 f.code 1)
  | .fle f d b c => some (encV 12 d b c 7 f.code 2)
  | .fclass f d b => some (encV 12 d b 0 8 f.code 0) | .fsgnj f d b c => some (encV 12 d b c 9 f.code 0)
  | .fcvtToFp f r t d b => some (encV 12 d b t.code 10 f.code r.code)
  | .fcvtSat f r t d b => some (encV 12 d b t.code 11 f.code r.code)
  | .fcvtToInt f r t d b => some (encV 12 d b t.code 12 f.code r.code)
  | .fma f r d b c e => some ⟨13, d, b, c, 256 * f.code + 8 * e.val + r.code⟩
  | .fence p s k => some ⟨14, 0, 0, k.toNat, 16 * p.toNat + s.code⟩
  | .ifence => some ⟨14, 0, 0, 0, 8⟩
  | .trap n => some (encI 15 0 0 0 n.val) | .eret => some (encI 15 0 0 0 16) | .halt => some (encI 15 0 0 0 17)
  | .yield => some (encI 15 0 0 0 18) | .waite b => some (encI 15 0 b 0 19)
  | .sysr n d => some (encI 15 d 0 1 n.toNat) | .sysw n b => some (encI 15 0 b 2 n.toNat)
  | .segld g b i => some (encI 15 g.val b 3 i.toNat) | .segst g b i => some (encI 15 g.val b 4 i.toNat)
  | .vsetl d b c => some (encR 16 d b c 0 0)
  | .vsetli s g t m d b => some (encR 16 d b 0 (s.val + 8 * g.val + 32 * bit t + 64 * bit m) 1)
  | .vadd f m d c b => some (encV 17 d b c 0 f.code m) | .vsub f m d c b => some (encV 17 d b c 1 f.code m)
  | .vrsub f m d c b => some (encV 17 d b c 2 f.code m) | .vmul f m d c b => some (encV 17 d b c 3 f.code m)
  | .vmulh f m d c b => some (encV 17 d b c 4 f.code m) | .vmulhu f m d c b => some (encV 17 d b c 5 f.code m)
  | .vmacc f m d c b => some (encV 17 d b c 6 f.code m) | .vnmsac f m d c b => some (encV 17 d b c 7 f.code m)
  | .vand f m d c b => some (encV 17 d b c 8 f.code m) | .vor f m d c b => some (encV 17 d b c 9 f.code m)
  | .vxor f m d c b => some (encV 17 d b c 10 f.code m) | .vsll f m d c b => some (encV 17 d b c 11 f.code m)
  | .vsrl f m d c b => some (encV 17 d b c 12 f.code m) | .vsra f m d c b => some (encV 17 d b c 13 f.code m)
  | .vmin f m d c b => some (encV 17 d b c 14 f.code m) | .vmax f m d c b => some (encV 17 d b c 15 f.code m)
  | .vminu f m d c b => some (encV 17 d b c 16 f.code m) | .vmaxu f m d c b => some (encV 17 d b c 17 f.code m)
  | .vfshl f m d c b => some (encV 17 d b c 18 f.code m) | .vfshr f m d c b => some (encV 17 d b c 19 f.code m)
  | .vclz m d c => some (encV 17 d 0 c 20 0 m) | .vpopc m d c => some (encV 17 d 0 c 21 0 m)
  | .vseq f m d c b => some (encV 17 d b c 22 f.code m) | .vsne f m d c b => some (encV 17 d b c 23 f.code m)
  | .vslt f m d c b => some (encV 17 d b c 24 f.code m) | .vsltu f m d c b => some (encV 17 d b c 25 f.code m)
  | .vsle f m d c b => some (encV 17 d b c 26 f.code m) | .vsleu f m d c b => some (encV 17 d b c 27 f.code m)
  | .vmerge f m d c b => some (encV 17 d b c 28 f.code m) | .vmv f d b => some (encV 17 d b 0 29 f.code 0)
  | .vfadd x f m d c b => some (encV 18 d b c (0 + 16 * bit x) f.code m)
  | .vfsub x f m d c b => some (encV 18 d b c (1 + 16 * bit x) f.code m)
  | .vfmul x f m d c b => some (encV 18 d b c (2 + 16 * bit x) f.code m)
  | .vfdiv x f m d c b => some (encV 18 d b c (3 + 16 * bit x) f.code m)
  | .vfsqrt x m d c => some (encV 18 d 0 c (4 + 16 * bit x) 0 m)
  | .vfmacc x f m d c b => some (encV 18 d b c (5 + 16 * bit x) f.code m)
  | .vfnmacc x f m d c b => some (encV 18 d b c (6 + 16 * bit x) f.code m)
  | .vfmin x f m d c b => some (encV 18 d b c (7 + 16 * bit x) f.code m)
  | .vfmax x f m d c b => some (encV 18 d b c (8 + 16 * bit x) f.code m)
  | .vfsgnj x f m d c b => some (encV 18 d b c (9 + 16 * bit x) f.code m)
  | .vfeq x f m d c b => some (encV 18 d b c (10 + 16 * bit x) f.code m)
  | .vflt x f m d c b => some (encV 18 d b c (11 + 16 * bit x) f.code m)
  | .vfle x f m d c b => some (encV 18 d b c (12 + 16 * bit x) f.code m)
  | .vfclass x m d c => some (encV 18 d 0 c (13 + 16 * bit x) 0 m)
  | .vredsum m d c b => some (encV 19 d b c 0 0 m) | .vredmax m d c b => some (encV 19 d b c 1 0 m)
  | .vredmaxu m d c b => some (encV 19 d b c 2 0 m) | .vredmin m d c b => some (encV 19 d b c 3 0 m)
  | .vredminu m d c b => some (encV 19 d b c 4 0 m) | .vredand m d c b => some (encV 19 d b c 5 0 m)
  | .vredor m d c b => some (encV 19 d b c 6 0 m) | .vfredosum m d c b => some (encV 19 d b c 7 0 m)
  | .vfredtsum m d c b => some (encV 19 d b c 8 0 m) | .vfredmax m d c b => some (encV 19 d b c 9 0 m)
  | .vfredmin m d c b => some (encV 19 d b c 10 0 m) | .vid m d => some (encV 19 d 0 0 16 0 m)
  | .vslideup f m d c b => some (encV 19 d b c 17 f.code m) | .vslidedn f m d c b => some (encV 19 d b c 18 f.code m)
  | .vslide1up m d c b => some (encV 19 d b c 19 1 m) | .vslide1dn m d c b => some (encV 19 d b c 20 1 m)
  | .vgather f m d c b => some (encV 19 d b c 21 f.code m) | .vcompress d c k => some (encV 19 d k.val c 22 0 0)
  | .vextract f d c b => some (encV 19 d b c 23 f.code 0) | .vinsert d c b => some (encV 19 d b c 24 1 0)
  | .mand d b c => some (encV 20 d.val b.val c.val 0 0 0) | .mor d b c => some (encV 20 d.val b.val c.val 1 0 0)
  | .mxor d b c => some (encV 20 d.val b.val c.val 2 0 0) | .mandn d b c => some (encV 20 d.val b.val c.val 3 0 0)
  | .mpopc d c => some (encV 20 d.val 0 c.val 4 0 0) | .mfirst d c => some (encV 20 d.val 0 c.val 5 0 0)
  | .msbf d c => some (encV 20 d.val 0 c.val 6 0 0)
  | .vld e k m v b => some (encVM 21 v b 0 e.code 0 k.code m) | .vlds e k m v b c => some (encVM 21 v b c e.code 1 k.code m)
  | .vldx e k m v b c => some (encVM 21 v b c e.code 2 k.code m) | .vldff e k m v b => some (encVM 21 v b 0 e.code 3 k.code m)
  | .vldz e k v b c => some (encVM 21 v b c e.code 5 k.code 0)
  | .vst e k m v b => some (encVM 22 v b 0 e.code 0 k.code m) | .vsts e k m v b c => some (encVM 22 v b c e.code 1 k.code m)
  | .vstx e k m v b c => some (encVM 22 v b c e.code 2 k.code m) | .vstb e k m v b => some (encVM 22 v b 0 e.code 4 k.code m)
  | .vstz e k v b c => some (encVM 22 v b c e.code 5 k.code 0)
  | .vcvt s t x m d c => some ⟨23, d, t.code, c, 16 * s.code + 8 * bit x + m.val⟩
  | .vqscale t d c b => some ⟨23, d, b, c, 256 + 16 * t.code⟩
  | .vdxbpack w h d c => some ⟨23, d, 0, c, 512 + 128 * bit w + 16 * (h.val % 8) + 8 * (h.val / 8)⟩
  | .vdxbunpack w d c => some ⟨23, d, 0, c, 768 + 128 * bit w⟩
  | .mzero n => some (encV 24 0 0 0 0 n.val 0)
  | .mma x y n t a b => some (encV 24 a b 0 (4 + 2 * bit x + bit y) n.val t.val)
  | .mmar x y n t a b => some (encV 24 a b 0 (8 + 2 * bit x + bit y) n.val t.val)
  | .mlda n b => some (encV 24 0 b 0 12 n.val 0) | .msta n b => some (encV 24 0 b 0 16 n.val 0)
  | .mmasN1 x y n t a b c => some (encV 24 a b c (20 + 2 * bit x + bit y) n.val t.val)
  | .mmasN2 x y n t a b c => some (encV 24 a b c (24 + 2 * bit x + bit y) n.val t.val)
  | .mmasN4 x y n t a b c => some (encV 24 a b c (28 + 2 * bit x + bit y) n.val t.val)
  | .cpy k t d b e => some (encV 25 d b e 0 k.code t.val) | .cpym k t d b e => some (encV 25 d b e 1 k.code t.val)
  | .cwait t => some (encV 25 0 0 0 2 0 t.val) | .cpoll t d => some (encV 25 d 0 0 3 0 t.val)
  | .cbwait n c => some (encV 26 0 n.val c 0 0 0) | .cbpost n c => some (encV 26 0 n.val c 1 0 0)
  | .cbfree n c => some (encV 26 0 n.val c 2 0 0) | .cbstat n d => some (encV 26 d n.val 0 3 0 0)
  | .npush o r b c => some (encV 27 0 b c 0 (bit o) r.code) | .npushv o r b c => some (encV 27 0 b c 1 (bit o) r.code)
  | .npop o r d c => some (encV 27 d 0 c 2 (bit o) r.code) | .npopv o r d c => some (encV 27 d 0 c 3 (bit o) r.code)
  | .npeek r d c => some (encV 27 d 0 c 4 0 r.code) | .nstat r d => some (encV 27 d 0 0 5 0 r.code)
  | .pbind b c => some (encV 28 0 b c 0 0 0) | .psend b c => some (encV 28 0 b c 1 0 0)
  | .precv b c => some (encV 28 0 b c 2 0 0) | .pstat d b => some (encV 28 d b 0 3 0 0)
  | .fork k b => some (encV 29 0 b 0 0 k.code 0) | .join k b => some (encV 29 0 b 0 1 k.code 0)
  | .tend k => some (encV 29 0 0 0 2 k.code 0)
  | .barc b => some (encV 30 0 b.val 0 0 0 0) | .bark b => some (encV 30 0 b.val 0 1 0 0)
  | _ => none

/-- The value of a lane parcel; none for other instructions. -/
def encParcel : Instr → Option Nat
  | .vmvParcel x d s => some (encP 0 x d s) | .vaddParcel x d s => some (encP 1 x d s)
  | .vsubParcel x d s => some (encP 2 x d s) | .vmulParcel x d s => some (encP 3 x d s)
  | .vandParcel x d s => some (encP 4 x d s) | .vorParcel x d s => some (encP 5 x d s)
  | .vxorParcel x d s => some (encP 6 x d s) | .vsllParcel x d s => some (encP 7 x d s)
  | .vsrlParcel x d s => some (encP 8 x d s) | .vminParcel x d s => some (encP 9 x d s)
  | .vmaxParcel x d s => some (encP 10 x d s) | .vfaddParcel x d s => some (encP 11 x d s)
  | .vfsubParcel x d s => some (encP 12 x d s) | .vfmulParcel x d s => some (encP 13 x d s)
  | .vfmaxParcel x d s => some (encP 14 x d s) | .vfminParcel x d s => some (encP 15 x d s)
  | .zeroParcel => some 0
  | _ => none

/-- The bytes of an instruction, lowest address first; none for events, which have no encoding. -/
def encode (i : Instr) : Option (List Byte) :=
  match encFields i with
  | some f => some (bytesOf 4 (pack f))
  | none => (encParcel i).map (bytesOf 2)

end Sys2Proof
end

