-- ==== Sys2Proof/Machine/State.lean ====
section
/-!
DEFINITION. The state of the package as plain data, the reasons a step can stop, and the state after reset. Agents are
keyed by number: threads 0 to 131,071, cores 0 to 8,191, clusters 0 to 511 (die·64 + cluster), ports 0 to 8,191, dies
0 to 9 (00 R6, 13 R192).
-/

namespace Sys2Proof.Machine

/-- A cause code, 0x00 to 0xBF (27 R272). -/
abbrev Cause := BitVec 8

/-- Memory: bytes by location. A location is a GVA of the on-chip map (2^56 and above) or a physical address of this
package (below 2^52). An unlisted byte reads 0, as the start sequence leaves it (29 R296). -/
abbrev Memory := Sp Byte

/-- The canonical form of memory. -/
abbrev Memory.wf (m : Memory) : Bool := Sp.wf 0 m

/-- A cause with its TVAL, recorded until it is reported (11 R146, 13 R166). -/
structure Err where
  cause : Cause
  tval : Word
  deriving DecidableEq, Repr

/-- A stamp or die clock: ten counters (21 R242). -/
abbrev Stamp := List Nat

/-- Thread states (01 R15). -/
inductive TState where
  | halted | idle | ready | inflight | parked
  deriving DecidableEq, Repr

/-- An entry of a neighbour queue (13 R188, 21 R249). -/
structure Entry where
  data : Vec
  tag : BitVec 8
  vec : Bool
  stamp : Option Stamp
  deriving DecidableEq, Repr

/-- A task record (01 R17). `root` names the step-table entry whose root record it is, `ovr` holds an overrun fault for
its first issue (15 R205). -/
structure Rec where
  pc : Word
  a0 : Word
  a1 : Word
  jc : Word
  root : Option Nat
  ovr : Bool
  deriving DecidableEq, Repr

/-- Atomic operations (11 R154). -/
inductive AmoOp where
  | add | and | or | xor | swap | min | max | minu | maxu | cas | fadd | fmaxa
  deriving DecidableEq, Repr

/-- Full/empty operations (11 R152). -/
inductive FeOp where
  | synld | synst | feread | feset
  deriving DecidableEq, Repr

/-- What a request does at its home. -/
inductive ROp where
  | read (z : Nat)
  | write (bytes : List Byte)
  | amo (op : AmoOp) (z : Nat) (x cmp : Word)
  | fe (op : FeOp) (x : Word) (lim : Nat)
  | post (buf n : Nat)   -- a copy's post into a circular buffer (13 R187)
  | wake (t : Nat)       -- a device's write of the wake word of a thread (15 R206; 27 R275)
  deriving DecidableEq, Repr

/-- Who made a request, and so who gets its answer: an element of a thread's instruction; a packet of another package that a
gateway brought in (29 R285); an access of a piece of a thread's copy (13 R180); an access of a Prism for a thread's request
(25 R257); a device that has filled a ring (15 R206; 27 R275). -/
inductive RSrc where
  | thread (tid elem : Nat)
  | gateway (gw pkg tag : Nat)
  | copy (tid id piece idx : Nat)
  | prism (cl tid idx : Nat)
  | device
  deriving DecidableEq, Repr

/-- How an access ended at its home: its bytes, or a cause. -/
inductive Answer where
  | bytes (b : List Byte)
  | cause (c : Cause)
  deriving DecidableEq, Repr

/-- Where a request stands (11 R146, 21 R238 to R243, 11 R153). -/
inductive Phase where
  | fresh            -- a posted store not yet accepted
  | held             -- accepted; waits for an earlier store of its thread, class and line
  | nocredit         -- a numbered write that waits at its source for gate space
  | sent             -- on its way to its home
  | gated            -- held in the gate of its home's die
  | queued           -- waiting at a core's service thread, or at a gateway for its answer
  | aside (count arrived : Nat)   -- set aside, with failed examinations and the arrival cycle
  | answered (a : Answer)         -- applied; the answer is on its way back
  | refused          -- answered receiver-not-ready
  deriving DecidableEq, Repr

/-- A request in the fabric. `seg` is the segmented address that TVAL reports, `gva` the address that was translated (17 R228),
`once` marks one that is not retried (11 R158). -/
structure Req where
  id : Nat
  src : RSrc
  grp : Nat
  cls : RClass
  op : ROp
  loc : Nat
  seg : Word
  gva : Nat
  asid : BitVec 12
  priv : Bool
  die : Nat
  cluster : Nat
  inCluster : Bool
  num : Option Nat
  stamp : Option Stamp
  got : Option Stamp
  phase : Phase
  tries : Nat
  once : Bool
  deriving DecidableEq, Repr

/-- An element of a vector memory instruction: its index, address and, for a store, its bytes (11 R156). -/
structure VElem where
  idx : Nat
  addr : Word
  bytes : List Byte
  deriving DecidableEq, Repr

/-- Why a vector memory instruction stops at an element (11 R157): a cause, or a page that is not present. -/
inductive VStop where
  | trap (j : Nat) (e : Err)
  | page (j gva : Nat) (tv : Word)
  deriving DecidableEq, Repr

/-- The vector context an instruction sampled: bytes per element, VSTART, VL, VLMAX, policies, mask (03 R31). -/
structure VCtx where
  eb : Nat
  vstart : Nat
  vl : Nat
  vlmax : Nat
  ta : Bool
  ma : Bool
  mask : Vec
  deriving DecidableEq, Repr

/-- A matrix operand as sampled at issue (13 R168 to R171): a register group's format and bits, or rows of the own local
store by offset with the format and scale of their banks. -/
inductive MOperand where
  | none
  | regs (base : Nat) (fmt : Nat) (bits : List Vec)
  | rows (offs : List Nat) (fmt : Nat) (scale : Nat)
  deriving DecidableEq, Repr

/-- Kinds of matrix command (13 R173 to R177). -/
inductive MKind where
  | zero | mma | mmar | mmas (n : Nat) | lda | sta
  deriving DecidableEq, Repr

/-- A matrix command (13 R165): issuing thread, accumulator, operands, metadata offset, the PC that TVAL reports (13 R166),
and the copy whose follow-on it is (13 R184). -/
structure MCmd where
  tid : Nat
  kind : MKind
  acc : Nat
  a : MOperand
  b : MOperand
  md : Nat
  pc : Word
  copy : Option Nat
  deriving DecidableEq, Repr

/-- The command the matrix unit runs: what it read at its start, when its computation ends, and for MMAR the cycle in which
it sent its tiles and the tiles it has received (13 R172, R176). -/
structure MRun where
  cmd : MCmd
  acc : List (BitVec 32)
  aRows : List (List Byte)
  bRows : List (List Byte)
  md : List Byte
  endAt : Nat
  sentAt : Option Nat
  gotA : Option (List (List Byte))
  gotB : Option (List (List Byte))
  deriving DecidableEq, Repr

/-- A copy command (13 R178 to R184): what it kept at issue (`segS`, `segD` the endpoints' segments, `at'` the descriptor's
address, `cb` a destination buffer), then how far it has come: the bank formats sampled at its start, the bytes each source
access of a piece has brought so far, the pieces read and not yet written, the places of a piece written or on their way, the
pieces done, whether a page fault holds it, and base, size and position of the ring it writes into, once it has found space
(R183). `posted` marks one whose post into its buffer is on its way, `landed` one whose
bytes are all performed. -/
structure Copy where
  id : Nat
  tid : Nat
  tag : Nat
  cls : RClass
  src : Word
  dst : Word
  segS : BitVec 128
  segD : BitVec 128
  at' : Word
  cnt : List Nat
  sstr : List Int
  dstr : List Int
  esz : Nat
  conv : Bool
  bcast : Nat
  cb : Option Nat
  dshift : Nat
  follow : Option MCmd
  asid : BitVec 12
  priv : Bool
  started : Bool
  fmts : List (Nat × Nat)
  got : List (Nat × Nat × List Byte)
  reads : List (Nat × List Byte)
  part : List (Nat × Nat)
  done : List Nat
  page : Bool
  ring : Option (Nat × Nat × Nat)
  posted : Bool
  landed : Bool
  deriving DecidableEq, Repr

/-- What a Prism works on (25 R257): a binding, an unbinding, a send, a receive (`res` marks a reserved bit of its record), a
status query, and the close of an interval (R267). -/
inductive PKind where
  | bind (desc : Nat)
  | unbind
  | send (buf t0 dt ctl : Word)
  | recv (buf k : Word) (res : Bool)
  | stat
  | close
  deriving DecidableEq, Repr

/-- A request at a Prism: its thread, port and kind, the bits TVAL reports, the segment of BUF with the ASID and rights it
carries, the cycle of its issue, PSTAT's destination, the cycle in which its service ends (0 before it begins), whether an
absent page holds it, whether its access to BUF has begun, whether it was set aside and stands first again, the bytes of BUF
read so far by offset, and the lowest offset whose access met a cause. -/
structure PReq where
  tid : Nat
  port : Nat
  kind : PKind
  ib : Word
  seg : BitVec 128
  asid : BitVec 12
  priv : Bool
  issued : Nat
  d : Reg
  due : Nat
  page : Bool
  begun : Bool
  resumed : Bool
  got : List (Nat × List Byte)
  bad : Option (Nat × Err)
  deriving DecidableEq, Repr

/-- What a CPYM reads at its issue for the follow-on it does not know yet (13 R184): general registers, the window, the
banks' formats. -/
structure Snap where
  g : Sp Word
  v : List Vec
  bf : List Word
  deriving DecidableEq, Repr

/-- An instruction that can wait, with the operands it sampled at issue; `ib` holds the bits TVAL reports. A JOIN marked `again`
translates its address anew when its read is answered: a shoot-down has removed the entry it used meanwhile (27 R277). `fetch` is the
fetch of an instruction, or (`issued`) of the parcel behind the body of a LOOP or LOOPI of count 0 (07 R103). -/
inductive Act where
  | load (d : Reg) (z : Nat) (sgn : Bool) (a : Word) (k : RClass)
  | store (z : Nat) (a v : Word) (k : RClass)
  | amo (op : AmoOp) (d : Reg) (z : Nat) (a x cmp : Word) (k : RClass)
  | fe (op : FeOp) (d : Reg) (a x : Word) (lim : Nat) (k : RClass)
  | segld (n : Fin 8) (a : Word)
  | segst (a : Word) (img : BitVec 128)
  | btag (ib : Word) (dir : Dir) (n : Nat) (a : Word)
  | vload (ff : Bool) (d : Reg) (c : VCtx) (elems : List VElem) (stop : Option VStop) (k : RClass)
  | vstore (whole : Bool) (elems : List VElem) (stop : Option VStop) (k : RClass)
  | vstz (a : Word) (bytes : List Byte) (k : RClass)
  | vldz (d : Reg) (c : VCtx) (a size : Word) (k : RClass)
  | fence (paths : BitVec 6) (classes : BitVec 3)
  | ifence
  | fetch (issued : Bool)
  | waite (sel : Word)
  | matrix (c : MCmd) (dist : Nat)
  | cpy (m : Bool) (k : RClass) (tag : Nat) (dst src a : Word) (sn : Option Snap)
  | cwait (tag : Nat)
  | cbwait (ib : Word) (buf : Nat) (n : Word)
  | cbpost (ib : Word) (buf : Nat) (n : Word)
  | npush (ib : Word) (rl : Bool) (dir : Dir) (data : Vec) (vec : Bool) (tag : BitVec 8)
  | npop (ib : Word) (dir : Dir) (d c : Reg) (vec peek aq : Bool)
  | pbind (ib : Word) (port : Nat) (a : Word)
  | psend (ib : Word) (port : Nat) (a : Word)
  | precv (ib : Word) (port : Nat) (a : Word)
  | pstat (ib : Word) (d : Reg) (port : Nat)
  | fork (ib : Word) (k : RClass) (a : Word) (rec : Option Rec) (room : Bool)
  | join (k : RClass) (a : Word) (loc : Nat) (again : Bool)
  | tend (k : RClass)
  | bar (ib : Word) (cl : Bool) (b : Nat)
  deriving DecidableEq, Repr

/-- What a parked thread waits for. -/
inductive Why where
  | replies     -- the answers of its requests
  | accepts     -- the acceptance of its stores
  | lines (l : List Nat)   -- stores in flight to these lines, which it touches (11 R146)
  | room        -- fewer than 16 stores in flight (11 R146)
  | performed   -- its earlier path-T accesses to be performed
  | cond        -- its own condition: a queue, buffer, tag or flag
  | counter     -- its join counter to be read again (13 R198)
  | gen (g : Bool)   -- the barrier's generation to change (13 R201)
  | prism       -- the Prism's answer
  | page        -- a wake message (11 R147)
  deriving DecidableEq, Repr

/-- A wait: the instruction, what it waits for and since when, its requests still out, the answers so far by element, and
the lowest failing element. -/
structure Wait where
  act : Act
  why : Why
  since : Nat
  reqs : List Nat
  got : List (Nat × List Byte)
  bad : Option (Nat × Err)
  deriving DecidableEq, Repr

/-- A numbered hardware thread (03 R24, R29; 01 R14, R15). `fetched` holds parcels with their offsets and the cycle of their
fetch (19 R233); `deferredNo` numbers the store whose cause is deferred (11 R146). -/
structure Thread where
  g : Sp Word
  m : Sp Vec
  acc : Sp (BitVec 32)
  seg : Sp (BitVec 128)
  ls : Sp Word
  le : Sp Word
  lc : Sp Word
  lp : Sp Bool
  pc : Word
  vl : Word
  vtype : Word
  vstart : Word
  fcsr : Word
  cause : Word
  epc : Word
  tval : Word
  portstat : Word
  trapvec : Word
  priv : Word
  asid : BitVec 12
  depth : BitVec 8
  st : TState
  winBase : Nat
  winSize : Nat
  wake : Bool
  inq : Sp (List Entry)
  credits : Sp Nat
  fetched : List (Word × BitVec 16 × Nat)
  mxErr : Option Err
  cpErr : Sp (Option Err)
  deferred : Option Err
  deferredNo : Nat
  async : Option Err
  root : Option Nat
  afterTrap : Bool
  issuedAt : Nat
  readyAt : Nat
  idleSince : Nat
  wait : Option Wait
  late : Nat
  oldG : List (Nat × Word)
  oldV : List (Nat × Vec × Vec)
  deriving DecidableEq, Repr

/-- A barrier control word (13 R200). -/
structure Bar where
  need : Nat
  count : Nat
  gen : Bool
  deriving DecidableEq, Repr

/-- What waits at a core's service thread (01 R16, 11 R153): a request, an examination pass for a word that changed, or
one for an entry whose 1,024 cycles have run. -/
inductive Svc where
  | msg (id : Nat)
  | pass (word : Nat)
  | exam (id : Nat)
  deriving DecidableEq, Repr

/-- A write to a core's control window taken from a message (17 R219). -/
structure CwWrite where
  core : Nat
  off : Nat
  v : Word
  priv : Bool
  asid : BitVec 12
  tid : Nat
  deriving DecidableEq, Repr

/-- A doubleword of a local store before a write of one of its core's threads: the doubleword's number, its value, the writing
thread and class, and the engine paths that may still read it (bit 0 M, 1 C, 2 F; 23 R252, R253). -/
structure Past where
  word : Nat
  val : Word
  tid : Nat
  cls : RClass
  left : BitVec 3
  deriving DecidableEq, Repr

/-- What the home of a JOIN's counter sends its thread (13 R198): the JOIN by thread and issue cycle, a cause or none for a zero, and the
stamp of the counter's line. -/
structure JoinReply where
  tid : Nat
  issued : Nat
  cause : Option Cause
  stamp : Option Stamp
  deriving DecidableEq, Repr

/-- A poisoned line (17 R222): whether an access has met it, and the bytes of it that one instruction or command, by its number, has
written (log entry 16). -/
structure Poison where
  met : Bool
  grp : Nat
  mask : BitVec 64
  deriving DecidableEq, Repr

/-- A core (03 R27, R29; 01 R17; 15 R207 to R211; 13 R172, R178, R200; 11 R153). Per-core registers are numbered:
k n is n, BFMT b is 16 + b, the halves of CB b are 32 + 2b and 33 + 2b, ISSUEPOL 64, FECTL 65, NPCTL 66, WDCTL 67,
RNRCTL 68. `recent` holds writes of the last cycles, newest first, as (cycle, register, value) (03 R28); `past` what unfenced
writes to its local store replaced, newest first (23 R253); `vbad` the poisoned lines of its vector registers, by physical register, and
of mask registers (17 R222); `needs` the NEED of a barrier before a write of the last cycles, newest first, as (cycle, barrier, NEED) (17
R219). A shoot-down of the core (27 R277): its word and ASID, the dies its request has not reached, the clusters that have not
acknowledged, those whose acknowledgement is on its way, and the accesses they wait for. -/
structure Core where
  vf : Sp Vec
  regs : Sp Word
  recent : List (Nat × Nat × Word)
  bars : Sp Bar
  deque : List Rec
  reserved : Nat
  landing : Option Rec
  lastIssuer : Option Nat
  age : List Nat
  victim : Option Nat
  stealOut : Bool
  backoff : Nat
  backUntil : Nat
  svc : List Svc
  mq : List MCmd
  mrun : Option MRun
  rotA : Option (List (List Byte))
  rotB : Option (List (List Byte))
  outA : List (List (List Byte))
  outB : List (List (List Byte))
  copies : List Copy
  sdBusy : Bool
  sdSeq : BitVec 32
  sdWait : List Nat
  sdWord : Word
  sdAsid : BitVec 12
  sdReqs : List Nat
  sdDies : List Nat
  sdBack : List Nat
  comp : Option Nat
  dqUsed : Option Nat
  past : List Past
  vbad : List (Nat × Poison)
  needs : List (Nat × Nat × Nat)
  deriving DecidableEq, Repr

/-- A cached leaf translation (17 R229): ASID, first GVA, page size, entry. -/
structure TlbEnt where
  asid : BitVec 12
  base : Nat
  size : Nat
  e : Word
  deriving DecidableEq, Repr

/-- A cluster (01 R12; 17 R229; 25 R257): power-gated, Prism host, its TLB, and its Prism's requests, the one it serves first. -/
structure Cluster where
  gated : Bool
  host : Bool
  tlb : List TlbEnt
  prismQ : List PReq
  deriving DecidableEq, Repr

/-- A field port (25 R257, R258, R262, R265): the descriptor it is bound to, whether it failed, set-aside sends and receives,
whether a close is pending, NEXT, J, RESFREE and CNAN as the Prism keeps them, the status word it last wrote, and the ASID of the
component that bound it. The other fields of the descriptor lie in slice memory. -/
structure Port where
  desc : Option Nat
  failed : Bool
  sends : List PReq
  recvs : List PReq
  closing : Bool
  next : Nat
  j : Nat
  resfree : Bool
  cnan : Bool
  shown : Nat
  asid : BitVec 12
  deriving DecidableEq, Repr

/-- A die: its clock and prefix vector, its class O writes not yet performed, its last-level TLB (21 R242, R243;
17 R229). -/
structure Die where
  k : Stamp
  p : Stamp
  undone : List Nat
  tlb : List TlbEnt
  deriving DecidableEq, Repr

/-- A page fault held for the component's fault service (27 R275). `written` is the cycle in which its record was written. -/
structure PFault where
  tid : Nat
  src : Nat
  comp : Nat
  gva : Nat
  need : BitVec 4
  asid : BitVec 12
  tval : Word
  copy : Nat
  written : Option Nat
  deriving DecidableEq, Repr

/-- A replica of a line (21 R245): its die, line and bytes, and writes sent by the home and not yet applied. -/
structure Replica where
  die : Nat
  line : Nat
  bytes : List Byte
  stamp : Option Stamp
  updates : List (Nat × List Byte × Option Stamp × Nat)
  deriving DecidableEq, Repr

/-- A packet a gateway keeps until it is acknowledged, the request it carries, and how often it was resent (29 R285). -/
structure OutPkt where
  tag : Nat
  req : Nat
  pkt : Packet
  resends : Nat
  deriving DecidableEq, Repr

/-- A token bucket (29 R287): RATE, BURST, its tokens, and the cycle of its next addition. -/
structure Bucket where
  rate : Nat
  burst : Nat
  tokens : Nat
  due : Nat
  deriving DecidableEq, Repr

/-- A request of another package that was applied: its package and tag, its sequence number in class O, and the reply cached for
an atomic (29 R285). -/
structure Applied where
  pkg : Nat
  tag : Nat
  seq : Option Nat
  reply : Option Packet
  deriving DecidableEq, Repr

/-- What waits for tokens: a request, or the packet out of a tag that is to be sent again (29 R285, R287). -/
inductive Toll where
  | request (asid id : Nat)
  | resend (asid tag : Nat)
  deriving DecidableEq, Repr

/-- An Erg gateway (29 R285, R287): the next sequence number to send and to apply per package, the next tag, packets out,
packets that arrived ahead of a gap, the requests applied, the class O packets answered receiver-not-ready, by package and
sequence number, buckets, and what waits for tokens. -/
structure Gateway where
  seqOut : Sp Nat
  seqIn : Sp Nat
  nextTag : Nat
  out : List OutPkt
  early : List Packet
  replies : List Applied
  refused : List (Nat × Nat)
  buckets : Sp Bucket
  waiting : List Toll
  deriving DecidableEq, Repr

/-- An Erg link (29 R284, R290): its transmit queue, oldest first, a Delay_Req of the clock marked with its number (R291), whether
it compresses, and the cycle from which it can send its next packet. -/
structure Erg where
  queue : List (Packet × Option Nat)
  compressing : Bool
  freeAt : Nat
  deriving DecidableEq, Repr

/-- A receive buffer (29 R288): by traffic group, the entries that hold a flit or packet, those kept for the replay of one that was
discarded for its CRC, and the entries reserved for it so far: a raised MIN takes effect as entries free. -/
structure RxBuf where
  used : List Nat
  kept : List Nat
  eff : List Nat
  deriving DecidableEq, Repr

/-- 1588 time: a 64-bit count of nanoseconds above a 16-bit fraction (00 R9). -/
abbrev Time := BitVec 80

/-- The IEEE 1588 clock (29 R291): its time in a cycle, the slew still to apply in 2^-16 ns, consecutive good intervals, the
measurement in progress, and the offset and delay measured, in 2^-16 ns (log entry 51). -/
structure Clock where
  base : Time
  baseAt : Nat
  slew : Int
  good : Nat
  domain : Nat
  master : Option Nat
  sync : Option (Nat × Time)
  delayReq : Option (Nat × Time)
  ms : Int
  delay : Int
  deriving DecidableEq, Repr

/-- Messages the device sends to hosts (29 R291 to R297; 27 R270, R281; 15 R206). -/
inductive Out where
  | mailAck (host mbox : Nat) (count : Word)
  | mailRnr (host mbox : Nat)
  | deny (host : Nat) (owner : Option Nat)
  | grant (host : Nat)
  | refusedProgram (host : Nat)
  | refusedSetting (host : Nat)
  | doubleTrap (owner : Option Nat) (tid : Nat) (c : Cause)
  | ended (owner : Option Nat) (comp : Nat) (c : Cause) (line : Nat)
  | quote (host : Nat) (bytes : List Byte)
  | readAnswer (host : Nat) (words : List Nat)
  | alarm (owner : Option Nat)
  | packet (gw link : Nat) (p : Packet)
  deriving DecidableEq, Repr

/-- What manufacture fixes in the device (29 R294, R295): the digest of the public key in fuses, the fused secret, and the
certificate of the identity key. -/
structure Fuses where
  keyDigest : BitVec 512
  secret : BitVec 512
  certificate : List Byte
  deriving DecidableEq, Repr

/-- Ownership, firmware and boot (29 R293 to R296). `lease` is the time at which it ends; an image is the number its bytes spell;
`identity` holds modulus and private exponent of the identity key. -/
structure Mgmt where
  owner : Option Nat
  lease : Time
  nominee : Option Nat
  recovery : Bool
  starts : Nat
  keptHbm : Bool
  image : Nat
  firmware : Nat
  identity : Nat × Nat
  deriving DecidableEq, Repr

/-- A suspended component, and whether its local stores are saved. Its saved state is the state its cores hold (27 R279,
R280; log entry 40). -/
structure Saved where
  comp : Nat
  withLs : Bool
  deriving DecidableEq, Repr

/-- A step that the surroundings or the hardware's own record call for. -/
structure Event where
  what : Instr
  arg : Arg
  deriving DecidableEq, Repr

/-- An event the hardware owes, with the cycle in which it is due. -/
structure Due where
  due : Nat
  ev : Event
  deriving DecidableEq, Repr

/-- How a message header carries a stamp: in full, or the mask of the counters that differ from the last stamp of the module and
their 32-bit deltas (29 R282). -/
structure StampMsg where
  full : Bool
  mask : Nat
  words : List Nat
  deriving DecidableEq, Repr

/-- A flit (29 R282): destination and source die, traffic group, beacon, its message if it has one, as what the receiving die owes
and how many cycles after the flit arrives, the stamp of the write in it, by its transaction number, and the cycle of its
arrival. -/
structure Flit where
  dst : Nat
  src : Nat
  group : Nat
  beacon : Option Nat
  msg : Option Due
  stamp : Option (Nat × StampMsg)
  due : Nat
  deriving DecidableEq, Repr

/-- A UCIe module in one direction (29 R282): the beacon value last sent, flits on their way, the sender's replay buffer,
whether replay is asked for, flits delivered, flits discarded for a reserved bit, and the stamp last sent and last received. -/
structure Link where
  beacon : Nat
  flying : List Flit
  replay : List Flit
  ask : Bool
  got : Nat
  errors : Nat
  lastOut : Stamp
  lastIn : Stamp
  deriving DecidableEq, Repr

/-- Why the machine stops. -/
inductive Fault where
  /-- Raised by `step` after THERMAL_TRIP when the next event is not COLD_START (29 R297). Safe: nothing runs without
  power. -/
  | noPower
  deriving DecidableEq, Repr

/-- Why the model refuses. -/
inductive Refusal where
  /-- Raised by an arm of `exec` for an instruction that has no meaning yet. Safe. -/
  | notModelled (mnemonic : String)
  deriving DecidableEq, Repr

/-- The package. The model's own fields (log entry 1): `cur`, the thread whose instruction executes; `now`, the cycle;
`slot`, the next core whose slot of this cycle is to be given; `arg`, what the event at hand takes from outside;
`agenda`, the events the surroundings present next; `pending`, the events the hardware owes; `free`, the counter of free
values; `nextId`, the next transaction number. `stepsOver` lists the step entries whose step ended while their component was
suspended (27 R279). -/
structure State where
  cur : Nat
  now : Nat
  slot : Nat
  arg : Arg
  agenda : List Event
  pending : List Due
  free : Nat
  nextId : Nat
  power : Bool
  threads : Sp Thread
  cores : Sp Core
  clusters : Sp Cluster
  ports : Sp Port
  dies : Sp Die
  mem : Memory
  fe : Sp Bool
  tags : Sp (BitVec 12)
  poison : Sp (Option Poison)
  stamps : Sp (Option Stamp)
  replicas : List Replica
  asids : Sp AsidEntry
  pkgId : BitVec 12
  comps : Sp Component
  steps : Sp StepEntry
  slots : Sp Int
  mailboxes : Sp Mailbox
  faultsvcs : Sp FaultService
  resident : Bool
  epoch : BitVec 64
  residentAt : Nat
  digest : Nat
  tabDigest : Nat
  held : List Rec
  ended : List Nat
  damaged : List (Nat × Nat)
  suspended : List Saved
  stepsOver : List Nat
  net : List Req
  pfaults : List PFault
  cwWrites : List CwWrite
  wakes : List Nat
  fwakes : List Nat
  transit : List (Nat × Dir × Entry)
  creditsBack : List (Nat × Dir)
  steals : List (Nat × Nat × Option (Option Rec))
  joins : List JoinReply
  clock : Clock
  mgmt : Mgmt
  gws : Sp Gateway
  links : Sp Link
  ergs : Sp Erg
  rx : Sp RxBuf
  fuses : Fuses
  mins : Sp (List Nat)
  corrected : Nat
  out : List Out
  deriving DecidableEq, Repr

/-- A thread at reset: halted with no window, every register 0 (03 R24, R29; 01 R14); four credits in each direction
(13 R189). VTYPE resets with VILL set. -/
def Thread.init : Thread where
  g := .empty
  m := .empty
  acc := .empty
  seg := .empty
  ls := .empty
  le := .empty
  lc := .empty
  lp := .empty
  pc := 0
  vl := 0
  vtype := 0x8000000000000000
  vstart := 0
  fcsr := 0
  cause := 0
  epc := 0
  tval := 0
  portstat := 0
  trapvec := 0
  priv := 0
  asid := 0
  depth := 0
  st := .halted
  winBase := 0
  winSize := 0
  wake := false
  inq := .empty
  credits := .empty
  fetched := []
  mxErr := none
  cpErr := .empty
  deferred := none
  deferredNo := 0
  async := none
  root := none
  afterTrap := false
  issuedAt := 0
  readyAt := 0
  idleSince := 0
  wait := none
  late := 0
  oldG := []
  oldV := []

/-- A barrier before a program is resident: no thread has a window. -/
def Bar.init : Bar := ⟨0, 0, false⟩

/-- A core at reset (03 R27, R29; 11 R151; 13 R191; 27 R273; 29 R286; 15 R208, R211). -/
def Core.init : Core where
  vf := .empty
  regs := ⟨[(16, 0x7F00), (17, 0x7F00), (18, 0x7F00), (19, 0x7F00), (20, 0x7F00), (21, 0x7F00), (22, 0x7F00),
    (23, 0x7F00), (24, 0x7F00), (25, 0x7F00), (26, 0x7F00), (27, 0x7F00), (28, 0x7F00), (29, 0x7F00), (30, 0x7F00),
    (31, 0x7F00), (65, 0x400), (66, 0x100000), (67, 0x100000), (68, 0xC)]⟩
  recent := []
  bars := .empty
  deque := []
  reserved := 0
  landing := none
  lastIssuer := none
  age := [0, 1, 2, 3, 4, 5, 6, 7, 8, 9, 10, 11, 12, 13, 14, 15]
  victim := none
  stealOut := false
  backoff := 64
  backUntil := 0
  svc := []
  mq := []
  mrun := none
  rotA := none
  rotB := none
  outA := []
  outB := []
  copies := []
  sdBusy := false
  sdSeq := 0
  sdWait := []
  sdWord := 0
  sdAsid := 0
  sdReqs := []
  sdDies := []
  sdBack := []
  comp := none
  dqUsed := none
  past := []
  vbad := []
  needs := []

def Cluster.init : Cluster := ⟨false, false, [], []⟩
def Port.init : Port := ⟨none, false, [], [], false, 0, 0, false, false, 0, 0⟩
def Die.init : Die := ⟨[0, 0, 0, 0, 0, 0, 0, 0, 0, 0], [0, 0, 0, 0, 0, 0, 0, 0, 0, 0], [], []⟩
def Bucket.init : Bucket := ⟨0xFFFF, 0, 0, 0⟩
def Gateway.init : Gateway := ⟨.empty, .empty, 0, [], [], [], [], .empty, []⟩
def Link.init : Link := ⟨0, [], [], false, 0, 0, [0, 0, 0, 0, 0, 0, 0, 0, 0, 0], [0, 0, 0, 0, 0, 0, 0, 0, 0, 0]⟩
def Erg.init : Erg := ⟨[], false, 0⟩
def RxBuf.init : RxBuf := ⟨List.replicate 16 0, List.replicate 16 0, List.replicate 16 2⟩
def Clock.init : Clock := ⟨0, 0, 0, 0, 0, none, none, none, 0, 0⟩
def Mgmt.init : Mgmt := ⟨none, 0, none, false, 0, false, 0, 0, (0, 0)⟩

/-- An invalid component descriptor, step entry, mailbox, fault service, and an ASID that is not live (01 R11, 15 R203,
R206, 27 R274, 17 R225). -/
def noComponent : Component := ⟨[], 0, 0, false, false, 0, false, 0, 0, 0, 0, 0, 0, []⟩
def noStep : StepEntry := ⟨0, false, 0, 0, 0, 0, 0, 0, 0, 0, false, false⟩
def noMailbox : Mailbox := ⟨0, false, 0, 0, 0⟩
def noFaultService : FaultService := ⟨0, false, 0, 0, 0, 0, 0⟩
def noAsid : AsidEntry := ⟨false, 0, 0, 0⟩

/-- The machine right after reset (29 R296): memory clear, owner tags 0xFFF, no program. -/
def State.reset : State where
  cur := 0
  now := 0
  slot := 0
  arg := .none
  agenda := []
  pending := []
  free := 0
  nextId := 0
  power := true
  threads := .empty
  cores := .empty
  clusters := .empty
  ports := .empty
  dies := .empty
  mem := .empty
  fe := .empty
  tags := .empty
  poison := .empty
  stamps := .empty
  replicas := []
  asids := .empty
  pkgId := 0
  comps := .empty
  steps := .empty
  slots := .empty
  mailboxes := .empty
  faultsvcs := .empty
  resident := false
  epoch := 0
  residentAt := 0
  digest := 0
  tabDigest := 0
  held := []
  ended := []
  damaged := []
  suspended := []
  stepsOver := []
  net := []
  pfaults := []
  cwWrites := []
  wakes := []
  fwakes := []
  transit := []
  creditsBack := []
  steals := []
  joins := []
  clock := .init
  mgmt := .init
  gws := .empty
  links := .empty
  ergs := .empty
  rx := .empty
  fuses := ⟨0, 0, []⟩
  mins := .empty
  corrected := 0
  out := []

end Sys2Proof.Machine
end

