-- ==== Sys2Proof/Machine/Ops.lean ====
section
/-!
DEFINITION. Named operations over the state: numbering, registers with their special behaviour, per-core registers and
their four-cycle rule, completing an instruction, control transfer, taking an exception and returning from one.
-/

namespace Sys2Proof.Machine

/-- A step that goes on. -/
abbrev Out1 := Host.Outcome State Fault Refusal

/-! ### Agents (00 R6) -/

def coreOf (t : Nat) : Nat := t / 16
def laneOf (t : Nat) : Nat := t % 16
/-- The cluster of a core, numbered die·64 + cluster. -/
def clusterOf (c : Nat) : Nat := c / 16
def dieOf (c : Nat) : Nat := c / 1024

namespace State

def thread (s : State) (t : Nat) : Thread := s.threads.get Thread.init t
def setThread (s : State) (t : Nat) (th : Thread) : State := { s with threads := s.threads.set Thread.init t th }
def modThread (s : State) (t : Nat) (f : Thread → Thread) : State := s.setThread t (f (s.thread t))
def core (s : State) (c : Nat) : Core := s.cores.get Core.init c
def setCore (s : State) (c : Nat) (k : Core) : State := { s with cores := s.cores.set Core.init c k }
def modCore (s : State) (c : Nat) (f : Core → Core) : State := s.setCore c (f (s.core c))
def cluster (s : State) (c : Nat) : Cluster := s.clusters.get Cluster.init c
def modCluster (s : State) (c : Nat) (f : Cluster → Cluster) : State :=
  { s with clusters := s.clusters.set Cluster.init c (f (s.cluster c)) }
def port (s : State) (p : Nat) : Port := s.ports.get Port.init p
def modPort (s : State) (p : Nat) (f : Port → Port) : State :=
  { s with ports := s.ports.set Port.init p (f (s.port p)) }
def die (s : State) (d : Nat) : Die := s.dies.get Die.init d
def modDie (s : State) (d : Nat) (f : Die → Die) : State := { s with dies := s.dies.set Die.init d (f (s.die d)) }
def gw (s : State) (g : Nat) : Gateway := s.gws.get Gateway.init g
def modGw (s : State) (g : Nat) (f : Gateway → Gateway) : State :=
  { s with gws := s.gws.set Gateway.init g (f (s.gw g)) }
def link (s : State) (l : Nat) : Link := s.links.get Link.init l
def modLink (s : State) (l : Nat) (f : Link → Link) : State :=
  { s with links := s.links.set Link.init l (f (s.link l)) }
def comp (s : State) (c : Nat) : Component := s.comps.get noComponent c

/-- The thread whose instruction executes. -/
abbrev th (s : State) : Thread := s.thread s.cur
def modTh (s : State) (f : Thread → Thread) : State := s.modThread s.cur f

/-- Record an event the hardware owes. -/
def owe (s : State) (due : Nat) (i : Instr) (a : Arg) : State := { s with pending := s.pending ++ [⟨due, ⟨i, a⟩⟩] }

/-- Take the next transaction number. -/
def fresh (s : State) : Nat × State := (s.nextId, { s with nextId := s.nextId + 1 })

/-- Take a free value (log entry 2). -/
def freeWord (s : State) : Word × State := (Config.freeWord s.free, { s with free := s.free + 1 })

/-- Send a message to a host. -/
def tell (s : State) (o : Out) : State := { s with out := s.out ++ [o] }

end State

/-- The number of the line of mask register n of a thread among the lines in `vbad` of its core (17 R217). -/
def maskLine (lane n : Nat) : Nat := 256 + 8 * lane + n

/-- The argument that names one, two or three numbers. -/
def Arg.num (n : Nat) : Arg := { Arg.none with n := n }
def Arg.num2 (n k : Nat) : Arg := { Arg.none with n := n, k := k }

/-! ### Latency classes (15 R209) -/

def class1 : Nat := 4
def class2 : Nat := 8
def class3 : Nat := 24
def peerLoad : Nat := 16

/-! ### Registers of a thread -/

namespace Thread

/-- Read a general register; g0 reads zero (03 R24). -/
def rd (th : Thread) (r : Reg) : Word := if r = 0 then 0 else th.g.get 0 r.val

/-- Write a general register; a write to g0 is discarded (03 R24). The old value is kept for accesses through the
register image until the instruction completes (23 R255). -/
def wr (th : Thread) (r : Reg) (v : Word) : Thread :=
  if r = 0 then th
  else { th with
    g := th.g.set 0 r.val v
    oldG := if th.oldG.any (fun p => p.1 == r.val) then th.oldG else (r.val, th.g.get 0 r.val) :: th.oldG }

/-- Read a mask register; m0 reads all ones (03 R24). -/
def rdM (th : Thread) (r : MReg) : Vec := if r = 0 then BitVec.allOnes 512 else th.m.get 0 r.val
/-- Write a mask register; a write to m0 is discarded. -/
def wrM (th : Thread) (r : MReg) (v : Vec) : Thread := if r = 0 then th else { th with m := th.m.set 0 r.val v }

def privileged (th : Thread) : Bool := th.priv.getLsbD 0

end Thread

namespace State

def g (s : State) (r : Reg) : Word := s.th.rd r
def setG (s : State) (r : Reg) (v : Word) : State := s.modTh fun th => th.wr r v
/-- Write a mask register of the executing thread, which covers its line (17 R222). -/
def setM (s : State) (r : MReg) (v : Vec) : State :=
  if r = 0 then s
  else (s.modTh fun th => th.wrM r v).modCore (coreOf s.cur) fun c =>
    { c with vbad := c.vbad.filter fun e => e.1 != maskLine (laneOf s.cur) r.val }

/-- Architectural vector register n of a thread (01 R14). -/
def vreg (s : State) (t n : Nat) : Vec := (s.core (coreOf t)).vf.get 0 ((s.thread t).winBase + n)

/-- Write the bits of a mask in vector register n of a thread, keeping the old bits for the register image until the
instruction completes (09 R120). A write of the whole register covers its line (17 R222). -/
def setVreg (s : State) (t n : Nat) (v mask : Vec) : State :=
  let th := s.thread t
  let p := th.winBase + n
  let old := (s.core (coreOf t)).vf.get 0 p
  (s.setThread t { th with oldV := (p, old, mask) :: th.oldV }).modCore (coreOf t)
    fun c => { c with
      vf := c.vf.set 0 p ((old &&& ~~~mask) ||| (v &&& mask))
      vbad := if mask = BitVec.allOnes 512 then c.vbad.filter fun e => e.1 != p else c.vbad }

end State

/-! ### Per-core registers (03 R28, 19 R235) -/

def kISSUEPOL : Nat := 64
def kFECTL : Nat := 65
def kNPCTL : Nat := 66
def kWDCTL : Nat := 67
def kRNRCTL : Nat := 68

namespace Core

/-- The value an instruction that issues at cycle `now` sees: the last write that issued at now − 4 or earlier. -/
def regAt (c : Core) (now k : Nat) : Word :=
  match c.recent.find? (fun e => e.2.1 == k && decide (e.1 + 4 ≤ now)) with
  | some e => e.2.2
  | none => c.regs.get 0 k

/-- The value after every write made so far. -/
def regLast (c : Core) (k : Nat) : Word :=
  match c.recent.find? (fun e => e.2.1 == k) with
  | some e => e.2.2
  | none => c.regs.get 0 k

/-- A write that issues at cycle `now`. Writes that every later read sees are folded into `regs`. -/
def writeReg (c : Core) (now k : Nat) (v : Word) : Core :=
  let old := c.recent.filter (fun e => decide (e.1 + 4 ≤ now))
  { c with
    regs := old.reverse.foldl (fun m e => m.set 0 e.2.1 e.2.2) c.regs
    recent := (now, k, v) :: c.recent.filter (fun e => !decide (e.1 + 4 ≤ now)) }

end Core

/-! ### Circular buffers (13 R187; 17 R220) -/

/-- Per-core numbers of a buffer's halves. -/
def cbLow (b : Nat) : Nat := 32 + 2 * b
def cbHigh (b : Nat) : Nat := 33 + 2 * b

/-- The ring of a low half: base and size, 0 when disabled. -/
def ringBase (lo : Word) : Nat := lo.toNat % 2 ^ 20
def ringSize (lo : Word) : Nat := let z := lo.toNat / 2 ^ 20 % 32; if z = 0 then 0 else 2 ^ z

/-- Posted and freed counts, and the fill, of a high half. -/
def ringPosted (hi : Word) : Nat := hi.toNat % 2 ^ 32
def ringFreed (hi : Word) : Nat := hi.toNat / 2 ^ 32
def ringFill (hi : Word) : Nat := (ringPosted hi + 2 ^ 32 - ringFreed hi) % 2 ^ 32

/-- A high half with counts added. -/
def ringAdd (hi : Word) (posted freed : Nat) : Word :=
  BitVec.ofNat 64 ((ringPosted hi + posted) % 2 ^ 32 + 2 ^ 32 * ((ringFreed hi + freed) % 2 ^ 32))

/-- A SYSW of a high half. Counter updates that took effect earlier in this cycle count as if they came after it (17 R220). -/
def Core.writeHigh (c : Core) (now k : Nat) (v : Word) : Core :=
  if c.recent.any (fun e => e.1 == now && e.2.1 == k) then
    let old := { c with recent := c.recent.filter fun e => !(e.1 == now && e.2.1 == k) }.regLast k
    let hi := c.regLast k
    c.writeReg now k (ringAdd v (ringPosted hi + 2 ^ 32 - ringPosted old) (ringFreed hi + 2 ^ 32 - ringFreed old))
  else c.writeReg now k v

namespace State
def regAt (s : State) (c k : Nat) : Word := (s.core c).regAt s.now k
def regLast (s : State) (c k : Nat) : Word := (s.core c).regLast k
def writeReg (s : State) (c k : Nat) (v : Word) : State := s.modCore c fun x => x.writeReg s.now k v

/-- Add to the posted or the freed count of a buffer (13 R187). -/
def cbPost (s : State) (c b n : Nat) : State := s.writeReg c (cbHigh b) (ringAdd (s.regLast c (cbHigh b)) n 0)
def cbFree (s : State) (c b n : Nat) : State := s.writeReg c (cbHigh b) (ringAdd (s.regLast c (cbHigh b)) 0 n)
end State

/-! ### Completing an instruction -/

/-- One level of the loop-end check (07 R104); answers whether the level repeats. -/
def loopLevel (p : Word) (l : Nat) (th : Thread) : Thread × Bool :=
  let n := th.lc.get 0 l
  if n ≠ 0 ∧ p = th.le.get 0 l ∧ th.lp.get false l = th.priv.getLsbD 0 then
    if 1 < n.toNat then ({ th with lc := th.lc.set 0 l (n - 1), pc := th.ls.get 0 l }, true)
    else ({ th with lc := th.lc.set 0 l 0 }, false)
  else (th, false)

/-- The loop-end check after the instruction at offset p, level 1 first; PC stands at the next instruction (07 R104). -/
def loopEnd (p : Word) (th : Thread) : Thread :=
  let r := loopLevel p 1 th
  if r.2 then r.1 else (loopLevel p 0 r.1).1

/-- The cycle in which a thread is next eligible: D after its issue, and after a wait not before the next cycle (15 R209). -/
def nextReady (now : Nat) (th : Thread) (dist : Nat) : Nat :=
  if th.wait.isSome then max (now + 1) (th.issuedAt + dist) else th.issuedAt + dist

/-- The thread is ready again, its wait over; until `late` the register images show the old values (09 R120, 23 R255). -/
def Thread.settle (th : Thread) (now dist : Nat) : Thread :=
  { th with
    st := .ready
    readyAt := nextReady now th dist
    late := if th.wait.isSome then now else th.issuedAt + dist
    wait := none }

/-- An instruction completes, its successor at an offset: PC moves there and the loop-end check is made (07 R104). -/
def State.finishAt (s : State) (t : Nat) (next : Word) (dist : Nat) : State :=
  s.modThread t fun th => (loopEnd th.pc { th with pc := next }).settle s.now dist

/-- An instruction of `len` bytes completes. -/
def State.finish (s : State) (t : Nat) (len : Word) (dist : Nat) : State :=
  s.finishAt t ((s.thread t).pc + len) dist

/-- Completion of a 32-bit instruction of the executing thread. -/
def State.done (s : State) (dist : Nat) : State := s.finish s.cur 4 dist

/-- A transfer whose target lies outside an active level ends it (07 R105). -/
def exitLoops (target : Word) (th : Thread) : Thread :=
  let out (l : Nat) : Bool := decide (target.toNat < (th.ls.get 0 l).toNat) || decide ((th.le.get 0 l).toNat < target.toNat)
  let lc := if out 0 then th.lc.set 0 0 0 else th.lc
  { th with lc := if out 1 then lc.set 0 1 0 else lc }

/-- A taken transfer (07 R100, R105): PC becomes the target, fetched parcels are discarded (19 R233); a call leaves every
loop level active. -/
def State.jump (s : State) (t : Nat) (target : Word) (call : Bool) (dist : Nat) : State :=
  s.modThread t fun th =>
    { (if call then th else exitLoops target th) with pc := target, fetched := [] }.settle s.now dist

/-! ### Exceptions (27 R269 to R271) -/

/-- Trap entry, in the thread's registers: CAUSE, EPC and TVAL record the cause, PRIV bit 1 receives bit 0 and bit 0 is
set, fetched parcels are discarded, PC := TRAPVEC. The handler is eligible 4 cycles after the issue, or in the cycle
after the cause is known when the thread was parked. -/
def Thread.trap (th : Thread) (now : Nat) (c : Cause) (tv : Word) : Thread :=
  { th with
    cause := c.zeroExtend 64
    epc := th.pc
    tval := tv
    priv := (th.priv &&& 1) <<< 1 ||| 1
    fetched := []
    pc := th.trapvec
    st := .ready
    readyAt := if th.wait.isSome ∧ th.issuedAt < now then now + 1 else th.issuedAt + 4
    late := if th.wait.isSome ∧ th.issuedAt < now then now else th.issuedAt + 4
    wait := none
    oldG := []
    oldV := []
    afterTrap := true }

/-- Trap entry (27 R269). -/
def State.trap (s : State) (t : Nat) (c : Cause) (tv : Word) : State := s.modThread t fun th => th.trap s.now c tv

/-- A double trap (27 R270): CAUSE, EPC and TVAL are written, PRIV stays, the thread halts and the owner is told. -/
def State.doubleTrap (s : State) (t : Nat) (c : Cause) (tv : Word) : State :=
  (s.modThread t fun th =>
    { th with cause := c.zeroExtend 64, epc := th.pc, tval := tv, fetched := [], st := .halted, wait := none }).tell
    (.doubleTrap s.mgmt.owner t c)

/-- A cause raised by a fetch (27 R270). -/
def State.fetchTrap (s : State) (t : Nat) (c : Cause) (tv : Word) : State :=
  if (s.thread t).afterTrap then s.doubleTrap t c tv else s.trap t c tv

/-- A cause of the executing instruction: trap entry is the next state. -/
def State.raise (s : State) (c : Cause) (tv : Word) : Out1 := .next (s.trap s.cur c tv)

/-- Return from an exception (07 R111): PC := EPC, PRIV bit 0 := PRIV bit 1, PRIV bit 1 := 0. It is a taken transfer, and
not one of those that end a loop level (07 R105); as every taken transfer it makes no loop-end check, also where it stands at
LE[L] of an active level, which R104 does not list (DESIGN CHOICE, log entry 52). -/
def State.eret (s : State) (t : Nat) (dist : Nat) : State :=
  (s.modThread t fun th => { th with priv := (th.priv >>> 1) &&& 1 }).jump t (s.thread t).epc true dist

/-- An instruction whose whole effect is a value for a general register. -/
def State.put (s : State) (d : Reg) (v : Word) (dist : Nat) : Out1 := .next ((s.setG d v).done dist)

/-! ### Waiting -/

/-- Park the executing thread (01 R15). -/
def State.park (s : State) (t : Nat) (w : Wait) : State :=
  s.modThread t fun th => { th with st := .parked, wait := some w }

/-- A thread waits, from when this instruction first waited for the same thing. -/
def State.waitFor (s : State) (t : Nat) (a : Act) (why : Why) (reqs : List Nat) (got : List (Nat × List Byte)) : State :=
  let since := match (s.thread t).wait with | some w => if w.why = why then w.since else s.now | none => s.now
  s.park t ⟨a, why, since, reqs, got, none⟩

/-- Park a thread until a condition holds. -/
def State.parkOn (s : State) (t : Nat) (a : Act) (why : Why) : State := s.waitFor t a why [] []

end Sys2Proof.Machine
end

