-- ==== Sys2Proof/Machine/Window.lean ====
section
/-!
DEFINITION. System registers by number (03 R29, R30; 07 R112, R113) and the core window beyond the local store: register
images (03 R32) and control window (17 R216 to R220; 27 R273, R277; 29 R286).
-/

namespace Sys2Proof.Machine

/-- The bits of an instruction, zero-extended, as TVAL reports them (05 R45). -/
def ibits (i : Instr) : Word :=
  match encFields i with
  | some f => BitVec.ofNat 64 (pack f)
  | none => match encParcel i with | some p => BitVec.ofNat 64 p | none => 0

/-- The number a list of bytes holds, least significant first (03 R26). -/
def leNat : List Byte → Nat
  | [] => 0
  | b :: r => b.toNat + 256 * leNat r

/-! ### System registers -/

/-- How a system register may be written (03 R29). -/
inductive SysAcc where
  | ro | priv | rw
  deriving DecidableEq, Repr

def sysAcc (n : Nat) : SysAcc :=
  if n = 2 ∨ n = 3 ∨ 0x100 ≤ n then .rw
  else if n = 4 ∨ n = 5 ∨ n = 6 ∨ n = 11 ∨ n = 14 ∨ n = 15 then .priv
  else .ro

/-- The number of a per-core register, from its system-register number (05 R64). -/
def sysPerCore (n : Nat) : Option Nat :=
  if n = 11 then some kISSUEPOL
  else if 0x100 ≤ n ∧ n ≤ 0x107 then some (n - 0x100)
  else if 0x110 ≤ n ∧ n ≤ 0x11F then some (n - 0x100)
  else if 0x120 ≤ n ∧ n ≤ 0x13F then some (n - 0x100)
  else none

/-- Cycles since the program became resident (03 R29). R30 lets the counts of two cores differ by an amount it does not state;
here every core shows the same count (DESIGN CHOICE, log entry 52). -/
def State.cycle (s : State) : Word := BitVec.ofNat 64 (s.now - s.residentAt)

/-- The descriptor of the component a core belongs to; all zero without one. -/
def State.compOf (s : State) (c : Nat) : Component :=
  match (s.core c).comp with | some k => s.comp k | none => noComponent

/-- The value of system register n of a thread (07 R112). -/
def State.sysRead (s : State) (t n : Nat) : Word :=
  let th := s.thread t
  match sysPerCore n with
  | some k => s.regAt (coreOf t) k
  | none =>
    match n with
    | 0 => th.vl | 1 => th.vtype | 2 => th.vstart | 3 => th.fcsr | 4 => th.cause | 5 => th.epc | 6 => th.tval
    | 7 => BitVec.ofNat 64 t | 8 => BitVec.ofNat 64 (coreOf t) | 9 => s.cycle
    | 10 => (s.compOf (coreOf t)).stealdom.zeroExtend 64
    | 12 => if (s.compOf (coreOf t)).nlmode then 1 else 0
    | 13 => th.portstat | 14 => th.trapvec | 15 => th.priv | 16 => th.asid.zeroExtend 64
    | _ => 0

/-- The reserved bits of a system or per-core register (07 R113; 03 R27; 17 R220), by system-register number. -/
def sysReserved (n : Nat) : Word :=
  if n = 2 then 0xFFFFFFFFFFFF0000
  else if n = 3 then 0xFFFFFFFFFFFFE080
  else if n = 4 then 0xFFFFFFFFFFFFFF00
  else if n = 5 ∨ n = 14 then 1
  else if n = 11 then 0xFFFFFFFFFFFFFFFE
  else if n = 15 then 0xFFFFFFFFFFFFFFFC
  else if 0x110 ≤ n ∧ n ≤ 0x11F then 0xFFFFFFFFFFFF00F0
  else if 0x120 ≤ n ∧ n ≤ 0x13F ∧ n % 2 = 0 then 0xFFFFFFFFFE000000
  else 0

/-- A CB low half is good: a legal SZ code and a BASE that is a multiple of the size (17 R220). -/
def cbLowOk (v : Word) : Bool :=
  let sz := v.toNat / 2 ^ 20 % 32
  (sz == 0 || (decide (6 ≤ sz) && decide (sz ≤ 20))) && v.toNat % 2 ^ 20 % 2 ^ sz == 0

/-- The cause with which a value is refused for system register n (07 R113): a reserved bit or a bad CB low half 0x03, a
reserved FMT code 0x0A. -/
def sysValueCause (n : Nat) (v : Word) : Option Cause :=
  if v &&& sysReserved n ≠ 0 then some 0x03
  else if 0x120 ≤ n ∧ n ≤ 0x13F ∧ n % 2 = 0 ∧ !cbLowOk v then some 0x03
  else if 0x110 ≤ n ∧ n ≤ 0x11F ∧ 9 < v.toNat % 16 then some 0x0A
  else none

/-- The cause of a SYSW (03 R30, 07 R113), in the order in which 07 R113 lists them (DEDUCED, log entry 21): the refusals
0x07, then the value's own causes. -/
def sysWriteCause (n : Nat) (v : Word) (privileged : Bool) : Option Cause :=
  let a := sysAcc n
  if a = .ro ∨ (a = .priv ∧ !privileged) then some 0x07 else sysValueCause n v

/-- Write system register n of a thread, checks passed. -/
def State.sysWrite (s : State) (t n : Nat) (v : Word) : State :=
  match sysPerCore n with
  | some k =>
    if 0x120 ≤ n ∧ n % 2 = 1 then s.modCore (coreOf t) fun c => c.writeHigh s.now k v else s.writeReg (coreOf t) k v
  | none => s.modThread t fun th =>
    match n with
    | 2 => { th with vstart := v } | 3 => { th with fcsr := v } | 4 => { th with cause := v }
    | 5 => { th with epc := v } | 6 => { th with tval := v } | 14 => { th with trapvec := v }
    | 15 => { th with priv := v } | _ => th

/-! ### Register images (03 R32) -/

/-- Replace byte i of a number's bits. -/
def putByte {w : Nat} (v : BitVec w) (i : Nat) (b : Byte) : BitVec w :=
  (v &&& ~~~((0xFF : BitVec w) <<< (8 * i))) ||| (b.zeroExtend w <<< (8 * i))
/-- Byte i of a number's bits. -/
def byteAt {w : Nat} (v : BitVec w) (i : Nat) : Byte := (v >>> (8 * i)).truncate 8

/-- g n as its image shows it: the old value until the instruction that wrote it completes (23 R255). -/
def Thread.imgG (th : Thread) (now n : Nat) : Word :=
  if n = 0 then 0 else
  match (if now < th.late then th.oldG.find? (fun p => p.1 == n) else none) with
  | some p => p.2
  | none => th.g.get 0 n

/-- Write a byte of g n through its image. The instruction in flight writes later, and its write stands (23 R255). -/
def Thread.putImgG (th : Thread) (now n i : Nat) (b : Byte) : Thread :=
  if n = 0 then th
  else if now ≤ th.late && th.oldG.any (fun p => p.1 == n) then
    { th with oldG := th.oldG.map fun p => if p.1 = n then (n, putByte p.2 i b) else p }
  else { th with g := th.g.set 0 n (putByte (th.g.get 0 n) i b) }

/-- The thread of a core whose window holds physical register p. -/
def State.windowOf (s : State) (c p : Nat) : Option Nat :=
  ((List.range 16).map (16 * c + ·)).find? fun t =>
    let th := s.thread t
    decide (th.winBase ≤ p) && decide (p < th.winBase + th.winSize)

/-- Physical vector register p as its image shows it (09 R120). -/
def State.imgV (s : State) (c p : Nat) : Vec :=
  let v := (s.core c).vf.get 0 p
  match s.windowOf c p with
  | none => v
  | some t =>
    let th := s.thread t
    if s.now < th.late then
      th.oldV.foldl (fun v e => if e.1 = p then (v &&& ~~~e.2.2) ||| (e.2.1 &&& e.2.2) else v) v
    else v

/-- Write byte i of physical vector register p through its image (09 R120). -/
def State.putImgV (s : State) (c p i : Nat) (b : Byte) : State :=
  let plain := s.modCore c fun k => { k with vf := k.vf.set 0 p (putByte (k.vf.get 0 p) i b) }
  match s.windowOf c p with
  | none => plain
  | some t =>
    let th := s.thread t
    if s.now ≤ th.late && th.oldV.any (fun e => e.1 == p && e.2.2.getLsbD (8 * i)) then
      s.setThread t { th with oldV := th.oldV.map fun e => if e.1 = p then (p, putByte e.2.1 i b, e.2.2) else e }
    else plain

/-- A byte of a register image at an offset of the core window. -/
def State.imgByte (s : State) (c off : Nat) : Byte :=
  if off < 0x500000 then byteAt (s.imgV c ((off - 0x400000) / 64)) (off % 64)
  else if off < 0x510000 then
    let o := off - 0x500000
    byteAt ((s.thread (16 * c + o / 256)).imgG s.now (o % 256 / 8)) (o % 8)
  else
    let o := off - 0x510000
    byteAt ((s.thread (16 * c + o / 4096)).acc.get 0 (o % 4096 / 4)) (o % 4)

/-- Write a byte of a register image. -/
def State.putImgByte (s : State) (c off : Nat) (b : Byte) : State :=
  if off < 0x500000 then s.putImgV c ((off - 0x400000) / 64) (off % 64) b
  else if off < 0x510000 then
    let o := off - 0x500000
    s.modThread (16 * c + o / 256) fun th => th.putImgG s.now (o % 256 / 8) (o % 8) b
  else
    let o := off - 0x510000
    s.modThread (16 * c + o / 4096) fun th =>
      { th with acc := th.acc.set 0 (o % 4096 / 4) (putByte (th.acc.get 0 (o % 4096 / 4)) (o % 4) b) }

/-! ### Barriers (13 R200) -/

/-- Barriers of a core are numbered CBAR b as b and KBAR b, in core 0 of a cluster, as 4 + b. -/
def State.bar (s : State) (c i : Nat) : Bar := (s.core c).bars.get Bar.init i
def State.setBar (s : State) (c i : Nat) (b : Bar) : State :=
  s.modCore c fun k => { k with bars := k.bars.set Bar.init i b }
def Bar.word (b : Bar) : Word := BitVec.ofNat 64 (b.need + 2 ^ 16 * b.count + (if b.gen then 2 ^ 32 else 0))
/-- NEED of a barrier as a read of its register shows it: as it stood before the first write of the last three cycles (03 R28; 17 R219).
An arrival meets the last write (13 R201). -/
def Core.needSeen (c : Core) (now i : Nat) : Nat :=
  match (c.needs.filter fun e => e.2.1 == i && decide (now < e.1 + 4)).getLast? with
  | some e => e.2.2
  | none => (c.bars.get Bar.init i).need
/-- A write of NEED. -/
def Core.setNeed (c : Core) (now i n : Nat) : Core :=
  let b := c.bars.get Bar.init i
  { c with
    bars := c.bars.set Bar.init i { b with need := n }
    needs := (now, i, b.need) :: c.needs.filter fun e => decide (now < e.1 + 4) }
/-- The most a NEED field stores. -/
def barMax (i : Nat) : Nat := if i < 4 then 16 else 256

/-! ### The control window (17 R217 to R219) -/

/-- A register of the control window. -/
inductive CReg where
  | mask (t n w : Nat)
  | sys (t n : Nat)
  | ls (t l : Nat) | le (t l : Nat) | lc (t l : Nat)
  | lp (t : Nat) | pc (t : Nat) | depth (t : Nat) | state (t : Nat) | wake (t : Nat)
  | perCore (sys : Nat)
  | ctl (k : Nat)
  | pkgid
  | bar (i : Nat)
  | sdreq | sdstat
  deriving DecidableEq, Repr

/-- The register at an offset of a core's control window; none where no register stands. -/
def cregAt (c off : Nat) : Option CReg :=
  if off < 0x610000 then
    let t := 16 * c + (off - 0x600000) / 0x1000
    let o := off % 0x1000
    if o < 0x200 then some (.mask t (o / 64) (o % 64 / 8))
    else if o ≤ 0x280 then some (.sys t ((o - 0x200) / 8))
    else match o with
      | 0x300 => some (.ls t 0) | 0x308 => some (.le t 0) | 0x310 => some (.lc t 0)
      | 0x318 => some (.ls t 1) | 0x320 => some (.le t 1) | 0x328 => some (.lc t 1)
      | 0x330 => some (.lp t) | 0x338 => some (.pc t) | 0x340 => some (.depth t) | 0x348 => some (.state t)
      | 0x350 => some (.wake t) | _ => none
  else
    let o := off - 0x610000
    if o < 0x040 then some (.perCore (0x100 + o / 8))
    else if o < 0x0C0 then some (.perCore (0x110 + (o - 0x040) / 8))
    else if o < 0x1C0 then some (.perCore (0x120 + (o - 0x0C0) / 8))
    else if 0x200 ≤ o ∧ o < 0x340 then
      if o % 16 ≠ 0 then none
      else if o < 0x240 then some (.bar ((o - 0x200) / 16))
      else if c % 16 = 0 then some (.bar (4 + (o - 0x240) / 16)) else none
    else match o with
      | 0x1C0 => some (.ctl kFECTL) | 0x1C8 => some (.ctl kNPCTL) | 0x1D0 => some (.perCore 0x00B)
      | 0x1D8 => some (.sys (16 * c) 9) | 0x1E0 => some (.sys (16 * c) 8) | 0x1E8 => some (.sys (16 * c) 10)
      | 0x1F0 => some (.sys (16 * c) 12) | 0x1F8 => some .pkgid
      | 0x340 => some (.ctl kWDCTL) | 0x348 => some .sdreq | 0x350 => some .sdstat | 0x358 => some (.ctl kRNRCTL)
      | _ => none

/-- The state a thread is in (01 R15): in flight until its instruction completes. -/
def Thread.shown (th : Thread) (now : Nat) : TState :=
  match th.st with
  | .ready | .idle | .halted => if now < th.late then .inflight else th.st
  | st => st

def stateCode : TState → Nat | .halted => 0 | .idle => 1 | .ready => 2 | .inflight => 3 | .parked => 4

/-- A read of a control-window register. -/
def State.cwRead (s : State) (c : Nat) : CReg → Word
  | .mask t n w => ((s.thread t).rdM (Fin.ofNat 8 n) >>> (64 * w)).truncate 64
  | .sys t n => s.sysRead t n
  | .ls t l => (s.thread t).ls.get 0 l
  | .le t l => (s.thread t).le.get 0 l
  | .lc t l => (s.thread t).lc.get 0 l
  | .lp t => (if (s.thread t).lp.get false 0 then 1 else 0) + (if (s.thread t).lp.get false 1 then 2 else 0)
  | .pc t => (s.thread t).pc
  | .depth t => (s.thread t).depth.zeroExtend 64
  | .state t => BitVec.ofNat 64 (stateCode ((s.thread t).shown s.now))
  | .wake t => if (s.thread t).wake then 1 else 0
  | .perCore n => match sysPerCore n with | some k => s.regAt c k | none => 0
  | .ctl k => s.regAt c k
  | .pkgid => s.pkgId.zeroExtend 64
  | .bar i => { s.bar c i with need := (s.core c).needSeen s.now i }.word
  | .sdreq => (s.core c).sdWord
  | .sdstat => BitVec.ofNat 64 ((if (s.core c).sdBusy then 1 else 0) + 2 ^ 16 * (s.core c).sdSeq.toNat)

/-- The reserved bits of a control register that is not a system register. -/
def ctlReserved (k : Nat) : Word :=
  if k = kFECTL then 0xFFFFFFFFFFFF0000 else if k = kRNRCTL then 0xFFFFFFFFFFFFFF00 else 0xFFFFFFFF00000000

/-- SDREQ refuses a set bit below the page size and, with SIZE 3, any page bit (27 R277). -/
def sdreqOk (v : Word) : Bool :=
  let page := v.toNat / 2 ^ 16 % 2 ^ 40
  v &&& 0xFF0000000000FFFC == 0 &&
    match v.toNat % 4 with | 0 => true | 1 => page % 2 ^ 11 == 0 | 2 => page % 2 ^ 22 == 0 | _ => page == 0

/-- The cause with which a control-window write is refused (17 R219; 13 R200; 27 R277). -/
def State.cwCause (s : State) (c : Nat) (r : CReg) (v : Word) (priv : Bool) : Option Cause :=
  match r with
  | .mask _ _ _ | .wake _ => none
  | .sys _ n =>
    let a := sysAcc n
    if a = .ro ∨ (a = .priv ∧ !priv) then some 0x3A else sysValueCause n v
  | .ls _ _ | .le _ _ | .lc _ _ => if priv then none else some 0x3A
  | .pc _ => if !priv then some 0x3A else none
  | .lp _ => if !priv then some 0x3A else if v &&& 0xFFFFFFFFFFFFFFFC ≠ 0 then some 0x03 else none
  | .depth _ => if !priv then some 0x3A else if v &&& 0xFFFFFFFFFFFFFF00 ≠ 0 then some 0x03 else none
  | .state _ | .pkgid | .sdstat => some 0x3A
  | .perCore n => if n = 0x00B ∧ !priv then some 0x3A else sysValueCause n v
  | .ctl k => if !priv then some 0x3A else if v &&& ctlReserved k ≠ 0 then some 0x03 else none
  | .bar _ => if v &&& 0xFFFFFFFEFE00FE00 ≠ 0 then some 0x03 else none
  | .sdreq =>
    if !priv || (s.core c).sdBusy then some 0x3A else if !sdreqOk v then some 0x03 else none

/-- Store one 64-bit word of a mask register. -/
def putWord (v : Vec) (w : Nat) (x : Word) : Vec :=
  (v &&& ~~~((0xFFFFFFFFFFFFFFFF : Vec) <<< (64 * w))) ||| (x.zeroExtend 512 <<< (64 * w))

/-- A control-window write takes effect (17 R219): a register of a running thread other than the writer, and the
writer's own PC, keep their values. A PC is taken without its bit 0, which is always 0 (03 R24; that the write is not refused instead
is a DESIGN CHOICE, log entry 52). The wake word and SDREQ have steps of their own. -/
def State.cwWrite (s : State) (c : Nat) (r : CReg) (v : Word) (tid : Nat) : State :=
  let still (t : Nat) : Bool := (s.thread t).shown s.now == .halted || (s.thread t).st == .parked
  let may (t : Nat) : Bool := t == tid || still t
  match r with
  | .mask t n w => s.modThread t fun th => th.wrM (Fin.ofNat 8 n) (putWord (th.rdM (Fin.ofNat 8 n)) w v)
  | .sys t n => s.sysWrite t n v
  | .ls t l => if may t then s.modThread t fun th => { th with ls := th.ls.set 0 l v } else s
  | .le t l => if may t then s.modThread t fun th => { th with le := th.le.set 0 l v } else s
  | .lc t l => if may t then s.modThread t fun th => { th with lc := th.lc.set 0 l v } else s
  | .lp t => if may t then
      s.modThread t fun th => { th with lp := (th.lp.set false 0 (v.getLsbD 0)).set false 1 (v.getLsbD 1) } else s
  | .pc t => if t ≠ tid ∧ still t then s.modThread t fun th => { th with pc := v &&& 0xFFFFFFFFFFFFFFFE } else s
  | .depth t => if may t then s.modThread t fun th => { th with depth := v.truncate 8 } else s
  | .perCore n => match sysPerCore n with | some k => s.writeReg c k v | none => s
  | .ctl k => s.writeReg c k v
  | .bar i => s.modCore c fun k => k.setNeed s.now i (min (v.toNat % 512) (barMax i))
  | .state _ | .wake _ | .pkgid | .sdreq | .sdstat => s

end Sys2Proof.Machine
end

