-- ==== Sys2Proof/Machine/Memory.lean ====
section
/-!
DEFINITION. Memory: the on-chip map (17 R214 to R216), owner tags and poison (R221, R222), segments (11 R143, R144;
17 R213), paging and TLBs (17 R224 to R229), bytes at a location, and what a home does with a request (11 R152, R154;
21 R238, R239).
-/

namespace Sys2Proof.Machine

/-! ### The on-chip map -/

/-- Location of offset 0 of a core's window (17 R215). -/
def coreBase (c : Nat) : Nat := 2 ^ 56 + dieOf c * 2 ^ 52 + clusterOf c % 64 * 2 ^ 45 + c % 16 * 2 ^ 41
/-- Location of offset 0 of slice k of die d (17 R215). -/
def sliceBase (d k : Nat) : Nat := 2 ^ 56 + d * 2 ^ 52 + 2 ^ 51 + k * 2 ^ 48

/-- What a location names. -/
inductive Place where
  | core (c off : Nat)
  | slice (d k : Nat)
  | hbm (d k : Nat)
  | far (pkg : Nat)
  deriving DecidableEq, Repr

/-- The core window assigns the offset (17 R216). -/
def coreOff (off : Nat) : Bool :=
  decide (off < 0x100000) || (decide (0x400000 ≤ off) && decide (off < 0x404000))
    || (decide (0x500000 ≤ off) && decide (off < 0x501000)) || (decide (0x510000 ≤ off) && decide (off < 0x520000))
    || (decide (0x600000 ≤ off) && decide (off < 0x610400))

/-- Decode an on-chip GVA (17 R215); none where it falls in no window. -/
def decodeWin (a : Nat) : Option Place :=
  let d := a / 2 ^ 52 % 16
  if a / 2 ^ 56 ≠ 1 ∨ 8 ≤ d ∨ a / 2 ^ 27 % 2 ^ 14 ≠ 0 then none
  else if a / 2 ^ 51 % 2 = 1 then
    if a / 2 ^ 41 % 2 ^ 7 = 0 then some (.slice d (a / 2 ^ 48 % 8)) else none
  else
    let off := a % 2 ^ 23
    if a / 2 ^ 23 % 16 = 0 && coreOff off then
      some (.core (d * 1024 + a / 2 ^ 45 % 64 * 16 + a / 2 ^ 41 % 16) off)
    else none

/-- What a location names: an on-chip window, or a physical address by its package (17 R224). -/
def State.placeOf (s : State) (loc : Nat) : Option Place :=
  if 2 ^ 56 ≤ loc then decodeWin loc
  else if loc / 2 ^ 40 = s.pkgId.toNat then some (.hbm (loc / 2 ^ 36 % 8) (loc / 2 ^ 8 % 8))
  else some (.far (loc / 2 ^ 40))

/-- The die on which a place is homed; packages are reached through a fabric die. -/
def Place.die : Place → Nat
  | .core c _ => dieOf c | .slice d _ => d | .hbm d _ => d
  | .far p => if Config.gatewayFor p then 9 else 8

/-- Kinds of access, as 11 R145 tells them apart. `block` is an access that the control window does not take (17 R219): the
words an instruction reads for itself, and elements of a Prism's buffer. -/
inductive AKind where
  | load | store | atomic | fe | block
  deriving DecidableEq, Repr

/-- The owner tag of a location's line (17 R221): what is listed for it, else, in a local store, the ASID of the core's
component, else 0xFFF. -/
def State.tagAt (s : State) (loc : Nat) : BitVec 12 :=
  s.tags.get (match decodeWin loc with
    | some (.core c off) => if off < 0x100000 && (s.core c).comp.isSome then (s.compOf c).asid else 0xFFF
    | _ => 0xFFF) (loc / 64)

/-- The management firmware's accesses carry no ASID and pass only lines tagged 0xFFF (17 R221; 29 R294). -/
def State.firmwarePasses (s : State) (loc : Nat) : Bool := s.tagAt loc == 0xFFF
/-- The tag of a line passes an ASID, or the firmware's 0xFFF (17 R221). -/
def State.tagOk (s : State) (loc : Nat) (asid : BitVec 12) : Bool :=
  if asid = 0xFFF then s.firmwarePasses loc else s.tagAt loc == asid || s.tagAt loc == 0
/-- The tags of every line that z bytes lie in pass an ASID. -/
def State.tagsOk (s : State) (loc z : Nat) (asid : BitVec 12) : Bool :=
  s.tagOk loc asid && (List.range ((loc % 64 + z - 1) / 64)).all fun i => s.tagOk (loc / 64 * 64 + 64 * (i + 1)) asid

/-- The on-chip checks of an access: no window or another owner 0x39, an operation the window does not serve 0x3A
(11 R144, R145; 17 R219, R221). An atomic, a full/empty operation, and an access not of 8 aligned bytes raise 0x3A also at an offset of the
control window at which no register stands, for which R218 has 0x39 (DESIGN CHOICE, log entry 29). -/
def State.winCause (s : State) (loc z : Nat) (k : AKind) (asid : BitVec 12) : Option Cause :=
  match decodeWin loc with
  | none => some 0x39
  | some (.core c off) =>
    if off < 0x100000 then (if s.tagsOk loc z asid then none else some 0x39)
    else if (s.core c).comp = none ∨ (s.compOf c).asid ≠ asid then some 0x39
    else if k = .atomic ∨ k = .fe then some 0x3A
    else if off < 0x600000 then none
    else if k = .block ∨ z ≠ 8 ∨ off % 8 ≠ 0 then some 0x3A
    else if (cregAt c off).isNone then some 0x39 else none
  | some _ => if !s.tagsOk loc z asid then some 0x39 else if k = .fe then some 0x3A else none

/-! ### Bytes -/

def readMem (m : Memory) (loc n : Nat) : List Byte := (List.range n).map fun i => m.get 0 (loc + i)
def writeMem (m : Memory) (loc : Nat) : List Byte → Memory
  | [] => m
  | b :: r => writeMem (m.set 0 loc b) (loc + 1) r

/-- The lines that n bytes at a location lie in. -/
def linesOf (loc n : Nat) : List Nat := (List.range ((loc % 64 + n + 63) / 64)).map (loc / 64 + ·)

/-- The poison of a line after bytes [lo, hi) of it are written: none once one instruction or command has written all 64
(17 R222; DESIGN CHOICE, log entry 16: what one write is). -/
def Poison.write (m : Poison) (grp lo hi : Nat) : Option Poison :=
  let bytes := BitVec.ofNat 64 (2 ^ hi - 2 ^ lo)
  let mask := if m.grp = grp then m.mask ||| bytes else bytes
  if mask = BitVec.allOnes 64 then none else some ⟨m.met, grp, mask⟩

/-- A write of n bytes, by its instruction's or command's number, covers its part of every line it touches. -/
def coverPoison (p : Sp (Option Poison)) (loc n grp : Nat) : Sp (Option Poison) :=
  (linesOf loc n).foldl (fun p l =>
    match p.get none l with
    | some m => p.set none l (m.write grp (loc - 64 * l) (min 64 (loc + n - 64 * l)))
    | none => p) p

/-- The number of the vector or mask register whose image a line of the core window shows (17 R216, R217): a physical vector register's
own, and 256 + 8·thread + n for mask register n. -/
def vregLine (off : Nat) : Option Nat :=
  if 0x400000 ≤ off ∧ off < 0x404000 then some ((off - 0x400000) / 64)
  else if 0x600000 ≤ off ∧ off < 0x610000 ∧ off % 0x1000 < 0x200 then
    some (maskLine ((off - 0x600000) / 0x1000) (off % 0x1000 / 64))
  else none

/-- A write of part of a register's line, through its image or by an engine. -/
def coverVreg (l : List (Nat × Poison)) (p lo hi grp : Nat) : List (Nat × Poison) :=
  l.filterMap fun e => if e.1 = p then (e.2.write grp lo hi).map fun m => (p, m) else some e

/-- An instruction or command writes bytes [lo, hi) of a register's line. -/
def State.coverReg (s : State) (c p lo hi grp : Nat) : State :=
  s.modCore c fun k => { k with vbad := coverVreg k.vbad p lo hi grp }

/-- A write of n bytes of the core window beyond the local store covers its part of the register's line it lies in. -/
def State.coverWindow (s : State) (loc off c n grp : Nat) : State :=
  match vregLine off with
  | some p => s.coverReg c p (off % 64) (off % 64 + n) grp
  | none => { s with poison := coverPoison s.poison loc n grp }

/-- Every byte of some lines is written at once: their poison ends (17 R222). -/
def State.endPoison (s : State) (loc n : Nat) : State :=
  { s with poison := (linesOf loc n).foldl (fun p l => p.set none l none) s.poison }

/-- The poison of a location's line. -/
def State.poisonAt (s : State) (loc : Nat) : Option Poison :=
  match decodeWin loc with
  | some (.core c off) =>
    match vregLine off with
    | some p => ((s.core c).vbad.find? fun e => e.1 == p).map (·.2)
    | none => s.poison.get none (loc / 64)
  | _ => s.poison.get none (loc / 64)

def State.poisoned (s : State) (loc : Nat) : Bool := (s.poisonAt loc).isSome
/-- Some line in which n bytes at a location lie is poisoned. -/
def State.poisonedIn (s : State) (loc n : Nat) : Bool := (linesOf loc n).any fun l => s.poisoned (64 * l)

/-- A line becomes poisoned. -/
def State.addPoison (s : State) (loc : Nat) : State :=
  let plain : State := { s with poison := s.poison.set none (loc / 64) (some ⟨false, 0, 0⟩) }
  match decodeWin loc with
  | some (.core c off) =>
    match vregLine off with
    | some p => s.modCore c fun k => { k with vbad := (p, ⟨false, 0, 0⟩) :: k.vbad.filter fun e => e.1 != p }
    | none => plain
  | _ => plain

/-- The number of the instruction that writes to its own local store in its issue slot; those of requests and commands are even. -/
def State.slotGrp (s : State) (c : Nat) : Nat := 2 * (8192 * s.now + c) + 1

/-- Send a write to the replicas of every line it touches, to each what falls into its line; it is performed once each has applied it
(21 R245). -/
def updateReplicas (rs : List Replica) (loc : Nat) (bytes : List Byte) (st : Option Stamp) (req : Nat) : List Replica :=
  rs.map fun r =>
    if (linesOf loc bytes.length).contains r.line then
      let lo := max loc (64 * r.line)
      { r with updates := r.updates ++ [(lo, (bytes.drop (lo - loc)).take (64 - lo % 64), st, req)] }
    else r

/-- Read bytes at a location of this package: memory, a register image, or a control-window register. -/
def State.readLoc (s : State) (loc n : Nat) : List Byte :=
  match s.placeOf loc with
  | some (.core c off) =>
    if off < 0x100000 then readMem s.mem loc n
    else if off < 0x600000 then (List.range n).map fun i => s.imgByte c (off + i)
    else match cregAt c off with | some r => bytesOf n (s.cwRead c r).toNat | none => bytesOf n 0
  | _ => readMem s.mem loc n

/-- A thread's wake flag is to be set: WAKE_WORD_WRITE is owed (07 R108). -/
def State.wakeFlag (s : State) (t : Nat) : State := { s with wakes := s.wakes ++ [t] }.owe s.now .wakeWordWrite (Arg.num t)

/-- A store to a thread's wake word also is a wake message: FAULT_WAKE is owed (27 R275). -/
def State.wakeWrite (s : State) (t : Nat) : State :=
  { s.wakeFlag t with fwakes := s.fwakes ++ [t] }.owe s.now .faultWake (Arg.num t)

/-- The cause with which a write to a control-window register is refused (17 R219). -/
def State.cwRefuse (s : State) (loc : Nat) (bytes : List Byte) (priv : Bool) : Option Cause :=
  match s.placeOf loc with
  | some (.core c off) =>
    if off < 0x600000 then none
    else match cregAt c off with | some r => s.cwCause c r (BitVec.ofNat 64 (leNat bytes)) priv | none => none
  | _ => none

/-- Write bytes at a location of this package. A control-window write is recorded and its own step is owed at once
(CONTROL_WINDOW_WRITE, WAKE_WORD_WRITE with FAULT_WAKE, SHOOTDOWN_REQUEST). `grp` numbers the instruction or command that writes. -/
def State.writeLoc (s : State) (loc : Nat) (bytes : List Byte) (priv : Bool) (asid : BitVec 12) (tid : Nat)
    (st : Option Stamp) (req grp : Nat) : State :=
  let toMem : State := { s with
    mem := writeMem s.mem loc bytes
    poison := coverPoison s.poison loc bytes.length grp
    replicas := updateReplicas s.replicas loc bytes st req }
  match s.placeOf loc with
  | some (.core c off) =>
    if off < 0x100000 then toMem
    else
    let s := s.coverWindow loc off c bytes.length grp
    if off < 0x600000 then ((List.range bytes.length).zip bytes).foldl (fun s p => s.putImgByte c (off + p.1) p.2) s
    else
      let v := BitVec.ofNat 64 (leNat bytes)
      let w : CwWrite := ⟨c, off, v, priv, asid, tid⟩
      match cregAt c off with
      | some (.wake t) => s.wakeWrite t
      | some .sdreq => { s with cwWrites := s.cwWrites ++ [w] }.owe s.now .shootdownRequest (Arg.num c)
      | _ => { s with cwWrites := s.cwWrites ++ [w] }.owe s.now .controlWindowWrite (Arg.num c)
  | _ => toMem

/-- Bytes that an engine writes at once: the line keeps no replica, so the write is performed (21 R240, R245). -/
def State.putBytes (s : State) (loc : Nat) (bytes : List Byte) (priv : Bool) (asid : BitVec 12) (tid : Nat)
    (st : Option Stamp) : State :=
  { s with replicas := s.replicas.filter fun r => !(linesOf loc bytes.length).contains r.line }.writeLoc loc bytes priv asid tid st 0 0

def RClass.bit : RClass → Nat | .o => 0 | .a => 1 | .v => 2

/-! ### What engines read (23 R252 to R254; log entry 19) -/

def takeBytes (l : List Byte) (o n : Nat) : List Byte := (l.drop o).take n

/-- The engine paths that a `Past` tells apart. -/
def pathM : Nat := 0
def pathC : Nat := 1
def pathF : Nat := 2

/-- The doublewords that n bytes at a location lie in. -/
def wordsAt (loc n : Nat) : List Nat := (List.range ((loc % 8 + n + 7) / 8)).map (loc / 8 + ·)

/-- The naturally aligned elements of up to 8 bytes in which an engine reads n bytes; `fuel` bounds their number. -/
def elements : Nat → Nat → Nat → List (Nat × Nat)
  | 0, _, _ => []
  | fuel + 1, loc, n =>
    if n = 0 then [] else
    let m := min n (8 - loc % 8)
    (loc, m) :: elements fuel (loc + m) (n - m)

/-- A thread's write to the local store of its core c is about to replace n bytes: engines may read them until a FENCE covers the
write. -/
def State.keepPast (s : State) (c loc n t : Nat) (k : RClass) : State :=
  s.modCore c fun x => { x with
    past := (wordsAt loc n).map (fun w => ⟨w, BitVec.ofNat 64 (leNat (readMem s.mem (8 * w) 8)), t, k, 7⟩) ++ x.past }

/-- Any other write to a local store leaves no older bytes to read: an engine's own path orders it, and a message is read as it
stands at its home. -/
def State.dropPast (s : State) (c loc n : Nat) : State :=
  if (s.core c).past.isEmpty then s
  else s.modCore c fun x => { x with past := x.past.filter fun e => !(wordsAt loc n).contains e.word }

/-- Of the doublewords a path can still read, newest first, those behind the first i are gone for it: it never goes back. -/
def agePast (path word : Nat) : Nat → List Past → List Past
  | _, [] => []
  | i, e :: r =>
    if e.word = word && e.left.getLsbD path then
      match i with
      | 0 => { e with left := e.left &&& ~~~((1 : BitVec 3) <<< path) } :: agePast path word 0 r
      | i + 1 => e :: agePast path word i r
    else e :: agePast path word i r

/-- An engine of core c reads an aligned element: the value that stands, or one that an unfenced write has replaced, whole. -/
def State.engineElem (s : State) (c path loc n : Nat) : List Byte × State :=
  match (s.core c).past.filter fun e => e.word == loc / 8 && e.left.getLsbD path with
  | [] => (s.readLoc loc n, s)
  | old =>
    let f := s.freeWord
    let i := f.1.toNat % (old.length + 1)
    (match old[i]? with
      | some e => takeBytes (bytesOf 8 e.val.toNat) (loc % 8) n
      | none => s.readLoc loc n,
     f.2.modCore c fun x => { x with past := (agePast path (loc / 8) ((i + 1) % (old.length + 1)) x.past).filter fun e => e.left != 0 })

/-- An engine of core c reads n bytes, element by element. -/
def State.engineRead (s : State) (c path loc n : Nat) : List Byte × State :=
  if (s.core c).past.isEmpty then (s.readLoc loc n, s)
  else (elements n loc n).foldl (fun (r : List Byte × State) e =>
    let x := r.2.engineElem c path e.1 e.2
    (r.1 ++ x.1, x.2)) ([], s)

/-- Writes that `done` names are ordered before the later accesses of some paths: what they and older writes replaced is gone for
these. -/
def orderPast (done : Past → Bool) (paths : BitVec 3) : List Nat → List Past → List Past
  | _, [] => []
  | ws, e :: r =>
    let ws := if done e then e.word :: ws else ws
    (if ws.contains e.word then { e with left := e.left &&& ~~~paths } else e) :: orderPast done paths ws r

/-- A thread's writes of some classes to its core's local store are ordered before the later accesses of some paths. -/
def State.settlePast (s : State) (t : Nat) (classes paths : BitVec 3) : State :=
  s.modCore (coreOf t) fun x => { x with
    past := (orderPast (fun e => e.tid == t && classes.getLsbD (RClass.bit e.cls)) paths [] x.past).filter fun e => e.left != 0 }

/-! ### Segments (11 R143; 17 R213) -/

/-- The rights an access needs. -/
structure Need where
  r : Bool
  w : Bool
  x : Bool
  a : Bool
  deriving DecidableEq, Repr

def needR : Need := ⟨true, false, false, false⟩
def needW : Need := ⟨false, true, false, false⟩
def needX : Need := ⟨false, false, true, false⟩
def needRWA : Need := ⟨true, true, false, true⟩
/-- The rights as a fault record shows them: R, W, X, AT (27 R274). -/
def Need.bits (n : Need) : BitVec 4 :=
  (if n.r then 1 else 0) + (if n.w then 2 else 0) + (if n.x then 4 else 0) + (if n.a then 8 else 0)

def segBase (g : BitVec 128) : Nat := g.toNat % 2 ^ 57
def segLimit (g : BitVec 128) : Nat := g.toNat / 2 ^ 64 % 2 ^ 61

/-- An image is valid (17 R213). -/
def segOk (g : BitVec 128) : Bool :=
  g.toNat / 2 ^ 61 % 8 == 0 && g.toNat / 2 ^ 125 == 0 &&
    (segLimit g == 0 || (decide (segBase g + segLimit g ≤ 2 ^ 57) &&
      segBase g / 2 ^ 56 == (segBase g + segLimit g - 1) / 2 ^ 56))

/-- Selector and offset of a segmented address. -/
def selOf (a : Word) : Nat := a.toNat / 2 ^ 61
def offOf (a : Word) : Nat := a.toNat % 2 ^ 61

/-- The segment checks, limit first (11 R143, R144). -/
def segCause (g : BitVec 128) (sel off z : Nat) (n : Need) : Option Cause :=
  let k : Cause := BitVec.ofNat 8 (0x10 + 4 * sel)
  if segLimit g < off + z then some k
  else if n.r && !g.getLsbD 57 then some (k + 1)
  else if n.w && !g.getLsbD 58 then some (k + 2)
  else if n.a && !g.getLsbD 60 then some (k + 2)
  else if n.x && !g.getLsbD 59 then some 0x13
  else none

/-- A segmented address with its offset moved by an integer, modulo 2^61 (11 R143, R156). -/
def moveOff (a : Word) (k : Int) : Word :=
  BitVec.ofNat 64 (selOf a * 2 ^ 61 + ((offOf a + k) % 2 ^ 61).toNat)

/-- The GVA of an offset under a segment. -/
def gvaOf (g : BitVec 128) (off : Nat) : Nat := (segBase g + off) % 2 ^ 57

/-! ### Paging (17 R225 to R229) -/

/-- What translation answers: the leaf with the page's first GVA and size, a cause, or a page not present. -/
inductive Walk where
  | leaf (base size : Nat) (e : Word)
  | bad (c : Cause)
  | absent
  deriving DecidableEq, Repr

/-- An entry's fields are good at level l (17 R228, cause 0x35). -/
def pteOk (r : AsidEntry) (l : Nat) (e : Word) : Bool :=
  let n := e.toNat
  let isLeaf := e.getLsbD 1
  let size := 2 ^ (16 + 11 * l)
  let pa := if isLeaf then n / 2 ^ 16 % 2 ^ 36 * 2 ^ 16 else n / 2 ^ 14 % 2 ^ 38 * 2 ^ 14
  let len := if isLeaf then size else 2 ^ 14
  n / 2 ^ 52 == 0 && n / 2 ^ 7 % 2 ^ 7 == 0 && (!isLeaf || n / 2 ^ 14 % 4 == 0) && (isLeaf || n / 2 ^ 6 % 2 == 0)
    && (!isLeaf || l != 3) && (isLeaf || l != 0) && (isLeaf || n / 4 % 16 == 0) && pa / 2 ^ 39 % 2 == 0
    && decide (r.base ≤ pa) && decide (pa + len ≤ r.base + r.size) && (!isLeaf || pa % size == 0)

/-- Walk from a node at level l − 1 down (17 R228). -/
def walkFrom (m : Memory) (r : AsidEntry) (gva : Nat) : Nat → Nat → Walk
  | 0, _ => .bad 0x35
  | l + 1, node =>
    let e := BitVec.ofNat 64 (leNat (readMem m (node + 8 * (gva / 2 ^ (16 + 11 * l) % 2 ^ 11)) 8))
    if !e.getLsbD 0 then .absent
    else if !pteOk r l e then .bad 0x35
    else if e.getLsbD 1 then .leaf (gva / 2 ^ (16 + 11 * l) * 2 ^ (16 + 11 * l)) (2 ^ (16 + 11 * l)) e
    else walkFrom m r gva l (e.toNat / 2 ^ 14 % 2 ^ 38 * 2 ^ 14)

/-- The rights of a leaf, P first, then R, W, X, AT (17 R228). -/
def leafCause (e : Word) (priv : Bool) (n : Need) : Option Cause :=
  if e.getLsbD 6 && !priv then some 0x34
  else if n.r && !e.getLsbD 2 then some 0x30
  else if n.w && !e.getLsbD 3 then some 0x31
  else if n.x && !e.getLsbD 4 then some 0x32
  else if n.a && !e.getLsbD 5 then some 0x33
  else none

/-- The cached leaves that cover a GVA. -/
def tlbHits (l : List TlbEnt) (asid : BitVec 12) (gva : Nat) : List TlbEnt :=
  l.filter fun t => t.asid == asid && decide (t.base ≤ gva) && decide (gva < t.base + t.size)

/-- What an access or its translation ends in. -/
inductive Xl where
  | ok (loc : Nat)
  | bad (c : Cause)
  | absent (gva : Nat)
  deriving DecidableEq, Repr

/-- A TLB takes a leaf; past its capacity it drops the one it took first (17 R229; DESIGN CHOICE, log entry 8). -/
def tlbFill (size : Nat) (l : List TlbEnt) (t : TlbEnt) : List TlbEnt := if l.contains t then l else (t :: l).take size

/-- Translate a paged GVA at a cluster port (17 R228). A leaf found is cached in the port's TLB of 128 entries and its die's of
6,144; where a cached leaf differs from the tables, either may be used (00 R4; 17 R229; log entry 8). -/
def State.pageXl (s : State) (cl : Nat) (asid : BitVec 12) (priv : Bool) (gva : Nat) (n : Need) : Xl × State :=
  let r := s.asids.get noAsid asid.toNat
  if !r.live then (.bad 0x37, s) else
  let d := cl / 64
  let w := walkFrom s.mem r gva 4 r.root
  let stale := (tlbHits (s.cluster cl).tlb asid gva ++ tlbHits (s.die d).tlb asid gva).filter
    fun t => decide (Walk.leaf t.base t.size t.e ≠ w)
  let use (w : Walk) (s : State) : Xl × State :=
    match w with
    | .bad c => (.bad c, s)
    | .absent => (.absent gva, s)
    | .leaf _ size e =>
      match leafCause e priv n with
      | some c => (.bad c, s)
      | none => (.ok (e.toNat / 2 ^ 16 % 2 ^ 36 * 2 ^ 16 + gva % size), s)
  let fill (s : State) : State :=
    match w with
    | .leaf base size e =>
      let t : TlbEnt := ⟨asid, base, size, e⟩
      (s.modCluster cl fun c => { c with tlb := tlbFill 128 c.tlb t }).modDie d fun x => { x with tlb := tlbFill 6144 x.tlb t }
    | _ => s
  match stale with
  | [] => use w (fill s)
  | _ =>
    let s' := { s with free := s.free + 1 }
    match Config.tlbChoice s.free with
    | 0 => use w (fill s')
    | k + 1 =>
      match stale[k]? with
      | some t => use (.leaf t.base t.size t.e) s'
      | none => use w (fill s')

/-- Where an access of a kind goes, its GVA formed: on-chip checks or translation (11 R144 steps 3 and 4). A full/empty
operation outside every local store is refused (11 R152); on a paged GVA it is refused before any translation, so before 0x37,
an absent page and the leaf's rights (DESIGN CHOICE, log entry 52: R145 and R228 leave the order open). An access that crosses the end
of a page, as one aligned by offset can under a BASE that is not a multiple of its size, is translated and checked by the page of its
first byte (DESIGN CHOICE, log entry 52: R144 does not say by which). -/
def State.locate (s : State) (cl : Nat) (asid : BitVec 12) (priv : Bool) (gva z : Nat) (k : AKind) (n : Need) :
    Xl × State :=
  if 2 ^ 56 ≤ gva then
    match s.winCause gva z k asid with
    | some c => (.bad c, s)
    | none => (.ok gva, s)
  else if k = .fe then (.bad 0x3A, s)
  else s.pageXl cl asid priv gva n

/-- Form and check an access under a segment image: segment, alignment, then place (11 R143, R144). -/
def State.accessSeg (s : State) (g : BitVec 128) (cl : Nat) (asid : BitVec 12) (priv : Bool) (a : Word) (z al : Nat)
    (k : AKind) (n : Need) : Xl × State :=
  match segCause g (selOf a) (offOf a) z n with
  | some c => (.bad c, s)
  | none =>
    if offOf a % al ≠ 0 then (.bad 0x38, s)
    else s.locate cl asid priv (gvaOf g (offOf a)) z k n

/-- An access of a thread (11 R143, R144). -/
def State.access (s : State) (t : Nat) (a : Word) (z al : Nat) (k : AKind) (n : Need) : Xl × State :=
  let th := s.thread t
  s.accessSeg (th.seg.get 0 (selOf a)) (clusterOf (coreOf t)) th.asid th.privileged a z al k n

/-- The location lies in the local store of core c. -/
def inLs (c loc : Nat) : Bool := decide (coreBase c ≤ loc) && decide (loc < coreBase c + 0x100000)

/-! ### What a home does (21 R238, R239) -/

/-- The new value of an atomic (11 R154), of z bytes; floating point rounds by RNE and sets no flag. -/
def amoNew (op : AmoOp) (z : Nat) (old x cmp : Nat) : Nat :=
  let w := 8 * z
  let f := if z = 4 then FP32 else FP64
  let so := (BitVec.ofNat w old).toInt
  let sx := (BitVec.ofNat w x).toInt
  match op with
  | .add => (old + x) % 2 ^ w
  | .and => old &&& x
  | .or => old ||| x
  | .xor => old ^^^ x
  | .swap => x
  | .min => if so ≤ sx then old else x
  | .max => if so ≤ sx then x else old
  | .minu => min old x
  | .maxu => max old x
  | .cas => if old = cmp then x else old
  | .fadd => (fAdd f .rne old x).1
  | .fmaxa =>
    let o := decodeF f old; let y := decodeF f x
    if o.isNaN || y.isNaN then f.canonNaN
    else (if 0 < cmpV y.abs o.abs then x else old) % 2 ^ (w - 1)

/-- A full/empty operation at its word: none when its condition does not hold, else the answer, the word written and the
new bit (11 R152). -/
def feStep (op : FeOp) (full : Bool) (word x : Word) : Option (Word × Option Word × Bool) :=
  match op with
  | .synld => if full then some (word, none, false) else none
  | .synst => if full then none else some (0, some x, true)
  | .feread => some (if full then 1 else 0, none, full)
  | .feset => some (0, none, x.getLsbD 0)

end Sys2Proof.Machine
end

