-- ==== Sys2Proof/Machine/Fabric.lean ====
section
/-!
DEFINITION. Requests in the fabric: latencies (29 R298), numbering, stamps, prefix vectors and gates (21 R241 to R244),
posted stores (11 R146), what a home and a core's service thread do with a request (21 R238, R239; 11 R153), replicas
(21 R245), receiver-not-ready (29 R286).
-/

namespace Sys2Proof.Machine

/-! ### Latency (29 R283, R298) -/

def routerOf (cl : Nat) : Nat × Nat := (cl % 64 / 8 / 2, cl % 8 / 2)
def moduleRouter (e : Nat) : Nat × Nat := (e % 4, 4)
def hops (a b : Nat × Nat) : Nat := if a = b then 0 else if a.1 = b.1 ∨ a.2 = b.2 then 1 else 2

/-- Two dies share an edge (00 R2). -/
def dieEdge (a b : Nat) : Bool :=
  if a < 8 ∧ b < 8 then
    (a / 4 == b / 4 && (a % 4 + 1 == b % 4 || b % 4 + 1 == a % 4)) || (a / 4 != b / 4 && a % 4 == b % 4)
  else (a == 8 && b % 4 == 0 && decide (b < 8)) || (b == 8 && a % 4 == 0 && decide (a < 8))
    || (a == 9 && b % 4 == 3 && decide (b < 8)) || (b == 9 && a % 4 == 3 && decide (a < 8))

/-- U, the UCIe crossing between two dies. -/
def ucie (a b : Nat) : Nat := if dieEdge a b then 20 else 32

def Place.router : Place → Nat × Nat
  | .core c _ => routerOf (clusterOf c)
  | .slice _ k => (k / 2, 4)
  | .hbm _ k => (k / 2, 4)
  | .far p => moduleRouter (Place.die (.far p))

/-- The fixed part of M(x); an HBM line is taken to miss its cache array. -/
def Place.base : Place → Nat
  | .core _ _ => 18 | .slice _ _ => 14 | .hbm _ _ => 110 | .far _ => 94

/-- M(x) from a cluster. -/
def trip (cl : Nat) (p : Place) : Nat :=
  let d := cl / 64
  if d = p.die then p.base + 12 * hops (routerOf cl) p.router
  else p.base + 12 * (hops (routerOf cl) (moduleRouter p.die) + hops (moduleRouter d) p.router) + 2 * ucie d p.die

/-- M(x) from a fabric die. -/
def fabricTrip (f : Nat) (p : Place) : Nat := p.base + 12 * hops (moduleRouter f) p.router + 2 * ucie f p.die

def Req.isRead (r : Req) : Bool := match r.op with | .read _ => true | _ => false
def Req.isWrite (r : Req) : Bool := match r.op with | .write _ | .post _ _ | .wake _ => true | _ => false
/-- The bytes a request touches, and the lines they lie in. -/
def Req.len (r : Req) : Nat := match r.op with | .read z | .amo _ z _ _ => z | .write b => b.length | _ => 8
def Req.lines (r : Req) : List Nat := linesOf r.loc r.len
def Req.meets (a b : Req) : Bool := a.lines.any b.lines.contains

/-- The thread that waits for a request's answer. -/
def Req.tid? (r : Req) : Option Nat := match r.src with | .thread t _ => some t | _ => none
/-- The thread for which a request is made, by itself, its copy or its Prism; and the core that makes it. -/
def Req.owner? (r : Req) : Option Nat :=
  match r.src with | .thread t _ | .copy t _ _ _ | .prism _ t _ => some t | .gateway .. | .device => none
def Req.core? (r : Req) : Option Nat :=
  match r.src with | .thread t _ | .copy t _ _ _ => some (coreOf t) | _ => none

/-- A thread's plain load from a peer core of its cluster, which the banks serve over the core links (01 R16; 11 R145; 21 R238). -/
def Req.peerRead (r : Req) (k off : Nat) : Bool :=
  r.isRead && r.tid?.isSome && clusterOf k == r.cluster && r.core? != some k && decide (off < 0x100000)

/-- The cycles a request and its answer take on the way: together with the service slot they make M(x) (29 R298). The agents of
fabric die 8 + g count as cluster 512 + g. -/
def Req.legs (r : Req) (p : Place) : Nat × Nat :=
  let split (m : Nat) : Nat × Nat := (m / 2, m - m / 2 - 1)
  if 512 ≤ r.cluster then split (fabricTrip (r.cluster - 504) p)
  else match p with
    | .core k off =>
      if r.core? = some k then (0, 2)
      else if clusterOf k = r.cluster then (if r.peerRead k off then (8, 7) else (2, 5))
      else split (trip r.cluster p)
    | _ => split (trip r.cluster p)

def State.legs (s : State) (r : Req) : Nat × Nat :=
  match s.placeOf r.loc with | some p => r.legs p | none => (1, 1)

/-! ### The list of requests -/

namespace State

def req? (s : State) (id : Nat) : Option Req := s.net.find? fun r => r.id == id
def modReq (s : State) (id : Nat) (f : Req → Req) : State :=
  { s with net := s.net.map fun r => if r.id = id then f r else r }
def dropReq (s : State) (id : Nat) : State := { s with net := s.net.filter fun r => r.id != id }

/-- The requests of a thread, which are its path-T accesses not yet performed (21 R240; 23 R252). -/
def reqsOf (s : State) (t : Nat) : List Req := s.net.filter fun r => r.tid? == some t
/-- Its posted stores in flight. -/
def storesOf (s : State) (t : Nat) : List Req := (s.reqsOf t).filter Req.isWrite
/-- How many store instructions a thread has in flight (11 R146). -/
def inFlight (s : State) (t : Nat) : Nat := (((s.storesOf t).map Req.grp).eraseDups).length
/-- A store of the thread is in flight to a line in which n bytes at a location lie (11 R146). -/
def lineBusy (s : State) (t loc n : Nat) : Bool := (s.storesOf t).any fun r => r.lines.any (linesOf loc n).contains
/-- Every earlier path-T access of the thread is performed. -/
def pathTDone (s : State) (t : Nat) : Bool := (s.reqsOf t).isEmpty

end State

/-- The die of a cluster; 512 + g stands for the agents of fabric die 8 + g. -/
def clusterDie (cl : Nat) : Nat := if cl < 512 then cl / 64 else cl - 504

/-- A request of an agent of a cluster, not yet sent (11 R145; 01 R16: it carries the ASID and rights). -/
def State.newReq (s : State) (src : RSrc) (cl : Nat) (k : RClass) (op : ROp) (a : Word) (gva loc : Nat) (asid : BitVec 12)
    (priv : Bool) : Req :=
  { id := s.nextId, src := src, grp := s.nextId, cls := k, op := op, loc := loc, seg := a, gva := gva
    asid := asid, priv := priv, die := clusterDie cl, cluster := cl
    inCluster := match s.placeOf loc with | some (.core x _) => clusterOf x == cl | _ => false
    num := none, stamp := none, got := none, phase := .fresh, tries := 0, once := false }

/-- A request of a thread. -/
def State.request (s : State) (t elem grp : Nat) (k : RClass) (op : ROp) (a : Word) (loc : Nat) (once : Bool) : Req :=
  let th := s.thread t
  { s.newReq (.thread t elem) (clusterOf (coreOf t)) k op a (gvaOf (th.seg.get 0 (selOf a)) (offOf a)) loc th.asid
      th.privileged with grp := grp, once := once }

/-! ### Numbers, prefixes, beacons and gates (21 R242, R243) -/

/-- Class O writes that leave a cluster are numbered; FEREAD is a load (21 R242, R246). -/
def Req.numbered (r : Req) : Bool :=
  r.cls == .o && !r.inCluster &&
    match r.op with | .read _ => false | .fe .feread _ _ => false | _ => true

def stMax (a b : Stamp) : Stamp := List.zipWith max a b

/-- The next number of a die and the stamp that carries it. -/
def State.takeNumber (s : State) (d : Nat) : Nat × Stamp × State :=
  let n := (s.die d).k.getD d 0 + 1
  let k := (s.die d).k.set d n
  (n, k, s.modDie d fun x => { x with k := k, undone := x.undone ++ [n] })

/-- Number and stamp a request where it is due one. -/
def State.number (s : State) (r : Req) : Req × State :=
  if r.numbered then
    let x := s.takeNumber r.die
    ({ r with num := some x.1, stamp := some x.2.1 }, x.2.2)
  else (r, s)

/-- The stamps of some lines as one: counter by counter the greatest. -/
def joinStamps (l : List (Option Stamp)) : Option Stamp :=
  l.foldl (fun a b => match a, b with | some a, some b => some (stMax a b) | none, b => b | a, none => a) none

/-- The stamp of the lines in which n bytes at a location lie. -/
def State.stampOf (s : State) (loc n : Nat) : Option Stamp := joinStamps ((linesOf loc n).map (s.stamps.get none ·))

/-- Merge a stamp into a die's clock (21 R244). -/
def State.mergeStamp (s : State) (d : Nat) (v : Option Stamp) : State :=
  match v with
  | none => s
  | some v => s.modDie d fun x => { x with k := stMax x.k v }

/-- The prefix vector of die h covers a stamp from die d. -/
def State.covers (s : State) (h d : Nat) (v : Stamp) : Bool :=
  (List.range 10).all fun j => decide ((if j = d then v.getD j 0 - 1 else v.getD j 0) ≤ (s.die h).p.getD j 0)

def Req.open? (s : State) (h : Nat) (r : Req) : Bool :=
  match r.stamp with | none => true | some v => s.covers h r.die v

/-- The gate of die h lets through what its prefix now covers. -/
def State.openGates (s : State) (h : Nat) : State :=
  s.net.foldl (fun s r =>
    if r.phase = .gated ∧ (s.placeOf r.loc).map Place.die = some h ∧ r.open? s h then
      s.owe s.now .gateApply (Arg.num r.id) else s) s

/-- Links are numbered source·10 + destination. -/
def linkNo (a b : Nat) : Nat := a * 10 + b

/-- A die's own prefix moves to the last number before its first write not yet performed; the change is sent to every
other die within 32 cycles. -/
def State.advancePrefix (s : State) (d : Nat) : State :=
  let x := s.die d
  let n := match x.undone with | [] => x.k.getD d 0 | m :: _ => m - 1
  if x.p.getD d 0 = n then s
  else
    let s := s.modDie d fun x => { x with p := x.p.set d n }
    let s := (List.range 10).foldl (fun s e =>
      if e = d ∨ s.pending.any (fun v => v.ev.what == .beaconTimer && v.ev.arg.n == d && v.ev.arg.k == e) then s
      else s.owe (s.now + 1) .beaconTimer (Arg.num2 d e)) s
    s.openGates d

/-- A numbered write of a die is performed, set aside or ended. -/
def State.numberDone (s : State) (d : Nat) (n : Option Nat) : State :=
  match n with
  | none => s
  | some n => (s.modDie d fun x => { x with undone := x.undone.filter (· != n) }).advancePrefix d

/-! ### Sending (11 R146; 21 R241, R243) -/

/-- The die of a location's home. -/
def State.homeDie (s : State) (loc : Nat) : Option Nat := (s.placeOf loc).map Place.die

/-- A numbered write holds space in the gate of its home's die until the credit comes back with its answer. A refused one keeps it, to
come again, and one that is set aside gives it back at once (DESIGN CHOICE, log entry 12: 21 R243 does not say how credits travel). -/
def Req.towards (r : Req) : Bool :=
  r.num.isSome && match r.phase with | .sent | .gated | .refused | .queued | .answered _ => true | _ => false

/-- It waits at its source. -/
def Req.waitsHome (r : Req) : Bool := r.num.isSome && match r.phase with | .held | .nocredit => true | _ => false

/-- The source die of a numbered write holds credit for the gate of its home's die (21 R243). The credits go to the writes of one
die in the order of their numbers, so that none takes the space for which one it waits for would have to wait. -/
def State.hasCredit (s : State) (r : Req) : Bool :=
  match s.homeDie r.loc with
  | none => true
  | some h =>
    let others := s.net.filter fun x => x.id != r.id && x.die == r.die && s.homeDie x.loc == some h
    r.num.isNone || (decide ((others.filter Req.towards).length ≤ Config.gateSpace h r.die)
      && !others.any fun x => x.waitsHome && decide (x.num.getD 0 < r.num.getD 0))

/-- The mask of the counters that differ. -/
def stampMask : Stamp → Stamp → Nat
  | a :: r, b :: q => (if a = b then 0 else 1) + 2 * stampMask r q
  | _, _ => 0

/-- Encode a stamp against the last one sent; a delta that 32 bits do not hold makes it full. -/
def stampEncode (last v : Stamp) : StampMsg :=
  if (last.zip v).any fun e => decide (e.2 < e.1) || decide (2 ^ 32 ≤ e.2 - e.1) then ⟨true, 0, v⟩
  else ⟨false, stampMask last v, ((last.zip v).filter fun e => e.1 != e.2).map fun e => e.2 - e.1⟩

/-- Add deltas to the counters that a mask names. -/
def stampAdd : Stamp → Nat → List Nat → Stamp
  | [], _, _ => []
  | a :: r, m, ds => if m % 2 = 1 then (a + ds.headD 0) :: stampAdd r (m / 2) ds.tail else a :: stampAdd r (m / 2) ds

/-- Decode a stamp against the last one received. -/
def StampMsg.decode (m : StampMsg) (last : Stamp) : Stamp := if m.full then m.words else stampAdd last m.mask m.words

/-! ### Flits (29 R282, R288) -/

/-- Traffic groups: requests of an ASID, replies and acknowledgements, and the rest. -/
def requestGroup (asid : BitVec 12) : Nat := Config.assigned asid.toNat % 14
def replyGroup : Nat := 14
def managementGroup : Nat := 15

/-- A flit leaves by the module between two dies with the sender's prefix as its beacon (21 R243), and stays in the sender's replay
buffer until it is delivered. A stamp in it is encoded against the last one sent. -/
def State.flitOut (s : State) (src dst group : Nat) (msg : Option Due) (stamp : Option (Nat × Stamp)) : State :=
  let l := linkNo src dst
  let n := (s.die src).p.getD src 0
  let at' := s.now + ucie src dst
  let f : Flit := ⟨dst, src, group, some n, msg, stamp.map fun v => (v.1, stampEncode (s.link l).lastOut v.2), at'⟩
  (s.modLink l fun x => { x with
    beacon := n, flying := x.flying ++ [f], replay := x.replay ++ [f]
    lastOut := match stamp with | some v => v.2 | none => x.lastOut }).owe at'
    (if msg.isSome then .flitReceive else .beaconReceive) (Arg.num2 src dst)

/-- A message from die to die: what it makes happen is owed some cycles from now, of which the crossing takes its part once the flit
has arrived. Within a die it is owed at once. -/
def State.carry (s : State) (src dst group cycles : Nat) (i : Instr) (a : Arg) (stamp : Option (Nat × Stamp)) : State :=
  if src = dst then s.owe (s.now + cycles) i a
  else s.flitOut src dst group (some ⟨cycles - ucie src dst, ⟨i, a⟩⟩) stamp

/-- A request goes on its way. -/
def State.launch (s : State) (r : Req) : State :=
  let rest := s.net.filter fun (x : Req) => x.id != r.id
  { s with net := rest ++ [{ r with phase := .sent }] }.carry r.die ((s.homeDie r.loc).getD r.die) (requestGroup r.asid) (s.legs r).1
    .homeApply (Arg.num r.id) (r.stamp.map fun v => (r.id, v))

/-- A request is sent; without credit for the gate it waits at its source. -/
def State.send (s : State) (r : Req) : State :=
  if s.hasCredit r then s.launch r
  else { s with net := (s.net.filter fun (x : Req) => x.id != r.id) ++ [{ r with phase := .nocredit }] }

/-- Credits go to the writes that wait for them in the order of their numbers (21 R243). -/
def State.grantCredits (s : State) : State :=
  ((s.net.filter fun r => r.phase == .nocredit).mergeSort fun a b => decide (a.num.getD 0 ≤ b.num.getD 0)).foldl
    (fun s r => if s.hasCredit r then s.send r else s) s

/-- A load, atomic or full/empty operation leaves its thread at once. -/
def State.inject (s : State) (r : Req) : State :=
  let x := { s with nextId := s.nextId + 1 }.number r
  x.2.send x.1

/-- A posted store waits for acceptance. -/
def State.post (s : State) (r : Req) : State :=
  { s with net := s.net ++ [r], nextId := s.nextId + 1 }.owe s.now .postedStoreAcceptance (Arg.num r.id)

/-- Stores of one thread are compared without regard to the element they carry. -/
def Req.sameThread (a b : Req) : Bool := a.tid?.isSome && a.tid? == b.tid?

/-- An earlier store of a store's thread and class to one of its lines is accepted and unacknowledged. -/
def State.lineHeld (s : State) (r : Req) : Bool :=
  s.net.any fun x => x.isWrite && x.sameThread r && x.cls == r.cls && x.meets r && decide (x.id < r.id) && x.phase != .fresh

/-- The core links or the cluster port accept a store: it is numbered, and sent unless an earlier one of its lines, thread
and class is unacknowledged. -/
def State.acceptStore (s : State) (r : Req) : State :=
  let x := s.number r
  if !r.inCluster && x.2.lineHeld x.1 then
    { x.2 with net := (x.2.net.filter fun (x : Req) => x.id != r.id) ++ [{ x.1 with phase := .held }] }
  else x.2.send x.1

/-- After an acknowledgement the held stores of its lines for which no earlier one is left are sent. -/
def State.releaseHeld (s : State) (r : Req) : State :=
  (s.net.filter fun x => x.phase == .held && x.sameThread r && x.cls == r.cls && x.meets r).foldl
    (fun s x => if s.lineHeld x then s else s.send x) s

/-- Bytes by line; the first argument bounds the number of lines. -/
def byLines : Nat → Nat → List Byte → List (Nat × List Byte)
  | 0, _, _ => []
  | f + 1, loc, b =>
    if b.isEmpty then [] else (loc, b.take (64 - loc % 64)) :: byLines f (loc + (64 - loc % 64)) (b.drop (64 - loc % 64))

/-! ### Poison (17 R222) -/

/-- The component of an ASID. -/
def State.compOfAsid (s : State) (a : BitVec 12) : Option Nat :=
  (List.range 64).find? fun i => (s.comp i).valid && (s.comp i).asid == a

/-- The first access to a poisoned shared line ends the accessing component, and no other. -/
def State.touchPoison (s : State) (loc : Nat) (a : BitVec 12) : State :=
  match s.poisonAt loc, s.compOfAsid a with
  | some p, some c =>
    if p.met ∨ s.tagAt loc ≠ 0 then s
    else { s with
      poison := s.poison.set none (loc / 64) (some { p with met := true })
      damaged := s.damaged ++ [(c, loc / 64)] }.owe s.now .componentEnd (Arg.num2 0 c)
  | _, _ => s

/-- An access touches every line its bytes lie in. -/
def State.touchLines (s : State) (loc n : Nat) (a : BitVec 12) : State :=
  (linesOf loc n).foldl (fun s l => s.touchPoison (64 * l) a) s

/-! ### At the home -/

/-- What a home sends back to the source of a request. -/
def State.sendBack (s : State) (r : Req) (wait : Nat) (i : Instr) : State :=
  s.carry ((s.homeDie r.loc).getD r.die) r.die replyGroup ((s.legs r).2 + wait) i (Arg.num r.id) none

/-- A home answers: the answer to a store is its acknowledgement. -/
def State.answer (s : State) (r : Req) (a : Answer) (got : Option Stamp) : State :=
  (s.modReq r.id fun x => { x with phase := .answered a, got := got }).sendBack r 0
    (if r.isWrite then .storeAcknowledge else .remoteReply)

/-- Every line a class O write touches keeps the stamp of the last one applied to it (21 R244). -/
def State.stampLine (s : State) (r : Req) : State :=
  match r.stamp with
  | none => s
  | some v => { s with stamps := r.lines.foldl (fun m l => m.set none l (some v)) s.stamps }

/-- The replicas of every line that a write of n bytes touches are sent the write (21 R245). -/
def State.oweReplicas (s : State) (loc n : Nat) : State :=
  s.replicas.foldl (fun s x =>
    if (linesOf loc n).contains x.line then
      match s.placeOf loc with
      | some p => s.carry p.die x.die replyGroup (ucie p.die x.die) .replicaUpdate (Arg.num2 x.die x.line) none
      | none => s
    else s) s

/-- A write is applied at its home. What a thread of the home's own core writes, engines of the core may not see yet (23 R253). -/
def State.applyWrite (s : State) (r : Req) (bytes : List Byte) : State :=
  let s := match s.placeOf r.loc, r.src with
    | some (.core c off), .thread t _ =>
      if 0x100000 ≤ off then s
      else if coreOf t = c then s.keepPast c r.loc bytes.length t r.cls else s.dropPast c r.loc bytes.length
    | some (.core c off), _ => if off < 0x100000 then s.dropPast c r.loc bytes.length else s
    | _, _ => s
  ((s.writeLoc r.loc bytes r.priv r.asid (r.owner?.getD 131072) r.stamp r.id (2 * r.grp)).stampLine r).oweReplicas r.loc bytes.length

/-- The replica of a line on a die. -/
def State.replica? (s : State) (d line : Nat) : Option Replica := s.replicas.find? fun x => x.die == d && x.line == line

/-! ### Counters that JOINs wait for (13 R198) -/

/-- The request is applied, and its answer is on its way. -/
def Phase.over : Phase → Bool | .answered _ => true | _ => false

/-- The counter of a JOIN whose last read has been performed; it was not zero. -/
def State.joinLoc (s : State) (t : Nat) : Option Nat :=
  match (s.thread t).wait with
  | some ⟨.join _ _ loc _, why, _, reqs, _, _⟩ =>
    if why = .counter ∨ (why = .replies ∧ reqs.all fun id => match s.req? id with | some r => r.phase.over | none => false) then
      some loc
    else none
  | _ => none

/-- A thread waits in a JOIN. -/
def State.inJoin (s : State) (t : Nat) : Bool := match (s.thread t).wait with | some ⟨.join .., _, _, _, _, _⟩ => true | _ => false

/-- The next read of a JOIN's counter is owed, unless one is owed already; an event names the JOIN by its thread and issue cycle. -/
def State.joinTimer (s : State) (t due : Nat) : State :=
  let n := (s.thread t).issuedAt
  if !s.inJoin t || s.pending.any fun d => d.ev.what == .joinPoll && !d.ev.arg.yes && d.ev.arg.n == t && d.ev.arg.k == n then s
  else s.owe due .joinPoll (Arg.num2 t n)

/-- The home of a counter reads it for a JOIN again; a zero, or the cause of a poisoned line, is sent to the thread. -/
def State.joinRead (s : State) (t loc : Nat) : State :=
  let th := s.thread t
  let c := coreOf t
  let q := s.newReq (.thread t 0) (clusterOf c) .v (.read 8) 0 0 loc th.asid th.privileged
  let s := s.touchLines loc 8 th.asid
  let bad := s.poisonedIn loc 8
  if !bad && leNat (s.readLoc loc 8) != 0 then s
  else
    let v : JoinReply := ⟨t, th.issuedAt, if bad then some 0x91 else none, s.stampOf loc 8⟩
    { s with joins := s.joins ++ [v] }.carry
      ((s.homeDie loc).getD (dieOf c)) (dieOf c) replyGroup (if inLs c loc then 0 else (s.legs q).2) .joinPoll
      { Arg.num2 t th.issuedAt with yes := true } none

/-- A decrement is performed at a word: the counter is read again for every JOIN that waits for it. -/
def State.oweJoins (s : State) (loc : Nat) : State :=
  s.threads.entries.foldl (fun s e => if s.joinLoc e.1 = some loc then s.joinRead e.1 loc else s) s

/-- The home has performed a read for a thread: if the thread is in a JOIN, the counter is read again within 1,024 cycles. -/
def State.joinWatch (s : State) (r : Req) : State :=
  match r.src with | .thread t _ => s.joinTimer t (s.now + 1024) | _ => s

/-- A die gives up its replicas of the lines in which n bytes lie. A load that the home answers makes it do so, so that no later load
of the die goes back to an older value (19 R231; 21 R250; DEDUCED, log entry 9). -/
def State.dropReplica (s : State) (d loc n : Nat) : State :=
  { s with replicas := s.replicas.filter fun x => !(x.die == d && (linesOf loc n).contains x.line) }

/-- What a read finds at its home; a Prism's, what path F may find there (23 R253). -/
def State.readHome (s : State) (r : Req) (z : Nat) : List Byte × State :=
  match r.src, s.placeOf r.loc with
  | .prism .., some (.core c off) => if off < 0x100000 then s.engineRead c pathF r.loc z else (s.readLoc r.loc z, s)
  | _, _ => (s.readLoc r.loc z, s)

/-- A home, or for a load a die that has a replica of every line it reads, serves a request other than a full/empty operation
(21 R239, R245; 11 R154). -/
def State.serve (s : State) (r : Req) (atReplica : Bool) : State :=
  let s := s.touchLines r.loc r.len r.asid
  let got := s.stampOf r.loc r.len
  match r.op with
  | .read z =>
    match (if atReplica then r.lines.mapM (s.replica? r.die) else none) with
    | some xs =>
      (s.answer r (.bytes (takeBytes (xs.flatMap (·.bytes)) (r.loc % 64) z)) (joinStamps (xs.map (·.stamp)))).joinWatch r
    | none =>
      if s.poisonedIn r.loc z then s.answer r (.cause 0x91) none
      else
        let x := s.readHome r z
        ((x.2.dropReplica r.die r.loc z).answer r (.bytes x.1) got).joinWatch r
  | .write bytes =>
    match s.cwRefuse r.loc bytes r.priv with
    | some c => s.answer r (.cause c) none
    | none => (s.applyWrite r bytes).answer r (.bytes []) none
  | .amo op z x cmp =>
    if s.poisonedIn r.loc z then s.answer r (.cause 0x91) none
    else
      let old := leNat (s.readLoc r.loc z)
      let s := s.applyWrite r (bytesOf z (amoNew op z old (x.toNat % 2 ^ (8 * z)) (cmp.toNat % 2 ^ (8 * z))))
      (if op = .add ∧ x.toInt = -1 then s.oweJoins r.loc else s).answer r (.bytes (bytesOf z old)) got
  | .post b n =>
    match s.placeOf r.loc with
    | some (.core c _) => (s.cbPost c b n).answer r (.bytes []) none
    | _ => s
  | .wake t => (s.wakeFlag t).answer r (.bytes []) none
  | .fe _ _ _ => s

/-! ### Full/empty operations at a service thread (11 R152, R153) -/

/-- An operation is set aside at the word. -/
def Req.asideAt (r : Req) (word : Nat) : Bool :=
  r.loc / 8 == word && match r.phase with | .aside _ _ => true | _ => false

/-- Set-aside operations of a core. -/
def State.asideOf (s : State) (c : Nat) : List Req :=
  s.net.filter fun r => inLs c r.loc && match r.phase with | .aside _ _ => true | _ => false

/-- Queue an examination pass for a word whose bit changed (11 R153). -/
def State.queuePass (s : State) (c word : Nat) : State := s.modCore c fun x => { x with svc := x.svc ++ [.pass word] }

/-- Try a full/empty operation at its word. Under a BASE that is not a multiple of 8 it spans two words that each carry a bit; the bit of
the lower one, that of its first byte, counts (DESIGN CHOICE, log entry 52: 11 R152 does not say which). -/
def State.tryFe (s : State) (c : Nat) (r : Req) : Option State :=
  match r.op with
  | .fe op x _ =>
    let full := s.fe.get false (r.loc / 8)
    let word := BitVec.ofNat 64 (leNat (readMem s.mem r.loc 8))
    match feStep op full word x with
    | none => none
    | some (ans, wr, bit) =>
      let got := s.stampOf r.loc 8
      let s := { s with fe := s.fe.set false (r.loc / 8) bit }
      let s := match wr with | some v => s.applyWrite r (bytesOf 8 v.toNat) | none => s.stampLine r
      let s := s.answer r (.bytes (bytesOf 8 ans.toNat))
        (match op with | .synld => got | .feread => got | _ => none)
      some (if bit = full then s else s.queuePass c (r.loc / 8))
  | _ => none

/-- A refused request: once only where it is not retried, else after the back-off (29 R286). -/
def State.refuse (s : State) (r : Req) : State :=
  if r.once then s.answer r (.cause 0x90) none
  else
    let lim := match r.owner? with | some t => (s.regAt (coreOf t) kRNRCTL).toNat % 256 | none => 0
    let n := r.tries + 1
    (s.modReq r.id fun x => { x with phase := .refused, tries := n }).sendBack r
      (if n ≤ lim then min (64 * 2 ^ (n - 1)) (2 ^ 20) else 0) .rnrRetry

/-- A full/empty operation in its slot: it completes, is set aside, or finds the table of 32 full. -/
def State.feArrive (s : State) (c : Nat) (r : Req) : State :=
  let s := s.touchLines r.loc 8 r.asid
  if s.poisonedIn r.loc 8 then s.answer r (.cause 0x91) none
  else match s.tryFe c r with
  | some s => s
  | none =>
    if 32 ≤ (s.asideOf c).length then s.refuse r
    else ((s.modReq r.id fun x => { x with phase := .aside 0 s.now }).numberDone r.die r.num).owe (s.now + 1024)
      .fePeriodicExamination (Arg.num2 c r.id)

/-- A failed examination counts, and past the limit the entry is answered "limit", 0x86. -/
def State.feFail (s : State) (r : Req) : State :=
  match r.op, r.phase with
  | .fe _ _ lim, .aside n at' =>
    if lim < n + 1 then s.answer r (.cause 0x86) none
    else s.modReq r.id fun x => { x with phase := .aside (n + 1) at' }
  | _, _ => s

/-- Examine entries in arrival order until one completes. -/
def State.examine (s : State) (c : Nat) : List Req → State
  | [] => s
  | r :: rest =>
    match s.tryFe c r with
    | some s => s
    | none => (s.feFail r).examine c rest

/-- Arrival order of set-aside entries. -/
def Req.arrived (r : Req) : Nat := match r.phase with | .aside _ a => a | _ => 0
def byArrival (l : List Req) : List Req := l.mergeSort fun a b => decide (a.arrived ≤ b.arrived)

/-- One slot of a core's service thread: a message, or an examination pass. -/
def State.serviceSlot (s : State) (c : Nat) (w : Svc) : State :=
  let s := s.modCore c fun x => { x with svc := x.svc.tail }
  match w with
  | .msg id =>
    match s.req? id with
    | some r => match r.op with | .fe _ _ _ => s.feArrive c r | _ => s.serve r false
    | none => s
  | .pass word => s.examine c (byArrival (s.net.filter fun r => r.asideAt word))
  | .exam id =>
    match s.req? id with
    | some r => if r.asideAt (r.loc / 8) then s.examine c [r] else s
    | none => s

/-! ### Arrival at a home -/

/-- The component of a core is suspended (27 R279). -/
def State.isSuspended (s : State) (c : Nat) : Bool :=
  match (s.core c).comp with | some k => s.suspended.any (fun v => v.comp == k) | none => false

/-- A request of a component's own threads, which suspension leaves to be answered (27 R279). -/
def State.ofComp (s : State) (r : Req) (k : Option Nat) : Bool :=
  match r.owner? with | some t => (s.core (coreOf t)).comp == k | none => false

/-- A number for the home of a place. -/
def Place.home : Place → Nat
  | .core c _ => c
  | .slice d k => 10000 + d * 8 + k
  | .hbm d k => 10000 + d * 8 + k
  | .far p => 20000 + p

/-- An element of the same instruction, before this one and at bytes it shares, is not applied yet (11 R155; 19 R231). -/
def State.elemAhead (s : State) (r : Req) : Bool :=
  s.net.any fun x => x.grp == r.grp && x.sameThread r && decide (x.id < r.id) && decide (x.loc < r.loc + r.len)
    && decide (r.loc < x.loc + x.len) && !x.phase.over

/-- Class O requests of one cluster port reach a home in injection order, and the core links keep the order of each pair
of cores (21 R241, R246). Elements of one instruction at one location take effect in ascending order (11 R155). -/
def State.arrivesNext (s : State) (r : Req) : Bool :=
  let home (x : Req) : Option Nat := (s.placeOf x.loc).map Place.home
  !s.elemAhead r && match s.net.find? (fun x => x.phase == .sent && home x == home r && x.inCluster == r.inCluster &&
      (if r.inCluster then x.core? == r.core? else x.cluster == r.cluster && x.cls == .o)) with
  | none => true
  | some x => x.id == r.id || (!r.inCluster && r.cls != .o)

def isWakeWord (c off : Nat) : Bool := match cregAt c off with | some (.wake _) => true | _ => false

/-- A copy's write to a register image, which takes effect in the cycle its data land (09 R120; 23 R255). -/
def Req.lands (r : Req) (off : Nat) : Bool :=
  (match r.src, r.op with | .copy .., .write _ => true | _, _ => false) && decide (0x100000 ≤ off) && decide (off < 0x600000)

/-- A request that has passed the gate is applied: at a slice at once, at a core by its banks for a peer's plain load, in its register
files for a copy's write to an image, and by its service thread otherwise. -/
def State.applyHome (s : State) (r : Req) (p : Place) (atReplica : Bool) : State :=
  match p with
  | .core c off =>
    if s.isSuspended c && !s.ofComp r (s.core c).comp && !(r.isWrite && isWakeWord c off) then s.refuse r
    else if r.peerRead c off || r.lands off then s.serve r false
    else (s.modReq r.id fun x => { x with phase := .queued }).modCore c fun x => { x with svc := x.svc ++ [.msg r.id] }
  | _ => s.serve r atReplica

/-- Writes of a request still on their way to replicas. -/
def State.replicasDue (s : State) (id : Nat) : Bool := s.replicas.any fun x => x.updates.any fun u => u.2.2.2 == id

end Sys2Proof.Machine
end

