-- ==== Sys2Proof/Machine/Fetch.lean ====
section
/-!
DEFINITION. Instruction fetch (05 R44; 19 R233; 27 R278), page faults (11 R147; 27 R274, R275), and the choice of the
next issue slot (15 R209 to R211).
-/

namespace Sys2Proof.Machine

/-! ### Page faults (27 R275) -/

/-- The GVA of a thread's wake word (17 R217). -/
def wakeGva (t : Nat) : Nat := coreBase (coreOf t) + 0x600000 + 0x1000 * laneOf t + 0x350

/-- The fault service of a component. -/
def State.faultService (s : State) (c : Nat) : FaultService := s.faultsvcs.get noFaultService c

/-- A ring's counts: HEAD at offset 0, TAIL at offset 8 (15 R206). -/
def State.ringHead (s : State) (ring : Nat) : Nat := leNat (readMem s.mem ring 8)
def State.ringTail (s : State) (ring : Nat) : Nat := leNat (readMem s.mem (ring + 8) 8)

/-- The ring is full: HEAD − TAIL = SLOTS, as 64-bit counts (15 R206). -/
def State.ringFull (s : State) (ring slots : Nat) : Bool :=
  decide ((s.ringHead ring + 2 ^ 64 - s.ringTail ring) % 2 ^ 64 = slots)

/-- An access to a ring's header, for an ASID, meets its poison (17 R222). -/
def State.touchRing (s : State) (ring : Nat) (asid : BitVec 12) : State := s.touchLines ring 16 asid

/-- An agent of a cluster or of a fabric die writes a message into slot HEAD, advances HEAD, and sends a write of the wake word
(15 R206, 27 R275), which a service thread applies in its slot (01 R16). The device's own write is no wake message for the faults of
the thread it wakes. -/
def State.ringPut (s : State) (cl : Nat) (asid : BitVec 12) (ring slots wake : Nat) (msg : List Byte) : State :=
  let h := s.ringHead ring
  let s := (s.touchRing ring asid).touchLines (ring + 64 + 64 * (h % slots)) 64 asid
  let s := s.putBytes (ring + 64 + 64 * (h % slots)) msg true 0 131072 none
  let s := s.putBytes ring (bytesOf 8 (h + 1)) true 0 131072 none
  s.inject (s.newReq .device cl .v (.wake wake) 0 (wakeGva wake) (wakeGva wake) asid true)

/-- The record of a page fault (27 R274). -/
def PFault.record (f : PFault) : List Byte :=
  bytesOf 8 (f.gva + 2 ^ 57 * f.need.toNat) ++ bytesOf 8 (f.tid + 2 ^ 17 * f.src + 2 ^ 32 * f.asid.toNat)
    ++ bytesOf 8 (wakeGva f.tid) ++ bytesOf 40 0

/-- A fault is written to its ring, or held while the ring is full (27 R275). -/
def State.writeFault (s : State) (f : PFault) : State :=
  let v := s.faultService f.comp
  if !s.ringFull v.ring.toNat v.slots.toNat then
    ({ s.ringPut (clusterOf (coreOf f.tid)) f.asid v.ring.toNat v.slots.toNat v.wake.toNat f.record with
      pfaults := s.pfaults ++ [{ f with written := some s.now }] }).owe (s.now + v.fsbound.toNat + 1) .faultServiceTimeout
        (Arg.num f.tid)
  else ({ s with pfaults := s.pfaults ++ [f] }.touchRing v.ring.toNat f.asid).owe (s.now + 64) .faultRecordRelease (Arg.num f.comp)

/-- A page is not present: the fault goes to the component's fault service; without one, 0x36 at once (27 R275). -/
def State.pageFault (s : State) (t src gva : Nat) (need : Need) (tv : Word) (copy : Nat) : Option State :=
  match (s.core (coreOf t)).comp with
  | none => none
  | some c =>
    if (s.faultService c).valid then
      some (s.writeFault ⟨t, src, c, gva, need.bits, (s.thread t).asid, tv, copy, none⟩)
    else none

/-- EPC := PC, where a fetch parks its thread (27 R278). -/
def State.fetchPark (s : State) (t : Nat) : State := s.modThread t fun th => { th with epc := th.pc }

/-- A thread's own access finds its page absent: it parks, to issue the instruction again on the wake message (11 R147), or
raises 0x36 when its component has no fault service. A fetch (source 1) parks with EPC = PC (27 R278). -/
def State.pageAbsent (s : State) (t src gva : Nat) (need : Need) (tv : Word) (a : Act) : State :=
  match s.pageFault t src gva need tv 0 with
  | some s => (if src = 1 then s.fetchPark t else s).parkOn t a .page
  | none => s.trap t 0x36 tv

/-! ### Fetch -/

/-- What fetching a parcel ends in. -/
inductive Fetched where
  | parcel (p : BitVec 16)
  | bad (c : Cause)
  | absent (gva : Nat)
  deriving DecidableEq, Repr

/-- Fetch the parcel at a code offset under seg0, in the order of checks of 05 R44 and 11 R144. A poisoned line ends the component
as at a load (17 R222); the parcel has the cause 0x91 of a load there (DESIGN CHOICE, log entry 54). -/
def State.fetchAt (s : State) (t : Nat) (off : Word) : Fetched × State :=
  let th := s.thread t
  let g := th.seg.get 0 0
  match segCause g 0 off.toNat 2 needX with
  | some c => (.bad c, s)
  | none =>
    match s.locate (clusterOf (coreOf t)) th.asid th.privileged (gvaOf g off.toNat) 2 .load needX with
    | (.bad c, s) => (.bad c, s)
    | (.absent gva, s) => (.absent gva, s)
    | (.ok loc, s) =>
      if s.poisonedIn loc 2 then (.bad 0x91, s.touchLines loc 2 th.asid)
      else (.parcel (BitVec.ofNat 16 (leNat (s.readLoc loc 2))), s)

/-- The parcel at an offset: from the buffer, or fetched now. -/
def State.parcelAt (s : State) (t : Nat) (off : Word) : Fetched × State :=
  match (s.thread t).fetched.find? (fun p => p.1 == off) with
  | some p => (.parcel p.2.1, s)
  | none => s.fetchAt t off

/-- What fetching an instruction ends in: its bytes, or a cause or an absent page with the offset that failed and the first
parcel where it was fetched. -/
inductive FetchRes where
  | bytes (b : List Byte)
  | bad (c : Cause) (off : Word) (first : Option (BitVec 16))
  | absent (gva : Nat) (off : Word) (first : Option (BitVec 16))
  deriving DecidableEq, Repr

def parcelBytes (p : BitVec 16) : List Byte := [p.truncate 8, (p >>> 8).truncate 8]

/-- The instruction at PC: one parcel, or two when bit 0 of the first is 1 (05 R44). -/
def State.fetchInstr (s : State) (t : Nat) : FetchRes × State :=
  let pc := (s.thread t).pc
  if pc.getLsbD 0 then (.bad 0x06 pc none, s)
  else match s.parcelAt t pc with
    | (.bad c, s) => (.bad c pc none, s)
    | (.absent gva, s) => (.absent gva pc none, s)
    | (.parcel p, s) =>
      if p.getLsbD 0 then
        match s.parcelAt t (pc + 2) with
        | (.bad c, s) => (.bad c (pc + 2) (some p), s)
        | (.absent gva, s) => (.absent gva (pc + 2) (some p), s)
        | (.parcel q, s) => (.bytes (parcelBytes p ++ parcelBytes q), s)
      else (.bytes (parcelBytes p), s)

/-- A fetch fails: the cause is raised, a double trap if it is the first issue after trap entry (27 R270); an absent page
parks the thread with EPC = PC (R278). -/
def State.fetchFail (s : State) (t : Nat) : FetchRes → State
  | .bytes _ => s
  | .bad c off _ => s.fetchTrap t c off
  | .absent gva off _ =>
    match s.pageFault t 1 gva needX off 0 with
    | some s => (s.fetchPark t).parkOn t (.fetch false) .page
    | none => s.fetchTrap t 0x36 off

/-- The instruction at PC has been fetched: its parcels leave the buffer, and so does every one that an earlier cycle brought in,
before the instruction issued (19 R233). -/
def State.useFetched (s : State) (t : Nat) : State :=
  s.modThread t fun th => { th with
    fetched := th.fetched.filter fun p => p.2.2 == s.now && p.1 != th.pc && p.1 != th.pc + 2, afterTrap := false }

/-! ### The choice of a slot (15 R210) -/

/-- What takes a core's issue slot. -/
inductive Pick where
  | thread (t : Nat)
  | service
  deriving DecidableEq, Repr

/-- A thread may issue (15 R209; 27 R279). -/
def State.eligible (s : State) (t : Nat) : Bool :=
  let th := s.thread t
  th.st == .ready && decide (th.readyAt ≤ s.now) && !s.isSuspended (coreOf t)

/-- The eligible thread that has waited longest, ties to the lower number. -/
def longest (s : State) : List Nat → Option Nat
  | [] => none
  | t :: r =>
    match longest s r with
    | none => some t
    | some u => if (s.thread u).readyAt < (s.thread t).readyAt then some u else some t

/-- The choice of 15 R210 for a core: an aged thread, the service thread, then the policy. The cycles that a thread spends
suspended count towards the 64 of its aging, and while no numbered thread has issued yet RR begins at thread 0 (DESIGN CHOICE, log entry
52: R210 is silent on both). -/
def State.pick (s : State) (c : Nat) : Option Pick :=
  let k := s.core c
  let ts := ((List.range 16).map (16 * c + ·)).filter s.eligible
  match longest s (ts.filter fun t => decide ((s.thread t).readyAt + 64 ≤ s.now)) with
  | some t => some (.thread t)
  | none =>
    if !k.svc.isEmpty then some .service
    else if s.regAt c kISSUEPOL = 1 then
      match k.lastIssuer.map (16 * c + ·) with
      | some t => if ts.contains t then some (.thread t) else ((k.age.map (16 * c + ·)).find? ts.contains).map .thread
      | none => ((k.age.map (16 * c + ·)).find? ts.contains).map .thread
    else
      let first := match k.lastIssuer with | some l => l + 1 | none => 0
      (((List.range 16).map fun i => 16 * c + (first + i) % 16).find? ts.contains).map .thread

/-- The next core at or after the cursor whose slot of this cycle has a candidate. -/
def State.nextSlot (s : State) : Option (Nat × Pick) :=
  let cs := (s.threads.entries.map fun e => coreOf e.1) ++ s.cores.entries.map (·.1)
  let live := cs.filterMap fun c => if c < s.slot then none else (s.pick c).map fun p => (c, p)
  live.foldl (fun m x => match m with
    | none => some x
    | some y => if x.1 < y.1 then some x else some y) none

/-- A thread takes the slot: what its last instruction left to complete is complete. -/
def State.startIssue (s : State) (t : Nat) : State :=
  ({ s with cur := t }.modThread t fun th =>
    { th with st := .inflight, issuedAt := s.now, oldG := [], oldV := [], late := s.now }).modCore (coreOf t)
    fun c => { c with lastIssuer := some (laneOf t) }

end Sys2Proof.Machine
end

