-- ==== Sys2Proof/Machine/Flags.lean ====
section
/-!
DEFINITION. FCSR: rounding mode, sticky flags and enabled-arithmetic causes (03 R37; 07 R97; 09 R121).
-/

namespace Sys2Proof.Machine

/-- FCSR.RM (03 R37). -/
def rmOf (fcsr : Word) : RMode :=
  match (fcsr >>> 5).toNat % 4 with | 0 => .rne | 1 => .rtz | 2 => .rdn | _ => .rup

/-- The rounding mode of an instruction: FCSR.RM or its own (05 R58). -/
def rndMode (r : Rnd) (fcsr : Word) : RMode :=
  match r with | .dyn => rmOf fcsr | .rne => .rne | .rtz => .rtz | .rdn => .rdn | .rup => .rup

/-- The raised flags whose TE bit is set. -/
def enabledFlags (fcsr : Word) (f : Flags) : Flags := f &&& (fcsr >>> 8).truncate 5

/-- The bit number of the first flag in the order NV, DZ, OF, UF, NX (07 R97). -/
def firstFlag (f : Flags) : Option Nat :=
  if f.getLsbD 4 then some 4 else if f.getLsbD 3 then some 3 else if f.getLsbD 2 then some 2
  else if f.getLsbD 1 then some 1 else if f.getLsbD 0 then some 0 else none

/-- The flag whose enabled-arithmetic cause is raised, if any. -/
def trapFlag (fcsr : Word) (f : Flags) : Option Nat := firstFlag (enabledFlags fcsr f)

/-- Set sticky flags. -/
def Thread.raiseFlags (th : Thread) (f : Flags) : Thread := { th with fcsr := th.fcsr ||| f.zeroExtend 64 }

/-- The scalar unit's cause for a flag (07 R97). -/
def scalarCause (k : Nat) : Cause := BitVec.ofNat 8 (0x40 + k)
/-- The vector unit's cause for a flag (09 R121). -/
def vectorCause (k : Nat) : Cause := BitVec.ofNat 8 (0x48 + k)

/-- A scalar floating-point instruction ends: an enabled flag raises its cause and nothing is written, else the result and
the flags are (07 R97; 03 R37). -/
def State.fpFinish (s : State) (i : Word) (d : Reg) (v : Word) (f : Flags) (dist : Nat) : Out1 :=
  match trapFlag s.th.fcsr f with
  | some k => s.raise (scalarCause k) i
  | none => .next ((s.modTh fun th => (th.wr d v).raiseFlags f).done dist)

end Sys2Proof.Machine
end

