-- ==== Sys2Proof/Machine/Operands.lean ====
section
/-!
DEFINITION. Operand forms: scalar floating-point operands (03 R25), vector type, groups and elements (03 R26, R31), the
register checks of vector instructions (05 R45, 09 R119), and the element-wise body (09 R116, R117) with flags (R121) and
the normaliser penalty (03 R43).
-/

namespace Sys2Proof.Machine

/-! ### Scalar floating point -/

/-- A scalar operand of a format: the low bits of the register (03 R25). -/
def State.fp (s : State) (f : Fmt) (r : Reg) : Nat := (s.g r).toNat % 2 ^ f.width

/-- The rounding mode of the executing instruction. -/
def State.rmode (s : State) (r : Rnd) : RMode := rndMode r s.th.fcsr

/-! ### Vector type (03 R31) -/

def Thread.vill (th : Thread) : Bool := th.vtype.getLsbD 63
/-- SEW in bits. -/
def Thread.sew (th : Thread) : Nat := 8 * 2 ^ (th.vtype.toNat % 8)
/-- The grouping G. -/
def Thread.grp (th : Thread) : Nat := 2 ^ (th.vtype.toNat / 8 % 4)
def Thread.vlmax (th : Thread) : Nat := 512 * th.grp / th.sew

/-- The context of a vector instruction; one that does not honour VSTART starts at 0 (09 R118). -/
def Thread.vctx (th : Thread) (m : MReg) (honour : Bool) : VCtx where
  eb := th.sew / 8
  vstart := if honour then th.vstart.toNat else 0
  vl := th.vl.toNat
  vlmax := th.vlmax
  ta := th.vtype.getLsbD 5
  ma := th.vtype.getLsbD 6
  mask := th.rdM m

/-! ### Register groups (09 R119, R135) -/

/-- A register operand: first register, number of registers, and the multiple its base must be. -/
structure Group where
  base : Nat
  count : Nat
  align : Nat
  deriving DecidableEq, Repr

/-- An ordinary group of G registers. -/
def Thread.group (th : Thread) (r : Reg) : Group := ⟨r.val, th.grp, th.grp⟩
/-- A single register. -/
def single (r : Reg) : Group := ⟨r.val, 1, 1⟩
/-- An operand of elements of w bits: G·W/SEW registers, at least one (09 R135). -/
def Thread.sized (th : Thread) (r : Reg) (w : Nat) : Group :=
  let n := max 1 (th.grp * w / th.sew)
  ⟨r.val, n, n⟩

def Group.meets (a b : Group) : Bool := decide (a.base < b.base + b.count) && decide (b.base < a.base + a.count)

/-- The checks of a vector instruction in the order of 05 R45: VILL or an SEW it does not take 0x09, the window 0x08,
alignment or a forbidden overlap 0x04. -/
def Thread.vCause (th : Thread) (sewOk : Bool) (gs : List Group) (overlap : Bool) : Option Cause :=
  if th.vill || !sewOk then some 0x09
  else if gs.any (fun g => decide (th.winSize < g.base + g.count)) then some 0x08
  else if gs.any (fun g => g.base % g.align != 0) || overlap then some 0x04
  else none

/-! ### Elements (03 R26) -/

/-- Element i of w bits of the group at a register. -/
def State.elem (s : State) (t base w i : Nat) : Nat :=
  (s.vreg t (base + i * w / 512) >>> (i * w % 512)).toNat % 2 ^ w

def ones (w : Nat) : Nat := 2 ^ w - 1

/-- The bits of one register that a list of elements writes, and their mask. -/
def regBits (w r : Nat) (l : List (Nat × Nat)) : Vec × Vec :=
  l.foldl (fun p e =>
    if e.1 * w / 512 = r then
      (p.1 ||| (BitVec.ofNat 512 (e.2 % 2 ^ w) <<< (e.1 * w % 512)), p.2 ||| (BitVec.ofNat 512 (ones w) <<< (e.1 * w % 512)))
    else p) (0, 0)

/-- Write elements of w bits, by index, into the group at a register, n registers long. -/
def State.putElems (s : State) (t base w n : Nat) (l : List (Nat × Nat)) : State :=
  (List.range n).foldl (fun s r =>
    let p := regBits w r l
    if p.2 = 0 then s else s.setVreg t (base + r) p.1 p.2) s

/-- The elements an instruction writes, by class (09 R116): the tail and inactive elements under their policies, the active
ones with the result. -/
def VCtx.written (c : VCtx) (w : Nat) (op : Nat → Nat) : List (Nat × Nat) :=
  (List.range c.vlmax).filterMap fun i =>
    if i < c.vstart then none
    else if c.vl ≤ i then (if c.ta then some (i, ones w) else none)
    else if c.mask.getLsbD i then some (i, op i)
    else if c.ma then some (i, ones w) else none

/-- The active elements in ascending order. -/
def VCtx.actives (c : VCtx) : List Nat :=
  (List.range c.vl).filter fun i => decide (c.vstart ≤ i) && c.mask.getLsbD i

/-- Nothing is processed (09 R117). -/
def VCtx.empty (c : VCtx) : Bool := c.vl == 0 || decide (c.vl ≤ c.vstart)

/-- The tail of a destination from element n on (09 R132). -/
def VCtx.tailFrom (c : VCtx) (w n : Nat) : List (Nat × Nat) :=
  if c.ta then ((List.range c.vlmax).filter fun i => decide (n ≤ i)).map fun i => (i, ones w) else []

/-- A mask register as destination: bit i plays the part of element i, bits vl to 511 the tail (09 R116). -/
def VCtx.maskResult (c : VCtx) (old : Vec) (op : Nat → Bool) : Vec :=
  (List.range 512).foldl (fun v i =>
    let b := if i < c.vstart then old.getLsbD i
      else if c.vl ≤ i then c.ta || old.getLsbD i
      else if c.mask.getLsbD i then op i
      else c.ma || old.getLsbD i
    if b then v ||| ((1 : Vec) <<< i) else v) 0

/-! ### Operand b (09 R116) -/

/-- Operand b of element i: an element of a group, the low bits of a general register, or the immediate, which is unsigned
in shifts and sign-extended elsewhere. In the vf form the register holds a scalar of the element format. -/
def State.opB (s : State) (f : VForm) (b : Reg) (w : Nat) (uns : Bool) (i : Nat) : Nat :=
  match f with
  | .vv => s.elem s.cur b.val w i
  | .vx | .vf => (s.g b).toNat % 2 ^ w
  | .vi => if uns then b.val else ((BitVec.ofNat 5 b.val).signExtend w).toNat

/-- The group that operand b names. -/
def Thread.groupB (th : Thread) (f : VForm) (b : Reg) : List Group := match f with | .vv => [th.group b] | _ => []

/-! ### Completing a vector instruction -/

/-- VSTART := 0 and the instruction completes (09 R118). -/
def State.vDone (s : State) (len : Word) (dist : Nat) : State :=
  (s.modTh fun th => { th with vstart := 0 }).finish s.cur len dist

/-- Length in bytes of an instruction. -/
def lenOf (i : Instr) : Word := match encParcel i with | some _ => 2 | none => 4

/-- Check a vector instruction and run it; an instruction that processes nothing only sets VSTART to 0. -/
def State.vRun (s : State) (i : Instr) (sewOk : Bool) (gs : List Group) (ovl : Bool) (c : VCtx) (dist : Nat)
    (body : Out1) : Out1 :=
  match s.th.vCause sewOk gs ovl with
  | some k => s.raise k (ibits i)
  | none => if c.empty then .next (s.vDone (lenOf i) dist) else body

/-- An integer element-wise instruction (09 R117, R123): `op w a b d`. -/
def State.vInt (s : State) (i : Instr) (f : VForm) (m : MReg) (d c b : Reg) (uns : Bool) (dist : Nat)
    (op : Nat → Nat → Nat → Nat → Nat) : Out1 :=
  let th := s.th
  let x := th.vctx m true
  let w := th.sew
  let at' (r : Reg) (j : Nat) : Nat := s.elem s.cur r.val w j
  s.vRun i true (th.group d :: th.group c :: th.groupB f b) false x dist
    (.next ((s.putElems s.cur d.val w th.grp
      (x.written w fun j => op w (at' c j) (s.opB f b w uns j) (at' d j))).vDone (lenOf i) dist))

/-- An integer compare (09 R124): `op w a b`. -/
def State.vCmp (s : State) (i : Instr) (f : VForm) (m d : MReg) (c b : Reg) (op : Nat → Nat → Nat → Bool) : Out1 :=
  let th := s.th
  let x := th.vctx m true
  let w := th.sew
  s.vRun i true (th.group c :: th.groupB f b) false x class2
    (.next ((s.setM d (x.maskResult (th.rdM d) fun j => op w (s.elem s.cur c.val w j) (s.opB f b w false j))).vDone
      (lenOf i) class2))

/-! ### Floating point over elements -/

/-- The element format of SEW: FP16, FP32, FP64, or BF16 at e16 (05 R67). -/
def vfFormat (bf : Bool) (sew : Nat) : Option Fmt :=
  if bf then (if sew = 16 then some BF16 else none)
  else if sew = 16 then some FP16 else if sew = 32 then some FP32 else if sew = 64 then some FP64 else none

/-- Formats whose subnormals pass through the normaliser (03 R43). -/
def normalised (f : Fmt) : Bool := f == FP32 || f == FP64

/-- The penalty: 12 cycles for each source group and for the destination that holds a subnormal in an active element. -/
def penalty (f : Fmt) (act : List Nat) (srcs : List (Nat → Nat)) (res : Option (Nat → Nat)) : Nat :=
  if normalised f then
    let hit (g : Nat → Nat) : Bool := act.any fun i => isSubnormal f (g i)
    12 * ((srcs.filter hit).length + (match res with | some g => if hit g then 1 else 0 | none => 0))
  else 0

/-- The lowest of some elements that raised a flag. -/
def lowestWith (k : Nat) (l : List (Nat × Flags)) : Nat :=
  match l.find? (fun p => p.2.getLsbD k) with | some p => p.1 | none => 0

/-- Union of flags. -/
def unionFlags (l : List (Nat × Flags)) : Flags := l.foldl (fun f p => f ||| p.2) 0

/-- A vector instruction with flags ends (09 R121): an enabled flag raises its cause with the lowest element that raised it,
and nothing is written. -/
def State.vFpEnd (s : State) (fl : List (Nat × Flags)) (i : Instr) (dist : Nat) (write : State → State) : Out1 :=
  match trapFlag s.th.fcsr (unionFlags fl) with
  | some k => s.raise (vectorCause k) (BitVec.ofNat 64 (lowestWith k fl))
  | none => .next (((write s).modTh fun th => th.raiseFlags (unionFlags fl)).vDone (lenOf i) dist)

/-- Sources of a VFP instruction, each register group once (03 R43). -/
def State.vfSources (s : State) (f : VForm) (fm : Fmt) (c b : Reg) (extra : List Reg) : List (Nat → Nat) :=
  let regs := (c :: (match f with | .vv => [b] | _ => []) ++ extra).eraseDups
  (regs.map fun r => fun j => s.elem s.cur r.val fm.width j) ++
    (match f with | .vf => [fun _ => s.fp fm b] | _ => [])

/-- A VFP instruction with a group as destination (09 R126): `op fm a b d` with its flags. `una` marks one with no operand
b, `acc` one that reads vA, `fpDest` one whose results are floating point. -/
def State.vFp (s : State) (i : Instr) (bf : Bool) (f : VForm) (m : MReg) (d c b : Reg) (una acc fpDest : Bool) (dist : Nat)
    (op : Fmt → Nat → Nat → Nat → Nat × Flags) : Out1 :=
  let th := s.th
  let x := th.vctx m true
  let w := th.sew
  let fm := (vfFormat bf w).getD FP64
  s.vRun i (vfFormat bf w).isSome (th.group d :: th.group c :: (if una then [] else th.groupB f b)) false x dist
    (let at' (r : Reg) (j : Nat) : Nat := s.elem s.cur r.val w j
     let r (j : Nat) : Nat × Flags := op fm (at' c j) (if una then 0 else s.opB f b w false j) (at' d j)
     let act := x.actives
     let pen := penalty fm act (s.vfSources (if una then .vx else f) fm c b (if acc then [d] else []))
       (if fpDest then some fun j => (r j).1 else none)
     s.vFpEnd (act.map fun j => (j, (r j).2)) i (dist + pen)
       fun s => s.putElems s.cur d.val w th.grp (x.written w fun j => (r j).1))

/-- A VFP compare (09 R126). -/
def State.vFpCmp (s : State) (i : Instr) (bf : Bool) (f : VForm) (m d : MReg) (c b : Reg)
    (op : Fmt → Nat → Nat → Bool × Flags) : Out1 :=
  let th := s.th
  let x := th.vctx m true
  let w := th.sew
  let fm := (vfFormat bf w).getD FP64
  s.vRun i (vfFormat bf w).isSome (th.group c :: th.groupB f b) false x class2
    (let r (j : Nat) : Bool × Flags := op fm (s.elem s.cur c.val w j) (s.opB f b w false j)
     let act := x.actives
     let pen := penalty fm act (s.vfSources f fm c b []) none
     s.vFpEnd (act.map fun j => (j, (r j).2)) i (class2 + pen)
       fun s => s.setM d (x.maskResult (th.rdM d) fun j => (r j).1))

end Sys2Proof.Machine
end

