-- ==== Sys2Proof/Machine/Scalar.lean ====
section
/-!
DEFINITION. The integer groups OP, OPI, LUI and AUIPC (07 R91 to R96; 05 R55).
-/

namespace Sys2Proof.Machine

/-- 1 for true, 0 for false. -/
def flag (b : Bool) : Word := if b then 1 else 0

/-- A number of w bits read as signed, and an integer wrapped to w bits. -/
def sgn (w a : Nat) : Int := (BitVec.ofNat w a).toInt
def wrapI (w : Nat) (x : Int) : Nat := (x % 2 ^ w).toNat

/-- Shift amounts are taken modulo 64 (07 R93). -/
def shamt (v : Word) : Nat := v.toNat % 64

/-- The high word of a signed product (07 R93). -/
def mulHigh (a b : Word) : Word := BitVec.ofInt 64 (a.toInt * b.toInt / 2 ^ 64)
/-- The high word of an unsigned product (07 R93). -/
def mulHighU (a b : Word) : Word := BitVec.ofNat 64 (a.toNat * b.toNat / 2 ^ 64)

/-- The funnel shifts (07 R94): the pair a:b, shifted by s. -/
def funnelL (a b : Word) (s : Nat) : Word := BitVec.ofNat 64 ((a.toNat * 2 ^ 64 + b.toNat) * 2 ^ s / 2 ^ 64)
def funnelR (a b : Word) (s : Nat) : Word := BitVec.ofNat 64 ((a.toNat * 2 ^ 64 + b.toNat) / 2 ^ s)

/-- Zero bits above the highest one bit of the low w bits (07 R95). -/
def clzBits (w n : Nat) : Nat := if n = 0 then w else w - 1 - Nat.log2 n
/-- One bits among the low w bits. -/
def popBits (w n : Nat) : Nat := ((List.range w).filter n.testBit).length
/-- Zero bits below the lowest one bit. -/
def ctzBits (w n : Nat) : Nat := ((List.range w).find? n.testBit).getD w

/-- Byte i of the result is byte 7 − i (07 R95). -/
def bswap (v : Word) : Word := BitVec.ofNat 64 (leNat ((bytesOf 8 v.toNat).reverse))

/-- The sign-extended immediate (05 R49). -/
def simm {n : Nat} (i : BitVec n) : Word := i.signExtend 64

def execAdd (d b c : Reg) (s : State) : Out1 := s.put d (s.g b + s.g c) class1
def execSub (d b c : Reg) (s : State) : Out1 := s.put d (s.g b - s.g c) class1
def execAnd (d b c : Reg) (s : State) : Out1 := s.put d (s.g b &&& s.g c) class1
def execOr (d b c : Reg) (s : State) : Out1 := s.put d (s.g b ||| s.g c) class1
def execXor (d b c : Reg) (s : State) : Out1 := s.put d (s.g b ^^^ s.g c) class1
def execAndn (d b c : Reg) (s : State) : Out1 := s.put d (s.g b &&& ~~~(s.g c)) class1
def execSlt (d b c : Reg) (s : State) : Out1 := s.put d (flag ((s.g b).slt (s.g c))) class1
def execSltu (d b c : Reg) (s : State) : Out1 := s.put d (flag ((s.g b).ult (s.g c))) class1
def execSll (d b c : Reg) (s : State) : Out1 := s.put d (s.g b <<< shamt (s.g c)) class1
def execSrl (d b c : Reg) (s : State) : Out1 := s.put d (s.g b >>> shamt (s.g c)) class1
def execSra (d b c : Reg) (s : State) : Out1 := s.put d ((s.g b).sshiftRight (shamt (s.g c))) class1
def execFshl (d b c : Reg) (s : State) : Out1 := s.put d (funnelL (s.g d) (s.g b) (shamt (s.g c))) class1
def execFshr (d b c : Reg) (s : State) : Out1 := s.put d (funnelR (s.g d) (s.g b) (shamt (s.g c))) class1
def execMin (d b c : Reg) (s : State) : Out1 := s.put d (if (s.g b).slt (s.g c) then s.g b else s.g c) class1
def execMinu (d b c : Reg) (s : State) : Out1 := s.put d (if (s.g b).ult (s.g c) then s.g b else s.g c) class1
def execMax (d b c : Reg) (s : State) : Out1 := s.put d (if (s.g b).slt (s.g c) then s.g c else s.g b) class1
def execMaxu (d b c : Reg) (s : State) : Out1 := s.put d (if (s.g b).ult (s.g c) then s.g c else s.g b) class1
def execMul (d b c : Reg) (s : State) : Out1 := s.put d (s.g b * s.g c) class2
def execMulh (d b c : Reg) (s : State) : Out1 := s.put d (mulHigh (s.g b) (s.g c)) class2
def execMulhu (d b c : Reg) (s : State) : Out1 := s.put d (mulHighU (s.g b) (s.g c)) class2

/-- A division or remainder: a zero divisor raises 0x5F (07 R92). -/
def State.divide (s : State) (i : Instr) (d c : Reg) (v : Word) : Out1 :=
  if s.g c = 0 then s.raise 0x5F (ibits i) else s.put d v class3

def execDiv (d b c : Reg) (s : State) : Out1 := s.divide (.div d b c) d c ((s.g b).sdiv (s.g c))
def execDivu (d b c : Reg) (s : State) : Out1 := s.divide (.divu d b c) d c (s.g b / s.g c)
def execRem (d b c : Reg) (s : State) : Out1 := s.divide (.rem d b c) d c ((s.g b).srem (s.g c))
def execRemu (d b c : Reg) (s : State) : Out1 := s.divide (.remu d b c) d c (s.g b % s.g c)

def execClz (d b : Reg) (s : State) : Out1 := s.put d (BitVec.ofNat 64 (clzBits 64 (s.g b).toNat)) class1
def execCtz (d b : Reg) (s : State) : Out1 := s.put d (BitVec.ofNat 64 (ctzBits 64 (s.g b).toNat)) class1
def execPopc (d b : Reg) (s : State) : Out1 := s.put d (BitVec.ofNat 64 (popBits 64 (s.g b).toNat)) class1
def execSextw (d b : Reg) (s : State) : Out1 := s.put d (((s.g b).truncate 32).signExtend 64) class1
def execZextw (d b : Reg) (s : State) : Out1 := s.put d (((s.g b).truncate 32).zeroExtend 64) class1
def execBswap (d b : Reg) (s : State) : Out1 := s.put d (bswap (s.g b)) class1

def execAddi (d b : Reg) (i : BitVec 12) (s : State) : Out1 := s.put d (s.g b + simm i) class1
def execSlti (d b : Reg) (i : BitVec 12) (s : State) : Out1 := s.put d (flag ((s.g b).slt (simm i))) class1
def execSltiu (d b : Reg) (i : BitVec 12) (s : State) : Out1 := s.put d (flag ((s.g b).ult (simm i))) class1
def execXori (d b : Reg) (i : BitVec 12) (s : State) : Out1 := s.put d (s.g b ^^^ simm i) class1
def execOri (d b : Reg) (i : BitVec 12) (s : State) : Out1 := s.put d (s.g b ||| simm i) class1
def execAndi (d b : Reg) (i : BitVec 12) (s : State) : Out1 := s.put d (s.g b &&& simm i) class1
def execSlli (d b : Reg) (n : Fin 64) (s : State) : Out1 := s.put d (s.g b <<< n.val) class1
def execSrli (d b : Reg) (n : Fin 64) (s : State) : Out1 := s.put d (s.g b >>> n.val) class1
def execSrai (d b : Reg) (n : Fin 64) (s : State) : Out1 := s.put d ((s.g b).sshiftRight n.val) class1
def execLui (d : Reg) (i : BitVec 20) (s : State) : Out1 := s.put d (simm i <<< 12) class1
def execAuipc (d : Reg) (i : BitVec 20) (s : State) : Out1 := s.put d (s.th.pc + (simm i <<< 12)) class1

end Sys2Proof.Machine
end

