-- ==== Sys2Proof/Machine/Access.lean ====
section
/-!
DEFINITION. The accesses of a thread (11 R143 to R150): checks, direct access to the own local store, requests and posted
stores. An instruction that has to wait is kept as an `Act` and run again when its wait is over.
-/

namespace Sys2Proof.Machine

/-- Check an access of a thread; a cause is raised with the address, an absent page parks. -/
def State.reach (s : State) (t : Nat) (a : Word) (z al : Nat) (kind : AKind) (n : Need) (act : Act)
    (go : Nat → State → State) : State :=
  match s.access t a z al kind n with
  | (.bad c, s) => s.trap t c a
  | (.absent gva, s) => s.pageAbsent t 0 gva n a act
  | (.ok loc, s) => go loc s

/-- A request an instruction makes: element, operation, address, location. -/
structure Want where
  elem : Nat
  op : ROp
  addr : Word
  loc : Nat
  deriving DecidableEq, Repr

/-- Send requests and park until they are answered. -/
def State.ask (s : State) (t : Nat) (act : Act) (k : RClass) (got : List (Nat × List Byte)) (once : Nat → Bool)
    (l : List Want) : State :=
  let grp := s.nextId
  let r := l.foldl (fun (p : State × List Nat) w =>
    let q := p.1.request t w.elem grp k w.op w.addr w.loc (once w.elem)
    (p.1.inject q, p.2 ++ [q.id])) (s, [])
  r.1.waitFor t act .replies r.2 got

/-- Post stores and park until they are accepted (11 R146). -/
def State.postAll (s : State) (t : Nat) (act : Act) (k : RClass) (why : Why) (l : List Want) : State :=
  let grp := s.nextId
  let r := l.foldl (fun (p : State × List Nat) w =>
    let q := p.1.request t w.elem grp k w.op w.addr w.loc false
    (p.1.post q, p.2 ++ [q.id])) (s, [])
  r.1.waitFor t act why r.2 []

/-- The banks of the rows a matrix command names (13 R172). -/
def MCmd.bankRows (c : MCmd) : List Nat :=
  (match c.a with | .rows o _ _ => o.map (· / 0x10000) | _ => []) ++ (match c.b with | .rows o _ _ => o.map (· / 0x10000) | _ => [])

/-- An access to the own local store takes its bank: a command whose rows lie there slips by one cycle (13 R172). A scalar access, and
each 8-byte word of a block that an instruction reads (`gather`), takes it once, and the elements of one vector instruction take each
bank once (DESIGN CHOICE, log entry 52: R172 does not say how often an access of several words takes its bank). -/
def State.bankUse (s : State) (t loc : Nat) : State :=
  let c := coreOf t
  match (s.core c).mrun with
  | some r =>
    if s.now < r.endAt && r.cmd.bankRows.contains ((loc - coreBase c) / 0x10000) then
      s.modCore c fun x => { x with mrun := some { r with endAt := r.endAt + 1 } }
    else s
  | none => s

/-- Each bank of some own locations is taken once. -/
def State.bankUses (s : State) (t : Nat) (locs : List Nat) : State :=
  (locs.map fun l => l / 0x10000 * 0x10000).eraseDups.foldl (fun s l => s.bankUse t l) s

/-- A load from the own local store takes its bank and merges the stamps of the lines it reads (21 R244, R246). -/
def State.readOwn (s : State) (t loc n : Nat) : State :=
  (s.bankUse t loc).mergeStamp (dieOf (coreOf t)) (s.stampOf loc n)

/-- The same for the elements, n bytes each, of a vector load. -/
def State.readOwns (s : State) (t n : Nat) (locs : List Nat) : State :=
  (locs.flatMap (linesOf · n)).eraseDups.foldl (fun s l => s.mergeStamp (dieOf (coreOf t)) (s.stamps.get none l)) (s.bankUses t locs)

/-- A write of the thread to its own local store acts at once; engines may read what it replaces (23 R253). -/
def State.writeOwn (s : State) (t loc : Nat) (bytes : List Byte) (k : RClass) : State :=
  ((s.touchLines loc bytes.length (s.thread t).asid).keepPast (coreOf t) loc bytes.length t k).writeLoc loc bytes (s.thread t).privileged
    (s.thread t).asid t none 0 (s.slotGrp (coreOf t))

/-! ### Reading words for an instruction -/

/-- The words of a block that are not at hand: those in the own local store are read, the others wanted; a cause, an absent
page or a busy line ends the walk. The control window serves none of them (17 R219). A block, SEGLD's image of 16 bytes too, is read
as 8-byte words, each translated and read by itself; 07 R114 does not say whether an image is one access (DESIGN CHOICE, log entry
52). -/
def State.gather (s : State) (t : Nat) (act : Act) (a : Word) (need : Need) :
    List Nat → List (Nat × List Byte) → List Want → Except State (List (Nat × List Byte) × List Want × State)
  | [], got, wants => .ok (got, wants, s)
  | o :: rest, got, wants =>
    if got.any (fun p => p.1 == o) then s.gather t act a need rest got wants
    else
      let w := moveOff a o
      let th := s.thread t
      match s.locate (clusterOf (coreOf t)) th.asid th.privileged (gvaOf (th.seg.get 0 (selOf w)) (offOf w)) 8 .block need with
      | (.bad c, s) => .error (s.trap t c w)
      | (.absent gva, s) => .error (s.pageAbsent t 0 gva need w act)
      | (.ok loc, s) =>
        if inLs (coreOf t) loc then
          if s.poisonedIn loc 8 then .error ((s.touchLines loc 8 th.asid).trap t 0x91 w)
          else (s.readOwn t loc 8).gather t act a need rest (got ++ [(o, readMem s.mem loc 8)]) wants
        else if s.lineBusy t loc 8 then .error (s.waitFor t act (.lines (linesOf loc 8)) [] got)
        else s.gather t act a need rest got (wants ++ [⟨o, .read 8, w, loc⟩])

/-- The bytes of words by offset, in order. -/
def wordsOf (got : List (Nat × List Byte)) (offs : List Nat) : List Byte :=
  offs.flatMap fun o => match got.find? (fun p => p.1 == o) with | some p => p.2 | none => []

/-- Read n bytes, a multiple of 8, as a thread load of class k: the bytes when they are at hand, else the parked or trapped
state (13 R178, R192, R197). -/
def State.readBlock (s : State) (t : Nat) (act : Act) (a : Word) (n al : Nat) (k : RClass) (got : List (Nat × List Byte)) :
    Except State (List Byte × State) :=
  let g := (s.thread t).seg.get 0 (selOf a)
  match segCause g (selOf a) (offOf a) n needR with
  | some c => .error (s.trap t c a)
  | none =>
    if offOf a % al ≠ 0 then .error (s.trap t 0x38 a)
    else
      let offs := (List.range (n / 8)).map (8 * ·)
      match s.gather t act a needR offs got [] with
      | .error s => .error s
      | .ok (got, [], s) => .ok (wordsOf got offs, s)
      | .ok (got, wants, s) => .error (s.ask t act k got (fun _ => false) wants)

/-! ### Scalar loads and stores (11 R148) -/

/-- The value of loaded bytes. -/
def loadValue (z : Nat) (sg : Bool) (b : List Byte) : Word :=
  if sg then BitVec.ofInt 64 (sgn (8 * z) (leNat b)) else BitVec.ofNat 64 (leNat b)

/-- A load ends: the value is written and the instruction completes. -/
def State.loadEnd (s : State) (t : Nat) (d : Reg) (v : Word) (dist : Nat) : State :=
  (s.modThread t fun th => th.wr d v).finish t 4 dist

/-- A scalar load (11 R148, R150). -/
def State.load (s : State) (t : Nat) (d : Reg) (z : Nat) (sg : Bool) (a : Word) (k : RClass)
    (got : List (Nat × List Byte)) : State :=
  match got with
  | (_, b) :: _ => s.loadEnd t d (loadValue z sg b) class1
  | [] =>
    let act := Act.load d z sg a k
    s.reach t a z z .load needR act fun loc s =>
      if inLs (coreOf t) loc then
        if s.poisonedIn loc z then (s.touchLines loc z (s.thread t).asid).trap t 0x91 a
        else (s.readOwn t loc z).loadEnd t d (loadValue z sg (readMem s.mem loc z)) class2
      else if s.lineBusy t loc z then s.parkOn t act (.lines (linesOf loc z))
      else s.ask t act k [] (fun _ => false) [⟨0, .read z, a, loc⟩]

/-- A scalar store (11 R146, R148, R150). -/
def State.store (s : State) (t : Nat) (z : Nat) (a v : Word) (k : RClass) : State :=
  let act := Act.store z a v k
  s.reach t a z z .store needW act fun loc s =>
    let bytes := bytesOf z v.toNat
    match s.cwRefuse loc bytes (s.thread t).privileged with
    | some c => s.trap t c a
    | none =>
    if inLs (coreOf t) loc then ((s.bankUse t loc).writeOwn t loc bytes k).finish t 4 class1
    else if 16 ≤ s.inFlight t then s.parkOn t act .room
    else s.postAll t act k .accepts [⟨0, .write bytes, a, loc⟩]

/-- g[B] + imm10·z (05 R49, 11 R148). -/
def State.ea (s : State) (b : Reg) (i : BitVec 10) (z : Nat) : Word := moveOff (s.g b) (i.toInt * z)

def execLb (k : RClass) (d b : Reg) (i : BitVec 10) (s : State) : Out1 := .next (s.load s.cur d 1 true (s.ea b i 1) k [])
def execLh (k : RClass) (d b : Reg) (i : BitVec 10) (s : State) : Out1 := .next (s.load s.cur d 2 true (s.ea b i 2) k [])
def execLw (k : RClass) (d b : Reg) (i : BitVec 10) (s : State) : Out1 := .next (s.load s.cur d 4 true (s.ea b i 4) k [])
def execLd (k : RClass) (d b : Reg) (i : BitVec 10) (s : State) : Out1 := .next (s.load s.cur d 8 true (s.ea b i 8) k [])
def execLbz (k : RClass) (d b : Reg) (i : BitVec 10) (s : State) : Out1 := .next (s.load s.cur d 1 false (s.ea b i 1) k [])
def execLhz (k : RClass) (d b : Reg) (i : BitVec 10) (s : State) : Out1 := .next (s.load s.cur d 2 false (s.ea b i 2) k [])
def execLwz (k : RClass) (d b : Reg) (i : BitVec 10) (s : State) : Out1 := .next (s.load s.cur d 4 false (s.ea b i 4) k [])
def execSb (k : RClass) (c b : Reg) (i : BitVec 10) (s : State) : Out1 := .next (s.store s.cur 1 (s.ea b i 1) (s.g c) k)
def execSh (k : RClass) (c b : Reg) (i : BitVec 10) (s : State) : Out1 := .next (s.store s.cur 2 (s.ea b i 2) (s.g c) k)
def execSw (k : RClass) (c b : Reg) (i : BitVec 10) (s : State) : Out1 := .next (s.store s.cur 4 (s.ea b i 4) (s.g c) k)
def execSd (k : RClass) (c b : Reg) (i : BitVec 10) (s : State) : Out1 := .next (s.store s.cur 8 (s.ea b i 8) (s.g c) k)

/-! ### Segment registers (07 R114, R115) -/

/-- g[B] + 16·imm12. -/
def State.segAddr (s : State) (b : Reg) (i : BitVec 12) : Word := moveOff (s.g b) (i.toInt * 16)

/-- SEGLD: the image is read, checked and loaded; a load of seg0 discards the fetched parcels. -/
def State.segld (s : State) (t : Nat) (n : Fin 8) (a : Word) (got : List (Nat × List Byte)) : State :=
  match s.readBlock t (.segld n a) a 16 16 .o got with
  | .error s => s
  | .ok (b, s) =>
    let g : BitVec 128 := BitVec.ofNat 128 (leNat b)
    if segOk g then
      (s.modThread t fun th =>
        { th with seg := th.seg.set 0 n.val g, fetched := if n = 0 then [] else th.fetched }).finish t 4 class2
    else s.trap t 0x03 a

/-- SEGST: a store of 16 bytes. -/
def State.segst (s : State) (t : Nat) (a : Word) (img : BitVec 128) : State :=
  let act := Act.segst a img
  s.reach t a 16 16 .store needW act fun loc s =>
    let bytes := bytesOf 16 img.toNat
    if inLs (coreOf t) loc then ((s.bankUse t loc).writeOwn t loc bytes .o).finish t 4 class1
    else if 16 ≤ s.inFlight t then s.parkOn t act .room
    else s.postAll t act .o .accepts [⟨0, .write bytes, a, loc⟩]

def execSegld (sg : Fin 8) (b : Reg) (i : BitVec 12) (s : State) : Out1 :=
  if s.th.privileged then .next (s.segld s.cur sg (s.segAddr b i) []) else s.raise 0x07 (ibits (.segld sg b i))
def execSegst (sg : Fin 8) (b : Reg) (i : BitVec 12) (s : State) : Out1 :=
  .next (s.segst s.cur (s.segAddr b i) (s.th.seg.get 0 sg.val))

/-! ### Atomics (11 R154) -/

/-- What gA receives from the old value: an integer of 32 bits sign-extended, FP32 zero-extended. -/
def amoResult (op : AmoOp) (z : Nat) (b : List Byte) : Word :=
  loadValue z (match op with | .fadd | .fmaxa => false | _ => true) b

/-- An atomic: it parks until its home answers. -/
def State.amo (s : State) (t : Nat) (op : AmoOp) (d : Reg) (z : Nat) (a x cmp : Word) (k : RClass)
    (got : List (Nat × List Byte)) : State :=
  match got with
  | (_, b) :: _ => s.loadEnd t d (amoResult op z b) class1
  | [] =>
    let act := Act.amo op d z a x cmp k
    s.reach t a z z .atomic needRWA act fun loc s =>
      if s.lineBusy t loc z then s.parkOn t act (.lines (linesOf loc z))
      else s.ask t act k [] (fun _ => false) [⟨0, .amo op z x cmp, a, loc⟩]

/-- An atomic instruction: the compare value is gA. -/
def State.execAmo (s : State) (op : AmoOp) (k : RClass) (dbl : Bool) (d b c : Reg) : Out1 :=
  .next (s.amo s.cur op d (if dbl then 8 else 4) (s.g b) (s.g c) (s.g d) k [])

def execAmoadd (k : RClass) (dbl : Bool) (d b c : Reg) (s : State) : Out1 := s.execAmo .add k dbl d b c
def execAmoand (k : RClass) (dbl : Bool) (d b c : Reg) (s : State) : Out1 := s.execAmo .and k dbl d b c
def execAmoor (k : RClass) (dbl : Bool) (d b c : Reg) (s : State) : Out1 := s.execAmo .or k dbl d b c
def execAmoxor (k : RClass) (dbl : Bool) (d b c : Reg) (s : State) : Out1 := s.execAmo .xor k dbl d b c
def execAmoswap (k : RClass) (dbl : Bool) (d b c : Reg) (s : State) : Out1 := s.execAmo .swap k dbl d b c
def execAmomin (k : RClass) (dbl : Bool) (d b c : Reg) (s : State) : Out1 := s.execAmo .min k dbl d b c
def execAmomax (k : RClass) (dbl : Bool) (d b c : Reg) (s : State) : Out1 := s.execAmo .max k dbl d b c
def execAmominu (k : RClass) (dbl : Bool) (d b c : Reg) (s : State) : Out1 := s.execAmo .minu k dbl d b c
def execAmomaxu (k : RClass) (dbl : Bool) (d b c : Reg) (s : State) : Out1 := s.execAmo .maxu k dbl d b c
def execAmocas (k : RClass) (dbl : Bool) (d b c : Reg) (s : State) : Out1 := s.execAmo .cas k dbl d b c
def execAmofadd (k : RClass) (dbl : Bool) (d b c : Reg) (s : State) : Out1 := s.execAmo .fadd k dbl d b c
def execAmofmaxa (k : RClass) (dbl : Bool) (d b c : Reg) (s : State) : Out1 := s.execAmo .fmaxa k dbl d b c

/-! ### Full/empty operations (11 R152; 19 R236) -/

/-- SYNST and FESET wait for the thread's earlier accesses. -/
def FeOp.releases : FeOp → Bool | .synst | .feset => true | _ => false

/-- FELIM as an instruction that issues now samples it (11 R151, R153). -/
def State.felim (s : State) : Nat := (s.regAt (coreOf s.cur) kFECTL).toNat % 2 ^ 16

/-- A full/empty operation: it parks until its home answers. -/
def State.fullEmpty (s : State) (t : Nat) (op : FeOp) (d : Reg) (a x : Word) (lim : Nat) (k : RClass)
    (got : List (Nat × List Byte)) : State :=
  match got with
  | (_, b) :: _ => if op.releases then s.finish t 4 class1 else s.loadEnd t d (BitVec.ofNat 64 (leNat b)) class1
  | [] =>
    let act := Act.fe op d a x lim k
    s.reach t a 8 8 .fe needRWA act fun loc s =>
      if op.releases && !s.pathTDone t then s.parkOn t act .performed
      else if s.lineBusy t loc 8 then s.parkOn t act (.lines (linesOf loc 8))
      else s.ask t act k [] (fun _ => false) [⟨0, .fe op x lim, a, loc⟩]

def execSynld (k : RClass) (d b : Reg) (s : State) : Out1 := .next (s.fullEmpty s.cur .synld d (s.g b) 0 s.felim k [])
def execSynst (k : RClass) (b c : Reg) (s : State) : Out1 :=
  .next (s.fullEmpty s.cur .synst 0 (s.g b) (s.g c) s.felim k [])
def execFeread (k : RClass) (d b : Reg) (s : State) : Out1 := .next (s.fullEmpty s.cur .feread d (s.g b) 0 s.felim k [])
def execFeset (k : RClass) (b c : Reg) (s : State) : Out1 :=
  .next (s.fullEmpty s.cur .feset 0 (s.g b) (s.g c) s.felim k [])

end Sys2Proof.Machine
end

