-- ==== Sys2Proof/Machine/Buffer.lean ====
section
/-!
DEFINITION. Circular buffers (13 R187; 17 R220).
-/

namespace Sys2Proof.Machine

/-- Size and fill of a buffer as an instruction of this cycle sees them (03 R28). -/
def State.cbSize (s : State) (c b : Nat) : Nat := ringSize (s.regAt c (cbLow b))
def State.cbFill (s : State) (c b : Nat) : Nat := ringFill (s.regAt c (cbHigh b))

/-- CBWAIT: it parks until the fill reaches the count. -/
def State.cbwait (s : State) (t : Nat) (ib : Word) (b : Nat) (n : Word) : State :=
  let c := coreOf t
  if s.cbSize c b = 0 ∨ s.cbSize c b < n.toNat then s.trap t 0x67 ib
  else if s.cbFill c b < n.toNat then s.parkOn t (.cbwait ib b n) .cond
  else s.finish t 4 class1

/-- CBPOST: after the thread's earlier accesses (release effect). Size 0 is tested at once, and fill + g[C] > size when the count is to be
posted, after the wait for the earlier accesses (DESIGN CHOICE, log entry 52: 13 R187 does not say when). -/
def State.cbpost (s : State) (t : Nat) (ib : Word) (b : Nat) (n : Word) : State :=
  let c := coreOf t
  if s.cbSize c b = 0 then s.trap t 0x67 ib
  else if !s.pathTDone t then s.parkOn t (.cbpost ib b n) .performed
  else if s.cbSize c b < s.cbFill c b + n.toNat then s.trap t 0x67 ib
  else (s.cbPost c b n.toNat).finish t 4 class1

def execCbwait (buf : Fin 16) (c : Reg) (s : State) : Out1 :=
  .next (s.cbwait s.cur (ibits (.cbwait buf c)) buf.val (s.g c))
def execCbpost (buf : Fin 16) (c : Reg) (s : State) : Out1 :=
  .next (s.cbpost s.cur (ibits (.cbpost buf c)) buf.val (s.g c))
def execCbfree (buf : Fin 16) (c : Reg) (s : State) : Out1 :=
  let k := coreOf s.cur
  if s.cbSize k buf.val = 0 ∨ s.cbFill k buf.val < (s.g c).toNat then s.raise 0x67 (ibits (.cbfree buf c))
  else .next ((s.cbFree k buf.val (s.g c).toNat).done class1)
def execCbstat (buf : Fin 16) (d : Reg) (s : State) : Out1 :=
  let k := coreOf s.cur
  let f := s.cbFill k buf.val
  s.put d (BitVec.ofNat 64 (f + 2 ^ 32 * ((s.cbSize k buf.val + 2 ^ 32 - f) % 2 ^ 32))) class1

end Sys2Proof.Machine
end

