-- ==== Sys2Proof/Machine/Control.lean ====
section
/-!
DEFINITION. Branches, jumps and hardware loops (07 R100 to R105), YIELD and HALT (R107, R109; 15 R211), TRAP, ERET and the
system registers (R110 to R113), and what an encoding that is not an instruction raises (05 R45).
-/

namespace Sys2Proof.Machine

/-- A branch: taken, PC := PC + 2·imm12 (07 R101). -/
def State.branch (s : State) (taken : Bool) (i : BitVec 12) : Out1 :=
  .next (if taken then s.jump s.cur (s.th.pc + 2 * i.signExtend 64) false class1 else s.done class1)

def execBeq (b c : Reg) (i : BitVec 12) (s : State) : Out1 := s.branch (s.g b == s.g c) i
def execBne (b c : Reg) (i : BitVec 12) (s : State) : Out1 := s.branch (s.g b != s.g c) i
def execBlt (b c : Reg) (i : BitVec 12) (s : State) : Out1 := s.branch ((s.g b).slt (s.g c)) i
def execBge (b c : Reg) (i : BitVec 12) (s : State) : Out1 := s.branch (!(s.g b).slt (s.g c)) i
def execBltu (b c : Reg) (i : BitVec 12) (s : State) : Out1 := s.branch ((s.g b).ult (s.g c)) i
def execBgeu (b c : Reg) (i : BitVec 12) (s : State) : Out1 := s.branch (!(s.g b).ult (s.g c)) i

/-- A jump that links: gA := PC + 4, then the transfer; a link register other than g0 makes it a call (07 R102, R105). -/
def State.jumpLink (s : State) (d : Reg) (target : Word) : Out1 :=
  .next ((s.setG d (s.th.pc + 4)).jump s.cur target (decide (d ≠ 0)) class1)

def execJal (d : Reg) (i : BitVec 20) (s : State) : Out1 := s.jumpLink d (s.th.pc + 2 * i.signExtend 64)
def execJalr (d b : Reg) (i : BitVec 12) (s : State) : Out1 := s.jumpLink d (s.g b + i.signExtend 64)

/-! ### Hardware loops (07 R103) -/

/-- Set up a level and go to its body, or past its last instruction when the count is 0. -/
def State.setLoop (s : State) (lvl : Fin 2) (n : Word) (i : BitVec 12) : Out1 :=
  let pc := s.th.pc
  let le := pc + 2 * i.zeroExtend 64
  let set (s : State) : State := s.modTh fun th =>
    { th with ls := th.ls.set 0 lvl.val (pc + 4), le := th.le.set 0 lvl.val le, lc := th.lc.set 0 lvl.val n
              lp := th.lp.set false lvl.val (th.priv.getLsbD 0) }
  if n ≠ 0 then .next ((set s).done class1)
  else
    match s.fetchAt s.cur le with
    | (.bad c, s) => .next (s.trap s.cur c le)
    | (.absent gva, s) => .next (s.pageAbsent s.cur 1 gva needX le (.fetch true))
    | (.parcel p, s) => .next ((set s).finishAt s.cur (le + (if p.getLsbD 0 then 4 else 2)) class1)

def execLoop (lvl : Fin 2) (b : Reg) (i : BitVec 12) (s : State) : Out1 := s.setLoop lvl (s.g b) i
def execLoopi (lvl : Fin 2) (n : Fin 1024) (i : BitVec 12) (s : State) : Out1 := s.setLoop lvl (BitVec.ofNat 64 n.val) i

/-! ### YIELD and HALT -/

/-- Move a thread to the young end of its core's age list (15 R211). -/
def State.youngest (s : State) (t : Nat) : State :=
  s.modCore (coreOf t) fun c => { c with age := c.age.filter (· ≠ laneOf t) ++ [laneOf t] }

def execYield (s : State) : Out1 := .next ((s.youngest s.cur).done class1)

/-- HALT completes without the loop-end check and halts its thread (07 R104, R109). -/
def execHalt (s : State) : Out1 :=
  .next (s.modTh fun th => { (({ th with pc := th.pc + 4 } : Thread).settle s.now class1) with st := .halted })

/-! ### TRAP, ERET and causes of decoding -/

def execTrap (n : Fin 16) (s : State) : Out1 := s.raise (BitVec.ofNat 8 (0xB0 + n.val)) (ibits (.trap n))

def execEret (s : State) : Out1 :=
  if s.th.privileged then .next (s.eret s.cur class1) else s.raise 0x07 (ibits .eret)

def rejectCause : Reject → Cause | .reservedMajor => 0x01 | .unassigned => 0x02 | .reservedBit => 0x03

def execInvalidInstruction (why : Reject) (bits : BitVec 32) (s : State) : Out1 :=
  s.raise (rejectCause why) (bits.zeroExtend 64)

/-- The parcel 0x0000 (05 R47). -/
def execZeroParcel (s : State) : Out1 := s.raise 0x05 0

/-! ### System registers (07 R112, R113) -/

def execSysr (n : BitVec 12) (d : Reg) (s : State) : Out1 := s.put d (s.sysRead s.cur n.toNat) class1

def execSysw (n : BitVec 12) (b : Reg) (s : State) : Out1 :=
  match sysWriteCause n.toNat (s.g b) s.th.privileged with
  | some c => s.raise c (ibits (.sysw n b))
  | none => .next ((s.sysWrite s.cur n.toNat (s.g b)).done class1)

end Sys2Proof.Machine
end

