-- ==== Sys2Proof/Machine/Neighbour.lean ====
section
/-!
DEFINITION. Neighbour ports (13 R188 to R191), their links (01 R13; 00 R7), and the instructions that look at the input
queues: BTAG (07 R106) and WAITE (R108).
-/

namespace Sys2Proof.Machine

/-! ### Links (00 R7, 01 R13) -/

def Dir.idx : Dir → Nat | .n => 0 | .e => 1 | .s => 2 | .w => 3 | .t => 4
/-- The queue a push enters is the one named for the opposite direction; a push in T enters the queue from T (13 R188). -/
def Dir.opp : Dir → Dir | .n => .s | .s => .n | .e => .w | .w => .e | .t => .t

/-- Row and column of a core in the package's 64 × 128 grid. -/
def gridRow (c : Nat) : Nat := 32 * (c / 4096) + 4 * (c / 16 % 64 / 8) + c % 16 / 4
def gridCol (c : Nat) : Nat := 32 * (c / 1024 % 4) + 4 * (c / 16 % 8) + c % 4
/-- The core at a place of the grid. -/
def coreAt (r k : Nat) : Nat :=
  (r / 32 * 4 + k / 32) * 1024 + (r % 32 / 4 * 8 + k % 32 / 4) * 16 + r % 4 * 4 + k % 4

/-- The core a direction faces in the grid. -/
def meshCore (c : Nat) (d : Dir) : Option Nat :=
  let r := gridRow c; let k := gridCol c
  match d with
  | .n => if r = 0 then none else some (coreAt (r - 1) k)
  | .s => if r = 63 then none else some (coreAt (r + 1) k)
  | .w => if k = 0 then none else some (coreAt r (k - 1))
  | .e => if k = 127 then none else some (coreAt r (k + 1))
  | .t => none

/-- The wrap-around neighbour in the core's own cluster. -/
def torusCore (c : Nat) (d : Dir) : Nat :=
  let r := c % 16 / 4; let k := c % 4
  let at' (r k : Nat) : Nat := c / 16 * 16 + r % 4 * 4 + k % 4
  match d with
  | .n => at' (r + 3) k | .s => at' (r + 1) k | .w => at' r (k + 3) | .e => at' r (k + 1) | .t => c

/-- The neighbour core in a direction, if there is a link (01 R13). -/
def State.neighbour (s : State) (c : Nat) (d : Dir) : Option Nat :=
  if (s.compOf c).nlmode then some (torusCore c d)
  else match meshCore c d with
    | some x => if (s.core c).comp.isSome && (s.core x).comp == (s.core c).comp then some x else none
    | none => none

/-- The thread that receives a push in a direction; none without a link. -/
def State.receiver (s : State) (t : Nat) (d : Dir) : Option Nat :=
  let u := 16 * coreOf t + (laneOf t + 1) % 16
  match d with
  | .t => if (s.thread u).winSize = 0 then none else some u
  | d => (s.neighbour (coreOf t) d).map fun c => 16 * c + laneOf t

/-- The thread that feeds the queue from a direction; none without a link. -/
def State.feeder (s : State) (t : Nat) (d : Dir) : Option Nat :=
  let u := 16 * coreOf t + (laneOf t + 15) % 16
  match d with
  | .t => if (s.thread u).winSize = 0 then none else some u
  | d => (s.neighbour (coreOf t) d).map fun c => 16 * c + laneOf t

/-- The transit of an entry or a credit (29 R298). -/
def linkTime (t u : Nat) : Nat :=
  let a := dieOf (coreOf t); let b := dieOf (coreOf u)
  if a = b then 2 else 2 + ucie a b

/-! ### Queues and credits -/

/-- The input queue from a direction, head first. -/
def Thread.queue (th : Thread) (d : Dir) : List Entry := th.inq.get [] (Dir.idx d)
/-- Credits for pushes in a direction: four before any is used (13 R189). -/
def Thread.credit (th : Thread) (d : Dir) : Nat := th.credits.get 4 (Dir.idx d)
def Thread.setQueue (th : Thread) (d : Dir) (q : List Entry) : Thread := { th with inq := th.inq.set [] (Dir.idx d) q }
def Thread.setCredit (th : Thread) (d : Dir) (n : Nat) : Thread := { th with credits := th.credits.set 4 (Dir.idx d) n }

/-- An event that names a thread and a direction. -/
def Arg.dirOf (n : Nat) (d : Dir) : Arg := { Arg.none with n := n, dir := d }

/-! ### Push (13 R189) -/

/-- A push: it takes a credit, with .RL after the thread's earlier accesses, and its entry crosses the link; across a die
edge it carries the die's clock (21 R249). An .RL push waits for its credit, bounded by NBOUND, before it waits for the earlier accesses
(DESIGN CHOICE, log entry 52: 13 R189 does not say for which of the two it waits first). -/
def State.npush (s : State) (t : Nat) (ib : Word) (rl : Bool) (d : Dir) (data : Vec) (vec : Bool) (tag : BitVec 8) : State :=
  let act := Act.npush ib rl d data vec tag
  match s.receiver t d with
  | none => s.trap t 0x80 ib
  | some u =>
    if (s.thread t).credit d = 0 then s.parkOn t act .cond
    else if rl && !s.pathTDone t then s.parkOn t act .performed
    else
      let s := if rl then s.settlePast t 7 7 else s
      let a := dieOf (coreOf t)
      let e : Entry := ⟨data, tag, vec, if a = dieOf (coreOf u) then none else some (s.die a).k⟩
      let s := s.modThread t fun th => th.setCredit d (th.credit d - 1)
      (({ s with transit := s.transit ++ [(u, Dir.opp d, e)] }).carry a (dieOf (coreOf u)) (requestGroup (s.thread t).asid)
        (linkTime t u) .neighbourEntryLand (Arg.dirOf u (Dir.opp d)) none).finish t 4 class1

/-- The tag a push or pop names in field C. -/
def State.tagOf (s : State) (c : Reg) : BitVec 8 := (s.g c).truncate 8

def execNpush (rl : Bool) (dir : Dir) (b c : Reg) (s : State) : Out1 :=
  .next (s.npush s.cur (ibits (.npush rl dir b c)) rl dir ((s.g b).zeroExtend 512) false (s.tagOf c))

/-- A vector register that a port instruction names lies in the window (13 R165). -/
def Thread.inWindow (th : Thread) (r : Reg) : Bool := decide (r.val < th.winSize)

def execNpushv (rl : Bool) (dir : Dir) (b c : Reg) (s : State) : Out1 :=
  let i := ibits (.npushv rl dir b c)
  if s.th.inWindow b then .next (s.npush s.cur i rl dir (s.vreg s.cur b.val) true (s.tagOf c)) else s.raise 0x08 i

/-! ### Pop and peek (13 R190) -/

/-- A pop or a peek. Where fields A and C name one register, which of its two values stands is open (log entry 24). -/
def State.npop (s : State) (t : Nat) (ib : Word) (d : Dir) (r c : Reg) (vec peek aq : Bool) : State :=
  match s.feeder t d with
  | none => s.trap t 0x80 ib
  | some f =>
    match (s.thread t).queue d with
    | [] => s.parkOn t (.npop ib d r c vec peek aq) .cond
    | e :: rest =>
      let tag : Word := e.tag.zeroExtend 64
      let s := if vec then s.setVreg t r.val e.data (BitVec.allOnes 512) else s.modThread t fun th => th.wr r (e.data.truncate 64)
      let clash := !vec && r == c
      let x := if clash then s.freeWord else (1, s)
      let s := if x.1.getLsbD 0 then x.2.modThread t fun th => th.wr c tag else x.2
      let s := if peek then s else
        let s := s.modThread t fun th => th.setQueue d rest
        { s with creditsBack := s.creditsBack ++ [(f, Dir.opp d)] }.carry (dieOf (coreOf t)) (dieOf (coreOf f)) replyGroup
          ((s.thread t).issuedAt + linkTime t f - s.now) .neighbourCreditReturn (Arg.dirOf f (Dir.opp d)) none
      let s := if aq then s.mergeStamp (dieOf (coreOf t)) e.stamp else s
      s.finish t 4 (if vec then class2 else class1)

def execNpop (aq : Bool) (dir : Dir) (d c : Reg) (s : State) : Out1 :=
  .next (s.npop s.cur (ibits (.npop aq dir d c)) dir d c false false aq)
def execNpopv (aq : Bool) (dir : Dir) (d c : Reg) (s : State) : Out1 :=
  let i := ibits (.npopv aq dir d c)
  if s.th.inWindow d then .next (s.npop s.cur i dir d c true false aq) else s.raise 0x08 i
def execNpeek (dir : Dir) (d c : Reg) (s : State) : Out1 :=
  .next (s.npop s.cur (ibits (.npeek dir d c)) dir d c false true false)

/-! ### Status (13 R191) -/

/-- What NSTAT reads. -/
def State.nstatWord (s : State) (t : Nat) (d : Dir) : Word :=
  let th := s.thread t
  let q := th.queue d
  let head := match q with | e :: _ => 2 ^ 7 * (if e.vec then 1 else 0) + 2 ^ 8 * e.tag.toNat | [] => 0
  let inn := match s.feeder t d with | some _ => q.length + 2 ^ 6 + head | none => 0
  let out := match s.receiver t d with | some _ => 2 ^ 3 * th.credit d + 2 ^ 16 | none => 0
  BitVec.ofNat 64 (inn + out + 2 ^ 32 * ((s.regAt (coreOf t) kNPCTL).toNat % 2 ^ 32))

def execNstat (dir : Dir) (d : Reg) (s : State) : Out1 := s.put d (s.nstatWord s.cur dir) class1

/-! ### BTAG (07 R106) -/

/-- BTAG: it waits for an entry, reads its table entry as an LWZ.O does, and jumps. -/
def State.btag (s : State) (t : Nat) (ib : Word) (d : Dir) (n : Nat) (a : Word) (got : List (Nat × List Byte)) : State :=
  match got with
  | (_, b) :: _ => s.jump t (loadValue 4 false b) false class1
  | [] =>
    let act := Act.btag ib d n a
    if (s.feeder t d).isNone then s.trap t 0x80 ib
    else match (s.thread t).queue d with
    | [] => s.parkOn t act .cond
    | e :: _ =>
      let w := moveOff a (4 * min e.tag.toNat n : Nat)
      s.reach t w 4 4 .load needR act fun loc s =>
        if inLs (coreOf t) loc then
          if s.poisonedIn loc 4 then (s.touchLines loc 4 (s.thread t).asid).trap t 0x91 w
          else (s.readOwn t loc 4).jump t (loadValue 4 false (readMem s.mem loc 4)) false class2
        else if s.lineBusy t loc 4 then s.parkOn t act (.lines (linesOf loc 4))
        else s.ask t act .o [] (fun _ => false) [⟨0, .read 4, w, loc⟩]

def execBtag (dir : Dir) (n : Fin 16) (b : Reg) (i : BitVec 12) (s : State) : Out1 :=
  .next (s.btag s.cur (ibits (.btag dir n b i)) dir n.val (moveOff (s.g b) (4 * i.toInt)) [])

/-! ### WAITE (07 R108) -/

/-- A selected event has come. -/
def Thread.eventCame (th : Thread) (sel : Word) : Bool :=
  ([Dir.n, .e, .s, .w, .t].any fun d => sel.getLsbD (Dir.idx d) && !(th.queue d).isEmpty) || (sel.getLsbD 5 && th.wake)

/-- WAITE: finding the flag set, it clears it and merges the stamp of the wake word's line (acquire effect). -/
def State.waite (s : State) (t : Nat) (sel : Word) : State :=
  let th := s.thread t
  if sel.toNat % 64 = 0 ∨ th.eventCame sel then
    let s := if sel.getLsbD 5 && th.wake then
        (s.modThread t fun th => { th with wake := false }).mergeStamp (dieOf (coreOf t))
          (s.stamps.get none (wakeGva t / 64))
      else s
    s.finish t 4 class1
  else s.parkOn t (.waite sel) .cond

def execWaite (b : Reg) (s : State) : Out1 := .next (s.waite s.cur (s.g b))

end Sys2Proof.Machine
end

