-- ==== Sys2Proof/Machine/Matrix.lean ====
section
/-!
DEFINITION. The matrix unit: operands and their checks (13 R168 to R171), the queue and the unit (R172), MZERO, MMA, MMAS,
MMAR, MLDA and MSTA (R173 to R177), and deferred matrix errors (R166).
-/

namespace Sys2Proof.Machine

/-! ### Rows of elements under a bank's format (13 R171, R177, R181) -/

/-- Bytes of an element of a format that is not DXB. RAW elements, to which the RAW rows of MLDA and MSTA are aligned, are taken to have 4
(DESIGN CHOICE, log entry 25: 13 R170 lists the sizes 1, 2 and 4 and no RAW). -/
def elemBytes (fmt : Nat) : Nat := if fmt ≤ 1 then 4 else if fmt ≤ 3 then 2 else 1

/-- Bytes of a row of n elements. -/
def rowBytes (fmt n : Nat) : Nat := if fmt = 8 then n / 32 * 34 else if fmt = 9 then n / 32 * 18 else n * elemBytes fmt

/-- Byte i of a list. -/
def byteOf (l : List Byte) (i : Nat) : Nat := (l.getD i 0).toNat

/-- MatDecode of element k of a row (13 R171). -/
def matDecode (fmt scale : Nat) (row : List Byte) (k : Nat) : FVal :=
  if scale = 0xFF then .nan false
  else
    let v :=
      if fmt = 8 then blockElem false (fun i => byteOf row (k / 32 * 34 + i)) (k % 32)
      else if fmt = 9 then blockElem true (fun i => byteOf row (k / 32 * 18 + i)) (k % 32)
      else codeVal fmt (leNat ((row.drop (k * elemBytes fmt)).take (elemBytes fmt)))
    v.scale ((scale : Int) - 127)

/-- Split a list into pieces of n; `fuel` bounds their number. -/
def chunks {α : Type} (n : Nat) : Nat → List α → List (List α)
  | 0, _ => []
  | f + 1, l => if l.isEmpty then [] else l.take n :: chunks n f (l.drop n)

/-- A row written under a bank's format and scale, saturating (13 R177, R181). -/
def encodeRow (fmt scale dshift : Nat) (xs : List FVal) : List Byte :=
  let ys := xs.map fun x => if scale = 0xFF then FVal.nan false else x.scale (127 - (scale : Int))
  match bankFmt fmt with
  | some f => ys.flatMap fun y => bytesOf (f.width / 8) (roundTo f .rne true y).1
  | none =>
    if fmt = 6 then ys.flatMap fun y => bytesOf 1 (BitVec.ofInt 8 (fToInt .rne (-128) 127 y).1).toNat
    else if fmt = 7 then ys.flatMap fun y => bytesOf 1 (BitVec.ofInt 8 (fToInt .rne 0 255 y).1).toNat
    else (chunks 32 ys.length ys).flatMap fun b => (blockBytes (fmt == 9) (dxbEncode (fmt == 9) dshift b)).flatMap (bytesOf 1)

/-! ### Operands (13 R168 to R170) -/

/-- K of a format; none where it is no operand format. -/
def kClass (fmt : Nat) : Option Nat :=
  if fmt = 2 ∨ fmt = 3 then some 16 else if 4 ≤ fmt ∧ fmt ≤ 8 then some 32 else if fmt = 9 then some 64 else none

/-- Bytes of a tile row, for a matrix operand or (`io`) for MLDA and MSTA. The 64 bytes of a RAW or FP32 row that MMA, MMAR or MMAS names,
over which its operand is checked before 0x0A is raised (03 R27), are a DESIGN CHOICE (log entry 25: 13 R168 gives no such row). -/
def tileRow (io : Bool) (fmt : Nat) : Nat :=
  if fmt ≤ 1 then 64 else if fmt = 8 then 34 else if fmt = 9 then 36
  else if io && (fmt == 4 || fmt == 5) then 16 else 32

/-- A matrix instruction's fields (05 R71). -/
structure MSpec where
  kind : MKind
  acc : Nat
  f3 : Nat
  sa : Bool
  sb : Bool
  a : Nat
  b : Nat
  c : Nat
  deriving DecidableEq, Repr

/-- The matrix instruction a word stands for. -/
def mspecOf : Instr → Option MSpec
  | .mzero n => some ⟨.zero, n.val, 0, true, true, 0, 0, 0⟩
  | .mma x y n f a b => some ⟨.mma, n.val, f.val, x, y, a.val, b.val, 0⟩
  | .mmar x y n f a b => some ⟨.mmar, n.val, f.val, x, y, a.val, b.val, 0⟩
  | .mlda n b => some ⟨.lda, n.val, 0, true, true, b.val, b.val, 0⟩
  | .msta n b => some ⟨.sta, n.val, 0, true, true, b.val, b.val, 0⟩
  | .mmasN1 x y n f a b c => some ⟨.mmas 1, n.val, f.val, x, y, a.val, b.val, c.val⟩
  | .mmasN2 x y n f a b c => some ⟨.mmas 2, n.val, f.val, x, y, a.val, b.val, c.val⟩
  | .mmasN4 x y n f a b c => some ⟨.mmas 4, n.val, f.val, x, y, a.val, b.val, c.val⟩
  | _ => none

/-- Tiles of operand B. -/
def MKind.tiles : MKind → Nat | .mmas n => 8 / n | _ => 1
def MKind.io : MKind → Bool | .lda | .sta => true | _ => false

/-- The decode causes of a matrix instruction: window, alignment, format (05 R45, R71). -/
def Thread.matCause (th : Thread) (m : MSpec) : Option Cause :=
  if m.kind = .zero then none
  else if (!m.sa && decide (th.winSize < m.a + 8)) || (!m.sb && decide (th.winSize < m.b + 8 * m.kind.tiles)) then some 0x08
  else
    let bad (sp : Bool) (n : Nat) : Bool := if sp then n % 2 != 0 || n == 0 else n % 8 != 0
    if bad m.sa m.a || bad m.sb m.b then some 0x04
    else if !(m.sa && m.sb) && decide (4 < m.f3) then some 0x0A
    else none

/-- What a matrix instruction or a CPYM reads at its issue. -/
def State.snap (s : State) (t : Nat) : Snap :=
  ⟨(s.thread t).g, (List.range (s.thread t).winSize).map (s.vreg t), (List.range 16).map fun b => s.regAt (coreOf t) (16 + b)⟩

/-- A cause with its TVAL; none stands for the instruction bits. -/
abbrev MErr := Cause × Option Word

/-- A row of a scratchpad operand, checked in the order of 13 R170: its local-store offset and its bank's format word. A row
outside the own local store has no format: its first byte is checked (log entry 25). -/
def State.matRow (s : State) (t : Nat) (bf : List Word) (io : Bool) (n : Need) (a : Word) : Except MErr (Nat × Nat) :=
  let g := (s.thread t).seg.get 0 (selOf a)
  let gva := gvaOf g (offOf a)
  if !inLs (coreOf t) gva then .error ((segCause g (selOf a) (offOf a) 1 n).getD 0x3A, some a)
  else
    let o := gva - coreBase (coreOf t)
    let w := (bf.getD (o / 0x10000) 0).toNat
    let len := tileRow io (w % 16)
    match segCause g (selOf a) (offOf a) len n with
    | some c => .error (c, some a)
    | none =>
      if offOf a % elemBytes (w % 16) ≠ 0 then .error (0x38, some a)
      else if 0x10000 < o % 0x10000 + len then .error (0x64, some a)
      else .ok (o, w)

/-- Rows in order; each bank shall hold the format of the first. -/
def State.matRows (s : State) (t : Nat) (bf : List Word) (io : Bool) (n : Need) :
    List Word → Except MErr (List (Nat × Nat × Word))
  | [] => .ok []
  | a :: r =>
    match s.matRow t bf io n a with
    | .error e => .error e
    | .ok p => match s.matRows t bf io n r with | .error e => .error e | .ok l => .ok ((p.1, p.2, a) :: l)

/-- The scratchpad operand of a register pair (13 R170). -/
def State.scratch (s : State) (t : Nat) (sn : Snap) (io : Bool) (n : Need) (r tiles : Nat) : Except MErr MOperand :=
  let a := sn.g.get 0 r
  let geo := (sn.g.get 0 (r + 1)).toNat
  let q := geo / 2 ^ 32
  if 4 < q then .error (0x64, some a)
  else
    let addrs := (List.range tiles).flatMap fun k => (List.range 16).map fun i =>
      moveOff a (i / 2 ^ q * (geo % 2 ^ 16) + i % 2 ^ q * 0x10000 + k * (geo / 2 ^ 16 % 2 ^ 16) : Nat)
    match s.matRows t sn.bf io n addrs with
    | .error e => .error e
    | .ok l =>
      let w0 := match l with | p :: _ => p.2.1 | [] => 0
      match l.find? (fun p => p.2.1 != w0) with
      | some p => .error (0x0A, some p.2.2)
      | none => .ok (.rows (l.map (·.1)) (w0 % 16) (w0 / 256 % 256))

/-- An operand: a register group read at issue, or a scratchpad one. -/
def State.matOperand (s : State) (t : Nat) (sn : Snap) (sp : Bool) (io : Bool) (n : Need) (f3 r tiles : Nat) :
    Except MErr MOperand :=
  if sp then s.scratch t sn io n r tiles
  else .ok (.regs r (f3 + 2) ((sn.v.drop r).take (8 * tiles)))

def MOperand.fmt : MOperand → Nat | .none => 0 | .regs _ f _ => f | .rows _ f _ => f

/-- The metadata of MMAS: 8K bytes of the own local store (13 R175). -/
def State.metadata (s : State) (t : Nat) (a : Word) (k : Nat) : Except MErr Nat :=
  let g := (s.thread t).seg.get 0 (selOf a)
  match segCause g (selOf a) (offOf a) (8 * k) needR with
  | some c => .error (c, some a)
  | none =>
    let gva := gvaOf g (offOf a)
    if offOf a % 8 ≠ 0 then .error (0x38, some a)
    else if !inLs (coreOf t) gva || !inLs (coreOf t) (gva + 8 * k - 1) then .error (0x3A, some a)
    else .ok (gva - coreBase (coreOf t))

/-- Every check of a matrix instruction at issue, and the command it makes (13 R165, R168 to R177). -/
def State.prepare (s : State) (t : Nat) (sn : Snap) (m : MSpec) : Except MErr MCmd :=
  let th := s.thread t
  let cmd (a b : MOperand) (md : Nat) : MCmd := ⟨t, m.kind, m.acc, a, b, md, th.pc, none⟩
  match th.matCause m with
  | some c => .error (c, none)
  | none =>
    match m.kind with
    | .zero => .ok (cmd .none .none 0)
    | .lda | .sta =>
      match s.scratch t sn true (if m.kind = .sta then needW else needR) m.a 1 with
      | .error e => .error e
      | .ok a => if 5 < a.fmt then .error (0x0A, none) else .ok (cmd a .none 0)
    | .mma | .mmar | .mmas _ =>
      if m.kind = .mmar ∧ !(s.compOf (coreOf t)).nlmode then .error (0x80, none)
      else
        match s.matOperand t sn m.sa false needR m.f3 m.a 1 with
        | .error e => .error e
        | .ok a =>
          match s.matOperand t sn m.sb false needR m.f3 m.b m.kind.tiles with
          | .error e => .error e
          | .ok b =>
            match kClass a.fmt with
            | none => .error (0x0A, none)
            | some k =>
              if kClass b.fmt ≠ some k then .error (0x0A, none)
              else match m.kind with
                | .mmas _ =>
                  match s.metadata t (sn.g.get 0 m.c) k with
                  | .error e => .error e
                  | .ok md => .ok (cmd a b md)
                | _ => .ok (cmd a b 0)

/-! ### The queue (13 R172) -/

/-- A copy and its follow-on are over: its tag is free (13 R185). -/
def State.copyGone (s : State) (k : Nat) (id : Option Nat) : State :=
  match id with
  | none => s
  | some n => s.modCore k fun c => { c with copies := c.copies.filter fun x => x.id != n }

/-- Place a command at the back of its core's matrix queue. One that its thread issued before the report of a recorded error is
discarded (13 R166). -/
def State.enqueue (s : State) (c : MCmd) : State :=
  let k := coreOf c.tid
  if (s.thread c.tid).mxErr.isSome then s.copyGone k c.copy
  else (s.modCore k fun x => { x with mq := x.mq ++ [c] }).owe s.now .matrixCommandStart (Arg.num k)

/-- The queue has room: the command that runs holds none of its 8 entries (DESIGN CHOICE, log entry 52: R172 does not say). -/
def State.mqRoom (s : State) (k : Nat) : Bool := decide ((s.core k).mq.length < 8)

/-- A matrix instruction with its checks passed: it parks while the queue is full. -/
def State.matrix (s : State) (t : Nat) (c : MCmd) (dist : Nat) : State :=
  if s.mqRoom (coreOf t) then (s.enqueue c).finish t 4 dist else s.parkOn t (.matrix c dist) .cond

/-- Raise a thread's recorded matrix error, which trap entry then clears (13 R166; 27 R269). -/
def State.reportMatrix (s : State) (t : Nat) (e : Err) : State :=
  (s.modThread t fun th => { th with mxErr := none }).trap t e.cause e.tval

/-- A matrix instruction: a recorded error comes first. -/
def State.execMatrix (s : State) (i : Instr) (m : MSpec) : Out1 :=
  match s.th.mxErr with
  | some e => .next (s.reportMatrix s.cur e)
  | none =>
    match s.prepare s.cur (s.snap s.cur) m with
    | .error e => s.raise e.1 (e.2.getD (ibits i))
    | .ok c => .next (s.matrix s.cur c (if m.sa && m.sb then class1 else class2))

def execMzero (n : Fin 4) (s : State) : Out1 := s.execMatrix (.mzero n) ⟨.zero, n.val, 0, true, true, 0, 0, 0⟩
def execMma (sa sb : Bool) (n : Fin 4) (f : Fin 8) (a b : Reg) (s : State) : Out1 :=
  s.execMatrix (.mma sa sb n f a b) ⟨.mma, n.val, f.val, sa, sb, a.val, b.val, 0⟩
def execMmar (sa sb : Bool) (n : Fin 4) (f : Fin 8) (a b : Reg) (s : State) : Out1 :=
  s.execMatrix (.mmar sa sb n f a b) ⟨.mmar, n.val, f.val, sa, sb, a.val, b.val, 0⟩
def execMlda (n : Fin 4) (b : Reg) (s : State) : Out1 :=
  s.execMatrix (.mlda n b) ⟨.lda, n.val, 0, true, true, b.val, b.val, 0⟩
def execMsta (n : Fin 4) (b : Reg) (s : State) : Out1 :=
  s.execMatrix (.msta n b) ⟨.sta, n.val, 0, true, true, b.val, b.val, 0⟩
def execMmasN1 (sa sb : Bool) (n : Fin 4) (f : Fin 8) (a b c : Reg) (s : State) : Out1 :=
  s.execMatrix (.mmasN1 sa sb n f a b c) ⟨.mmas 1, n.val, f.val, sa, sb, a.val, b.val, c.val⟩
def execMmasN2 (sa sb : Bool) (n : Fin 4) (f : Fin 8) (a b c : Reg) (s : State) : Out1 :=
  s.execMatrix (.mmasN2 sa sb n f a b c) ⟨.mmas 2, n.val, f.val, sa, sb, a.val, b.val, c.val⟩
def execMmasN4 (sa sb : Bool) (n : Fin 4) (f : Fin 8) (a b c : Reg) (s : State) : Out1 :=
  s.execMatrix (.mmasN4 sa sb n f a b c) ⟨.mmas 4, n.val, f.val, sa, sb, a.val, b.val, c.val⟩

/-! ### What a command computes -/

/-- Bytes of row i of a register operand (13 R169). -/
def regRow (bits : List Vec) (i : Nat) : List Byte :=
  (List.range 32).map fun j => byteAt (bits.getD (i / 2) 0) (32 * (i % 2) + j)

/-- A row of the own local store as the matrix unit of core k reads it (23 R253); the stamps of its lines are merged (21 R244; 23
R252). -/
def State.readRow (s : State) (k loc n : Nat) : List Byte × State :=
  (s.mergeStamp (dieOf k) (s.stampOf loc n)).engineRead k pathM loc n

/-- The rows of an operand as the command reads them at its start. -/
def State.readRows (s : State) (k : Nat) (io : Bool) : MOperand → List (List Byte) × State
  | .none => ([], s)
  | .regs _ _ bits => ((List.range (2 * bits.length)).map (regRow bits), s)
  | .rows offs f _ => offs.foldl (fun (r : List (List Byte) × State) o =>
      let x := r.2.readRow k (coreBase k + o) (tileRow io f)
      (r.1 ++ [x.1], x.2)) ([], s)

/-- The bytes of the own local store that a command reads: its rows and its metadata. -/
def MCmd.reads (c : MCmd) : List (Nat × Nat) :=
  let rows (o : MOperand) : List (Nat × Nat) :=
    match o with | .rows offs f _ => offs.map fun x => (x, tileRow c.kind.io f) | _ => []
  (if c.kind = .sta then [] else rows c.a) ++ rows c.b
    ++ match c.kind with | .mmas _ => [(c.md, 8 * (kClass c.a.fmt).getD 16)] | _ => []

/-- A poisoned line among those a command reads (17 R222). -/
def State.badRead (s : State) (k : Nat) (c : MCmd) : Option Nat :=
  (c.reads.flatMap fun r => (linesOf (coreBase k + r.1) r.2).map (64 * ·)).find? s.poisoned

/-- Element k of row i. -/
def MOperand.value (o : MOperand) (rows : List (List Byte)) (i k : Nat) : FVal :=
  match o with
  | .none => .nan false
  | .regs _ f _ => matDecode f 127 (rows.getD i []) k
  | .rows _ f sc => matDecode f sc (rows.getD i []) k

/-- Position nibble k of row i of the metadata (13 R175). -/
def nibble (md : List Byte) (kk i k : Nat) : Nat := byteOf md (i * kk / 2 + k / 2) / 16 ^ (k % 2) % 16

/-- The metadata is good: bit 3 clear, positions ascending within a group (13 R175). -/
def mdOk (md : List Byte) (kk n : Nat) : Bool :=
  (List.range 16).all fun i => (List.range kk).all fun k =>
    decide (nibble md kk i k < 8) && (k % n == 0 || decide (nibble md kk i (k - 1) < nibble md kk i k))

/-- FusedDot over the dense positions `pos` gives for each row (13 R174, R175). -/
def MRun.product (r : MRun) (kk : Nat) (pos : Nat → Nat → Nat) : List (BitVec 32) :=
  (List.range 16).flatMap fun i => (List.range 16).map fun j =>
    BitVec.ofNat 32 (fusedDot ((List.range kk).map fun k =>
      let p := pos i k
      (r.cmd.a.value r.aRows i k, r.cmd.b.value r.bRows (16 * (p / kk) + j) (p % kk)))
      (decodeF FP32 (r.acc.getD (16 * i + j) 0).toNat))

/-- The accumulator a command leaves, or a deferred error (13 R173 to R177). -/
def MRun.result (r : MRun) : Except Cause (List (BitVec 32)) :=
  let kk := (kClass r.cmd.a.fmt).getD 16
  match r.cmd.kind with
  | .zero => .ok (List.replicate 256 0)
  | .mma | .mmar => .ok (r.product kk fun _ k => k)
  | .mmas n => if mdOk r.md kk n then .ok (r.product kk fun i k => 8 * (k / n) + nibble r.md kk i k) else .error 0x65
  | .sta => .ok r.acc
  | .lda =>
    .ok ((List.range 16).flatMap fun i => (List.range 16).map fun j =>
      let row := r.aRows.getD i []
      if r.cmd.a.fmt = 0 then BitVec.ofNat 32 (leNat ((row.drop (4 * j)).take 4))
      else BitVec.ofNat 32 (roundTo FP32 .rne false (r.cmd.a.value r.aRows i j)).1)

/-- The bytes MSTA writes into row i (13 R177). -/
def MRun.storeRow (r : MRun) (i : Nat) : List Byte :=
  let xs := (r.acc.drop (16 * i)).take 16
  match r.cmd.a with
  | .rows _ f sc => if f = 0 then xs.flatMap fun x => bytesOf 4 x.toNat else encodeRow f sc 0 (xs.map fun x => decodeF FP32 x.toNat)
  | _ => []

/-- How long a command occupies the unit (13 R172): by the most rows that lie in one bank. -/
def MCmd.occupancy (c : MCmd) : Nat :=
  let b := (List.range 16).foldl (fun m k => max m (c.bankRows.count k)) 0
  match c.kind with
  | .zero => 1 | .lda | .sta => max 16 b | _ => max 4 b

/-! ### The unit -/

/-- Accumulator n of a thread, and its writing, which covers the lines of its image (17 R222). -/
def State.accOf (s : State) (t n : Nat) : List (BitVec 32) := (List.range 256).map fun i => (s.thread t).acc.get 0 (256 * n + i)
def State.setAcc (s : State) (t n : Nat) (l : List (BitVec 32)) : State :=
  (s.endPoison (coreBase (coreOf t) + 0x510000 + 0x1000 * laneOf t + 1024 * n) (4 * l.length)).modThread t fun th =>
    { th with acc := (l.zipIdx).foldl (fun m p => m.set 0 (256 * n + p.2) p.1) th.acc }

/-- The unit is free for the next command. -/
def State.unitFree (s : State) (k : Nat) (c : MCmd) : State :=
  ((s.modCore k fun x => { x with mrun := none }).copyGone k c.copy).owe s.now .matrixCommandStart (Arg.num k)

/-- A command fails: the error is recorded for its thread, and the commands queued behind it and the follow-ons of the thread's
copies are discarded (13 R166). -/
def State.matrixFail (s : State) (k : Nat) (c : MCmd) (e : Cause) : State :=
  let gone := (s.core k).mq.filter fun m => m.tid == c.tid
  let s := s.modThread c.tid fun th => { th with mxErr := some ⟨e, c.pc⟩ }
  let s := gone.foldl (fun s m => s.copyGone k m.copy) (s.modCore k fun x =>
    { x with mq := x.mq.filter fun m => m.tid != c.tid
             copies := x.copies.map fun y => if y.tid = c.tid then { y with follow := none } else y })
  s.unitFree k c

/-- The sender of the tile a core receives: A from the east, B from the south (13 R176). -/
def tileFrom (k : Nat) (isB : Bool) : Nat := torusCore k (if isB then .s else .e)

/-- A tile that a sender still holds is tried again. -/
def State.oweTile (s : State) (k : Nat) (isB : Bool) (at' : Nat) : State :=
  if (if isB then (s.core (tileFrom k true)).outB else (s.core (tileFrom k false)).outA).isEmpty then s
  else s.owe at' .mmarTileArrival { Arg.num k with yes := isB }

/-- The unit takes the next command and reads its operands and accumulator; a command of a thread with a recorded error is
discarded (13 R166, R172). One that meets a poisoned line fails with the 0x91 of a load there (DESIGN CHOICE, log entry 54). -/
def State.matrixStart (s : State) (k : Nat) : State :=
  let x := s.core k
  match x.mrun, x.mq with
  | none, c :: rest =>
    let s := s.modCore k fun x => { x with mq := rest }
    if (s.thread c.tid).mxErr.isSome then s.unitFree k c
    else match s.badRead k c with
    | some loc => (s.touchPoison loc (s.thread c.tid).asid).matrixFail k c 0x91
    | none =>
      let io := c.kind.io
      let kk := (kClass c.a.fmt).getD 16
      let e := s.now + c.occupancy
      let rot := decide (c.kind = .mmar)
      let ra := if c.kind = .sta then ([], s) else s.readRows k io c.a
      let rb := ra.2.readRows k io c.b
      let rm := match c.kind with | .mmas _ => rb.2.readRow k (coreBase k + c.md) (8 * kk) | _ => ([], rb.2)
      let s := rm.2
      let run : MRun :=
        { cmd := c, acc := s.accOf c.tid c.acc, aRows := ra.1, bRows := rb.1, md := rm.1
          endAt := e, sentAt := none
          gotA := if rot then x.rotA else none, gotB := if rot then x.rotB else none }
      let s := s.modCore k fun x =>
        { x with mrun := some run, rotA := if rot then none else x.rotA, rotB := if rot then none else x.rotB }
      let s := s.owe e .matrixCommandEnd (Arg.num k)
      if rot then (s.oweTile k false s.now).oweTile k true s.now else s
  | _, _ => s

/-- Write rows of the own local store for path M; `grp` numbers the command. -/
def State.writeRows (s : State) (k : Nat) (t grp : Nat) (l : List (Nat × List Byte)) : State :=
  l.foldl (fun s p => (s.dropPast k (coreBase k + p.1) p.2.length).writeLoc (coreBase k + p.1) p.2 true (s.thread t).asid t none 0
    grp) s

/-- An arriving tile is written where the operand's fields name; rows of another length keep what they do not share (13 R176;
log entry 26). -/
def State.writeTile (s : State) (k t grp : Nat) (o : MOperand) (tile : List (List Byte)) : State :=
  match o with
  | .none => s
  | .rows offs f _ => s.writeRows k t grp ((offs.zip tile).map fun p => (p.1, p.2.take (tileRow false f)))
  | .regs base _ _ =>
    (tile.zipIdx).foldl (fun s p =>
      let v := (s.thread t).winBase + base + p.2 / 2
      let o := 32 * (p.2 % 2)
      ((p.1.take 32).zipIdx).foldl (fun s q => s.putImgV k v (o + q.2) q.1) (s.coverReg k v o (o + min 32 p.1.length) grp)) s

/-- An MMAR whose tiles have both come, and whose own are delivered, writes them and its accumulator and ends (13 R176). -/
def State.mmarTry (s : State) (k : Nat) : State :=
  let x := s.core k
  match x.mrun with
  | some r =>
    match r.sentAt, r.gotA, r.gotB, r.result with
    | some _, some a, some b, .ok acc =>
      if x.outA.isEmpty && x.outB.isEmpty then
        let c := r.cmd
        let w := s.fresh
        (((w.2.writeTile k c.tid (2 * w.1) c.a a).writeTile k c.tid (2 * w.1) c.b b).setAcc c.tid c.acc acc).unitFree k c
      else s
    | _, _, _, _ => s
  | none => s

/-- NBOUND of a core's NPCTL. -/
def State.nbound (s : State) (c : Nat) : Nat := (s.regAt c kNPCTL).toNat % 2 ^ 32

/-- After its occupancy a command writes its accumulator or rows; an MMAR sends its tiles (13 R172 to R177). -/
def State.matrixEnd (s : State) (k : Nat) : State :=
  match (s.core k).mrun with
  | none => s
  | some r =>
    let c := r.cmd
    if s.now < r.endAt then s.owe r.endAt .matrixCommandEnd (Arg.num k)
    else match c.kind with
    | .mmar =>
      if r.sentAt.isSome then s
      else
        let s := s.modCore k fun x =>
          { x with mrun := some { r with sentAt := some s.now }, outA := x.outA ++ [r.aRows], outB := x.outB ++ [r.bRows] }
        let s := s.owe (s.now + 2) .mmarTileArrival (Arg.num (torusCore k .w))
        let s := s.owe (s.now + 2) .mmarTileArrival { Arg.num (torusCore k .n) with yes := true }
        (s.owe (s.now + s.nbound k + 1) .mmarRotationTimeout (Arg.num k)).mmarTry k
    | .sta =>
      match c.a with
      | .rows offs _ _ =>
        let w := s.fresh
        (w.2.writeRows k c.tid (2 * w.1) ((offs.zipIdx).map fun p => (p.1, r.storeRow p.2))).unitFree k c
      | _ => s.unitFree k c
    | _ =>
      match r.result with
      | .ok acc => (s.setAcc c.tid c.acc acc).unitFree k c
      | .error e => s.matrixFail k c e

/-- A tile arrives: an MMAR that has read its operands and lacks it takes it, else the rotation buffer holds it, else the
sender waits (13 R176). -/
def State.tileArrive (s : State) (k : Nat) (isB : Bool) : State :=
  let f := tileFrom k isB
  match (if isB then (s.core f).outB else (s.core f).outA) with
  | [] => s
  | tile :: rest =>
    let x := s.core k
    let sent (s : State) : State := s.modCore f fun y => if isB then { y with outB := rest } else { y with outA := rest }
    let lacks := match x.mrun with
      | some r => decide (r.cmd.kind = MKind.mmar) && (if isB then r.gotB else r.gotA).isNone
      | none => false
    if lacks then
      (((sent s).modCore k fun y => { y with mrun := y.mrun.map fun (r : MRun) =>
        if isB then { r with gotB := some tile } else { r with gotA := some tile } }).mmarTry k).mmarTry f
    else if (if isB then x.rotB else x.rotA).isNone then
      ((sent s).modCore k fun y => if isB then { y with rotB := some tile } else { y with rotA := some tile }).mmarTry f
    else s

/-- An MMAR whose tiles have not both arrived within NBOUND of its computation ends with 0x66 (13 R176). -/
def State.rotationTimeout (s : State) (k : Nat) : State :=
  match (s.core k).mrun with
  | none => s
  | some r =>
    match r.sentAt with
    | none => s
    | some a =>
      if r.gotA.isSome && r.gotB.isSome then s
      else if s.now ≤ a + s.nbound k then s.owe (a + s.nbound k + 1) .mmarRotationTimeout (Arg.num k)
      else s.matrixFail k r.cmd 0x66

def execMatrixCommandStart (s : State) : Out1 := .next (s.matrixStart s.arg.n)
def execMatrixCommandEnd (s : State) : Out1 := .next (s.matrixEnd s.arg.n)
def execMmarTileArrival (s : State) : Out1 := .next (s.tileArrive s.arg.n s.arg.yes)
def execMmarRotationTimeout (s : State) : Out1 := .next (s.rotationTimeout s.arg.n)

end Sys2Proof.Machine
end

