-- ==== Sys2Proof/Machine/Copy.lean ====
section
/-!
DEFINITION. The copy engine: CPY and CPYM (13 R178, R179, R182 to R184), the running command (R180, R181), CWAIT and CPOLL
(R185), and deferred copy errors (R166).
-/

namespace Sys2Proof.Machine

/-! ### The descriptor (13 R179) -/

/-- 32-bit field k of a descriptor, signed. -/
def desc32 (b : List Byte) (k : Nat) : Int := sgn 32 (leNat ((b.drop (4 * k)).take 4))
/-- 64-bit word k of a descriptor. -/
def desc64 (b : List Byte) (k : Nat) : Nat := leNat ((b.drop (8 * k)).take 8)

/-- Rows a command copies, and elements of a row. -/
def Copy.rows (c : Copy) : Nat := c.cnt.getD 1 0 * c.cnt.getD 2 0 * c.cnt.getD 3 0
def Copy.width (c : Copy) : Nat := c.cnt.getD 0 0

/-- The offset of row r under some strides (13 R180). -/
def Copy.rowOff (c : Copy) (str : List Int) (r : Nat) : Int :=
  let n1 := c.cnt.getD 1 1; let n2 := c.cnt.getD 2 1
  str.getD 0 0 * (r % n1 : Nat) + str.getD 1 0 * (r / n1 % n2 : Nat) + str.getD 2 0 * (r / (n1 * n2) : Nat)
def Copy.srcRow (c : Copy) (r : Nat) : Word := moveOff c.src (c.rowOff c.sstr r)
def Copy.dstRow (c : Copy) (r : Nat) : Word := moveOff c.dst (c.rowOff c.dstr r)

/-- Bytes a raw command moves. -/
def Copy.total (c : Copy) : Nat := c.rows * c.width * c.esz

/-- The command a descriptor asks for. ESZ holds the logarithm of the size (log entry 27). -/
def State.copyOf (s : State) (t : Nat) (k : RClass) (tag : Nat) (dst src a : Word) (b : List Byte) : Copy :=
  let th := s.thread t
  let f := desc64 b 4
  { id := s.nextId, tid := t, tag := tag, cls := k, src := src, dst := dst
    segS := th.seg.get 0 (selOf src), segD := th.seg.get 0 (selOf dst), at' := a
    cnt := (List.range 4).map fun i => bitsOf (desc64 b 0) (16 * i) 16
    sstr := [desc32 b 2, desc32 b 3, desc32 b 4], dstr := [desc32 b 5, desc32 b 6, desc32 b 7]
    esz := 2 ^ bitsOf f 0 2, conv := bitsOf f 2 1 = 1, bcast := bitsOf f 3 2
    cb := if bitsOf f 5 1 = 1 then some (bitsOf f 6 4) else none
    dshift := bitsOf f 10 4, follow := none, asid := th.asid, priv := th.privileged, started := false, fmts := []
    got := [], reads := [], part := [], done := [], page := false, ring := none, posted := false, landed := false }

/-- The GVA of an on-chip core window: its die, cluster and core (13 R182). -/
def coreWindow (gva : Nat) : Option Nat :=
  if gva / 2 ^ 56 = 1 ∧ gva / 2 ^ 51 % 2 = 0 ∧ gva / 2 ^ 52 % 16 < 8 then
    some (gva / 2 ^ 52 % 16 * 1024 + gva / 2 ^ 45 % 64 * 16 + gva / 2 ^ 41 % 16)
  else none

/-- The cores a broadcast reaches: core k of the 16 clusters of a router row (1) or column (2) of one die (13 R182). -/
def bcastCores (kind core : Nat) : List Nat :=
  let cl := core / 16 % 64
  ((List.range 64).filter fun x =>
    if kind = 1 then x / 8 / 2 == cl / 8 / 2 else x % 8 / 2 == cl % 8 / 2).map fun x => core / 1024 * 1024 + x * 16 + core % 16

/-- The GVAs a destination stands for: itself, or the same offset of each core of the broadcast. -/
def Copy.targets (c : Copy) (gva : Nat) : List Nat :=
  if c.bcast = 0 then [gva]
  else match coreWindow gva with
    | some k => (bcastCores c.bcast k).map fun x => coreBase x + gva % 2 ^ 41
    | none => [gva]

/-- The descriptor faults found at issue, 0x60 (13 R179, R182, R183); `b` is the descriptor. -/
def State.copyBad (s : State) (m : Bool) (c : Copy) (b : List Byte) : Bool :=
  let f := desc64 b 4
  let dstGva := gvaOf c.segD (offOf c.dst)
  c.cnt.any (· == 0) || f / 2 ^ 14 != 0 || desc64 b 5 / 2 ^ 32 != 0 || desc64 b 6 != 0 || desc64 b 7 != 0
    || c.bcast == 3 || (bitsOf f 5 1 == 0 && bitsOf f 6 4 != 0) || (!m && desc64 b 5 != 0)
    || (c.cb.isSome && (c.bcast != 0 || c.conv || c.dstr.any (· != 0)))
    || (!c.conv && c.dshift != 0)
    || (c.bcast != 0 && match coreWindow dstGva with
        | none => true
        | some k => (bcastCores c.bcast k).any fun x =>
          (s.core (coreOf c.tid)).comp.isNone || (s.core x).comp != (s.core (coreOf c.tid)).comp)
    || (c.cb.isSome && ((coreWindow dstGva).isNone || dstGva % 2 ^ 41 != 0))

/-- Lowest offset and length of an endpoint of a raw command. -/
def Copy.span (c : Copy) (str : List Int) : Int × Nat :=
  let part (i : Nat) : Int := str.getD i 0 * ((c.cnt.getD (i + 1) 1 : Nat) - 1 : Int)
  let lo := min 0 (part 0) + min 0 (part 1) + min 0 (part 2)
  let hi := max 0 (part 0) + max 0 (part 1) + max 0 (part 2) + (c.width * c.esz : Nat)
  (lo, (hi - lo).toNat)

/-- The segment check of an endpoint over its range, with the address of its lowest byte. -/
def spanErr (g : BitVec 128) (a : Word) (sp : Int × Nat) (n : Need) : Option Err :=
  let w := moveOff a sp.1
  (segCause g (selOf w) (offOf w) sp.2 n).map fun c => ⟨c, w⟩

/-- The first element of a raw command that is not a multiple of ESZ. -/
def Copy.alignErr (c : Copy) (a : Word) (str : List Int) : Option Err :=
  if offOf a % c.esz ≠ 0 then some ⟨0x38, a⟩
  else ((List.range 3).find? fun i => decide (1 < c.cnt.getD (i + 1) 1) && str.getD i 0 % (c.esz : Int) != 0).map
    fun i => ⟨0x38, moveOff a (str.getD i 0)⟩

def firstOf {α : Type} : List (Option α) → Option α
  | [] => none
  | some x :: _ => some x
  | none :: r => firstOf r

/-- Steps 3 and 4 for a command that does not convert (13 R178). -/
def Copy.rawErr (c : Copy) : Option Err :=
  firstOf [spanErr c.segS c.src (c.span c.sstr) needR, spanErr c.segD c.dst (c.span c.dstr) needW,
    c.alignErr c.src c.sstr, c.alignErr c.dst c.dstr]

/-- FOLLOW holds a word of the MATRIX group that is not MMAR (13 R184). -/
def followOk (w : Nat) : Bool := w % 128 == 0x31 && w / 2 ^ 29 != 2

/-! ### Issue (13 R178, R184) -/

/-- A command of the tag is outstanding. -/
def State.tagBusy (s : State) (t tag : Nat) : Bool := (s.core (coreOf t)).copies.any fun c => c.tid == t && c.tag == tag

/-- A copy with its checks passed enters the queue, and its instruction completes as a load of the descriptor (13 R167). The
follow-on of one that its thread issued before the report of a recorded matrix error is discarded (R166). -/
def State.copyIn (s : State) (c : Copy) : State :=
  let k := coreOf c.tid
  let c := if (s.thread c.tid).mxErr.isSome then { c with follow := none } else c
  ((({ s with nextId := s.nextId + 1 }).modCore k fun x => { x with copies := x.copies ++ [c] }).owe s.now .copyStart
    (Arg.num2 k c.id)).finish c.tid 4 class2

/-- The descriptor's words as a parked instruction keeps them. -/
def descWords (b : List Byte) : List (Nat × List Byte) := (List.range 8).map fun i => (8 * i, (b.drop (8 * i)).take 8)

/-- CPY and CPYM: at issue they read the descriptor and make the checks of 13 R178 in its order; then they park on a busy tag or a
full queue with what they have read, and queue the command (DEDUCED, log entry 27). A command holds its queue entry until it and its
follow-on are over (DESIGN CHOICE, log entry 52: R178 does not say whether a running command still holds one). -/
def State.cpy (s : State) (t : Nat) (m : Bool) (k : RClass) (tag : Nat) (dst src a : Word) (sn : Option Snap)
    (got : List (Nat × List Byte)) : State :=
  let snap := sn.getD (s.snap t)
  let act := Act.cpy m k tag dst src a (some snap)
  match s.readBlock t act a 64 8 k got with
  | .error s => s
  | .ok (b, s) =>
    let c := s.copyOf t k tag dst src a b
    let w := desc64 b 5
    let enter (c : Copy) : State :=
      if s.tagBusy t tag || decide (16 ≤ (s.core (coreOf t)).copies.length) then s.waitFor t act .cond [] (descWords b)
      else s.copyIn c
    if s.copyBad m c b then s.trap t 0x60 a
    else if m && !followOk w then s.trap t 0x60 (BitVec.ofNat 64 w)
    else match (if c.conv then none else c.rawErr) with
    | some e => s.trap t e.cause e.tval
    | none =>
      if !m then enter c
      else match decodeWord (BitVec.ofNat 32 w) with
      | .error .reservedMajor => s.trap t 0x01 (BitVec.ofNat 64 w)
      | .error .unassigned => s.trap t 0x02 (BitVec.ofNat 64 w)
      | .error .reservedBit => s.trap t 0x03 (BitVec.ofNat 64 w)
      | .ok i =>
        match mspecOf i with
        | none => s.trap t 0x60 (BitVec.ofNat 64 w)
        | some sp =>
          match s.prepare t snap sp with
          | .error e => s.trap t e.1 (BitVec.ofNat 64 w)
          | .ok f => enter { c with follow := some f }

def execCpy (k : RClass) (tag : Fin 8) (d b e : Reg) (s : State) : Out1 :=
  .next (s.cpy s.cur false k tag.val (s.g d) (s.g b) (s.g e) none [])
def execCpym (k : RClass) (tag : Fin 8) (d b e : Reg) (s : State) : Out1 :=
  match s.th.mxErr with
  | some x => .next (s.reportMatrix s.cur x)
  | none => .next (s.cpy s.cur true k tag.val (s.g d) (s.g b) (s.g e) none [])

/-! ### Conversion (13 R181) -/

/-- The bank of a local store that holds a GVA: core·16 + bank. -/
def bankOf (gva : Nat) : Option Nat :=
  match decodeWin gva with
  | some (.core c off) => if off < 0x100000 then some (c * 16 + off / 0x10000) else none
  | _ => none

/-- Format and scale of a row that lies within one bank whose format is not RAW. -/
def Copy.rowFmt (c : Copy) (gva : Nat) : Option (Nat × Nat) :=
  match bankOf gva with
  | none => none
  | some b =>
    match c.fmts.find? (fun p => p.1 == b) with
    | none => none
    | some p =>
      let f := p.2 % 16
      if f = 0 ∨ 0x10000 < gva % 0x10000 + rowBytes f c.width then none else some (f, p.2 / 256 % 256)

/-- How a row pair converts: source and destination formats with their scales. -/
structure Conv where
  sf : Nat
  ss : Nat
  df : Nat
  ds : Nat
  deriving DecidableEq, Repr

/-- The conversion of a row pair; none where it is copied raw. -/
def Copy.pair (c : Copy) (sg dg : Nat) : Option Conv :=
  match c.rowFmt sg, c.rowFmt dg with
  | some x, some y => if x.1 = y.1 then none else some ⟨x.1, x.2, y.1, y.2⟩
  | _, _ => none

def Copy.srcGva (c : Copy) (r : Nat) : Nat := gvaOf c.segS (offOf (c.srcRow r))
def Copy.dstGvas (c : Copy) (r : Nat) : List Nat := c.targets (gvaOf c.segD (offOf (c.dstRow r)))

/-- The pairs of a row, one for each target. -/
def Copy.pairs (c : Copy) (r : Nat) : List (Option Conv) :=
  if c.conv then (c.dstGvas r).map (c.pair (c.srcGva r)) else [none]

/-- The conversions among them, and whether some target takes the row raw. -/
def Copy.convs (c : Copy) (r : Nat) : List Conv := (c.pairs r).filterMap fun p => p
def Copy.rawPair (c : Copy) (r : Nat) : Bool := (c.pairs r).any Option.isNone

/-- A converted row (13 R181). -/
def convertRow (n : Nat) (p : Conv) (dshift : Nat) (row : List Byte) : List Byte :=
  encodeRow p.df p.ds dshift ((List.range n).map (matDecode p.sf p.ss row))

def isDxb (f : Nat) : Bool := f == 8 || f == 9

/-- The checks a converting command makes at its start: first those of 13 R179, then the segments over each endpoint's range,
then alignment (R178). -/
def Copy.startErr (c : Copy) : Option Err :=
  let rs := List.range c.rows
  let ps := rs.flatMap c.convs
  let bad := ps.any (fun p => (isDxb p.sf || isDxb p.df) && c.width % 32 != 0)
    || ps.any (fun p => isDxb p.df && c.dshift == 0) || (c.dshift != 0 && !ps.any fun p => isDxb p.df)
  -- bytes of a row and of its elements, for each pair of the row
  let src (r : Nat) : List (Nat × Nat) := (c.pairs r).map fun p =>
    match p with | some p => (rowBytes p.sf c.width, elemBytes p.sf) | none => (c.width * c.esz, c.esz)
  let dst (r : Nat) : List (Nat × Nat) := (c.pairs r).map fun p =>
    match p with | some p => (rowBytes p.df c.width, elemBytes p.df) | none => (c.width * c.esz, c.esz)
  let range (str : List Int) (l : Nat → List (Nat × Nat)) : Int × Nat :=
    let lo := rs.foldl (fun m r => min m (c.rowOff str r)) 0
    let hi := rs.foldl (fun m r => (l r).foldl (fun m p => max m (c.rowOff str r + (p.1 : Nat))) m) lo
    (lo, (hi - lo).toNat)
  let al (row : Nat → Word) (l : Nat → List (Nat × Nat)) : Option Err :=
    (rs.find? fun r => (l r).any fun p => offOf (row r) % p.2 != 0).map fun r => ⟨0x38, row r⟩
  if bad then some ⟨0x60, c.at'⟩
  else firstOf [spanErr c.segS c.src (range c.sstr src) needR, spanErr c.segD c.dst (range c.dstr dst) needW,
    al c.srcRow src, al c.dstRow dst]

/-! ### The running command -/

/-- Change a copy of a core. -/
def State.modCopy (s : State) (k id : Nat) (f : Copy → Copy) : State :=
  s.modCore k fun x => { x with copies := x.copies.map fun c => if c.id = id then f c else c }
def State.copy? (s : State) (k id : Nat) : Option Copy := (s.core k).copies.find? fun c => c.id == id

/-- A copy ends in error: its tag records the cause and the address, its follow-on is discarded (13 R166). An error that the tag still
held unreported from an earlier command is lost (DESIGN CHOICE, log entry 52: R166 does not say which of the two stands). -/
def State.copyFail (s : State) (k : Nat) (c : Copy) (e : Err) : State :=
  (s.modThread c.tid fun th => { th with cpErr := th.cpErr.set none c.tag (some e) }).copyGone k (some c.id)

/-- What stops an element of a copy. -/
inductive CStop where
  | fail (e : Err)
  | page (gva : Nat) (n : Need) (tv : Word)
  deriving DecidableEq, Repr

/-- A request of an access of a copy stands in the fabric. -/
def State.copyAsked (s : State) (c : Copy) (write : Bool) (u i : Nat) : Bool :=
  s.net.any fun r => r.src == .copy c.tid c.id u i && r.isWrite == write
/-- A write of a piece stands in the fabric. -/
def State.copyWriting (s : State) (c : Copy) (u : Nat) : Bool :=
  s.net.any fun r => r.isWrite && match r.src with | .copy t id v _ => t == c.tid && id == c.id && v == u | _ => false

/-- An access of a copy is sent on its way, as its class and target ask (13 R178; 21 R242, R243; 17 R219). -/
def State.copySend (s : State) (c : Copy) (u i : Nat) (op : ROp) (a : Word) (gva loc : Nat) : State :=
  s.inject { s.newReq (.copy c.tid c.id u i) (clusterOf (coreOf c.tid)) c.cls op a gva loc c.asid c.priv with grp := c.id }

/-- Translate an element's address at the issuing cluster's port (13 R180). -/
def State.copyPlace (s : State) (c : Copy) (gva : Nat) (a : Word) (z : Nat) (k : AKind) (n : Need) : Except CStop Nat × State :=
  match s.locate (clusterOf (coreOf c.tid)) c.asid c.priv gva z k n with
  | (.bad e, s) => (.error (.fail ⟨e, a⟩), s)
  | (.absent g, s) => (.error (.page g n a), s)
  | (.ok loc, s) => (.ok loc, s)

/-- The location is read by an engine at once: the own local store, a slice or HBM of this package. -/
def State.readAtOnce (s : State) (k loc : Nat) : Bool :=
  match s.placeOf loc with | some (.slice _ _) | some (.hbm _ _) => true | _ => inLs k loc

/-- Access i of a piece's source: its bytes where it is read at once, the stamps of its lines merged (21 R244); else a request. -/
def State.copyRead (s : State) (c : Copy) (u i : Nat) (x : Word × Nat × Nat) : Copy × Option CStop × State :=
  let k := coreOf c.tid
  match s.copyPlace c x.2.1 x.1 (min x.2.2 8) .load needR with
  | (.error e, s) => (c, some e, s)
  | (.ok loc, s) =>
    if !s.readAtOnce k loc then (c, none, s.copySend c u i (.read x.2.2) x.1 x.2.1 loc)
    else if s.poisonedIn loc x.2.2 then (c, some (.fail ⟨0x91, x.1⟩), s.touchLines loc x.2.2 c.asid)
    else
      let r := (s.mergeStamp (dieOf k) (s.stampOf loc x.2.2)).engineRead k pathC loc x.2.2
      ({ c with got := (u, i, r.1) :: c.got }, none, r.2)

/-- Make the accesses of a piece's source that are neither made nor on their way. -/
def State.copyReads (s : State) (c : Copy) (u : Nat) : List ((Word × Nat × Nat) × Nat) → Copy × Option CStop × State
  | [] => (c, none, s)
  | x :: r =>
    if (c.got.any fun g => g.1 == u && g.2.1 == x.2) || s.copyAsked c false u x.2 then s.copyReads c u r
    else match s.copyRead c u x.2 x.1 with
    | (c, none, s) => s.copyReads c u r
    | y => y

/-- Write a piece's bytes at one place: in the own local store at once, elsewhere by a request. -/
def State.copyWrite (s : State) (c : Copy) (u i gva : Nat) (a : Word) (b : List Byte) : Option CStop × State :=
  match s.copyPlace c gva a (min b.length 8) .store needW with
  | (.error e, s) => (some e, s)
  | (.ok loc, s) =>
    if inLs (coreOf c.tid) loc then
      (none, ((s.touchLines loc b.length c.asid).dropPast (coreOf c.tid) loc b.length).writeLoc loc b c.priv c.asid c.tid none 0 (2 * c.id))
    else (none, s.copySend c u i (.write b) a gva loc)

/-- The pieces in which a copy works: an element of a raw row is row·width + index; a row that converts for some target is one
piece, its index 0. -/
def Copy.units (c : Copy) : List Nat :=
  (List.range c.rows).flatMap fun r =>
    if (c.convs r).isEmpty then (List.range c.width).map (r * c.width + ·) else [r * c.width]

/-- Offsets of the accesses, z bytes each, that a run of n bytes takes. -/
def steps (n z : Nat) : List Nat := (List.range (n / z)).map (· * z)

/-- Address, GVA and length of each access a piece's source takes. A row that converts is read by the elements of its format,
and, where a broadcast also takes it raw, by ESZ-byte elements behind them (13 R181, R182). -/
def Copy.unitSrc (c : Copy) (u : Nat) : List (Word × Nat × Nat) :=
  let r := u / c.width
  let run (n z : Nat) : List (Word × Nat × Nat) :=
    (steps n z).map fun o => (moveOff (c.srcRow r) (o : Nat), c.srcGva r + o, z)
  match c.convs r with
  | p :: _ => run (rowBytes p.sf c.width) (elemBytes p.sf) ++ (if c.rawPair r then run (c.width * c.esz) c.esz else [])
  | [] => let a := moveOff (c.srcRow r) (u % c.width * c.esz : Nat); [(a, gvaOf c.segS (offOf a), c.esz)]

/-- What a piece writes at each target: the GVA, the address and the bytes. A target of a converting row that does not convert
itself takes the row raw, element by element. -/
def Copy.unitDst (c : Copy) (u : Nat) (b : List Byte) : List (Nat × Word × List Byte) :=
  let r := u / c.width
  let a := c.dstRow r
  match c.convs r with
  | [] =>
    let a := moveOff a (u % c.width * c.esz : Nat)
    (c.targets (gvaOf c.segD (offOf a))).map fun g => (g, a, b)
  | x :: _ =>
    let n := rowBytes x.sf c.width
    ((c.dstGvas r).zip (c.pairs r)).flatMap fun p =>
      match p.2 with
      | some q =>
        let v := convertRow c.width q c.dshift (b.take n)
        (steps v.length (elemBytes q.df)).map fun o =>
          (p.1 + o, moveOff a (o : Nat), (v.drop o).take (elemBytes q.df))
      | none => (List.range c.width).map fun i =>
        (p.1 + i * c.esz, moveOff a (i * c.esz : Nat), (b.drop (n + i * c.esz)).take c.esz)

/-- Write what piece u writes, but for what it has written before; each place written, or on its way, is recorded. -/
def State.copyPuts (s : State) (c : Copy) (u : Nat) : List ((Nat × Word × List Byte) × Nat) → Copy × Option CStop × State
  | [] => (c, none, s)
  | p :: r =>
    if c.part.contains (u, p.1.1) then s.copyPuts c u r
    else match s.copyWrite c u p.2 p.1.1 p.1.2.1 p.1.2.2 with
      | (none, s) => s.copyPuts { c with part := (u, p.1.1) :: c.part } u r
      | (some e, s) => (c, some e, s)

/-- The bytes of a piece, once every access of its source has brought its own. -/
def Copy.bytesOf (c : Copy) (u : Nat) : Option (List Byte) :=
  (c.reads.find? fun p => p.1 == u).map (·.2) <|>
  ((List.range (c.unitSrc u).length).mapM fun i =>
    (c.got.find? fun g => g.1 == u && g.2.1 == i).map fun g => g.2.2).map List.flatten

/-- One piece: its bytes are read unless they were before, then written unless only a read is asked for. It is done once its
writes are performed. -/
def State.copyUnit (s : State) (c : Copy) (u : Nat) (readOnly : Bool) : Copy × Option CStop × State :=
  let x := if c.reads.any fun p => p.1 == u then (c, none, s) else s.copyReads c u (c.unitSrc u).zipIdx
  match x with
  | (c, some e, s) => (c, some e, s)
  | (c, none, s) =>
    match c.bytesOf u with
    | none => (c, none, s)
    | some b =>
      let c := { c with got := c.got.filter fun g => g.1 != u, reads := (u, b) :: c.reads.filter fun p => p.1 != u }
      if readOnly then (c, none, s)
      else match s.copyPuts c u (c.unitDst u b).zipIdx with
      | (c, none, s) =>
        if s.copyWriting c u then (c, none, s)
        else ({ c with reads := c.reads.filter fun p => p.1 != u, part := c.part.filter fun p => p.1 != u, done := u :: c.done },
          none, s)
      | x => x

/-- Pieces in order up to the first that stops. -/
def State.copyUnits (s : State) (c : Copy) (readOnly : Bool) : List Nat → Copy × Option CStop × State
  | [] => (c, none, s)
  | u :: r =>
    match s.copyUnit c u readOnly with
    | (c, none, s) => s.copyUnits c readOnly r
    | x => x

/-- A stopped copy: an error ends it, an absent page holds it. -/
def State.copyStop (s : State) (k : Nat) (c : Copy) (e : CStop) : State :=
  let s := s.modCopy k c.id fun _ => c
  match e with
  | .fail e => s.copyFail k c e
  | .page gva n tv =>
    match s.pageFault c.tid 2 gva n tv c.id with
    | some s => s.modCopy k c.id fun _ => { c with page := true }
    | none => s.copyFail k c ⟨0x36, tv⟩

/-- Every byte is performed: the copy is over, or its follow-on enters the matrix queue (13 R184). -/
def State.copyLanded (s : State) (k : Nat) (c : Copy) : State :=
  match c.follow with
  | none => (s.modCopy k c.id fun _ => c).copyGone k (some c.id)
  | some _ => (s.modCopy k c.id fun _ => { c with landed := true }).owe s.now .followOnEnqueue (Arg.num2 k c.id)

/-- The buffer a copy writes into: core and number. -/
def Copy.buffer (c : Copy) : Option (Nat × Nat) :=
  match c.cb with | none => none | some b => (coreWindow (gvaOf c.segD (offOf c.dst))).map fun k => (k, b)

/-- Another copy reached the same buffer before it (13 R183): copies of different cores arrive in the order in which they entered their
copy queues (DESIGN CHOICE, log entry 52: R183 does not say when one arrives). -/
def State.behind (s : State) (c : Copy) : Bool :=
  s.cores.entries.any fun x => x.2.copies.any fun y => y.buffer == c.buffer && y.buffer.isSome && decide (y.id < c.id)

/-- A command starts: it samples the formats of its banks in the cycle of its first element access (03 R28; 13 R181), and a
converting one makes its checks (R178). A deferred 0x67 is no access: the tag records g[A] with it (DESIGN CHOICE, log entry 52: R183 and
R166 name no address). -/
def State.copyStart (s : State) (k id : Nat) : State :=
  match s.copy? k id with
  | none => s
  | some c =>
    if c.started then s
    else if s.behind c then s.owe (s.now + 1) .copyStart (Arg.num2 k id)
    else
      let banks := if c.conv then ((List.range c.rows).flatMap fun r => bankOf (c.srcGva r) :: (c.dstGvas r).map bankOf) else []
      let c := { c with started := true, fmts := ((banks.filterMap fun b => b).eraseDups).map fun b => (b, (s.regAt (b / 16) (16 + b % 16)).toNat) }
      let s := s.modCopy k id fun _ => c
      match (if c.conv then c.startErr else none) with
      | some e => s.copyFail k c e
      | none =>
        match c.buffer with
        | none => s.owe s.now .copyComplete (Arg.num2 k id)
        | some (x, b) =>
          let size := s.regLast x (cbLow b)
          if ringSize size = 0 ∨ ringSize size < c.total then s.copyFail k c ⟨0x67, c.dst⟩
          else s.owe s.now .cbCopySpace (Arg.num2 k id)

/-- A running copy works on some pieces (on all that remain when none is named); `readOnly` only reads them. Once every piece is
written it has landed. -/
def State.copyWork (s : State) (k : Nat) (c : Copy) (readOnly : Bool) (nums : List Nat) : State :=
  let left := c.units.filter fun u => !c.done.contains u
  let us := if nums.isEmpty then left else nums.filter left.contains
  match s.copyUnits c readOnly us with
  | (c, some e, s) => s.copyStop k c e
  | (c, none, s) => if c.units.all c.done.contains then s.copyLanded k c else s.modCopy k c.id fun _ => c

/-- COPY_COMPLETE. -/
def State.copyComplete (s : State) (k id : Nat) (arg : Arg) : State :=
  match s.copy? k id with
  | none => s
  | some c => if !c.started || c.page || c.landed || (c.buffer.isSome && !arg.yes) then s else s.copyWork k c arg.yes arg.nums

/-- Bytes of a ring, wrapped at its size. -/
def ringPieces (base size pos : Nat) (b : List Byte) : List (Nat × List Byte) :=
  let n := min b.length (size - pos % size)
  [(base + pos % size, b.take n), (base, b.drop n)].filter fun p => !p.2.isEmpty

/-- What a copy into a circular buffer writes: its bytes from the ring position on. No segmented address names a byte of the ring: with a
write that is refused there the tag records g[A] (DESIGN CHOICE, log entry 52: R166 asks for the address of the access). -/
def Copy.ringPuts (c : Copy) (x : Nat) (ring : Nat × Nat × Nat) : List (Nat × Word × List Byte) :=
  c.units.flatMap fun u =>
    match c.reads.find? (fun p => p.1 == u) with
    | some p => (ringPieces (coreBase x + ring.1) ring.2.1 (ring.2.2 + u * c.esz) p.2).map fun q => (q.1, c.dst, q.2)
    | none => []

/-- The GVA of the high half of buffer b of a core (17 R218). -/
def cbGva (x b : Nat) : Nat := coreBase x + 0x6100C8 + 16 * b

/-- A copy into a circular buffer: it waits for space, once; then it writes its bytes from the ring position it found, and once they
are performed posts them by a write of the destination's service thread (13 R183, R187). -/
def State.cbCopy (s : State) (k id : Nat) : State :=
  match s.copy? k id with
  | none => s
  | some c =>
    match c.buffer with
    | none => s
    | some (x, b) =>
      let lo := s.regLast x (cbLow b)
      let hi := s.regLast x (cbHigh b)
      let found : Option (Nat × Nat × Nat) := c.ring <|>
        if ringSize lo < ringFill hi + c.total then none else some (ringBase lo, ringSize lo, ringPosted hi)
      if !c.started || c.page || c.landed || c.posted then s
      else match found with
      | none => if s.isSuspended k then s else s.owe (s.now + 1) .cbCopySpace (Arg.num2 k id)
      | some ring =>
        let c := { c with ring := some ring }
        match s.copyUnits c true (c.units.filter fun u => !c.reads.any fun p => p.1 == u) with
        | (c, some e, s) => s.copyStop k c e
        | (c, none, s) =>
          if c.units.any fun u => !c.reads.any fun p => p.1 == u then s.modCopy k id fun _ => c
          else match s.copyPuts c 0 (c.ringPuts x ring).zipIdx with
          | (c, some e, s) => s.copyStop k c e
          | (c, none, s) =>
            if s.copyWriting c 0 then s.modCopy k id fun _ => c
            else (s.modCopy k id fun _ => { c with posted := true }).copySend c 0 0 (.post b c.total) c.dst (cbGva x b) (cbGva x b)

/-- An access of a copy is answered: a cause ends the copy with the address refused (13 R166), else its piece goes on. -/
def State.copyAnswer (s : State) (t id u i : Nat) (r : Req) (a : Answer) : State :=
  let k := coreOf t
  match s.copy? k id with
  | none => s
  | some c =>
    match a with
    | .cause e => s.copyFail k c ⟨e, r.seg⟩
    | .bytes b =>
      let c := if r.isWrite then c else { c with got := (u, i, b) :: c.got }
      let s := s.modCopy k id fun _ => c
      if c.posted then s.copyLanded k c
      else if c.page then s
      else if c.buffer.isSome then s.owe s.now .cbCopySpace (Arg.num2 k id)
      else s.copyWork k c false [u]

/-- A follow-on enters the queue once it has room; its copy is over when it ends (13 R184, R185). A discarded one ends its copy
(R166). -/
def State.followOn (s : State) (k id : Nat) : State :=
  match s.copy? k id with
  | none => s
  | some c =>
    if !c.landed then s
    else match c.follow with
    | none => if (s.core k).mq.any (fun m => m.copy == some id) then s else
        match (s.core k).mrun with
        | some r => if r.cmd.copy = some id then s else s.copyGone k (some id)
        | none => s.copyGone k (some id)
    | some f =>
      if s.mqRoom k then (s.modCopy k id fun c => { c with follow := none }).enqueue { f with copy := some id }
      else s.owe (s.now + 1) .followOnEnqueue (Arg.num2 k id)

def execCopyStart (s : State) : Out1 := .next (s.copyStart s.arg.n s.arg.k)
def execCopyComplete (s : State) : Out1 := .next (s.copyComplete s.arg.n s.arg.k s.arg)
def execCbCopySpace (s : State) : Out1 := .next (s.cbCopy s.arg.n s.arg.k)
def execFollowOnEnqueue (s : State) : Out1 := .next (s.followOn s.arg.n s.arg.k)

/-! ### CWAIT and CPOLL (13 R185) -/

/-- Raise the recorded error of a tag, which trap entry then clears (13 R166; 27 R269). -/
def State.reportCopy (s : State) (t tag : Nat) (e : Err) : State :=
  (s.modThread t fun th => { th with cpErr := th.cpErr.set none tag none }).trap t e.cause e.tval

def State.cwait (s : State) (t tag : Nat) : State :=
  if s.tagBusy t tag then s.parkOn t (.cwait tag) .cond
  else match (s.thread t).cpErr.get none tag with
    | some e => s.reportCopy t tag e
    | none => s.finish t 4 class1

def execCwait (tag : Fin 8) (s : State) : Out1 := .next (s.cwait s.cur tag.val)

def execCpoll (tag : Fin 8) (d : Reg) (s : State) : Out1 :=
  let v := (if s.tagBusy s.cur tag.val then 1 else 0) +
    match s.th.cpErr.get none tag.val with | some e => 2 + 256 * e.cause.toNat | none => 0
  (s.modTh fun th => { th with cpErr := th.cpErr.set none tag.val none }).put d (BitVec.ofNat 64 v) class1

end Sys2Proof.Machine
end

