-- ==== Sys2Proof/Machine/Gateway.lean ====
section
/-!
DEFINITION. The edge of the package: flits (29 R282), Erg packets and gateways (R284, R285, R289, R290), token buckets (R287),
traffic groups (R288), and mailbox writes (15 R206; 29 R292). The payload layout of requests and the routing are not in the
manual; they are constants of Config (log entry 12).
-/

namespace Sys2Proof

/-! ### CRC-32 (IEEE 802.3) -/

def crcBit (c : BitVec 32) : BitVec 32 := if c.getLsbD 0 then (c >>> 1) ^^^ 0xEDB88320 else c >>> 1
def crcByte (c : BitVec 32) (b : Byte) : BitVec 32 :=
  (List.range 8).foldl (fun c _ => crcBit c) (c ^^^ b.zeroExtend 32)
def crc32 (l : List Byte) : BitVec 32 := ~~~(l.foldl crcByte (BitVec.allOnes 32))

/-! ### Packets (29 R284, R289, R290) -/

/-- A field of a header. -/
def Packet.f (p : Packet) (lo n : Nat) : Nat := bitsOf p.header.toNat lo n
def Packet.typ (p : Packet) : Nat := p.f 0 4
def Packet.cls (p : Packet) : Nat := p.f 4 2
def Packet.spkg (p : Packet) : Nat := p.f 44 12
def Packet.asid (p : Packet) : BitVec 12 := BitVec.ofNat 12 (p.f 64 12)
def Packet.seq (p : Packet) : Nat := p.f 96 32
def Packet.tag (p : Packet) : Nat := p.f 128 32
def Packet.addr (p : Packet) : Nat := p.f 160 64
def Packet.poison (p : Packet) : Bool := p.trailer.toNat / 2 ^ 32 % 256 == 0xA5

/-- The header check holds, and the length and CRC of the payload. -/
def Packet.headOk (p : Packet) : Bool := Config.headerCrc (p.header.toNat % 2 ^ 240) == BitVec.ofNat 16 (p.f 240 16)
def Packet.dataOk (p : Packet) : Bool := p.payload.length == 8 * p.f 12 9 && (crc32 p.payload).toNat == p.trailer.toNat % 2 ^ 32

/-- A packet is delivered: its checks hold, its TYPE is none reserved, and it is not poisoned, a poisoned reply excepted. -/
def Packet.sound (p : Packet) : Bool :=
  p.headOk && p.dataOk && decide (p.typ < 7)
    && (p.trailer.toNat / 2 ^ 32 % 256 == 0x5A || (p.poison && p.typ == 1)) && (p.cls != 3 || p.typ == 5)

/-- The gateway that serves a packet of this package, where it need not be the one it reached: mailbox m is served on die 8 + (m mod 2),
management on die 8 (15 R206; 29 R291, R293). -/
def Packet.served (p : Packet) (g : Nat) : Nat := if p.typ = 6 then p.addr % 64 % 2 else if p.typ = 5 then 0 else g

/-- Words of 8 bytes. -/
def byWords : List Byte → List (List Byte)
  | a :: b :: c :: d :: e :: f :: g :: h :: r => [a, b, c, d, e, f, g, h] :: byWords r
  | _ => []

/-- The compressed form: a bit per word, padded to 8 bytes, then the nonzero words. -/
def squeeze (l : List Byte) : List Byte :=
  let ws := byWords l
  bytesOf (8 * ((ws.length + 63) / 64)) (ws.foldr (fun w n => (if w.all (· == 0) then 0 else 1) + 2 * n) 0)
    ++ (ws.filter fun w => !w.all (· == 0)).flatMap id

/-- Words of a compressed payload: `n` of them, by the mask. -/
def spread (mask : Nat) : Nat → List (List Byte) → List Byte
  | 0, _ => []
  | n + 1, ws =>
    if mask % 2 = 1 then
      match ws with
      | w :: r => w ++ spread (mask / 2) n r
      | [] => bytesOf 8 0 ++ spread (mask / 2) n []
    else bytesOf 8 0 ++ spread (mask / 2) n ws

/-- The payload as the sender had it. -/
def Packet.data (p : Packet) : List Byte :=
  if p.f 6 1 = 0 then p.payload
  else
    let n := Config.expandedWords p.payload
    let m := 8 * ((n + 63) / 64)
    spread (Machine.leNat (p.payload.take m)) n (byWords (p.payload.drop m))

/-! ### Building packets (29 R284, R290) -/

/-- What a header holds besides LEN, CMP, SPKG and its CRC. -/
structure Head where
  typ : Nat
  cls : Nat
  group : Nat
  dpkg : Nat
  asid : Nat
  seq : Nat
  tag : Nat
  addr : Nat

/-- A packet with a payload as sent. -/
def Head.packet (h : Head) (spkg : Nat) (cmp : Bool) (b : List Byte) (poison : Bool) : Packet :=
  let lo := h.typ % 16 + 2 ^ 4 * (h.cls % 4) + (if cmp then 2 ^ 6 else 0) + 2 ^ 8 * (h.group % 16) + 2 ^ 12 * (b.length / 8 % 512)
    + 2 ^ 32 * (h.dpkg % 2 ^ 12) + 2 ^ 44 * (spkg % 2 ^ 12) + 2 ^ 64 * (h.asid % 2 ^ 12) + 2 ^ 96 * (h.seq % 2 ^ 32)
    + 2 ^ 128 * (h.tag % 2 ^ 32) + 2 ^ 160 * (h.addr % 2 ^ 64)
  ⟨BitVec.ofNat 256 (lo + 2 ^ 240 * (Config.headerCrc lo).toNat), b,
    BitVec.ofNat 64 ((crc32 b).toNat + 2 ^ 32 * (if poison then 0xA5 else 0x5A))⟩

/-- The header of a packet. -/
def Packet.head (p : Packet) : Head :=
  ⟨p.typ, p.cls, p.f 8 4, p.f 32 12, p.asid.toNat, p.seq, p.tag, p.addr⟩

/-- The compressed form of a packet, where it is the shorter one. A payload found damaged is sent on as it came: its CRC stays wrong (29
R289; DESIGN CHOICE, log entry 58). -/
def Packet.shorter (p : Packet) : Packet :=
  let z := squeeze p.payload
  if p.f 6 1 = 0 ∧ p.dataOk ∧ z.length < p.payload.length then p.head.packet p.spkg true z p.poison else p

/-- A packet whose error was found after its forwarding had begun: the end code is that of a poisoned one (29 R289). -/
def Packet.spoil (p : Packet) : Packet := { p with trailer := p.trailer &&& 0xFFFFFF00FFFFFFFF ||| 0xA500000000 }

/-- Bytes of a packet on a link, and the cycles it takes there: 100 bytes a nanosecond. -/
def Packet.size (p : Packet) : Nat := 40 + p.payload.length
def Packet.span (p : Packet) : Nat := max 1 ((p.size * 21 + 1999) / 2000)

end Sys2Proof

namespace Sys2Proof.Machine

/-! ### The clock and the owner (29 R291, R293) -/

/-- 2^-16 ns in a nanosecond, and in some cycles of 20/21 ns, rounded down (00 R9; log entry 51). -/
def nsUnit : Nat := 65536
def cycleUnits (dt : Nat) : Nat := dt * 20 * nsUnit / 21

/-- What the clock has slewed since its count was restarted: at most 500 ppm of the cycles since then (29 R291). -/
def State.slewed (s : State) : Int :=
  let most : Int := (cycleUnits (s.now - s.clock.baseAt) / 2000 : Nat)
  max (-most) (min most s.clock.slew)

/-- 1588 time: the cycles since the count was restarted, and what was slewed. -/
def State.time (s : State) : Time :=
  s.clock.base + BitVec.ofNat 80 (cycleUnits (s.now - s.clock.baseAt)) + BitVec.ofInt 80 s.slewed

/-- Its nanoseconds and its fraction (00 R9). -/
def State.timeNs (s : State) : BitVec 64 := (s.time >>> 16).truncate 64
def State.timeFrac (s : State) : BitVec 16 := s.time.truncate 16

/-- The time of some nanoseconds and 2^-16 ns. -/
def timeOf (ns frac : Nat) : Time := BitVec.ofNat 80 (nsUnit * ns + frac)

/-- 2^-16 ns from one time to another, as the nearer difference of two wrapping counts. -/
def timeTo (a b : Time) : Int := (b - a).toInt

/-- The owner, while its lease runs. -/
def State.owner (s : State) : Option Nat := if 0 < timeTo s.time s.mgmt.lease then s.mgmt.owner else none
/-- Whether Rambeod and the firmware serve: in recovery the device accepts a new image and nothing else (29 R294). -/
def State.serves (s : State) : Bool := !s.mgmt.recovery
/-- A host is the owner, and Rambeod serves it. -/
def State.owns (s : State) (h : Nat) : Bool := s.owner == some h && s.serves

/-! ### Mailboxes (15 R206; 29 R292) -/

/-- What a mailbox write is answered with. -/
inductive MailAnswer where
  | deny
  | full
  | ack (count : Nat)
  deriving DecidableEq, Repr

/-- A mailbox write: refused with DENY, answered receiver-not-ready while the ring is full, else placed and acknowledged with the
value HEAD held. -/
def State.mailboxPut (s : State) (m host : Nat) (msg : List Byte) : MailAnswer × State :=
  let x := s.mailboxes.get noMailbox m
  if !s.owns host || !s.resident || !x.valid || msg.length != 64 then (.deny, s)
  else if s.ringFull x.ring.toNat x.slots.toNat then (.full, s)
  else (.ack (s.ringHead x.ring.toNat), s.ringPut (512 + m % 2) 0xFFF x.ring.toNat x.slots.toNat x.wake.toNat msg)

/-- The same for a message that the surroundings hand to the serving gateway. -/
def State.mailboxWrite (s : State) (m host : Nat) (msg : List Byte) : State :=
  match s.mailboxPut m host msg with
  | (.deny, s) => s.tell (.deny host s.owner)
  | (.full, s) => s.tell (.mailRnr host m)
  | (.ack h, s) => s.tell (.mailAck host m (BitVec.ofNat 64 h))

def execMailboxWrite (s : State) : Out1 := .next (s.mailboxWrite s.arg.n s.arg.k s.arg.bytes)

/-! ### Receive buffers (29 R288) -/

/-- The entries of a buffer: at least 64, since the 2 that reset reserves for each of 16 groups are at most half of them. -/
def bufEntries (buf : Nat) : Nat := max 64 (Config.bufferEntries buf)

/-- MIN of a buffer: 2 for every group until set. -/
def State.minOf (s : State) (buf : Nat) : List Nat := s.mins.get (List.replicate 16 2) buf

def State.rxBuf (s : State) (buf : Nat) : RxBuf := s.rx.get RxBuf.init buf
def State.modRx (s : State) (buf : Nat) (f : RxBuf → RxBuf) : State := { s with rx := s.rx.set RxBuf.init buf (f (s.rxBuf buf)) }

/-- Entries that a group holds. -/
def RxBuf.held (b : RxBuf) (g : Nat) : Nat := b.used.getD g 0 + b.kept.getD g 0

/-- Entries that are taken: those that hold something, and those reserved for a group. -/
def RxBuf.taken (b : RxBuf) : Nat := ((List.range 16).map fun g => max (b.held g) (b.eff.getD g 0)).sum

/-- An entry is free for a group: kept for the replay of its own, reserved for it, or shared. The sender sends nothing that finds no
entry. -/
def State.rxRoom (s : State) (buf g : Nat) : Bool :=
  let b := s.rxBuf buf
  decide (0 < b.kept.getD g 0) || decide (b.held g < b.eff.getD g 0) || decide (b.taken < bufEntries buf)

/-- The reservation of a group grows towards its MIN, into entries that it holds or that are shared and free. -/
def RxBuf.grow (n : Nat) (m : List Nat) (b : RxBuf) (g : Nat) : RxBuf :=
  { b with eff := b.eff.set g (max (b.eff.getD g 0) (min (m.getD g 0) (max (b.held g) (b.eff.getD g 0) + (n - b.taken)))) }

/-- Reservations grow as entries free, in ascending order of the groups (DESIGN CHOICE, log entry 52: 29 R288 does not say which group
receives a freed entry). -/
def State.rxGrow (s : State) (buf : Nat) : State :=
  s.modRx buf fun b => (List.range 16).foldl (RxBuf.grow (bufEntries buf) (s.minOf buf)) b

/-- Rambeod sets the reserved entries of a buffer on the owner's request, unless they sum to more than half of its entries. A lower MIN
holds at once; a raised one takes effect as entries free. -/
def execTrafficMinSet (s : State) : Out1 :=
  let a := s.arg
  .next (if !s.owns a.n || decide (bufEntries a.k < 2 * a.nums.sum) then s.tell (.refusedSetting a.n)
    else (({ s with mins := s.mins.set (List.replicate 16 2) a.k a.nums }).modRx a.k fun b =>
      { b with eff := List.zipWith min b.eff a.nums }).rxGrow a.k)

/-- A flit or packet takes an entry, the one kept for it if there is one, until it is served. -/
def RxBuf.take (b : RxBuf) (g : Nat) : RxBuf :=
  { b with used := b.used.set g (b.used.getD g 0 + 1), kept := b.kept.set g (b.kept.getD g 0 - 1) }
/-- One discarded for its CRC keeps an entry until its replay arrives. -/
def RxBuf.keep (b : RxBuf) (g : Nat) : RxBuf := { b with kept := b.kept.set g (b.kept.getD g 0 + 1) }

/-- What the buffers hold is served within the cycle; kept entries stay. -/
def State.rxServed (s : State) : State :=
  s.rx.entries.foldl (fun s e => (s.modRx e.1 fun b => { b with used := List.replicate 16 0 }).rxGrow e.1) s

/-! ### Flits (29 R282) -/

/-- A die receives a prefix value of another (21 R243). -/
def State.takeBeacon (s : State) (src dst n : Nat) : State :=
  (s.modDie dst fun d => { d with p := d.p.set src n }).openGates dst

/-- The 256 bytes of a flit: routing word, beacon, its message, and the CRC over them. -/
def Flit.bytes (f : Flit) : List Byte :=
  let m := Config.flitPayload (f.msg.map fun d => (d.due, d.ev.what, d.ev.arg)) (f.stamp.map fun v => (v.1, v.2.full, v.2.mask, v.2.words))
  let b := bytesOf 8 (f.dst % 2 ^ 4 + 2 ^ 4 * (f.src % 2 ^ 4) + 2 ^ 8 * (f.group % 2 ^ 4) + 2 ^ 12 * (if f.beacon.isSome then 1 else 0))
    ++ bytesOf 8 (f.beacon.getD 0) ++ (List.range 236).map fun i => m.getD i 0
  b ++ bytesOf 4 (crc32 b).toNat

/-- Its routing word, and its reserved bits. -/
def flitRoute (b : List Byte) : Nat := leNat (b.take 8)
def flitGood (b : List Byte) : Bool := crc32 (b.take 252) == BitVec.ofNat 32 (leNat (b.drop 252))

/-- A flit whose routing word and beacon arrived as the bytes say. -/
def Flit.over (f : Flit) (b : List Byte) : Flit :=
  let r := flitRoute b
  { f with
    dst := r % 16, src := r / 2 ^ 4 % 16, group := r / 2 ^ 8 % 16
    beacon := if r / 2 ^ 12 % 2 = 1 then some (leNat ((b.drop 8).take 8)) else none }

/-- The message of a flit arrives: the stamp of its write is read against the last one received, and what the message makes happen is
owed. -/
def State.takeMessage (s : State) (l : Nat) (f : Flit) : State :=
  let s := match f.stamp with
    | some v =>
      let w := v.2.decode (s.link l).lastIn
      (s.modReq v.1 fun r => { r with stamp := some w }).modLink l fun x => { x with lastIn := w }
    | none => s
  match f.msg with
  | some d => s.owe (s.now + d.due) d.ev.what d.ev.arg
  | none => s

/-- A flit that has passed its checks takes a receive entry. One for another die is sent on; else its beacon and its message are taken. -/
def State.flitDeliver (s : State) (src dst : Nat) (f : Flit) : State :=
  let l := linkNo src dst
  let s := (s.modRx l (·.take f.group)).modLink l fun x => { x with got := x.got + 1 }
  if f.dst ≠ dst then
    if f.dst < 10 then
      let m := linkNo dst f.dst
      let g := { f with due := s.now + ucie dst f.dst }
      (s.modLink m fun x => { x with flying := x.flying ++ [g], replay := x.replay ++ [g] }).owe g.due .flitReceive (Arg.num2 dst f.dst)
    else s
  else
    (match f.beacon with
      | some n => if f.src = src ∧ n ≤ (s.die src).p.getD src 0 then s.takeBeacon src dst n else s
      | none => s).takeMessage l f

/-- The next flit of a module arrives, as the bytes say if there are any. A CRC error discards it and asks for replay, and nothing is
delivered until then; a reserved bit discards it and is counted. A flit that finds no entry waits: the sender does not send it yet
(29 R288). What is discarded while replay is asked for stays in the sender's buffer. -/
def State.flitArrive (s : State) (src dst : Nat) (b : List Byte) (i : Instr) : State :=
  let l := linkNo src dst
  match (s.link l).flying with
  | [] => s
  | f :: rest =>
    if (s.link l).ask then
      if f.due ≤ s.now then s.modLink l fun x => { x with flying := rest } else s
    else if !b.isEmpty && !flitGood b then
      ((s.modRx l (·.keep f.group)).modLink l fun x => { x with flying := rest, ask := true }).owe (s.now + ucie src dst) .flitReplay
        (Arg.num2 src dst)
    else if flitRoute b / 2 ^ 13 ≠ 0 then
      s.modLink l fun x => { x with flying := rest, replay := x.replay.erase f, errors := x.errors + 1 }
    else if s.now < f.due then s
    else
      let g := if b.isEmpty then f else f.over b
      if !s.rxRoom l g.group then s.owe (s.now + 1) i s.arg
      else (s.modLink l fun x => { x with flying := rest, replay := x.replay.erase f }).flitDeliver src dst g

/-- A flit with a message arrives. -/
def execFlitReceive (s : State) : Out1 := .next (s.flitArrive s.arg.n s.arg.k s.arg.bytes .flitReceive)

/-- A flit arrives that was sent for its beacon alone. -/
def execBeaconReceive (s : State) : Out1 := .next (s.flitArrive s.arg.n s.arg.k [] .beaconReceive)

/-- The sender replays what its replay buffer holds, in order: the receiver takes flits again. -/
def execFlitReplay (s : State) : Out1 :=
  let src := s.arg.n; let dst := s.arg.k
  let l := s.link (linkNo src dst)
  let at' := s.now + ucie src dst
  .next (if !l.ask then s
    else l.replay.foldl (fun s _ => s.owe at' .flitReceive (Arg.num2 src dst))
      (s.modLink (linkNo src dst) fun x => { x with ask := false, flying := x.replay.map fun f => { f with due := at' } }))

/-- A changed prefix with no flit due is sent in a flit of its own (21 R243). Such a flit is of the group of management traffic
(DESIGN CHOICE, log entry 52: R288 gives none to it). -/
def execBeaconTimer (s : State) : Out1 :=
  let src := s.arg.n; let dst := s.arg.k
  .next (if (s.link (linkNo src dst)).beacon = (s.die src).p.getD src 0 then s
    else s.flitOut src dst managementGroup none none)

/-! ### Links (29 R284, R290) -/

/-- The queue of a link has changed: it compresses above CTHR bytes, until it falls to half of that. -/
def Erg.steer (e : Erg) : Erg :=
  let n := (e.queue.map fun q => q.1.size).sum
  { e with compressing := if e.compressing then decide (Config.cthr / 2 < n) else decide (Config.cthr < n) }

/-- A packet reaches the head of the queue, where its form is chosen; the queue may have become shorter. -/
def Erg.lead (e : Erg) : Erg :=
  match e.queue with
  | q :: r => { e with queue := (if e.compressing then q.1.shorter else q.1, q.2) :: r }.steer
  | [] => e

def Erg.put (e : Erg) (p : Packet × Option Nat) : Erg :=
  let x := { e with queue := e.queue ++ [p] }.steer
  if e.queue.isEmpty then x.lead else x

def Erg.pop (e : Erg) : Erg := { e with queue := e.queue.tail }.steer.lead

/-- Erg links are numbered 16·gateway + link. -/
def State.erg (s : State) (n : Nat) : Erg := s.ergs.get Erg.init n
def State.modErg (s : State) (n : Nat) (f : Erg → Erg) : State := { s with ergs := s.ergs.set Erg.init n (f (s.erg n)) }

/-- A link that is free sends the packet at its head; a Delay_Req of the clock is timestamped as it leaves (29 R291). -/
def State.ergDrain (s : State) (n : Nat) : State :=
  match (s.erg n).queue with
  | q :: _ =>
    if (s.erg n).freeAt ≤ s.now then
      let s := match q.2 with | some k => { s with clock := { s.clock with delayReq := some (k, s.time) } } | none => s
      (s.modErg n fun e => { e.pop with freeAt := s.now + q.1.span }).tell (.packet (n / 16) (n % 16) q.1)
    else s
  | [] => s

/-- Every link that holds a packet. -/
def State.ergDrains (s : State) : State := s.ergs.entries.foldl (fun s e => s.ergDrain e.1) s

/-- The link by which a packet leaves now: the firmware may change the routes at any time (29 R285, R294). -/
def State.route (s : State) (g : Nat) (p : Packet) : Nat := 16 * g + Config.linkFor g (p.f 32 12) s.now % 16

/-- A packet goes to a link of a gateway, marked if it is a Delay_Req of the clock. -/
def State.ergSend (s : State) (g : Nat) (p : Packet) (mark : Option Nat) : State :=
  (s.modErg (s.route g p) (·.put (p, mark))).ergDrain (s.route g p)

/-- The gateway that carries class O packets for a package (21 R251). -/
def gwFor (pkg : Nat) : Nat := if Config.gatewayFor pkg then 1 else 0

/-- Build a packet of this package and send it; class O packets take the next sequence number for their package. -/
def State.gwPut (s : State) (g : Nat) (h : Head) (data : List Byte) (poison : Bool) (mark : Option Nat) : Packet × State :=
  let g := if h.cls = 0 then gwFor h.dpkg else g
  let n := (s.gw g).seqOut.get 0 h.dpkg
  let p := { h with seq := if h.cls = 0 then n else 0 }.packet s.pkgId.toNat false data poison
  let s := if h.cls = 0 then s.modGw g fun x => { x with seqOut := x.seqOut.set 0 h.dpkg ((n + 1) % 2 ^ 32) } else s
  (p, s.ergSend g p mark)

/-- A management packet: TYPE 5, group 15, no ASID (29 R284, R288). -/
def State.mgmtPacket (s : State) (g dpkg : Nat) (data : List Byte) (mark : Option Nat) : State :=
  (s.gwPut g ⟨5, 3, managementGroup, dpkg, 0xFFF, 0, 0, 0⟩ data false mark).2

/-- Pad bytes to whole words: LEN counts words (29 R284). -/
def padWords (b : List Byte) : List Byte := b ++ bytesOf ((8 - b.length % 8) % 8) 0

/-! ### Requests to other packages (29 R285, R287) -/

def amoOps : List AmoOp := [.add, .and, .or, .xor, .swap, .min, .max, .minu, .maxu, .cas, .fadd, .fmaxa]

/-- The payload of a request. -/
def ROp.payload : ROp → List Byte
  | .read z => Config.ergPayload 0 z 0 0 []
  | .write b => Config.ergPayload 1 b.length 0 0 b
  | .amo op z x c => Config.ergPayload (2 + amoOps.idxOf op) z x c []
  | .fe _ x _ => Config.ergPayload 0 8 x 0 []
  | .post b n => Config.ergPayload 1 b (BitVec.ofNat 64 n) 0 []
  | .wake _ => []

/-- What a request packet asks for. -/
def ropOf (q : Nat × Nat × Word × Word × List Byte) : ROp :=
  if q.1 = 0 then .read (min q.2.1 2048)
  else if q.1 = 1 then .write q.2.2.2.2
  else .amo (amoOps.getD (q.1 - 2) .add) (if q.2.1 = 4 then 4 else 8) q.2.2.1 q.2.2.2.1

/-- Tokens a packet with a payload costs. -/
def tollFor (payload : List Byte) : Nat := 1 + (payload.length + 63) / 64

/-- Take the tokens of a request from its ASID's bucket. -/
def Bucket.take (b : Bucket) (n : Nat) : Option Bucket :=
  if b.rate = 0xFFFF then some b else if n ≤ b.tokens then some { b with tokens := b.tokens - n } else none

/-- A request leaves the package: its packet is kept until it is acknowledged. -/
def State.gwLaunch (s : State) (g : Nat) (r : Req) : State :=
  let tag := (s.gw g).nextTag
  let h : Head := ⟨if r.isWrite then 2 else 0, r.cls.code, requestGroup r.asid, r.loc / 2 ^ 40, r.asid.toNat, 0, tag, r.loc⟩
  let x := s.gwPut g h (padWords r.op.payload) false none
  (x.2.modGw g fun y => { y with nextTag := (tag + 1) % 2 ^ 32, out := y.out ++ [⟨tag, r.id, x.1, 0⟩] }).owe
    (s.now + Config.eto) .gatewayResendTimeout (Arg.num2 g tag)

/-- A kept packet leaves again. -/
def State.gwAgain (s : State) (g : Nat) (o : OutPkt) : State :=
  ((s.modGw g fun x => { x with out := x.out.map fun y => if y.tag = o.tag then { y with resends := y.resends + 1 } else y }).ergSend
    g o.pkt none).owe (s.now + Config.eto) .gatewayResendTimeout (Arg.num2 g o.tag)

/-- Whose bucket pays for what waits. -/
def Toll.asid : Toll → Nat | .request a _ => a | .resend a _ => a

/-- What waits is still to leave: its cost, and how it leaves. -/
def State.tollOf (s : State) (g : Nat) : Toll → Option (Nat × (State → State))
  | .request _ id => (s.req? id).map fun r => (tollFor r.op.payload, fun s => s.gwLaunch g r)
  | .resend _ tag => ((s.gw g).out.find? fun o => o.tag == tag).map fun o => (tollFor o.pkt.payload, fun s => s.gwAgain g o)

/-- What waits for tokens leaves in order, each ASID's on its own; `fuel` bounds their number. -/
def State.gwDrain (s : State) (g asid : Nat) : Nat → State
  | 0 => s
  | fuel + 1 =>
    match (s.gw g).waiting.find? fun w => w.asid == asid with
    | none => s
    | some w =>
      let drop (s : State) : State := s.modGw g fun x => { x with waiting := x.waiting.erase w }
      match s.tollOf g w with
      | none => (drop s).gwDrain g asid fuel
      | some (cost, go) =>
        match ((s.gw g).buckets.get Bucket.init asid).take cost with
        | none => s
        | some b => (go ((drop s).modGw g fun x => { x with buckets := x.buckets.set Bucket.init asid b })).gwDrain g asid fuel

/-- A request or a kept packet stands at the end of its ASID's queue. -/
def State.gwQueue (s : State) (g : Nat) (w : Toll) : State :=
  (s.modGw g fun x => { x with waiting := x.waiting ++ [w] }).gwDrain g w.asid ((s.gw g).waiting.length + 1)

/-- A request reaches the gateway of its package's route. -/
def State.gwSend (s : State) (r : Req) : State :=
  (s.modReq r.id fun x => { x with phase := .queued }).gwQueue (gwFor (r.loc / 2 ^ 40)) (.request r.asid.toNat r.id)

/-- A packet without acknowledgement is sent again, for the tokens of a packet that leaves (29 R287); after the seventh time its request
is answered 0x92. -/
def State.gwResend (s : State) (g tag : Nat) : State :=
  match (s.gw g).out.find? fun o => o.tag == tag with
  | none => s
  | some o =>
    if o.resends < 7 then s.gwQueue g (.resend o.pkt.asid.toNat tag)
    else
      let s := s.modGw g fun x => { x with out := x.out.filter fun y => y.tag != tag }
      match s.req? o.req with | some r => s.answer r (.cause 0x92) none | none => s

def execGatewayResendTimeout (s : State) : Out1 := .next (s.gwResend s.arg.n s.arg.k)

/-- RATE tokens are added every 1,024 cycles, up to BURST. -/
def State.tokenAdd (s : State) (g asid : Nat) : State :=
  let b := (s.gw g).buckets.get Bucket.init asid
  if b.rate = 0xFFFF ∨ s.now < b.due then s
  else
    let s := s.modGw g fun x => { x with
      buckets := x.buckets.set Bucket.init asid { b with tokens := min b.burst (b.tokens + b.rate), due := b.due + 1024 } }
    (s.owe (b.due + 1024) .tokenAdd (Arg.num2 g asid)).gwDrain g asid (s.gw g).waiting.length

def execTokenAdd (s : State) : Out1 := .next (s.tokenAdd s.arg.n s.arg.k)

/-- Rambeod sets a bucket on the owner's request; it starts full. -/
def execTokenBucketSet (s : State) : Out1 :=
  let a := s.arg
  .next (if !s.owns a.n then s.tell (.refusedSetting a.n)
    else
      let s := s.modGw a.k fun x => { x with buckets := x.buckets.set Bucket.init a.p ⟨a.q, a.r, a.r, s.now + 1024⟩ }
      (if a.q = 0xFFFF then s else s.owe (s.now + 1024) .tokenAdd (Arg.num2 a.k a.p)).gwDrain a.k a.p (s.gw a.k).waiting.length)

/-! ### Packets that arrive (29 R285, R289) -/

/-- An answer to a request of another package, with the access's ASID and class. The reply to an atomic is cached until the source
acknowledges it. -/
def State.gwAnswer (s : State) (g typ pkg tag cls asid addr : Nat) (data : List Byte) (poison cache : Bool) : State :=
  let x := s.gwPut g ⟨typ, cls, replyGroup, pkg, asid, 0, tag, addr⟩ data poison none
  if cache then
    x.2.modGw g fun y => { y with
      replies := y.replies.map fun e => if e.pkg = pkg ∧ e.tag = tag then { e with reply := some x.1 } else e }
  else x.2

/-- A request of another package is to be answered receiver-not-ready: it counts as applied no longer, and if it is of class O its
number may come again. -/
def State.gwForget (s : State) (g pkg tag : Nat) : State :=
  s.modGw g fun x => { x with
    replies := x.replies.filter fun e => !(e.pkg == pkg && e.tag == tag)
    refused := x.refused ++ (x.replies.filter fun e => e.pkg == pkg && e.tag == tag).filterMap fun e => e.seq.map (pkg, ·) }

/-- A home's answer to a request that a gateway brought in: once no part of it is left, a reply, an acknowledgement, or
receiver-not-ready goes back, with the address of the request. Data that the home found uncorrectable goes back complete, with the end
code of a poisoned packet. -/
def State.gwReply (s : State) (r : Req) (a : Answer) : State :=
  match r.src with
  | .gateway g pkg tag =>
    if s.net.any fun x => x.src == r.src then s
    else
      let put (typ : Nat) (data : List Byte) (poison : Bool) : State :=
        s.gwAnswer g typ pkg tag r.cls.code r.asid.toNat r.gva (padWords data) poison
          (typ == 1 && match r.op with | .amo .. | .fe .. => true | _ => false)
      match a, r.op with
      | .cause 0x90, _ => (s.gwForget g pkg tag).gwAnswer g 4 pkg tag r.cls.code r.asid.toNat r.gva [] false false
      | .cause _, .read z => put 1 (s.readLoc r.loc z) true
      | .cause _, .amo _ z _ _ => put 1 (s.readLoc r.loc z) true
      | .bytes b, .read _ => put 1 b false
      | .bytes b, .amo .. => put 1 b false
      | _, _ => put 3 [] false
  | _ => s

/-- A request that enters the package: class O writes are numbered as writes of the fabric die (21 R242). It keeps the address of its
packet for the answer. -/
def State.gwInject (s : State) (g : Nat) (p : Packet) (op : ROp) (loc : Nat) : State :=
  s.inject (s.newReq (.gateway g p.spkg p.tag) (512 + g) (if p.cls = 0 then .o else if p.cls = 1 then .a else .v) op 0 p.addr loc
    p.asid false)

/-- A mailbox write is answered by the gateway that serves its mailbox: an acknowledgement with the message's count,
receiver-not-ready, or a management DENY, and one of the last two was not applied (15 R206; 29 R284, R292). -/
def State.gwMailbox (s : State) (g : Nat) (p : Packet) : State :=
  match s.mailboxPut (p.addr % 64) p.spkg p.data with
  | (.deny, s) => (s.gwForget g p.spkg p.tag).mgmtPacket g p.spkg
      (Config.mgmtPayload 10 (match s.owner with | some o => o + 1 | none => 0) 0 0) none
  | (.full, s) => (s.gwForget g p.spkg p.tag).gwAnswer g 4 p.spkg p.tag p.cls p.asid.toNat p.addr [] false false
  | (.ack h, s) => s.gwAnswer g 3 p.spkg p.tag p.cls p.asid.toNat h [] false false

/-- A request, posted write or mailbox write is applied, once. -/
def State.gwApply (s : State) (g : Nat) (p : Packet) : State :=
  let s := s.modGw g fun x => { x with replies := x.replies ++ [⟨p.spkg, p.tag, if p.cls = 0 then some p.seq else none, none⟩] }
  let here := decide (p.addr < 2 ^ 52) && p.addr / 2 ^ 40 == s.pkgId.toNat && p.addr / 2 ^ 39 % 2 == 0
  if p.typ = 6 then s.gwMailbox g p
  else if !here then s
  else
    match ropOf (Config.ergRequest p.data) with
    | .write b =>
      let l := byLines 40 p.addr (b.take 2048)
      if l.isEmpty then s.gwAnswer g 3 p.spkg p.tag p.cls p.asid.toNat p.addr [] false false
      else l.foldl (fun s x => s.gwInject g p (.write x.2) x.1) s
    | op => s.gwInject g p op p.addr

/-- An answer to a packet this gateway sent. -/
def State.gwAnswered (s : State) (g : Nat) (p : Packet) (a : Req → State → State) : State :=
  match (s.gw g).out.find? fun o => o.tag == p.tag && o.pkt.f 32 12 == p.spkg with
  | none => s
  | some o =>
    let s := s.modGw g fun x => { x with out := x.out.erase o }
    match s.req? o.req with | some r => a r s | none => s

/-- A management packet: a message of the 1588 clock (29 R291), Rambeod's setting of its domain, or of a host to Rambeod (29 R293).
Other messages have events of their own. `at'` is the time at which a message passed on by die 9 arrived at its link. -/
def State.mgmtReceive (s : State) (p : Packet) (at' : List Nat) : State :=
  let m := Config.mgmtMessage p.data
  let due (i : Instr) (n k q : Nat) : State := s.owe s.now i { Arg.none with n := n, k := k, p := q }
  let ptp (i : Instr) : State :=
    s.owe s.now i { Arg.none with n := m.2.1, k := m.2.2.1, p := m.2.2.2, q := Config.ptpDomain p.data, r := p.spkg, nums := at' }
  match m.1 with
  | 0 => due .ptpAnnounce (Config.ptpDomain p.data) p.spkg 0
  | 1 => ptp .ptpSync
  | 2 => ptp .ptpFollowUp
  | 3 => ptp .ptpDelayResp
  | 4 => if s.owns p.spkg then { s with clock := { s.clock with domain := m.2.1 % 128 } } else s.tell (.refusedSetting p.spkg)
  | 5 => due .claim p.spkg 0 0
  | 6 => due .renew p.spkg 0 0
  | 7 => due .handover p.spkg (m.2.1 % 4096) 0
  | 8 => due .accept p.spkg 0 0
  | _ => s

/-- A packet takes effect. A reply is acknowledged; an acknowledgement of a reply empties its place in the cache. -/
def State.gwServe (s : State) (g : Nat) (p : Packet) (at' : List Nat) : State :=
  if p.typ = 1 then
    (s.gwAnswered g p fun r s => s.answer r (if p.poison then .cause 0x91 else .bytes p.data) none).gwAnswer g 3 p.spkg p.tag p.cls
      p.asid.toNat p.addr [] false false
  else if p.typ = 3 then
    if (s.gw g).out.any fun o => o.tag == p.tag && o.pkt.f 32 12 == p.spkg && o.pkt.typ == 2 then
      s.gwAnswered g p fun r s => s.answer r (.bytes []) none
    else s.modGw g fun x => { x with
      replies := x.replies.map fun e => if e.pkg = p.spkg ∧ e.tag = p.tag then { e with reply := none } else e }
  else if p.typ = 4 then s.gwAnswered g p fun r s => s.refuse r
  else if p.typ = 5 then s.mgmtReceive p at'
  else s.gwApply g p

/-- The number after n of a package's class O packets is to be applied next. A host's mailbox writes of both gateways are numbered in one
sequence, so both keep the count (DESIGN CHOICE, log entry 52: neither 15 R206 nor 29 R285 says how SEQ runs over mailboxes of two
serving gateways). -/
def State.seqNext (s : State) (pkg n : Nat) : State :=
  [0, 1].foldl (fun s g => s.modGw g fun x => { x with seqIn := x.seqIn.set 0 pkg ((n + 1) % 2 ^ 32) }) s

/-- A held packet of a package and number, with its gateway. -/
def State.heldSeq (s : State) (pkg n : Nat) : Option (Nat × Packet) :=
  [0, 1].findSome? fun g => ((s.gw g).early.find? fun p => p.spkg == pkg && p.seq == n).map (g, ·)

/-- Packets held behind a gap are applied as it closes; `fuel` bounds their number. -/
def State.gwEarly (s : State) (pkg : Nat) : Nat → State
  | 0 => s
  | fuel + 1 =>
    let n := (s.gw 0).seqIn.get 0 pkg
    match s.heldSeq pkg n with
    | none => s
    | some (g, p) =>
      (((s.modGw g fun x => { x with early := x.early.erase p }).seqNext pkg n).gwServe g p []).gwEarly pkg fuel

/-- A packet whose header stands: class O packets take effect in SEQ order, up to 64 held ahead of a gap; the gateway counts those of all
source packages together (DESIGN CHOICE, log entry 52: R285 does not say which). One whose TAG or SEQ was applied is discarded, a
duplicated atomic answered from the reply cache; one that was answered receiver-not-ready was not applied, and takes effect when it comes
again. In recovery nothing does (29 R294). -/
def State.gwOrder (s : State) (g : Nat) (p : Packet) (at' : List Nat) : State :=
  let x := s.gw g
  let pkg := p.spkg
  if !s.serves then s
  else match (if p.typ = 0 ∨ p.typ = 2 ∨ p.typ = 6 then x.replies.find? fun e => e.pkg == pkg && e.tag == p.tag else none) with
  | some e => match e.reply with | some q => s.ergSend g q none | none => s
  | none =>
    if p.cls ≠ 0 then s.gwServe g p at'
    else if x.refused.contains (pkg, p.seq) then
      (s.modGw g fun x => { x with refused := x.refused.erase (pkg, p.seq) }).gwServe g p []
    else
      let n := x.seqIn.get 0 pkg
      if p.seq = n then
        ((s.seqNext pkg n).gwServe g p []).gwEarly pkg 128
      else if (p.seq + 2 ^ 32 - n) % 2 ^ 32 < 2 ^ 31 && decide (x.early.length < 64)
          && !x.early.any fun q => q.spkg == pkg && q.seq == p.seq then
        s.modGw g fun x => { x with early := x.early ++ [p] }
      else s

/-- The receive buffer of an Erg link (log entry 12). -/
def ergBuf (g l : Nat) : Nat := 100 + 16 * g + l

/-- A packet for this package is passed on over UCIe to the gateway that serves it, with the time of its arrival, or takes effect here. -/
def State.ergServe (s : State) (g : Nat) (p : Packet) : State :=
  if p.served g = g then s.gwOrder g p []
  else s.carry (8 + g) (8 + p.served g) (p.f 8 4) (ucie (8 + g) (8 + p.served g)) .ergPacketReceive
    { Arg.none with n := p.served g, yes := true, pkt := p, nums := [s.time.toNat] } none

/-- A packet arrives by a link of a gateway. A bad header is discarded before it is forwarded, and a reserved TYPE dropped. A packet for
another package is forwarded by cut-through: an error found after that ends it with a poisoned trailer. -/
def State.ergReceive (s : State) (g l : Nat) (p : Packet) : State :=
  let buf := ergBuf g l
  let grp := p.f 8 4
  if !s.rxRoom buf grp then s
  else if !p.headOk then s.modRx buf (·.keep grp)
  else if 7 ≤ p.typ then s
  else if p.f 32 12 ≠ s.pkgId.toNat then
    (s.modRx buf (·.take grp)).ergSend g (if p.dataOk then p else p.spoil) none
  else if !p.sound then (if p.dataOk then s else s.modRx buf (·.keep grp))
  else (s.modRx buf (·.take grp)).ergServe g p

def execErgPacketReceive (s : State) : Out1 :=
  let a := s.arg
  .next (if a.yes then s.gwOrder a.n a.pkt a.nums else s.ergReceive a.n a.k a.pkt)

end Sys2Proof.Machine
end

