-- ==== Sys2Proof/Machine/Fence.lean ====
section
/-!
DEFINITION. FENCE and IFENCE (11 R163, R164; 23 R252, R253).
-/

namespace Sys2Proof.Machine

/-- An entry that the thread pushed is still on its link. -/
def State.pushing (s : State) (t : Nat) : Bool := s.transit.any fun e => s.feeder e.1 e.2.1 == some t

/-- A matrix command of the thread is queued or running. -/
def State.matrixBusy (s : State) (t : Nat) : Bool :=
  let c := s.core (coreOf t)
  c.mq.any (fun m => m.tid == t) || (match c.mrun with | some r => r.cmd.tid == t | none => false)

/-- A request of PSEND or PRECV, which reads or writes a buffer. -/
def PReq.moves (r : PReq) : Bool := match r.kind with | .send .. | .recv .. => true | _ => false

/-- A PSEND or PRECV of the thread stands at a Prism. -/
def State.prismBusy (s : State) (t : Nat) : Bool :=
  s.clusters.entries.any (fun c => c.2.prismQ.any fun r => r.tid == t && r.moves)
    || s.ports.entries.any (fun p => (p.2.sends ++ p.2.recvs).any fun r => r.tid == t)

/-- An earlier access of the thread on a named path and of a named class is not yet performed. Instructions without a class
field count as class O. Every scope waits for the same acknowledgements (21 R240). -/
def State.outstanding (s : State) (t : Nat) (paths : BitVec 6) (classes : BitVec 3) : Bool :=
  (paths.getLsbD 0 && (s.reqsOf t).any fun r => classes.getLsbD (RClass.bit r.cls))
    || (paths.getLsbD 1 && ((s.core (coreOf t)).copies.any fun c => c.tid == t && classes.getLsbD (RClass.bit c.cls)))
    || (paths.getLsbD 1 && s.net.any fun r => match r.src with
      | .copy u _ _ _ => u == t && classes.getLsbD (RClass.bit r.cls)
      | _ => false)
    || (classes.getLsbD 0 && ((paths.getLsbD 2 && s.matrixBusy t) || (paths.getLsbD 3 && s.prismBusy t)
      || (paths.getLsbD 4 && s.pushing t)))

/-- Discard the parcels a thread has fetched. -/
def State.refetch (s : State) (t : Nat) : State := s.modThread t fun th => { th with fetched := [] }

/-- FENCE: the thread waits until nothing covered is outstanding. Path T then orders its stores to its own local store before every
engine's later reads (23 R253), path I discards what was fetched. -/
def State.fence (s : State) (t : Nat) (paths : BitVec 6) (classes : BitVec 3) : State :=
  if s.outstanding t paths classes then s.parkOn t (.fence paths classes) .performed
  else
    let s := if paths.getLsbD 0 then s.settlePast t classes 7 else s
    (if paths.getLsbD 5 && classes != 0 then s.refetch t else s).finish t 4 class1

/-- IFENCE: the thread waits for its stores, then discards what was fetched. -/
def State.ifence (s : State) (t : Nat) : State :=
  if (s.storesOf t).isEmpty then (s.refetch t).finish t 4 class1 else s.parkOn t .ifence .performed

/-- A FENCE whose paths name M reports a recorded matrix error first (13 R166). -/
def execFence (paths : BitVec 6) (_scope : Scope) (classes : BitVec 3) (s : State) : Out1 :=
  match (if paths.getLsbD 2 then s.th.mxErr else none) with
  | some e => .next (s.reportMatrix s.cur e)
  | none => .next (s.fence s.cur paths classes)

def execIfence (s : State) : Out1 := .next (s.ifence s.cur)

end Sys2Proof.Machine
end

