-- ==== Sys2Proof/Machine/Prism.lean ====
section
/-!
DEFINITION. Field ports: PBIND, PSEND, PRECV and PSTAT (13 R192 to R196) and the Prism of a cluster (25 R257 to R268).
-/

namespace Sys2Proof.Machine

/-! ### The descriptor and its tables (25 R258, R259) -/

/-- A 64-bit word and a 32-bit entry of memory. -/
def State.w64 (s : State) (loc : Nat) : Nat := leNat (readMem s.mem loc 8)
def State.w32 (s : State) (loc : Nat) : Nat := leNat (readMem s.mem loc 4)

/-- A port descriptor's fields. -/
structure PDesc where
  sndr : Nat
  rcvr : Nat
  fmt : Nat
  lag : Nat
  nsrc : Nat
  ndst : Nat
  wtab : Nat
  t : Nat
  inscale : Nat
  inoffset : Nat
  outoffset : Nat
  gain : Nat
  wait : Nat
  next : Nat
  deriving DecidableEq, Repr

def State.pdesc (s : State) (d : Nat) : PDesc :=
  let a := s.w64 d
  let n := s.w64 (d + 8)
  { sndr := a % 64, rcvr := bitsOf a 8 6, fmt := bitsOf a 16 2, lag := bitsOf a 18 1, nsrc := n % 2 ^ 32, ndst := n / 2 ^ 32
    wtab := s.w64 (d + 16) % 2 ^ 57, t := s.w64 (d + 24), inscale := s.w64 (d + 32), inoffset := s.w64 (d + 40)
    outoffset := s.w64 (d + 48), gain := s.w64 (d + 56), wait := s.w64 (d + 64), next := s.w64 (d + 72) }

/-- Indices that tell the Prism's own writes from elements of BUF: a status word, and all others. -/
def statusIdx : Nat := 2 ^ 40
def ownIdx : Nat := 2 ^ 32

/-- Memory as a Prism reads it: what it has written itself stands there before its homes apply it (25 R257, R268). -/
def State.prismView (s : State) (cl : Nat) : State :=
  let own (r : Req) : Bool := (match r.src with | .prism c _ i => c == cl && decide (ownIdx ≤ i) | _ => false)
    && match r.phase with | .answered _ => false | _ => true
  { s with mem := (s.net.filter own).foldl (fun m r => match r.op with | .write b => writeMem m r.loc b | _ => m) s.mem }

/-- The output format, and bytes of an element. -/
def PDesc.out (p : PDesc) : Fmt := match p.fmt with | 0 => FP32 | 1 => BF16 | 2 => E4M3 | _ => E5M2
def PDesc.outBytes (p : PDesc) : Nat := p.out.width / 8
/-- The signed index of the interval that a port holds. -/
def Port.held (x : Port) : Int := (BitVec.ofNat 64 x.j).toInt
/-- Accumulators and result area. -/
def accAt (d : Nat) : Nat := d + 128
def PDesc.resAt (p : PDesc) (d : Nat) : Nat := (d + 128 + 8 * p.nsrc + 63) / 64 * 64

/-- The arrays of the weight table. -/
def PDesc.nnz (s : State) (p : PDesc) : Nat := s.w32 (p.wtab + 4 * p.ndst)
def PDesc.colAt (p : PDesc) : Nat := p.wtab + 4 * (p.ndst + 1)
def PDesc.wAt (s : State) (p : PDesc) : Nat := p.colAt + 4 * p.nnz s
def PDesc.dstAt (s : State) (p : PDesc) : Nat := p.wAt s + 4 * p.nnz s
def PDesc.srcAt (s : State) (p : PDesc) : Nat := p.dstAt s + 4 * p.ndst
def PDesc.tabEnd (s : State) (p : PDesc) : Nat := p.srcAt s + 4 * p.nsrc

/-- Bytes that lie wholly in slices, on lines tagged shared. -/
def State.sharedSlices (s : State) (a n : Nat) : Bool :=
  (List.range ((a + n + 63) / 64 - a / 64)).all fun i =>
    let l := a / 64 + i
    (match decodeWin (l * 64) with | some (.slice _ _) => true | _ => false) && s.tags.get 0xFFF l == 0

/-- row_ptr starts at 0, never falls, and ends at 2^24 or less. -/
def PDesc.rowsOk (s : State) (p : PDesc) : Bool :=
  s.w32 p.wtab == 0 && (List.range p.ndst).all (fun j => decide (s.w32 (p.wtab + 4 * j) ≤ s.w32 (p.wtab + 4 * (j + 1))))
    && decide (p.nnz s ≤ 2 ^ 24)
def PDesc.colsOk (s : State) (p : PDesc) : Bool :=
  (List.range (p.nnz s)).all fun i => decide (s.w32 (p.colAt + 4 * i) < p.nsrc)

/-- Weights are finite, areas finite and positive. -/
def PDesc.valuesOk (s : State) (p : PDesc) : Bool :=
  let v (a : Nat) : FVal := decodeF FP32 (s.w32 a)
  let fin (x : FVal) : Bool := !x.isNaN && !x.isInf
  let pos (x : FVal) : Bool := fin x && !x.isZero && !x.isNeg
  (List.range (p.nnz s)).all (fun i => fin (v (p.wAt s + 4 * i)))
    && (List.range p.ndst).all (fun i => pos (v (p.dstAt s + 4 * i)))
    && (List.range p.nsrc).all fun i => pos (v (p.srcAt s + 4 * i))

/-- Reserved fields and ranges of a descriptor (reason 1). -/
def PDesc.rangesOk (s : State) (d : Nat) (p : PDesc) : Bool :=
  let a := s.w64 d
  bitsOf a 6 2 == 0 && bitsOf a 14 2 == 0 && a / 2 ^ 19 == 0 && s.w64 (d + 16) / 2 ^ 57 == 0 && s.w64 (d + 80) == 0
    && s.w64 (d + 112) == 0 && s.w64 (d + 120) == 0
    && decide (1 ≤ p.nsrc) && decide (p.nsrc ≤ 2 ^ 20) && decide (1 ≤ p.ndst) && decide (p.ndst ≤ 2 ^ 20)
    && decide (1 ≤ p.t) && decide (p.t ≤ 2 ^ 53) && decide (1 ≤ p.wait) && p.next % p.t == 0 && p.wtab % 64 == 0

/-- The cluster of a port's Prism, and whether it has power (25 R257; 01 R12). -/
def portCluster (p : Nat) : Nat := p / 1024 * 64 + p % 1024 / 16

/-- The descriptor of a port as its Prism reads it. -/
def State.portDesc (s : State) (p d : Nat) : PDesc := (s.prismView (portCluster p)).pdesc d
def State.prismOff (s : State) (cl : Nat) : Bool := (s.cluster cl).gated && !(s.cluster cl).host

def State.compNo (s : State) (t : Nat) : Option Nat := (s.core (coreOf t)).comp

/-- The reason for which a binding is refused, in the order of 25 R260. -/
def State.bindReason (s : State) (r : PReq) (d : Nat) : Option Nat :=
  let p := s.pdesc d
  let named (c : Nat) : Bool := s.resident && (s.comp c).valid
  if s.prismOff (portCluster r.port) then some 10
  else if !p.rangesOk s d then some 1
  else if !(named p.sndr && named p.rcvr) then some 2
  else if !(s.sharedSlices p.wtab (p.tabEnd s - p.wtab) && s.sharedSlices (accAt d) (8 * p.nsrc)
      && s.sharedSlices (p.resAt d) (p.ndst * p.outBytes)) then some 3
  else if !p.rowsOk s then some 4
  else if !p.colsOk s then some 5
  else if !p.valuesOk s then some 6
  else if (s.port r.port).desc.isSome then some 7
  else if s.compNo r.tid ≠ some p.sndr ∧ s.compNo r.tid ≠ some p.rcvr then some 8
  else none

/-! ### The Prism's accesses (25 R257) -/

/-- A class O access of the Prism of a port, for a request. -/
def State.prismReq (s : State) (r : PReq) (idx : Nat) (op : ROp) (a : Word) (gva loc : Nat) : Req :=
  s.newReq (.prism (portCluster r.port) r.tid idx) (portCluster r.port) .o op a gva loc r.asid r.priv

/-- The Prism writes bytes of a descriptor, the accumulators or the result area, line by line. -/
def State.prismPut (s : State) (r : PReq) (idx loc : Nat) (bytes : List Byte) : State :=
  (byLines (bytes.length / 64 + 2) loc bytes).foldl (fun s e => s.inject (s.prismReq r idx (.write e.2) 0 e.1 e.1)) s

/-- The Prism has read the lines of some bytes in slices: their stamps are merged (21 R244), and a poisoned one ends the component
it reads for (17 R222). -/
def State.prismLines (s : State) (r : PReq) (loc n : Nat) : State :=
  (List.range ((loc + n + 63) / 64 - loc / 64)).foldl (fun s i =>
    (s.touchPoison ((loc / 64 + i) * 64) r.asid).mergeStamp (portCluster r.port / 64) (s.stamps.get none (loc / 64 + i))) s

/-- Accesses to BUF that are not performed: the Prism serves nothing else until they are. Its own writes do not hold it. -/
def State.prismHeld (s : State) (cl : Nat) : Bool :=
  s.net.any fun r => match r.src with | .prism c _ i => c == cl && decide (i < ownIdx) | _ => false

/-- Status words of a descriptor that the Prism has written and its port has not yet accepted give way to a later one. -/
def State.dropStatus (s : State) (d : Nat) : State :=
  { s with net := s.net.filter fun r => !(r.phase == .fresh && r.loc == d + 88 && match r.src with | .prism .. => true | _ => false) }

/-! ### The status word (25 R265) -/

/-- The port and the reported bits of a PSEND or PRECV. -/
def Act.sendRecv : Act → Option (Nat × Word) | .psend ib p _ => some (p, ib) | .precv ib p _ => some (p, ib) | _ => none

/-- Threads parked on a PSEND, or on a PRECV, of a port. -/
def State.parkedOn (s : State) (p : Nat) (send : Bool) : Nat :=
  (s.threads.entries.filter fun e => match e.2.wait with
    | some w => match w.act with | .psend _ q _ => send && q == p | .precv _ q _ => !send && q == p | _ => false
    | none => false).length

/-- The status word of a port bound to the descriptor at d. -/
def State.statusWord (s : State) (p d : Nat) : Nat :=
  let x := s.port p
  let e := s.portDesc p d
  (if x.failed then 2 else 1) + 4 * e.lag + (if x.resfree then 8 else 0) + (if x.next % e.t = 0 then 0 else 16)
    + (if x.cnan then 32 else 0) + 2 ^ 16 * min 255 (s.parkedOn p true) + 2 ^ 24 * min 255 (s.parkedOn p false)
    + 2 ^ 32 * (x.j % 2 ^ 32)

/-- What the Prism does of itself at a port, for no thread; it carries the ASID of the component that bound the port (DESIGN CHOICE, log
entry 31: 17 R221 gives the Prism's accesses the ASID of the component that started them, and a status word follows many). -/
def portSelf (p : Nat) (asid : BitVec 12) : PReq := ⟨131072, p, .stat, 0, 0, asid, true, 0, 0, 0, false, false, false, [], none⟩

/-- A status word that changed is written; the cluster port accepts and numbers it in the next cycle, in the order of the clusters
(21 R242). -/
def State.showStatus (s : State) (p : Nat) : State :=
  match (s.port p).desc with
  | none => s
  | some d =>
    let w := s.statusWord p d
    if w = (s.port p).shown then s
    else
      let s := (s.modPort p fun x => { x with shown := w }).dropStatus d
      s.post (s.prismReq (portSelf p (s.port p).asid) statusIdx (.write (bytesOf 8 w)) 0 (d + 88) (d + 88))

/-- The status words of all bound ports. -/
def State.showStatuses (s : State) : State := s.ports.entries.foldl (fun s e => s.showStatus e.1) s

/-! ### Answers (25 R265) -/

/-- PORTSTAT of an outcome; an interval that the manual does not define is a free value (log entry 28). -/
def State.portStat (s : State) (t : Nat) (code reason : Nat) (counted closed : Bool) (idx : Option Nat) : State :=
  let x := match idx with | some i => (i % 2 ^ 32, s) | none => let f := s.freeWord; (f.1.toNat % 2 ^ 32, f.2)
  x.2.modThread t fun th => { th with portstat := BitVec.ofNat 64 (code + 2 ^ 8 * reason + (if counted then 2 ^ 16 else 0)
    + (if closed then 2 ^ 17 else 0) + 2 ^ 32 * x.1) }

/-- The thread still waits for this request. -/
def State.awaits (s : State) (r : PReq) : Bool :=
  let th := s.thread r.tid
  th.issuedAt == r.issued && match th.wait with | some w => w.why == .prism | none => false

/-- The page fault that held a thread's request at a Prism is over. -/
def State.leavePort (s : State) (t : Nat) : State := { s with pfaults := s.pfaults.filter fun f => !(f.tid == t && f.src == 3) }

/-- A request completes. -/
def State.portDone (s : State) (r : PReq) (counted closed : Bool) (idx : Option Nat) : State :=
  if s.awaits r then ((s.leavePort r.tid).portStat r.tid 0 0 counted closed idx).finish r.tid 4 class1 else s

/-- A request ends in a cause from 0x82 to 0x87. -/
def State.portFail (s : State) (r : PReq) (c : Cause) (reason : Nat) (idx : Option Nat) : State :=
  if s.awaits r then ((s.leavePort r.tid).portStat r.tid c.toNat reason false false idx).trap r.tid c r.ib else s

/-- A request ends in the cause of an access to BUF. -/
def State.portTrap (s : State) (r : PReq) (e : Err) : State :=
  if s.awaits r then (s.leavePort r.tid).trap r.tid e.cause e.tval else s

/-- An instruction of the family raises a cause at issue. -/
def State.portRaise (s : State) (t : Nat) (ib : Word) (c : Cause) : State := (s.portStat t c.toNat 0 false false none).trap t c ib

/-- The interval that a span or a receive concerns. -/
def PDesc.sendIdx (p : PDesc) (t0 : Word) : Nat := t0.toNat / p.t
def PDesc.recvIdx (p : PDesc) (k : Word) : Word := k - BitVec.ofNat 64 p.lag

/-- The interval a request concerns, as far as a bound port defines it. -/
def State.idxOf (s : State) (r : PReq) : Option Nat :=
  match (s.port r.port).desc with
  | none => none
  | some d =>
    match r.kind with
    | .send _ t0 _ _ => some ((s.portDesc r.port d).sendIdx t0)
    | .recv _ k _ => some ((s.portDesc r.port d).recvIdx k).toNat
    | _ => some (s.port r.port).j

/-- The same from the record that a parked thread has read. -/
def State.waitIdx (s : State) (t p : Nat) : Option Nat :=
  match (s.port p).desc, (s.thread t).wait with
  | some d, some w =>
    match w.act, w.got.find? fun e => e.1 == 8 with
    | .psend .., some e => some ((s.portDesc p d).sendIdx (BitVec.ofNat 64 (leNat e.2)))
    | .precv .., some e => some ((s.portDesc p d).recvIdx (BitVec.ofNat 64 (leNat e.2))).toNat
    | _, _ => none
  | _, _ => none

/-! ### The queue of a Prism (25 R257) -/

/-- The event that serves a request, and the agent it names. -/
def PKind.event : PKind → Instr
  | .bind _ => .prismBind | .unbind => .prismUnbind | .send .. => .prismSend | .recv .. => .prismReceive | .stat => .prismStatus
  | .close => .intervalClose
def PReq.agent (r : PReq) : Nat := match r.kind with | .close => r.port | _ => portCluster r.port

/-- A Prism begins its next request once every access of the last to BUF is performed and no absent page holds the request. -/
def State.prismNext (s : State) (cl : Nat) : State :=
  match (s.cluster cl).prismQ with
  | r :: rest =>
    if r.due ≠ 0 ∨ r.page ∨ s.prismHeld cl then s
    else (s.modCluster cl fun c => { c with prismQ := { r with due := s.now + 1 } :: rest }).owe (s.now + 1) (PKind.event r.kind)
      (Arg.num r.agent)
  | [] => s

/-- A request joins its Prism's queue. -/
def State.prismAsk (s : State) (r : PReq) : State :=
  let cl := portCluster r.port
  (s.modCluster cl fun c => { c with prismQ := c.prismQ ++ [r] }).prismNext cl

/-- A request that was set aside goes before those that have not waited, behind the one that is served or that a page fault holds. -/
def prismInsert (r : PReq) : List PReq → List PReq
  | [] => [r]
  | h :: t => if h.due ≠ 0 || h.resumed || h.page || h.begun then h :: prismInsert r t else r :: h :: t

def State.prismResume (s : State) (r : PReq) : State :=
  let cl := portCluster r.port
  (s.modCluster cl fun c => { c with prismQ := prismInsert { r with resumed := true, due := 0 } c.prismQ }).prismNext cl

/-- The request that a Prism serves: the first, when its time has come. -/
def State.prismHead (s : State) (cl : Nat) : Option PReq :=
  match (s.cluster cl).prismQ with
  | r :: _ => if r.due ≠ 0 && decide (r.due ≤ s.now) && !r.page then some r else none
  | [] => none

/-- It is done with, or changed. -/
def State.prismDrop (s : State) (cl : Nat) : State := s.modCluster cl fun c => { c with prismQ := c.prismQ.tail }
def State.prismSet (s : State) (cl : Nat) (f : PReq → PReq) : State :=
  s.modCluster cl fun c => { c with prismQ := match c.prismQ with | r :: l => f r :: l | [] => [] }

/-- Its work begins and takes n cycles. -/
def State.prismBegin (s : State) (r : PReq) (n : Nat) : State :=
  let due := s.now + max 1 n
  (s.prismSet (portCluster r.port) fun r => { r with begun := true, due := due }).owe due (PKind.event r.kind) (Arg.num r.agent)

/-- A send of a port that was set aside stands at the Prism again and is not served yet. -/
def State.sendsAhead (s : State) (p : Nat) : Bool :=
  (s.cluster (portCluster p)).prismQ.any fun q => q.port == p && q.resumed && match q.kind with | .send .. => true | _ => false

/-- The first set-aside send of a port resumes once no close is pending. -/
def State.portGoOn (s : State) (p : Nat) : State :=
  if (s.port p).sends.isEmpty || (s.port p).closing || s.sendsAhead p then s
  else s.owe (s.now + 1) .prismSendResume (Arg.num p)

/-- A request leaves the Prism with the state given: the next one begins. -/
def State.prismLeave (s : State) (r : PReq) : State := (s.portGoOn r.port).prismNext (portCluster r.port)

/-- An access of a Prism is answered: bytes of BUF, or a cause, that of the lowest counting. After the last access to BUF, the request
that waits for them goes on. -/
def State.prismAnswer (s : State) (q : Req) (cl idx : Nat) (a : Answer) : State :=
  let s := s.prismSet cl fun r =>
    if !r.begun || decide (ownIdx ≤ idx) then r
    else match a with
      | .bytes b => if q.isRead then { r with got := r.got ++ [(idx, b)] } else r
      | .cause c => match r.bad with
        | some x => if x.1 ≤ idx then r else { r with bad := some (idx, ⟨c, q.seg⟩) }
        | none => { r with bad := some (idx, ⟨c, q.seg⟩) }
  if ownIdx ≤ idx ∨ s.prismHeld cl then s
  else match (s.cluster cl).prismQ with
    | r :: _ => if r.begun then s.owe (max s.now r.due) (PKind.event r.kind) (Arg.num r.agent) else s.prismNext cl
    | [] => s

/-! ### Cycles (25 R268) -/

/-- M(x) from the cluster of a Prism. -/
def State.prismTrip (s : State) (cl loc : Nat) : Nat := match s.placeOf loc with | some p => trip cl p | none => 1
def upDiv (a b : Nat) : Nat := (a + b - 1) / b

def State.sendCycles (s : State) (cl loc : Nat) (p : PDesc) (z : Nat) : Nat :=
  s.prismTrip cl loc + upDiv (p.nsrc * z) 64 + upDiv p.nsrc 8
def State.recvCycles (s : State) (cl loc : Nat) (p : PDesc) : Nat := s.prismTrip cl loc + upDiv (p.ndst * p.outBytes) 64
/-- The counts by which the Prism's time is reckoned; one that is out of range counts 0 (DESIGN CHOICE, log entry 52: 25 R268 does not
say what a refused descriptor counts). -/
def PDesc.sizes (s : State) (p : PDesc) : Nat × Nat × Nat :=
  let ok (n : Nat) : Nat := if n ≤ 2 ^ 20 then n else 0
  (ok p.nsrc, ok p.ndst, if p.ndst ≤ 2 ^ 20 && p.rowsOk s then p.nnz s else 0)
/-- The time of a binding, accepted or refused. -/
def State.bindCycles (s : State) (cl d : Nat) : Nat :=
  let v := s.prismView cl
  let (nsrc, ndst, nnz) := (v.pdesc d).sizes v
  s.prismTrip cl d + upDiv (ndst + 1 + 2 * nnz + ndst + nsrc) 16 + upDiv nsrc 8
def State.closeCycles (s : State) (cl d : Nat) : Nat :=
  let v := s.prismView cl
  let (nsrc, ndst, nnz) := (v.pdesc d).sizes v
  s.prismTrip cl d + upDiv nsrc 8 + upDiv nnz 4 + upDiv ndst 2 + upDiv (nsrc + ndst) 4

/-! ### The instructions (13 R192 to R196) -/

/-- The request of a thread. -/
def State.preq (s : State) (t port : Nat) (k : PKind) (ib : Word) (seg : BitVec 128) (d : Reg) : PReq :=
  let th := s.thread t
  ⟨t, port, k, ib, seg, th.asid, th.privileged, th.issuedAt, d, 0, false, false, false, [], none⟩

/-- PBIND: a descriptor address is checked at issue; 0 unbinds. A paged address is translated before it is refused for lying in no slice,
so an absent page parks and 0x30 to 0x37 come before 0x3A (DESIGN CHOICE, log entry 52: 13 R193 does not give the order). -/
def State.pbind (s : State) (t : Nat) (ib : Word) (port : Nat) (a : Word) : State :=
  let act := Act.pbind ib port a
  if 8191 < port then s.portRaise t ib 0x84
  else if a = 0 then (s.prismAsk (s.preq t port .unbind ib 0 0)).parkOn t act .prism
  else s.reach t a 128 128 .block needR act fun loc s =>
    match decodeWin loc with
    | some (.slice _ _) => (s.prismAsk (s.preq t port (.bind loc) ib 0 0)).parkOn t act .prism
    | _ => s.trap t 0x3A a

/-- BUF of a bound port is aligned and lies in its segment over its whole extent. -/
def bufErr (g : BitVec 128) (a : Word) (n z : Nat) (need : Need) : Option Cause :=
  match segCause g (selOf a) (offOf a) (n * z) need with
  | some c => some c
  | none => if offOf a % z ≠ 0 then some 0x38 else none

/-- The words of a record that an instruction has read. -/
def recordOf (b : List Byte) : List (Nat × List Byte) := (List.range 4).map fun i => (8 * i, (b.drop (8 * i)).take 8)

/-- PSEND: it reads its record, waits for the thread's earlier accesses, and asks the Prism. -/
def State.psend (s : State) (t : Nat) (ib : Word) (port : Nat) (a : Word) (got : List (Nat × List Byte)) : State :=
  let act := Act.psend ib port a
  if 8191 < port then s.portRaise t ib 0x84
  else match s.readBlock t act a 32 8 .o got with
  | .error s => s
  | .ok (b, s) =>
    let w (k : Nat) : Word := BitVec.ofNat 64 (desc64 b k)
    let buf := w 0
    let g := (s.thread t).seg.get 0 (selOf buf)
    let err := match (s.port port).desc with
      | some d => bufErr g buf (s.portDesc port d).nsrc (if (w 3).getLsbD 0 then 8 else 4) needR
      | none => none
    match err with
    | some c => s.trap t c buf
    | none =>
      if !s.pathTDone t then s.waitFor t act .performed [] (recordOf b)
      else ((s.settlePast t 7 4).prismAsk (s.preq t port (.send buf (w 1) (w 2) (w 3)) ib g 0)).waitFor t act .prism [] (recordOf b)

/-- PRECV: it reads its record and asks the Prism. -/
def State.precv (s : State) (t : Nat) (ib : Word) (port : Nat) (a : Word) (got : List (Nat × List Byte)) : State :=
  let act := Act.precv ib port a
  if 8191 < port then s.portRaise t ib 0x84
  else match s.readBlock t act a 32 8 .o got with
  | .error s => s
  | .ok (b, s) =>
    let buf := BitVec.ofNat 64 (desc64 b 0)
    let g := (s.thread t).seg.get 0 (selOf buf)
    let err := match (s.port port).desc with
      | some d => bufErr g buf (s.portDesc port d).ndst (s.portDesc port d).outBytes needW
      | none => none
    match err with
    | some c => s.trap t c buf
    | none =>
      let k : PKind := .recv buf (BitVec.ofNat 64 (desc64 b 1)) (desc64 b 2 != 0 || desc64 b 3 != 0)
      (s.prismAsk (s.preq t port k ib g 0)).waitFor t act .prism [] (recordOf b)

/-- PSTAT. -/
def State.pstat (s : State) (t : Nat) (ib : Word) (d : Reg) (port : Nat) : State :=
  if 8191 < port then s.portRaise t ib 0x84
  else (s.prismAsk (s.preq t port .stat ib 0 d)).parkOn t (.pstat ib d port) .prism

def execPbind (b c : Reg) (s : State) : Out1 := .next (s.pbind s.cur (ibits (.pbind b c)) (s.g b).toNat (s.g c))
def execPsend (b c : Reg) (s : State) : Out1 := .next (s.psend s.cur (ibits (.psend b c)) (s.g b).toNat (s.g c) [])
def execPrecv (b c : Reg) (s : State) : Out1 := .next (s.precv s.cur (ibits (.precv b c)) (s.g b).toNat (s.g c) [])
def execPstat (d b : Reg) (s : State) : Out1 := .next (s.pstat s.cur (ibits (.pstat d b)) d (s.g b).toNat)

/-! ### Binding (25 R260, R261) -/

/-- The bytes of the accumulators, all +0.0. -/
def zeroAcc (n : Nat) : List Byte := bytesOf (8 * n) 0

/-- The lines that a binding or a close reads: descriptor, weight table, and, at a close, the accumulators. -/
def State.prismTables (s : State) (r : PReq) (p : PDesc) (d : Nat) : State :=
  ((s.prismLines r d 128).prismLines r p.wtab (p.tabEnd (s.prismView (portCluster r.port)) - p.wtab)).prismLines r (accAt d) (8 * p.nsrc)

/-- The lines read by the checks of 25 R260 up to the one that fails: row_ptr for reason 4, the columns for 5, all for those after. -/
def State.prismChecked (s : State) (r : PReq) (p : PDesc) (d k : Nat) : State :=
  let v := s.prismView (portCluster r.port)
  let n := if k < 4 then 0 else if k = 4 then p.colAt - p.wtab else if k = 5 then p.wAt v - p.wtab else p.tabEnd v - p.wtab
  (s.prismLines r d 128).prismLines r p.wtab n

/-- STATUS, J and CONSERR of a port are written in one update; J and the flags are the port's. -/
def State.putHeld (s : State) (r : PReq) (d e : Nat) : State :=
  let w := s.statusWord r.port d
  ((s.modPort r.port fun x => { x with shown := w }).dropStatus d).prismPut r ownIdx (d + 88)
    (bytesOf 8 w ++ bytesOf 8 (s.port r.port).j ++ bytesOf 8 e)

/-- A binding: refused with its reason, or accepted. -/
def State.bind (s : State) (r : PReq) (d : Nat) : State :=
  let v := s.prismView (portCluster r.port)
  let p := v.pdesc d
  match v.bindReason r d with
  | some 10 => s.portFail r 0x85 10 (s.idxOf r)
  | some k => (s.prismChecked r p d k).portFail r 0x85 k (s.idxOf r)
  | none =>
    let s := (s.prismTables r p d).prismPut r ownIdx (accAt d) (zeroAcc p.nsrc)
    let j := (p.next / p.t + 2 ^ 64 - 1) % 2 ^ 64
    let s := s.modPort r.port fun _ => ⟨some d, false, [], [], false, p.next, j, false, false, 0, r.asid⟩
    (s.putHeld r d 0).portDone r false false (some j)

def State.serveBind (s : State) (r : PReq) (d : Nat) : State :=
  let cl := portCluster r.port
  if r.begun then (((s.prismDrop cl).bind r d)).prismLeave r
  else s.prismBegin r (if s.prismOff cl then 1 else s.bindCycles cl d)

/-- A thread that is parked on a PSEND or PRECV of a port leaves. -/
def State.portEject (s : State) (p : Nat) (c : Cause) (reason : Nat) (t : Nat) : State :=
  match (s.thread t).wait with
  | some w => match w.act.sendRecv with
    | some (q, ib) =>
      if q = p then ((s.leavePort t).portStat t c.toNat reason false false (s.waitIdx t p)).trap t c ib else s
    | none => s
  | none => s

/-- Unbind a port: every thread parked on a PSEND or PRECV of it leaves with 0x84. STATUS then holds state unbound; of its other fields
LAG, RESFREE, OPEN, CNAN and JLO stay as last written and PSW and PRW are 0 (DESIGN CHOICE, log entry 52: R261 gives the state
alone). -/
def State.unbindPort (s : State) (p : Nat) : State :=
  match (s.port p).desc with
  | none => s
  | some d =>
    let s := s.threads.entries.foldl (fun s e => s.portEject p 0x84 0 e.1) s
    let s := s.modCluster (portCluster p) fun c =>
      { c with prismQ := c.prismQ.filter fun r => r.begun || r.port != p || !(r.moves || r.kind == .close) }
    let x := s.port p
    (((s.modPort p fun _ => Port.init).dropStatus d).prismPut (portSelf p x.asid) statusIdx (d + 88)
      (bytesOf 8 (x.shown / 4 * 4 % 2 ^ 16 + x.shown / 2 ^ 32 * 2 ^ 32))).prismNext (portCluster p)

/-- An unbinding request: only the port's components may make it. -/
def State.unbind (s : State) (r : PReq) : State :=
  match (s.port r.port).desc with
  | none => s.portDone r false false none
  | some d =>
    let p := s.portDesc r.port d
    let j := (s.port r.port).j
    if s.compNo r.tid ≠ some p.sndr ∧ s.compNo r.tid ≠ some p.rcvr then s.portFail r 0x85 8 (some j)
    else (s.unbindPort r.port).portDone r false false (some j)

/-- For a request of a bound port the Prism reads the port's descriptor. A line of it with another owner than the requesting component
ends the request with 0x39 at the address of the descriptor (DESIGN CHOICE, log entry 31: 17 R221 gives the check, and no rule the TVAL);
else the stamps of its lines are merged, and a poisoned one ends the component. -/
def State.prismOpen (s : State) (r : PReq) (go : State → State) : State :=
  match (s.port r.port).desc with
  | none => go s
  | some d =>
    if s.tagsOk d 128 r.asid then go (s.prismLines r d 128)
    else ((s.prismDrop (portCluster r.port)).portTrap r ⟨0x39, BitVec.ofNat 64 d⟩).prismLeave r

def State.serveUnbind (s : State) (r : PReq) : State :=
  s.prismOpen r fun s => ((s.prismDrop (portCluster r.port)).unbind r).prismLeave r

/-! ### BUF (25 R257, R263, R264) -/

/-- What an element of BUF ends in. -/
inductive BufStop where
  | cause (e : Err)
  | page (gva : Nat) (a : Word)
  deriving DecidableEq, Repr

/-- The elements of BUF, translated at the Prism's cluster port: address, GVA, location. The control window takes none. -/
def State.bufLocs (s : State) (r : PReq) (buf : Word) (z : Nat) (n : Need) :
    List Nat → List (Word × Nat × Nat) → Except BufStop (List (Word × Nat × Nat)) × State
  | [], acc => (.ok acc.reverse, s)
  | i :: rest, acc =>
    let a := moveOff buf (i * z : Nat)
    let gva := gvaOf r.seg (offOf a)
    match s.locate (portCluster r.port) r.asid r.priv gva z .block n with
    | (.bad c, s) => (.error (.cause ⟨c, a⟩), s)
    | (.absent g, s) => (.error (.page g a), s)
    | (.ok loc, s) => s.bufLocs r buf z n rest ((a, gva, loc) :: acc)

/-- Elements of BUF that lie side by side in one line are one access (DESIGN CHOICE, log entry 52: 25 R268 does not divide the Prism's
access to BUF into parts): offset of the first byte, address, GVA, location, bytes. -/
def bufRuns (z : Nat) : List (Nat × Word × Nat × Nat) → List (Nat × Word × Nat × Nat × Nat)
  | [] => []
  | (i, a, gva, loc) :: rest =>
    match bufRuns z rest with
    | (j, b, g, l, n) :: t =>
      if l = loc + z ∧ l % 64 ≠ 0 then (i, a, gva, loc, n + z) :: t else (i, a, gva, loc, z) :: (j, b, g, l, n) :: t
    | [] => [(i, a, gva, loc, z)]

/-- The accesses to the elements of BUF. -/
def bufAccesses (z : Nat) (l : List (Word × Nat × Nat)) : List (Nat × Word × Nat × Nat × Nat) :=
  bufRuns z (l.zipIdx.map fun e => (z * e.2, e.1))

/-- The bytes at an offset of BUF, among those read. -/
def bufBytes (got : List (Nat × List Byte)) (o z : Nat) : List Byte :=
  match got.find? fun e => decide (e.1 ≤ o) && decide (o + z ≤ e.1 + e.2.length) with
  | some e => takeBytes e.2 (o - e.1) z
  | none => []

/-- The Prism reaches BUF: its extent and alignment, as at issue, then its elements. A cause ends the request, an absent page holds
it where it stands: every element is translated before the first access begins, so that an absent page leaves the access to BUF not
begun (DESIGN CHOICE, log entry 52: R266 does not say whether it has). -/
def State.reachBuf (s : State) (r : PReq) (buf : Word) (n z : Nat) (need : Need)
    (go : List (Word × Nat × Nat) → State → State) : State :=
  let cl := portCluster r.port
  match bufErr r.seg buf n z need with
  | some c => ((s.prismDrop cl).portTrap r ⟨c, buf⟩).prismLeave r
  | none =>
    match s.bufLocs r buf z need (List.range n) [] with
    | (.error (.cause e), s) => ((s.prismDrop cl).portTrap r e).prismLeave r
    | (.error (.page gva a), s) =>
      match s.pageFault r.tid 3 gva need a 0 with
      | some s => s.prismSet cl fun r => { r with page := true, due := 0 }
      | none => ((s.prismDrop cl).portTrap r ⟨0x36, a⟩).prismLeave r
    | (.ok l, s) => go l s

/-- What the Prism answers to a send or a receive before it reaches BUF. -/
inductive Verdict where
  | fail (c : Cause) (reason : Nat)
  | aside
  | go (d : Nat)
  deriving DecidableEq, Repr

/-- INTERVAL_CLOSE joins the queue once the result area is free. -/
def State.oweClose (s : State) (r : PReq) : State :=
  let x := s.port r.port
  if x.closing && x.resfree && !(s.cluster (portCluster r.port)).prismQ.any (fun q => q.port == r.port && q.kind == .close) then
    s.prismResume { r with kind := .close, page := false, begun := false, got := [], bad := none }
  else s

/-! ### Sends (25 R263) -/

/-- FP64 arithmetic of the Prism: one rounding of the exact result, no flags. -/
def mac64 (a b c : FVal) : Nat := (roundOp FP64 .rne (fmaV .rne a b c)).1
def d64 (c : Nat) : FVal := decodeF FP64 c

/-- Bytes per element by CTL. -/
def ctlBytes (ctl : Word) : Nat := if ctl.getLsbD 0 then 8 else 4

/-- Steps 1 to 5. A send of a port stands behind those that wait (25 R257). -/
def State.sendVerdict (s : State) (r : PReq) (t0 dt ctl : Word) : Verdict :=
  let x := s.port r.port
  match x.desc with
  | none => .fail 0x84 0
  | some d =>
    let p := s.portDesc r.port d
    if s.compNo r.tid ≠ some p.sndr then .fail 0x84 0
    else if x.failed then .fail 0x85 9
    else if !r.resumed && (!x.sends.isEmpty || s.sendsAhead r.port) then .aside
    else if ctl.toNat / 2 ≠ 0 then .fail 0x87 1
    else if dt = 0 then .fail 0x87 2
    else if t0.toNat / p.t ≠ (t0.toNat + dt.toNat - 1) / p.t then .fail 0x83 0
    else if t0.toNat ≠ x.next then .fail 0x87 3
    else if x.closing then .aside
    else .go d

/-- Step 7 for a source cell: its value and its accumulator. -/
def PDesc.step (p : PDesc) (dt acc : Nat) (b : List Byte) : Nat :=
  let x := if b.length = 8 then d64 (leNat b) else decodeF FP32 (leNat b)
  mac64 (ofInt dt) (d64 (mac64 x (d64 p.inscale) (d64 p.inoffset))) (d64 acc)

/-- Step 7: every source cell is accumulated, NEXT moves, and an interval may be closed. -/
def State.accumulate (s : State) (r : PReq) (d : Nat) (t0 dt : Word) : State :=
  let v := s.prismView (portCluster r.port)
  let p := v.pdesc d
  let z := match r.kind with | .send _ _ _ ctl => ctlBytes ctl | _ => 8
  let s := s.prismLines r (accAt d) (8 * p.nsrc)
  let acc := (List.range p.nsrc).flatMap fun k =>
    bytesOf 8 (p.step dt.toNat (v.w64 (accAt d + 8 * k)) (bufBytes r.got (z * k) z))
  let next := (t0.toNat + dt.toNat) % 2 ^ 64
  let closes := next % p.t == 0
  let s := (s.prismPut r ownIdx (accAt d) acc).prismPut r ownIdx (d + 72) (bytesOf 8 next)
  ((s.modPort r.port fun x => { x with next := next, closing := closes }).portDone r true closes (some (p.sendIdx t0))).oweClose r

/-- A send: it is checked and BUF is read; once every element is here it is accumulated. -/
def State.serveSend (s : State) (r : PReq) (buf t0 dt ctl : Word) : State :=
  let cl := portCluster r.port
  if r.begun then
    if s.prismHeld cl then s
    else
      let s := s.prismDrop cl
      (match r.bad, (s.port r.port).desc with
        | some e, _ => s.portTrap r e.2
        | none, some d => s.accumulate r d t0 dt
        | none, none => s.portFail r 0x84 0 none).prismLeave r
  else s.prismOpen r fun s => match s.sendVerdict r t0 dt ctl with
    | .fail c reason => ((s.prismDrop cl).portFail r c reason (s.idxOf r)).prismLeave r
    | .aside =>
      let q := { r with due := 0 }
      ((s.prismDrop cl).modPort r.port fun x => { x with sends := if r.resumed then q :: x.sends else x.sends ++ [q] }).prismLeave r
    | .go d =>
      let p := s.portDesc r.port d
      let z := ctlBytes ctl
      s.reachBuf r buf p.nsrc z needR fun l s =>
        let first := match l with | e :: _ => e.2.2 | [] => d
        let s := (bufAccesses z l).foldl (fun s e =>
          s.inject (s.prismReq r e.1 (.read e.2.2.2.2) e.2.1 e.2.2.1 e.2.2.2.1)) s
        s.prismBegin r (s.sendCycles cl first p z)

/-! ### Receives (25 R264) -/

def State.recvVerdict (s : State) (r : PReq) (k : Word) (res : Bool) : Verdict :=
  let x := s.port r.port
  match x.desc with
  | none => .fail 0x84 0
  | some d =>
    let p := s.portDesc r.port d
    let j := (p.recvIdx k).toInt
    if s.compNo r.tid ≠ some p.rcvr then .fail 0x84 0
    else if x.failed then .fail 0x85 9
    else if res then .fail 0x87 1
    else if j = x.held then .go d
    else if j < x.held then .fail 0x87 4
    else .aside

/-- The held interval is released, and a close that waits for that is made. -/
def State.portFree (s : State) (r : PReq) : State := (s.modPort r.port fun x => { x with resfree := true }).oweClose r

/-- A receive: the held interval is written into BUF; once every write is performed it completes. One for a later interval is set
aside and releases the held one. -/
def State.serveRecv (s : State) (r : PReq) (buf k : Word) (res : Bool) : State :=
  let cl := portCluster r.port
  if r.begun then
    if s.prismHeld cl then s
    else
      let s := s.prismDrop cl
      (match r.bad with
        | some e => s.portTrap r e.2
        | none => (s.portDone r false false (s.idxOf r)).portFree r).prismLeave r
  else s.prismOpen r fun s => match s.recvVerdict r k res with
    | .fail c reason => ((s.prismDrop cl).portFail r c reason (s.idxOf r)).prismLeave r
    | .aside =>
      (((s.prismDrop cl).modPort r.port fun x => { x with recvs := x.recvs ++ [{ r with due := 0 }] }).portFree r).prismLeave r
    | .go d =>
      let p := s.portDesc r.port d
      let z := p.outBytes
      s.reachBuf r buf p.ndst z needW fun l s =>
        let first := match l with | e :: _ => e.2.2 | [] => d
        let v := s.prismView cl
        let s := s.prismLines r (p.resAt d) (p.ndst * z)
        let s := (bufAccesses z l).foldl (fun s e =>
          s.inject (s.prismReq r e.1 (.write (readMem v.mem (p.resAt d + e.1) e.2.2.2.2)) e.2.1 e.2.2.1 e.2.2.2.1)) s
        s.prismBegin r (s.recvCycles cl first p)

/-- A status query (13 R196, 25 R265). It and an unbinding take no cycles beyond the one in which the Prism comes to them (DESIGN CHOICE,
log entry 52: R268 gives no time for either). -/
def State.serveStat (s : State) (r : PReq) : State :=
  s.prismOpen r fun s =>
  let s := s.prismDrop (portCluster r.port)
  (match (s.port r.port).desc with
    | none => s.portFail r 0x84 0 none
    | some d =>
      if s.awaits r then
        (s.modThread r.tid fun th => th.wr r.d (BitVec.ofNat 64 (s.statusWord r.port d))).portDone r false false
          (some (s.port r.port).j)
      else s).prismLeave r

/-! ### The events of a Prism -/

def execPrismBind (s : State) : Out1 :=
  .next (match s.prismHead s.arg.n with
    | some r => (match r.kind with | .bind d => s.serveBind r d | _ => s)
    | none => s)
def execPrismUnbind (s : State) : Out1 :=
  .next (match s.prismHead s.arg.n with
    | some r => (match r.kind with | .unbind => s.serveUnbind r | _ => s)
    | none => s)
def execPrismSend (s : State) : Out1 :=
  .next (match s.prismHead s.arg.n with
    | some r => (match r.kind with | .send buf t0 dt ctl => s.serveSend r buf t0 dt ctl | _ => s)
    | none => s)
def execPrismReceive (s : State) : Out1 :=
  .next (match s.prismHead s.arg.n with
    | some r => (match r.kind with | .recv buf k res => s.serveRecv r buf k res | _ => s)
    | none => s)
def execPrismStatus (s : State) : Out1 :=
  .next (match s.prismHead s.arg.n with
    | some r => (match r.kind with | .stat => s.serveStat r | _ => s)
    | none => s)

/-- The first set-aside send of a port stands at the Prism again once no close is pending. -/
def execPrismSendResume (s : State) : Out1 :=
  let p := s.arg.n
  .next (match (s.port p).sends with
    | r :: rest =>
      if (s.port p).closing then s
      else (s.modPort p fun x => { x with sends := rest }).prismResume r
    | [] => s)

/-- A set-aside receive asks for the interval that its port holds. -/
def PReq.wants (r : PReq) (p : PDesc) (x : Port) : Bool :=
  match r.kind with | .recv _ k _ => (p.recvIdx k).toInt == x.held | _ => false

/-- The set-aside receives of the interval held stand at the Prism again. -/
def execPrismReceiveResume (s : State) : Out1 :=
  let p := s.arg.n
  let x := s.port p
  .next (match x.desc with
    | some d =>
      let e := s.portDesc p d
      (x.recvs.filter (·.wants e x)).foldl (fun s r => s.prismResume r)
        (s.modPort p fun y => { y with recvs := y.recvs.filter fun r => !r.wants e x })
    | none => s)

/-! ### Closing an interval (25 R267) -/

/-- ACC / T, rounded once. -/
def meanOf (acc t : Nat) : Nat :=
  match d64 acc with
  | .nan _ => FP64.canonNaN
  | .inf n => FP64.sign n FP64.infCode
  | .fin n m e => (roundRat FP64 .rne false n m t e).1

/-- y of a row: its entries in stored order. -/
def State.rowSum (s : State) (p : PDesc) (mean : Nat → Nat) (j : Nat) : Nat :=
  let a := s.w32 (p.wtab + 4 * j)
  let b := s.w32 (p.wtab + 4 * (j + 1))
  (List.range (b - a)).foldl (fun y i =>
    mac64 (decodeF FP32 (s.w32 (p.wAt s + 4 * (a + i)))) (d64 (mean (s.w32 (p.colAt + 4 * (a + i))))) (d64 y)) 0

/-- An area-weighted sum. -/
def State.areaSum (s : State) (at' : Nat) (l : List Nat) : Nat :=
  (l.zipIdx).foldl (fun y e => mac64 (decodeF FP32 (s.w32 (at' + 4 * e.2))) (d64 e.1) (d64 y)) 0

/-- The relative conservation error. -/
def consErr (a b : Nat) : Nat :=
  let x := d64 a; let y := d64 b
  if x.isZero && y.isZero then 0
  else (fDiv FP64 .rne ((fSub FP64 .rne a b).1 % 2 ^ 63) (fMinMax FP64 true (a % 2 ^ 63) (b % 2 ^ 63)).1).1

/-- The port fails (25 R262): its set-aside sends and receives end with 0x85, reason 9. -/
def State.portBreak (s : State) (port : Nat) : State :=
  let l := (s.port port).sends ++ (s.port port).recvs
  l.foldl (fun s r => s.portFail r 0x85 9 (s.idxOf r))
    (s.modPort port fun x => { x with failed := true, sends := [], recvs := [], closing := false })

/-- Step 2: the mean of every source cell and the remap of every row, and what the result area and CONSERR become. -/
def State.closeMeans (s : State) (p : PDesc) (d : Nat) : List Nat :=
  (List.range p.nsrc).map fun k => meanOf (s.w64 (accAt d + 8 * k)) p.t
def State.closeRows (s : State) (p : PDesc) (means : List Nat) : List Nat :=
  (List.range p.ndst).map (s.rowSum p fun k => means.getD k 0)
def PDesc.normal (p : PDesc) (y : Nat) : Nat :=
  (roundTo p.out .rne (p.fmt == 2) (d64 (fMul FP64 .rne (fSub FP64 .rne y p.outoffset).1 p.gain).1)).1
def State.closeErr (s : State) (p : PDesc) (means ys : List Nat) : Nat :=
  consErr (s.areaSum (p.dstAt s) ys) (s.areaSum (p.srcAt s) means)

/-- Steps 2 and 3; receives that wait for the new J, and sends that waited for the close, are served after it. A receive that waits
for a later interval releases this one. -/
def State.closeNow (s : State) (r : PReq) (p : PDesc) (d : Nat) : State :=
  let v := s.prismView (portCluster r.port)
  let s := s.prismTables r p d
  let means := v.closeMeans p d
  let ys := v.closeRows p means
  let e := v.closeErr p means ys
  let s := (s.prismPut r ownIdx (accAt d) (zeroAcc p.nsrc)).prismPut r ownIdx (p.resAt d)
    (ys.flatMap fun y => bytesOf p.outBytes (p.normal y))
  let s := s.modPort r.port fun x =>
    let j := (x.j + 1) % 2 ^ 64
    { x with j := j, closing := false, cnan := (d64 e).isNaN
             resfree := x.recvs.any fun q => match q.kind with
               | .recv _ k _ => decide ((BitVec.ofNat 64 j).toInt < (p.recvIdx k).toInt)
               | _ => false }
  let s := s.putHeld r d e
  if (s.port r.port).recvs.any (·.wants p (s.port r.port)) then s.owe (s.now + 1) .prismReceiveResume (Arg.num r.port) else s

/-- An interval closes; it needs RESFREE (step 1). -/
def State.closeInterval (s : State) (r : PReq) : State :=
  let cl := portCluster r.port
  let x := s.port r.port
  match x.desc with
  | none => (s.prismDrop cl).prismLeave r
  | some d =>
    let v := s.prismView cl
    let p := v.pdesc d
    if !x.closing || !x.resfree then (s.prismDrop cl).prismLeave r
    else if !r.begun then s.prismBegin r (s.closeCycles cl d)
    else if !(p.rowsOk v && p.colsOk v) then
      (((s.prismDrop cl).prismChecked r p d (if p.rowsOk v then 5 else 4)).portBreak r.port).prismLeave r
    else ((s.prismDrop cl).closeNow r p d).prismLeave r

def execIntervalClose (s : State) : Out1 :=
  .next (match s.prismHead (portCluster s.arg.n) with
    | some r => (match r.kind with | .close => if r.port = s.arg.n then s.closeInterval r else s | _ => s)
    | none => s)

/-! ### The wait bound (25 R266) -/

/-- The Prism has begun to read or write BUF for a thread. -/
def State.prismBegun (s : State) (t port : Nat) : Bool :=
  (s.cluster (portCluster port)).prismQ.any fun r => r.tid == t && r.moves && r.begun

/-- A thread has been parked on a PSEND or PRECV for longer than WAIT, counted from its issue, with no access begun. -/
def State.portLate (s : State) (t : Nat) : Option (Nat × Word) :=
  let th := s.thread t
  match th.wait with
  | some w =>
    match w.act.sendRecv with
    | some (p, ib) =>
      match (s.port p).desc with
      | some d => if (s.portDesc p d).wait + th.issuedAt < s.now && !s.prismBegun t p then some (p, ib) else none
      | none => none
    | none => none
  | none => none

/-- Withdraw the sends and receives of a thread from a port. -/
def State.withdraw (s : State) (t p : Nat) : State :=
  let gone (r : PReq) : Bool := r.tid == t && r.moves && !r.begun
  ((((s.leavePort t).modCluster (portCluster p) fun c => { c with prismQ := c.prismQ.filter fun r => !gone r }).modPort p
    fun x => { x with sends := x.sends.filter fun r => r.tid != t, recvs := x.recvs.filter fun r => r.tid != t }).portGoOn p).prismNext
    (portCluster p)

def execPortWaitTimeout (s : State) : Out1 :=
  let t := s.arg.n
  .next (match s.portLate t with
    | some (p, ib) => ((s.withdraw t p).portStat t 0x82 0 false false (s.waitIdx t p)).trap t 0x82 ib
    | none => s)

end Sys2Proof.Machine
end

