-- ==== Sys2Proof/Machine/Task.lean ====
section
/-!
DEFINITION. Tasks: FORK, JOIN and TEND (01 R17 to R22; 13 R197 to R199), takes and steals (15 R207, R208), the root records of
steps (15 R204, R205), and barriers (13 R200, R201).
-/

namespace Sys2Proof.Machine

/-! ### Deques (01 R17, R19; 15 R207, R208) -/

/-- Slots of a deque that are taken or reserved, out of 64. -/
def State.dequeFull (s : State) (c : Nat) : Bool := decide (64 ≤ (s.core c).deque.length + (s.core c).reserved)
/-- The deque has made its one operation of this cycle. -/
def State.dequeBusy (s : State) (c : Nat) : Bool := (s.core c).dqUsed == some s.now

/-- A FORK of the core waits for the deque with its slot, and goes before the sequencer's and the thieves' operations (15 R207). -/
def State.forkWaits (s : State) (c : Nat) : Bool :=
  !s.isSuspended c && (List.range 16).any fun i =>
    match (s.thread (16 * c + i)).wait with | some ⟨.fork _ _ _ (some _) true, .cond, _, _, _, _⟩ => true | _ => false

/-- The threads of a core that are idle by this cycle. -/
def State.idles (s : State) (c : Nat) : List Nat :=
  ((List.range 16).map (16 * c + ·)).filter fun t => (s.thread t).st == .idle && decide ((s.thread t).idleSince ≤ s.now)

/-- The thread that has been idle longest, ties to the lower number. -/
def longestIdle (s : State) : List Nat → Option Nat
  | [] => none
  | t :: r =>
    match longestIdle s r with
    | none => some t
    | some u => if (s.thread u).idleSince < (s.thread t).idleSince then some u else some t

/-- A record is pushed at the bottom: any record reaching the deque ends the back-off (15 R208). -/
def State.pushRec (s : State) (c : Nat) (r : Rec) : State :=
  s.modCore c fun k => { k with deque := k.deque ++ [r], dqUsed := some s.now, backoff := 64, backUntil := 0 }

/-! ### FORK (01 R20; 13 R197) -/

def recOf (b : List Byte) : Rec :=
  let w (k : Nat) : Word := BitVec.ofNat 64 (desc64 b k)
  ⟨w 0, w 1, w 2, w 3, none, false⟩

/-- A FORK gives back the slot it reserved. -/
def State.unreserve (s : State) (t : Nat) (room : Bool) : State :=
  if room then s.modCore (coreOf t) fun c => { c with reserved := c.reserved - 1 } else s

/-- A FORK whose counter is incremented: it pushes into its slot, or runs the task inline as a call. -/
def State.forkEnd (s : State) (t : Nat) (act : Act) (r : Rec) (room : Bool) (got : List (Nat × List Byte)) (dist : Nat) : State :=
  if room then
    if s.dequeBusy (coreOf t) then s.waitFor t act .cond [] got
    else (((s.unreserve t true).pushRec (coreOf t) r)).finish t 4 dist
  else
    (s.modThread t fun th =>
      { ((((th.wr 1 (th.pc + 4)).wr 10 r.a0).wr 11 r.a1).wr 12 r.jc) with depth := th.depth + 1 }).jump t r.pc true dist

/-- FORK: it reads the record, judges the deque, increments the join counter, and pushes or calls. -/
def State.fork (s : State) (t : Nat) (ib : Word) (k : RClass) (a : Word) (rec : Option Rec) (room : Bool)
    (got : List (Nat × List Byte)) : State :=
  let count (s : State) (r : Rec) (room : Bool) : State :=
    let act := Act.fork ib k a (some r) room
    if r.jc = 0 then s.forkEnd t act r room got class2
    else match s.access t r.jc 8 8 .atomic needRWA with
      | (.bad c, s) => (s.unreserve t room).trap t c r.jc
      | (.absent gva, s) => (s.unreserve t room).pageAbsent t 0 gva needRWA r.jc (.fork ib k a none false)
      | (.ok loc, s) =>
        if s.lineBusy t loc 8 then s.parkOn t act (.lines (linesOf loc 8))
        else s.ask t act k [] (fun _ => false) [⟨0, .amo .add 8 1 0, r.jc, loc⟩]
  match rec with
  | some r => if got.isEmpty then count s r room else s.forkEnd t (.fork ib k a rec room) r room got class2
  | none =>
    match s.readBlock t (.fork ib k a none false) a 32 8 .o got with
    | .error s => s
    | .ok (b, s) =>
      let r := recOf b
      let room := !s.dequeFull (coreOf t)
      if !room && (s.thread t).depth == 255 then s.trap t 0x6A ib
      else
        let s := if room then s.modCore (coreOf t) fun c => { c with reserved := c.reserved + 1 } else s
        if r.jc = 0 then s.forkEnd t (.fork ib k a (some { r with jc := 0 }) room) r room [] class2 else count s r room

def execFork (k : RClass) (b : Reg) (s : State) : Out1 :=
  .next (s.fork s.cur (ibits (.fork k b)) k (s.g b) none false [])

/-! ### JOIN (13 R198) -/

/-- A counter in another package, which that package reads for every read that the thread sends. -/
def State.farCounter (s : State) (loc : Nat) : Bool := match s.placeOf loc with | some (.far _) => true | _ => false

/-- JOIN reads its counter; while it is nonzero the home reads it again, within 1,024 cycles and at each decrement. A counter of another
package is read anew, 1,024 cycles after its last read was sent. -/
def State.join (s : State) (t : Nat) (k : RClass) (a : Word) (loc : Nat) (again : Bool) (got : List (Nat × List Byte)) : State :=
  let wait (s : State) (loc : Nat) : State :=
    let sent := match (s.thread t).wait with | some w => w.since | none => s.now
    (s.parkOn t (.join k a loc false) .counter).joinTimer t (if s.farCounter loc then max s.now (sent + 1024) else s.now + 1024)
  let read (s : State) : State :=
    s.reach t a 8 8 .block needR (.join k a 0 false) fun loc s =>
      if inLs (coreOf t) loc then
        if s.poisonedIn loc 8 then (s.touchLines loc 8 (s.thread t).asid).trap t 0x91 a
        else if leNat (readMem s.mem loc 8) = 0 then (s.readOwn t loc 8).finish t 4 class2
        else wait (s.readOwn t loc 8) loc
      else if s.lineBusy t loc 8 then s.parkOn t (.join k a loc false) (.lines (linesOf loc 8))
      else s.ask t (.join k a loc false) k [] (fun _ => false) [⟨0, .read 8, a, loc⟩]
  match got with
  | (_, b) :: _ => if leNat b = 0 then s.finish t 4 class1 else if again then read s else wait s loc
  | [] => read s

def execJoin (k : RClass) (b : Reg) (s : State) : Out1 := .next (s.join s.cur k (s.g b) 0 false [])

/-- The word of a counter's home reaches a JOIN that still waits for it. -/
def State.joinEnd (s : State) (t : Nat) : State :=
  match s.joins.find? fun x => x.tid == t with
  | none => s
  | some x =>
    let s := { s with joins := s.joins.erase x }
    match (s.thread t).wait with
    | some ⟨.join _ a _ _, why, _, _, _, _⟩ =>
      if (s.thread t).issuedAt ≠ x.issued ∨ (why ≠ .counter ∧ why ≠ .replies) ∨ s.isSuspended (coreOf t) then s
      else match x.cause with
        | some c => s.trap t c a
        | none => (s.mergeStamp (dieOf (coreOf t)) x.stamp).finish t 4 class1
    | _ => s

/-- The counter that a JOIN waits for is due to be read again. -/
def State.joinAgain (s : State) (t issued : Nat) : State :=
  match (s.thread t).wait, s.joinLoc t with
  | some ⟨.join k a _ _, _, _, _, _, _⟩, some loc =>
    if (s.thread t).issuedAt ≠ issued ∨ s.isSuspended (coreOf t) then s
    else if s.farCounter loc then s.join t k a 0 false []
    else (s.joinRead t loc).joinTimer t (s.now + 1024)
  | _, _ => s

/-- A JOIN's counter is read at its home, or what the home found reaches the thread. -/
def execJoinPoll (s : State) : Out1 :=
  .next (if s.arg.yes then s.joinEnd s.arg.n else s.joinAgain s.arg.n s.arg.k)

/-! ### Root records of steps (01 R21; 15 R204) -/

def State.entry (s : State) (e : Nat) : StepEntry := s.steps.get noStep e
def State.modEntry (s : State) (e : Nat) (f : StepEntry → StepEntry) : State :=
  { s with steps := s.steps.set noStep e (f (s.entry e)) }

/-- The root record of an entry. -/
def rootRec (x : StepEntry) (e : Nat) : Rec := ⟨x.pc, x.a0, x.a1, 0, some e, false⟩

/-- The lead core of an entry's component. -/
def State.leadOf (s : State) (e : Nat) : Nat := (s.comp (s.entry e).comp.toNat).lead.toNat

/-- Push a record into a deque, or hold it until a slot is free; a suspended component's stays held (27 R279). -/
def State.pushOrHold (s : State) (c e : Nat) (r : Rec) : State :=
  if s.dequeFull c || s.dequeBusy c || s.forkWaits c then { s with held := s.held ++ [r] }.owe (s.now + 1) .sequencerRootPush (Arg.num e)
  else s.pushRec c r

/-- Push root (15 R204): the sequencer on die 8 sends the record to the lead core, in half the round trip of 29 R298, and holds it until
the deque has taken it (DESIGN CHOICE, log entry 12: no rule times the way). -/
def State.pushRoot (s : State) (e : Nat) : State :=
  let c := s.leadOf e
  { s with held := s.held ++ [rootRec (s.entry e) e] }.carry 8 (dieOf c) (requestGroup (s.comp (s.entry e).comp.toNat).asid)
    (fabricTrip 8 (.core c 0) / 2) .sequencerRootPush (Arg.num e) none

/-- A held record is pushed once a slot is free and its component is not suspended. -/
def execSequencerRootPush (s : State) : Out1 :=
  let e := s.arg.n
  .next (match s.held.find? (fun r => r.root == some e) with
    | none => s
    | some r => if s.isSuspended (s.leadOf e) then s else { s with held := s.held.erase r }.pushOrHold (s.leadOf e) e r)

/-- The step of an entry ends: a pending start goes on running, and its root record is pushed (15 R204). While its component is suspended RUN and PEND are kept, and the end counts when it is resumed (27 R279). -/
def State.stepEnd (s : State) (e : Nat) : State :=
  if s.isSuspended (s.leadOf e) then { s with stepsOver := s.stepsOver ++ [e] }
  else if (s.entry e).pend then
    (s.modEntry e fun x => { x with pend := false }).pushRoot e
  else s.modEntry e fun x => { x with run := false }

/-! ### TEND (01 R20; 13 R199) -/

/-- A task ends: at depth 0 the thread becomes idle, else it returns to g1. -/
def State.taskEnd (s : State) (t : Nat) : State :=
  let th := s.thread t
  if th.depth = 0 then
    let at' := nextReady s.now th class1
    let s := s.modThread t fun th =>
      { th with st := .idle, idleSince := at', wait := none, root := none, late := at', fetched := [] }
    match th.root with | some e => s.stepEnd e | none => s
  else (s.modThread t fun th => { th with depth := th.depth - 1 }).jump t (th.rd 1) false class1

/-- TEND: after the thread's earlier accesses it decrements the join counter of g12 and ends the task. -/
def State.tend (s : State) (t : Nat) (k : RClass) (got : List (Nat × List Byte)) : State :=
  let act := Act.tend k
  let jc := (s.thread t).rd 12
  if !got.isEmpty then s.taskEnd t
  else if !s.pathTDone t then s.parkOn t act .performed
  else if jc = 0 then s.taskEnd t
  else s.reach t jc 8 8 .atomic needRWA act fun loc s =>
    s.ask t act k [] (fun _ => false) [⟨0, .amo .add 8 (BitVec.allOnes 64) 0, jc, loc⟩]

/-- TEND reports a recorded matrix error, then the copy error of the lowest tag, before it acts (13 R166, R199). -/
def execTend (k : RClass) (s : State) : Out1 :=
  .next (match s.th.mxErr with
    | some e => s.reportMatrix s.cur e
    | none =>
      match (List.range 8).find? fun i => (s.th.cpErr.get none i).isSome with
      | some i => (match s.th.cpErr.get none i with | some e => s.reportCopy s.cur i e | none => s)
      | none => s.tend s.cur k [])

/-! ### Takes and steals (01 R18, R19; 15 R207, R208) -/

/-- A thread takes a record (01 R18); a pending overrun fault of its step is raised at its first issue (15 R205). -/
def State.takeRec (s : State) (t : Nat) (r : Rec) : State :=
  (s.modThread t fun th =>
    { th with
      g := ((th.g.set 0 10 r.a0).set 0 11 r.a1).set 0 12 r.jc
      depth := 0, pc := r.pc, st := .ready, readyAt := s.now + 1, fetched := [], root := r.root, oldG := []
      async := match r.root with | some e => if r.ovr then some ⟨0xA2, BitVec.ofNat 64 e⟩ else th.async | none => th.async }).youngest t

/-- The idle thread of a core that has been idle longest takes the landing slot's record, else the bottom record; the end of the
cycle looks whether another take is due (`seekWork`). -/
def State.taskTake (s : State) (c : Nat) : State :=
  match longestIdle s (s.idles c) with
  | none => s
  | some t =>
    if s.isSuspended c then s
    else match (s.core c).landing, (s.core c).deque.getLast? with
    | some r, some _ => ((s.modCore c fun k => { k with landing := none }).takeRec t r).owe s.now .taskTake (Arg.num c)
    | some r, none => (s.modCore c fun k => { k with landing := none }).takeRec t r
    | none, some r =>
      if s.dequeBusy c then s
      else (s.modCore c fun k => { k with deque := k.deque.dropLast, dqUsed := some s.now }).takeRec t r
    | none, none => s

def execTaskTake (s : State) : Out1 := .next (s.taskTake s.arg.n)

/-- The other cores of a core's stealing domain, by core id. -/
def State.domain (s : State) (c : Nat) : List Nat :=
  let n := match (s.compOf c).stealdom.toNat with | 0 => 1 | 1 => 16 | 2 => 1024 | _ => 8192
  ((List.range n).map (c / n * n + ·)).filter fun x => x != c && (s.core x).comp.isSome && (s.core x).comp == (s.core c).comp

/-- The first of a list above a number, else the first. -/
def after (l : List Nat) (c : Nat) : Option Nat :=
  match l.find? (fun x => decide (c < x)) with | some x => some x | none => l.head?

/-- The round trip of a steal (29 R298). -/
def stealTrip (a b : Nat) : Nat := if a / 16 = b / 16 then 8 else trip (clusterOf a) (.core b 0)

/-- The core sends a steal request (01 R19; 15 R208). -/
def State.wantsSteal (s : State) (c : Nat) : Bool :=
  let k := s.core c
  !((s.idles c).isEmpty || !k.deque.isEmpty || k.landing.isSome || k.stealOut || decide (s.now < k.backUntil) || s.isSuspended c)
    && !(s.domain c).isEmpty

/-- A core with an idle thread takes a record if it holds one, else asks for one, in the first cycle that permits it. -/
def State.seekWork (s : State) (c : Nat) : State :=
  let owed (i : Instr) : Bool := s.pending.any fun d => d.ev.what == i && d.ev.arg.n == c && decide (d.due ≤ s.now)
  if (s.idles c).isEmpty || s.isSuspended c then s
  else if (s.core c).landing.isSome || !(s.core c).deque.isEmpty then
    if owed .taskTake then s else s.owe s.now .taskTake (Arg.num c)
  else if s.wantsSteal c && !owed .stealRequest then s.owe s.now .stealRequest (Arg.num c)
  else s

/-- A steal request goes to the core at the victim pointer, which moves on (01 R19; 15 R208). -/
def State.stealRequest (s : State) (c : Nat) : State :=
  let k := s.core c
  if !s.wantsSteal c then s
  else
    let l := s.domain c
    match (match k.victim with | some v => if l.contains v then some v else after l v | none => after l c) with
    | none => s
    | some v =>
      { s.modCore c fun k => { k with stealOut := true, victim := after l v } with steals := s.steals ++ [(c, v, none)] }.carry
        (dieOf c) (dieOf v) (requestGroup (s.compOf c).asid) (stealTrip c v / 2) .stealService (Arg.num c) none

def execStealRequest (s : State) : Out1 := .next (s.stealRequest s.arg.n)

/-- A victim answers a thief's request with its top record, or empty; a suspended component answers empty (27 R279). -/
def State.stealService (s : State) (c : Nat) : State :=
  match s.steals.find? (fun x => x.1 == c && x.2.2.isNone) with
  | none => s
  | some x =>
    let v := x.2.1
    let reply (s : State) (r : Option Rec) : State :=
      { s with steals := s.steals.map fun y => if y = x then (c, v, some r) else y }.carry
        (dieOf v) (dieOf c) replyGroup (stealTrip c v - stealTrip c v / 2) .stealReply (Arg.num c) none
    if s.isSuspended v then reply s none
    else if s.dequeBusy v || s.forkWaits v then s.owe (s.now + 1) .stealService (Arg.num c)
    else match (s.core v).deque with
      | [] => reply (s.modCore v fun k => { k with dqUsed := some s.now }) none
      | r :: rest => reply (s.modCore v fun k => { k with deque := rest, dqUsed := some s.now }) (some r)

def execStealService (s : State) : Out1 := .next (s.stealService s.arg.n)

/-- A reply: a record goes to the landing slot, "empty" starts or doubles the back-off. -/
def State.stealReply (s : State) (c : Nat) : State :=
  match s.steals.find? (fun x => x.1 == c && x.2.2.isSome) with
  | none => s
  | some x =>
    let s := { s with steals := s.steals.erase x }
    match x.2.2 with
    | some (some r) =>
      (s.modCore c fun k => { k with stealOut := false, landing := some r, backoff := 64, backUntil := 0 }).owe s.now .taskTake
        (Arg.num c)
    | _ =>
      let b := (s.core c).backoff
      (s.modCore c fun k => { k with stealOut := false, backUntil := s.now + b, backoff := min 4096 (2 * b) }).owe (s.now + b)
        .stealBackoffExpiry (Arg.num c)

def execStealReply (s : State) : Out1 := .next (s.stealReply s.arg.n)

/-- The back-off runs out: the core may send its next request. -/
def execStealBackoffExpiry (s : State) : Out1 :=
  let c := s.arg.n
  .next (if s.now < (s.core c).backUntil then s else
    (s.modCore c fun k => { k with backUntil := 0 }).seekWork c)

/-! ### Barriers (13 R200, R201) -/

/-- The core and index that hold a barrier. -/
def barHome (t : Nat) (cl : Bool) (b : Nat) : Nat × Nat := if cl then (clusterOf (coreOf t) * 16, 4 + b) else (coreOf t, b)

/-- A thread parked at a barrier. -/
def Thread.atBar (th : Thread) (cl : Bool) (b : Nat) : Bool :=
  match th.wait with | some ⟨.bar _ c x, .gen _, _, _, _, _⟩ => c == cl && x == b | _ => false

/-- A thread's barrier instruction completes; it is eligible at a given cycle. -/
def State.leaveBar (s : State) (t at' : Nat) : State :=
  (s.finish t 4 class1).modThread t fun th => { th with readyAt := at' }

/-- An arrival whose earlier accesses are performed is counted; the one that reaches NEED releases the generation. -/
def State.countArrival (s : State) (t : Nat) (ib : Word) (cl : Bool) (b : Nat) : State :=
  let h := barHome t cl b
  let x := s.bar h.1 h.2
  if x.need ≤ x.count + 1 then
    let s := s.setBar h.1 h.2 { x with count := 0, gen := !x.gen }
    let ts := (List.range (if cl then 256 else 16)).map (h.1 * 16 + ·)
    let s := (ts.filter fun u => (s.thread u).atBar cl b).foldl (fun s u =>
      s.leaveBar u (s.now + (if coreOf u = coreOf t then 4 else 8))) s
    s.leaveBar t (s.now + 4)
  else (s.setBar h.1 h.2 { x with count := x.count + 1 }).parkOn t (.bar ib cl b) (.gen x.gen)

/-- An arrival: NEED 0 raises 0x69; it waits for the thread's earlier accesses, then it is counted. NEED is tested at issue and once more
when the arrival is to be counted (DESIGN CHOICE, log entry 52: R201 does not say when). -/
def State.arrive (s : State) (t : Nat) (ib : Word) (cl : Bool) (b : Nat) : State :=
  let h := barHome t cl b
  if (s.bar h.1 h.2).need = 0 then s.trap t 0x69 ib
  else if !s.pathTDone t then s.parkOn t (.bar ib cl b) .performed
  else s.countArrival t ib cl b

def execBarc (b : Fin 4) (s : State) : Out1 := .next (s.arrive s.cur (ibits (.barc b)) false b.val)
def execBark (b : Fin 16) (s : State) : Out1 := .next (s.arrive s.cur (ibits (.bark b)) true b.val)

/-- A waiting arrival is counted once its thread's earlier accesses are performed. -/
def execBarrierArrivalCount (s : State) : Out1 :=
  let t := s.arg.n
  .next (match (s.thread t).wait with
    | some ⟨.bar ib cl b, .performed, _, _, _, _⟩ => s.arrive t ib cl b
    | _ => s)

end Sys2Proof.Machine
end

