-- ==== Sys2Proof/Machine/VInt.lean ====
section
/-!
DEFINITION. VSET (09 R122), VINT (R123 to R125) and the integer lane parcels (R141; 05 R46).
-/

namespace Sys2Proof.Machine

/-! ### VSETL and VSETLI -/

/-- Set VTYPE and VL from a type and a requested length (09 R122). -/
def State.setType (s : State) (d : Reg) (avl t : Word) : Out1 :=
  let bad := decide (3 < t.toNat % 8) || t >>> 7 != 0
  let vt : Word := if bad then 0x8000000000000000 else t
  let vlmax := 512 * 2 ^ (t.toNat / 8 % 4) / (8 * 2 ^ (t.toNat % 8))
  let vl : Word := if bad then 0 else if avl.toNat ≤ vlmax then avl else BitVec.ofNat 64 vlmax
  .next ((s.modTh fun th => { th with vtype := vt, vl := vl }.wr d vl).vDone 4 class1)

def execVsetl (d b c : Reg) (s : State) : Out1 := s.setType d (s.g b) (s.g c)
def execVsetli (sew : Fin 8) (grp : Fin 4) (ta ma : Bool) (d b : Reg) (s : State) : Out1 :=
  s.setType d (s.g b) (BitVec.ofNat 64 (sew.val + 8 * grp.val + 32 * bit ta + 64 * bit ma))

/-! ### Element operations, on values below 2^w -/

def eAdd (_ a b _ : Nat) : Nat := a + b
def eSub (w a b _ : Nat) : Nat := wrapI w ((a : Int) - b)
def eRsub (w a b _ : Nat) : Nat := wrapI w ((b : Int) - a)
def eMul (_ a b _ : Nat) : Nat := a * b
def eMulh (w a b _ : Nat) : Nat := wrapI w (sgn w a * sgn w b / 2 ^ w)
def eMulhu (w a b _ : Nat) : Nat := a * b / 2 ^ w
def eMacc (_ a b d : Nat) : Nat := d + a * b
def eNmsac (w a b d : Nat) : Nat := wrapI w ((d : Int) - a * b)
def eAnd (_ a b _ : Nat) : Nat := a &&& b
def eOr (_ a b _ : Nat) : Nat := a ||| b
def eXor (_ a b _ : Nat) : Nat := a ^^^ b
def eSll (w a b _ : Nat) : Nat := a * 2 ^ (b % w)
def eSrl (w a b _ : Nat) : Nat := a / 2 ^ (b % w)
def eSra (w a b _ : Nat) : Nat := wrapI w (sgn w a / 2 ^ (b % w))
def eMin (w a b _ : Nat) : Nat := if sgn w a ≤ sgn w b then a else b
def eMax (w a b _ : Nat) : Nat := if sgn w a ≤ sgn w b then b else a
def eMinu (_ a b _ : Nat) : Nat := min a b
def eMaxu (_ a b _ : Nat) : Nat := max a b
def eFshl (w a b d : Nat) : Nat := (d * 2 ^ w + a) * 2 ^ (b % w) / 2 ^ w
def eFshr (w a b d : Nat) : Nat := (d * 2 ^ w + a) / 2 ^ (b % w)

/-! ### VINT (09 R123) -/

def execVadd (f : VForm) (m : MReg) (d c b : Reg) (s : State) : Out1 :=
  s.vInt (.vadd f m d c b) f m d c b false class2 eAdd
def execVsub (f : VForm) (m : MReg) (d c b : Reg) (s : State) : Out1 :=
  s.vInt (.vsub f m d c b) f m d c b false class2 eSub
def execVrsub (f : VForm) (m : MReg) (d c b : Reg) (s : State) : Out1 :=
  s.vInt (.vrsub f m d c b) f m d c b false class2 eRsub
def execVmul (f : VForm) (m : MReg) (d c b : Reg) (s : State) : Out1 :=
  s.vInt (.vmul f m d c b) f m d c b false class2 eMul
def execVmulh (f : VForm) (m : MReg) (d c b : Reg) (s : State) : Out1 :=
  s.vInt (.vmulh f m d c b) f m d c b false class2 eMulh
def execVmulhu (f : VForm) (m : MReg) (d c b : Reg) (s : State) : Out1 :=
  s.vInt (.vmulhu f m d c b) f m d c b false class2 eMulhu
def execVmacc (f : VForm) (m : MReg) (d c b : Reg) (s : State) : Out1 :=
  s.vInt (.vmacc f m d c b) f m d c b false class2 eMacc
def execVnmsac (f : VForm) (m : MReg) (d c b : Reg) (s : State) : Out1 :=
  s.vInt (.vnmsac f m d c b) f m d c b false class2 eNmsac
def execVand (f : VForm) (m : MReg) (d c b : Reg) (s : State) : Out1 :=
  s.vInt (.vand f m d c b) f m d c b false class2 eAnd
def execVor (f : VForm) (m : MReg) (d c b : Reg) (s : State) : Out1 :=
  s.vInt (.vor f m d c b) f m d c b false class2 eOr
def execVxor (f : VForm) (m : MReg) (d c b : Reg) (s : State) : Out1 :=
  s.vInt (.vxor f m d c b) f m d c b false class2 eXor
def execVsll (f : VForm) (m : MReg) (d c b : Reg) (s : State) : Out1 :=
  s.vInt (.vsll f m d c b) f m d c b true class2 eSll
def execVsrl (f : VForm) (m : MReg) (d c b : Reg) (s : State) : Out1 :=
  s.vInt (.vsrl f m d c b) f m d c b true class2 eSrl
def execVsra (f : VForm) (m : MReg) (d c b : Reg) (s : State) : Out1 :=
  s.vInt (.vsra f m d c b) f m d c b true class2 eSra
def execVmin (f : VForm) (m : MReg) (d c b : Reg) (s : State) : Out1 :=
  s.vInt (.vmin f m d c b) f m d c b false class2 eMin
def execVmax (f : VForm) (m : MReg) (d c b : Reg) (s : State) : Out1 :=
  s.vInt (.vmax f m d c b) f m d c b false class2 eMax
def execVminu (f : VForm) (m : MReg) (d c b : Reg) (s : State) : Out1 :=
  s.vInt (.vminu f m d c b) f m d c b false class2 eMinu
def execVmaxu (f : VForm) (m : MReg) (d c b : Reg) (s : State) : Out1 :=
  s.vInt (.vmaxu f m d c b) f m d c b false class2 eMaxu
def execVfshl (f : VForm) (m : MReg) (d c b : Reg) (s : State) : Out1 :=
  s.vInt (.vfshl f m d c b) f m d c b true class2 eFshl
def execVfshr (f : VForm) (m : MReg) (d c b : Reg) (s : State) : Out1 :=
  s.vInt (.vfshr f m d c b) f m d c b true class2 eFshr
def execVclz (m : MReg) (d c : Reg) (s : State) : Out1 :=
  s.vInt (.vclz m d c) .vx m d c 0 false class2 fun w a _ _ => clzBits w a
def execVpopc (m : MReg) (d c : Reg) (s : State) : Out1 :=
  s.vInt (.vpopc m d c) .vx m d c 0 false class2 fun w a _ _ => popBits w a

/-! ### Compares (09 R124) -/

def execVseq (f : VForm) (m d : MReg) (c b : Reg) (s : State) : Out1 :=
  s.vCmp (.vseq f m d c b) f m d c b fun _ a b => a == b
def execVsne (f : VForm) (m d : MReg) (c b : Reg) (s : State) : Out1 :=
  s.vCmp (.vsne f m d c b) f m d c b fun _ a b => a != b
def execVslt (f : VForm) (m d : MReg) (c b : Reg) (s : State) : Out1 :=
  s.vCmp (.vslt f m d c b) f m d c b fun w a b => decide (sgn w a < sgn w b)
def execVsltu (f : VForm) (m d : MReg) (c b : Reg) (s : State) : Out1 :=
  s.vCmp (.vsltu f m d c b) f m d c b fun _ a b => decide (a < b)
def execVsle (f : VForm) (m d : MReg) (c b : Reg) (s : State) : Out1 :=
  s.vCmp (.vsle f m d c b) f m d c b fun w a b => decide (sgn w a ≤ sgn w b)
def execVsleu (f : VForm) (m d : MReg) (c b : Reg) (s : State) : Out1 :=
  s.vCmp (.vsleu f m d c b) f m d c b fun _ a b => decide (a ≤ b)

/-! ### VMERGE and VMV (09 R125) -/

/-- The mask selects, and every body element is written. -/
def execVmerge (f : VForm) (m : MReg) (d c b : Reg) (s : State) : Out1 :=
  let th := s.th
  let x := th.vctx 0 true
  let w := th.sew
  s.vRun (.vmerge f m d c b) true (th.group d :: th.group c :: th.groupB f b) false x class2
    (.next ((s.putElems s.cur d.val w th.grp (x.written w fun j =>
      if (th.rdM m).getLsbD j then s.opB f b w false j else s.elem s.cur c.val w j)).vDone 4 class2))

/-- Write operand b into every body element. -/
def State.vMove (s : State) (i : Instr) (f : VForm) (d b : Reg) (dist : Nat) : Out1 :=
  let th := s.th
  let x := th.vctx 0 true
  let w := th.sew
  s.vRun i true (th.group d :: th.groupB f b) false x dist
    (.next ((s.putElems s.cur d.val w th.grp (x.written w fun j => s.opB f b w false j)).vDone (lenOf i) dist))

def execVmv (f : VForm) (d b : Reg) (s : State) : Out1 := s.vMove (.vmv f d b) f d b class2

/-! ### Integer lane parcels (05 R46; 09 R141) -/

/-- Form bit 0 names vs, 1 names g[vs]. -/
def parcelForm (x : Bool) : VForm := if x then .vx else .vv

def execVmvParcel (x : Bool) (d b : Reg) (s : State) : Out1 := s.vMove (.vmvParcel x d b) (parcelForm x) d b class1
def execVaddParcel (x : Bool) (d b : Reg) (s : State) : Out1 :=
  s.vInt (.vaddParcel x d b) (parcelForm x) 0 d d b false class1 eAdd
def execVsubParcel (x : Bool) (d b : Reg) (s : State) : Out1 :=
  s.vInt (.vsubParcel x d b) (parcelForm x) 0 d d b false class1 eSub
def execVmulParcel (x : Bool) (d b : Reg) (s : State) : Out1 :=
  s.vInt (.vmulParcel x d b) (parcelForm x) 0 d d b false class1 eMul
def execVandParcel (x : Bool) (d b : Reg) (s : State) : Out1 :=
  s.vInt (.vandParcel x d b) (parcelForm x) 0 d d b false class1 eAnd
def execVorParcel (x : Bool) (d b : Reg) (s : State) : Out1 :=
  s.vInt (.vorParcel x d b) (parcelForm x) 0 d d b false class1 eOr
def execVxorParcel (x : Bool) (d b : Reg) (s : State) : Out1 :=
  s.vInt (.vxorParcel x d b) (parcelForm x) 0 d d b false class1 eXor
def execVsllParcel (x : Bool) (d b : Reg) (s : State) : Out1 :=
  s.vInt (.vsllParcel x d b) (parcelForm x) 0 d d b true class1 eSll
def execVsrlParcel (x : Bool) (d b : Reg) (s : State) : Out1 :=
  s.vInt (.vsrlParcel x d b) (parcelForm x) 0 d d b true class1 eSrl
def execVminParcel (x : Bool) (d b : Reg) (s : State) : Out1 :=
  s.vInt (.vminParcel x d b) (parcelForm x) 0 d d b false class1 eMin
def execVmaxParcel (x : Bool) (d b : Reg) (s : State) : Out1 :=
  s.vInt (.vmaxParcel x d b) (parcelForm x) 0 d d b false class1 eMax

end Sys2Proof.Machine
end

