-- ==== Sys2Proof/Machine/VMem.lean ====
section
/-!
DEFINITION. Vector memory instructions (11 R155 to R159) and compressed records (R160 to R162).
-/

namespace Sys2Proof.Machine

/-! ### Elements in order, up to the first that fails (11 R157) -/

/-- Check elements in order and find their locations, up to the first that fails. -/
def State.scan (s : State) (t : Nat) (kind : AKind) (n : Need) (z : Nat) :
    List VElem → List (VElem × Nat) → List (VElem × Nat) × Option VStop × State
  | [], acc => (acc.reverse, none, s)
  | e :: rest, acc =>
    match s.access t e.addr z z kind n with
    | (.bad c, s) => (acc.reverse, some (.trap e.idx ⟨c, e.addr⟩), s)
    | (.absent gva, s) => (acc.reverse, some (.page e.idx gva e.addr), s)
    | (.ok loc, s) =>
      if kind = .load ∧ inLs (coreOf t) loc ∧ s.poisonedIn loc z then
        (acc.reverse, some (.trap e.idx ⟨0x91, e.addr⟩), s.touchLines loc z (s.thread t).asid)
      else match (if kind = .store then s.cwRefuse loc e.bytes (s.thread t).privileged else none) with
      | some c => (acc.reverse, some (.trap e.idx ⟨c, e.addr⟩), s)
      | none => s.scan t kind n z rest ((e, loc) :: acc)

def VStop.idx : VStop → Nat | .trap j _ => j | .page j _ _ => j

/-- The instruction stops at an element: VSTART records it, and the cause is raised or the thread parks. -/
def State.stopAt (s : State) (t : Nat) (act : Act) (n : Need) (st : VStop) : State :=
  let s := s.modThread t fun th => { th with vstart := BitVec.ofNat 64 st.idx }
  match st with
  | .trap _ e => s.trap t e.cause e.tval
  | .page _ gva tv => s.pageAbsent t 0 gva n tv act

/-- The lower of two stops. -/
def lowerStop : Option VStop → Option VStop → Option VStop
  | none, y => y
  | x, none => x
  | some x, some y => if x.idx ≤ y.idx then some x else some y

/-- The lower of an element that was answered with a cause and one that failed its checks. -/
def firstStop (bad : Option (Nat × Err)) (stop : Option VStop) : Option VStop :=
  match bad, stop with
  | some b, some x => if b.1 < x.idx then some (.trap b.1 b.2) else some x
  | some b, none => some (.trap b.1 b.2)
  | none, x => x

/-! ### Loads (11 R155 to R158) -/

/-- A vector load ends: elements below a failing one are written, and VLDFF trims VL, which it never raises, at one that is not the
first. -/
def State.vloadEnd (s : State) (t : Nat) (ff : Bool) (d : Reg) (c : VCtx) (got : List (Nat × List Byte))
    (stop : Option VStop) (dist : Nat) : State :=
  let w := 8 * c.eb
  let val (i : Nat) : Nat := match got.find? (fun p => p.1 == i) with | some p => leNat p.2 | none => 0
  let n := (s.thread t).grp
  match stop with
  | none =>
    ((s.putElems t d.val w n (c.written w val)).modThread t fun th => { th with vstart := 0 }).finish t 4 dist
  | some st =>
    if ff ∧ c.actives.head? ≠ some st.idx then
      let c' := { c with vl := st.idx }
      ((s.putElems t d.val w n (c'.written w val)).modThread t
        fun th => { th with vstart := 0, vl := BitVec.ofNat 64 (min st.idx th.vl.toNat) }).finish t 4 dist
    else (s.putElems t d.val w n ((c.written w val).filter fun e => decide (e.1 < st.idx))).stopAt t (.vload ff d c [] none .o) needR st

/-- A vector load: elements in the own local store are read in the cycle of issue (11 R145), the others asked for once no store
of the thread is in flight to their lines. `stop` and `got` hold what an earlier walk of the elements met and read. -/
def State.vload (s : State) (t : Nat) (ff : Bool) (d : Reg) (c : VCtx) (elems : List VElem) (stop : Option VStop) (k : RClass)
    (got : List (Nat × List Byte)) : State :=
  let r := s.scan t .load needR c.eb elems []
  let s := r.2.2
  let stop := lowerStop stop r.2.1
  let own := r.1.filter fun e => inLs (coreOf t) e.2
  let far := r.1.filter fun e => !inLs (coreOf t) e.2
  let got := got ++ own.map fun e => (e.1.idx, readMem s.mem e.2 c.eb)
  let s := s.readOwns t c.eb (own.map (·.2))
  let busy := far.filter fun e => s.lineBusy t e.2 c.eb
  if far.isEmpty then s.vloadEnd t ff d c got stop (if (s.thread t).wait.isSome then class1 else class2)
  else if busy.isEmpty then
    s.ask t (.vload ff d c [] stop k) k got (fun i => ff && c.actives.head? != some i)
      (far.map fun e => ⟨e.1.idx, .read c.eb, e.1.addr, e.2⟩)
  else s.waitFor t (.vload ff d c (far.map (·.1)) stop k) (.lines (busy.flatMap fun e => linesOf e.2 c.eb)) [] got

/-- Offset of element i from the base (11 R156). -/
inductive VMode where
  | unit
  | strided (c : Reg)
  | indexed (c : Reg) (w : Nat)
  deriving DecidableEq, Repr

def State.elemAddr (s : State) (m : VMode) (b : Reg) (i : Nat) : Word :=
  moveOff (s.g b) (match m with
    | .unit => (i * (s.th.sew / 8) : Nat)
    | .strided c => (s.g c).toInt * i
    | .indexed c w => (s.elem s.cur c.val w i : Nat))

def ewBits : Ew → Nat | .e8 => 8 | .e16 => 16 | .e32 => 32 | .e64 => 64

/-- The groups of a vector memory instruction and whether its element width is taken (11 R155). -/
def Thread.vmGroups (th : Thread) (m : VMode) (v : Reg) : List Group :=
  th.group v :: (match m with | .indexed c w => [th.sized c w] | _ => [])
def Thread.vmOk (th : Thread) (m : VMode) (ew : Ew) : Bool :=
  match m with | .indexed _ _ => true | _ => ewBits ew == th.sew

/-- A vector load instruction; in VLDX the destination must not meet the index group. -/
def State.execVload (s : State) (i : Instr) (ff : Bool) (m : VMode) (ew : Ew) (k : RClass) (mk : MReg) (v b : Reg) : Out1 :=
  let th := s.th
  let c := th.vctx mk true
  let gs := th.vmGroups m v
  s.vRun i (th.vmOk m ew) gs (gs.tail.any (th.group v).meets) c class2
    (.next (s.vload s.cur ff v c (c.actives.map fun j => ⟨j, s.elemAddr m b j, []⟩) none k []))

def execVld (ew : Ew) (k : RClass) (m : MReg) (v b : Reg) (s : State) : Out1 :=
  s.execVload (.vld ew k m v b) false .unit ew k m v b
def execVlds (ew : Ew) (k : RClass) (m : MReg) (v b c : Reg) (s : State) : Out1 :=
  s.execVload (.vlds ew k m v b c) false (.strided c) ew k m v b
def execVldx (ew : Ew) (k : RClass) (m : MReg) (v b c : Reg) (s : State) : Out1 :=
  s.execVload (.vldx ew k m v b c) false (.indexed c (ewBits ew)) ew k m v b
def execVldff (ew : Ew) (k : RClass) (m : MReg) (v b : Reg) (s : State) : Out1 :=
  s.execVload (.vldff ew k m v b) true .unit ew k m v b

/-! ### Stores (11 R155 to R157, R159) -/

/-- A vector store ends once every element below a failing one is accepted. -/
def State.vstoreEnd (s : State) (t : Nat) (stop : Option VStop) (dist : Nat) : State :=
  match stop with
  | none => (s.modThread t fun th => { th with vstart := 0 }).finish t 4 dist
  | some st => s.stopAt t (.vstore false [] none .o) needW st

/-- A vector store; `whole` marks VSTB, which writes nothing when a byte fails. Elements in the own local store are written in
the cycle of issue (11 R145); the others wait for room among the thread's stores in flight. `stop` holds what an earlier walk of
the elements met. -/
def State.vstore (s : State) (t : Nat) (whole : Bool) (elems : List VElem) (stop : Option VStop) (k : RClass) : State :=
  let z := match elems with | e :: _ => e.bytes.length | [] => 1
  let r := s.scan t .store needW z elems []
  let s := r.2.2
  match (if whole then r.2.1 else none) with
  | some (.trap _ e) => s.trap t e.cause e.tval
  | some (.page _ gva tv) => s.pageAbsent t 0 gva needW tv (.vstore true [] none k)
  | none =>
    let stop := lowerStop stop r.2.1
    let far := r.1.filter fun e => !inLs (coreOf t) e.2
    let own := r.1.filter fun e => inLs (coreOf t) e.2
    let s := own.foldl (fun s e => s.writeOwn t e.2 e.1.bytes k) (s.bankUses t (own.map (·.2)))
    if far.isEmpty then s.vstoreEnd t stop class2
    else if 16 ≤ s.inFlight t then s.parkOn t (.vstore whole (far.map (·.1)) stop k) .room
    else s.postAll t (.vstore whole [] stop k) k .accepts (far.map fun e => ⟨e.1.idx, .write e.1.bytes, e.1.addr, e.2⟩)

/-- A vector store instruction. -/
def State.execVstore (s : State) (i : Instr) (m : VMode) (ew : Ew) (k : RClass) (mk : MReg) (v b : Reg) : Out1 :=
  let th := s.th
  let c := th.vctx mk true
  s.vRun i (th.vmOk m ew) (th.vmGroups m v) false c class2
    (.next (s.vstore s.cur false (c.actives.map fun j =>
      ⟨j, s.elemAddr m b j, bytesOf c.eb (s.elem s.cur v.val th.sew j)⟩) none k))

def execVst (ew : Ew) (k : RClass) (m : MReg) (v b : Reg) (s : State) : Out1 :=
  s.execVstore (.vst ew k m v b) .unit ew k m v b
def execVsts (ew : Ew) (k : RClass) (m : MReg) (v b c : Reg) (s : State) : Out1 :=
  s.execVstore (.vsts ew k m v b c) (.strided c) ew k m v b
def execVstx (ew : Ew) (k : RClass) (m : MReg) (v b c : Reg) (s : State) : Out1 :=
  s.execVstore (.vstx ew k m v b c) (.indexed c (ewBits ew)) ew k m v b

/-- VSTB: the selected bytes of the group at consecutive offsets (11 R159). -/
def execVstb (ew : Ew) (k : RClass) (m : MReg) (v b : Reg) (s : State) : Out1 :=
  let th := s.th
  let c := th.vctx 0 false
  s.vRun (.vstb ew k m v b) (ewBits ew == th.sew) [th.group v] false c class2
    (.next (s.vstore s.cur true (((List.range (c.vl * c.eb)).filter fun i => (th.rdM m).getLsbD i).map fun i =>
      ⟨i, moveOff (s.g b) i, bytesOf 1 (s.elem s.cur v.val 8 i)⟩) none k))

/-! ### Compressed records (11 R160 to R162) -/

def ceilDiv (a b : Nat) : Nat := (a + b - 1) / b

/-- Length of a record of n elements of w bits, p of them stored. -/
def recordLen (n p w : Nat) : Nat := 8 + 8 * ceilDiv n 64 + 8 * ceilDiv (p * w) 64

/-- Element width code of a header. -/
def ewCode (w : Nat) : Nat := if w = 8 then 0 else if w = 16 then 1 else if w = 32 then 2 else 3

/-- A bitmask as a number. -/
def maskNat (l : List Bool) : Nat := l.foldr (fun b n => (if b then 1 else 0) + 2 * n) 0

/-- The record of some elements of w bits (11 R160). -/
def compress (w : Nat) (vals : List Nat) : List Byte :=
  let stored := vals.filter (· ≠ 0)
  let n := vals.length
  let len := recordLen n stored.length w
  let body := bytesOf 8 (len + 2 ^ 16 * n + 2 ^ 32 * ewCode w)
    ++ bytesOf (8 * ceilDiv n 64) (maskNat (vals.map (· ≠ 0))) ++ stored.flatMap (bytesOf (w / 8))
  body ++ bytesOf (len - body.length) 0

/-- Check the bytes of a region in order: the first is aligned to 8 (11 R144, R161). -/
def State.scanBytes (s : State) (t : Nat) (a : Word) : List Nat → List (Nat × Nat) → List (Nat × Nat) × Option VStop × State
  | [], acc => (acc.reverse, none, s)
  | i :: rest, acc =>
    let w := moveOff a i
    match s.access t w 1 (if i = 0 then 8 else 1) .store needW with
    | (.bad c, s) => (acc.reverse, some (.trap i ⟨c, w⟩), s)
    | (.absent gva, s) => (acc.reverse, some (.page i gva w), s)
    | (.ok loc, s) => s.scanBytes t a rest ((i, loc) :: acc)

/-- Runs of a record's bytes of one 8-byte word that lie side by side, each of whose locations was found by itself: index and location
of the first byte, and how many. -/
def runsOf : List (Nat × Nat) → List (Nat × Nat × Nat)
  | [] => []
  | e :: r =>
    match runsOf r with
    | x :: l => if x.1 = e.1 + 1 ∧ x.2.1 = e.2 + 1 ∧ x.1 % 8 ≠ 0 then (e.1, e.2, x.2.2 + 1) :: l else (e.1, e.2, 1) :: x :: l
    | [] => [(e.1, e.2, 1)]

/-- VSTZ: bytes are written up to the first that fails, and the instruction is then issued again from its beginning. Those in the
own local store are written in the cycle of issue (11 R145). -/
def State.vstz (s : State) (t : Nat) (a : Word) (bytes : List Byte) (k : RClass) : State :=
  let act := Act.vstz a bytes k
  let r := s.scanBytes t a (List.range bytes.length) []
  let s := r.2.2
  let far := r.1.filter fun e => !inLs (coreOf t) e.2
  let own := r.1.filter fun e => inLs (coreOf t) e.2
  let s := if (s.thread t).wait.isSome then s
    else own.foldl (fun s e => s.writeOwn t e.2 [bytes.getD e.1 0] k) (s.bankUses t (own.map (·.2)))
  if !far.isEmpty ∧ 16 ≤ s.inFlight t then s.parkOn t act .room
  else
    let wants : List Want := (runsOf far).map fun e => ⟨e.1, .write (takeBytes bytes e.1 e.2.2), moveOff a e.1, e.2.1⟩
    let s := if wants.isEmpty then s else s.postAll t act k .replies wants
    match r.2.1 with
    | some (.trap _ e) => s.trap t e.cause e.tval
    | some (.page _ gva tv) => s.pageAbsent t 0 gva needW tv act
    | none =>
      if wants.isEmpty then (s.modThread t fun th => { th with vstart := 0 }).finish t 4 class3 else s

def execVstz (ew : Ew) (k : RClass) (v b c : Reg) (s : State) : Out1 :=
  let th := s.th
  let x := th.vctx 0 false
  s.vRun (.vstz ew k v b c) (ewBits ew == th.sew) [th.group v] false x class3
    (let bytes := compress th.sew ((List.range x.vl).map fun i => s.elem s.cur v.val th.sew i)
     if (s.g c).toNat < bytes.length then s.raise 0x62 (s.g b + BitVec.ofNat 64 bytes.length)
     else .next (s.vstz s.cur (s.g b) bytes k))

/-- The byte at an index among bytes read so far, in runs. -/
def byteAtIdx (got : List (Nat × List Byte)) (i : Nat) : Option Byte :=
  (got.find? fun p => decide (p.1 ≤ i) && decide (i < p.1 + p.2.length)).map fun p => p.2.getD (i - p.1) 0

/-- The bytes of a region that are not at hand, each checked and located by itself (11 R162): those in the own local store, and the
others; a cause or an absent page ends the walk. -/
def State.scanRegion (s : State) (t : Nat) (act : Act) (a : Word) (got : List (Nat × List Byte)) :
    List Nat → List (Nat × Nat) → List (Nat × Nat) → Except State (List (Nat × Nat) × List (Nat × Nat) × State)
  | [], own, far => .ok (own.reverse, far.reverse, s)
  | i :: rest, own, far =>
    if (byteAtIdx got i).isSome then s.scanRegion t act a got rest own far
    else
      let w := moveOff a i
      let th := s.thread t
      match s.locate (clusterOf (coreOf t)) th.asid th.privileged (gvaOf (th.seg.get 0 (selOf w)) (offOf w)) 1 .block needR with
      | (.bad c, s) => .error (s.trap t c w)
      | (.absent gva, s) => .error (s.pageAbsent t 0 gva needR w act)
      | (.ok loc, s) =>
        if inLs (coreOf t) loc then
          if s.poisoned loc then .error ((s.touchPoison loc th.asid).trap t 0x91 w)
          else s.scanRegion t act a got rest ((i, loc) :: own) far
        else s.scanRegion t act a got rest own ((i, loc) :: far)

/-- The first n bytes of a region. Those in the own local store are read in this cycle, the others asked for. R162 gives the check
as Translate of 8 bytes in its pseudocode and as size 1 for each byte in its text: here each byte is checked and TVAL is the byte
that fails, and the segment is checked for every byte of a part before its alignment and before any byte's paging (DESIGN CHOICE,
log entry 52). -/
def State.readRegion (s : State) (t : Nat) (act : Act) (a : Word) (n : Nat) (k : RClass) (got : List (Nat × List Byte)) :
    Except State (List Byte × State) :=
  let g := (s.thread t).seg.get 0 (selOf a)
  match (List.range n).find? (fun (i : Nat) => (segCause g (selOf a) (offOf (moveOff a i)) 1 needR).isSome) with
  | some i => .error (s.trap t ((segCause g (selOf a) (offOf (moveOff a i)) 1 needR).getD 0) (moveOff a i))
  | none =>
    if offOf a % 8 ≠ 0 then .error (s.trap t 0x38 a)
    else match s.scanRegion t act a got (List.range n) [] [] with
      | .error s => .error s
      | .ok (own, far, s) =>
        let got := got ++ own.map fun e => (e.1, readMem s.mem e.2 1)
        let s := s.readOwns t 1 (own.map (·.2))
        let busy := far.filter fun e => s.lineBusy t e.2 1
        if far.isEmpty then .ok ((List.range n).map fun i => (byteAtIdx got i).getD 0, s)
        else if !busy.isEmpty then .error (s.waitFor t act (.lines (busy.map fun e => e.2 / 64)) [] got)
        else .error (s.ask t act k got (fun _ => false)
          ((runsOf far).map fun e => ⟨e.1, .read e.2.2, moveOff a e.1, e.2.1⟩))

/-- The elements of a record, by index: stored ones in order, the others 0. -/
def expand (w : Nat) : List Bool → List Byte → List Nat
  | [], _ => []
  | b :: r, bs => if b then leNat (bs.take (w / 8)) :: expand w r (bs.drop (w / 8)) else 0 :: expand w r bs

/-- The record's fields are good: header, bitmask and length, padding (11 R162). -/
def headerOk (c : VCtx) (size h : Nat) : Bool :=
  h / 2 ^ 34 == 0 && h / 2 ^ 32 % 4 == ewCode (8 * c.eb) && decide (h / 2 ^ 16 % 2 ^ 16 ≤ c.vlmax)
    && decide (h % 2 ^ 16 ≤ size)

def maskOk (c : VCtx) (h m : Nat) : Bool :=
  let n := h / 2 ^ 16 % 2 ^ 16
  m / 2 ^ n == 0 && h % 2 ^ 16 == recordLen n (popBits n m) (8 * c.eb)

/-- VLDZ: header, bitmask, then values; a corrupt record raises 0x63. -/
def State.vldz (s : State) (t : Nat) (d : Reg) (c : VCtx) (a size : Word) (k : RClass) (got : List (Nat × List Byte)) : State :=
  let act := Act.vldz d c a size k
  match s.readRegion t act a 8 k got with
  | .error s => s
  | .ok (hb, s) =>
    let h := leNat hb
    if !headerOk c size.toNat h then s.trap t 0x63 a
    else
      let n := h / 2 ^ 16 % 2 ^ 16
      let mlen := 8 * ceilDiv n 64
      match s.readRegion t act a (8 + mlen) k got with
      | .error s => s
      | .ok (mb, s) =>
        let m := leNat (mb.drop 8)
        if !maskOk c h m then s.trap t 0x63 a
        else
          match s.readRegion t act a (h % 2 ^ 16) k got with
          | .error s => s
          | .ok (all, s) =>
            let body := all.drop (8 + mlen)
            let used := popBits n m * c.eb
            if (body.drop used).any (· ≠ 0) then s.trap t 0x63 a
            else
              let w := 8 * c.eb
              let vs := expand w ((List.range n).map m.testBit) body
              let es := ((List.range c.vl).map fun i => (i, vs.getD i 0)) ++ c.tailFrom w c.vl
              ((s.putElems t d.val w (s.thread t).grp es).modThread t fun th => { th with vstart := 0 }).finish t 4
                (if (s.thread t).wait.isSome then class1 else class3)

def execVldz (ew : Ew) (k : RClass) (v b c : Reg) (s : State) : Out1 :=
  let th := s.th
  let x := th.vctx 0 false
  s.vRun (.vldz ew k v b c) (ewBits ew == th.sew) [th.group v] false x class3
    (.next (s.vldz s.cur v x (s.g b) (s.g c) k []))

end Sys2Proof.Machine
end

