-- ==== Sys2Proof/Machine/Resume.lean ====
section
/-!
DEFINITION. How a waiting instruction goes on: answers and acknowledgements (11 R146, R150; 21 R244), homes and gates (21
R239, R243), the service thread (01 R16; 11 R153), replicas (21 R245), receiver-not-ready (29 R286), neighbour links (13
R189), wake messages and faults (07 R108; 27 R275), and the bounds of waits (01 R23; 13 R189, R190; 27 R273).
-/

namespace Sys2Proof.Machine

/-! ### Going on -/

/-- Run a waiting instruction again with the answers it has. -/
def State.run (s : State) (t : Nat) (a : Act) (got : List (Nat × List Byte)) : State :=
  match a with
  | .load d z sg a k => s.load t d z sg a k got
  | .store z a v k => s.store t z a v k
  | .amo op d z a x cmp k => s.amo t op d z a x cmp k got
  | .fe op d a x lim k => s.fullEmpty t op d a x lim k got
  | .segld n a => s.segld t n a got
  | .segst a img => s.segst t a img
  | .btag ib dir n a => s.btag t ib dir n a got
  | .vload ff d c elems stop k => if elems.isEmpty then s.vloadEnd t ff d c got stop class1 else s.vload t ff d c elems stop k got
  | .vstore whole elems stop k => if elems.isEmpty then s.vstoreEnd t stop class2 else s.vstore t whole elems stop k
  | .vstz a bytes k =>
    if got.isEmpty then s.vstz t a bytes k else (s.modThread t fun th => { th with vstart := 0 }).finish t 4 class1
  | .vldz d c a size k => s.vldz t d c a size k got
  | .fence paths classes => s.fence t paths classes
  | .ifence => s.ifence t
  | .fetch _ => s
  | .waite sel => s.waite t sel
  | .matrix c dist => s.matrix t c dist
  | .cpy m k tag dst src a sn => s.cpy t m k tag dst src a sn got
  | .cwait tag => s.cwait t tag
  | .cbwait ib b n => s.cbwait t ib b n
  | .cbpost ib b n => s.cbpost t ib b n
  | .npush ib rl dir data vec tag => s.npush t ib rl dir data vec tag
  | .npop ib dir d c vec peek aq => s.npop t ib dir d c vec peek aq
  | .pbind _ _ _ => s
  | .psend ib p a => s.psend t ib p a got
  | .precv ib p a => s.precv t ib p a got
  | .pstat _ _ _ => s
  | .fork ib k a rec room => s.fork t ib k a rec room got
  | .join k a loc again => s.join t k a loc again got
  | .tend k => s.tend t k got
  | .bar ib cl b => s.arrive t ib cl b

/-- A parked FORK that has reserved a slot. -/
def Act.reserved : Act → Bool | .fork _ _ _ (some _) room => room | _ => false

/-- A waiting instruction is given up: a FORK's reserved slot is free again (01 R20). -/
def State.abandon (s : State) (t : Nat) : State :=
  match (s.thread t).wait with | some w => s.unreserve t w.act.reserved | none => s

/-- A parked thread leaves for trap entry. -/
def State.trapParked (s : State) (t : Nat) (e : Err) : State := (s.abandon t).trap t e.cause e.tval

/-- The D of an instruction that waits (15 R209); a fetch of an instruction that found its page absent issued nothing. -/
def Wait.dist (w : Wait) : Nat :=
  match w.act with
  | .vstore .. | .cpy .. | .fork .. => class2
  | .fetch false => 0
  | _ => class1

/-- A parked thread issues its instruction again, eligible as after any wait (15 R209). -/
def State.reissue (s : State) (t : Nat) : State :=
  (s.abandon t).modThread t fun th => { th with
    st := .ready, wait := none, readyAt := match th.wait with | some w => nextReady s.now th w.dist | none => s.now + 1 }

/-- Every answer of a thread's requests is in. -/
def State.resume (s : State) (t : Nat) (w : Wait) : State :=
  match w.bad with
  | none => s.run t w.act w.got
  | some b =>
    match w.act with
    | .vload ff d c _ stop _ =>
      match firstStop (some b) stop with
      | some x => s.vloadEnd t ff d c w.got (some x) class1
      | none => s
    | _ => s.trapParked t b.2

/-- A thread whose own wait is over when a condition of its core holds looks again; a suspended one does not (27 R279). -/
def State.poke (s : State) (t : Nat) : State :=
  match (s.thread t).wait with
  | none => s
  | some w =>
    if s.isSuspended (coreOf t) then s
    else match w.why, w.act with
      | .performed, .bar .. => if s.pathTDone t then s.owe s.now .barrierArrivalCount (Arg.num t) else s
      | .lines _, a | .room, a | .performed, a | .cond, a => s.run t a w.got
      | _, _ => s

/-- An answer reaches the thread that waits for it; the lowest failing element counts. A thread that waits for its earlier accesses to
be performed looks again, whichever access it was. -/
def State.takeAnswer (s : State) (t elem : Nat) (r : Req) (a : Answer) : State :=
  match (s.thread t).wait with
  | none => s
  | some w =>
    if w.why = .performed then s.poke t
    else if w.why ≠ .replies ∨ !w.reqs.contains r.id then s
    else
      let w := { w with reqs := w.reqs.erase r.id }
      let w := match a with
        | .bytes b => { w with got := w.got ++ [(elem, b)] }
        | .cause c =>
          match w.bad with
          | some x => if x.1 ≤ elem then w else { w with bad := some (elem, ⟨c, r.seg⟩) }
          | none => { w with bad := some (elem, ⟨c, r.seg⟩) }
      if w.reqs.isEmpty then s.resume t w else s.park t w

/-! ### Deferred causes (11 R146; 01 R23) -/

/-- The thread already waits in an instruction for the performance of a store to some lines. A FENCE raises every cause that becomes
known while it waits (11 R163). -/
def Wait.forStore (w : Wait) (lines : List Nat) : Bool :=
  match w.why with
  | .performed | .room => true
  | .lines l => l.any lines.contains
  | _ => false

/-- Keep the cause of the earliest store that has failed; stores are numbered in the order of their issue. -/
def Thread.defer (th : Thread) (no : Nat) (e : Err) : Thread :=
  if th.deferred.isSome ∧ th.deferredNo ≤ no then th else { th with deferred := some e, deferredNo := no }

/-- A kept cause is raised at an instruction that waits. -/
def State.raiseDeferred (s : State) (t : Nat) : State :=
  match (s.thread t).deferred with
  | some e => (s.modThread t fun th => { th with deferred := none }).trapParked t e
  | none => s

/-- A posted store has failed: the cause is raised where its thread waits for it, else at the thread's next issue; the earliest
stands. A suspended component's causes are kept (27 R279), an ended one's discarded (R281). -/
def State.deferCause (s : State) (t : Nat) (r : Req) (e : Err) : State :=
  match (s.core (coreOf t)).comp with
  | none => s
  | some c =>
    if s.ended.contains c then s
    else
      let s := s.modThread t fun th => th.defer r.id e
      let waits : Bool := match (s.thread t).wait with | some w => w.forStore r.lines | none => false
      if waits && !s.isSuspended (coreOf t) then s.raiseDeferred t else s

/-! ### Answers and acknowledgements -/

/-- The number of the slice in which a location is homed. -/
def State.sliceNo (s : State) (loc : Nat) : Option Nat :=
  match s.placeOf loc with | some (.slice _ k) | some (.hbm _ k) => some k | _ => none

/-- Lines that the cache array of a slice holds: 16 MiB (17 R223). -/
def cacheLines : Nat := 2 ^ 18

/-- A load from another die may leave a replica of its line in the cache array of the slice of the home's number (21 R245), which gives
up its oldest replica when it is full (DESIGN CHOICE, log entry 9: a replica may be dropped at any time). -/
def State.keepReplica (s : State) (r : Req) : State :=
  let d := r.die
  let k := s.sliceNo r.loc
  let same (x : Replica) : Bool := x.die == d && s.sliceNo (64 * x.line) == k
  if k.isSome && r.isRead && d < 8 && s.homeDie r.loc != some d && (s.replica? d (r.loc / 64)).isNone then
    let old := if (s.replicas.filter same).length < cacheLines then s.replicas else s.replicas.eraseP same
    { s with replicas := old ++ [⟨d, r.loc / 64, readMem s.mem (r.loc / 64 * 64) 64, s.stamps.get none (r.loc / 64), []⟩] }
  else s

/-- The answer to a load, atomic or full/empty operation arrives. -/
def State.replyArrive (s : State) (r : Req) (a : Answer) (keep : Bool) : State :=
  let s := ((s.dropReq r.id).mergeStamp r.die r.got).numberDone r.die r.num
  let s := if keep && decide (a ≠ .cause 0x91) then s.keepReplica r else s
  match r.src with
  | .thread t elem => s.takeAnswer t elem r a
  | .gateway .. => s.gwReply r a
  | .copy t id u i => s.copyAnswer t id u i r a
  | .prism cl _ i => s.prismAnswer r cl i a
  | .device => s

/-- The acknowledgement of a store arrives: a held store of its line follows, and a thread that waits for it looks again. -/
def State.ackArrive (s : State) (r : Req) (a : Answer) : State :=
  let s := ((s.dropReq r.id).numberDone r.die r.num).releaseHeld r
  match r.src with
  | .gateway .. => s.gwReply r a
  | .copy t id u i => s.copyAnswer t id u i r a
  | .prism cl _ i => s.prismAnswer r cl i a
  | .device => s
  | .thread t elem =>
    let waits : Bool := match (s.thread t).wait with | some w => w.why == .replies && w.reqs.contains r.id | none => false
    if waits then s.takeAnswer t elem r a
    else match a with
      | .cause c => (s.deferCause t r ⟨c, r.seg⟩).poke t
      | .bytes _ => s.poke t

/-- An access is performed once every replica holds it (21 R240, R245). -/
def execRemoteReply (s : State) : Out1 :=
  .next (match s.req? s.arg.n with
    | some r =>
      match r.phase with
      | .answered a =>
        if r.isWrite then s
        else if s.replicasDue r.id then s.owe (s.now + 1) .remoteReply s.arg else s.replyArrive r a s.arg.yes
      | _ => s
    | none => s)

def execStoreAcknowledge (s : State) : Out1 :=
  .next (match s.req? s.arg.n with
    | some r =>
      match r.phase with
      | .answered a =>
        if !r.isWrite then s
        else if s.replicasDue r.id then s.owe (s.now + 1) .storeAcknowledge s.arg else s.ackArrive r a
      | _ => s
    | none => s)

/-- The core links or cluster port accept a store, and a thread that waits for the acceptance goes on (11 R146). -/
def execPostedStoreAcceptance (s : State) : Out1 :=
  .next (match s.req? s.arg.n with
    | some r =>
      if r.phase ≠ .fresh then s
      else
        let s := s.acceptStore r
        match r.tid? with
        | none => s
        | some t =>
          match (s.thread t).wait with
          | some w =>
            if w.why ≠ .accepts ∨ !w.reqs.contains r.id then s
            else
              let rest := w.reqs.erase r.id
              if !rest.isEmpty then s.park t { w with reqs := rest }
              else match w.act with
                | .vstore _ _ stop _ => s.vstoreEnd t stop class2
                | _ => s.finish t 4 class1
          | none => s
    | none => s)

/-! ### Homes, gates and the service thread -/

/-- A request arrives at its home: held in the gate, or applied. -/
def execHomeApply (s : State) : Out1 :=
  .next (match s.req? s.arg.n with
    | some r =>
      if r.phase ≠ .sent then s
      else match s.placeOf r.loc with
        | none => s.answer r (.cause 0x39) none
        | some (.far _) => s.gwSend r
        | some p =>
          if !s.arrivesNext r then s.owe (s.now + 1) .homeApply s.arg
          else if !r.open? s p.die then s.modReq r.id fun x => { x with phase := .gated }
          else s.applyHome r p s.arg.yes
    | none => s)

/-- A write held in the gate is applied once the prefix covers its stamp. -/
def execGateApply (s : State) : Out1 :=
  .next (match s.req? s.arg.n with
    | some r =>
      match s.placeOf r.loc with
      | some p => if r.phase = .gated ∧ r.open? s p.die then s.applyHome r p false else s
      | none => s
    | none => s)

/-- What a request needs of its leaf. -/
def ROp.need : ROp → Need
  | .read _ => needR
  | .write _ | .post _ _ | .wake _ => needW
  | .amo .. | .fe .. => needRWA

/-- A request ends in a cause at its source. -/
def State.endReq (s : State) (r : Req) (c : Cause) : State :=
  if r.isWrite then s.ackArrive r (.cause c) else s.replyArrive r (.cause c) false

/-- A request is sent again, for the credit it still holds, its paged address translated again (27 R277); a page that is absent then
raises 0x36 (DESIGN CHOICE, log entry 52: a store that was accepted has no thread to hold). -/
def State.sendAgain (s : State) (r : Req) : State :=
  if r.gva < 2 ^ 56 ∧ r.owner?.isSome then
    match s.pageXl r.cluster r.asid r.priv r.gva r.op.need with
    | (.ok loc, s) => s.launch { r with loc := loc }
    | (.bad c, s) => s.endReq r c
    | (.absent _, s) => s.endReq r 0x36
  else s.launch r

/-- After its back-off a refused request is sent again; past RNRLIM it ends with 0x90, and another package's request is
answered receiver-not-ready. -/
def execRnrRetry (s : State) : Out1 :=
  .next (match s.req? s.arg.n with
    | some r =>
      if r.phase ≠ .refused then s
      else
        let spent : Bool := match r.owner? with
          | some t => decide ((s.regAt (coreOf t) kRNRCTL).toNat % 256 < r.tries)
          | none => true
        if !spent then s.sendAgain r else s.endReq r 0x90
    | none => s)

/-- The service thread executes the message at the head of its queue in its slot. -/
def execServiceMessage (s : State) : Out1 :=
  .next (match (s.core s.arg.n).svc with | .msg id :: _ => s.serviceSlot s.arg.n (.msg id) | _ => s)

/-- The service thread makes the examination pass at the head of its queue. -/
def execFeExamination (s : State) : Out1 :=
  .next (match (s.core s.arg.n).svc with
    | .pass w :: _ => s.serviceSlot s.arg.n (.pass w)
    | .exam id :: _ => s.serviceSlot s.arg.n (.exam id)
    | _ => s)

/-- A set-aside entry falls due for examination; it is queued as a message is, and falls due again. -/
def execFePeriodicExamination (s : State) : Out1 :=
  .next (match s.req? s.arg.k with
    | some r =>
      if r.asideAt (r.loc / 8) && inLs s.arg.n r.loc then
        (s.modCore s.arg.n fun x => { x with svc := x.svc ++ [.exam r.id] }).owe (s.now + 1024) .fePeriodicExamination s.arg
      else s
    | none => s)

/-! ### Replicas (21 R245) -/

/-- Put bytes into a line's copy. -/
def patch (line : List Byte) (o : Nat) (b : List Byte) : List Byte := line.take o ++ b ++ line.drop (o + b.length)

/-- A replica applies the next write its home sent. -/
def Replica.next (r : Replica) : Replica :=
  match r.updates with
  | [] => r
  | u :: rest => { r with bytes := patch r.bytes (u.1 % 64) u.2.1, stamp := if u.2.2.1.isSome then u.2.2.1 else r.stamp, updates := rest }

def execReplicaUpdate (s : State) : Out1 :=
  .next { s with replicas := s.replicas.map fun r => if r.die = s.arg.n ∧ r.line = s.arg.k then r.next else r }
def execReplicaDrop (s : State) : Out1 :=
  .next { s with replicas := s.replicas.filter fun r => !(r.die == s.arg.n && r.line == s.arg.k) }

/-! ### Neighbour links (13 R189) -/

/-- An entry on a link stands in its queue. -/
def execNeighbourEntryLand (s : State) : Out1 :=
  let t := s.arg.n; let d := s.arg.dir
  .next (match s.transit.find? fun e => e.1 == t && e.2.1 == d with
    | some e => ({ s with transit := s.transit.erase e }).modThread t fun th => th.setQueue d (th.queue d ++ [e.2.2])
    | none => s)

/-- A credit reaches its pusher. -/
def execNeighbourCreditReturn (s : State) : Out1 :=
  let t := s.arg.n; let d := s.arg.dir
  .next (if s.creditsBack.contains (t, d) then
      ({ s with creditsBack := s.creditsBack.erase (t, d) }).modThread t fun th => th.setCredit d (th.credit d + 1)
    else s)

/-! ### Fetch (19 R233) -/

/-- The parcel at an offset enters the buffer, which holds 4; a fetch that fails has no effect until the thread issues. -/
def State.bring (s : State) (t : Nat) (o : Word) : State :=
  let th := s.thread t
  if 4 ≤ th.fetched.length ∨ th.fetched.any (fun p => p.1 == o) then s
  else match s.fetchAt t o with
    | (.parcel p, s) => s.modThread t fun th => { th with fetched := th.fetched ++ [(o, p, s.now)] }
    | _ => s

/-- An offset at which the instruction behind the one at PC can stand, or its second parcel: close behind PC, or at the start of a
loop body (07 R104). -/
def Thread.ahead (th : Thread) (o : Word) : Bool :=
  !o.getLsbD 0 && (decide (2 ≤ (o - th.pc).toNat ∧ (o - th.pc).toNat ≤ 6)
    || (List.range 2).any fun l => th.lc.get 0 l != 0 && decide ((o - th.ls.get 0 l).toNat ≤ 2))

/-- Parcels are fetched for a thread, in any order (19 R233): for its next instruction between the issue of the one before it and its
own, and behind PC while the instruction at PC is parked or has not acted. -/
def State.parcelFetch (s : State) (t : Nat) (far : Bool) (o : Word) : State :=
  let th := s.thread t
  if s.isSuspended (coreOf t) ∨ th.pc.getLsbD 0 then s
  else if far then
    if th.ahead o && (th.st == .parked || th.st == .ready) then s.bring t o else s
  else if th.st ≠ .ready then s
  else match th.fetched.find? fun p => p.1 == th.pc with
    | none => s.bring t th.pc
    | some p => if p.2.1.getLsbD 0 then s.bring t (th.pc + 2) else s

def execParcelFetch (s : State) : Out1 := .next (s.parcelFetch s.arg.n s.arg.yes s.arg.word)

/-! ### Recorded engine errors (05 R45; 13 R166) -/

/-- The engine error that is due at a word whose first parcel, or all of it, is known: matrix instructions, CPYM, a FENCE on path M,
TEND, CWAIT. -/
def State.engineWord (s : State) (t w : Nat) (whole : Bool) : Option State :=
  let f := unpack w
  let mx := (s.thread t).mxErr.map (s.reportMatrix t)
  let cp (tag : Nat) : Option State := ((s.thread t).cpErr.get none tag).map (s.reportCopy t tag)
  if f.major = 0x18 then mx
  else if !whole then none
  else if f.major = 0x19 ∧ f.hi / 32 = 1 then mx
  else if f.major = 0x0E ∧ f.hi / 8 % 2 = 0 ∧ f.hi / 64 % 2 = 1 then mx
  else if f.major = 0x1D ∧ f.hi / 32 = 2 then mx <|> (List.range 8).findSome? cp
  else if f.major = 0x19 ∧ f.hi / 32 = 2 then if s.tagBusy t (f.hi % 8) then none else cp (f.hi % 8)
  else none

/-- The engine error that comes before the cause of a fetch or of decoding; the instructions themselves report it otherwise. -/
def State.engineDue (s : State) (t : Nat) : FetchRes → Option State
  | .bytes b => match decode b with | .reject _ w _ => s.engineWord t w.toNat true | _ => none
  | .bad _ _ p | .absent _ _ p => p.bind fun p => s.engineWord t p.toNat false

/-! ### Wake words and page faults (07 R108; 27 R275) -/

def execWakeWordWrite (s : State) : Out1 :=
  let t := s.arg.n
  .next (if s.wakes.contains t then { s with wakes := s.wakes.erase t }.modThread t fun th => { th with wake := true } else s)

/-- A Prism goes on with the requests that a page fault held. -/
def State.wakePrism (s : State) (t : Nat) : State :=
  s.clusters.entries.foldl (fun s e =>
    if e.2.prismQ.any fun r => r.tid == t && r.page then
      (s.modCluster e.1 fun c => { c with
        prismQ := c.prismQ.map fun r => if r.tid = t then { r with page := false } else r }).prismNext e.1
    else s) s

/-- A copy that a page fault held goes on. -/
def State.wakeCopies (s : State) (t : Nat) : State :=
  let k := coreOf t
  (s.core k).copies.foldl (fun s c =>
    if c.tid = t ∧ c.page then
      (s.modCopy k c.id fun c => { c with page := false }).owe s.now (if c.buffer.isSome then .cbCopySpace else .copyComplete)
        (Arg.num2 k c.id)
    else s) s

/-- A thread is parked on a page fault. -/
def State.onPage (s : State) (t : Nat) : Bool := match (s.thread t).wait with | some w => w.why == .page | none => false

/-- A wake message releases every access held for a thread on a page fault. -/
def State.faultWake (s : State) (t : Nat) : State :=
  let held := s.pfaults.any fun f => f.tid == t
  if !held then s
  else
    let s := { s with pfaults := s.pfaults.filter fun f => f.tid != t }
    let s := if s.onPage t then s.reissue t else s
    (s.wakeCopies t).wakePrism t

def execFaultWake (s : State) : Out1 :=
  let t := s.arg.n
  .next (if s.fwakes.contains t then { s with fwakes := s.fwakes.erase t }.faultWake t else s)

/-- A record held for a full ring is written once a slot is free. -/
def execFaultRecordRelease (s : State) : Out1 :=
  let c := s.arg.n
  .next (match s.pfaults.find? fun f => f.comp == c && f.written.isNone with
    | none => s
    | some f =>
      let v := s.faultService c
      if !s.ringFull v.ring.toNat v.slots.toNat then
        let s := { s with pfaults := s.pfaults.erase f }.writeFault f
        if s.pfaults.any fun f => f.comp == c && f.written.isNone then s.owe s.now .faultRecordRelease (Arg.num c) else s
      else (s.touchRing v.ring.toNat f.asid).owe (s.now + 64) .faultRecordRelease (Arg.num c))

/-- A fault waited longer than FSBOUND: 0x36 at the thread, in the copy's tag, or at the PSEND or PRECV. -/
def State.faultLate (s : State) (f : PFault) : State :=
  let t := f.tid
  let s := { s with pfaults := s.pfaults.erase f }
  match f.src with
  | 0 => if s.onPage t then s.trapParked t ⟨0x36, f.tval⟩ else s
  | 1 => if s.onPage t then s.fetchTrap t 0x36 f.tval else s
  | 2 => match s.copy? (coreOf t) f.copy with | some c => s.copyFail (coreOf t) c ⟨0x36, f.tval⟩ | none => s
  | _ =>
    match (s.thread t).wait with
    | some w =>
      match w.act.sendRecv with
      | some (p, _) => (s.withdraw t p).trapParked t ⟨0x36, f.tval⟩
      | none => s
    | none => s

/-- A fault whose time has run out raises 0x36; of a suspended component's threads only once they are resumed (27 R279). -/
def execFaultServiceTimeout (s : State) : Out1 :=
  let t := s.arg.n
  let late (f : PFault) : Bool := f.tid == t && (f.src == 2 || !s.isSuspended (coreOf t)) && match f.written with
    | some w => decide (w + (s.faultService f.comp).fsbound.toNat < s.now)
    | none => false
  .next (match s.pfaults.find? late with | some f => s.faultLate f | none => s)

/-! ### Bounds (13 R189, R190; 27 R273) -/

/-- A wait without a bound of its own. -/
def Wait.unbounded (w : Wait) : Bool :=
  match w.act, w.why with
  | .join .., .page => false
  | .join .., _ => true
  | .waite _, _ | .cwait _, _ | .cbwait .., _ => true
  | .bar .., .gen _ => true
  | .pbind .., .prism | .pstat .., .prism => true
  | .cpy .., .cond | .matrix .., .cond => true
  | _, _ => false

/-- WDLIM, and whether the thread's watchdog has run out. -/
def State.wdlim (s : State) (t : Nat) : Nat := (s.regAt (coreOf t) kWDCTL).toNat % 2 ^ 32
def State.watchdogLate (s : State) (t : Nat) : Bool :=
  let n := s.wdlim t
  match (s.thread t).wait with
  | some w => w.unbounded && n != 0 && decide ((s.thread t).issuedAt + 1024 * n < s.now)
  | none => false

def execWatchdog (s : State) : Out1 :=
  let t := s.arg.n
  .next (if s.watchdogLate t then s.trapParked t ⟨0xA1, BitVec.ofNat 64 (s.wdlim t)⟩ else s)

/-- The bits of a neighbour push, pop or BTAG that waits for its queue or credit. -/
def Wait.onLink (w : Wait) : Option Word :=
  match w.act, w.why with
  | .npush ib .., .cond | .npop ib .., .cond | .btag ib .., .cond => some ib
  | _, _ => none

/-- A push, pop or BTAG has waited longer than NBOUND. -/
def State.linkLate (s : State) (t : Nat) : Option Word :=
  match (s.thread t).wait with
  | some w => if w.since + s.nbound (coreOf t) < s.now then w.onLink else none
  | none => none

def execNeighbourTimeout (s : State) : Out1 :=
  let t := s.arg.n
  .next (match s.linkLate t with | some ib => s.trapParked t ⟨0x81, ib⟩ | none => s)

/-! ### The order of a cycle (15 R207; 13 R201; 21 R242; log entry 57) -/

/-- The core that made a request; what a cluster port, a Prism or a gateway made stands before the cores of its cluster, in ascending
cluster number (21 R242). -/
def State.sourceCore (s : State) (id : Nat) : Nat :=
  match s.req? id with
  | some r => match r.core? with | some k => k | none => 16 * r.cluster
  | none => 0

/-- The place of an event among what happens in a cycle: by the core that acts, before that core's issue slot (4c + 2), a core's take
first; what homes and the fabric do stands first, gateways after the cores, the sequencer after them, steals last. -/
def State.rank (s : State) (e : Event) : Nat :=
  let a := e.arg
  match e.what with
  | .taskTake => 4 * a.n
  | .matrixCommandStart | .matrixCommandEnd | .mmarRotationTimeout | .mmarTileArrival | .serviceMessage | .feExamination
  | .shootdownRequest | .stealRequest | .stealReply | .stealBackoffExpiry | .copyStart | .copyComplete | .cbCopySpace
  | .followOnEnqueue | .fePeriodicExamination | .controlWindowWrite | .shootdownAck => 4 * a.n + 1
  | .joinPoll => if a.yes then 4 * coreOf a.n + 1 else 0
  | .neighbourEntryLand | .neighbourCreditReturn | .neighbourTimeout | .portWaitTimeout | .barrierArrivalCount
  | .parcelFetch | .faultWake | .faultServiceTimeout | .watchdog | .wakeWordWrite => 4 * coreOf a.n + 1
  | .prismBind | .prismUnbind | .prismSend | .prismReceive | .prismStatus => 64 * a.n + 1
  | .prismSendResume | .prismReceiveResume | .intervalClose => 64 * portCluster a.n + 1
  | .remoteReply | .storeAcknowledge | .rnrRetry | .postedStoreAcceptance => 4 * s.sourceCore a.n + 1
  | .ergPacketReceive | .gatewayResendTimeout | .tokenAdd => 40000
  | .stepSlot => 50000
  | .sequencerRootPush => 50001
  | .stealService => 50002
  | _ => 0

/-- The event that comes next among those due, and the others: the one of least rank, the one owed first among equals. With a
`bound`, only an event of at most that rank. -/
def State.takeDue (s : State) (bound : Option Nat) : Option (Due × List Due) :=
  let first := (s.pending.filter fun d => decide (d.due ≤ s.now)).foldl (fun m d =>
    match m with
    | none => some d
    | some x => if s.rank d.ev < s.rank x.ev then some d else some x) none
  match first with
  | none => none
  | some d => if bound.all fun b => decide (s.rank d.ev ≤ b) then some (d, s.pending.erase d) else none

/-! ### Bounds at the end of a cycle -/

/-- Owe a timeout of a thread unless it is owed already. -/
def State.oweOnce (s : State) (i : Instr) (t : Nat) : State :=
  if s.pending.any fun d => d.ev.what == i && d.ev.arg.n == t then s else s.owe s.now i (Arg.num t)

/-- The timeouts a thread has run into; none runs while its component is suspended. -/
def State.oweLate (s : State) (t : Nat) : State :=
  if s.isSuspended (coreOf t) then s
  else
    let s := if s.watchdogLate t then s.oweOnce .watchdog t else s
    let s := if (s.linkLate t).isSome then s.oweOnce .neighbourTimeout t else s
    if (s.portLate t).isSome then s.oweOnce .portWaitTimeout t else s

/-- A thread that waits on a condition of its core, or in a FENCE on engines, Prisms or links. -/
def Thread.onCond (th : Thread) : Bool :=
  match th.wait with
  | some w => match w.why, w.act with | .cond, _ => true | .performed, .fence .. => true | _, _ => false
  | none => false

/-! ### Suspension (27 R279) -/

def State.coresIn (s : State) (k : Nat) : List Nat := (s.cores.entries.filter fun e => e.2.comp == some k).map (·.1)
def State.threadsIn (s : State) (k : Nat) : List Nat := (s.coresIn k).flatMap fun c => (List.range 16).map (16 * c + ·)

/-- The port of an FPORT instruction. -/
def Act.port : Act → Option Nat
  | .pbind _ p _ | .psend _ p _ | .precv _ p _ | .pstat _ _ p => some p
  | _ => none

/-- Withdraw a thread's full/empty operation that is set aside, its push without a credit, or its Prism request whose access to BUF
has not begun: it is ready at the parked instruction. -/
def State.withdrawThread (s : State) (t : Nat) : State :=
  match (s.thread t).wait with
  | none => s
  | some w =>
    match w.act with
    | .fe .. =>
      if (s.reqsOf t).any fun r => r.asideAt (r.loc / 8) then
        { s with net := s.net.filter fun r => !(r.tid? == some t && r.asideAt (r.loc / 8)) }.reissue t
      else s
    | .npush .. => if w.why = .cond then s.reissue t else s
    | a =>
      match a.port with
      | some p =>
        let cl := portCluster p
        if w.why = .page ∨ (s.cluster cl).prismQ.any fun r => r.tid == t && r.begun && r.kind != .close then s
        else ((s.modCluster cl fun c => { c with prismQ := c.prismQ.filter fun r => r.tid != t || r.kind == .close }).withdraw t
          p).reissue t
      | none => s

/-- What a suspended component's threads park on afterwards is withdrawn too. -/
def State.withdrawAll (s : State) : State :=
  s.suspended.foldl (fun s v => (s.threadsIn v.comp).foldl State.withdrawThread s) s

/-! ### The end of a cycle -/

/-- A cycle ends: threads whose condition has come go on, credits for gates are granted, receive buffers are served, links and status
words follow; then the cycle counter moves, bounds are checked and idle threads look for work. -/
def State.endCycle (s : State) : State :=
  let s := s.threads.entries.foldl (fun s e => if e.2.onCond then s.poke e.1 else s) s
  let s := (s.withdrawAll.grantCredits.rxServed.ergDrains).showStatuses
  let s := { s with now := s.now + 1, slot := 0 }
  let s := s.threads.entries.foldl (fun s e => if e.2.wait.isSome then s.oweLate e.1 else s) s
  s.cores.entries.foldl (fun s e => s.seekWork e.1) s

end Sys2Proof.Machine
end

