-- ==== Sys2Proof/Machine/Sha.lean ====
section
/-!
DEFINITION. SHA-512 (FIPS 180-4) and RSASSA-PSS (PKCS #1 v2.2) with MGF1 over SHA-512 and a 64-byte salt, which 29 R294 names for
the signatures of firmware images and quotes (PRESUMED from those standards, log entry 13).
-/

namespace Sys2Proof.Sha

/-! ### SHA-512 -/

/-- The round constants and the initial hash value. -/
def roundK : List Word :=
  [0x428A2F98D728AE22, 0x7137449123EF65CD, 0xB5C0FBCFEC4D3B2F, 0xE9B5DBA58189DBBC,
  0x3956C25BF348B538, 0x59F111F1B605D019, 0x923F82A4AF194F9B, 0xAB1C5ED5DA6D8118,
  0xD807AA98A3030242, 0x12835B0145706FBE, 0x243185BE4EE4B28C, 0x550C7DC3D5FFB4E2,
  0x72BE5D74F27B896F, 0x80DEB1FE3B1696B1, 0x9BDC06A725C71235, 0xC19BF174CF692694,
  0xE49B69C19EF14AD2, 0xEFBE4786384F25E3, 0x0FC19DC68B8CD5B5, 0x240CA1CC77AC9C65]
  ++ [0x2DE92C6F592B0275, 0x4A7484AA6EA6E483, 0x5CB0A9DCBD41FBD4, 0x76F988DA831153B5,
  0x983E5152EE66DFAB, 0xA831C66D2DB43210, 0xB00327C898FB213F, 0xBF597FC7BEEF0EE4,
  0xC6E00BF33DA88FC2, 0xD5A79147930AA725, 0x06CA6351E003826F, 0x142929670A0E6E70,
  0x27B70A8546D22FFC, 0x2E1B21385C26C926, 0x4D2C6DFC5AC42AED, 0x53380D139D95B3DF,
  0x650A73548BAF63DE, 0x766A0ABB3C77B2A8, 0x81C2C92E47EDAEE6, 0x92722C851482353B]
  ++ [0xA2BFE8A14CF10364, 0xA81A664BBC423001, 0xC24B8B70D0F89791, 0xC76C51A30654BE30,
  0xD192E819D6EF5218, 0xD69906245565A910, 0xF40E35855771202A, 0x106AA07032BBD1B8,
  0x19A4C116B8D2D0C8, 0x1E376C085141AB53, 0x2748774CDF8EEB99, 0x34B0BCB5E19B48A8,
  0x391C0CB3C5C95A63, 0x4ED8AA4AE3418ACB, 0x5B9CCA4F7763E373, 0x682E6FF3D6B2B8A3,
  0x748F82EE5DEFB2FC, 0x78A5636F43172F60, 0x84C87814A1F0AB72, 0x8CC702081A6439EC]
  ++ [0x90BEFFFA23631E28, 0xA4506CEBDE82BDE9, 0xBEF9A3F7B2C67915, 0xC67178F2E372532B,
  0xCA273ECEEA26619C, 0xD186B8C721C0C207, 0xEADA7DD6CDE0EB1E, 0xF57D4F7FEE6ED178,
  0x06F067AA72176FBA, 0x0A637DC5A2C898A6, 0x113F9804BEF90DAE, 0x1B710B35131C471B,
  0x28DB77F523047D84, 0x32CAAB7B40C72493, 0x3C9EBE0A15C9BEBC, 0x431D67C49C100D4C,
  0x4CC5D4BECB3E42B6, 0x597F299CFC657E2A, 0x5FCB6FAB3AD6FAEC, 0x6C44198C4A475817]

def hash0 : List Word :=
  [0x6A09E667F3BCC908, 0xBB67AE8584CAA73B, 0x3C6EF372FE94F82B, 0xA54FF53A5F1D36F1,
  0x510E527FADE682D1, 0x9B05688C2B3E6C1F, 0x1F83D9ABFB41BD6B, 0x5BE0CD19137E2179]

/-- The number some bytes spell, most significant first, and its bytes. -/
def beNat (l : List Byte) : Nat := l.foldl (fun n b => 256 * n + b.toNat) 0
def beBytes (n v : Nat) : List Byte := (List.range n).map fun i => BitVec.ofNat 8 (v / 256 ^ (n - 1 - i))

/-- A message padded to whole blocks of 128 bytes. -/
def padded (l : List Byte) : List Byte :=
  l ++ [0x80] ++ List.replicate ((128 - (l.length + 17) % 128) % 128) 0 ++ beBytes 16 (8 * l.length)

/-- The 80 words of a block's schedule, last first. -/
def schedule (block : List Byte) : List Word :=
  let first := ((List.range 16).map fun i => BitVec.ofNat 64 (beNat ((block.drop (8 * i)).take 8))).reverse
  (List.range 64).foldl (fun w _ =>
    let a := w.getD 1 0; let b := w.getD 14 0
    let s1 := a.rotateRight 19 ^^^ a.rotateRight 61 ^^^ a >>> 6
    let s0 := b.rotateRight 1 ^^^ b.rotateRight 8 ^^^ b >>> 7
    (s1 + w.getD 6 0 + s0 + w.getD 15 0) :: w) first

/-- One round: the eight working variables with a constant and a word of the schedule. -/
def round (v : List Word) (k w : Word) : List Word :=
  let x (i : Nat) : Word := v.getD i 0
  let s1 := (x 4).rotateRight 14 ^^^ (x 4).rotateRight 18 ^^^ (x 4).rotateRight 41
  let s0 := (x 0).rotateRight 28 ^^^ (x 0).rotateRight 34 ^^^ (x 0).rotateRight 39
  let t1 := x 7 + s1 + ((x 4 &&& x 5) ^^^ (~~~x 4 &&& x 6)) + k + w
  let t2 := s0 + ((x 0 &&& x 1) ^^^ (x 0 &&& x 2) ^^^ (x 1 &&& x 2))
  [t1 + t2, x 0, x 1, x 2, x 3 + t1, x 4, x 5, x 6]

/-- A block is taken into the hash value. -/
def block (h : List Word) (b : List Byte) : List Word :=
  let v := (roundK.zip (schedule b).reverse).foldl (fun v p => round v p.1 p.2) h
  List.zipWith (· + ·) h v

/-- SHA-512 of some bytes, as 64 bytes. -/
def sha512 (l : List Byte) : List Byte :=
  let m := padded l
  let h := (List.range (m.length / 128)).foldl (fun h i => block h ((m.drop (128 * i)).take 128)) hash0
  h.flatMap fun w => beBytes 8 w.toNat

/-! ### RSASSA-PSS -/

/-- A power modulo n, by the exponent's bits; `fuel` bounds their number. -/
def powMod : Nat → Nat → Nat → Nat → Nat
  | 0, _, _, n => 1 % n
  | fuel + 1, b, e, n =>
    let r := powMod fuel (b * b % n) (e / 2) n
    if e % 2 = 1 then b * r % n else r

/-- MGF1 with SHA-512: a mask of `len` bytes. -/
def mgf1 (seed : List Byte) (len : Nat) : List Byte :=
  ((List.range ((len + 63) / 64)).flatMap fun c => sha512 (seed ++ beBytes 4 c)).take len

def xorBytes (a b : List Byte) : List Byte := List.zipWith (· ^^^ ·) a b

/-- Bytes of a signature: 512, for RSA-4096; the encoded message is one bit shorter. -/
def emLen : Nat := 512

/-- The top bit of an encoded message is clear. -/
def clearTop : List Byte → List Byte | [] => [] | b :: r => (b &&& 0x7F) :: r

/-- H of an encoded message: the hash over eight zero bytes, the message's hash and the salt. -/
def pssHash (msg salt : List Byte) : List Byte := sha512 (List.replicate 8 0 ++ sha512 msg ++ salt)

/-- EMSA-PSS encoding. -/
def pssEncode (msg salt : List Byte) : List Byte :=
  let h := pssHash msg salt
  let db := List.replicate (emLen - 64 - 64 - 2) 0 ++ [0x01] ++ salt
  clearTop (xorBytes db (mgf1 h (emLen - 65))) ++ h ++ [0xBC]

/-- EMSA-PSS verification. -/
def pssGood (msg em : List Byte) : Bool :=
  let masked := em.take (emLen - 65)
  let h := (em.drop (emLen - 65)).take 64
  let db := clearTop (xorBytes masked (mgf1 h (emLen - 65)))
  em.length == emLen && em.getLast? == some 0xBC && (masked.headD 0).getLsbD 7 == false
    && db.take (emLen - 130) == List.replicate (emLen - 130) 0 && db.getD (emLen - 130) 0 == 0x01
    && h == pssHash msg (db.drop (emLen - 129))

/-- A signature (a number below the modulus) verifies under a public key (modulus, exponent). -/
def verifies (key : Nat × Nat) (msg : List Byte) (sig : Nat) : Bool :=
  decide (sig < key.1) && pssGood msg (beBytes emLen (powMod 4096 sig key.2 key.1))

/-- Sign with a key (modulus, private exponent). -/
def sign (key : Nat × Nat) (msg salt : List Byte) : Nat := powMod 4096 (beNat (pssEncode msg salt)) key.2 key.1

end Sys2Proof.Sha
end

