-- ==== Sys2Proof/Machine/Sequencer.lean ====
section
/-!
DEFINITION. The step sequencer and program loading: slots and overruns (15 R202 to R205), making a program resident (01 R10 to
R14, R22; 13 R200; 15 R203, R206; 17 R221, R225; 27 R274) and removing it.
-/

namespace Sys2Proof

/-- The clusters of a component. -/
def Component.clusters (c : Component) : List Nat :=
  (List.range 512).filter fun x => (c.clmask.getD (x / 64) 0).getLsbD (x % 64)
/-- Window size and first physical register of thread t. -/
def Component.winOf (c : Component) (t : Nat) : Nat :=
  match bitsOf c.win.toNat (2 * t) 2 with | 0 => 0 | 1 => 8 | 2 => 16 | _ => 32
def Component.winAt (c : Component) (t : Nat) : Nat := ((List.range t).map c.winOf).sum
/-- Threads of a core that have a window. -/
def Component.windowed (c : Component) : Nat := ((List.range 16).filter fun t => c.winOf t != 0).length

end Sys2Proof

namespace Sys2Proof.Machine

/-! ### Slots (15 R202 to R204) -/

/-- The number of the next slot an entry acts on. -/
def State.nextSlotNo (s : State) (e : Nat) : Int := s.slots.get 0 e

/-- Whole nanoseconds since EPOCH. -/
def State.sinceEpoch (s : State) : Int := (s.timeNs - s.epoch).toInt

/-- The latest slot an entry has reached, by whole nanoseconds since EPOCH; none before slot 0. -/
def State.slotReached (s : State) (e : Nat) : Option Int :=
  let x := s.entry e
  let off := s.sinceEpoch - (x.first.toNat : Int)
  if off < 0 then none else if x.period = 0 then some 0 else some (off / (x.period.toNat : Int))

/-- An entry has reached a slot it has not acted on. -/
def State.slotCame (s : State) (e : Nat) : Bool :=
  (s.entry e).valid && !s.ended.contains (s.entry e).comp.toNat &&
    match s.slotReached e with | some m => decide (s.nextSlotNo e ≤ m) | none => false

/-- Cycles in which the clock, at most 500 ppm fast, can advance by some 2^-16 ns. -/
def cyclesFor (d : Int) : Nat := max 1 (d * 21 * 2000 / (20 * nsUnit * 2001)).toNat

/-- STEP_SLOT is owed for an entry's next slot, in the first cycle in which the clock can have reached it. -/
def State.oweSlot (s : State) (e : Nat) : State :=
  let x := s.entry e
  let n := s.nextSlotNo e
  if (x.period = 0 ∧ 0 < n) ∨ s.pending.any (fun d => d.ev.what == .stepSlot && d.ev.arg.n == e) then s
  else
    s.owe (s.now + cyclesFor (nsUnit * ((x.first.toNat : Int) + n * (x.period.toNat : Int) - s.sinceEpoch) - s.timeFrac.toNat))
      .stepSlot (Arg.num e)

/-- OVRCNT counts, saturating. -/
def State.overrun (s : State) (e n : Nat) : State :=
  s.modEntry e fun x => { x with ovrcnt := BitVec.ofNat 32 (min (x.ovrcnt.toNat + n) (2 ^ 32 - 1)) }

/-- A root record that no thread has taken yet keeps an overrun for its first issue. -/
def Rec.late (e : Nat) (r : Rec) : Rec := if r.root = some e then { r with ovr := true } else r

/-- 0xA2 reaches the thread that holds the running step's root record, or the record (15 R205). A parked thread's request stays
where it is, its answer then finding no one; that of a full/empty operation, a Prism or a page fault too (DESIGN CHOICE, log entry
52: R205 is silent). -/
def State.overrunFault (s : State) (e : Nat) : State :=
  let err : Err := ⟨0xA2, BitVec.ofNat 64 e⟩
  match s.threads.entries.find? fun x => (s.thread x.1).root == some e with
  | some (t, _) =>
    if (s.thread t).st = .parked then s.trapParked t err else s.modThread t fun th => { th with async := some (th.async.getD err) }
  | none =>
    let s := s.cores.entries.foldl (fun s x => s.modCore x.1 fun k =>
      { k with deque := k.deque.map (Rec.late e), landing := k.landing.map (Rec.late e) }) s
    { s with held := s.held.map (Rec.late e), steals := s.steals.map fun x => (x.1, x.2.1, x.2.2.map (Option.map (Rec.late e))) }

/-- A slot is acted on by the entry's state and rule. -/
def State.slotAct (s : State) (e : Nat) : State :=
  let x := s.entry e
  if !x.run then (s.modEntry e fun x => { x with run := true }).pushRoot e
  else match x.ovr.toNat with
    | 1 => if x.pend then s.overrun e 1 else s.modEntry e fun x => { x with pend := true }
    | 2 => (s.overrun e 1).overrunFault e
    | _ => s.overrun e 1

/-- An entry's slot: slots passed over count as overruns, and so does every slot of a suspended component (27 R279). Entries
that reach slots together act in index order. -/
def State.stepSlot (s : State) (e : Nat) : State :=
  if !s.slotCame e then
    if (s.entry e).valid && s.resident && !s.ended.contains (s.entry e).comp.toNat then s.oweSlot e else s
  else match (List.range e).find? s.slotCame with
    | some f => (s.owe s.now .stepSlot (Arg.num f)).owe s.now .stepSlot (Arg.num e)
    | none =>
      match s.slotReached e with
      | none => s
      | some m =>
        let s := s.overrun e (m - s.nextSlotNo e).toNat
        let s := { s with slots := s.slots.set 0 e (m + 1) }
        (if s.isSuspended (s.leadOf e) then s.overrun e 1 else s.slotAct e).oweSlot e

def execStepSlot (s : State) : Out1 := .next (s.stepSlot s.arg.n)

/-! ### Checks of a program -/

/-- A descriptor meets the conditions of 01 R12, its segment images those of 17 R213. -/
def componentOk (c : Component) : Bool :=
  !c.clusters.isEmpty && c.clusters.contains (clusterOf c.lead.toNat) && decide (c.winAt 16 ≤ 256) && c.reserved == 0
    && c.segimg.length == 8 && c.segimg.all segOk

/-- What Rambeod chooses for a component; no region and no window where it chooses nothing. -/
def placingOf (p : Program) (i : Nat) : Placing :=
  match p.placings.find? fun e => e.1 == i with | some e => e.2 | none => ⟨0, noAsid, 0, []⟩

/-- Rambeod gives a component an ASID that no other has, neither 0 nor 0xFFF: the one it chooses where that is free, else the least
(06 R86; 17 R221, R225; DESIGN CHOICE, log entry 55: no rule says which). -/
def pickAsid (used : List Nat) (want : Nat) : Nat :=
  let ok (a : Nat) : Bool := a != 0 && !used.contains a
  if want < 0xFFF ∧ ok want then want else ((List.range 0xFFF).find? ok).getD 0

/-- A segment image that names the table window: its base and size, with the rights of the program's image (06 R86; 17 R213). -/
def tableSeg (x : Placing) (img : BitVec 128) : BitVec 128 :=
  BitVec.ofNat 128 (x.twin % 2 ^ 57 + img.toNat / 2 ^ 57 % 16 * 2 ^ 57 + 2 ^ 64 * (if x.twin = 0 then 0 else x.region.size % 2 ^ 61))

/-- A component's descriptor with what Rambeod fills in. -/
def fillComp (p : Program) (i a : Nat) (c : Component) : Component :=
  { c with
    asid := BitVec.ofNat 12 a
    segimg := c.segimg.zipIdx.map fun e => if p.tableSegs.contains (i, e.2) then tableSeg (placingOf p i) e.1 else e.1 }

/-- The descriptors in ascending order, each with an ASID of its own. -/
def fillComps (p : Program) (used : List Nat) : List (Nat × Component) → List (Nat × Component)
  | [] => []
  | e :: r =>
    let a := pickAsid used (placingOf p e.1).asid
    (e.1, fillComp p e.1 a e.2) :: fillComps p (a :: used) r

/-- Valid descriptors, by number. -/
def validComps (m : Sp Component) : List (Nat × Component) := m.entries.filter fun e => e.2.valid

/-- Components by number, as Rambeod loads them. -/
def compsOf (p : Program) : Sp Component :=
  (fillComps p [] (validComps (p.comps.foldl (fun m e => m.set noComponent e.1 e.2) .empty))).foldl
    (fun m e => m.set noComponent e.1 e.2) .empty

/-- No cluster belongs to two components. -/
def apart : List (Nat × Component) → Bool
  | [] => true
  | e :: r => r.all (fun f => !e.2.clusters.any f.2.clusters.contains) && apart r

/-- A thread has a window in the program. -/
def hasWindow (l : List (Nat × Component)) (t : Nat) : Bool :=
  l.any fun e => e.2.clusters.contains (clusterOf (coreOf t)) && e.2.winOf (laneOf t) != 0

/-- A ring is aligned, its slots are a power of two up to 4,096, it lies in a slice, on lines tagged shared, and its WAKE names a
thread with a window (15 R206, 27 R274). -/
def State.ringOk (s : State) (l : List (Nat × Component)) (ring slots wake : Nat) : Bool :=
  ring % 64 == 0 && ((List.range 13).any fun k => slots == 2 ^ k) && s.sharedSlices ring (64 + 64 * slots) && hasWindow l wake

/-- The table window of a component is mapped: at TWIN, leaves of 128 MiB with R and W, without X and AT, and with P, map its whole
physical region (27 R274). TWIN 0 means no window. -/
def State.windowOk (s : State) (asid : BitVec 12) (twin : Nat) : Bool :=
  let r := s.asids.get noAsid asid.toNat
  twin == 0 || (r.live && decide (twin + r.size ≤ 2 ^ 56) && (List.range (r.size / 2 ^ 27)).all fun i =>
    match walkFrom s.mem r (twin + i * 2 ^ 27) 4 r.root with
    | .leaf base size e =>
      base == twin + i * 2 ^ 27 && size == 2 ^ 27 && e.toNat / 2 ^ 16 % 2 ^ 36 * 2 ^ 16 == r.base + i * 2 ^ 27
        && e.toNat / 4 % 32 == 0b10011
    | _ => false)

/-- A 16 KiB node lies in a region (17 R225, R226). -/
def nodeIn (a : AsidEntry) (n : Nat) : Bool := n % 2 ^ 14 == 0 && decide (a.base ≤ n) && decide (n + 2 ^ 14 ≤ a.base + a.size)

/-- An entry of the ASID table that Rambeod writes: a live one's region in HBM of the package, with the root node in it (17 R225). -/
def asidOk (pkg : Nat) (a : AsidEntry) : Bool :=
  !a.live || (a.base % 2 ^ 27 == 0 && a.size % 2 ^ 27 == 0 && a.base / 2 ^ 40 == pkg && a.base / 2 ^ 39 % 2 == 0
    && decide (a.base % 2 ^ 40 + a.size ≤ 2 ^ 39) && nodeIn a a.root)

/-- What Rambeod has chosen for a component is possible, and the window stands; else the model refuses the program, since Rambeod places
none so (DESIGN CHOICE, log entry 55). -/
def State.placingOk (s : State) (asid : BitVec 12) (x : Placing) : Bool :=
  asidOk s.pkgId.toNat x.region && (x.twin == 0 || x.region.live) && x.nodes.all (nodeIn x.region) && s.windowOk asid x.twin

/-- The tables and owner tags of a program, before any of it runs: Rambeod fills in the ASIDs, the ASID table, TWIN and the tags (06 R86,
R88; 17 R221, R225). -/
def State.tables (s : State) (p : Program) : State :=
  let comps := compsOf p
  { s with
    comps := comps
    steps := p.steps.foldl (fun m e => m.set noStep e.1 { e.2 with ovrcnt := 0, pend := false, run := false }) .empty
    mailboxes := p.mailboxes.foldl (fun m e => m.set noMailbox e.1 e.2) .empty
    faultsvcs := p.faultsvcs.foldl (fun m e => m.set noFaultService e.1
      { e.2 with twin := if e.2.valid then BitVec.ofNat 57 (placingOf p e.1).twin else e.2.twin }) .empty
    asids := comps.entries.foldl (fun m e => m.set noAsid e.2.asid.toNat (placingOf p e.1).region) .empty
    tags := p.tags.foldl (fun m e => m.set 0xFFF e.1
      (match e.2 with | some i => (comps.get noComponent i).asid | none => 0)) .empty }

/-- Rambeod accepts the program whose tables stand in `s`. -/
def State.programOk (s : State) (p : Program) : Bool :=
  let l := validComps s.comps
  !l.isEmpty && l.all (fun e => decide (e.1 < 64) && componentOk e.2) && apart l
    && s.steps.entries.all (fun e => !e.2.valid || (decide (e.1 < 256) && (s.comp e.2.comp.toNat).valid && e.2.ovr != 3
      && e.2.reserved == 0))
    && s.mailboxes.entries.all (fun e => !e.2.valid || (decide (e.1 < 64)
      && e.2.reserved == 0 && s.ringOk l e.2.ring.toNat e.2.slots.toNat e.2.wake.toNat))
    && s.faultsvcs.entries.all (fun e => !e.2.valid || (decide (e.1 < 64) && e.2.reserved == 0
      && s.ringOk l e.2.ring.toNat e.2.slots.toNat e.2.wake.toNat))
    && l.all fun e => s.placingOk e.2.asid (placingOf p e.1)

/-! ### Residency (01 R12, R14, R22) -/

/-- A thread of a core at residency: its descriptor's segments, TRAPVEC and ASID (01 R11); without a window it stays halted. -/
def threadAt (c : Component) (t now : Nat) : Thread :=
  let n := c.winOf (laneOf t)
  { Thread.init with
    seg := (List.range 8).foldl (fun m i => m.set 0 i (c.segimg.getD i 0)) .empty
    trapvec := c.trapvec, asid := c.asid, st := if n = 0 then .halted else .idle, winBase := c.winAt (laneOf t), winSize := n
    idleSince := now }

/-- A core at residency: NEED of its barriers counts the threads with a window (13 R200). -/
def coreFor (i : Nat) (c : Component) (k : Nat) : Core :=
  let bars := (List.range 4).foldl (fun m b => m.set Bar.init b ⟨c.windowed, 0, false⟩) Sp.empty
  { Core.init with
    comp := some i
    bars := if k % 16 = 0 then (List.range 16).foldl (fun m b => m.set Bar.init (4 + b) ⟨16 * c.windowed, 0, false⟩) bars else bars }

def coresOf (c : Component) : List Nat := c.clusters.flatMap fun x => (List.range 16).map (16 * x + ·)

/-- A line holds registers of one of some cores. -/
def regLine (ks : List Nat) (line : Nat) : Bool :=
  match decodeWin (64 * line) with | some (.core c off) => ks.contains c && decide (0x100000 ≤ off) | _ => false

/-- The cores and threads of a component are set up: every register is written, so that no poison is left there (17 R222). -/
def State.setUp (s : State) (i : Nat) (c : Component) : State :=
  let ks := coresOf c
  { s with
    poison := ⟨s.poison.entries.filter fun e => !regLine ks e.1⟩
    cores := ks.foldl (fun m k => m.set Core.init k (coreFor i c k)) s.cores
    threads := (ks.flatMap fun k => (List.range 16).map (16 * k + ·)).foldl
      (fun m t => m.set Thread.init t (threadAt c t s.now)) s.threads }

/-- What a resident program leaves behind is gone: threads, queues, requests, ports, translations, clocks (21 R242). What gateways hold
for other packages stays, its writes without the numbers of the clocks that are gone; so do flits, without beacons and stamps and without
messages of the program, and the messages to Rambeod and the clock (DESIGN CHOICE, log entry 39). -/
def State.bare (s : State) : State :=
  let keep (i : Instr) : Bool := [Instr.tokenAdd, .gatewayResendTimeout, .leaseExpiry, .homeApply, .gateApply, .remoteReply,
    .storeAcknowledge, .rnrRetry, .flitReceive, .beaconReceive, .flitReplay, .ergPacketReceive, .ptpAnnounce, .ptpSync, .ptpFollowUp,
    .ptpDelayResp, .claim, .renew, .handover, .accept].contains i
  let net := (s.net.filter fun r => match r.src with | .gateway .. => true | _ => false).map fun r => { r with num := none, stamp := none }
  let plain (l : List Flit) : List Flit := l.map fun f =>
    { f with beacon := none, stamp := none, msg := f.msg.filter fun d => keep d.ev.what }
  { s with
    threads := .empty, cores := .empty, clusters := .empty, ports := .empty, dies := .empty, stamps := .empty, replicas := []
    asids := .empty, comps := .empty, steps := .empty, slots := .empty, mailboxes := .empty, faultsvcs := .empty
    resident := false, held := [], ended := [], damaged := [], suspended := []
    stepsOver := [], net := net, digest := 0, tabDigest := 0
    pfaults := [], cwWrites := [], wakes := [], fwakes := [], transit := [], creditsBack := [], steals := []
    joins := []
    links := s.links.entries.foldl (fun m (e : Nat × Link) => m.set Link.init e.1 { e.2 with
      beacon := 0, flying := plain e.2.flying, replay := plain e.2.replay, lastOut := Link.init.lastOut, lastIn := Link.init.lastIn })
      s.links
    pending := (s.pending.filter fun d => keep d.ev.what) ++
      (net.filter fun r => r.phase == .gated).map fun r => (⟨s.now, ⟨.gateApply, Arg.num r.id⟩⟩ : Due) }

/-- Bytes that Rambeod places, as one write. -/
def State.place (s : State) (l : List (Nat × Byte)) : State :=
  l.foldl (fun s e => { s with mem := s.mem.set 0 e.1 e.2, poison := coverPoison s.poison e.1 1 (2 * s.nextId) })
    { s with nextId := s.nextId + 1 }

/-- Rambeod maps a page of a table window from a node of level l down: a pointer that is not there leads to a free node, cleared (17 R226,
R227). -/
def State.mapPage (s : State) (gva leaf : Nat) : Nat → Nat → List Nat → State × List Nat
  | 0, _, free => (s, free)
  | l + 1, node, free =>
    let at' := node + 8 * (gva / 2 ^ (27 + 11 * l) % 2 ^ 11)
    let put (s : State) (v : Nat) : State := s.place ((bytesOf 8 v).zipIdx.map fun e => (at' + e.2, e.1))
    let e := leNat (readMem s.mem at' 8)
    if l = 0 then (put s leaf, free)
    else if e % 4 = 1 then s.mapPage gva leaf l (e / 2 ^ 14 % 2 ^ 38 * 2 ^ 14) free
    else if e % 2 = 1 then (s, free)
    else match free with
      | n :: rest => (put (s.place ((List.range (2 ^ 14)).map fun i => (n + i, 0))) (n + 1)).mapPage gva leaf l n rest
      | [] => (s, [])

/-- Rambeod builds the table windows of a program (27 R274): leaves with V, LEAF, R, W and P. -/
def State.windows (s : State) (p : Program) : State :=
  (validComps s.comps).foldl (fun s e =>
    let x := placingOf p e.1
    if x.twin = 0 ∨ !(x.region.live && asidOk s.pkgId.toNat x.region) then s
    else ((List.range (x.region.size / 2 ^ 27)).foldl (fun (y : State × List Nat) i =>
      y.1.mapPage (x.twin + i * 2 ^ 27) (x.region.base + i * 2 ^ 27 + 0x4F) 3 x.region.root y.2) (s, x.nodes)).1) s

/-- The program starts: its bytes are in place, its clusters are set up and the others gated, the initial tasks pushed, and the
sequencer follows its entries. -/
def State.start (s : State) (p : Program) : State :=
  let l := validComps s.comps
  let owned := l.flatMap fun e => e.2.clusters
  let s := l.foldl (fun s e => s.setUp e.1 e.2) s
  let s := { s with
    clusters := ((List.range 512).filter fun c => !owned.contains c).foldl
      (fun m c => m.set Cluster.init c { Cluster.init with gated := true, host := p.prismHosts.contains c }) .empty
    resident := true, epoch := s.timeNs, residentAt := s.now
    digest := Sha.beNat (Sha.sha512 p.image), tabDigest := Sha.beNat (Sha.sha512 (Config.tableBytes p)) }
  let s := l.foldl (fun s e =>
    if e.2.initv then s.pushRec e.2.lead.toNat ⟨e.2.initpc, e.2.inita0, e.2.inita1, 0, none, false⟩ else s) s
  s.steps.entries.foldl (fun s e => if e.2.valid then s.owe s.now .stepSlot (Arg.num e.1) else s) s

/-- Rambeod makes a program resident for the owner, or refuses it (01 R10, R12; 06 R86, R88). -/
def execProgramResident (s : State) : Out1 :=
  let h := s.arg.n
  let p := s.arg.prog
  let x := ((s.bare.tables p).place p.bytes).windows p
  .next (if s.mgmt.recovery then s
    else if s.owns h && !s.resident && x.programOk p then x.start p else s.tell (.refusedProgram h))

/-- Rambeod removes the program on the owner's request. -/
def execProgramRemove (s : State) : Out1 :=
  .next (if s.owns s.arg.n && s.resident then s.bare else s.tell (.refusedProgram s.arg.n))

end Sys2Proof.Machine
end

