-- ==== Sys2Proof/Machine/Manage.lean ====
section
/-!
DEFINITION. What Rambeod and the hardware do to components and cores: suspension and the save area (27 R279, R280), ending a
component (R281), the scrubber (17 R222), a debugger (01 R15), shoot-downs (27 R277), and writes to the control window (17
R219).
-/

namespace Sys2Proof.Machine

/-! ### The threads and cores of a component -/

/-- A thread belongs to a component. -/
def State.inComp (s : State) (k t : Nat) : Bool := (s.core (coreOf t)).comp == some k

/-! ### Suspension (27 R279) -/

/-- Rambeod suspends a component on the owner's request. Its cores issue nothing from then on; its requests and engines run
to their end, and its state stays where the save area shows it. -/
def execComponentSuspend (s : State) : Out1 :=
  let h := s.arg.n; let k := s.arg.k
  .next (if !s.owns h || !s.resident || !(s.comp k).valid || s.ended.contains k || s.suspended.any (fun v => v.comp == k) then s
    else
      let s := (s.threadsIn k).foldl State.withdrawThread s
      { s with suspended := s.suspended ++ [⟨k, s.arg.yes⟩] })

/-- On resumption credits are set from the fill of the queues they stand for. -/
def State.resetCredits (s : State) (t : Nat) : State :=
  [Dir.n, .e, .s, .w, .t].foldl (fun s d =>
    match s.receiver t d with
    | some u =>
      { s with creditsBack := s.creditsBack.filter fun x => x != (t, d) }.modThread t fun th =>
        th.setCredit d (4 - ((s.thread u).queue (Dir.opp d)).length -
          (s.transit.filter fun (e : Nat × Dir × Entry) => e.1 == u && e.2.1 == Dir.opp d).length)
    | none => s) s

/-- An instruction that waits would act as soon as it looks again. A FORK that has counted its task only pushes. -/
def Wait.looks (w : Wait) : Bool :=
  match w.why with
  | .performed | .room | .lines _ => true
  | .cond => !w.act.reserved
  | _ => false

/-- A resumed thread: JOIN, WAITE, CBWAIT and a page fault issue again; a kept cause is raised at an instruction that waits before it
acts. -/
def State.resumeThread (s : State) (t : Nat) : State :=
  let s := s.resetCredits t
  match (s.thread t).wait with
  | none => s
  | some w =>
    if w.why = .page then
      { s with pfaults := s.pfaults.filter fun f => !(f.tid == t && decide (f.src < 2)) }.reissue t
    else match w.act with
      | .join .. | .waite _ | .cbwait .. => s.reissue t
      | _ => if w.looks && (s.thread t).deferred.isSome then s.raiseDeferred t else s.poke t

/-- Rambeod resumes a component on the owner's request. -/
def execComponentResume (s : State) : Out1 :=
  let h := s.arg.n; let k := s.arg.k
  .next (if !s.owns h || !s.suspended.any (fun v => v.comp == k) then s
    else
      let s := { s with suspended := s.suspended.filter fun v => v.comp != k }
      let s := (s.threadsIn k).foldl State.resumeThread s
      let s := (s.coresIn k).foldl (fun s c => (s.core c).copies.foldl (fun s x =>
        if x.buffer.isSome && x.started && !x.landed then s.owe (s.now + 1) .cbCopySpace (Arg.num2 c x.id) else s) s) s
      let s := s.pfaults.foldl (fun s f => if f.comp = k then s.owe s.now .faultServiceTimeout (Arg.num f.tid) else s) s
      let done := s.stepsOver.filter fun e => (s.entry e).comp.toNat == k
      let s := done.foldl State.stepEnd { s with stepsOver := s.stepsOver.filter fun e => !done.contains e }
      s.held.foldl (fun s r => match r.root with
        | some e => if (s.entry e).comp.toNat = k then s.owe s.now .sequencerRootPush (Arg.num e) else s
        | none => s) s)

/-! ### The save area (27 R280) -/

/-- Words of a task record. -/
def Rec.word (r : Rec) (i : Nat) : Nat := match i with | 0 => r.pc.toNat | 1 => r.a0.toNat | 2 => r.a1.toNat | _ => r.jc.toNat

/-- The word at an offset of a core record. The oldest thread of the age list stands in the lowest nibble (DESIGN CHOICE, log entry 52:
R280 does not say which end comes first). -/
def State.saveCore (s : State) (c o : Nat) : Nat :=
  let k := s.core c
  let reg (n : Nat) : Nat := (k.regLast n).toNat
  if o < 0x40 then reg (o / 8)
  else if o < 0xC0 then reg (16 + (o - 0x40) / 8)
  else if o < 0x1C0 then reg (32 + (o - 0xC0) / 8)
  else if o = 0x1C0 then reg kFECTL
  else if o = 0x1C8 then reg kNPCTL
  else if o = 0x1D0 then reg kWDCTL
  else if o = 0x1D8 then reg kISSUEPOL
  else if o = 0x1E0 then k.age.foldr (fun t n => t + 16 * n) 0
  else if o = 0x1E8 then match k.lastIssuer with | some l => l | none => 16
  else if 0x200 ≤ o ∧ o < 0x2A0 then (s.bar c ((o - 0x200) / 8)).word.toNat
  else if o = 0x2A0 then k.deque.length + (if k.landing.isSome then 128 else 0)
  else if 0x300 ≤ o ∧ o < 0x320 then match k.landing with | some r => r.word ((o - 0x300) / 8) | none => 0
  else if 0x400 ≤ o ∧ o < 0xC00 then match k.deque[(o - 0x400) / 32]? with | some r => r.word (o % 32 / 8) | none => 0
  else 0

/-- A cause and an address as the save area holds them. -/
def errWord (e : Option Err) (i : Nat) : Nat :=
  match e with | some e => if i = 0 then e.cause.toNat else e.tval.toNat | none => 0

/-- The word at an offset of an entry of an input queue. -/
def entryWord (e : Option Entry) (o : Nat) : Nat :=
  match e with
  | none => 0
  | some e => if o < 64 then e.data.toNat / 2 ^ (8 * o) % 2 ^ 64
    else if o = 64 then e.tag.toNat + (if e.vec then 2 ^ 8 else 0) + 2 ^ 9 else 0

/-- The word at an offset of a thread record. -/
def State.saveThread (s : State) (t o : Nat) : Nat :=
  let th := s.thread t
  if o < 0x100 then if o = 0 then 0 else (th.g.get 0 (o / 8)).toNat
  else if o < 0x150 then
    ([th.vl, th.vtype, th.vstart, th.fcsr, th.cause, th.epc, th.tval, th.trapvec, th.priv, th.portstat].getD ((o - 0x100) / 8) 0).toNat
  else if o = 0x150 then th.pc.toNat
  else if o < 0x188 then
    let i := (o - 0x158) / 8
    (match i % 3 with | 0 => th.ls.get 0 (i / 3) | 1 => th.le.get 0 (i / 3) | _ => th.lc.get 0 (i / 3)).toNat
  else if o = 0x188 then (if th.lp.get false 0 then 1 else 0) + (if th.lp.get false 1 then 2 else 0)
  else if o = 0x190 then th.depth.toNat
  else if o = 0x198 then stateCode (th.shown s.now) + (if th.wake then 8 else 0) + 2 ^ 8 * errWord th.deferred 0
  else if o = 0x1A0 then errWord th.deferred 1
  else if o = 0x1A8 then errWord th.mxErr 0
  else if o = 0x1B0 then errWord th.mxErr 1
  else if 0x200 ≤ o ∧ o < 0x400 then (th.rdM (Fin.ofNat 8 ((o - 0x200) / 64))).toNat / 2 ^ (8 * (o % 64)) % 2 ^ 64
  else if 0x400 ≤ o ∧ o < 0x480 then (th.seg.get 0 ((o - 0x400) / 16)).toNat / 2 ^ (8 * (o % 16)) % 2 ^ 64
  else if 0x480 ≤ o ∧ o < 0x500 then errWord (th.cpErr.get none ((o - 0x480) / 16)) (o % 16 / 8)
  else if 0x500 ≤ o ∧ o < 0xB40 then
    let x := o - 0x500
    entryWord ((th.inq.get [] (x / 320))[x % 320 / 80]?) (x % 80)
  else if 0xC00 ≤ o ∧ o < 0x1C00 then
    let i := (o - 0xC00) / 4
    (th.acc.get 0 i).toNat + 2 ^ 32 * (th.acc.get 0 (i + 1)).toNat
  else if 0x1C00 ≤ o ∧ o < 0x1C00 + 64 * th.winSize then
    (s.vreg t ((o - 0x1C00) / 64)).toNat / 2 ^ (8 * (o % 64)) % 2 ^ 64
  else 0

/-- The word at an offset, a multiple of 8, of a core's area. -/
def State.saveWord (s : State) (c o : Nat) (withLs : Bool) : Nat :=
  if o < 0x1000 then s.saveCore c o
  else if o < 0x31000 then s.saveThread (16 * c + (o - 0x1000) / 0x3000) ((o - 0x1000) % 0x3000)
  else if !withLs then 0
  else if o < 0x35000 then
    (List.range 64).foldl (fun n i => n + if s.fe.get false (coreBase c / 8 + 8 * (o - 0x31000) + i) then 2 ^ i else 0) 0
  else if 0x40000 ≤ o ∧ o < 0x140000 then leNat (readMem s.mem (coreBase c + o - 0x40000) 8)
  else 0

/-- The save area of a component: core n, counted in core-id order, begins at 0x14_0000·n. -/
def State.saveArea (s : State) (k off : Nat) (withLs : Bool) : Nat :=
  match (s.coresIn k)[off / 0x140000]? with
  | some c => s.saveWord c (off % 0x140000 / 8 * 8) withLs
  | none => 0

/-! ### Ending a component (27 R281) -/

/-- The requests at Prisms of a component's threads are gone. -/
def State.dropPrism (s : State) (k : Nat) : State :=
  let mine (r : PReq) : Bool := s.inComp k r.tid
  s.clusters.entries.foldl (fun s e =>
    (s.modCluster e.1 fun c => { c with prismQ := c.prismQ.filter fun r => !mine r }).prismNext e.1) s

/-- A component ends: threads halted, queues, deques, tags and commands emptied, ports unbound, the owner told. -/
def State.endComp (s : State) (k : Nat) (c : Cause) (line : Nat) : State :=
  let ts := s.threadsIn k
  let ks := s.coresIn k
  let s := s.dropPrism k
  let s := ts.foldl (fun s t => s.modThread t fun th =>
    { th with st := .halted, wait := none, inq := .empty, cpErr := .empty, mxErr := none, deferred := none, async := none
              fetched := [], root := none }) s
  let s := ks.foldl (fun s c => s.modCore c fun x =>
    { x with deque := [], reserved := 0, landing := none, stealOut := false, mq := [], mrun := none, rotA := none, rotB := none
             outA := [], outB := [], copies := [], past := [] }) s
  let aside (r : Req) : Bool := r.asideAt (r.loc / 8) && match r.tid? with | some t => ts.contains t | none => false
  let s := { s with
    ended := s.ended ++ [k]
    suspended := s.suspended.filter fun v => v.comp != k
    stepsOver := s.stepsOver.filter fun e => (s.entry e).comp.toNat != k
    held := s.held.filter fun r => !(match r.root with | some e => (s.entry e).comp.toNat == k | none => false)
    steals := s.steals.filter fun x => !ks.contains x.1
    joins := s.joins.filter fun x => !ts.contains x.tid
    pfaults := s.pfaults.filter fun f => f.comp != k
    transit := s.transit.filter fun e => !ts.contains e.1
    net := s.net.filter fun r => !aside r }
  let ports := s.ports.entries.filter fun e => match e.2.desc with
    | some d => (s.portDesc e.1 d).sndr == k || (s.portDesc e.1 d).rcvr == k
    | none => false
  (ports.foldl (fun s e => s.unbindPort e.1) s).tell (.ended s.owner k c line)

/-- A component is ended by a damaged line, or on the owner's request. -/
def execComponentEnd (s : State) : Out1 :=
  let k := s.arg.k
  .next (match s.damaged.find? fun x => x.1 == k with
    | some x =>
      let s := { s with damaged := s.damaged.erase x }
      if s.ended.contains k || !s.resident then s else s.endComp k 0xA0 (64 * x.2)
    | none => if s.owns s.arg.n && s.resident && (s.comp k).valid && !s.ended.contains k then s.endComp k 0 0 else s)

/-! ### The scrubber (17 R222) -/

/-- What a location that the scrubber reads names, past the on-chip map: word loc mod 2^23 of the arrays of core c without a GVA
(deque, queues, segment registers, TLBs) at 2^57 + c·2^23; and, below it, a line of HBM in a cache array (log entry 56). -/
def hiddenCore (loc : Nat) : Option Nat := if loc / 2 ^ 57 = 1 then some (loc % 2 ^ 57 / 2 ^ 23) else none

/-- The ASID whose physical region holds an address. -/
def State.asidOfAddr (s : State) (loc : Nat) : Option (BitVec 12) :=
  (s.asids.entries.find? fun e => e.2.live && decide (e.2.base ≤ loc) && decide (loc < e.2.base + e.2.size)).map fun e =>
    BitVec.ofNat 12 e.1

/-- The component that owns a line: by its tag, by its core, or, for a line of HBM in a cache array, which carries no tag, the component
whose ASID's physical region holds it (DESIGN CHOICE, log entry 56: 17 R222 names the owner by the tag alone). -/
def State.lineOwner (s : State) (loc : Nat) : Option Nat :=
  match decodeWin loc, hiddenCore loc with
  | some (.core c off), _ => if off < 0x100000 then s.compOfAsid (s.tagAt loc) else (s.core c).comp
  | some _, _ => s.compOfAsid (s.tagAt loc)
  | none, some c => (s.core c).comp
  | none, none => match s.asidOfAddr loc with | some a => s.compOfAsid a | none => none

/-- The scrubber reads a word: a single error is corrected and counted; an uncorrectable one poisons the line and ends the
component that owns it. A shared line is only poisoned. -/
def State.scrub (s : State) (loc : Nat) (e : EccError) : State :=
  if (decodeWin loc).isNone && (hiddenCore loc).isNone && !decide (loc < 2 ^ 52) then s
  else match e with
    | .none => s
    | .single => { s with corrected := s.corrected + 1 }
    | .double =>
      let s := if (hiddenCore loc).isSome then s else s.addPoison loc
      match s.lineOwner loc with
      | some k => { s with damaged := s.damaged ++ [(k, loc / 64)] }.owe s.now .componentEnd (Arg.num2 0 k)
      | none => s

def execScrubRead (s : State) : Out1 := .next (s.scrub s.arg.n s.arg.ecc)

/-! ### A debugger (01 R15; 07 R109) -/

/-- A debugger halts a thread. A parked one gives up its wait and is at its instruction, what stands aside for it withdrawn. -/
def execDebugHalt (s : State) : Out1 :=
  let t := s.arg.n
  .next (if (s.thread t).winSize = 0 ∨ (s.thread t).st = .halted then s
    else ((s.withdrawThread t).abandon t).modThread t fun th => { th with st := .halted, wait := none })

/-- A debugger resumes a halted thread to ready. A thread without a window, or of an ended component, stays halted. -/
def execDebugResume (s : State) : Out1 :=
  let t := s.arg.n
  .next (if (s.thread t).winSize = 0 ∨ (s.thread t).st ≠ .halted ∨
      (match (s.core (coreOf t)).comp with | some k => s.ended.contains k | none => true) = true then s
    else s.modThread t fun th => { th with st := .ready, readyAt := max th.readyAt (s.now + 1) })

/-! ### Shoot-downs (27 R277) -/

/-- Offset of SDREQ in the core window. -/
def sdOff : Nat := 0x610348

/-- A cached leaf matches a shoot-down. -/
def sdMatch (v : Word) (asid : BitVec 12) (t : TlbEnt) : Bool :=
  let page := bitsOf v.toNat 16 40 * 2 ^ 16
  let size := match v.toNat % 4 with | 0 => 2 ^ 16 | 1 => 2 ^ 27 | 2 => 2 ^ 38 | _ => 2 ^ 56
  t.asid == asid && (v.toNat % 4 == 3 || (decide (t.base < page + size) && decide (page < t.base + t.size)))

/-- An access from a cluster, with an ASID, translates an address of the pages that the shoot-down of a core names, or did so under an
entry that it removes. -/
def State.sdCovers (s : State) (c cl : Nat) (a : BitVec 12) (gva : Nat) : Bool :=
  let k := s.core c
  let hit := sdMatch k.sdWord k.sdAsid
  a == k.sdAsid && decide (gva < 2 ^ 56) && (hit ⟨a, gva, 1, 0⟩ ||
    ((s.cluster cl).tlb ++ (s.die (cl / 64)).tlb).any fun t => hit t && decide (t.base ≤ gva) && decide (gva < t.base + t.size))

/-- A JOIN whose counter lies on a page of the shoot-down translates its address anew: at once where it waits for the counter, else when
its read is answered (27 R277). -/
def State.sdJoin (s : State) (t : Nat) : State :=
  match (s.thread t).wait with
  | some ⟨.join k a loc _, why, since, reqs, got, bad⟩ =>
    if why = .counter ∧ !s.isSuspended (coreOf t) then s.join t k a 0 false []
    else if why = .replies then s.park t ⟨.join k a loc true, why, since, reqs, got, bad⟩
    else s
  | _ => s

/-- Threads of a die whose JOINs the shoot-down of a core covers. -/
def State.sdJoins (s : State) (c d : Nat) : List Nat :=
  (s.threads.entries.filter fun e => dieOf (coreOf e.1) == d && match e.2.wait with
    | some ⟨.join _ a _ _, _, _, _, _, _⟩ =>
      s.sdCovers c (clusterOf (coreOf e.1)) e.2.asid (gvaOf (e.2.seg.get 0 (selOf a)) (offOf a))
    | _ => false).map (·.1)

/-- The shoot-down of a core reaches a compute die: its TLBs drop their matching entries, and each of its cluster ports owes its
acknowledgement. -/
def State.sdReach (s : State) (c d : Nat) : State :=
  let hit := sdMatch (s.core c).sdWord (s.core c).sdAsid
  let busy := (s.net.filter fun r => r.owner?.isSome && r.cluster / 64 == d && s.sdCovers c r.cluster r.asid r.gva).map (·.id)
  let joins := s.sdJoins c d
  let s := (s.modCore c fun k => { k with sdReqs := k.sdReqs ++ busy, sdDies := k.sdDies.erase d }).modDie d fun x =>
    { x with tlb := x.tlb.filter fun t => !hit t }
  let s := { s with
    clusters := s.clusters.entries.foldl (fun m (e : Nat × Cluster) =>
      if e.1 / 64 = d then m.set Cluster.init e.1 { e.2 with tlb := e.2.tlb.filter fun t => !hit t } else m) s.clusters
    pending := s.pending ++ (List.range 64).map fun x => (⟨s.now + 1, ⟨.shootdownAck, Arg.num2 c (64 * d + x)⟩⟩ : Due) }
  joins.foldl State.sdJoin s

/-- A write to SDREQ starts a shoot-down: it reaches the own die at once and goes to the others over UCIe. -/
def State.sdStart (s : State) (c : Nat) (w : CwWrite) : State :=
  let own := dieOf c
  let dies := (List.range 8).filter (· != own)
  let s := s.modCore c fun k =>
    { k with sdBusy := true, sdWord := w.v, sdAsid := w.asid, sdWait := List.range 512, sdReqs := [], sdDies := own :: dies, sdBack := [] }
  dies.foldl (fun s d => s.carry own d (requestGroup w.asid) (ucie own d) .shootdownRequest (Arg.num2 c (d + 1)) none) (s.sdReach c own)

def execShootdownRequest (s : State) : Out1 :=
  let c := s.arg.n; let d := s.arg.k - 1
  .next (if s.arg.k ≠ 0 then (if (s.core c).sdDies.contains d then s.sdReach c d else s)
    else match s.cwWrites.find? fun w => w.core == c && w.off == sdOff with
    | some w =>
      let s := { s with cwWrites := s.cwWrites.erase w }
      if (s.core c).sdBusy then s else s.sdStart c w
    | none => s)

/-- The acknowledgement of a cluster port reaches the core: the last one clears BUSY and counts in SEQ. -/
def State.sdDone (s : State) (c x : Nat) : State :=
  s.modCore c fun k =>
    let rest := k.sdWait.filter (· != x)
    let k := { k with sdWait := rest, sdBack := k.sdBack.erase x }
    if rest.isEmpty then { k with sdReqs := [], sdBusy := false, sdSeq := k.sdSeq + 1 } else k

/-- A cluster port acknowledges once the accesses it translated under a removed entry are performed or refused, over UCIe where it is on
another die. A power-gated cluster acknowledges at once. -/
def execShootdownAck (s : State) : Out1 :=
  let c := s.arg.n; let x := s.arg.k
  let k := s.core c
  .next (if s.arg.yes then (if k.sdBack.contains x then s.sdDone c x else s)
    else if !k.sdBusy ∨ !k.sdWait.contains x ∨ k.sdBack.contains x ∨ k.sdDies.contains (x / 64) then s
    else if !(s.cluster x).gated && s.net.any (fun r => k.sdReqs.contains r.id && r.cluster == x && r.phase != .refused) then
      (s.modCore c fun k => { k with sdReqs := k.sdReqs.filter fun i => !s.net.any fun r => r.id == i && r.phase == .refused }).owe
        (s.now + 1) .shootdownAck s.arg
    else if x / 64 = dieOf c then s.sdDone c x
    else (s.modCore c fun k => { k with sdBack := k.sdBack ++ [x] }).carry (x / 64) (dieOf c) replyGroup (ucie (x / 64) (dieOf c))
      .shootdownAck { Arg.num2 c x with yes := true } none)

/-! ### The control window (17 R219) -/

/-- A recorded write to a control-window register takes effect. -/
def execControlWindowWrite (s : State) : Out1 :=
  let c := s.arg.n
  .next (match s.cwWrites.find? fun w => w.core == c && w.off != sdOff with
    | some w =>
      let s := { s with cwWrites := s.cwWrites.erase w }
      match cregAt c w.off with | some r => s.cwWrite c r w.v w.tid | none => s
    | none => s)

end Sys2Proof.Machine
end

