-- ==== Sys2Proof/Machine/Device.lean ====
section
/-!
DEFINITION. The device beyond its program: the 1588 clock (29 R291), ownership (R293), attestation and management reads (R292,
R295), firmware and start sequences (R294, R296), and the thermal limits (R297).
-/

namespace Sys2Proof.Machine

/-! ### The 1588 clock (29 R291; 15 R202) -/

/-- Restart the clock's count at its present time. -/
def State.rebase (s : State) : Clock :=
  { s.clock with
    base := s.time, baseAt := s.now, slew := s.clock.slew - s.slewed }

/-- A changed clock may have reached slots, or the end of a lease. -/
def State.clockMoved (s : State) : State :=
  let s := s.steps.entries.foldl (fun s e => if e.2.valid then s.owe s.now .stepSlot (Arg.num e.1) else s) s
  if s.mgmt.owner.isSome then s.owe s.now .leaseExpiry .none else s

/-- A Sync, Follow_Up or Delay_Resp counts that comes from the clock's master in its domain, and while the device serves. -/
def State.ptpHeard (s : State) : Bool := s.serves && s.arg.q == s.clock.domain && s.clock.master == some s.arg.r

/-- A Sync arrives: its arrival at a link is timestamped, of die 9 in the time base of die 8. -/
def execPtpSync (s : State) : Out1 :=
  .next (if s.ptpHeard then
      { s with clock := { s.clock with sync := some (s.arg.n, match s.arg.nums with | t :: _ => BitVec.ofNat 80 t | [] => s.time) } }
    else s)

/-- A Follow_Up gives the master's time of its Sync: an offset above 1 ms is stepped, a smaller one slewed, and intervals below
LOCKTHR count towards LOCKED. -/
def execPtpFollowUp (s : State) : Out1 :=
  .next (match s.clock.sync with
    | some (n, t2) =>
      if n ≠ s.arg.n ∨ !s.ptpHeard then s
      else
        let ms := timeTo (timeOf s.arg.k s.arg.p) t2
        let off := ms - s.clock.delay
        let c := { s.rebase with sync := none, ms := ms, good := if off.natAbs < nsUnit * Config.lockThr then s.clock.good + 1 else 0 }
        { s with clock := if 1000000 * nsUnit < off.natAbs then { c with base := c.base - BitVec.ofInt 80 off, slew := 0 } else { c with slew := -off } }.clockMoved
    | none => s)

/-- LOCKED. -/
def Clock.locked (c : Clock) : Bool := decide (16 ≤ c.good)

/-- A Delay_Req joins a link's queue for the master; it is timestamped as its first byte leaves. -/
def execPtpDelayReq (s : State) : Out1 :=
  .next (match s.clock.master with
    | some m => if s.serves then s.mgmtPacket 0 m (Config.mgmtPayload 9 s.arg.n s.clock.domain 0) (some s.arg.n) else s
    | none => s)

/-- A Delay_Resp gives the master's time of a Delay_Req: the path delay is the mean of both directions. -/
def execPtpDelayResp (s : State) : Out1 :=
  .next (match s.clock.delayReq with
    | some (n, t3) =>
      if n ≠ s.arg.n ∨ !s.ptpHeard then s
      else { s with clock := { s.clock with delayReq := none, delay := (s.clock.ms + timeTo t3 (timeOf s.arg.k s.arg.p)) / 2 } }
    | none => s)

/-- An Announce in the clock's domain names its master. -/
def execPtpAnnounce (s : State) : Out1 :=
  .next (if s.arg.n = s.clock.domain ∧ s.serves then { s with clock := { s.clock with master := some s.arg.k } } else s)

/-! ### Ownership (29 R293) -/

/-- A lease of 2^33 ns from now. -/
def State.newLease (s : State) : Time := s.time + timeOf (2 ^ 33) 0

/-- LEASE_EXPIRY is owed for the first cycle in which the clock can have reached the end of the lease. -/
def State.oweLease (s : State) : State :=
  s.owe (s.now + cyclesFor (timeTo s.time s.mgmt.lease)) .leaseExpiry .none

/-- A CLAIM: granted if there is no owner. -/
def execClaim (s : State) : Out1 :=
  let h := s.arg.n
  .next (if !s.serves then s
    else match s.owner with
      | some o => s.tell (.deny h (some o))
      | none => ({ s with mgmt := { s.mgmt with owner := some h, lease := s.newLease, nominee := none } }.tell (.grant h)).oweLease)

/-- A RENEW from the owner restarts the lease. -/
def execRenew (s : State) : Out1 :=
  .next (if s.serves && s.owns s.arg.n then { s with mgmt := { s.mgmt with lease := s.newLease } }.oweLease else s)

/-- A HANDOVER from the owner nominates a host; the owner stays owner. -/
def execHandover (s : State) : Out1 :=
  .next (if s.serves && s.owns s.arg.n then { s with mgmt := { s.mgmt with nominee := some s.arg.k } } else s)

/-- An ACCEPT from the nominee, within the lease, passes ownership. -/
def execAccept (s : State) : Out1 :=
  .next (if s.serves && s.owner.isSome && s.mgmt.nominee == some s.arg.n then
      { s with mgmt := { s.mgmt with owner := some s.arg.n, nominee := none } }
    else s)

/-- The lease has run out: no host is owner. -/
def execLeaseExpiry (s : State) : Out1 :=
  .next (if s.mgmt.owner.isNone then s
    else if 0 < timeTo s.time s.mgmt.lease then
      (if s.pending.any fun d => d.ev.what == .leaseExpiry then s else s.oweLease)
    else { s with mgmt := { s.mgmt with owner := none, nominee := none } })

/-! ### Attestation and reads (29 R292, R295) -/

/-- The digest of an image. -/
def imageDigest (n : Nat) : Nat := Sha.beNat (Sha.sha512 (Config.imageBytes n))

/-- The body of a quote. -/
def State.quoteBody (s : State) (nonce : List Byte) : List Byte :=
  Config.quoteBody nonce (imageDigest s.mgmt.image) (imageDigest s.mgmt.firmware) s.digest s.tabDigest s.mgmt.starts s.mgmt.keptHbm

/-- Rambeod answers a nonce with a quote, signed with the identity key. -/
def execAttestQuote (s : State) : Out1 :=
  let body := s.quoteBody s.arg.bytes
  .next (if s.serves then
      { s with free := s.free + 1 }.tell (.quote s.arg.n
        (body ++ Sha.beBytes 512 (Sha.sign s.mgmt.identity body (Sha.beBytes 64 (Config.salt s.free).toNat))))
    else s)

/-- Telemetry: corrected errors, LOCKED, discarded flits of each link, entries of each buffer. -/
def State.telemetry (s : State) : List Nat :=
  [s.corrected, if s.clock.locked then 1 else 0] ++ (List.range 100).map (fun l => (s.link l).errors)
    ++ (List.range 132).map bufEntries

/-- A host reads telemetry, OVRCNT, PEND and RUN of a step entry, or a word of the save area of a suspended component. Reads
need no ownership. -/
def execManagementRead (s : State) : Out1 :=
  let words : List Nat := match s.arg.item with
    | .telemetry => s.telemetry
    | .stepEntry e => let x := s.entry e; [x.ovrcnt.toNat, if x.pend then 1 else 0, if x.run then 1 else 0]
    | .saveArea k o =>
      match s.suspended.find? fun v => v.comp == k with
      | some v => [s.saveArea k o v.withLs]
      | none => []
  .next (if s.serves then s.tell (.readAnswer s.arg.n words) else s)

/-! ### Firmware and starts (29 R294 to R296) -/

/-- The boot ROM verifies Rambeod's image: its public key has the fused digest, and its signature holds under that key. -/
def State.imageGood (s : State) (image : Nat) : Bool :=
  BitVec.ofNat 512 (Sha.beNat (Sha.sha512 (Config.imageKeyBytes image))) == s.fuses.keyDigest
    && Sha.verifies (Config.imageKey image) (Config.imageSigned image) (Config.imageSignature image)

/-- Rambeod verifies the management firmware's image with the key in its own. -/
def firmwareGood (image firmware : Nat) : Bool :=
  Sha.verifies (Config.firmwareKey image) (Config.imageSigned firmware) (Config.imageSignature firmware)

/-- Both verifications. -/
def State.trusted (s : State) (image firmware : Nat) : Bool := s.imageGood image && firmwareGood image firmware

/-- In recovery a new image of Rambeod or of the firmware is accepted, by management message only; the device leaves recovery when
both verify. -/
def execRecoveryImage (s : State) : Out1 :=
  let m := s.mgmt
  let m := if s.arg.yes then { m with firmware := s.arg.n } else { m with image := s.arg.n }
  .next (if s.mgmt.recovery then { s with mgmt := { m with recovery := !s.trusted m.image m.firmware } } else s)

/-- The state after a start: everything clear, the verified images and what `keep` holds kept. -/
def State.restart (s : State) (image firmware : Nat) (m : Mgmt) (mem : Memory) : State :=
  { State.reset with
    now := s.now, free := s.free, nextId := s.nextId, agenda := s.agenda, out := s.out, pkgId := s.pkgId, arg := s.arg
    mem := mem, fuses := s.fuses
    clock := { Clock.init with baseAt := s.now }
    mgmt := { m with
      starts := s.mgmt.starts + 1, image := image, firmware := firmware
      recovery := !s.trusted image firmware } }

/-- Power-on or the module reset: a cold start. The boot ROM derives the identity key from the fused secret. -/
def execColdStart (s : State) : Out1 :=
  .next (s.restart s.arg.n s.arg.k { Mgmt.init with identity := Config.identityKey s.fuses.secret.toNat } .empty)

/-- The HBM contents of this package. -/
def hbmOnly (m : Memory) : Memory := ⟨m.entries.filter fun e => decide (e.1 < 2 ^ 56)⟩

/-- A warm start, on the owner's request only: HBM keeps its contents if the owner asked, and ownership survives while the
lease runs. -/
def execWarmStart (s : State) : Out1 :=
  let left := s.mgmt.lease - s.time
  .next (if !s.owns s.arg.n then s
    else
      (s.restart s.arg.k s.arg.p { s.mgmt with lease := left, keptHbm := s.arg.yes }
        (if s.arg.yes then hbmOnly s.mem else .empty)).oweLease)

/-! ### Thermal limits (29 R297) -/

def execThermalAlarm (s : State) : Out1 := .next (s.tell (.alarm s.owner))

/-- A thermal trip removes power; the next power-on is a cold start. -/
def execThermalTrip (s : State) : Out1 := .next { s with power := false }

end Sys2Proof.Machine
end

