-- ==== Sys2Proof/Machine/ScalarFp.lean ====
section
/-!
DEFINITION. Scalar floating point: the FP and FMA groups (07 R97 to R99).
-/

namespace Sys2Proof.Machine

/-- An FP instruction with a floating-point result: the result is zero-extended (03 R25). -/
def State.fpPut (s : State) (i : Instr) (d : Reg) (r : Nat × Flags) (dist : Nat) : Out1 :=
  s.fpFinish (ibits i) d (BitVec.ofNat 64 r.1) r.2 dist

/-- An FP compare: the integer result fills the register. -/
def State.fpTest (s : State) (i : Instr) (d : Reg) (r : Bool × Flags) : Out1 :=
  s.fpFinish (ibits i) d (if r.1 then 1 else 0) r.2 class2

def execFadd (f : FFmt) (r : Rnd) (d b c : Reg) (s : State) : Out1 :=
  s.fpPut (.fadd f r d b c) d (fAdd f.fmt (s.rmode r) (s.fp f.fmt b) (s.fp f.fmt c)) class2
def execFsub (f : FFmt) (r : Rnd) (d b c : Reg) (s : State) : Out1 :=
  s.fpPut (.fsub f r d b c) d (fSub f.fmt (s.rmode r) (s.fp f.fmt b) (s.fp f.fmt c)) class2
def execFmul (f : FFmt) (r : Rnd) (d b c : Reg) (s : State) : Out1 :=
  s.fpPut (.fmul f r d b c) d (fMul f.fmt (s.rmode r) (s.fp f.fmt b) (s.fp f.fmt c)) class2
def execFdiv (f : FFmt) (r : Rnd) (d b c : Reg) (s : State) : Out1 :=
  s.fpPut (.fdiv f r d b c) d (fDiv f.fmt (s.rmode r) (s.fp f.fmt b) (s.fp f.fmt c)) class3
def execFsqrt (f : FFmt) (r : Rnd) (d b : Reg) (s : State) : Out1 :=
  s.fpPut (.fsqrt f r d b) d (fSqrt f.fmt (s.rmode r) (s.fp f.fmt b)) class3
def execFmin (f : FFmt) (d b c : Reg) (s : State) : Out1 :=
  s.fpPut (.fmin f d b c) d (fMinMax f.fmt false (s.fp f.fmt b) (s.fp f.fmt c)) class2
def execFmax (f : FFmt) (d b c : Reg) (s : State) : Out1 :=
  s.fpPut (.fmax f d b c) d (fMinMax f.fmt true (s.fp f.fmt b) (s.fp f.fmt c)) class2
def execFeq (f : FFmt) (d b c : Reg) (s : State) : Out1 :=
  s.fpTest (.feq f d b c) d (fEq f.fmt (s.fp f.fmt b) (s.fp f.fmt c))
def execFlt (f : FFmt) (d b c : Reg) (s : State) : Out1 :=
  s.fpTest (.flt f d b c) d (fLt f.fmt (s.fp f.fmt b) (s.fp f.fmt c))
def execFle (f : FFmt) (d b c : Reg) (s : State) : Out1 :=
  s.fpTest (.fle f d b c) d (fLe f.fmt (s.fp f.fmt b) (s.fp f.fmt c))
def execFclass (f : FFmt) (d b : Reg) (s : State) : Out1 :=
  s.put d (BitVec.ofNat 64 (fClass f.fmt (s.fp f.fmt b))) class2
def execFsgnj (f : FFmt) (d b c : Reg) (s : State) : Out1 :=
  s.put d (BitVec.ofNat 64 (fSgnj f.fmt (s.fp f.fmt b) (s.fp f.fmt c))) class2
def execFma (f : FFmt) (r : Rnd) (d b c e : Reg) (s : State) : Out1 :=
  s.fpPut (.fma f r d b c e) d (fFma f.fmt (s.rmode r) (s.fp f.fmt b) (s.fp f.fmt c) (s.fp f.fmt e)) class2

/-- The value of a conversion's source (07 R99). -/
def cvtSource (ty : CvtTy) (v : Word) : FVal :=
  match ty with
  | .fp32 => decodeF FP32 (v.toNat % 2 ^ 32) | .fp64 => decodeF FP64 v.toNat
  | .fp16 => decodeF FP16 (v.toNat % 2 ^ 16) | .bf16 => decodeF BF16 (v.toNat % 2 ^ 16)
  | .int64 => ofInt v.toInt | .uint64 => ofInt v.toNat
  | .int32 => ofInt (v.truncate 32).toInt | .uint32 => ofInt (v.truncate 32).toNat

/-- The range of a conversion's integer target (07 R99). -/
def cvtRange : CvtTy → Int × Int
  | .int64 => (-2 ^ 63, 2 ^ 63 - 1) | .uint64 => (0, 2 ^ 64 - 1) | .uint32 => (0, 2 ^ 32 - 1) | _ => (-2 ^ 31, 2 ^ 31 - 1)

def execFcvtToFp (f : FFmt) (r : Rnd) (ty : CvtTy) (d b : Reg) (s : State) : Out1 :=
  s.fpPut (.fcvtToFp f r ty d b) d (roundTo f.fmt (s.rmode r) false (cvtSource ty (s.g b))) class2
def execFcvtSat (f : FFmt) (r : Rnd) (ty : CvtTy) (d b : Reg) (s : State) : Out1 :=
  s.fpPut (.fcvtSat f r ty d b) d (roundTo f.fmt (s.rmode r) true (cvtSource ty (s.g b))) class2

/-- A signed result fills the register by its sign, an unsigned one by zeros (07 R99): both are the integer modulo 2^64. -/
def execFcvtToInt (f : FFmt) (r : Rnd) (ty : CvtTy) (d b : Reg) (s : State) : Out1 :=
  let v := fToInt (s.rmode r) (cvtRange ty).1 (cvtRange ty).2 (decodeF f.fmt (s.fp f.fmt b))
  s.fpFinish (ibits (.fcvtToInt f r ty d b)) d (BitVec.ofInt 64 v.1) v.2 class2

end Sys2Proof.Machine
end

