-- ==== Sys2Proof/Machine/VCvt.lean ====
section
/-!
DEFINITION. Conversions (09 R135, R136), block quantising (R137) and DXB streams (R138 to R140).
-/

namespace Sys2Proof.Machine

/-- The range of an integer type. -/
def vtyRange (t : VTy) : Int × Int :=
  if t.signed then (-2 ^ (t.width - 1), 2 ^ (t.width - 1) - 1) else (0, 2 ^ t.width - 1)

/-- Convert one element (09 R136; 03 R39). Between integers of one width the narrower rule applies (DEDUCED, log entry 22). -/
def convert (src tgt : VTy) (rm : RMode) (sat : Bool) (v : Nat) : Nat × Flags :=
  match src.fp with
  | some f =>
    let x := decodeF f v
    match tgt.fp with
    | some k => roundTo k rm sat x
    | none =>
      let r := fToInt rm (vtyRange tgt).1 (vtyRange tgt).2 x
      (wrapI tgt.width r.1, r.2)
  | none =>
    let x : Int := if src.signed then sgn src.width v else v
    match tgt.fp with
    | some k => roundTo k rm sat (ofInt x)
    | none =>
      if tgt.width ≤ src.width ∧ sat then (wrapI tgt.width (satInt x (vtyRange tgt).1 (vtyRange tgt).2), 0)
      else (wrapI tgt.width x, 0)

/-- The penalty of the groups of a format, if it is floating point (03 R43). -/
def penaltyOf (f : Option Fmt) (act : List Nat) (g : Nat → Nat) : Nat :=
  match f with | some f => penalty f act [g] none | none => 0

def execVcvt (src tgt : VTy) (sat : Bool) (m : MReg) (d c : Reg) (s : State) : Out1 :=
  let th := s.th
  let x := th.vctx m true
  let gd := th.sized d tgt.width
  let gc := th.sized c src.width
  let i := Instr.vcvt src tgt sat m d c
  s.vRun i (th.sew == max src.width tgt.width) [gd, gc] (src.width != tgt.width && gd.meets gc) x class2
    (let at' (j : Nat) : Nat := s.elem s.cur c.val src.width j
     let r (j : Nat) : Nat × Flags := convert src tgt (rmOf th.fcsr) sat (at' j)
     let act := x.actives
     s.vFpEnd (act.map fun j => (j, (r j).2)) i
       (class2 + penaltyOf src.fp act at' + penaltyOf tgt.fp act fun j => (r j).1)
       fun s => s.putElems s.cur d.val tgt.width gd.count (x.written tgt.width fun j => (r j).1))

/-! ### Block formats -/

/-- The source format of VQSCALE and the DXB instructions: BF16 at e16, FP32, FP64 (09 R137, R138). -/
def blockSource (sew : Nat) : Option Fmt :=
  if sew = 16 then some BF16 else if sew = 32 then some FP32 else if sew = 64 then some FP64 else none

/-- The largest power of two of a VQSCALE target (03 R40). -/
def scaleEmax : VTy → Int | .e4m3 => 8 | .int8 => 6 | _ => 15

/-- An element of a quantised block (09 R137). -/
def quantise (tgt : VTy) (c : Nat) (x : FVal) : Nat :=
  if c = 0xFF then 0
  else
    let y := x.scale (127 - c)
    match tgt.fp with
    | some k => (roundTo k .rne true y).1
    | none => match y with
      | .fin n m e => wrapI 8 (satInt (roundInt .rne n m e).1 (-128) 127)
      | _ => 0

def execVqscale (tgt : VTy) (d c b : Reg) (s : State) : Out1 :=
  let th := s.th
  let x := th.vctx 0 false
  let w := th.sew
  let f := (blockSource w).getD FP64
  let gd := th.sized d tgt.width
  let gc := th.group c
  let gb := single b
  s.vRun (.vqscale tgt d c b) (blockSource w).isSome [gd, gc, gb] (gd.meets gc || gd.meets gb || gc.meets gb) x class3
    (let at' (j : Nat) : Nat := s.elem s.cur c.val w j
     let val (j : Nat) : FVal := decodeF f (at' j)
     let nb := (x.vl + 31) / 32
     let scale (k : Nat) : Nat :=
       blockScale (amaxV (((List.range 32).map (32 * k + ·)).filter (· < x.vl) |>.map fun j => (val j).abs)) (scaleEmax tgt)
     let s' := s.putElems s.cur d.val tgt.width gd.count
       (((List.range x.vl).map fun j => (j, quantise tgt (scale (j / 32)) (val j))) ++ x.tailFrom tgt.width x.vl)
     let s' := s'.putElems s.cur b.val 8 1 ((List.range nb).map fun k => (k, scale k))
     .next (s'.vDone 4 (class3 + penalty f x.actives [at'] none)))

/-- Registers of a DXB stream and the multiple its base must be (09 R138). -/
def streamGroup (w4 : Bool) (vlmax : Nat) (r : Reg) : Group :=
  let k := ((vlmax + 31) / 32 * blockLen w4 + 63) / 64
  ⟨r.val, k, if k ≤ 1 then 1 else if k ≤ 2 then 2 else if k ≤ 4 then 4 else 8⟩

/-- A DXB instruction with its own body at VL = 0 too (09 R139, R140; log entry 23). -/
def State.vBlock (s : State) (i : Instr) (gs : List Group) (ovl : Bool) (dist : Nat) (write : State → State) : Out1 :=
  match s.th.vCause (blockSource s.th.sew).isSome gs ovl with
  | some k => s.raise k (ibits i)
  | none => .next ((write s).vDone 4 dist)

def execVdxbpack (w4 : Bool) (sh : Fin 16) (d c : Reg) (s : State) : Out1 :=
  let th := s.th
  let x := th.vctx 0 false
  let f := (blockSource th.sew).getD FP64
  let gd := streamGroup w4 th.vlmax d
  let at' (j : Nat) : Nat := s.elem s.cur c.val th.sew j
  let nb := (x.vl + 31) / 32
  let block (k : Nat) : List Nat := blockBytes w4 (dxbEncode w4 sh.val
    ((List.range 32).map fun j => if 32 * k + j < x.vl then decodeF f (at' (32 * k + j)) else .fin false 0 0))
  let bytes := (List.range nb).flatMap block
  s.vBlock (.vdxbpack w4 sh d c) [gd, th.group c] (gd.meets (th.group c)) (class3 + penalty f x.actives [at'] none)
    fun s => s.putElems s.cur d.val 8 gd.count
      (((List.range bytes.length).zip bytes) ++
        (if x.ta then ((List.range (64 * gd.count)).filter (bytes.length ≤ ·)).map fun p => (p, 0xFF) else []))

def execVdxbunpack (w4 : Bool) (d c : Reg) (s : State) : Out1 :=
  let th := s.th
  let x := th.vctx 0 false
  let f := (blockSource th.sew).getD FP64
  let gc := streamGroup w4 th.vlmax c
  let y := blockLen w4
  let val (j : Nat) : Nat :=
    (roundTo f .rne false (blockElem w4 (fun p => s.elem s.cur c.val 8 (y * (j / 32) + p)) (j % 32))).1
  s.vBlock (.vdxbunpack w4 d c) [th.group d, gc] ((th.group d).meets gc)
    (class2 + penalty f x.actives [] (some val))
    fun s => s.putElems s.cur d.val th.sew th.grp
      (((List.range x.vl).map fun j => (j, val j)) ++ x.tailFrom th.sew x.vl)

end Sys2Proof.Machine
end

