-- ==== Sys2Proof/Machine/VFp.lean ====
section
/-!
DEFINITION. Vector floating point (09 R126), its lane parcels (R141) and the reductions (R127, R128).
-/

namespace Sys2Proof.Machine

def execVfadd (bf : Bool) (f : VForm) (m : MReg) (d c b : Reg) (s : State) : Out1 :=
  s.vFp (.vfadd bf f m d c b) bf f m d c b false false true class2 fun k x y _ => fAdd k (rmOf s.th.fcsr) x y
def execVfsub (bf : Bool) (f : VForm) (m : MReg) (d c b : Reg) (s : State) : Out1 :=
  s.vFp (.vfsub bf f m d c b) bf f m d c b false false true class2 fun k x y _ => fSub k (rmOf s.th.fcsr) x y
def execVfmul (bf : Bool) (f : VForm) (m : MReg) (d c b : Reg) (s : State) : Out1 :=
  s.vFp (.vfmul bf f m d c b) bf f m d c b false false true class2 fun k x y _ => fMul k (rmOf s.th.fcsr) x y
def execVfdiv (bf : Bool) (f : VForm) (m : MReg) (d c b : Reg) (s : State) : Out1 :=
  s.vFp (.vfdiv bf f m d c b) bf f m d c b false false true class3 fun k x y _ => fDiv k (rmOf s.th.fcsr) x y
def execVfsqrt (bf : Bool) (m : MReg) (d c : Reg) (s : State) : Out1 :=
  s.vFp (.vfsqrt bf m d c) bf .vv m d c 0 true false true class3 fun k x _ _ => fSqrt k (rmOf s.th.fcsr) x
def execVfmacc (bf : Bool) (f : VForm) (m : MReg) (d c b : Reg) (s : State) : Out1 :=
  s.vFp (.vfmacc bf f m d c b) bf f m d c b false true true class2 fun k x y z => fFma k (rmOf s.th.fcsr) x y z
def execVfnmacc (bf : Bool) (f : VForm) (m : MReg) (d c b : Reg) (s : State) : Out1 :=
  s.vFp (.vfnmacc bf f m d c b) bf f m d c b false true true class2 fun k x y z => fNma k (rmOf s.th.fcsr) x y z
def execVfmin (bf : Bool) (f : VForm) (m : MReg) (d c b : Reg) (s : State) : Out1 :=
  s.vFp (.vfmin bf f m d c b) bf f m d c b false false true class2 fun k x y _ => fMinMax k false x y
def execVfmax (bf : Bool) (f : VForm) (m : MReg) (d c b : Reg) (s : State) : Out1 :=
  s.vFp (.vfmax bf f m d c b) bf f m d c b false false true class2 fun k x y _ => fMinMax k true x y
def execVfsgnj (bf : Bool) (f : VForm) (m : MReg) (d c b : Reg) (s : State) : Out1 :=
  s.vFp (.vfsgnj bf f m d c b) bf f m d c b false false true class2 fun k x y _ => (fSgnj k x y, 0)
def execVfeq (bf : Bool) (f : VForm) (m d : MReg) (c b : Reg) (s : State) : Out1 :=
  s.vFpCmp (.vfeq bf f m d c b) bf f m d c b fEq
def execVflt (bf : Bool) (f : VForm) (m d : MReg) (c b : Reg) (s : State) : Out1 :=
  s.vFpCmp (.vflt bf f m d c b) bf f m d c b fLt
def execVfle (bf : Bool) (f : VForm) (m d : MReg) (c b : Reg) (s : State) : Out1 :=
  s.vFpCmp (.vfle bf f m d c b) bf f m d c b fLe
def execVfclass (bf : Bool) (m : MReg) (d c : Reg) (s : State) : Out1 :=
  s.vFp (.vfclass bf m d c) bf .vv m d c 0 true false false class2 fun k x _ _ => (fClass k x, 0)

/-! ### Lane parcels of operations 11 to 15 (05 R46) -/

/-- Form bit 1 is the vf form. -/
def parcelFp (x : Bool) : VForm := if x then .vf else .vv

def execVfaddParcel (x : Bool) (d b : Reg) (s : State) : Out1 :=
  s.vFp (.vfaddParcel x d b) false (parcelFp x) 0 d d b false false true class2
    fun k u v _ => fAdd k (rmOf s.th.fcsr) u v
def execVfsubParcel (x : Bool) (d b : Reg) (s : State) : Out1 :=
  s.vFp (.vfsubParcel x d b) false (parcelFp x) 0 d d b false false true class2
    fun k u v _ => fSub k (rmOf s.th.fcsr) u v
def execVfmulParcel (x : Bool) (d b : Reg) (s : State) : Out1 :=
  s.vFp (.vfmulParcel x d b) false (parcelFp x) 0 d d b false false true class2
    fun k u v _ => fMul k (rmOf s.th.fcsr) u v
def execVfmaxParcel (x : Bool) (d b : Reg) (s : State) : Out1 :=
  s.vFp (.vfmaxParcel x d b) false (parcelFp x) 0 d d b false false true class2 fun k u v _ => fMinMax k true u v
def execVfminParcel (x : Bool) (d b : Reg) (s : State) : Out1 :=
  s.vFp (.vfminParcel x d b) false (parcelFp x) 0 d d b false false true class2 fun k u v _ => fMinMax k false u v

/-! ### Integer reductions (09 R127) -/

/-- Element 0 of vA receives the result; the rest of the register is tail. -/
def redWrite (x : VCtx) (w v : Nat) : List (Nat × Nat) :=
  (0, v) :: (if x.ta then ((List.range (512 / w)).filter (· ≠ 0)).map fun i => (i, ones w) else [])

/-- Fold the active elements of vC with element 0 of vB into element 0 of vA. -/
def State.vRed (s : State) (i : Instr) (m : MReg) (d c b : Reg) (op : Nat → Nat → Nat → Nat) : Out1 :=
  let th := s.th
  let x := th.vctx m false
  let w := th.sew
  s.vRun i true [single d, th.group c, single b] false x class2
    (let v := x.actives.foldl (fun v j => op w v (s.elem s.cur c.val w j)) (s.elem s.cur b.val w 0)
     .next ((s.putElems s.cur d.val w 1 (redWrite x w v)).vDone 4 class2))

def execVredsum (m : MReg) (d c b : Reg) (s : State) : Out1 :=
  s.vRed (.vredsum m d c b) m d c b fun w x y => (x + y) % 2 ^ w
def execVredmax (m : MReg) (d c b : Reg) (s : State) : Out1 :=
  s.vRed (.vredmax m d c b) m d c b fun w x y => eMax w x y 0
def execVredmaxu (m : MReg) (d c b : Reg) (s : State) : Out1 :=
  s.vRed (.vredmaxu m d c b) m d c b fun _ x y => max x y
def execVredmin (m : MReg) (d c b : Reg) (s : State) : Out1 :=
  s.vRed (.vredmin m d c b) m d c b fun w x y => eMin w x y 0
def execVredminu (m : MReg) (d c b : Reg) (s : State) : Out1 :=
  s.vRed (.vredminu m d c b) m d c b fun _ x y => min x y
def execVredand (m : MReg) (d c b : Reg) (s : State) : Out1 :=
  s.vRed (.vredand m d c b) m d c b fun _ x y => x &&& y
def execVredor (m : MReg) (d c b : Reg) (s : State) : Out1 :=
  s.vRed (.vredor m d c b) m d c b fun _ x y => x ||| y

/-! ### Floating-point reductions (09 R128) -/

/-- A value with the flags its additions raised, each at the lowest active element below it. -/
abbrev Folded := Nat × List (Nat × Flags)

/-- Sequential fold in ascending index. -/
def foldSeq (op : Nat → Nat → Nat × Flags) (init : Nat) (l : List (Nat × Nat)) : Folded :=
  l.foldl (fun p e => let r := op p.1 e.2; (r.1, p.2 ++ [(e.1, r.2)])) (init, [])

/-- One level of the pairwise tree: values with the lowest active element under them, to which a flag of their sum is charged (DESIGN
CHOICE, log entry 52: R128 names an active element that was an operand, and a sum of sums has none of its own). -/
def treeLevel (op : Nat → Nat → Nat × Flags) : List (Nat × Option Nat) → List (Nat × Option Nat) × List (Nat × Flags)
  | a :: b :: rest =>
    let r := op a.1 b.1
    let k := match a.2, b.2 with
      | some i, some j => some (min i j)
      | some i, none => some i
      | none, o => o
    let t := treeLevel op rest
    ((r.1, k) :: t.1, (k.getD 0, r.2) :: t.2)
  | l => (l, [])

/-- The tree over `fuel` levels. -/
def treeFold (op : Nat → Nat → Nat × Flags) : Nat → List (Nat × Option Nat) → Nat × List (Nat × Flags)
  | 0, l => ((l.headD (0, none)).1, [])
  | n + 1, l =>
    let t := treeLevel op l
    let r := treeFold op n t.1
    (r.1, t.2 ++ r.2)

/-- The pairwise tree over VLMAX positions, then the addition with init, whose flags count at element 0 only where no other
addition raised them. -/
def foldTree (op : Nat → Nat → Nat × Flags) (vlmax init : Nat) (at' : Nat → Option Nat) : Folded :=
  let t := treeFold op (Nat.log2 vlmax) ((List.range vlmax).map fun i =>
    match at' i with | some v => (v, some i) | none => (0, none))
  let r := op init t.1
  (r.1, ((List.range vlmax).map fun i => (i, unionFlags (t.2.filter fun p => p.1 == i))) ++ [(0, r.2)])

/-- An FP reduction: with no active element the initial value stands, bit for bit. For the penalty of 03 R43, element 0 of vB and of vA
always counts, and each group named counts by itself, vB = vC twice (DESIGN CHOICE, log entry 52: R43 speaks of active elements). -/
def State.vFpRed (s : State) (i : Instr) (m : MReg) (d c b : Reg)
    (fold : Fmt → VCtx → Nat → (Nat → Nat) → Folded) : Out1 :=
  let th := s.th
  let x := th.vctx m false
  let w := th.sew
  let fm := (vfFormat false w).getD FP64
  s.vRun i (vfFormat false w).isSome [single d, th.group c, single b] false x class3
    (let init := s.elem s.cur b.val w 0
     let at' (j : Nat) : Nat := s.elem s.cur c.val w j
     let act := x.actives
     let r : Folded := if act.isEmpty then (init, []) else fold fm x init at'
     let one (v : Nat) : Nat := penalty fm [0] [fun _ => v] none
     s.vFpEnd r.2 i (class3 + penalty fm act [at'] none + one init + one r.1)
       fun s => s.putElems s.cur d.val w 1 (redWrite x w r.1))

def execVfredosum (m : MReg) (d c b : Reg) (s : State) : Out1 :=
  s.vFpRed (.vfredosum m d c b) m d c b fun k x init f =>
    foldSeq (fAdd k (rmOf s.th.fcsr)) init (x.actives.map fun j => (j, f j))
def execVfredtsum (m : MReg) (d c b : Reg) (s : State) : Out1 :=
  s.vFpRed (.vfredtsum m d c b) m d c b fun k x init f =>
    foldTree (fAdd k (rmOf s.th.fcsr)) x.vlmax init
      fun j => if j < x.vl ∧ x.mask.getLsbD j then some (f j) else none
def execVfredmax (m : MReg) (d c b : Reg) (s : State) : Out1 :=
  s.vFpRed (.vfredmax m d c b) m d c b fun k x init f =>
    foldSeq (fMinMax k true) init (x.actives.map fun j => (j, f j))
def execVfredmin (m : MReg) (d c b : Reg) (s : State) : Out1 :=
  s.vFpRed (.vfredmin m d c b) m d c b fun k x init f =>
    foldSeq (fMinMax k false) init (x.actives.map fun j => (j, f j))

end Sys2Proof.Machine
end

