-- ==== Sys2Proof/Machine/VPerm.lean ====
section
/-!
DEFINITION. Permutations (09 R129 to R133) and mask instructions (R134).
-/

namespace Sys2Proof.Machine

/-- A permutation: `keep` marks body elements neither written nor treated as inactive (09 R130). A destination that meets a
source is refused (09 R119). With VL = 0 nothing is written, as R117 has it for element-wise instructions (DESIGN CHOICE, log entry
52: R116 alone would write the group as tail; log entry 23). -/
def State.vPerm (s : State) (i : Instr) (m : MReg) (d : Reg) (srcs : List Group) (keep : Nat → Bool) (op : Nat → Nat) :
    Out1 :=
  let th := s.th
  let x := th.vctx m false
  s.vRun i true (th.group d :: srcs) (srcs.any (th.group d).meets) x class2
    (.next ((s.putElems s.cur d.val th.sew th.grp
      ((x.written th.sew op).filter fun e => !(decide (e.1 < x.vl) && keep e.1))).vDone 4 class2))

/-- An element of vC, or 0 beyond VLMAX. -/
def State.src (s : State) (c : Reg) (j : Nat) : Nat := if j < s.th.vlmax then s.elem s.cur c.val s.th.sew j else 0

/-- The unsigned offset of a slide: g[B] or imm5. -/
def State.slideBy (s : State) (f : VForm) (b : Reg) : Nat := match f with | .vi => b.val | _ => (s.g b).toNat

/-- The index of VGATHER and VEXTRACT that does not depend on the element: g[B], or imm5 sign-extended, as unsigned 64
bits. -/
def State.indexBy (s : State) (f : VForm) (b : Reg) : Nat :=
  match f with | .vi => ((BitVec.ofNat 5 b.val).signExtend 64).toNat | _ => (s.g b).toNat

def execVid (m : MReg) (d : Reg) (s : State) : Out1 := s.vPerm (.vid m d) m d [] (fun _ => false) fun i => i
def execVslideup (f : VForm) (m : MReg) (d c b : Reg) (s : State) : Out1 :=
  let k := s.slideBy f b
  s.vPerm (.vslideup f m d c b) m d [s.th.group c] (fun i => decide (i < k)) fun i => s.src c (i - k)
def execVslidedn (f : VForm) (m : MReg) (d c b : Reg) (s : State) : Out1 :=
  let k := s.slideBy f b
  s.vPerm (.vslidedn f m d c b) m d [s.th.group c] (fun _ => false) fun i => s.src c (i + k)
def execVslide1up (m : MReg) (d c b : Reg) (s : State) : Out1 :=
  s.vPerm (.vslide1up m d c b) m d [s.th.group c] (fun _ => false)
    fun i => if i = 0 then (s.g b).toNat else s.src c (i - 1)
def execVslide1dn (m : MReg) (d c b : Reg) (s : State) : Out1 :=
  s.vPerm (.vslide1dn m d c b) m d [s.th.group c] (fun _ => false)
    fun i => if i + 1 < s.th.vl.toNat then s.src c (i + 1) else (s.g b).toNat
def execVgather (f : VForm) (m : MReg) (d c b : Reg) (s : State) : Out1 :=
  s.vPerm (.vgather f m d c b) m d (s.th.group c :: s.th.groupB f b) (fun _ => false) fun i =>
    match f with
    | .vv => s.src c (s.elem s.cur b.val s.th.sew i)
    | _ => s.src c (s.indexBy f b)

/-- VCOMPRESS: the selected elements go to the front, and the tail begins after them (09 R132). -/
def execVcompress (d c : Reg) (mk : MReg) (s : State) : Out1 :=
  let th := s.th
  let x := th.vctx 0 false
  let w := th.sew
  let sel := (List.range x.vl).filter fun i => (th.rdM mk).getLsbD i
  s.vRun (.vcompress d c mk) true [th.group d, th.group c] ((th.group d).meets (th.group c)) x class2
    (.next ((s.putElems s.cur d.val w th.grp
      (((List.range sel.length).zip (sel.map fun i => s.elem s.cur c.val w i)) ++ x.tailFrom w sel.length)).vDone 4 class2))

/-- VEXTRACT reads one element whatever VL is (09 R133). -/
def execVextract (f : VForm) (d c b : Reg) (s : State) : Out1 :=
  match s.th.vCause true [s.th.group c] false with
  | some k => s.raise k (ibits (.vextract f d c b))
  | none => .next ((s.setG d (BitVec.ofInt 64 (sgn s.th.sew (s.src c (s.indexBy f b))))).vDone 4 class2)

/-- VINSERT writes one element below VL (09 R133). -/
def execVinsert (d c b : Reg) (s : State) : Out1 :=
  let th := s.th
  let j := (s.g c).toNat
  match th.vCause true [th.group d] false with
  | some k => s.raise k (ibits (.vinsert d c b))
  | none =>
    .next ((if j < th.vl.toNat then s.putElems s.cur d.val th.sew th.grp [(j, (s.g b).toNat)] else s).vDone 4 class2)

/-! ### VMASK (09 R134) -/

/-- A mask-to-mask instruction: bits 0 to vl − 1 computed, the rest tail. -/
def State.mLogic (s : State) (i : Instr) (d : MReg) (op : Nat → Bool) : Out1 :=
  let x := s.th.vctx 0 false
  s.vRun i true [] false x class1 (.next ((s.setM d (x.maskResult (s.th.rdM d) op)).vDone 4 class1))

def execMand (d b c : MReg) (s : State) : Out1 :=
  s.mLogic (.mand d b c) d fun i => (s.th.rdM b).getLsbD i && (s.th.rdM c).getLsbD i
def execMor (d b c : MReg) (s : State) : Out1 :=
  s.mLogic (.mor d b c) d fun i => (s.th.rdM b).getLsbD i || (s.th.rdM c).getLsbD i
def execMxor (d b c : MReg) (s : State) : Out1 :=
  s.mLogic (.mxor d b c) d fun i => (s.th.rdM b).getLsbD i != (s.th.rdM c).getLsbD i
def execMandn (d b c : MReg) (s : State) : Out1 :=
  s.mLogic (.mandn d b c) d fun i => (s.th.rdM b).getLsbD i && !(s.th.rdM c).getLsbD i
def execMsbf (d c : MReg) (s : State) : Out1 :=
  s.mLogic (.msbf d c) d fun i => (List.range (i + 1)).all fun j => !(s.th.rdM c).getLsbD j

/-- A scalar result from a mask, written whatever VL is. -/
def State.mScalar (s : State) (i : Instr) (d : Reg) (v : Word) : Out1 :=
  match s.th.vCause true [] false with
  | some k => s.raise k (ibits i)
  | none => .next ((s.setG d v).vDone 4 class1)

def execMpopc (d : Reg) (c : MReg) (s : State) : Out1 :=
  s.mScalar (.mpopc d c) d (BitVec.ofNat 64 ((List.range s.th.vl.toNat).filter fun i => (s.th.rdM c).getLsbD i).length)
def execMfirst (d : Reg) (c : MReg) (s : State) : Out1 :=
  s.mScalar (.mfirst d c) d
    (match (List.range s.th.vl.toNat).find? fun i => (s.th.rdM c).getLsbD i with
      | some i => BitVec.ofNat 64 i | none => BitVec.allOnes 64)

end Sys2Proof.Machine
end

