-- ==== Sys2Proof/Machine/Dispatch.lean ====
section
/-!
DEFINITION. One arm per instruction and event.
-/

namespace Sys2Proof.Machine

def exec (i : Instr) (s : State) : Host.Outcome State Fault Refusal :=
  match i with
  | .add d b c => Sys2Proof.Machine.execAdd d b c s
  | .sub d b c => Sys2Proof.Machine.execSub d b c s
  | .and d b c => Sys2Proof.Machine.execAnd d b c s
  | .or d b c => Sys2Proof.Machine.execOr d b c s
  | .xor d b c => Sys2Proof.Machine.execXor d b c s
  | .andn d b c => Sys2Proof.Machine.execAndn d b c s
  | .slt d b c => Sys2Proof.Machine.execSlt d b c s
  | .sltu d b c => Sys2Proof.Machine.execSltu d b c s
  | .sll d b c => Sys2Proof.Machine.execSll d b c s
  | .srl d b c => Sys2Proof.Machine.execSrl d b c s
  | .sra d b c => Sys2Proof.Machine.execSra d b c s
  | .fshl d b c => Sys2Proof.Machine.execFshl d b c s
  | .fshr d b c => Sys2Proof.Machine.execFshr d b c s
  | .min d b c => Sys2Proof.Machine.execMin d b c s
  | .minu d b c => Sys2Proof.Machine.execMinu d b c s
  | .max d b c => Sys2Proof.Machine.execMax d b c s
  | .maxu d b c => Sys2Proof.Machine.execMaxu d b c s
  | .mul d b c => Sys2Proof.Machine.execMul d b c s
  | .mulh d b c => Sys2Proof.Machine.execMulh d b c s
  | .mulhu d b c => Sys2Proof.Machine.execMulhu d b c s
  | .div d b c => Sys2Proof.Machine.execDiv d b c s
  | .divu d b c => Sys2Proof.Machine.execDivu d b c s
  | .rem d b c => Sys2Proof.Machine.execRem d b c s
  | .remu d b c => Sys2Proof.Machine.execRemu d b c s
  | .clz d b => Sys2Proof.Machine.execClz d b s
  | .ctz d b => Sys2Proof.Machine.execCtz d b s
  | .popc d b => Sys2Proof.Machine.execPopc d b s
  | .sextw d b => Sys2Proof.Machine.execSextw d b s
  | .zextw d b => Sys2Proof.Machine.execZextw d b s
  | .bswap d b => Sys2Proof.Machine.execBswap d b s
  | .addi d b imm => Sys2Proof.Machine.execAddi d b imm s
  | .slti d b imm => Sys2Proof.Machine.execSlti d b imm s
  | .sltiu d b imm => Sys2Proof.Machine.execSltiu d b imm s
  | .xori d b imm => Sys2Proof.Machine.execXori d b imm s
  | .ori d b imm => Sys2Proof.Machine.execOri d b imm s
  | .andi d b imm => Sys2Proof.Machine.execAndi d b imm s
  | .slli d b n => Sys2Proof.Machine.execSlli d b n s
  | .srli d b n => Sys2Proof.Machine.execSrli d b n s
  | .srai d b n => Sys2Proof.Machine.execSrai d b n s
  | .lui d imm => Sys2Proof.Machine.execLui d imm s
  | .auipc d imm => Sys2Proof.Machine.execAuipc d imm s
  | .beq b c imm => Sys2Proof.Machine.execBeq b c imm s
  | .bne b c imm => Sys2Proof.Machine.execBne b c imm s
  | .blt b c imm => Sys2Proof.Machine.execBlt b c imm s
  | .bge b c imm => Sys2Proof.Machine.execBge b c imm s
  | .bltu b c imm => Sys2Proof.Machine.execBltu b c imm s
  | .bgeu b c imm => Sys2Proof.Machine.execBgeu b c imm s
  | .jal d imm => Sys2Proof.Machine.execJal d imm s
  | .jalr d b imm => Sys2Proof.Machine.execJalr d b imm s
  | .btag dir n b imm => Sys2Proof.Machine.execBtag dir n b imm s
  | .loop lvl b imm => Sys2Proof.Machine.execLoop lvl b imm s
  | .loopi lvl n imm => Sys2Proof.Machine.execLoopi lvl n imm s
  | .fadd f r d b c => Sys2Proof.Machine.execFadd f r d b c s
  | .fsub f r d b c => Sys2Proof.Machine.execFsub f r d b c s
  | .fmul f r d b c => Sys2Proof.Machine.execFmul f r d b c s
  | .fdiv f r d b c => Sys2Proof.Machine.execFdiv f r d b c s
  | .fsqrt f r d b => Sys2Proof.Machine.execFsqrt f r d b s
  | .fmin f d b c => Sys2Proof.Machine.execFmin f d b c s
  | .fmax f d b c => Sys2Proof.Machine.execFmax f d b c s
  | .feq f d b c => Sys2Proof.Machine.execFeq f d b c s
  | .flt f d b c => Sys2Proof.Machine.execFlt f d b c s
  | .fle f d b c => Sys2Proof.Machine.execFle f d b c s
  | .fclass f d b => Sys2Proof.Machine.execFclass f d b s
  | .fsgnj f d b c => Sys2Proof.Machine.execFsgnj f d b c s
  | .fcvtToFp f r ty d b => Sys2Proof.Machine.execFcvtToFp f r ty d b s
  | .fcvtSat f r ty d b => Sys2Proof.Machine.execFcvtSat f r ty d b s
  | .fcvtToInt f r ty d b => Sys2Proof.Machine.execFcvtToInt f r ty d b s
  | .fma f r d b c e => Sys2Proof.Machine.execFma f r d b c e s
  | .trap n => Sys2Proof.Machine.execTrap n s
  | .eret => Sys2Proof.Machine.execEret s
  | .halt => Sys2Proof.Machine.execHalt s
  | .yield => Sys2Proof.Machine.execYield s
  | .waite b => Sys2Proof.Machine.execWaite b s
  | .sysr n d => Sys2Proof.Machine.execSysr n d s
  | .sysw n b => Sys2Proof.Machine.execSysw n b s
  | .segld sg b imm => Sys2Proof.Machine.execSegld sg b imm s
  | .segst sg b imm => Sys2Proof.Machine.execSegst sg b imm s
  | .lb k d b imm => Sys2Proof.Machine.execLb k d b imm s
  | .lh k d b imm => Sys2Proof.Machine.execLh k d b imm s
  | .lw k d b imm => Sys2Proof.Machine.execLw k d b imm s
  | .ld k d b imm => Sys2Proof.Machine.execLd k d b imm s
  | .lbz k d b imm => Sys2Proof.Machine.execLbz k d b imm s
  | .lhz k d b imm => Sys2Proof.Machine.execLhz k d b imm s
  | .lwz k d b imm => Sys2Proof.Machine.execLwz k d b imm s
  | .sb k c b imm => Sys2Proof.Machine.execSb k c b imm s
  | .sh k c b imm => Sys2Proof.Machine.execSh k c b imm s
  | .sw k c b imm => Sys2Proof.Machine.execSw k c b imm s
  | .sd k c b imm => Sys2Proof.Machine.execSd k c b imm s
  | .amoadd k dbl d b c => Sys2Proof.Machine.execAmoadd k dbl d b c s
  | .amoand k dbl d b c => Sys2Proof.Machine.execAmoand k dbl d b c s
  | .amoor k dbl d b c => Sys2Proof.Machine.execAmoor k dbl d b c s
  | .amoxor k dbl d b c => Sys2Proof.Machine.execAmoxor k dbl d b c s
  | .amoswap k dbl d b c => Sys2Proof.Machine.execAmoswap k dbl d b c s
  | .amomin k dbl d b c => Sys2Proof.Machine.execAmomin k dbl d b c s
  | .amomax k dbl d b c => Sys2Proof.Machine.execAmomax k dbl d b c s
  | .amominu k dbl d b c => Sys2Proof.Machine.execAmominu k dbl d b c s
  | .amomaxu k dbl d b c => Sys2Proof.Machine.execAmomaxu k dbl d b c s
  | .amocas k dbl d b c => Sys2Proof.Machine.execAmocas k dbl d b c s
  | .amofadd k dbl d b c => Sys2Proof.Machine.execAmofadd k dbl d b c s
  | .amofmaxa k dbl d b c => Sys2Proof.Machine.execAmofmaxa k dbl d b c s
  | .synld k d b => Sys2Proof.Machine.execSynld k d b s
  | .synst k b c => Sys2Proof.Machine.execSynst k b c s
  | .feread k d b => Sys2Proof.Machine.execFeread k d b s
  | .feset k b c => Sys2Proof.Machine.execFeset k b c s
  | .fence paths scope classes => Sys2Proof.Machine.execFence paths scope classes s
  | .ifence => Sys2Proof.Machine.execIfence s
  | .vld ew k m v b => Sys2Proof.Machine.execVld ew k m v b s
  | .vlds ew k m v b c => Sys2Proof.Machine.execVlds ew k m v b c s
  | .vldx ew k m v b c => Sys2Proof.Machine.execVldx ew k m v b c s
  | .vldff ew k m v b => Sys2Proof.Machine.execVldff ew k m v b s
  | .vldz ew k v b c => Sys2Proof.Machine.execVldz ew k v b c s
  | .vst ew k m v b => Sys2Proof.Machine.execVst ew k m v b s
  | .vsts ew k m v b c => Sys2Proof.Machine.execVsts ew k m v b c s
  | .vstx ew k m v b c => Sys2Proof.Machine.execVstx ew k m v b c s
  | .vstb ew k m v b => Sys2Proof.Machine.execVstb ew k m v b s
  | .vstz ew k v b c => Sys2Proof.Machine.execVstz ew k v b c s
  | .vsetl d b c => Sys2Proof.Machine.execVsetl d b c s
  | .vsetli sew grp ta ma d b => Sys2Proof.Machine.execVsetli sew grp ta ma d b s
  | .vadd f m d c b => Sys2Proof.Machine.execVadd f m d c b s
  | .vsub f m d c b => Sys2Proof.Machine.execVsub f m d c b s
  | .vrsub f m d c b => Sys2Proof.Machine.execVrsub f m d c b s
  | .vmul f m d c b => Sys2Proof.Machine.execVmul f m d c b s
  | .vmulh f m d c b => Sys2Proof.Machine.execVmulh f m d c b s
  | .vmulhu f m d c b => Sys2Proof.Machine.execVmulhu f m d c b s
  | .vmacc f m d c b => Sys2Proof.Machine.execVmacc f m d c b s
  | .vnmsac f m d c b => Sys2Proof.Machine.execVnmsac f m d c b s
  | .vand f m d c b => Sys2Proof.Machine.execVand f m d c b s
  | .vor f m d c b => Sys2Proof.Machine.execVor f m d c b s
  | .vxor f m d c b => Sys2Proof.Machine.execVxor f m d c b s
  | .vsll f m d c b => Sys2Proof.Machine.execVsll f m d c b s
  | .vsrl f m d c b => Sys2Proof.Machine.execVsrl f m d c b s
  | .vsra f m d c b => Sys2Proof.Machine.execVsra f m d c b s
  | .vmin f m d c b => Sys2Proof.Machine.execVmin f m d c b s
  | .vmax f m d c b => Sys2Proof.Machine.execVmax f m d c b s
  | .vminu f m d c b => Sys2Proof.Machine.execVminu f m d c b s
  | .vmaxu f m d c b => Sys2Proof.Machine.execVmaxu f m d c b s
  | .vfshl f m d c b => Sys2Proof.Machine.execVfshl f m d c b s
  | .vfshr f m d c b => Sys2Proof.Machine.execVfshr f m d c b s
  | .vclz m d c => Sys2Proof.Machine.execVclz m d c s
  | .vpopc m d c => Sys2Proof.Machine.execVpopc m d c s
  | .vseq f m d c b => Sys2Proof.Machine.execVseq f m d c b s
  | .vsne f m d c b => Sys2Proof.Machine.execVsne f m d c b s
  | .vslt f m d c b => Sys2Proof.Machine.execVslt f m d c b s
  | .vsltu f m d c b => Sys2Proof.Machine.execVsltu f m d c b s
  | .vsle f m d c b => Sys2Proof.Machine.execVsle f m d c b s
  | .vsleu f m d c b => Sys2Proof.Machine.execVsleu f m d c b s
  | .vmerge f m d c b => Sys2Proof.Machine.execVmerge f m d c b s
  | .vmv f d b => Sys2Proof.Machine.execVmv f d b s
  | .vmvParcel x d r => Sys2Proof.Machine.execVmvParcel x d r s
  | .vaddParcel x d r => Sys2Proof.Machine.execVaddParcel x d r s
  | .vsubParcel x d r => Sys2Proof.Machine.execVsubParcel x d r s
  | .vmulParcel x d r => Sys2Proof.Machine.execVmulParcel x d r s
  | .vandParcel x d r => Sys2Proof.Machine.execVandParcel x d r s
  | .vorParcel x d r => Sys2Proof.Machine.execVorParcel x d r s
  | .vxorParcel x d r => Sys2Proof.Machine.execVxorParcel x d r s
  | .vsllParcel x d r => Sys2Proof.Machine.execVsllParcel x d r s
  | .vsrlParcel x d r => Sys2Proof.Machine.execVsrlParcel x d r s
  | .vminParcel x d r => Sys2Proof.Machine.execVminParcel x d r s
  | .vmaxParcel x d r => Sys2Proof.Machine.execVmaxParcel x d r s
  | .vfaddParcel x d r => Sys2Proof.Machine.execVfaddParcel x d r s
  | .vfsubParcel x d r => Sys2Proof.Machine.execVfsubParcel x d r s
  | .vfmulParcel x d r => Sys2Proof.Machine.execVfmulParcel x d r s
  | .vfmaxParcel x d r => Sys2Proof.Machine.execVfmaxParcel x d r s
  | .vfminParcel x d r => Sys2Proof.Machine.execVfminParcel x d r s
  | .zeroParcel => Sys2Proof.Machine.execZeroParcel s
  | .vfadd bf f m d c b => Sys2Proof.Machine.execVfadd bf f m d c b s
  | .vfsub bf f m d c b => Sys2Proof.Machine.execVfsub bf f m d c b s
  | .vfmul bf f m d c b => Sys2Proof.Machine.execVfmul bf f m d c b s
  | .vfdiv bf f m d c b => Sys2Proof.Machine.execVfdiv bf f m d c b s
  | .vfsqrt bf m d c => Sys2Proof.Machine.execVfsqrt bf m d c s
  | .vfmacc bf f m d c b => Sys2Proof.Machine.execVfmacc bf f m d c b s
  | .vfnmacc bf f m d c b => Sys2Proof.Machine.execVfnmacc bf f m d c b s
  | .vfmin bf f m d c b => Sys2Proof.Machine.execVfmin bf f m d c b s
  | .vfmax bf f m d c b => Sys2Proof.Machine.execVfmax bf f m d c b s
  | .vfsgnj bf f m d c b => Sys2Proof.Machine.execVfsgnj bf f m d c b s
  | .vfeq bf f m d c b => Sys2Proof.Machine.execVfeq bf f m d c b s
  | .vflt bf f m d c b => Sys2Proof.Machine.execVflt bf f m d c b s
  | .vfle bf f m d c b => Sys2Proof.Machine.execVfle bf f m d c b s
  | .vfclass bf m d c => Sys2Proof.Machine.execVfclass bf m d c s
  | .vredsum m d c b => Sys2Proof.Machine.execVredsum m d c b s
  | .vredmax m d c b => Sys2Proof.Machine.execVredmax m d c b s
  | .vredmaxu m d c b => Sys2Proof.Machine.execVredmaxu m d c b s
  | .vredmin m d c b => Sys2Proof.Machine.execVredmin m d c b s
  | .vredminu m d c b => Sys2Proof.Machine.execVredminu m d c b s
  | .vredand m d c b => Sys2Proof.Machine.execVredand m d c b s
  | .vredor m d c b => Sys2Proof.Machine.execVredor m d c b s
  | .vfredosum m d c b => Sys2Proof.Machine.execVfredosum m d c b s
  | .vfredtsum m d c b => Sys2Proof.Machine.execVfredtsum m d c b s
  | .vfredmax m d c b => Sys2Proof.Machine.execVfredmax m d c b s
  | .vfredmin m d c b => Sys2Proof.Machine.execVfredmin m d c b s
  | .vid m d => Sys2Proof.Machine.execVid m d s
  | .vslideup f m d c b => Sys2Proof.Machine.execVslideup f m d c b s
  | .vslidedn f m d c b => Sys2Proof.Machine.execVslidedn f m d c b s
  | .vslide1up m d c b => Sys2Proof.Machine.execVslide1up m d c b s
  | .vslide1dn m d c b => Sys2Proof.Machine.execVslide1dn m d c b s
  | .vgather f m d c b => Sys2Proof.Machine.execVgather f m d c b s
  | .vcompress d c mk => Sys2Proof.Machine.execVcompress d c mk s
  | .vextract f d c b => Sys2Proof.Machine.execVextract f d c b s
  | .vinsert d c b => Sys2Proof.Machine.execVinsert d c b s
  | .mand d b c => Sys2Proof.Machine.execMand d b c s
  | .mor d b c => Sys2Proof.Machine.execMor d b c s
  | .mxor d b c => Sys2Proof.Machine.execMxor d b c s
  | .mandn d b c => Sys2Proof.Machine.execMandn d b c s
  | .mpopc d c => Sys2Proof.Machine.execMpopc d c s
  | .mfirst d c => Sys2Proof.Machine.execMfirst d c s
  | .msbf d c => Sys2Proof.Machine.execMsbf d c s
  | .vcvt src tgt sat m d c => Sys2Proof.Machine.execVcvt src tgt sat m d c s
  | .vqscale tgt d c b => Sys2Proof.Machine.execVqscale tgt d c b s
  | .vdxbpack w4 sh d c => Sys2Proof.Machine.execVdxbpack w4 sh d c s
  | .vdxbunpack w4 d c => Sys2Proof.Machine.execVdxbunpack w4 d c s
  | .mzero n => Sys2Proof.Machine.execMzero n s
  | .mma sa sb n f a b => Sys2Proof.Machine.execMma sa sb n f a b s
  | .mmar sa sb n f a b => Sys2Proof.Machine.execMmar sa sb n f a b s
  | .mlda n b => Sys2Proof.Machine.execMlda n b s
  | .msta n b => Sys2Proof.Machine.execMsta n b s
  | .mmasN1 sa sb n f a b c => Sys2Proof.Machine.execMmasN1 sa sb n f a b c s
  | .mmasN2 sa sb n f a b c => Sys2Proof.Machine.execMmasN2 sa sb n f a b c s
  | .mmasN4 sa sb n f a b c => Sys2Proof.Machine.execMmasN4 sa sb n f a b c s
  | .cpy k tag d b e => Sys2Proof.Machine.execCpy k tag d b e s
  | .cpym k tag d b e => Sys2Proof.Machine.execCpym k tag d b e s
  | .cwait tag => Sys2Proof.Machine.execCwait tag s
  | .cpoll tag d => Sys2Proof.Machine.execCpoll tag d s
  | .cbwait buf c => Sys2Proof.Machine.execCbwait buf c s
  | .cbpost buf c => Sys2Proof.Machine.execCbpost buf c s
  | .cbfree buf c => Sys2Proof.Machine.execCbfree buf c s
  | .cbstat buf d => Sys2Proof.Machine.execCbstat buf d s
  | .npush rl dir b c => Sys2Proof.Machine.execNpush rl dir b c s
  | .npushv rl dir b c => Sys2Proof.Machine.execNpushv rl dir b c s
  | .npop aq dir d c => Sys2Proof.Machine.execNpop aq dir d c s
  | .npopv aq dir d c => Sys2Proof.Machine.execNpopv aq dir d c s
  | .npeek dir d c => Sys2Proof.Machine.execNpeek dir d c s
  | .nstat dir d => Sys2Proof.Machine.execNstat dir d s
  | .pbind b c => Sys2Proof.Machine.execPbind b c s
  | .psend b c => Sys2Proof.Machine.execPsend b c s
  | .precv b c => Sys2Proof.Machine.execPrecv b c s
  | .pstat d b => Sys2Proof.Machine.execPstat d b s
  | .fork k b => Sys2Proof.Machine.execFork k b s
  | .join k b => Sys2Proof.Machine.execJoin k b s
  | .tend k => Sys2Proof.Machine.execTend k s
  | .barc b => Sys2Proof.Machine.execBarc b s
  | .bark b => Sys2Proof.Machine.execBark b s
  | .invalidInstruction why bits => Sys2Proof.Machine.execInvalidInstruction why bits s
  | .matrixCommandStart => Sys2Proof.Machine.execMatrixCommandStart s
  | .matrixCommandEnd => Sys2Proof.Machine.execMatrixCommandEnd s
  | .mmarTileArrival => Sys2Proof.Machine.execMmarTileArrival s
  | .mmarRotationTimeout => Sys2Proof.Machine.execMmarRotationTimeout s
  | .copyStart => Sys2Proof.Machine.execCopyStart s
  | .copyComplete => Sys2Proof.Machine.execCopyComplete s
  | .cbCopySpace => Sys2Proof.Machine.execCbCopySpace s
  | .followOnEnqueue => Sys2Proof.Machine.execFollowOnEnqueue s
  | .neighbourEntryLand => Sys2Proof.Machine.execNeighbourEntryLand s
  | .neighbourCreditReturn => Sys2Proof.Machine.execNeighbourCreditReturn s
  | .neighbourTimeout => Sys2Proof.Machine.execNeighbourTimeout s
  | .prismBind => Sys2Proof.Machine.execPrismBind s
  | .prismUnbind => Sys2Proof.Machine.execPrismUnbind s
  | .prismSend => Sys2Proof.Machine.execPrismSend s
  | .prismSendResume => Sys2Proof.Machine.execPrismSendResume s
  | .prismReceive => Sys2Proof.Machine.execPrismReceive s
  | .prismReceiveResume => Sys2Proof.Machine.execPrismReceiveResume s
  | .prismStatus => Sys2Proof.Machine.execPrismStatus s
  | .intervalClose => Sys2Proof.Machine.execIntervalClose s
  | .portWaitTimeout => Sys2Proof.Machine.execPortWaitTimeout s
  | .joinPoll => Sys2Proof.Machine.execJoinPoll s
  | .barrierArrivalCount => Sys2Proof.Machine.execBarrierArrivalCount s
  | .parcelFetch => Sys2Proof.Machine.execParcelFetch s
  | .serviceMessage => Sys2Proof.Machine.execServiceMessage s
  | .feExamination => Sys2Proof.Machine.execFeExamination s
  | .fePeriodicExamination => Sys2Proof.Machine.execFePeriodicExamination s
  | .remoteReply => Sys2Proof.Machine.execRemoteReply s
  | .storeAcknowledge => Sys2Proof.Machine.execStoreAcknowledge s
  | .rnrRetry => Sys2Proof.Machine.execRnrRetry s
  | .homeApply => Sys2Proof.Machine.execHomeApply s
  | .gateApply => Sys2Proof.Machine.execGateApply s
  | .beaconReceive => Sys2Proof.Machine.execBeaconReceive s
  | .beaconTimer => Sys2Proof.Machine.execBeaconTimer s
  | .replicaUpdate => Sys2Proof.Machine.execReplicaUpdate s
  | .replicaDrop => Sys2Proof.Machine.execReplicaDrop s
  | .faultRecordRelease => Sys2Proof.Machine.execFaultRecordRelease s
  | .faultWake => Sys2Proof.Machine.execFaultWake s
  | .faultServiceTimeout => Sys2Proof.Machine.execFaultServiceTimeout s
  | .watchdog => Sys2Proof.Machine.execWatchdog s
  | .wakeWordWrite => Sys2Proof.Machine.execWakeWordWrite s
  | .shootdownRequest => Sys2Proof.Machine.execShootdownRequest s
  | .shootdownAck => Sys2Proof.Machine.execShootdownAck s
  | .controlWindowWrite => Sys2Proof.Machine.execControlWindowWrite s
  | .taskTake => Sys2Proof.Machine.execTaskTake s
  | .stealRequest => Sys2Proof.Machine.execStealRequest s
  | .stealService => Sys2Proof.Machine.execStealService s
  | .stealReply => Sys2Proof.Machine.execStealReply s
  | .stealBackoffExpiry => Sys2Proof.Machine.execStealBackoffExpiry s
  | .stepSlot => Sys2Proof.Machine.execStepSlot s
  | .sequencerRootPush => Sys2Proof.Machine.execSequencerRootPush s
  | .mailboxWrite => Sys2Proof.Machine.execMailboxWrite s
  | .programResident => Sys2Proof.Machine.execProgramResident s
  | .programRemove => Sys2Proof.Machine.execProgramRemove s
  | .componentSuspend => Sys2Proof.Machine.execComponentSuspend s
  | .componentResume => Sys2Proof.Machine.execComponentResume s
  | .componentEnd => Sys2Proof.Machine.execComponentEnd s
  | .scrubRead => Sys2Proof.Machine.execScrubRead s
  | .debugHalt => Sys2Proof.Machine.execDebugHalt s
  | .debugResume => Sys2Proof.Machine.execDebugResume s
  | .flitReceive => Sys2Proof.Machine.execFlitReceive s
  | .flitReplay => Sys2Proof.Machine.execFlitReplay s
  | .ergPacketReceive => Sys2Proof.Machine.execErgPacketReceive s
  | .gatewayResendTimeout => Sys2Proof.Machine.execGatewayResendTimeout s
  | .tokenAdd => Sys2Proof.Machine.execTokenAdd s
  | .tokenBucketSet => Sys2Proof.Machine.execTokenBucketSet s
  | .trafficMinSet => Sys2Proof.Machine.execTrafficMinSet s
  | .ptpSync => Sys2Proof.Machine.execPtpSync s
  | .ptpFollowUp => Sys2Proof.Machine.execPtpFollowUp s
  | .ptpDelayResp => Sys2Proof.Machine.execPtpDelayResp s
  | .ptpAnnounce => Sys2Proof.Machine.execPtpAnnounce s
  | .claim => Sys2Proof.Machine.execClaim s
  | .renew => Sys2Proof.Machine.execRenew s
  | .handover => Sys2Proof.Machine.execHandover s
  | .accept => Sys2Proof.Machine.execAccept s
  | .leaseExpiry => Sys2Proof.Machine.execLeaseExpiry s
  | .attestQuote => Sys2Proof.Machine.execAttestQuote s
  | .managementRead => Sys2Proof.Machine.execManagementRead s
  | .recoveryImage => Sys2Proof.Machine.execRecoveryImage s
  | .coldStart => Sys2Proof.Machine.execColdStart s
  | .warmStart => Sys2Proof.Machine.execWarmStart s
  | .thermalAlarm => Sys2Proof.Machine.execThermalAlarm s
  | .thermalTrip => Sys2Proof.Machine.execThermalTrip s
  | .postedStoreAcceptance => Sys2Proof.Machine.execPostedStoreAcceptance s
  | .ptpDelayReq => Sys2Proof.Machine.execPtpDelayReq s

end Sys2Proof.Machine
end

