-- ==== Sys2Proof/Machine/Step.lean ====
section
/-!
DEFINITION. One step of the package: an event the surroundings present, one the hardware owes, a core's issue slot, or the end of
the cycle (15 R210; log entry 1).
-/

namespace Sys2Proof.Machine

/-- Run an event with what it takes from outside; one that names an agent out of range has no effect (log entry 4). -/
def State.event (s : State) (e : Event) : Out1 :=
  if eventOk e.what e.arg then exec e.what { s with arg := e.arg } else .next s

/-- Issue a thread's next instruction: a deferred cause first, then a held 0xA2 (DESIGN CHOICE, log entry 52: R205 does not say
which of the two comes first), then the fetch with an engine error that is due, then what was decoded. -/
def State.issue (s : State) (t : Nat) : Out1 :=
  let s := s.startIssue t
  let th := s.thread t
  match th.deferred with
  | some e => .next ((s.modThread t fun th => { th with deferred := none }).trap t e.cause e.tval)
  | none =>
    match th.async with
    | some e => .next ((s.modThread t fun th => { th with async := none }).trap t e.cause e.tval)
    | none =>
      let r := s.fetchInstr t
      match r.2.engineDue t r.1 with
      | some s => .next s
      | none =>
        match r.1 with
        | .bytes b =>
          let s := r.2.useFetched t
          match decode b with
          | .instr i _ _ => exec i s
          | .reject why bits _ => exec (.invalidInstruction why bits) s
          | .short => .next s
        | f => .next (r.2.fetchFail t f)

/-- One step: what the surroundings present, else the next event of the cycle that stands before the next issue slot, else that
slot, else the end of the cycle. -/
def step (s : State) : Out1 :=
  match s.agenda with
  | e :: rest =>
    if !s.power ∧ e.what ≠ .coldStart then .fault .noPower else { s with agenda := rest }.event e
  | [] =>
    if !s.power then .fault .noPower else
    let next := s.nextSlot
    match s.takeDue (next.map fun x => 4 * x.1 + 2) with
    | some (d, rest) => { s with pending := rest }.event d.ev
    | none =>
      match next with
      | some (c, .thread t) => { s with slot := c + 1 }.issue t
      | some (c, .service) =>
        match (s.core c).svc with
        | .msg _ :: _ => { s with slot := c + 1 }.event ⟨.serviceMessage, Arg.num c⟩
        | _ => { s with slot := c + 1 }.event ⟨.feExamination, Arg.num c⟩
      | none => .next s.endCycle

/-- The state with an instruction stored where the next step fetches it: in the local store of thread 0 of core 0, which
is made the next to issue (log entry 5). -/
def State.withFetchWord (s : State) (nbits w : Nat) : State :=
  let base := coreBase 0
  let n := if nbits ≤ 16 then 4 else nbits / 8
  let seg : BitVec 128 := BitVec.ofNat 128 (base + 2 ^ 57 + 2 ^ 59 + 2 ^ 64 * 0x100000)
  let s := s.modThread 0 fun th =>
    { th with seg := th.seg.set 0 0 seg, pc := 0, fetched := [], deferred := none, async := none, st := .ready,
              readyAt := 0, wait := none }
  let s := s.modCore 0 fun c => { c with svc := [], lastIssuer := none, age := 0 :: c.age.filter (· ≠ 0) }
  { s with mem := writeMem s.mem base (bytesOf n w), tags := s.tags.set 0xFFF (base / 64) 0, agenda := [], pending := [],
           slot := 0, power := true, suspended := [] }

end Sys2Proof.Machine
end

