-- ==== Sys2Proof/Safety.lean ====
section
/-!
DEFINITION. What counts as a safe run: the memory and the maps of the machine keep their canonical form, the machine has
power, and it neither faults nor refuses; and the vocabulary in which the statements speak of one instruction.
-/

namespace Sys2Proof.Machine

/-- The memories are in canonical form. -/
def State.memOk (s : State) : Prop := Memory.wf s.mem = true

/-- A run of k steps stays inside the machine. -/
def Safe (k : Nat) (s : State) : Prop := ∃ t, Sys2Proof.core.run k s = .next t

end Sys2Proof.Machine

namespace Sys2Proof.Spec

open Sys2Proof.Machine

/-! ### Vocabulary -/

/-- Executing `i` answers a next state, of which `P` holds. -/
def Answers (i : Instr) (s : State) (P : State → Prop) : Prop := ∃ t, exec i s = .next t ∧ P t

/-- Every byte of memory reads as before. -/
def sameMemory (s t : State) : Prop := ∀ a, t.mem.get 0 a = s.mem.get 0 a

/-- Nothing but the executing thread's own record differs; memory, cores and every other thread are as before. -/
def onlyOwnThread (s t : State) : Prop :=
  { t with threads := s.threads } = s ∧ t.cur = s.cur ∧ (∀ u, u ≠ s.cur → t.thread u = s.thread u) ∧ sameMemory s t

/-- A thread without what every completing instruction changes: PC, loop counts, and the record of its issue. -/
def still (x : Thread) : Thread :=
  { x with pc := 0, lc := .empty, st := .ready, readyAt := 0, wait := none, late := 0 }

/-- `still`, and without its general registers. -/
def stillG (x : Thread) : Thread := { still x with g := .empty, oldG := [] }

/-- Level l acts at the instruction at PC: a count, PC at the last instruction, the same privilege (07 R104). -/
abbrev loopActs (x : Thread) (l : Nat) : Prop :=
  x.lc.get 0 l ≠ 0 ∧ x.pc = x.le.get 0 l ∧ x.lp.get false l = x.priv.getLsbD 0

/-- The level acts and its body runs again. -/
abbrev loopRepeats (x : Thread) (l : Nat) : Prop := loopActs x l ∧ 1 < (x.lc.get 0 l).toNat

/-- PC and loop counts after an instruction whose successor is at `next` (07 R104): level 1 is checked first, and level 0
only when level 1 does not repeat. -/
def pcRule (x y : Thread) (next : Word) : Prop :=
  (loopRepeats x 1 → y.pc = x.ls.get 0 1) ∧
  (¬ loopRepeats x 1 → loopRepeats x 0 → y.pc = x.ls.get 0 0) ∧
  (¬ loopRepeats x 1 → ¬ loopRepeats x 0 → y.pc = next) ∧
  (loopActs x 1 → y.lc.get 0 1 = x.lc.get 0 1 - 1) ∧
  (¬ loopActs x 1 → y.lc.get 0 1 = x.lc.get 0 1) ∧
  (loopActs x 0 ∧ ¬ loopRepeats x 1 → y.lc.get 0 0 = x.lc.get 0 0 - 1) ∧
  (¬ loopActs x 0 ∨ loopRepeats x 1 → y.lc.get 0 0 = x.lc.get 0 0)

/-- The instruction completed: PC by `pcRule`, the thread ready, and eligible again `dist` cycles after its issue when it did
not have to wait (15 R209). -/
def completed (s t : State) (next : Word) (dist : Nat) : Prop :=
  pcRule s.th t.th next ∧ t.th.st = .ready ∧ t.th.wait = none ∧
  (s.th.wait = none → t.th.readyAt = s.th.issuedAt + dist)

/-- A 32-bit instruction that writes v to general register d and nothing else; register 0 discards the write. -/
def writesG (s : State) (d : Reg) (v : Word) (dist : Nat) (t : State) : Prop :=
  (∀ r : Reg, t.g r = if r = d ∧ d ≠ 0 then v else s.g r) ∧
  completed s t (s.th.pc + 4) dist ∧ stillG t.th = stillG s.th ∧ onlyOwnThread s t

/-- Trap entry with a cause and TVAL (27 R269): the saved registers, PRIV and PC; every other architectural register of the
thread, and everything else, is as before. -/
def trapped (s : State) (c : Cause) (tv : Word) (t : State) : Prop :=
  t.th.cause = c.zeroExtend 64 ∧ t.th.epc = s.th.pc ∧ t.th.tval = tv ∧ t.th.pc = s.th.trapvec ∧
  t.th.priv = (if s.th.priv.getLsbD 0 then 3 else 1) ∧ t.th.st = .ready ∧ t.th.fetched = [] ∧
  { still t.th with cause := 0, epc := 0, tval := 0, priv := 0, fetched := [], oldG := [], oldV := [], afterTrap := false } =
    { still s.th with cause := 0, epc := 0, tval := 0, priv := 0, fetched := [], oldG := [], oldV := [], afterTrap := false } ∧
  t.th.lc = s.th.lc ∧ t.th.wait = none ∧ (s.th.wait = none → t.th.readyAt = s.th.issuedAt + 4) ∧ onlyOwnThread s t

/-- A flag k is raised and its enabled-arithmetic cause is on: FCSR holds the enable of flag k in bit 8 + k (03 R37). -/
def trapOn (fcsr : Word) (f : Flags) (k : Nat) : Prop := f.getLsbD k = true ∧ fcsr.getLsbD (8 + k) = true

/-- The first such flag in the order NV, DZ, OF, UF, NX, which are bits 4 down to 0 (07 R97). -/
def firstTrap (fcsr : Word) (f : Flags) (k : Nat) : Prop :=
  k < 5 ∧ trapOn fcsr f k ∧ ∀ j, k < j → j < 5 → ¬ trapOn fcsr f j

/-- How a scalar floating-point instruction with a value and flags ends (07 R97): with no enabled flag the value is written
and the flags are set; else the first enabled flag's cause is raised, no flag is set and nothing is written. -/
def fpEnds (i : Instr) (s : State) (d : Reg) (v : Word) (f : Flags) (dist : Nat) : Prop :=
  ((∀ k, k < 5 → ¬ trapOn s.th.fcsr f k) → Answers i s fun t =>
    (∀ r : Reg, t.g r = if r = d ∧ d ≠ 0 then v else s.g r) ∧ t.th.fcsr = s.th.fcsr ||| f.zeroExtend 64 ∧
    completed s t (s.th.pc + 4) dist ∧ { stillG t.th with fcsr := 0 } = { stillG s.th with fcsr := 0 } ∧
    onlyOwnThread s t) ∧
  (∀ k, firstTrap s.th.fcsr f k → Answers i s (trapped s (BitVec.ofNat 8 (0x40 + k)) (ibits i)))

/-- The value of a scalar operand of a format: the low bits of its register (03 R25). -/
def fpArg (s : State) (f : FFmt) (r : Reg) : Nat := (s.g r).toNat % 2 ^ f.fmt.width

/-- A target lies outside the body of level l (07 R105). -/
abbrev outside (x : Thread) (l : Nat) (target : Word) : Prop :=
  target.toNat < (x.ls.get 0 l).toNat ∨ (x.le.get 0 l).toNat < target.toNat

/-- A taken transfer (07 R100, R105): PC is the target, fetched parcels are discarded, no loop-end check is made; a level
whose body the target leaves ends, but a call leaves every level as it is. -/
def transferred (s t : State) (target : Word) (call : Prop) (dist : Nat) : Prop :=
  t.th.pc = target ∧ t.th.fetched = [] ∧ t.th.st = .ready ∧ t.th.wait = none ∧
  (s.th.wait = none → t.th.readyAt = s.th.issuedAt + dist) ∧
  (∀ l, l < 2 → (¬ call ∧ outside s.th l target → t.th.lc.get 0 l = 0) ∧
    (call ∨ ¬ outside s.th l target → t.th.lc.get 0 l = s.th.lc.get 0 l))

/-- A branch: it writes no register; taken it transfers, else it falls through. -/
def branches (s : State) (taken : Prop) (i : BitVec 12) (t : State) : Prop :=
  (taken → transferred s t (s.th.pc + BitVec.ofInt 64 (2 * i.toInt)) False 4 ∧
    { still t.th with fetched := [] } = { still s.th with fetched := [] }) ∧
  (¬ taken → completed s t (s.th.pc + 4) 4 ∧ still t.th = still s.th) ∧ onlyOwnThread s t

/-- A jump that links: register d receives the address of the next instruction; with d other than g0 it is a call. -/
def links (s : State) (d : Reg) (target : Word) (t : State) : Prop :=
  (∀ r : Reg, t.g r = if r = d ∧ d ≠ 0 then s.th.pc + 4 else s.g r) ∧ transferred s t target (d ≠ 0) 4 ∧
  { stillG t.th with fetched := [] } = { stillG s.th with fetched := [] } ∧ onlyOwnThread s t

/-! ### Memory -/

/-- A segmented address moved by k bytes: the selector stays and the offset moves modulo 2^61 (11 R143). -/
def addOff (a : Word) (k : Int) : Word :=
  (a &&& 0xE000000000000000) ||| ((a + BitVec.ofInt 64 k) &&& 0x1FFFFFFFFFFFFFFF)

/-- A location lies in the local store of the executing thread's core. -/
abbrev ownLs (s : State) (loc : Nat) : Prop := inLs (s.cur / 16) loc = true

/-- The thread waits with its instruction, PC and registers as they are; memory and every other thread are as before. -/
def waits (s : State) (act : Act) (why : Why) (reqs : List Nat) (t : State) : Prop :=
  t.th.st = .parked ∧ (∃ w, t.th.wait = some w ∧ w.act = act ∧ w.why = why ∧ w.reqs = reqs) ∧ t.th.pc = s.th.pc ∧
  { t.th with st := .parked, wait := none } = { s.th with st := .parked, wait := none } ∧ sameMemory s t ∧
  (∀ u, u ≠ s.cur → t.thread u = s.thread u)

/-- The instruction has made one request, of an operation at a location, with the ASID and rights of its thread, and waits
for what answers it. -/
def asks (s : State) (act : Act) (why : Why) (op : ROp) (k : RClass) (a : Word) (loc : Nat) (t : State) : Prop :=
  ∃ q ∈ t.net, q.src = .thread s.cur 0 ∧ q.op = op ∧ q.cls = k ∧ q.seg = a ∧ q.loc = loc ∧ q.asid = s.th.asid ∧
    q.priv = s.th.priv.getLsbD 0 ∧ waits s act why [q.id] t

/-- Memory with bytes stored at a location: those bytes read as stored, every other byte as before. -/
def stored (s t : State) (loc : Nat) (b : List Byte) : Prop :=
  (∀ x, x < b.length → t.mem.get 0 (loc + x) = b.getD x 0) ∧
  (∀ x, x < loc ∨ loc + b.length ≤ x → t.mem.get 0 x = s.mem.get 0 x)

/-- The little-endian bytes of the low part of a register (03 R26). -/
def lowBytes (v : Word) (z : Nat) : List Byte := (List.range z).map fun x => (v >>> (8 * x)).truncate 8

/-- A load of z bytes at an address (11 R148): from the own local store the value is written in class 2; from elsewhere, with
no store of the thread in flight to the line, a request is made. -/
def loads (i : Instr) (s : State) (d : Reg) (a : Word) (z : Nat) (sg : Bool) (k : RClass) : Prop :=
  ∀ loc s', s.access s.cur a z z .load needR = (.ok loc, s') →
    (ownLs s loc → s'.poisoned loc = false → Answers i s fun t =>
      (∀ r : Reg, t.g r = if r = d ∧ d ≠ 0 then
        (if sg then (BitVec.ofNat (8 * z) (leNat (readMem s.mem loc z))).signExtend 64
          else BitVec.ofNat 64 (leNat (readMem s.mem loc z))) else s.g r) ∧
      completed s t (s.th.pc + 4) 8 ∧ stillG t.th = stillG s.th ∧ sameMemory s t ∧
      (∀ u, u ≠ s.cur → t.thread u = s.thread u)) ∧
    (¬ ownLs s loc → s'.lineBusy s.cur loc z = false → Answers i s
      (asks s (.load d z sg a k) .replies (.read z) k a loc))

/-- A store of z bytes at an address (11 R146, R148): in the own local store the bytes are written at once, at the location
that `access` computes; elsewhere, with fewer than 16 stores in flight, it is posted and waits for acceptance. -/
def stores (i : Instr) (s : State) (a : Word) (b : List Byte) (act : Act) (k : RClass) : Prop :=
  ∀ loc s', s.access s.cur a b.length b.length .store needW = (.ok loc, s') →
    s'.cwRefuse loc b (s.th.priv.getLsbD 0) = none →
    (ownLs s loc → Answers i s fun t =>
      stored s t loc b ∧ completed s t (s.th.pc + 4) 4 ∧ still t.th = still s.th ∧
      (∀ u, u ≠ s.cur → t.thread u = s.thread u)) ∧
    (¬ ownLs s loc → s'.inFlight s.cur < 16 → Answers i s (asks s act .accepts (.write b) k a loc))

/-- An access that its checks refuse traps with the cause of the first check that fails and TVAL = the address. -/
def deniedAccess (i : Instr) (s : State) (a : Word) (z al : Nat) (kind : AKind) (n : Need) : Prop :=
  ∀ c s', s.access s.cur a z al kind n = (.bad c, s') → Answers i s (trapped s' c a)

/-- The same, and one whose page is absent is reported to the fault service of the component, or raises 0x36 where there is
none. -/
def refusedAccess (i : Instr) (s : State) (a : Word) (z al : Nat) (kind : AKind) (n : Need) (act : Act) : Prop :=
  deniedAccess i s a z al kind n ∧
  ∀ gva s', s.access s.cur a z al kind n = (.absent gva, s') → exec i s = .next (s'.pageAbsent s.cur 0 gva n a act)

/-! ### Address translation -/

/-- The table entry of level l for a GVA, in the node at a physical address (17 R226). -/
def pteAt (s : State) (node l gva : Nat) : Word :=
  BitVec.ofNat 64 (leNat (readMem s.mem (node + 8 * (gva / 2 ^ (16 + 11 * l) % 2 ^ 11)) 8))

/-- The physical address that an entry names: a leaf's page, a pointer's node (17 R227). -/
def ptePa (e : Word) : Nat :=
  if e.getLsbD 1 = true then e.toNat / 2 ^ 16 % 2 ^ 36 * 2 ^ 16 else e.toNat / 2 ^ 14 % 2 ^ 38 * 2 ^ 14

/-- The fields of an entry are good at level l for an ASID (17 R227, R228): reserved bits are zero, the root holds no leaf and level 0
no pointer, a pointer holds no rights, and what the entry names lies in HBM, within the ASID's region, a page on its own boundary. -/
def pteGood (r : AsidEntry) (l : Nat) (e : Word) : Prop :=
  let bits (i n : Nat) : Nat := e.toNat / 2 ^ i % 2 ^ n
  bits 7 7 = 0 ∧ bits 52 12 = 0 ∧ (ptePa e).testBit 39 = false ∧ r.base ≤ ptePa e ∧
  (e.getLsbD 1 = true → l ≠ 3 ∧ bits 14 2 = 0 ∧ ptePa e % 2 ^ (16 + 11 * l) = 0 ∧
    ptePa e + 2 ^ (16 + 11 * l) ≤ r.base + r.size) ∧
  (e.getLsbD 1 = false → l ≠ 0 ∧ bits 2 4 = 0 ∧ bits 6 1 = 0 ∧ ptePa e + 2 ^ 14 ≤ r.base + r.size)

/-- The nodes a walk passes, the root first: each but the last holds a good pointer to the next (17 R228). -/
def walks (s : State) (r : AsidEntry) (gva : Nat) (path : List Nat) : Prop :=
  path.head? = some r.root ∧ path.length ≤ 4 ∧ ∀ i, i + 1 < path.length →
    let e := pteAt s (path.getD i 0) (3 - i) gva
    e.getLsbD 0 = true ∧ e.getLsbD 1 = false ∧ pteGood r (3 - i) e ∧ path.getD (i + 1) 0 = ptePa e

/-- What an access under a leaf of a page size ends in (17 R228): P is checked first, then R, W, X and AT. -/
def underLeaf (priv : Bool) (n : Need) (gva size : Nat) (e : Word) (x : Xl) : Prop :=
  let passes (need : Bool) (k : Nat) : Prop := need = true → e.getLsbD k = true
  let p : Prop := e.getLsbD 6 = true → priv = true
  (¬ p → x = .bad 0x34) ∧
  (p → ¬ passes n.r 2 → x = .bad 0x30) ∧
  (p → passes n.r 2 → ¬ passes n.w 3 → x = .bad 0x31) ∧
  (p → passes n.r 2 → passes n.w 3 → ¬ passes n.x 4 → x = .bad 0x32) ∧
  (p → passes n.r 2 → passes n.w 3 → passes n.x 4 → ¬ passes n.a 5 → x = .bad 0x33) ∧
  (p → passes n.r 2 → passes n.w 3 → passes n.x 4 → passes n.a 5 →
    x = .ok (e.toNat / 2 ^ 16 % 2 ^ 36 * 2 ^ 16 + gva % size))

/-- Every line that z bytes at a location lie in is tagged with an ASID or with 0 (17 R221). -/
def tagged (s : State) (loc z : Nat) (asid : BitVec 12) : Prop :=
  ∀ l, loc / 64 ≤ l → l ≤ (loc + z - 1) / 64 → s.tagAt (64 * l) = asid ∨ s.tagAt (64 * l) = 0

/-! ### Vectors -/

/-- VTYPE holds a legal type: VILL clear, and SEW from 8 to 64 (03 R31). -/
abbrev vtypeOk (x : Thread) : Prop := x.vtype.getLsbD 63 = false ∧ x.vtype.toNat % 8 ≤ 3

/-- A group of n registers lies in the window, its base a multiple of `al` (09 R119). -/
abbrev groupOk (x : Thread) (r n al : Nat) : Prop := r + n ≤ x.winSize ∧ r % al = 0

/-- Two groups share no register. -/
abbrev apart (r n q m : Nat) : Prop := r + n ≤ q ∨ q + m ≤ r

/-- The checks of a vector instruction in their order (05 R45, 09 R119): VILL or a width it does not take 0x09, a register outside
the window 0x08, a base off its multiple or a forbidden overlap 0x04; TVAL holds the instruction bits, and nothing else changes. A
group is its base, its number of registers and the multiple its base must be. -/
def vchecks (s : State) (takes : Prop) (gs : List (Nat × Nat × Nat)) (overlap : Prop) (i : Instr) : Prop :=
  let ok : Prop := s.th.vtype.getLsbD 63 = false ∧ takes
  let inside : Prop := ∀ g ∈ gs, g.1 + g.2.1 ≤ s.th.winSize
  let clean : Prop := (∀ g ∈ gs, g.1 % g.2.2 = 0) ∧ ¬ overlap
  (¬ ok → Answers i s (trapped s 0x09 (ibits i))) ∧
  (ok → ¬ inside → Answers i s (trapped s 0x08 (ibits i))) ∧
  (ok → inside → ¬ clean → Answers i s (trapped s 0x04 (ibits i)))

/-- Element i of w bits of the group at vector register r (03 R26). -/
def velem (s : State) (r w i : Nat) : BitVec w :=
  ((s.vreg s.cur (r + i * w / 512)) >>> (i * w % 512)).truncate w

/-- Operand b of an element (09 R116): an element, the low bits of a general register, or the immediate, which is unsigned
in shifts and sign-extended elsewhere. -/
def vop (s : State) (f : VForm) (b : Reg) (uns : Bool) (w i : Nat) : BitVec w :=
  match f with
  | .vv => velem s b.val w i
  | .vx | .vf => (s.g b).truncate w
  | .vi => if uns then BitVec.ofNat w b.val else (BitVec.ofNat 5 b.val).signExtend w

/-- VSTART as an instruction sees it (09 R118). -/
abbrev vstartOf (x : Thread) (honour : Bool) : Nat := if honour then x.vstart.toNat else 0

/-- An element is active (09 R116). -/
abbrev vactive (x : Thread) (honour : Bool) (m : MReg) (i : Nat) : Prop :=
  vstartOf x honour ≤ i ∧ i < x.vl.toNat ∧ (x.rdM m).getLsbD i = true

/-- What an element or mask bit becomes, by its class (09 R116): prestart, tail, inactive, active. -/
def classRule {α : Type} (x : Thread) (honour : Bool) (m : MReg) (i : Nat) (old one new : α) : α :=
  if i < vstartOf x honour then old
  else if x.vl.toNat ≤ i then (if x.vtype.getLsbD 5 then one else old)
  else if (x.rdM m).getLsbD i then new
  else if x.vtype.getLsbD 6 then one else old

/-- Nothing is processed (09 R117). -/
abbrev vnone (x : Thread) (honour : Bool) : Prop := x.vl.toNat = 0 ∨ x.vl.toNat ≤ vstartOf x honour

/-- A vector instruction completed: VSTART is 0 (09 R118); of its own thread nothing else changed but what `more` also
forgets; of the cores only the vector file of its own, outside n physical registers at window register r unchanged, and, of those n,
the poison that a write of all 64 bytes ends (17 R222). -/
def vcompleted (s t : State) (r n : Nat) (len : Word) (more : Thread → Thread) : Prop :=
  (∃ dist, completed s t (s.th.pc + len) dist) ∧ t.th.vstart = 0 ∧
  more { still t.th with vstart := 0, oldV := [] } = more { still s.th with vstart := 0, oldV := [] } ∧
  (∀ p, p < s.th.winBase + r ∨ s.th.winBase + r + n ≤ p →
    (t.core (s.cur / 16)).vf.get 0 p = (s.core (s.cur / 16)).vf.get 0 p) ∧
  (∀ e, (e.1 < s.th.winBase + r ∨ s.th.winBase + r + n ≤ e.1) → (e ∈ (t.core (s.cur / 16)).vbad ↔ e ∈ (s.core (s.cur / 16)).vbad)) ∧
  (∀ c, { t.core c with vf := (s.core c).vf, vbad := (s.core c).vbad } = s.core c) ∧ (∀ c, c ≠ s.cur / 16 → t.core c = s.core c) ∧
  { t with threads := s.threads, cores := s.cores } = s ∧ (∀ u, u ≠ s.cur → t.thread u = s.thread u) ∧ sameMemory s t

/-- A vector instruction whose elements of w bits in the n registers at r receive, each by its class, `new`; elements that
`keep` names keep their value; nothing is written where nothing is processed. -/
def writesV (s : State) (honour : Bool) (m : MReg) (r n w count : Nat) (keep : Nat → Prop) (len : Word)
    (more : Thread → Thread) (new : (i : Nat) → BitVec w) (t : State) : Prop :=
  (∀ i, i < count → velem t r w i =
    open Classical in
    if vnone s.th honour ∨ (i < s.th.vl.toNat ∧ keep i) then velem s r w i
    else classRule s.th honour m i (velem s r w i) (BitVec.allOnes w) (new i)) ∧
  vcompleted s t r n len more

/-- A vector instruction whose destination is a mask register: bit i plays the part of element i; m0 discards the write. -/
def writesMask (s : State) (honour : Bool) (m d : MReg) (more : Thread → Thread) (new : Nat → Bool)
    (t : State) : Prop :=
  (∀ i, i < 512 → (t.th.rdM d).getLsbD i =
    open Classical in
    if vnone s.th honour ∨ d = 0 then (s.th.rdM d).getLsbD i
    else classRule s.th honour m i ((s.th.rdM d).getLsbD i) true (new i)) ∧
  (∀ k, k ≠ d → t.th.rdM k = s.th.rdM k) ∧ vcompleted s t 0 0 4 fun x => more { x with m := .empty }

/-- A flag that some active element raises. -/
def raised (act : Nat → Prop) (fl : Nat → Flags) (k : Nat) : Prop := ∃ i, act i ∧ (fl i).getLsbD k = true

/-- How a vector floating-point instruction ends (09 R121): with no enabled flag raised, `done` holds and the raised flags
are set; else the first enabled flag in the order NV, DZ, OF, UF, NX traps with the lowest active element that raised it. -/
def vfpEnds (i : Instr) (s : State) (act : Nat → Prop) (fl : Nat → Flags) (done : State → Prop) : Prop :=
  ((∀ k, k < 5 → ¬ (raised act fl k ∧ s.th.fcsr.getLsbD (8 + k) = true)) → Answers i s fun t =>
    (∀ k, k < 5 → (t.th.fcsr.getLsbD k = true ↔ s.th.fcsr.getLsbD k = true ∨ raised act fl k)) ∧
    t.th.fcsr >>> 5 = s.th.fcsr >>> 5 ∧ done t) ∧
  (∀ k e, k < 5 → s.th.fcsr.getLsbD (8 + k) = true → act e → (fl e).getLsbD k = true →
    (∀ e', e' < e → act e' → (fl e').getLsbD k = false) →
    (∀ j, k < j → j < 5 → ¬ (raised act fl j ∧ s.th.fcsr.getLsbD (8 + j) = true)) →
    Answers i s (trapped s (BitVec.ofNat 8 (0x48 + k)) (BitVec.ofNat 64 e)))

/-- The integer z is the fraction num/den rounded under a mode (03 R36, R38). -/
def roundsTo (rm : RMode) (num : Int) (den : Nat) (z : Int) : Prop :=
  let gap := num - den * z
  match rm with
  | .rne => 2 * gap.natAbs ≤ den ∧ (2 * gap.natAbs = den → z % 2 = 0)
  | .rtz => gap.natAbs < den ∧ (0 ≤ num → 0 ≤ gap) ∧ (num ≤ 0 → gap ≤ 0)
  | .rdn => 0 ≤ gap ∧ gap < den
  | .rup => gap ≤ 0 ∧ -gap < den

/-- An integer clamped to a range. -/
def clamped (lo hi z : Int) : Int := if z < lo then lo else if hi < z then hi else z

/-- What an instruction without flags forgets, and what one with flags does. -/
def plain (x : Thread) : Thread := x
def butFlags (x : Thread) : Thread := { x with fcsr := 0 }

/-! ### Vector memory -/

/-- A vector memory instruction completed (11 R155 to R157): VSTART is 0; of the cores only the vector file of its own changed
its registers, outside n of them at window register r not. -/
def vmcompleted (s t : State) (r n : Nat) : Prop :=
  (∃ dist, completed s t (s.th.pc + 4) dist) ∧ t.th.vstart = 0 ∧
  { still t.th with vstart := 0, oldV := [] } = { still s.th with vstart := 0, oldV := [] } ∧
  (∀ p, p < s.th.winBase + r ∨ s.th.winBase + r + n ≤ p →
    (t.core (s.cur / 16)).vf.get 0 p = (s.core (s.cur / 16)).vf.get 0 p) ∧
  (∀ c, c ≠ s.cur / 16 → t.core c = s.core c) ∧ (∀ u, u ≠ s.cur → t.thread u = s.thread u)

/-- Element j of w bits at an address passes its checks as a load, from the own local store. -/
abbrev loadable (s : State) (w : Nat) (a : Word) (loc : Nat) : Prop :=
  s.access s.cur a (w / 8) (w / 8) .load needR = (.ok loc, s) ∧ ownLs s loc ∧ s.poisoned loc = false

/-- What an element of w bits at a location of memory holds. -/
def memElem (s : State) (w loc : Nat) : BitVec w := BitVec.ofNat w (leNat (readMem s.mem loc (w / 8)))

/-- A vector load of elements in the own local store (11 R155 to R158): every active element is read. Where one fails, the ones
below it are written and VSTART is its index, with its cause and address; VLDFF instead trims VL to a failing element that is
not the first active one. -/
def vloads (i : Instr) (s : State) (ff : Bool) (m : MReg) (v : Reg) (addr : Nat → Word) : Prop :=
  let w := s.th.sew
  let act := vactive s.th true m
  (∀ loc : Nat → Nat, (∀ j, act j → loadable s w (addr j) (loc j)) → Answers i s fun t =>
    (∀ j, j < s.th.vlmax → velem t v.val w j =
      open Classical in
      if vnone s.th true then velem s v.val w j
      else classRule s.th true m j (velem s v.val w j) (BitVec.allOnes w) (memElem s w (loc j))) ∧
    vmcompleted s t v.val s.th.grp ∧ sameMemory s t) ∧
  (∀ (loc : Nat → Nat) (j : Nat) (c : Cause), act j → (∀ k, k < j → act k → loadable s w (addr k) (loc k)) →
    s.access s.cur (addr j) (w / 8) (w / 8) .load needR = (.bad c, s) →
    let below (t : State) : Prop := (∀ k, k < j → act k → velem t v.val w k = memElem s w (loc k)) ∧ sameMemory s t
    (ff = false ∨ (∀ k, k < j → ¬ act k) → Answers i s fun t =>
      t.th.vstart = BitVec.ofNat 64 j ∧ t.th.cause = c.zeroExtend 64 ∧ t.th.tval = addr j ∧ t.th.epc = s.th.pc ∧
      t.th.pc = s.th.trapvec ∧ t.th.vl = s.th.vl ∧ t.th.g = s.th.g ∧ below t) ∧
    (ff = true → (∃ k, k < j ∧ act k) → Answers i s fun t =>
      t.th.vl = BitVec.ofNat 64 j ∧ t.th.vstart = 0 ∧ (∃ dist, completed s t (s.th.pc + 4) dist) ∧ t.th.g = s.th.g ∧ below t))

/-- A vector store whose elements lie in the own local store (11 R155 to R157, R159): the bytes of the elements that `act`
names are stored in ascending order at the locations that `access` computes, and no other byte changes. -/
def vstores (i : Instr) (s : State) (act : Nat → Prop) (n z : Nat) (al : Nat → Nat) (addr : Nat → Word)
    (byte : Nat → Nat → Byte) : Prop :=
  ∀ loc : Nat → Nat, (∀ j, j < n → act j → s.access s.cur (addr j) z (al j) .store needW = (.ok (loc j), s) ∧
      ownLs s (loc j)) → Answers i s fun t =>
    (∀ a, t.mem.get 0 a = (List.range n).foldl (fun v j =>
      open Classical in if act j ∧ loc j ≤ a ∧ a < loc j + z then byte j (a - loc j) else v) (s.mem.get 0 a)) ∧
    vmcompleted s t 0 0

/-- A region of n bytes at an address is readable and lies in the own local store, each byte by itself, the first at location l. -/
def ownRegion (s : State) (a : Word) (n l : Nat) : Prop :=
  let g := s.th.seg.get 0 (selOf a)
  offOf a % 8 = 0 ∧ ∀ i, i < n → segCause g (selOf a) (offOf (moveOff a i)) 1 needR = none ∧ gvaOf g (offOf (moveOff a i)) = l + i ∧
    ownLs s (l + i) ∧ s.tagOk (l + i) s.th.asid = true ∧ s.poisoned (l + i) = false

/-! ### Other agents -/

/-- Thread u takes a trap (27 R269): the saved registers, PRIV and PC; it waits no more; its other registers and every other thread
are as before. -/
def trapsAt (s : State) (u : Nat) (c : Cause) (tv : Word) (t : State) : Prop :=
  let x := s.thread u
  let y := t.thread u
  y.cause = c.zeroExtend 64 ∧ y.epc = x.pc ∧ y.tval = tv ∧ y.pc = x.trapvec ∧ y.priv = (if x.priv.getLsbD 0 then 3 else 1) ∧
  y.st = .ready ∧ y.wait = none ∧ y.g = x.g ∧ y.m = x.m ∧ y.acc = x.acc ∧ y.seg = x.seg ∧ y.fcsr = x.fcsr ∧ y.vl = x.vl ∧
  y.vtype = x.vtype ∧ y.asid = x.asid ∧ y.inq = x.inq ∧ (∀ v, v ≠ u → t.thread v = s.thread v)

/-- The same, and memory is as before. -/
def trappedAt (s : State) (u : Nat) (c : Cause) (tv : Word) (t : State) : Prop := trapsAt s u c tv t ∧ sameMemory s t

/-- The instruction of thread u completes: PC moves on, the thread is ready and waits no more. Its PORTSTAT and, by what `more`
forgets, nothing else of it changes; nor does another thread. -/
def released (s t : State) (u : Nat) (portstat : Word) (more : Thread → Thread) : Prop :=
  pcRule (s.thread u) (t.thread u) ((s.thread u).pc + 4) ∧ (t.thread u).st = .ready ∧ (t.thread u).wait = none ∧
  (t.thread u).portstat = portstat ∧
  more { still (t.thread u) with portstat := 0 } = more { still (s.thread u) with portstat := 0 } ∧
  (∀ v, v ≠ u → t.thread v = s.thread v)

/-- The hardware owes an event from a cycle on. -/
def owes (t : State) (due : Nat) (i : Instr) (a : Arg) : Prop := ⟨due, ⟨i, a⟩⟩ ∈ t.pending

/-- The hardware owes an event, or a flit on its way between two dies carries the message that brings it about (29 R282). -/
def comes (t : State) (i : Instr) (a : Arg) : Prop :=
  (∃ due, owes t due i a) ∨ ∃ l, ∃ f ∈ (t.link l).flying, (∃ n, f.msg = some ⟨n, ⟨i, a⟩⟩) ∧
    owes t f.due .flitReceive (Arg.num2 (l / 10) (l % 10))

/-- An earlier access of the executing thread on a path and of a class that FENCE names is not yet performed (11 R163, 23 R252):
path T its loads, stores and atomics, C its copies, M its matrix commands, P its sends and receives, N its pushes. What has no
class field counts as class O. -/
def unperformed (s : State) (paths : BitVec 6) (classes : BitVec 3) : Prop :=
  (paths.getLsbD 0 = true ∧ ∃ r ∈ s.net, r.tid? = some s.cur ∧ classes.getLsbD (RClass.bit r.cls) = true) ∨
  (paths.getLsbD 1 = true ∧ ∃ c ∈ (s.core (s.cur / 16)).copies, c.tid = s.cur ∧ classes.getLsbD (RClass.bit c.cls) = true) ∨
  (paths.getLsbD 1 = true ∧ ∃ r ∈ s.net, (∃ id u i, r.src = .copy s.cur id u i) ∧ classes.getLsbD (RClass.bit r.cls) = true) ∨
  (classes.getLsbD 0 = true ∧
    ((paths.getLsbD 2 = true ∧ ((∃ m ∈ (s.core (s.cur / 16)).mq, m.tid = s.cur) ∨
        ∃ r, (s.core (s.cur / 16)).mrun = some r ∧ r.cmd.tid = s.cur)) ∨
      (paths.getLsbD 3 = true ∧ s.prismBusy s.cur = true) ∨
      (paths.getLsbD 4 = true ∧ ∃ e ∈ s.transit, s.feeder e.1 e.2.1 = some s.cur)))

/-- Every thread but one, the cores and memory are as before. -/
def elsewhere (s t : State) (u : Nat) : Prop := (∀ v, v ≠ u → t.thread v = s.thread v) ∧ t.cores = s.cores ∧ sameMemory s t

/-- Nothing of the threads, the cores and memory differs. -/
def quiet (s t : State) : Prop := (∀ v, t.thread v = s.thread v) ∧ t.cores = s.cores ∧ sameMemory s t

/-- Every core but one, the threads and memory are as before. -/
def elseCores (s t : State) (k : Nat) : Prop := (∀ c, c ≠ k → t.core c = s.core c) ∧ t.threads = s.threads ∧ sameMemory s t

/-- An instruction hands a command or request on: it completes, and of its own thread nothing else changes, nor another thread or
memory (13 R165, R178). -/
def handedOn (s t : State) : Prop :=
  (∃ dist, completed s t (s.th.pc + 4) dist) ∧ still t.th = still s.th ∧ (∀ u, u ≠ s.cur → t.thread u = s.thread u) ∧ sameMemory s t

/-- A matrix operand (13 R168 to R170): a group of `8·tiles` registers with the format that f names, sampled at issue, or the rows
that a register pair names. -/
def matArg (s : State) (sp : Bool) (f : Nat) (r : Reg) (tiles : Nat) (o : MOperand) : Prop :=
  if sp then r.val % 2 = 0 ∧ r ≠ 0 ∧ s.scratch s.cur (s.snap s.cur) false needR r.val tiles = .ok o
  else r.val + 8 * tiles ≤ s.th.winSize ∧ r.val % 8 = 0 ∧ f ≤ 4 ∧
    o = .regs r.val (f + 2) ((List.range (8 * tiles)).map fun j => s.vreg s.cur (r.val + j))

/-- A matrix command enters the queue of its core behind those that stand there (13 R165, R172). -/
def enqueues (s : State) (kind : MKind) (n : Fin 4) (a b : MOperand) (md : Nat) (t : State) : Prop :=
  t.core (s.cur / 16) = { s.core (s.cur / 16) with
    mq := (s.core (s.cur / 16)).mq ++ [⟨s.cur, kind, n.val, a, b, md, s.th.pc, none⟩] } ∧
  (∀ c, c ≠ s.cur / 16 → t.core c = s.core c) ∧ owes t s.now .matrixCommandStart (Arg.num (s.cur / 16)) ∧ handedOn s t

/-- The matrix unit of core k is free for its next command: the thread's accumulator n holds `acc`, its others what they held; if the
command followed a copy, that copy is over (13 R172, R184). -/
def unitDone (s : State) (k : Nat) (c : MCmd) (acc : Nat → Nat → BitVec 32) (t : State) : Prop :=
  (t.core k).mrun = none ∧ (t.core k).mq = (s.core k).mq ∧
  (∀ i j, i < 16 → j < 16 → (t.thread c.tid).acc.get 0 (256 * c.acc + (16 * i + j)) = acc i j) ∧
  (∀ q, q < 256 * c.acc ∨ 256 * c.acc + 256 ≤ q → (t.thread c.tid).acc.get 0 q = (s.thread c.tid).acc.get 0 q) ∧
  { t.thread c.tid with acc := .empty } = { s.thread c.tid with acc := .empty } ∧
  owes t s.now .matrixCommandStart (Arg.num k) ∧ (∀ u, u ≠ c.tid → t.thread u = s.thread u) ∧
  (∀ x, x ≠ k → t.core x = s.core x)

/-- A matrix command fails (13 R166): its cause and PC are recorded for its thread, and the thread's commands queued behind it are
discarded. -/
def matrixFails (s : State) (k : Nat) (c : MCmd) (e : Cause) (t : State) : Prop :=
  t.thread c.tid = { s.thread c.tid with mxErr := some ⟨e, c.pc⟩ } ∧ (t.core k).mrun = none ∧
  (t.core k).mq = (s.core k).mq.filter (fun m => m.tid != c.tid) ∧ (∀ u, u ≠ c.tid → t.thread u = s.thread u) ∧
  (∀ x, x ≠ k → t.core x = s.core x) ∧ sameMemory s t

/-- The copy descriptor of words w is at fault for its thread (13 R179, R182, R183), `m` for CPYM, `dst` the GVA of the destination: a
count of 0, a reserved bit, BCAST 3, a FOLLOW in CPY, a buffer number without CBDST, CBDST with BCAST, CONV or a stride, DSHIFT without
CONV, a broadcast to no core window or to a cluster of another component, a buffer that is not at offset 0 of a core window. -/
def descFault (s : State) (m : Bool) (w : Nat → Nat) (dst : Nat) : Prop :=
  let f (lo n : Nat) : Nat := w 4 / 2 ^ lo % 2 ^ n
  let window : Prop := dst / 2 ^ 56 = 1 ∧ dst / 2 ^ 51 % 2 = 0 ∧ dst / 2 ^ 52 % 16 < 8
  let cl := dst / 2 ^ 45 % 64
  (∃ i, i < 4 ∧ w 0 / 2 ^ (16 * i) % 2 ^ 16 = 0) ∨ w 4 / 2 ^ 14 ≠ 0 ∨ w 5 / 2 ^ 32 ≠ 0 ∨ w 6 ≠ 0 ∨ w 7 ≠ 0 ∨ f 3 2 = 3 ∨
  (m = false ∧ w 5 ≠ 0) ∨ (f 5 1 = 0 ∧ f 6 4 ≠ 0) ∨
  (f 5 1 = 1 ∧ (f 3 2 ≠ 0 ∨ f 2 1 = 1 ∨ w 2 / 2 ^ 32 ≠ 0 ∨ w 3 ≠ 0)) ∨ (f 2 1 = 0 ∧ f 10 4 ≠ 0) ∨
  (f 3 2 ≠ 0 ∧ (¬ window ∨ (s.core (s.cur / 16)).comp = none ∨ ∃ y, y < 64 ∧
    (if f 3 2 = 1 then y / 8 / 2 = cl / 8 / 2 else y % 8 / 2 = cl % 8 / 2) ∧
    (s.core (dst / 2 ^ 52 % 16 * 1024 + 16 * y + dst / 2 ^ 41 % 16)).comp ≠ (s.core (s.cur / 16)).comp)) ∨
  (f 5 1 = 1 ∧ (¬ window ∨ dst % 2 ^ 41 ≠ 0))

/-- A core belongs to the broadcast that names another: the same core number in each of the 16 clusters of its router row (1) or
column (2) of its die (13 R182). -/
def inBroadcast (kind x y : Nat) : Prop :=
  y / 1024 = x / 1024 ∧ y % 16 = x % 16 ∧
  (if kind = 1 then y / 16 % 64 / 8 / 2 = x / 16 % 64 / 8 / 2 else y / 16 % 64 % 8 / 2 = x / 16 % 64 % 8 / 2)

/-- A copy has made no access, and none of its requests stands in the fabric. -/
def untouched (s : State) (c : Copy) : Prop :=
  c.started = true ∧ c.page = false ∧ c.landed = false ∧ c.posted = false ∧ c.done = [] ∧ c.got = [] ∧ c.part = [] ∧
  ∀ r ∈ s.net, ∀ u i, r.src ≠ .copy c.tid c.id u i

/-- A write of a copy of core k has been sent: the bytes, their place and address, with the copy's class, ASID and rights; one of class
O that leaves the cluster is numbered (13 R178; 21 R242). -/
def copySends (t : State) (c : Copy) (op : ROp) (loc : Nat) : Prop :=
  ∃ r ∈ t.net, (∃ u i, r.src = .copy c.tid c.id u i) ∧ r.op = op ∧ r.loc = loc ∧ r.cls = c.cls ∧ r.seg = c.dst ∧
    r.asid = c.asid ∧ r.priv = c.priv ∧ (c.cls = .o → r.inCluster = false → r.num.isSome = true)

/-- A port descriptor lies in a slice, aligned, with its accumulators and results on shared lines of slices (25 R258, R259). -/
def portPlaced (s : State) (d : Nat) : Prop :=
  let p := s.pdesc d
  (∃ i k, decodeWin d = some (.slice i k)) ∧ d % 128 = 0 ∧ s.sharedSlices (accAt d) (8 * p.nsrc) = true ∧
  s.sharedSlices (p.resAt d) (p.ndst * p.outBytes) = true ∧ 1 ≤ p.nsrc ∧ 1 ≤ p.ndst

/-- A request stands at the head of a Prism's queue, and the time to serve it has come (25 R257). -/
def atPrism (s : State) (r : PReq) (rest : List PReq) : Prop :=
  (s.cluster (portCluster r.port)).prismQ = r :: rest ∧ r.due ≠ 0 ∧ r.due ≤ s.now ∧ r.page = false

/-- A request joins the queue of its port's Prism, last, and its thread waits for the answer; a Prism that had none, and whose accesses
to BUF are performed, begins it in the next cycle (25 R257; that it begins in the next cycle is the model's choice, log entry 9). -/
def requests (s : State) (port : Nat) (kind : PKind) (ib : Word) (seg : BitVec 128) (d : Reg) (act : Act) (t : State) : Prop :=
  let q := (s.cluster (portCluster port)).prismQ
  let q' := (t.cluster (portCluster port)).prismQ
  (∃ r ∈ q', r.tid = s.cur ∧ r.port = port ∧ r.kind = kind ∧ r.ib = ib ∧ r.seg = seg ∧ r.asid = s.th.asid ∧
    r.priv = s.th.priv.getLsbD 0 ∧ r.issued = s.th.issuedAt ∧ r.d = d ∧ r.page = false ∧ r.begun = false ∧ r.resumed = false ∧
    (q = [] → q' = [r] ∧ (s.prismHeld (portCluster port) = false → r.due = s.now + 1 ∧
      owes t (s.now + 1) (PKind.event kind) (Arg.num (portCluster port)))) ∧
    (∀ h rest, q = h :: rest → h.due ≠ 0 → q' = h :: rest ++ [r] ∧ r.due = 0)) ∧
  waits s act .prism [] t

/-- Bytes that the Prism of a cluster writes for a thread are on their way: each stands in a class O write of its, numbered and with
an ASID (25 R257; 21 R242). -/
def prismWrites (t : State) (cl tid : Nat) (asid : BitVec 12) (loc : Nat) (bytes : List Byte) : Prop :=
  ∀ i, i < bytes.length → ∃ q ∈ t.net, (∃ n, q.src = .prism cl tid n) ∧ q.cls = .o ∧ q.asid = asid ∧ q.num.isSome = true ∧
    ∃ b, q.op = .write b ∧ q.loc ≤ loc + i ∧ loc + i < q.loc + b.length ∧ b.getD (loc + i - q.loc) 0 = bytes.getD i 0

/-- A request with an id stands in a phase. -/
def stands (t : State) (id : Nat) (p : Phase) : Prop := ∃ q ∈ t.net, q.id = id ∧ q.phase = p

/-- A location is a byte of memory at a home of this package: a slice, HBM, or a local store. -/
def inMemory (s : State) (loc : Nat) : Prop :=
  (∃ d k, s.placeOf loc = some (.slice d k)) ∨ (∃ d k, s.placeOf loc = some (.hbm d k)) ∨
  ∃ c off, s.placeOf loc = some (.core c off) ∧ off < 0x100000

/-- The home of a JOIN's counter sends its thread the zero that it has read (13 R198). -/
def joinAnswered (t : State) (u issued : Nat) : Prop :=
  (∃ st, ⟨u, issued, none, st⟩ ∈ t.joins) ∧ comes t .joinPoll { Arg.num2 u issued with yes := true }

/-- No reading of a JOIN's counter is owed. -/
def untimed (s : State) : Prop := ∀ d ∈ s.pending, d.ev.what ≠ .joinPoll

/-- A thread's JOIN waits for its counter to be read again. -/
def inJoinAt (s : State) (u loc : Nat) : Prop :=
  ∃ w k a y, (s.thread u).wait = some w ∧ w.act = .join k a loc y ∧ w.why = .counter

/-- A home serves a request other than a full/empty operation (11 R154; 21 R238, R239): a load is answered with the bytes, a store is
performed and acknowledged, an atomic leaves its new word and is answered with the old one. -/
def serves (j : Instr) (s : State) (r : Req) (also : State → Prop) : Prop :=
  (∀ z, r.op = .read z → Answers j s fun t =>
    stands t r.id (.answered (.bytes (readMem s.mem r.loc z))) ∧ comes t .remoteReply (Arg.num r.id) ∧
    t.threads = s.threads ∧ sameMemory s t ∧ also t) ∧
  (∀ b, r.op = .write b → Answers j s fun t =>
    stands t r.id (.answered (.bytes [])) ∧ comes t .storeAcknowledge (Arg.num r.id) ∧
    t.threads = s.threads ∧ stored s t r.loc b ∧ also t) ∧
  (∀ op z x c, r.op = .amo op z x c → Answers j s fun t =>
    let old := leNat (readMem s.mem r.loc z)
    stands t r.id (.answered (.bytes (bytesOf z old))) ∧ comes t .remoteReply (Arg.num r.id) ∧
    t.threads = s.threads ∧
    (∀ u, op = .add → x = BitVec.allOnes 64 → z = 8 → old = 1 → inJoinAt s u r.loc → joinAnswered t u (s.thread u).issuedAt) ∧
    stored s t r.loc (bytesOf z (amoNew op z old (x.toNat % 2 ^ (8 * z)) (c.toNat % 2 ^ (8 * z)))) ∧ also t)

/-- A full/empty operation completes at its word (11 R152). -/
def feDone (s : State) (r : Req) (ans : Word) (wr : Option Word) (bit : Bool) (t : State) : Prop :=
  stands t r.id (.answered (.bytes (bytesOf 8 ans.toNat))) ∧ comes t .remoteReply (Arg.num r.id) ∧
  t.fe.get false (r.loc / 8) = bit ∧ (∀ w, w ≠ r.loc / 8 → t.fe.get false w = s.fe.get false w) ∧ t.threads = s.threads ∧
  match wr with | some v => stored s t r.loc (bytesOf 8 v.toNat) | none => sameMemory s t

/-- A ring is full when its counts differ by its slots, as 64-bit counts (15 R206). -/
def ringIsFull (s : State) (ring slots : Nat) : Prop :=
  (BitVec.ofNat 64 (s.ringHead ring) - BitVec.ofNat 64 (s.ringTail ring)).toNat = slots

/-- A FORK of a core holds a slot of the deque and waits to push into it: it goes before the sequencer's and the thieves' operations
(15 R207). -/
def pushWaits (s : State) (c : Nat) : Prop := ∃ u w ib k a r, u / 16 = c ∧ (s.thread u).wait = some w ∧ w.why = .cond ∧
  w.act = .fork ib k a (some r) true

/-- A ring of `slots` slots lies on shared lines of a slice, aligned, and has a free slot (15 R206, 27 R274). -/
def ringRoom (s : State) (ring slots : Nat) : Prop :=
  ring % 64 = 0 ∧ s.sharedSlices ring (64 + 64 * slots) = true ∧ slots ≠ 0 ∧ ¬ ringIsFull s ring slots

/-- A message of 64 bytes stands in the next slot of a ring, HEAD has moved on, and a write of the wake word is on its way (15 R206). -/
def placed (s t : State) (ring slots wake : Nat) (msg : List Byte) : Prop :=
  let h := s.ringHead ring
  readMem t.mem (ring + 64 + 64 * (h % slots)) 64 = msg ∧ t.ringHead ring = (h + 1) % 2 ^ 64 ∧
  (∀ l, ¬ (ring ≤ l ∧ l < ring + 8) →
    ¬ (ring + 64 + 64 * (h % slots) ≤ l ∧ l < ring + 128 + 64 * (h % slots)) → t.mem.get 0 l = s.mem.get 0 l) ∧
  (∃ q ∈ t.net, q.src = .device ∧ q.op = .wake wake ∧ q.loc = wakeGva wake ∧ q.phase = .sent ∧ comes t .homeApply (Arg.num q.id)) ∧
  t.threads = s.threads ∧ t.cores = s.cores

/-- A packet leaves a gateway by the link that its route names (29 R284, R290): it joins that link's queue, which compresses above CTHR
bytes until it falls to half of that, by a shorter form too, and takes its form where it comes to the head; a link that is free sends the packet at its head.
A Delay_Req of the clock is marked with its number and timestamped as it leaves (R291). -/
def leavesAs (s t : State) (g : Nat) (p : Packet) (mark : Option Nat) : Prop :=
  let l := Config.linkFor g (p.f 32 12) s.now % 16
  let n := 16 * g + l
  let e := s.erg n
  let bytes := (e.queue.map fun x => x.1.size).sum + p.size
  let big : Bool := if e.compressing then decide (Config.cthr / 2 < bytes) else decide (Config.cthr < bytes)
  let q := (if e.queue = [] ∧ big = true then p.shorter else p, mark)
  let first := (e.queue ++ [q]).headD q
  let stays : Bool := if e.queue = [] ∧ big = true then decide (Config.cthr / 2 < q.1.size) else big
  (s.now < e.freeAt → (t.erg n).queue = e.queue ++ [q] ∧ (t.erg n).compressing = stays ∧ t.out = s.out ∧ t.clock = s.clock) ∧
  (e.freeAt ≤ s.now → t.out = s.out ++ [.packet g l first.1] ∧ (t.erg n).freeAt = s.now + first.1.span ∧
    t.clock = { s.clock with delayReq := match first.2 with | some k => some (k, s.time) | none => s.clock.delayReq })

/-- The same for any other packet. -/
def leavesBy (s t : State) (g : Nat) (p : Packet) : Prop := leavesAs s t g p none

end Sys2Proof.Spec
end

