-- ==== Sys2Proof/Certificates/Slice0/Obligations.lean ====
section
/-!
DEFINITION. The statements about the model, for the provers, in the vocabulary of Safety.lean. A statement names its
instructions one by one; the conclusion of each clause is that `exec` answers a next state, and what that state holds.
-/

section

open Sys2Proof Sys2Proof.Machine Sys2Proof.Spec

/-! ### The integer group -/

/-- 07 R93 to R96, 03 R24, 05 R49, R55, 15 R209: every instruction of the integer groups that cannot trap writes the value its table gives
to gA, on all operands, with immediates sign-extended except in the shifts; g0 reads zero and discards the write; nothing else changes. -/
def Obligations.IntegerResults : Prop :=
  (∀ (d b c : Reg) (s : State),
     Answers (.add d b c) s (writesG s d (s.g b + s.g c) 4) ∧
     Answers (.sub d b c) s (writesG s d (s.g b - s.g c) 4) ∧
     Answers (.and d b c) s (writesG s d (s.g b &&& s.g c) 4) ∧
     Answers (.or d b c) s (writesG s d (s.g b ||| s.g c) 4) ∧
     Answers (.xor d b c) s (writesG s d (s.g b ^^^ s.g c) 4) ∧
     Answers (.andn d b c) s (writesG s d (s.g b &&& ~~~ s.g c) 4) ∧
     Answers (.slt d b c) s (writesG s d (if (s.g b).toInt < (s.g c).toInt then 1 else 0) 4) ∧
     Answers (.sltu d b c) s (writesG s d (if (s.g b).toNat < (s.g c).toNat then 1 else 0) 4) ∧
     Answers (.sll d b c) s (writesG s d (s.g b <<< ((s.g c).toNat % 64)) 4) ∧
     Answers (.srl d b c) s (writesG s d (s.g b >>> ((s.g c).toNat % 64)) 4) ∧
     Answers (.sra d b c) s (writesG s d ((s.g b).sshiftRight ((s.g c).toNat % 64)) 4) ∧
     Answers (.fshl d b c) s
       (writesG s d ((((s.g d ++ s.g b) <<< ((s.g c).toNat % 64) : BitVec 128) >>> 64).truncate 64) 4) ∧
     Answers (.fshr d b c) s (writesG s d (((s.g d ++ s.g b) >>> ((s.g c).toNat % 64) : BitVec 128).truncate 64) 4) ∧
     Answers (.min d b c) s (writesG s d (if (s.g c).toInt < (s.g b).toInt then s.g c else s.g b) 4) ∧
     Answers (.minu d b c) s (writesG s d (if (s.g c).toNat < (s.g b).toNat then s.g c else s.g b) 4) ∧
     Answers (.max d b c) s (writesG s d (if (s.g b).toInt < (s.g c).toInt then s.g c else s.g b) 4) ∧
     Answers (.maxu d b c) s (writesG s d (if (s.g b).toNat < (s.g c).toNat then s.g c else s.g b) 4) ∧
     Answers (.mul d b c) s (writesG s d (s.g b * s.g c) 8) ∧
     Answers (.mulh d b c) s (writesG s d
       ((((s.g b).signExtend 128 * (s.g c).signExtend 128) >>> 64).truncate 64) 8) ∧
     Answers (.mulhu d b c) s (writesG s d
       ((((s.g b).zeroExtend 128 * (s.g c).zeroExtend 128) >>> 64).truncate 64) 8) ∧
     Answers (.clz d b) s (writesG s d (s.g b).clz 4) ∧
     Answers (.ctz d b) s (writesG s d (s.g b).ctz 4) ∧
     Answers (.popc d b) s (writesG s d (s.g b).cpop 4) ∧
     Answers (.sextw d b) s (writesG s d (((s.g b).truncate 32).signExtend 64) 4) ∧
     Answers (.zextw d b) s (writesG s d (((s.g b).truncate 32).zeroExtend 64) 4) ∧
     (∃ v : Word, Answers (.bswap d b) s (writesG s d v 4) ∧
       ∀ i : Nat, i < 8 → (v >>> (8 * i)).truncate 8 = ((s.g b >>> (8 * (7 - i))).truncate 8 : Byte))) ∧
  (∀ (d b : Reg) (i : BitVec 12) (n : Fin 64) (j : BitVec 20) (s : State),
     Answers (.addi d b i) s (writesG s d (s.g b + i.signExtend 64) 4) ∧
     Answers (.slti d b i) s (writesG s d (if (s.g b).toInt < i.toInt then 1 else 0) 4) ∧
     Answers (.sltiu d b i) s (writesG s d (if (s.g b).toNat < (i.signExtend 64).toNat then 1 else 0) 4) ∧
     Answers (.xori d b i) s (writesG s d (s.g b ^^^ i.signExtend 64) 4) ∧
     Answers (.ori d b i) s (writesG s d (s.g b ||| i.signExtend 64) 4) ∧
     Answers (.andi d b i) s (writesG s d (s.g b &&& i.signExtend 64) 4) ∧
     Answers (.slli d b n) s (writesG s d (s.g b <<< n.val) 4) ∧
     Answers (.srli d b n) s (writesG s d (s.g b >>> n.val) 4) ∧
     Answers (.srai d b n) s (writesG s d ((s.g b).sshiftRight n.val) 4) ∧
     Answers (.lui d j) s (writesG s d (BitVec.ofInt 64 (j.toInt * 4096)) 4) ∧
     Answers (.auipc d j) s (writesG s d (s.th.pc + BitVec.ofInt 64 (j.toInt * 4096)) 4))
/-- 07 R92, R93: a division or remainder writes its result when the divisor is not zero (signed ones truncate towards zero, −2^63 by −1
gives −2^63 and remainder 0), in class 3; by zero it raises 0x5F in every state, whatever FCSR holds, and TVAL holds the instruction bits.
-/
def Obligations.DivisionsAndTheirTrap : Prop :=
  (∀ (d b c : Reg) (s : State), s.g c ≠ 0 →
     Answers (.div d b c) s (writesG s d (BitVec.ofInt 64 ((s.g b).toInt.tdiv (s.g c).toInt)) 24) ∧
     Answers (.divu d b c) s (writesG s d (BitVec.ofNat 64 ((s.g b).toNat / (s.g c).toNat)) 24) ∧
     Answers (.rem d b c) s (writesG s d (BitVec.ofInt 64 ((s.g b).toInt.tmod (s.g c).toInt)) 24) ∧
     Answers (.remu d b c) s (writesG s d (BitVec.ofNat 64 ((s.g b).toNat % (s.g c).toNat)) 24)) ∧
  (∀ (d b c : Reg) (s : State), s.g c = 0 →
     Answers (.div d b c) s (trapped s 0x5F (ibits (.div d b c))) ∧
     Answers (.divu d b c) s (trapped s 0x5F (ibits (.divu d b c))) ∧
     Answers (.rem d b c) s (trapped s 0x5F (ibits (.rem d b c))) ∧
     Answers (.remu d b c) s (trapped s 0x5F (ibits (.remu d b c))))
/-! ### Scalar floating point -/

/-- 07 R97, R98; 03 R25: every arithmetic, minimum, comparison and fused instruction of the FP and FMA groups, in every format and
rounding: the result of the exact operation rounded once is written zero-extended with its flags, or an enabled flag traps. -/
def Obligations.ScalarFloatResults : Prop :=
  ∀ (f : FFmt) (r : Rnd) (d b c e : Reg) (s : State),
    let x := fpArg s f b
    let y := fpArg s f c
    let z := fpArg s f e
    let rm := rndMode r s.th.fcsr
    let two (i : Instr) (v : Nat × Flags) (dist : Nat) : Prop := fpEnds i s d (BitVec.ofNat 64 v.1) v.2 dist
    let one (i : Instr) (v : Bool × Flags) : Prop := fpEnds i s d (if v.1 then 1 else 0) v.2 8
    two (.fadd f r d b c) (roundOp f.fmt rm (addV rm (decodeF f.fmt x) (decodeF f.fmt y))) 8 ∧
    two (.fsub f r d b c) (roundOp f.fmt rm (addV rm (decodeF f.fmt x) (decodeF f.fmt y).neg)) 8 ∧
    two (.fmul f r d b c) (roundOp f.fmt rm (mulV (decodeF f.fmt x) (decodeF f.fmt y))) 8 ∧
    two (.fdiv f r d b c) (fDiv f.fmt rm x y) 24 ∧
    two (.fsqrt f r d b) (fSqrt f.fmt rm x) 24 ∧
    two (.fmin f d b c) (fMinMax f.fmt false x y) 8 ∧
    two (.fmax f d b c) (fMinMax f.fmt true x y) 8 ∧
    one (.feq f d b c) (fEq f.fmt x y) ∧
    one (.flt f d b c) (fLt f.fmt x y) ∧
    one (.fle f d b c) (fLe f.fmt x y) ∧
    two (.fma f r d b c e)
      (roundOp f.fmt rm (fmaV rm (decodeF f.fmt x) (decodeF f.fmt y) (decodeF f.fmt z))) 8 ∧
    Answers (.fclass f d b) s (writesG s d (BitVec.ofNat 64 (fClass f.fmt x)) 8) ∧
    Answers (.fsgnj f d b c) s (writesG s d (BitVec.ofNat 64 (fSgnj f.fmt x y)) 8)

/-- 07 R99, 03 R39: conversions. To a floating-point format the source value is rounded once, saturating with .SAT; to an integer type it
is rounded to an integer and clamped, NaN giving 0, and the register holds the integer modulo 2^64. That the range of an integer target
(NV against NX) is judged on the rounded integer is the model's choice (log entry 52). -/
def Obligations.ScalarConversionResults : Prop :=
  ∀ (f : FFmt) (r : Rnd) (ty : CvtTy) (d b : Reg) (s : State),
    let v := s.g b
    let rm := rndMode r s.th.fcsr
    let src : FVal := match ty with
      | .fp32 => decodeF FP32 (v.toNat % 2 ^ 32) | .fp64 => decodeF FP64 v.toNat
      | .fp16 => decodeF FP16 (v.toNat % 2 ^ 16) | .bf16 => decodeF BF16 (v.toNat % 2 ^ 16)
      | .int64 => ofInt v.toInt | .uint64 => ofInt v.toNat
      | .int32 => ofInt (v.truncate 32).toInt | .uint32 => ofInt (v.truncate 32).toNat
    let two (i : Instr) (w : Nat × Flags) : Prop := fpEnds i s d (BitVec.ofNat 64 w.1) w.2 8
    let int (lo hi : Int) : Prop :=
      let w := fToInt rm lo hi (decodeF f.fmt (fpArg s f b))
      fpEnds (.fcvtToInt f r ty d b) s d (BitVec.ofInt 64 w.1) w.2 8
    two (.fcvtToFp f r ty d b) (roundTo f.fmt rm false src) ∧
    two (.fcvtSat f r ty d b) (roundTo f.fmt rm true src) ∧
    (ty = .int64 → int (-2 ^ 63) (2 ^ 63 - 1)) ∧ (ty = .uint64 → int 0 (2 ^ 64 - 1)) ∧
    (ty = .int32 → int (-2 ^ 31) (2 ^ 31 - 1)) ∧ (ty = .uint32 → int 0 (2 ^ 32 - 1))

/-- 03 R38, 07 R97: a value that a format holds rounds to its own code under every mode, saturating or not, and raises no flag. The
special results: a finite nonzero value divided by zero gives a signed infinity and raises DZ; zero by zero and infinity by infinity give
the canonical NaN and raise NV; the root of a negative nonzero number likewise, and the root of a zero is that zero; a sum of exact
opposites is +0, and −0 under RDN. -/
def Obligations.FloatSpecialResults : Prop :=
  (∀ f ∈ [FP64, FP32, FP16, BF16, E4M3, E5M2], ∀ (rm : RMode) (sat : Bool) (c : Nat), c < 2 ^ f.width →
     ∀ (n : Bool) (m : Nat) (e : Int), decodeF f c = .fin n m e → roundTo f rm sat (decodeF f c) = (c, 0)) ∧
  (∀ (k : FFmt) (rm : RMode) (a b : Nat), a < 2 ^ k.fmt.width → b < 2 ^ k.fmt.width →
     let f := k.fmt
     (∀ n m e p q, decodeF f a = .fin n m e → m ≠ 0 → decodeF f b = .fin p 0 q →
       fDiv f rm a b = (f.sign (n != p) f.infCode, fDZ)) ∧
     (∀ n e p q, decodeF f a = .fin n 0 e → decodeF f b = .fin p 0 q → fDiv f rm a b = (f.canonNaN, fNV)) ∧
     (∀ n p, decodeF f a = .inf n → decodeF f b = .inf p → fDiv f rm a b = (f.canonNaN, fNV)) ∧
     (∀ m e, decodeF f a = .fin true m e → m ≠ 0 → fSqrt f rm a = (f.canonNaN, fNV)) ∧
     (∀ n e, decodeF f a = .fin n 0 e → fSqrt f rm a = (a, 0)) ∧
     (∀ n m e, decodeF f a = .fin n m e → m ≠ 0 → decodeF f b = (decodeF f a).neg →
       fAdd f rm a b = (f.sign (rm == .rdn) 0, 0)))
/-! ### Control transfer -/

/-- 07 R101, R102, R105: the six branches, taken and not taken, on all operands; JAL and JALR link and jump, and JALR's target is formed
from the old gB and keeps its bit 0. -/
def Obligations.BranchesAndJumps : Prop :=
  (∀ (b c : Reg) (i : BitVec 12) (s : State),
     Answers (.beq b c i) s (branches s (s.g b = s.g c) i) ∧
     Answers (.bne b c i) s (branches s (s.g b ≠ s.g c) i) ∧
     Answers (.blt b c i) s (branches s ((s.g b).toInt < (s.g c).toInt) i) ∧
     Answers (.bge b c i) s (branches s ((s.g c).toInt ≤ (s.g b).toInt) i) ∧
     Answers (.bltu b c i) s (branches s ((s.g b).toNat < (s.g c).toNat) i) ∧
     Answers (.bgeu b c i) s (branches s ((s.g c).toNat ≤ (s.g b).toNat) i)) ∧
  (∀ (d b : Reg) (i : BitVec 12) (j : BitVec 20) (s : State),
     Answers (.jal d j) s (links s d (s.th.pc + BitVec.ofInt 64 (2 * j.toInt))) ∧
     Answers (.jalr d b i) s (links s d (s.g b + BitVec.ofInt 64 i.toInt)))
/-- 07 R103, R104: LOOP and LOOPI with a count set their level up and go on to the body. With the count 0 they leave the level empty and
go past the instruction at its end, whose first parcel they fetch; a cause of that fetch is raised with TVAL = the offset, and an absent
page is reported as for any fetch. -/
def Obligations.LoopsSetUpTheirLevel : Prop :=
  ∀ (lvl : Fin 2) (b : Reg) (k : Fin 1024) (i : BitVec 12) (s : State), 2 ≤ i.toNat →
    let le := s.th.pc + BitVec.ofNat 64 (2 * i.toNat)
    let set (n : Word) (x : Thread) : Thread :=
      { x with ls := x.ls.set 0 lvl.val (x.pc + 4), le := x.le.set 0 lvl.val le, lc := x.lc.set 0 lvl.val n,
               lp := x.lp.set false lvl.val (x.priv.getLsbD 0) }
    let goes (n : Word) (s' : State) (next : Word) (t : State) : Prop :=
      pcRule (set n s'.th) t.th next ∧ still t.th = still (set n s'.th) ∧ t.th.st = .ready ∧ t.th.wait = none ∧
      onlyOwnThread s' t
    let loops (j : Instr) (n : Word) : Prop :=
      (n ≠ 0 → Answers j s (goes n s (s.th.pc + 4))) ∧
      (∀ p s', n = 0 → s.fetchAt s.cur le = (.parcel p, s') →
        Answers j s (goes 0 s' (le + if p.getLsbD 0 then 4 else 2))) ∧
      (∀ c s', n = 0 → s.fetchAt s.cur le = (.bad c, s') → Answers j s (trapped s' c le)) ∧
      (∀ gva s', n = 0 → s.fetchAt s.cur le = (.absent gva, s') →
        exec j s = .next (s'.pageAbsent s.cur 1 gva needX le .ifence))
    loops (.loop lvl b i) (s.g b) ∧ loops (.loopi lvl k i) (BitVec.ofNat 64 k.val)

/-- 07 R107, R109; 15 R211: YIELD only moves its thread to the young end of the core's age list. HALT completes, without the loop-end
check, and its thread is halted. -/
def Obligations.YieldAndHalt : Prop :=
  ∀ (s : State),
    Answers .yield s (fun t =>
      completed s t (s.th.pc + 4) 4 ∧ still t.th = still s.th ∧
      t.core (s.cur / 16) = { s.core (s.cur / 16) with
        age := (s.core (s.cur / 16)).age.filter (· ≠ s.cur % 16) ++ [s.cur % 16] } ∧
      (∀ c, c ≠ s.cur / 16 → t.core c = s.core c) ∧ (∀ u, u ≠ s.cur → t.thread u = s.thread u) ∧
      { t with threads := s.threads, cores := s.cores } = s) ∧
    Answers .halt s (fun t =>
      t.th.st = .halted ∧ t.th.pc = s.th.pc + 4 ∧ t.th.lc = s.th.lc ∧ still t.th = still s.th ∧ onlyOwnThread s t)

/-- 07 R110, 27 R269; 05 R45, R47: TRAP n traps in any privilege state with cause 0xB0 + n and the instruction bits; an encoding that is
not an instruction traps with the cause of why it is none: 0x01 for a reserved major opcode, 0x02 for an unassigned function value, 0x03
for a nonzero bit that shall be zero; the parcel 0x0000 raises 0x05. -/
def Obligations.TrapsTakeTheirCauses : Prop :=
  (∀ (n : Fin 16) (s : State), Answers (.trap n) s (trapped s (BitVec.ofNat 8 (0xB0 + n.val)) (BitVec.ofNat 64 (n.val * 2 ^ 20 + 0x1F)))) ∧
  (∀ (bits : BitVec 32) (s : State),
     Answers (.invalidInstruction .reservedMajor bits) s (trapped s 0x01 (bits.zeroExtend 64)) ∧
     Answers (.invalidInstruction .unassigned bits) s (trapped s 0x02 (bits.zeroExtend 64)) ∧
     Answers (.invalidInstruction .reservedBit bits) s (trapped s 0x03 (bits.zeroExtend 64)) ∧
     Answers .zeroParcel s (trapped s 0x05 0))
/-- 07 R111, R105, R110: ERET returns when privileged, leaving every loop level as it is, and raises 0x07 when not; after a trap, with the
saved registers as the trap left them, it resumes at the trapping instruction in the privilege it had. -/
def Obligations.EretReturns : Prop :=
  (∀ (s : State),
     (s.th.priv.getLsbD 0 = true → Answers .eret s fun t =>
       transferred s t s.th.epc True 4 ∧ t.th.priv.getLsbD 0 = s.th.priv.getLsbD 1 ∧ t.th.priv.getLsbD 1 = false ∧
       { still t.th with priv := 0, fetched := [] } = { still s.th with priv := 0, fetched := [] } ∧ onlyOwnThread s t) ∧
     (s.th.priv.getLsbD 0 = false → Answers .eret s (trapped s 0x07 0x0100001F))) ∧
  (∀ (s t u : State) (c : Cause) (tv : Word), s.raise c tv = .next t → exec .eret t = .next u →
     u.th.pc = s.th.pc ∧ (u.th.priv.getLsbD 0 = s.th.priv.getLsbD 0) ∧ u.th.lc = s.th.lc ∧ u.th.g = s.th.g ∧
     u.th.cause = c.zeroExtend 64 ∧ u.th.tval = tv)
/-! ### System registers -/

/-- 07 R112, 03 R29, R28: SYSR writes the register's value: a per-thread register of its own thread, a fact of its core, or a per-core
register as of the last write that issued four cycles before or earlier. -/
def Obligations.SysrReads : Prop :=
  ∀ (d : Reg) (s : State),
    let reads (n : BitVec 12) (v : Word) : Prop := Answers (.sysr n d) s (writesG s d v 4)
    let k := s.core (s.cur / 16)
    let comp := match k.comp with | some c => s.comp c | none => noComponent
    reads 0 s.th.vl ∧ reads 1 s.th.vtype ∧ reads 2 s.th.vstart ∧ reads 3 s.th.fcsr ∧ reads 4 s.th.cause ∧
    reads 5 s.th.epc ∧ reads 6 s.th.tval ∧ reads 7 (BitVec.ofNat 64 s.cur) ∧ reads 8 (BitVec.ofNat 64 (s.cur / 16)) ∧
    reads 9 (BitVec.ofNat 64 (s.now - s.residentAt)) ∧ reads 10 (comp.stealdom.zeroExtend 64) ∧
    reads 11 (k.regAt s.now 64) ∧ reads 12 (if comp.nlmode then 1 else 0) ∧ reads 13 s.th.portstat ∧
    reads 14 s.th.trapvec ∧ reads 15 s.th.priv ∧ reads 16 (s.th.asid.zeroExtend 64) ∧
    (∀ i, i < 8 → reads (BitVec.ofNat 12 (0x100 + i)) (k.regAt s.now i)) ∧
    (∀ i, 16 ≤ i → i < 64 → reads (BitVec.ofNat 12 (0x100 + i)) (k.regAt s.now i))

/-- 07 R113, 03 R27 to R29, 17 R220: a SYSW that is accepted writes its register and nothing else; a per-core register reads as written
from the fourth cycle on, and before that as before (its record of recent writes lists the newest first; of a buffer's counts, one that no
post or free of this cycle precedes). -/
def Obligations.SyswWrites : Prop :=
  ∀ (b : Reg) (s : State),
    let v := s.g b
    let writes (n : BitVec 12) (edit : Thread → Thread) : Prop := Answers (.sysw n b) s fun t =>
      completed s t (s.th.pc + 4) 4 ∧ still t.th = still (edit s.th) ∧ onlyOwnThread s t
    let own := s.core (s.cur / 16)
    let percore (k : Nat) (n : BitVec 12) : Prop := Answers (.sysw n b) s fun t =>
      let own' := t.core (s.cur / 16)
      completed s t (s.th.pc + 4) 4 ∧ still t.th = still s.th ∧ (∀ c, c ≠ s.cur / 16 → t.core c = s.core c) ∧
      (∀ i, own'.regAt (s.now + 4 + i) k = v) ∧ (∀ i, i < 4 → own'.regAt (s.now + i) k = own.regAt (s.now + i) k) ∧
      (∀ j i, j ≠ k → own'.regAt (s.now + i) j = own.regAt (s.now + i) j) ∧
      { own' with regs := .empty, recent := [] } = { own with regs := .empty, recent := [] } ∧
      { t with threads := s.threads, cores := s.cores } = s ∧ (∀ u, u ≠ s.cur → t.thread u = s.thread u)
    let priv := s.th.priv.getLsbD 0 = true
    (v.toNat < 2 ^ 16 → writes 2 fun x => { x with vstart := v }) ∧
    (v &&& 0xFFFFFFFFFFFFE080 = 0 → writes 3 fun x => { x with fcsr := v }) ∧
    (priv → v.toNat < 2 ^ 8 → writes 4 fun x => { x with cause := v }) ∧
    (priv → v.getLsbD 0 = false → writes 5 fun x => { x with epc := v }) ∧
    (priv → writes 6 fun x => { x with tval := v }) ∧
    (priv → v.getLsbD 0 = false → writes 14 fun x => { x with trapvec := v }) ∧
    (priv → v.toNat < 4 → Answers (.sysw 15 b) s fun t => t.th.priv = v ∧ pcRule { s.th with priv := v } t.th (s.th.pc + 4) ∧
      t.th.st = .ready ∧ t.th.wait = none ∧ (s.th.wait = none → t.th.readyAt = s.th.issuedAt + 4) ∧
      { still t.th with priv := 0 } = { still s.th with priv := 0 } ∧ onlyOwnThread s t) ∧
    (own.recent.Pairwise (fun x y => y.1 ≤ x.1) →
      (priv → v.toNat < 2 → percore 64 11) ∧
      (∀ i, i < 8 → percore i (BitVec.ofNat 12 (0x100 + i))) ∧
      (∀ i, i < 16 → v &&& 0xFFFFFFFFFFFF00F0 = 0 → v.toNat % 16 ≤ 9 → percore (16 + i) (BitVec.ofNat 12 (0x110 + i))) ∧
      (∀ i z, i < 16 → v.toNat < 2 ^ 25 → z = v.toNat / 2 ^ 20 → z = 0 ∨ (6 ≤ z ∧ z ≤ 20) → v.toNat % 2 ^ 20 % 2 ^ z = 0 →
        percore (32 + 2 * i) (BitVec.ofNat 12 (0x120 + 2 * i))) ∧
      (∀ i, i < 16 → (∀ e ∈ own.recent, ¬ (e.1 = s.now ∧ e.2.1 = 33 + 2 * i)) →
        percore (33 + 2 * i) (BitVec.ofNat 12 (0x121 + 2 * i))))

/-- 03 R30, 07 R113: SYSW raises 0x07 when it names a register whose access is "read", or one whose access is "privileged write" while
PRIV bit 0 is 0; VL and VTYPE are among the former. Else a nonzero reserved bit raises 0x03, and a reserved format code of a BFMT register
0x0A. Nothing is written. -/
def Obligations.SyswRefuses : Prop :=
  ∀ (b : Reg) (n : Nat) (s : State),
    let v := s.g b
    let priv := s.th.priv.getLsbD 0 = true
    let refuses (n : Nat) (c : Cause) : Prop :=
      Answers (.sysw (BitVec.ofNat 12 n) b) s (trapped s c (ibits (.sysw (BitVec.ofNat 12 n) b)))
    ((n ∈ [0, 1, 7, 8, 9, 10, 12, 13, 16] ∨ (n ∈ [4, 5, 6, 11, 14, 15] ∧ ¬ priv)) → refuses n 0x07) ∧
    (2 ^ 16 ≤ v.toNat → refuses 2 0x03) ∧
    (v &&& 0xFFFFFFFFFFFFE080 ≠ 0 → refuses 3 0x03) ∧
    (priv → 2 ^ 8 ≤ v.toNat → refuses 4 0x03) ∧
    (priv → v.getLsbD 0 = true → refuses 5 0x03 ∧ refuses 14 0x03) ∧
    (priv → 2 ≤ v.toNat → refuses 11 0x03) ∧
    (priv → 4 ≤ v.toNat → refuses 15 0x03) ∧
    (∀ i, i < 16 → v &&& 0xFFFFFFFFFFFF00F0 ≠ 0 → refuses (0x110 + i) 0x03) ∧
    (∀ i, i < 16 → v &&& 0xFFFFFFFFFFFF00F0 = 0 → 9 < v.toNat % 16 → refuses (0x110 + i) 0x0A) ∧
    (∀ i, i < 16 → 2 ^ 25 ≤ v.toNat → refuses (0x120 + 2 * i) 0x03)

/-! ### Memory instructions -/

/-- 11 R148, R150: the loads, sign-extended and zero-extended, at gB + imm10·size. -/
def Obligations.LoadsReadTheirBytes : Prop :=
  ∀ (k : RClass) (d b : Reg) (i : BitVec 10) (s : State),
    let a (z : Nat) : Word := addOff (s.g b) (i.toInt * z)
    loads (.lb k d b i) s d (a 1) 1 true k ∧ loads (.lh k d b i) s d (a 2) 2 true k ∧
    loads (.lw k d b i) s d (a 4) 4 true k ∧ loads (.ld k d b i) s d (a 8) 8 true k ∧
    loads (.lbz k d b i) s d (a 1) 1 false k ∧ loads (.lhz k d b i) s d (a 2) 2 false k ∧
    loads (.lwz k d b i) s d (a 4) 4 false k

/-- 11 R146, R148, R150; 07 R115: the stores at gB + imm10·size, and SEGST at gB + 16·imm12. -/
def Obligations.StoresWriteTheirBytes : Prop :=
  ∀ (k : RClass) (c b : Reg) (i : BitVec 10) (j : BitVec 12) (n : Fin 8) (s : State),
    let a (z : Nat) : Word := addOff (s.g b) (i.toInt * z)
    let at' (ins : Instr) (z : Nat) : Prop :=
      stores ins s (a z) (lowBytes (s.g c) z) (.store z (a z) (s.g c) k) k
    let img := s.th.seg.get 0 n.val
    at' (.sb k c b i) 1 ∧ at' (.sh k c b i) 2 ∧ at' (.sw k c b i) 4 ∧ at' (.sd k c b i) 8 ∧
    stores (.segst n b j) s (addOff (s.g b) (j.toInt * 16))
      ((List.range 16).map fun x => (img >>> (8 * x)).truncate 8) (.segst (addOff (s.g b) (j.toInt * 16)) img) .o

/-- 11 R143 to R145, R147; 27 R275: what a load, store, atomic or full/empty operation does when its access is refused; and the checks of
an access of z bytes at alignment al under its segment, in their order: the limit first, then the rights, then the alignment; an access
that passes them is placed by its GVA, the base plus the offset; and 17 R214 to R229, where a GVA lies: on chip by its window and owner
tags, else by the walk of its ASID's tables, whose leaf the TLBs then hold; a cached leaf that differs from the tables may be used
instead. That a full/empty operation on a paged GVA is refused before its translation is the model's choice (log entry 52). That the
walked leaf is then in the TLBs of the cluster and of the die is the model's choice (log entry 8), and that owner tags and the refusals of
the control window are checked at issue is too (log entry 11). -/
def Obligations.AccessChecksTrap : Prop :=
  (∀ (k : RClass) (r b c : Reg) (i : BitVec 10) (j : BitVec 12) (n : Fin 8) (dbl : Bool) (s : State),
     let a (z : Nat) : Word := addOff (s.g b) (i.toInt * z)
     let ld (ins : Instr) (z : Nat) (sg : Bool) : Prop :=
       refusedAccess ins s (a z) z z .load needR (.load r z sg (a z) k)
     let st (ins : Instr) (z : Nat) : Prop := refusedAccess ins s (a z) z z .store needW (.store z (a z) (s.g c) k)
     let z := if dbl then 8 else 4
     let am (ins : Instr) (op : AmoOp) : Prop :=
       refusedAccess ins s (s.g b) z z .atomic needRWA (.amo op r z (s.g b) (s.g c) (s.g r) k)
     ld (.lb k r b i) 1 true ∧ ld (.lh k r b i) 2 true ∧ ld (.lw k r b i) 4 true ∧ ld (.ld k r b i) 8 true ∧
     ld (.lbz k r b i) 1 false ∧ ld (.lhz k r b i) 2 false ∧ ld (.lwz k r b i) 4 false ∧
     st (.sb k c b i) 1 ∧ st (.sh k c b i) 2 ∧ st (.sw k c b i) 4 ∧ st (.sd k c b i) 8 ∧
     (∀ loc s' e, s.access s.cur (a 8) 8 8 .store needW = (.ok loc, s') →
       s'.cwRefuse loc (lowBytes (s.g c) 8) (s.th.priv.getLsbD 0) = some e → Answers (.sd k c b i) s (trapped s' e (a 8))) ∧
     refusedAccess (.segst n b j) s (addOff (s.g b) (j.toInt * 16)) 16 16 .store needW
       (.segst (addOff (s.g b) (j.toInt * 16)) (s.th.seg.get 0 n.val)) ∧
     am (.amoadd k dbl r b c) .add ∧ am (.amoand k dbl r b c) .and ∧ am (.amoor k dbl r b c) .or ∧
     am (.amoxor k dbl r b c) .xor ∧ am (.amoswap k dbl r b c) .swap ∧ am (.amomin k dbl r b c) .min ∧
     am (.amomax k dbl r b c) .max ∧ am (.amominu k dbl r b c) .minu ∧ am (.amomaxu k dbl r b c) .maxu ∧
     am (.amocas k dbl r b c) .cas ∧ am (.amofadd k dbl r b c) .fadd ∧ am (.amofmaxa k dbl r b c) .fmaxa ∧
     deniedAccess (.synld k r b) s (s.g b) 8 8 .fe needRWA ∧
     deniedAccess (.feread k r b) s (s.g b) 8 8 .fe needRWA ∧
     deniedAccess (.synst k b c) s (s.g b) 8 8 .fe needRWA ∧
     deniedAccess (.feset k b c) s (s.g b) 8 8 .fe needRWA) ∧
  (∀ (s : State) (t : Nat) (a : Word) (z al : Nat) (kind : AKind) (n : Need), n.x = false →
     let sel := a.toNat / 2 ^ 61
     let off := a.toNat % 2 ^ 61
     let g := (s.thread t).seg.get 0 sel
     let limit := g.toNat / 2 ^ 64 % 2 ^ 61
     let cause (k : Nat) : Cause := BitVec.ofNat 8 (0x10 + 4 * sel + k)
     let x := s.access t a z al kind n
     (limit < off + z → x = (.bad (cause 0), s)) ∧
     (off + z ≤ limit → n.r = true → g.getLsbD 57 = false → x = (.bad (cause 1), s)) ∧
     (off + z ≤ limit → (n.r = true → g.getLsbD 57 = true) → n.w = true → g.getLsbD 58 = false →
       x = (.bad (cause 2), s)) ∧
     (off + z ≤ limit → (n.r = true → g.getLsbD 57 = true) → (n.w = true → g.getLsbD 58 = true) → n.a = true →
       g.getLsbD 60 = false → x = (.bad (cause 2), s)) ∧
     (off + z ≤ limit → (n.r = true → g.getLsbD 57 = true) → (n.w = true → g.getLsbD 58 = true) →
       (n.a = true → g.getLsbD 60 = true) → off % al ≠ 0 → x = (.bad 0x38, s)) ∧
     (off + z ≤ limit → (n.r = true → g.getLsbD 57 = true) → (n.w = true → g.getLsbD 58 = true) →
       (n.a = true → g.getLsbD 60 = true) → off % al = 0 →
       x = s.locate (t / 16 / 16) (s.thread t).asid ((s.thread t).priv.getLsbD 0) ((g.toNat % 2 ^ 57 + off) % 2 ^ 57) z kind n)) ∧
  (∀ (s : State) (cl gva z : Nat) (asid : BitVec 12) (priv : Bool) (kind : AKind) (n : Need),
     let x := s.locate cl asid priv gva z kind n
     let r := s.asids.get noAsid asid.toNat
     let cached (t : TlbEnt) : Prop := t ∈ (s.cluster cl).tlb ++ (s.die (cl / 64)).tlb ∧ t.asid = asid ∧ t.base ≤ gva ∧ gva < t.base + t.size
     (gva < 2 ^ 56 → kind = .fe → x = (.bad 0x3A, s)) ∧
     (gva < 2 ^ 56 → kind ≠ .fe → r.live = false → x = (.bad 0x37, s)) ∧
     (∀ path, gva < 2 ^ 56 → kind ≠ .fe → r.live = true → walks s r gva path →
       let l := 4 - path.length
       let e := pteAt s (path.getLastD 0) l gva
       let size := 2 ^ (16 + 11 * l)
       let leaf : TlbEnt := ⟨asid, gva / size * size, size, e⟩
       ((∀ t, ¬ cached t) → e.getLsbD 0 = false → x = (.absent gva, s)) ∧
       ((∀ t, ¬ cached t) → e.getLsbD 0 = true → ¬ pteGood r l e → x = (.bad 0x35, s)) ∧
       (e.getLsbD 0 = true → pteGood r l e → e.getLsbD 1 = true →
         (∃ t, (t = leaf ∨ cached t) ∧ underLeaf priv n gva t.size t.e x.1) ∧
         ((∀ t, ¬ cached t) → leaf ∈ (x.2.cluster cl).tlb ∧ leaf ∈ (x.2.die (cl / 64)).tlb) ∧
         { x.2 with clusters := s.clusters, dies := s.dies, free := s.free } = s)) ∧
     (2 ^ 56 ≤ gva → decodeWin gva = none → x = (.bad 0x39, s)) ∧
     (∀ p, 2 ^ 56 ≤ gva → 1 ≤ z → decodeWin gva = some p → ((∃ d k, p = .slice d k) ∨ ∃ c off, p = .core c off ∧ off < 0x100000) →
       (¬ tagged s gva z asid → x = (.bad 0x39, s)) ∧
       (tagged s gva z asid → kind = .fe → (∃ d k, p = .slice d k) → x = (.bad 0x3A, s)) ∧
       (tagged s gva z asid → (kind = .fe → ¬ ∃ d k, p = .slice d k) → x = (.ok gva, s))) ∧
     (∀ c off, 2 ^ 56 ≤ gva → decodeWin gva = some (.core c off) → 0x100000 ≤ off →
       ((s.core c).comp = none ∨ (s.compOf c).asid ≠ asid → x = (.bad 0x39, s)) ∧
       ((s.core c).comp ≠ none → (s.compOf c).asid = asid → kind = .atomic ∨ kind = .fe → x = (.bad 0x3A, s)) ∧
       ((s.core c).comp ≠ none → (s.compOf c).asid = asid → kind ≠ .atomic → kind ≠ .fe → off < 0x600000 → x = (.ok gva, s)) ∧
       ((s.core c).comp ≠ none → (s.compOf c).asid = asid → kind ≠ .atomic → kind ≠ .fe → 0x600000 ≤ off →
         kind = .block ∨ z ≠ 8 ∨ off % 8 ≠ 0 → x = (.bad 0x3A, s))))
/-- 11 R152 to R154: an atomic that its checks pass sends its operation, with the operands it read at issue, to the home of its word, and
waits for the old value; a full/empty operation is sent to its word with the limit that FECTL held at issue, SYNST and FESET after the
thread's earlier accesses. -/
def Obligations.SynchronisingOperationsAskTheirHome : Prop :=
  (∀ (k : RClass) (dbl : Bool) (d b c : Reg) (loc : Nat) (s s' : State),
     let z := if dbl then 8 else 4
     s.access s.cur (s.g b) z z .atomic needRWA = (.ok loc, s') → s'.lineBusy s.cur loc z = false →
     let sends (i : Instr) (op : AmoOp) : Prop := Answers i s
       (asks s (.amo op d z (s.g b) (s.g c) (s.g d) k) .replies (.amo op z (s.g c) (s.g d)) k (s.g b) loc)
     sends (.amoadd k dbl d b c) .add ∧ sends (.amoand k dbl d b c) .and ∧ sends (.amoor k dbl d b c) .or ∧
     sends (.amoxor k dbl d b c) .xor ∧ sends (.amoswap k dbl d b c) .swap ∧ sends (.amomin k dbl d b c) .min ∧
     sends (.amomax k dbl d b c) .max ∧ sends (.amominu k dbl d b c) .minu ∧ sends (.amomaxu k dbl d b c) .maxu ∧
     sends (.amocas k dbl d b c) .cas ∧ sends (.amofadd k dbl d b c) .fadd ∧ sends (.amofmaxa k dbl d b c) .fmaxa) ∧
  (∀ (k : RClass) (d b c : Reg) (loc : Nat) (s s' : State),
     s.access s.cur (s.g b) 8 8 .fe needRWA = (.ok loc, s') → s'.lineBusy s.cur loc 8 = false →
     let lim := ((s.core (s.cur / 16)).regAt s.now 65).toNat % 2 ^ 16
     let sends (i : Instr) (op : FeOp) (r : Reg) (x : Word) : Prop := Answers i s
       (asks s (.fe op r (s.g b) x lim k) .replies (.fe op x lim) k (s.g b) loc)
     sends (.synld k d b) .synld d 0 ∧ sends (.feread k d b) .feread d 0 ∧
     (s'.pathTDone s.cur = true → sends (.synst k b c) .synst 0 (s.g c) ∧ sends (.feset k b c) .feset 0 (s.g c)) ∧
     (s'.pathTDone s.cur = false →
       Answers (.synst k b c) s (waits s (.fe .synst 0 (s.g b) (s.g c) lim k) .performed []) ∧
       Answers (.feset k b c) s (waits s (.fe .feset 0 (s.g b) (s.g c) lim k) .performed [])))
/-- 11 R154, R152: the word an integer atomic of z bytes leaves, as a function of the old word and its operands; and what a full/empty
operation does at its word: SYNLD completes on full, answers the word and leaves empty; SYNST completes on empty, stores and leaves full;
FEREAD answers the bit; FESET sets it. -/
def Obligations.WordOperationResults : Prop :=
  (∀ (z : Nat), z = 4 ∨ z = 8 → ∀ (o x c : BitVec (8 * z)),
     let new (op : AmoOp) : BitVec (8 * z) := BitVec.ofNat (8 * z) (amoNew op z o.toNat x.toNat c.toNat)
     new .add = o + x ∧ new .and = o &&& x ∧ new .or = o ||| x ∧ new .xor = o ^^^ x ∧ new .swap = x ∧
     new .min = (if x.toInt < o.toInt then x else o) ∧ new .max = (if o.toInt < x.toInt then x else o) ∧
     new .minu = (if x.toNat < o.toNat then x else o) ∧ new .maxu = (if o.toNat < x.toNat then x else o) ∧
     new .cas = (if o = c then x else o)) ∧
  (∀ (full : Bool) (w x : Word),
     feStep .synld full w x = (if full then some (w, none, false) else none) ∧
     feStep .synst full w x = (if full then none else some (0, some x, true)) ∧
     feStep .feread full w x = some (if full then 1 else 0, none, full) ∧
     feStep .feset full w x = some (0, none, x.getLsbD 0))
/-- 07 R114: SEGLD of an image in the own local store loads the segment register when the image is valid; an invalid image raises 0x03
with TVAL = the address; without privilege it raises 0x07. -/
def Obligations.SegldLoadsAnImage : Prop :=
  ∀ (n : Fin 8) (b : Reg) (i : BitVec 12) (s : State),
    let a := addOff (s.g b) (i.toInt * 16)
    (s.th.priv.getLsbD 0 = false → Answers (.segld n b i) s (trapped s 0x07 (ibits (.segld n b i)))) ∧
    (∀ bytes s', s.th.priv.getLsbD 0 = true → s.readBlock s.cur (.segld n a) a 16 16 .o [] = .ok (bytes, s') →
      let g : BitVec 128 := BitVec.ofNat 128 (leNat bytes)
      (segOk g = true → Answers (.segld n b i) s fun t =>
        (∃ dist, completed s' t (s.th.pc + 4) dist) ∧ t.th.seg = s.th.seg.set 0 n.val g ∧
        t.th.fetched = (if n = 0 then [] else s.th.fetched) ∧
        { still t.th with seg := .empty, fetched := [] } = { still s.th with seg := .empty, fetched := [] } ∧
        sameMemory s t) ∧
      (segOk g = false → Answers (.segld n b i) s (trapped s' 0x03 a))) ∧
    (∀ s', s.th.priv.getLsbD 0 = true → s.readBlock s.cur (.segld n a) a 16 16 .o [] = .error s' →
      exec (.segld n b i) s = .next s')

/-! ### Vectors -/

/-- 09 R122: VSETL and VSETLI set VTYPE, VL and gA; an illegal type sets VILL and VL = 0. VSTART becomes 0. -/
def Obligations.VsetSetsTypeAndLength : Prop :=
  ∀ (d b c : Reg) (sew : Fin 8) (grp : Fin 4) (ta ma : Bool) (s : State),
    let sets (i : Instr) (avl ty : Word) : Prop := Answers i s fun t =>
      let bad : Prop := 3 < ty.toNat % 8 ∨ 2 ^ 7 ≤ ty.toNat
      let vlmax := 512 * 2 ^ (ty.toNat / 8 % 4) / (8 * 2 ^ (ty.toNat % 8))
      (bad → t.th.vtype = 0x8000000000000000 ∧ t.th.vl = 0) ∧
      (¬ bad → t.th.vtype = ty ∧ t.th.vl.toNat = min avl.toNat vlmax) ∧
      (∀ r : Reg, t.g r = if r = d ∧ d ≠ 0 then t.th.vl else s.g r) ∧
      (∃ dist, completed s t (s.th.pc + 4) dist) ∧ t.th.vstart = 0 ∧
      { stillG t.th with vtype := 0, vl := 0, vstart := 0 } = { stillG s.th with vtype := 0, vl := 0, vstart := 0 } ∧
      onlyOwnThread s t
    sets (.vsetl d b c) (s.g b) (s.g c) ∧
    sets (.vsetli sew grp ta ma d b) (s.g b)
      (BitVec.ofNat 64 (sew.val + 8 * grp.val + (if ta then 32 else 0) + (if ma then 64 else 0)))

/-- 09 R116, R117, R123, R125: the integer element-wise instructions, in every form, width, grouping, mask and policy. a is the element of
vC, y operand b, d the old element of vA. -/
def Obligations.VectorIntegerResults : Prop :=
  ∀ (f : VForm) (m : MReg) (d c b : Reg) (s : State), f ≠ .vf → vtypeOk s.th →
    let w := s.th.sew
    let n := s.th.grp
    groupOk s.th d.val n n → groupOk s.th c.val n n → (f = .vv → groupOk s.th b.val n n) →
    let op (i : Instr) (uns : Bool) (g : BitVec w → BitVec w → BitVec w → BitVec w) : Prop :=
      Answers i s (writesV s true m d.val n w s.th.vlmax (fun _ => False) 4 plain fun i =>
        g (velem s c.val w i) (vop s f b uns w i) (velem s d.val w i))
    op (.vadd f m d c b) false (fun a y _ => a + y) ∧ op (.vsub f m d c b) false (fun a y _ => a - y) ∧
    op (.vrsub f m d c b) false (fun a y _ => y - a) ∧ op (.vmul f m d c b) false (fun a y _ => a * y) ∧
    op (.vmulh f m d c b) false
      (fun a y _ => ((a.signExtend (2 * w) * y.signExtend (2 * w)) >>> w).truncate w) ∧
    op (.vmulhu f m d c b) false
      (fun a y _ => ((a.zeroExtend (2 * w) * y.zeroExtend (2 * w)) >>> w).truncate w) ∧
    op (.vmacc f m d c b) false (fun a y d => d + a * y) ∧ op (.vnmsac f m d c b) false (fun a y d => d - a * y) ∧
    op (.vand f m d c b) false (fun a y _ => a &&& y) ∧ op (.vor f m d c b) false (fun a y _ => a ||| y) ∧
    op (.vxor f m d c b) false (fun a y _ => a ^^^ y) ∧
    op (.vsll f m d c b) true (fun a y _ => a <<< (y.toNat % w)) ∧
    op (.vsrl f m d c b) true (fun a y _ => a >>> (y.toNat % w)) ∧
    op (.vsra f m d c b) true (fun a y _ => a.sshiftRight (y.toNat % w)) ∧
    op (.vmin f m d c b) false (fun a y _ => if y.toInt < a.toInt then y else a) ∧
    op (.vmax f m d c b) false (fun a y _ => if a.toInt < y.toInt then y else a) ∧
    op (.vminu f m d c b) false (fun a y _ => if y.toNat < a.toNat then y else a) ∧
    op (.vmaxu f m d c b) false (fun a y _ => if a.toNat < y.toNat then y else a) ∧
    op (.vfshl f m d c b) true
      (fun a y d => (((d ++ a) <<< (y.toNat % w)) >>> w).truncate w) ∧
    op (.vfshr f m d c b) true (fun a y d => ((d ++ a) >>> (y.toNat % w)).truncate w) ∧
    op (.vclz m d c) false (fun a _ _ => a.clz) ∧ op (.vpopc m d c) false (fun a _ _ => a.cpop) ∧
    Answers (.vmerge f m d c b) s (writesV s true 0 d.val n w s.th.vlmax (fun _ => False) 4 plain fun i =>
      if (s.th.rdM m).getLsbD i then vop s f b false w i else velem s c.val w i) ∧
    Answers (.vmv f d b) s (writesV s true 0 d.val n w s.th.vlmax (fun _ => False) 4 plain fun i => vop s f b false w i)

/-- 05 R46, 09 R141: an integer lane parcel has the effect of its 32-bit equivalent with vA also as operand a, unmasked, and is two bytes
long. -/
def Obligations.LaneParcelResults : Prop :=
  ∀ (x : Bool) (d b : Reg) (s : State), vtypeOk s.th →
    let w := s.th.sew
    let n := s.th.grp
    let f : VForm := if x then .vx else .vv
    groupOk s.th d.val n n → (f = .vv → groupOk s.th b.val n n) → d ≠ 0 ∨ b ≠ 0 ∨ x = true →
    let op (i : Instr) (g : BitVec w → BitVec w → BitVec w) : Prop :=
      Answers i s (writesV s true 0 d.val n w s.th.vlmax (fun _ => False) 2 plain fun i =>
        g (velem s d.val w i) (vop s f b false w i))
    op (.vmvParcel x d b) (fun _ y => y) ∧ op (.vaddParcel x d b) (fun a y => a + y) ∧
    op (.vsubParcel x d b) (fun a y => a - y) ∧ op (.vmulParcel x d b) (fun a y => a * y) ∧
    op (.vandParcel x d b) (fun a y => a &&& y) ∧ op (.vorParcel x d b) (fun a y => a ||| y) ∧
    op (.vxorParcel x d b) (fun a y => a ^^^ y) ∧ op (.vsllParcel x d b) (fun a y => a <<< (y.toNat % w)) ∧
    op (.vsrlParcel x d b) (fun a y => a >>> (y.toNat % w)) ∧
    op (.vminParcel x d b) (fun a y => if y.toInt < a.toInt then y else a) ∧
    op (.vmaxParcel x d b) (fun a y => if a.toInt < y.toInt then y else a)

/-- 09 R116, R124, R126: the integer and floating-point compares write a mask register. -/
def Obligations.VectorCompareResults : Prop :=
  (∀ (f : VForm) (m d : MReg) (c b : Reg) (s : State), f ≠ .vf → vtypeOk s.th →
     let w := s.th.sew
     let n := s.th.grp
     groupOk s.th c.val n n → (f = .vv → groupOk s.th b.val n n) →
     let op (i : Instr) (g : BitVec w → BitVec w → Bool) : Prop :=
       Answers i s (writesMask s true m d plain fun i => g (velem s c.val w i) (vop s f b false w i))
     op (.vseq f m d c b) (fun a y => a == y) ∧ op (.vsne f m d c b) (fun a y => a != y) ∧
     op (.vslt f m d c b) (fun a y => decide (a.toInt < y.toInt)) ∧
     op (.vsltu f m d c b) (fun a y => decide (a.toNat < y.toNat)) ∧
     op (.vsle f m d c b) (fun a y => decide (a.toInt ≤ y.toInt)) ∧
     op (.vsleu f m d c b) (fun a y => decide (a.toNat ≤ y.toNat))) ∧
  (∀ (bf : Bool) (f : VForm) (m d : MReg) (c b : Reg) (k : Fmt) (s : State), f = .vv ∨ f = .vf → vtypeOk s.th →
     let w := s.th.sew
     let n := s.th.grp
     vfFormat bf w = some k → groupOk s.th c.val n n → (f = .vv → groupOk s.th b.val n n) →
     let op (j : Instr) (g : Nat → Nat → Bool × Flags) : Prop :=
       let r (i : Nat) : Bool × Flags := g (velem s c.val w i).toNat (vop s f b false w i).toNat
       vfpEnds j s (vactive s.th true m) (fun i => (r i).2) (writesMask s true m d butFlags fun i => (r i).1)
     op (.vfeq bf f m d c b) (fEq k) ∧ op (.vflt bf f m d c b) (fLt k) ∧ op (.vfle bf f m d c b) (fLe k))
/-- 09 R119, 05 R45, R67, R135, R137, R138; 11 R155: the checks of the vector instructions in their order, each with its groups: VILL or a
width it does not take 0x09, a register outside the window 0x08, a base that is no multiple of its group or a forbidden overlap 0x04; TVAL
holds the instruction bits, and nothing else changes. -/
def Obligations.VectorChecksTrap : Prop :=
  ∀ (bf x w4 sat : Bool) (f : VForm) (m md : MReg) (d c b : Reg) (sh : Fin 16) (src tgt : VTy) (ew : Ew) (k : RClass) (s : State),
    let n := s.th.grp
    let sew := s.th.sew
    let g (r : Reg) : Nat × Nat × Nat := (r.val, n, n)
    let one (r : Reg) : Nat × Nat × Nat := (r.val, 1, 1)
    let sized (r : Reg) (w : Nat) : Nat × Nat × Nat := (r.val, max 1 (n * w / sew), max 1 (n * w / sew))
    let ks := ((s.th.vlmax + 31) / 32 * (if w4 then 18 else 34) + 63) / 64
    let stream (r : Reg) : Nat × Nat × Nat := (r.val, ks, if ks ≤ 1 then 1 else if ks ≤ 2 then 2 else if ks ≤ 4 then 4 else 8)
    let bs (vv : Prop) : List (Nat × Nat × Nat) := open Classical in if vv then [g b] else []
    let meet (p q : Nat × Nat × Nat) : Prop := ¬ apart p.1 p.2.1 q.1 q.2.1
    let fp (bf : Bool) : Prop := if bf then sew = 16 else sew = 16 ∨ sew = 32 ∨ sew = 64
    let block : Prop := sew = 16 ∨ sew = 32 ∨ sew = 64
(∀ i ∈ ([.vadd f m d c b, .vsub f m d c b, .vrsub f m d c b, .vmul f m d c b, .vmulh f m d c b, .vmulhu f m d c b, .vmacc f m d
      c b, .vnmsac f m d c b, .vand f m d c b, .vor f m d c b, .vxor f m d c b, .vsll f m d c b, .vsrl f m d c b, .vsra f m d c
      b, .vmin f m d c b, .vmax f m d c b, .vminu f m d c b, .vmaxu f m d c b, .vfshl f m d c b, .vfshr f m d c b, .vmerge f m d
      c b] : List Instr), vchecks s True ([g d, g c] ++ bs (f = .vv)) False i) ∧
(∀ i ∈ ([.vclz m d c, .vpopc m d c] : List Instr), vchecks s True [g d, g c] False i) ∧
(∀ i ∈ ([.vmv f d b] : List Instr), vchecks s True (g d :: bs (f = .vv)) False i) ∧
(∀ i ∈ ([.vmvParcel x d b, .vaddParcel x d b, .vsubParcel x d b, .vmulParcel x d b, .vandParcel x d b, .vorParcel x d b,
      .vxorParcel x d b, .vsllParcel x d b, .vsrlParcel x d b, .vminParcel x d b, .vmaxParcel x d b] : List Instr), vchecks s
      True (g d :: bs (x = false)) False i) ∧
(∀ i ∈ ([.vseq f m md c b, .vsne f m md c b, .vslt f m md c b, .vsltu f m md c b, .vsle f m md c b, .vsleu f m md c b] : List
      Instr), vchecks s True (g c :: bs (f = .vv)) False i) ∧
(∀ i ∈ ([.vfadd bf f m d c b, .vfsub bf f m d c b, .vfmul bf f m d c b, .vfdiv bf f m d c b, .vfmacc bf f m d c b, .vfnmacc bf f
      m d c b, .vfmin bf f m d c b, .vfmax bf f m d c b, .vfsgnj bf f m d c b] : List Instr), vchecks s (fp bf) ([g d, g c] ++
      bs (f = .vv)) False i) ∧
(∀ i ∈ ([.vfsqrt bf m d c, .vfclass bf m d c] : List Instr), vchecks s (fp bf) [g d, g c] False i) ∧
(∀ i ∈ ([.vfeq bf f m md c b, .vflt bf f m md c b, .vfle bf f m md c b] : List Instr), vchecks s (fp bf) (g c :: bs (f = .vv))
      False i) ∧
(∀ i ∈ ([.vfaddParcel x d b, .vfsubParcel x d b, .vfmulParcel x d b, .vfmaxParcel x d b, .vfminParcel x d b] : List Instr),
      vchecks s (fp false) (g d :: bs (x = false)) False i) ∧
(∀ i ∈ ([.vredsum m d c b, .vredmax m d c b, .vredmaxu m d c b, .vredmin m d c b, .vredminu m d c b, .vredand m d c b, .vredor m
      d c b] : List Instr), vchecks s True [one d, g c, one b] False i) ∧
(∀ i ∈ ([.vfredosum m d c b, .vfredtsum m d c b, .vfredmax m d c b, .vfredmin m d c b] : List Instr), vchecks s (fp false) [one
      d, g c, one b] False i) ∧
(∀ i ∈ ([.vslideup f m d c b, .vslidedn f m d c b, .vslide1up m d c b, .vslide1dn m d c b, .vcompress d c m] : List Instr),
      vchecks s True [g d, g c] (meet (g d) (g c)) i) ∧
vchecks s True ([g d, g c] ++ bs (f = .vv)) (meet (g d) (g c) ∨ (f = .vv ∧ meet (g d) (g b))) (.vgather f m d c b) ∧
vchecks s True [g d] False (.vid m d) ∧ vchecks s True [g d] False (.vinsert d c b) ∧ vchecks s True [g c] False (.vextract f d
      c b) ∧
(∀ i ∈ ([.mand md m m, .mor md m m, .mxor md m m, .mandn md m m, .msbf md m, .mpopc d m, .mfirst d m] : List Instr), vchecks s
      True [] False i) ∧
vchecks s (sew = max src.width tgt.width) [sized d tgt.width, sized c src.width] (src.width ≠ tgt.width ∧ meet (sized d
      tgt.width) (sized c src.width)) (.vcvt src tgt sat m d c) ∧
vchecks s block [sized d tgt.width, g c, one b] (meet (sized d tgt.width) (g c) ∨ meet (sized d tgt.width) (one b) ∨ meet (g c)
      (one b)) (.vqscale tgt d c b) ∧
vchecks s block [stream d, g c] (meet (stream d) (g c)) (.vdxbpack w4 sh d c) ∧
vchecks s block [g d, stream c] (meet (g d) (stream c)) (.vdxbunpack w4 d c) ∧
(∀ i ∈ ([.vld ew k m d b, .vldff ew k m d b, .vlds ew k m d b c, .vst ew k m d b, .vsts ew k m d b c, .vstb ew k m d b, .vstz ew
      k d b c, .vldz ew k d b c] : List Instr), vchecks s (ewBits ew = sew) [g d] False i) ∧
vchecks s True [g d, sized c (ewBits ew)] (meet (g d) (sized c (ewBits ew))) (.vldx ew k m d b c) ∧
vchecks s True [g d, sized c (ewBits ew)] False (.vstx ew k m d b c)

/-- 09 R126, R121; 05 R46: the vector floating-point instructions with a group as destination, and the parcels of lane operations 11 to
15, in every form and format. -/
def Obligations.VectorFloatResults : Prop :=
  ∀ (bf : Bool) (f : VForm) (m : MReg) (d c b : Reg) (k : Fmt) (s : State), f = .vv ∨ f = .vf → vtypeOk s.th →
    let w := s.th.sew
    let n := s.th.grp
    let rm := rmOf s.th.fcsr
    vfFormat bf w = some k →
    groupOk s.th d.val n n → groupOk s.th c.val n n → (f = .vv → groupOk s.th b.val n n) →
    let x (i : Nat) : Nat := (velem s c.val w i).toNat
    let y (i : Nat) : Nat := (vop s f b false w i).toNat
    let z (i : Nat) : Nat := (velem s d.val w i).toNat
    let op (j : Instr) (m : MReg) (len : Word) (r : Nat → Nat × Flags) : Prop :=
      vfpEnds j s (vactive s.th true m) (fun i => (r i).2)
        (writesV s true m d.val n w s.th.vlmax (fun _ => False) len butFlags fun i => BitVec.ofNat w (r i).1)
    op (.vfadd bf f m d c b) m 4 (fun i => fAdd k rm (x i) (y i)) ∧
    op (.vfsub bf f m d c b) m 4 (fun i => fSub k rm (x i) (y i)) ∧
    op (.vfmul bf f m d c b) m 4 (fun i => fMul k rm (x i) (y i)) ∧
    op (.vfdiv bf f m d c b) m 4 (fun i => fDiv k rm (x i) (y i)) ∧
    op (.vfsqrt bf m d c) m 4 (fun i => fSqrt k rm (x i)) ∧
    op (.vfmacc bf f m d c b) m 4 (fun i => fFma k rm (x i) (y i) (z i)) ∧
    op (.vfnmacc bf f m d c b) m 4 (fun i => fNma k rm (x i) (y i) (z i)) ∧
    op (.vfmin bf f m d c b) m 4 (fun i => fMinMax k false (x i) (y i)) ∧
    op (.vfmax bf f m d c b) m 4 (fun i => fMinMax k true (x i) (y i)) ∧
    op (.vfsgnj bf f m d c b) m 4 (fun i => (fSgnj k (x i) (y i), 0)) ∧
    op (.vfclass bf m d c) m 4 (fun i => (fClass k (x i), 0)) ∧
    (bf = false →
      op (.vfaddParcel (f == .vf) d b) 0 2 (fun i => fAdd k rm (z i) (y i)) ∧
      op (.vfsubParcel (f == .vf) d b) 0 2 (fun i => fSub k rm (z i) (y i)) ∧
      op (.vfmulParcel (f == .vf) d b) 0 2 (fun i => fMul k rm (z i) (y i)) ∧
      op (.vfmaxParcel (f == .vf) d b) 0 2 (fun i => fMinMax k true (z i) (y i)) ∧
      op (.vfminParcel (f == .vf) d b) 0 2 (fun i => fMinMax k false (z i) (y i)))

/-- 09 R127, R128, R121: the reductions fold the active elements of vC, in ascending order (the tree sum over the tree of VLMAX
positions), with element 0 of vB into element 0 of vA; the rest of that register is tail; with no active element the initial value stands;
an enabled flag traps. -/
def Obligations.ReductionResults : Prop :=
  (∀ (m : MReg) (d c b : Reg) (s : State), vtypeOk s.th →
     let w := s.th.sew
     groupOk s.th d.val 1 1 → groupOk s.th c.val s.th.grp s.th.grp → groupOk s.th b.val 1 1 →
     let act := (List.range s.th.vl.toNat).filter fun i => (s.th.rdM m).getLsbD i
     let op (i : Instr) (g : BitVec w → BitVec w → BitVec w) : Prop := Answers i s fun t =>
       (∀ i, i < 512 / w → velem t d.val w i =
         if s.th.vl.toNat = 0 then velem s d.val w i
         else if i = 0 then act.foldl (fun v j => g v (velem s c.val w j)) (velem s b.val w 0)
         else if s.th.vtype.getLsbD 5 then BitVec.allOnes w else velem s d.val w i) ∧
       vcompleted s t d.val 1 4 plain
     op (.vredsum m d c b) (fun x y => x + y) ∧
     op (.vredmax m d c b) (fun x y => if x.toInt < y.toInt then y else x) ∧
     op (.vredmaxu m d c b) (fun x y => if x.toNat < y.toNat then y else x) ∧
     op (.vredmin m d c b) (fun x y => if y.toInt < x.toInt then y else x) ∧
     op (.vredminu m d c b) (fun x y => if y.toNat < x.toNat then y else x) ∧
     op (.vredand m d c b) (fun x y => x &&& y) ∧ op (.vredor m d c b) (fun x y => x ||| y)) ∧
  (∀ (m : MReg) (d c b : Reg) (k : Fmt) (s : State), vtypeOk s.th →
     let w := s.th.sew
     vfFormat false w = some k →
     groupOk s.th d.val 1 1 → groupOk s.th c.val s.th.grp s.th.grp → groupOk s.th b.val 1 1 → s.th.vl.toNat ≠ 0 →
     let rm := rmOf s.th.fcsr
     let act := (List.range s.th.vl.toNat).filter fun i => (s.th.rdM m).getLsbD i
     let x (i : Nat) : Nat := (velem s c.val w i).toNat
     let init := (velem s b.val w 0).toNat
     let seq (g : Nat → Nat → Nat × Flags) : Folded := foldSeq g init (act.map fun i => (i, x i))
     let op (j : Instr) (r : Folded) : Prop :=
       let r : Folded := if act = [] then (init, []) else r
       (trapFlag s.th.fcsr (unionFlags r.2) = none → Answers j s fun t =>
         (∀ i, i < 512 / w → velem t d.val w i =
           if i = 0 then BitVec.ofNat w r.1
           else if s.th.vtype.getLsbD 5 then BitVec.allOnes w else velem s d.val w i) ∧
         t.th.fcsr = s.th.fcsr ||| (unionFlags r.2).zeroExtend 64 ∧ vcompleted s t d.val 1 4 butFlags) ∧
       (∀ k, trapFlag s.th.fcsr (unionFlags r.2) = some k →
         Answers j s (trapped s (BitVec.ofNat 8 (0x48 + k)) (BitVec.ofNat 64 (lowestWith k r.2))))
     op (.vfredosum m d c b) (seq (fAdd k rm)) ∧
     op (.vfredtsum m d c b) (foldTree (fAdd k rm) s.th.vlmax init
       fun i => if i < s.th.vl.toNat ∧ (s.th.rdM m).getLsbD i then some (x i) else none) ∧
     op (.vfredmax m d c b) (seq (fMinMax k true)) ∧ op (.vfredmin m d c b) (seq (fMinMax k false)))
/-- 09 R129 to R133: VID, the slides and VGATHER; elements beyond VLMAX read 0; VSTART is ignored; elements below the offset of VSLIDEUP
are kept. VCOMPRESS packs the selected elements to the front and its tail begins after them; VEXTRACT reads one element whatever VL is;
VINSERT writes one element below VL. -/
def Obligations.PermutationResults : Prop :=
  (∀ (f : VForm) (m : MReg) (d c b : Reg) (s : State), vtypeOk s.th →
     let w := s.th.sew
     let n := s.th.grp
     let vm := s.th.vlmax
     groupOk s.th d.val n n → groupOk s.th c.val n n → apart d.val n c.val n →
     let src (j : Nat) : BitVec w := if j < vm then velem s c.val w j else 0
     let k : Nat := match f with | .vi => b.val | _ => (s.g b).toNat
     let idx : Nat := match f with | .vi => ((BitVec.ofNat 5 b.val).signExtend 64).toNat | _ => (s.g b).toNat
     let op (i : Instr) (keep : Nat → Prop) (new : Nat → BitVec w) : Prop :=
       Answers i s (writesV s false m d.val n w vm keep 4 plain new)
     op (.vid m d) (fun _ => False) (fun i => BitVec.ofNat w i) ∧
     op (.vslideup f m d c b) (fun i => i < k) (fun i => src (i - k)) ∧
     op (.vslidedn f m d c b) (fun _ => False) (fun i => src (i + k)) ∧
     op (.vslide1up m d c b) (fun _ => False) (fun i => if i = 0 then (s.g b).truncate w else src (i - 1)) ∧
     op (.vslide1dn m d c b) (fun _ => False)
       (fun i => if i + 1 < s.th.vl.toNat then src (i + 1) else (s.g b).truncate w) ∧
     (f ≠ .vv → op (.vgather f m d c b) (fun _ => False) (fun _ => src idx)) ∧
     (groupOk s.th b.val n n → apart d.val n b.val n →
       op (.vgather .vv m d c b) (fun _ => False) (fun i => src (velem s b.val w i).toNat))) ∧
  (∀ (f : VForm) (mk : MReg) (d c b : Reg) (s : State), vtypeOk s.th →
     let w := s.th.sew
     let n := s.th.grp
     let vl := s.th.vl.toNat
     let sel := (List.range vl).filter fun i => (s.th.rdM mk).getLsbD i
     let idx : Nat := match f with | .vi => ((BitVec.ofNat 5 b.val).signExtend 64).toNat | _ => (s.g b).toNat
     (groupOk s.th d.val n n → groupOk s.th c.val n n → apart d.val n c.val n →
       Answers (.vcompress d c mk) s fun t =>
         (∀ i, i < s.th.vlmax → velem t d.val w i =
           if vl = 0 then velem s d.val w i
           else if i < sel.length then velem s c.val w (sel.getD i 0)
           else if s.th.vtype.getLsbD 5 then BitVec.allOnes w else velem s d.val w i) ∧
         vcompleted s t d.val n 4 plain) ∧
     (groupOk s.th c.val n n →
       Answers (.vextract f d c b) s fun t =>
         (∀ r : Reg, t.g r = if r = d ∧ d ≠ 0 then
           (if idx < s.th.vlmax then (velem s c.val w idx).signExtend 64 else 0) else s.g r) ∧
         vcompleted s t 0 0 4 fun x => { x with g := .empty, oldG := [] }) ∧
     (groupOk s.th d.val n n →
       Answers (.vinsert d c b) s fun t =>
         (∀ i, i < s.th.vlmax → velem t d.val w i =
           if i = (s.g c).toNat ∧ i < vl then (s.g b).truncate w else velem s d.val w i) ∧
         vcompleted s t d.val n 4 plain))
/-- 09 R134: the mask instructions: mask to mask over bits 0 to vl − 1 with the rest as tail, and the two scalar results, which are
written whatever VL is. -/
def Obligations.MaskInstructionResults : Prop :=
  ∀ (d b c : MReg) (r : Reg) (s : State), vtypeOk s.th →
    let x (i : Nat) : Bool := (s.th.rdM b).getLsbD i
    let y (i : Nat) : Bool := (s.th.rdM c).getLsbD i
    let op (i : Instr) (new : Nat → Bool) : Prop := Answers i s (writesMask s false 0 d plain new)
    let scalar (i : Instr) (v : Word) : Prop := Answers i s fun t =>
      (∀ q : Reg, t.g q = if q = r ∧ r ≠ 0 then v else s.g q) ∧
      vcompleted s t 0 0 4 fun x => { x with g := .empty, oldG := [] }
    op (.mand d b c) (fun i => x i && y i) ∧ op (.mor d b c) (fun i => x i || y i) ∧
    op (.mxor d b c) (fun i => x i != y i) ∧ op (.mandn d b c) (fun i => x i && !y i) ∧
    op (.msbf d c) (fun i => (List.range (i + 1)).all fun j => !y j) ∧
    scalar (.mpopc r c) (BitVec.ofNat 64 ((List.range s.th.vl.toNat).filter y).length) ∧
    (∀ i, i < s.th.vl.toNat → y i = true → (∀ j, j < i → y j = false) → scalar (.mfirst r c) (BitVec.ofNat 64 i)) ∧
    ((∀ i, i < s.th.vl.toNat → y i = false) → scalar (.mfirst r c) (BitVec.allOnes 64))

/-- 09 R135, R136; 03 R38, R39: VCVT converts element by element between the widths of its types, with the flags of each conversion; and
the conversion of one element, by kind of source value and target: RoundInt under each mode; NaN, infinities and what lies beyond the
range of an integer target; integers to integers; what rounds to a floating-point format, with the fates of NaN, infinities and values
beyond its range. That a value's range is judged on the rounded integer is the model's choice (log entry 52), and what conversions between
integers of one width do is too (log entry 22). -/
def Obligations.VectorConversionResults : Prop :=
  (∀ (src tgt : VTy) (rm : RMode) (sat : Bool) (v : Nat), v < 2 ^ src.width →
     let w := tgt.width
     let lo : Int := if tgt = .uint8 then 0 else -2 ^ (w - 1)
     let hi : Int := if tgt = .uint8 then 2 ^ w - 1 else 2 ^ (w - 1) - 1
     let code (z : Int) : Nat := (z % 2 ^ w).toNat
     let x : Int := if src = .uint8 then v else (BitVec.ofNat src.width v).toInt
     let r := convert src tgt rm sat v
     (∀ f, src.fp = some f → tgt.fp = none →
       (∀ q, decodeF f v = .nan q → r = (0, fNV)) ∧
       (∀ n, decodeF f v = .inf n → r = (code (if n then lo else hi), fNV)) ∧
       (∀ n m e, decodeF f v = .fin n m e →
         let z := (roundInt rm n m e).1
         r = (code (clamped lo hi z), if z < lo ∨ hi < z then fNV else if (roundInt rm n m e).2 then fNX else 0))) ∧
     (∀ f k, src.fp = some f → tgt.fp = some k → r = roundTo k rm sat (decodeF f v)) ∧
     (∀ k, src.fp = none → tgt.fp = some k → r = roundTo k rm sat (.fin (decide (x < 0)) x.natAbs 0)) ∧
     (src.fp = none → tgt.fp = none → r = (code (if w ≤ src.width ∧ sat = true then clamped lo hi x else x), 0))) ∧
  (∀ (rm : RMode) (n : Bool) (m : Nat) (e : Int),
     let num : Int := (if n then -1 else 1) * (m * 2 ^ e.toNat)
     let den : Nat := 2 ^ (-e).toNat
     roundsTo rm num den (roundInt rm n m e).1 ∧ ((roundInt rm n m e).2 = true ↔ num ≠ den * (roundInt rm n m e).1)) ∧
  (∀ k ∈ [FP64, FP32, FP16, BF16, E4M3, E5M2], ∀ (rm : RMode) (sat n : Bool),
     (∀ q, roundTo k rm sat (.nan q) = (k.canonNaN, if q then fNV else 0)) ∧
     roundTo k rm true (.inf n) = (k.sign n k.maxCode, fNV) ∧
     (k ≠ E4M3 → roundTo k rm false (.inf n) = (k.sign n k.infCode, 0)) ∧ roundTo E4M3 rm false (.inf n) = (E4M3.canonNaN, fNV) ∧
     (∀ (m : Nat) (e : Int), m ≠ 0 → 2 ^ (k.emax + 1 - e).toNat ≤ m →
       let away : Prop := rm = .rne ∨ (rm = .rup ∧ n = false) ∨ (rm = .rdn ∧ n = true)
       (sat = true ∨ ¬ away → roundTo k rm sat (.fin n m e) = (k.sign n k.maxCode, fOF ||| fNX)) ∧
       (sat = false → away → roundTo k rm sat (.fin n m e) =
         (if k = E4M3 then k.canonNaN else k.sign n k.infCode, fOF ||| fNX)))) ∧
  ∀ (src tgt : VTy) (sat : Bool) (m : MReg) (d c : Reg) (s : State), src ≠ tgt → vtypeOk s.th →
    s.th.sew = max src.width tgt.width →
    let n (w : Nat) : Nat := max 1 (s.th.grp * w / s.th.sew)
    groupOk s.th d.val (n tgt.width) (n tgt.width) → groupOk s.th c.val (n src.width) (n src.width) →
    (src.width ≠ tgt.width → apart d.val (n tgt.width) c.val (n src.width)) →
    let r (i : Nat) : Nat × Flags := convert src tgt (rmOf s.th.fcsr) sat (velem s c.val src.width i).toNat
    vfpEnds (.vcvt src tgt sat m d c) s (vactive s.th true m) (fun i => (r i).2)
      (writesV s true m d.val (n tgt.width) tgt.width s.th.vlmax (fun _ => False) 4 butFlags
        fun i => BitVec.ofNat tgt.width (r i).1)

/-- 09 R137 to R140; 03 R40, R41: VQSCALE quantises blocks of 32 elements, each to the scale of its greatest magnitude, and writes one
scale byte for each block; VDXBPACK writes the blocks of its elements as a stream, byte by byte; VDXBUNPACK writes the elements that the
blocks of a stream hold; tails follow TA. And what they are made of: the greatest magnitude, the scale of a block, a quantised element,
and the two exponents, selectors and mantissas of a DXB block. -/
def Obligations.BlockFormatResults : Prop :=
  (∀ (l : List FVal), ((∃ x ∈ l, x.isNaN = true) → (amaxV l).isNaN = true) ∧
     ((∀ x ∈ l, x.isNaN = false) → (∀ x ∈ l, 0 ≤ cmpV (amaxV l) x.abs) ∧ ((∃ x ∈ l, amaxV l = x.abs) ∨ amaxV l = .fin false 0 0))) ∧
  (∀ (n q : Bool) (m j : Nat) (e emax : Int), blockScale (.nan q) emax = 0xFF ∧ blockScale (.inf n) emax = 0xFF ∧
     blockScale (.fin n 0 e) emax = 0x7F ∧
     (2 ^ j ≤ m → m < 2 ^ (j + 1) → blockScale (.fin n m e) emax = (clamped 0 254 (j + e - emax + 127)).toNat)) ∧
  (∀ (tgt : VTy) (c m : Nat) (n : Bool) (e : Int) (x : FVal), quantise tgt 0xFF x = 0 ∧
     (∀ k, c ≠ 0xFF → tgt.fp = some k → quantise tgt c (.fin n m e) = (roundTo k .rne true (.fin n m (e + 127 - c))).1) ∧
     (c ≠ 0xFF → tgt = .int8 →
       quantise tgt c (.fin n m e) = (clamped (-128) 127 (roundInt .rne n m (e + 127 - c)).1 % 256).toNat)) ∧
  (∀ (w4 : Bool) (shift : Nat) (x : List FVal),
     let z := dxbEncode w4 shift x
     ((∃ v ∈ x, v.isNaN = true ∨ v.isInf = true) → z = (0xFF, 0xFF, x.map fun _ => 0)) ∧
     ((∀ v ∈ x, v.isNaN = false ∧ v.isInf = false) →
       let e0 := blockScale (amaxV x) (if w4 then 0 else -1)
       z.1 = e0 ∧ z.2.1 = e0 - shift ∧ z.2.2.length = x.length ∧
       ∀ (i : Nat) (n : Bool) (m : Nat) (e : Int), x[i]? = some (FVal.fin n m e) →
         let bits := if w4 then 2 else 6
         let under (e' : Nat) : Nat := (roundInt .rne false m (e + (if w4 then 1 else 6) + 127 - e')).1.toNat
         z.2.2[i]? = some ((if n then 2 ^ (bits + 1) else 0) +
           if under (e0 - shift) < 2 ^ bits then 2 ^ bits + under (e0 - shift) else min (under e0) (2 ^ bits - 1)))) ∧
  (∀ (tgt : VTy) (d c b : Reg) (k : Fmt) (s : State), tgt.isScaleTarget = true → vtypeOk s.th →
     let w := s.th.sew
     let nd := max 1 (s.th.grp * tgt.width / w)
     let vl := s.th.vl.toNat
     blockSource w = some k → groupOk s.th d.val nd nd → groupOk s.th c.val s.th.grp s.th.grp → groupOk s.th b.val 1 1 →
     apart d.val nd c.val s.th.grp → apart d.val nd b.val 1 → apart c.val s.th.grp b.val 1 → vl ≠ 0 →
     let val (i : Nat) : FVal := decodeF k (velem s c.val w i).toNat
     let scale (j : Nat) : Nat := blockScale
       (amaxV ((((List.range 32).map (32 * j + ·)).filter (· < vl)).map fun i => (val i).abs)) (scaleEmax tgt)
     Answers (.vqscale tgt d c b) s fun t =>
       (∀ i, i < s.th.vlmax → velem t d.val tgt.width i =
         if i < vl then BitVec.ofNat tgt.width (quantise tgt (scale (i / 32)) (val i))
         else if s.th.vtype.getLsbD 5 then BitVec.allOnes tgt.width else velem s d.val tgt.width i) ∧
       (∀ j, j < 64 → velem t b.val 8 j = if j < (vl + 31) / 32 then BitVec.ofNat 8 (scale j) else velem s b.val 8 j) ∧
       (∃ dist, completed s t (s.th.pc + 4) dist) ∧ t.th.vstart = 0 ∧
       { still t.th with vstart := 0, oldV := [] } = { still s.th with vstart := 0, oldV := [] } ∧
       (∀ p, p < s.th.winBase + d ∨ s.th.winBase + d + nd ≤ p → p ≠ s.th.winBase + b →
         (t.core (s.cur / 16)).vf.get 0 p = (s.core (s.cur / 16)).vf.get 0 p) ∧
       (∀ c, { t.core c with vf := (s.core c).vf, vbad := (s.core c).vbad } = s.core c) ∧ (∀ c, c ≠ s.cur / 16 → t.core c = s.core c) ∧
       { t with threads := s.threads, cores := s.cores } = s ∧ (∀ u, u ≠ s.cur → t.thread u = s.thread u)) ∧
  (∀ (w4 : Bool) (sh : Fin 16) (d c : Reg) (k : Fmt) (s : State), sh ≠ 0 → vtypeOk s.th →
     let w := s.th.sew
     let n := s.th.grp
     let vl := s.th.vl.toNat
     let y := if w4 then 18 else 34
     let ks := ((s.th.vlmax + 31) / 32 * y + 63) / 64
     let al := if ks ≤ 1 then 1 else if ks ≤ 2 then 2 else if ks ≤ 4 then 4 else 8
     let nb := (vl + 31) / 32
     blockSource w = some k →
     (groupOk s.th d.val ks al → groupOk s.th c.val n n → apart d.val ks c.val n →
       let elem (i : Nat) : FVal := if i < vl then decodeF k (velem s c.val w i).toNat else .fin false 0 0
       let block (j : Nat) : List Nat :=
         blockBytes w4 (dxbEncode w4 sh.val ((List.range 32).map fun e => elem (32 * j + e)))
       Answers (.vdxbpack w4 sh d c) s fun t =>
         (∀ p, p < 64 * ks → velem t d.val 8 p =
           if p < y * nb then BitVec.ofNat 8 ((block (p / y)).getD (p % y) 0)
           else if s.th.vtype.getLsbD 5 then 0xFF else velem s d.val 8 p) ∧
         vcompleted s t d.val ks 4 plain) ∧
     (groupOk s.th d.val n n → groupOk s.th c.val ks al → apart d.val n c.val ks →
       Answers (.vdxbunpack w4 d c) s fun t =>
         (∀ i, i < s.th.vlmax → velem t d.val w i =
           if i < vl then BitVec.ofNat w (roundTo k .rne false
             (blockElem w4 (fun p => (velem s c.val 8 (y * (i / 32) + p)).toNat) (i % 32))).1
           else if s.th.vtype.getLsbD 5 then BitVec.allOnes w else velem s d.val w i) ∧
         vcompleted s t d.val n 4 plain))
/-! ### Vector memory -/

/-- 11 R155 to R159: the vector loads and stores of the own local store, of no more than VLMAX elements (03 R31; StepKeepsMemoryForm
states that every step keeps VL so), by unit stride, stride and index, with the mask, VSTART and the policies; an element that fails;
VLDFF; and VSTB, which stores the selected bytes of the group, or none when one fails. -/
def Obligations.VectorLoadsAndStores : Prop :=
  ∀ (ew : Ew) (k : RClass) (m : MReg) (v b c : Reg) (s : State), vtypeOk s.th → s.th.vl.toNat ≤ s.th.vlmax →
    groupOk s.th v.val s.th.grp s.th.grp →
    let w := s.th.sew
    let wi := ewBits ew
    let ni := max 1 (s.th.grp * wi / w)
    let act := vactive s.th true m
    let unit (j : Nat) : Word := addOff (s.g b) ((j * (w / 8) : Nat) : Int)
    let strided (j : Nat) : Word := addOff (s.g b) ((s.g c).toInt * j)
    let indexed (j : Nat) : Word := addOff (s.g b) (((velem s c.val wi j).toNat : Nat) : Int)
    let byte (j x : Nat) : Byte := velem s v.val 8 (j * (w / 8) + x)
    let z := w / 8
    let vl := s.th.vl.toNat
    (wi = w → vloads (.vld ew k m v b) s false m v unit ∧ vloads (.vldff ew k m v b) s true m v unit ∧
      vloads (.vlds ew k m v b c) s false m v strided ∧
      vstores (.vst ew k m v b) s act vl z (fun _ => z) unit byte ∧
      vstores (.vsts ew k m v b c) s act vl z (fun _ => z) strided byte ∧
      vstores (.vstb ew k m v b) s (fun i => (s.th.rdM m).getLsbD i = true) (vl * z) 1 (fun _ => 1)
        (fun i => addOff (s.g b) (i : Int)) (fun i _ => velem s v.val 8 i) ∧
      (∀ i e, i < vl * z → (s.th.rdM m).getLsbD i = true →
        (∀ j, j < i → (s.th.rdM m).getLsbD j = true →
          ∃ loc, s.access s.cur (addOff (s.g b) (j : Int)) 1 1 .store needW = (.ok loc, s) ∧ ownLs s loc) →
        s.access s.cur (addOff (s.g b) (i : Int)) 1 1 .store needW = (.bad e, s) →
        Answers (.vstb ew k m v b) s (trapped s e (addOff (s.g b) (i : Int))))) ∧
    (groupOk s.th c.val ni ni →
      (apart v.val s.th.grp c.val ni → vloads (.vldx ew k m v b c) s false m v indexed) ∧
      vstores (.vstx ew k m v b c) s act vl z (fun _ => z) indexed byte)

/-- 11 R160 to R162: VSTZ completes with the record of its elements stored into the own local store, or raises 0x62 when the record is
longer than the size given (a thread that issues an instruction waits for nothing; the store clause says so as a premise, since no step
issues from any other state); VLDZ of a region that holds the record of some elements completes with those elements loaded, 0 where the
record is shorter than VL, with the tail under TA. -/
def Obligations.CompressedRecords : Prop :=
  ∀ (ew : Ew) (k : RClass) (v b c : Reg) (s : State), vtypeOk s.th → ewBits ew = s.th.sew →
    groupOk s.th v.val s.th.grp s.th.grp → s.th.vl ≠ 0 →
    let w := s.th.sew
    let vl := s.th.vl.toNat
    let rec' := compress w ((List.range vl).map fun i => (velem s v.val w i).toNat)
    ((s.g c).toNat < rec'.length →
      Answers (.vstz ew k v b c) s (trapped s 0x62 (s.g b + BitVec.ofNat 64 rec'.length))) ∧
    (rec'.length ≤ (s.g c).toNat → s.th.wait = none → vstores (.vstz ew k v b c) s (fun _ => True) rec'.length 1
      (fun i => if i = 0 then 8 else 1) (fun i => addOff (s.g b) (i : Int)) (fun i _ => rec'.getD i 0)) ∧
    (∀ (vals : List Nat) (l : Nat), (∀ x ∈ vals, x < 2 ^ w) → vals.length ≤ s.th.vlmax →
      let r := compress w vals
      ownRegion s (s.g b) r.length l → r.length ≤ (s.g c).toNat → readMem s.mem l r.length = r →
      Answers (.vldz ew k v b c) s fun t =>
        (∀ i, i < s.th.vlmax → velem t v.val w i =
          if i < vl then BitVec.ofNat w (vals.getD i 0)
          else if s.th.vtype.getLsbD 5 then BitVec.allOnes w else velem s v.val w i) ∧
        vmcompleted s t v.val s.th.grp ∧ sameMemory s t)

/-! ### Ordering -/

/-- 11 R163, R164; 13 R166: FENCE completes when nothing it names is outstanding, and discards fetched parcels when it names path I and a
class; no engine that reads the own local store from then on finds what the stores it named, or any before them to the same doubleword,
replaced (23 R253); else it waits. Where it names path M it first raises a recorded matrix error, which is then clear. IFENCE waits for
the thread's stores and discards the fetched parcels. -/
def Obligations.FencesWaitForWhatTheyName : Prop :=
  ∀ (paths : BitVec 6) (sc : Scope) (classes : BitVec 3) (s : State),
    let k := s.cur / 16
    let ends (i : Instr) (fetched : List (Word × BitVec 16 × Nat)) (past : State → Prop) : Prop :=
      Answers i s fun t => completed s t (s.th.pc + 4) 4 ∧ still t.th = still { s.th with fetched := fetched } ∧
        past t ∧ { t with threads := s.threads, cores := s.cores } = s ∧ { t.core k with past := (s.core k).past } = s.core k ∧
        (∀ c, c ≠ k → t.core c = s.core c) ∧ (∀ u, u ≠ s.cur → t.thread u = s.thread u)
    let covered (e : Past) : Prop := e.tid = s.cur ∧ classes.getLsbD (RClass.bit e.cls) = true
    let settles (t : State) : Prop := ∀ e, e ∈ (t.core k).past ↔ ∃ newer older, (s.core k).past = newer ++ e :: older ∧ e.left ≠ 0 ∧
      ∀ x ∈ newer ++ [e], x.word = e.word → ¬ covered x
    ((paths.getLsbD 2 = true → s.th.mxErr = none) →
      (¬ unperformed s paths classes → ends (.fence paths sc classes)
        (if paths.getLsbD 5 = true ∧ classes ≠ 0 then [] else s.th.fetched)
        (fun t => if paths.getLsbD 0 = true then settles t else t.cores = s.cores)) ∧
      (unperformed s paths classes → Answers (.fence paths sc classes) s (waits s (.fence paths classes) .performed []))) ∧
    (∀ e, paths.getLsbD 2 = true → s.th.mxErr = some e →
      Answers (.fence paths sc classes) s fun t => trappedAt s s.cur e.cause e.tval t ∧ t.th.mxErr = none) ∧
    ((∀ r ∈ s.net, r.tid? = some s.cur → r.isWrite = false) → ends .ifence [] (fun t => t.cores = s.cores)) ∧
    ((∃ r ∈ s.net, r.tid? = some s.cur ∧ r.isWrite = true) → Answers .ifence s (waits s .ifence .performed []))

/-! ### Neighbour ports, events and buffers -/

/-- 13 R188 to R191, 01 R13: a push takes a credit and its entry goes on the link; a pop or peek delivers the entry at the head of its
queue, and a pop gives a credit back; without a link they raise 0x80; without credit or entry they wait, as does a push with .RL while an
earlier access is outstanding. NSTAT reads the state of a direction. Where a pop's fields A and C name one register, which of its two
values stands is left open (log entry 24). -/
def Obligations.NeighbourPorts : Prop :=
  ∀ (f : Bool) (dir : Dir) (a b c : Reg) (s : State),
    let x := s.th
    let pushes (i : Instr) (data : Vec) (vec : Bool) : Prop :=
      let act := Act.npush (ibits i) f dir data vec ((s.g c).truncate 8)
      (∀ u, s.receiver s.cur dir = some u →
        (x.credit dir = 0 → Answers i s (waits s act .cond [])) ∧
        (x.credit dir ≠ 0 → f = true → (∃ r ∈ s.net, r.tid? = some s.cur) → Answers i s (waits s act .performed [])) ∧
        (x.credit dir ≠ 0 → (f = true → ∀ r ∈ s.net, r.tid? ≠ some s.cur) → Answers i s fun t =>
          completed s t (x.pc + 4) 4 ∧ t.th.credit dir = x.credit dir - 1 ∧
          (∀ o, o ≠ dir → t.th.credit o = x.credit o) ∧
          (∃ en : Entry, t.transit = s.transit ++ [(u, Dir.opp dir, en)] ∧ en.data = data ∧ en.vec = vec ∧
            en.tag = (s.g c).truncate 8 ∧
            en.stamp = (if s.cur / 16384 = u / 16384 then none else some (s.die (s.cur / 16384)).k)) ∧
          (if s.cur / 16384 = u / 16384 then owes t (s.now + 2) .neighbourEntryLand (Arg.dirOf u (Dir.opp dir))
            else comes t .neighbourEntryLand (Arg.dirOf u (Dir.opp dir))) ∧
          { still t.th with credits := .empty } = { still x with credits := .empty } ∧ elsewhere s t s.cur)) ∧
      (s.receiver s.cur dir = none → Answers i s (trapped s 0x80 (ibits i)))
    let pops (i : Instr) (vec peek aq : Bool) : Prop :=
      (∀ g, s.feeder s.cur dir = some g →
        (x.queue dir = [] → Answers i s (waits s (.npop (ibits i) dir a c vec peek aq) .cond [])) ∧
        (∀ e rest, x.queue dir = e :: rest → Answers i s fun t =>
          (∀ r : Reg, t.g r =
            if r = 0 then 0
            else if vec = false ∧ r = a ∧ r ≠ c then e.data.truncate 64
            else if r = c ∧ (vec = true ∨ r ≠ a) then e.tag.zeroExtend 64
            else if vec = false ∧ r = a ∧ r = c then t.g r
            else s.g r) ∧
          (vec = false → a = c → a ≠ 0 → t.g a = e.data.truncate 64 ∨ t.g a = e.tag.zeroExtend 64) ∧
          (vec = true → t.vreg s.cur a.val = e.data) ∧
          (∀ p, vec = false ∨ p ≠ x.winBase + a.val → (t.core (s.cur / 16)).vf.get 0 p = (s.core (s.cur / 16)).vf.get 0 p) ∧
          t.th.queue dir = (if peek then e :: rest else rest) ∧ (∀ o, o ≠ dir → t.th.queue o = x.queue o) ∧
          t.creditsBack = s.creditsBack ++ (if peek then [] else [(g, Dir.opp dir)]) ∧
          (peek = false → comes t .neighbourCreditReturn (Arg.dirOf g (Dir.opp dir))) ∧
          (∃ dist, completed s t (x.pc + 4) dist) ∧ t.th.m = x.m ∧ t.th.acc = x.acc ∧ t.th.fcsr = x.fcsr ∧
          (∀ u, u ≠ s.cur → t.thread u = s.thread u) ∧ sameMemory s t)) ∧
      (s.feeder s.cur dir = none → Answers i s (trapped s 0x80 (ibits i)))
    pushes (.npush f dir b c) ((s.g b).zeroExtend 512) false ∧
    (b.val < x.winSize → pushes (.npushv f dir b c) (s.vreg s.cur b.val) true) ∧
    (x.winSize ≤ b.val → Answers (.npushv f dir b c) s (trapped s 0x08 (ibits (.npushv f dir b c)))) ∧
    pops (.npop f dir a c) false false f ∧
    (a.val < x.winSize → pops (.npopv f dir a c) true false f) ∧
    (x.winSize ≤ a.val → Answers (.npopv f dir a c) s (trapped s 0x08 (ibits (.npopv f dir a c)))) ∧
    pops (.npeek dir a c) false true false ∧
    (∃ v : Word, Answers (.nstat dir a) s (writesG s a v 4) ∧
      (s.feeder s.cur dir ≠ none → s.receiver s.cur dir ≠ none → (x.queue dir).length ≤ 4 → x.credit dir ≤ 4 →
        v.toNat % 8 = (x.queue dir).length ∧ v.toNat / 8 % 8 = x.credit dir ∧ v.getLsbD 6 = true ∧ v.getLsbD 16 = true ∧
        (∀ e rest, x.queue dir = e :: rest → v.getLsbD 7 = e.vec ∧ v.toNat / 256 % 256 = e.tag.toNat) ∧
        v.toNat / 2 ^ 32 = ((s.core (s.cur / 16)).regAt s.now kNPCTL).toNat % 2 ^ 32))

/-- 13 R189, R190; 07 R106, R108; 01 R15: what links bring. An entry lands at the end of its queue; a credit comes back; a push, pop or
BTAG that has waited longer than NBOUND takes 0x81; a wake message sets the wake flag. BTAG jumps through its table, by the tag of the
head entry or the last entry for a greater tag; WAITE waits for a selected event, and clears the wake flag it has waited for. -/
def Obligations.LinkAndWakeEvents : Prop :=
  ∀ (dir : Dir) (n : Fin 16) (b : Reg) (i : BitVec 12) (s : State),
    let u := s.arg.n
    let d := s.arg.dir
    (∀ e, s.transit.find? (fun e => e.1 == u && e.2.1 == d) = some e → Answers .neighbourEntryLand s fun t =>
      t.transit = s.transit.erase e ∧ (t.thread u).queue d = (s.thread u).queue d ++ [e.2.2] ∧
      { t.thread u with inq := .empty } = { s.thread u with inq := .empty } ∧ elsewhere s t u) ∧
    ((u, d) ∈ s.creditsBack → Answers .neighbourCreditReturn s fun t =>
      t.creditsBack = s.creditsBack.erase (u, d) ∧ (t.thread u).credit d = (s.thread u).credit d + 1 ∧
      { t.thread u with credits := .empty } = { s.thread u with credits := .empty } ∧ elsewhere s t u) ∧
    (∀ w ib, (s.thread u).wait = some w → w.onLink = some ib →
      w.since + ((s.core (u / 16)).regAt s.now kNPCTL).toNat % 2 ^ 32 < s.now →
      Answers .neighbourTimeout s (trappedAt s u 0x81 ib)) ∧
    (u ∈ s.wakes → Answers .wakeWordWrite s fun t =>
      t.wakes = s.wakes.erase u ∧ t.thread u = { s.thread u with wake := true } ∧ elsewhere s t u) ∧
    (let btag := Instr.btag dir n b i
     let base := addOff (s.g b) (4 * i.toInt)
     (s.feeder s.cur dir = none → Answers btag s (trapped s 0x80 (ibits btag))) ∧
     (s.feeder s.cur dir ≠ none → s.th.queue dir = [] →
       Answers btag s (waits s (.btag (ibits btag) dir n.val base) .cond [])) ∧
     (∀ e rest loc, s.feeder s.cur dir ≠ none → s.th.queue dir = e :: rest →
       s.access s.cur (addOff base ((4 * min e.tag.toNat n.val : Nat) : Int)) 4 4 .load needR = (.ok loc, s) →
       ownLs s loc → s.poisonedIn loc 4 = false → Answers btag s fun t =>
         transferred s t (BitVec.ofNat 64 (leNat (readMem s.mem loc 4))) False 8 ∧
         { still t.th with fetched := [] } = { still s.th with fetched := [] } ∧
         (∀ u, u ≠ s.cur → t.thread u = s.thread u) ∧ sameMemory s t)) ∧
    (let sel := s.g b
     let came := ∃ o : Dir, sel.getLsbD (Dir.idx o) = true ∧ s.th.queue o ≠ []
     (sel.toNat % 64 = 0 ∨ came ∨ (sel.getLsbD 5 = true ∧ s.th.wake = true) → Answers (.waite b) s fun t =>
       completed s t (s.th.pc + 4) 4 ∧ t.th.wake = (if sel.getLsbD 5 = true then false else s.th.wake) ∧
       { still t.th with wake := false } = { still s.th with wake := false } ∧ elsewhere s t s.cur) ∧
     (sel.toNat % 64 ≠ 0 → ¬ came → ¬ (sel.getLsbD 5 = true ∧ s.th.wake = true) →
       Answers (.waite b) s (waits s (.waite sel) .cond [])))

/-- 13 R187, 17 R220: CBWAIT waits until the fill reaches gC and changes nothing; CBPOST adds gC to the posted count, after the thread's
earlier accesses, and CBFREE adds it to the freed count, both modulo 2^32; CBSTAT reads fill and free space. A disabled buffer, a count
above its size, and a post or free beyond what it holds raise 0x67. -/
def Obligations.CircularBuffers : Prop :=
  ∀ (buf : Fin 16) (c d : Reg) (s : State),
    let n := (s.g c).toNat
    let k := s.core (s.cur / 16)
    let lo := (k.regAt s.now (32 + 2 * buf.val)).toNat
    let hi := (k.regAt s.now (33 + 2 * buf.val)).toNat
    let sz := lo / 2 ^ 20 % 32
    let size := if sz = 0 then 0 else 2 ^ sz
    let fill := (hi % 2 ^ 32 + 2 ^ 32 - hi / 2 ^ 32) % 2 ^ 32
    let last := (k.regLast (33 + 2 * buf.val)).toNat
    let done : Prop := ∀ r ∈ s.net, r.tid? ≠ some s.cur
    let counts (i : Instr) (posted freed : Nat) : Prop := Answers i s fun t =>
      completed s t (s.th.pc + 4) 4 ∧ still t.th = still s.th ∧
      (t.core (s.cur / 16)).regLast (33 + 2 * buf.val) = BitVec.ofNat 64 (posted % 2 ^ 32 + 2 ^ 32 * (freed % 2 ^ 32)) ∧
      (∀ r, r ≠ 33 + 2 * buf.val → (t.core (s.cur / 16)).regLast r = k.regLast r) ∧
      (∀ x, x ≠ s.cur / 16 → t.core x = s.core x) ∧ (∀ u, u ≠ s.cur → t.thread u = s.thread u) ∧ sameMemory s t
    let traps (i : Instr) : Prop := Answers i s (trapped s 0x67 (ibits i))
    (size = 0 ∨ size < n → traps (.cbwait buf c)) ∧
    (size ≠ 0 → n ≤ size → fill < n → Answers (.cbwait buf c) s (waits s (.cbwait (ibits (.cbwait buf c)) buf.val (s.g c)) .cond [])) ∧
    (size ≠ 0 → n ≤ size → n ≤ fill → Answers (.cbwait buf c) s fun t =>
      completed s t (s.th.pc + 4) 4 ∧ still t.th = still s.th ∧ onlyOwnThread s t) ∧
    (size = 0 → traps (.cbpost buf c)) ∧
    (size ≠ 0 → ¬ done → Answers (.cbpost buf c) s (waits s (.cbpost (ibits (.cbpost buf c)) buf.val (s.g c)) .performed [])) ∧
    (size ≠ 0 → done → size < fill + n → traps (.cbpost buf c)) ∧
    (k.recent.Pairwise (fun x y => y.1 ≤ x.1) → size ≠ 0 → done → fill + n ≤ size →
      counts (.cbpost buf c) (last % 2 ^ 32 + n) (last / 2 ^ 32)) ∧
    (size = 0 ∨ fill < n → traps (.cbfree buf c)) ∧
    (k.recent.Pairwise (fun x y => y.1 ≤ x.1) → size ≠ 0 → n ≤ fill →
      counts (.cbfree buf c) (last % 2 ^ 32) (last / 2 ^ 32 + n)) ∧
    Answers (.cbstat buf d) s (writesG s d (BitVec.ofNat 64 (fill + 2 ^ 32 * ((size + 2 ^ 32 - fill) % 2 ^ 32))) 4)

/-! ### The matrix unit -/

/-- 13 R165, R166, R168 to R170, R172; 05 R71: a matrix instruction whose operands pass their checks queues its command, with the operands
as they stand at its issue; with the queue full it waits; a recorded matrix error is raised first, and is then clear; a register format
above 4 raises 0x0A, and MMAR without NLMODE 0x80. -/
def Obligations.MatrixInstructionsQueueCommands : Prop :=
  ∀ (sa sb : Bool) (n : Fin 4) (f : Fin 8) (a b c : Reg) (s : State),
    let room : Prop := (s.core (s.cur / 16)).mq.length < 8
    let queues (i : Instr) (kind : MKind) (oa ob : MOperand) (md dist : Nat) : Prop :=
      (s.th.mxErr = none → room → Answers i s (enqueues s kind n oa ob md)) ∧
      (s.th.mxErr = none → ¬ room →
        Answers i s (waits s (.matrix ⟨s.cur, kind, n.val, oa, ob, md, s.th.pc, none⟩ dist) .cond [])) ∧
      (∀ e, s.th.mxErr = some e → Answers i s fun t => trappedAt s s.cur e.cause e.tval t ∧ t.th.mxErr = none)
    let dist : Nat := if sa && sb then 4 else 8
    queues (.mzero n) .zero .none .none 0 4 ∧
    (∀ oa ob q, matArg s sa f.val a 1 oa → kClass oa.fmt = some q → kClass ob.fmt = some q →
      (matArg s sb f.val b 1 ob →
        queues (.mma sa sb n f a b) .mma oa ob 0 dist ∧
        ((s.compOf (s.cur / 16)).nlmode = true → queues (.mmar sa sb n f a b) .mmar oa ob 0 dist)) ∧
      (∀ md, s.metadata s.cur (s.g c) q = .ok md →
        (matArg s sb f.val b 8 ob → queues (.mmasN1 sa sb n f a b c) (.mmas 1) oa ob md dist) ∧
        (matArg s sb f.val b 4 ob → queues (.mmasN2 sa sb n f a b c) (.mmas 2) oa ob md dist) ∧
        (matArg s sb f.val b 2 ob → queues (.mmasN4 sa sb n f a b c) (.mmas 4) oa ob md dist))) ∧
    (∀ o, b.val % 2 = 0 → b ≠ 0 → o.fmt ≤ 5 →
      (s.scratch s.cur (s.snap s.cur) true needR b.val 1 = .ok o → queues (.mlda n b) .lda o .none 0 4) ∧
      (s.scratch s.cur (s.snap s.cur) true needW b.val 1 = .ok o → queues (.msta n b) .sta o .none 0 4)) ∧
    (s.th.mxErr = none → 4 < f.val → a.val + 8 ≤ s.th.winSize → b.val + 8 ≤ s.th.winSize → a.val % 8 = 0 → b.val % 8 = 0 →
      Answers (.mma false false n f a b) s (trapped s 0x0A (ibits (.mma false false n f a b)))) ∧
    (s.th.mxErr = none → f.val ≤ 4 → a.val + 8 ≤ s.th.winSize → b.val + 8 ≤ s.th.winSize → a.val % 8 = 0 → b.val % 8 = 0 →
      (s.compOf (s.cur / 16)).nlmode = false →
      Answers (.mmar false false n f a b) s (trapped s 0x80 (ibits (.mmar false false n f a b))))

/-- 13 R166, R172 to R177: the unit takes the command at the head of its queue and reads its operands and accumulator; at its end MZERO
clears its accumulator, MMA and MMAS leave each element's fused sum over the operands read, MLDA the elements of its rows, and MSTA writes
its rows; metadata that is not good fails with 0x65. An MMAR first sends its tiles west and north; a tile that arrives is taken by the
MMAR that lacks it; with both come and its own delivered, the MMAR writes them where its operands lie and the fused sums into its
accumulator, and ends (that it writes both tiles only then is the model's choice, log entry 26); one without its tiles NBOUND after its
computation fails with 0x66. What a command reads is memory as it stands, where no store of the core's threads to its own local store
waits for a FENCE (23 R253) and no line is poisoned. -/
def Obligations.MatrixUnitRunsCommands : Prop :=
  ∀ (s : State),
    let k := s.arg.n
    let x := s.core k
    let rowsOf (c : MCmd) (o : MOperand) : List (List Byte) := match o with
      | .none => []
      | .regs _ _ bits => (List.range (2 * bits.length)).map (regRow bits)
      | .rows offs f _ => offs.map fun y => readMem s.mem (coreBase k + y) (tileRow c.kind.io f)
    let inside (o : MOperand) : Prop := ∀ offs f sc, o = .rows offs f sc → ∀ y ∈ offs, y + 64 ≤ 0x100000
    let settled : Prop := k < 8192 ∧ (s.core k).past = [] ∧
      (∀ y, y < 0x100000 → s.poisoned (coreBase k + y) = false)
    (∀ c rest, x.mrun = none → x.mq = c :: rest → (s.thread c.tid).mxErr = none → settled → inside c.a → inside c.b →
      c.md + 256 ≤ 0x100000 → Answers .matrixCommandStart s fun t =>
      (∃ r, (t.core k).mrun = some r ∧ r.cmd = c ∧ r.acc = s.accOf c.tid c.acc ∧ r.endAt = s.now + c.occupancy ∧
        (c.kind ≠ .sta → r.aRows = rowsOf c c.a) ∧ r.bRows = rowsOf c c.b ∧ r.sentAt = none ∧
        (∀ n, c.kind = .mmas n → r.md = readMem s.mem (coreBase k + c.md) (8 * (kClass c.a.fmt).getD 16))) ∧
      (t.core k).mq = rest ∧ owes t (s.now + c.occupancy) .matrixCommandEnd (Arg.num k) ∧ elseCores s t k) ∧
    (∀ c rest, x.mrun = none → x.mq = c :: rest → (s.thread c.tid).mxErr ≠ none → Answers .matrixCommandStart s fun t =>
      (t.core k).mrun = none ∧ (t.core k).mq = rest ∧ elseCores s t k) ∧
    (∀ r, x.mrun = some r → r.endAt ≤ s.now →
      let c := r.cmd
      let kk := (kClass c.a.fmt).getD 16
      let old (i j : Nat) : FVal := decodeF FP32 (r.acc.getD (16 * i + j) 0).toNat
      let sum (pos : Nat → Nat → Nat) (i j : Nat) : BitVec 32 := BitVec.ofNat 32 (fusedDot
        ((List.range kk).map fun q =>
          (c.a.value r.aRows i q, c.b.value r.bRows (16 * (pos i q / kk) + j) (pos i q % kk))) (old i j))
      let ends (acc : Nat → Nat → BitVec 32) : Prop := Answers .matrixCommandEnd s fun t => unitDone s k c acc t ∧ sameMemory s t
      (c.kind = .zero → ends fun _ _ => 0) ∧
      (c.kind = .mma → ends (sum fun _ q => q)) ∧
      (∀ n, c.kind = .mmas n → mdOk r.md kk n = true → ends (sum fun i q => 8 * (q / n) + nibble r.md kk i q)) ∧
      (∀ n, c.kind = .mmas n → mdOk r.md kk n = false → Answers .matrixCommandEnd s (matrixFails s k c 0x65)) ∧
      (c.kind = .lda → c.a.fmt = 0 → ends fun i j => BitVec.ofNat 32 (leNat (((r.aRows.getD i []).drop (4 * j)).take 4))) ∧
      (c.kind = .lda → c.a.fmt ≠ 0 → ends fun i j =>
        BitVec.ofNat 32 (roundTo FP32 .rne false (c.a.value r.aRows i j)).1) ∧
      (∀ offs fm sc, c.kind = .sta → c.a = .rows offs fm sc → k < 8192 →
        (∀ o ∈ offs, o + 64 ≤ 0x100000) → fm ≤ 5 → Answers .matrixCommandEnd s fun t =>
          t.mem = (offs.zipIdx).foldl (fun m p => writeMem m (coreBase k + p.1) (r.storeRow p.2)) s.mem ∧
          (t.core k).mrun = none ∧ t.threads = s.threads) ∧
      (c.kind = .mmar → r.sentAt = none → Answers .matrixCommandEnd s fun t =>
        (t.core k).outA = x.outA ++ [r.aRows] ∧ (t.core k).outB = x.outB ++ [r.bRows] ∧
        (t.core k).mrun = some { r with sentAt := some s.now } ∧
        owes t (s.now + 2) .mmarTileArrival (Arg.num (torusCore k .w)) ∧
        owes t (s.now + 2) .mmarTileArrival { Arg.num (torusCore k .n) with yes := true } ∧ elseCores s t k)) ∧
    (∀ r tile rest, s.arg.yes = false → x.mrun = some r → r.cmd.kind = .mmar → r.gotA = none → r.gotB = none →
      (s.core (torusCore k .e)).outA = tile :: rest → torusCore k .e ≠ k →
      ((s.core (torusCore k .e)).mrun.all fun r => r.gotA.isNone || r.gotB.isNone) = true →
      Answers .mmarTileArrival s fun t =>
        (t.core k).mrun = some { r with gotA := some tile } ∧ (t.core (torusCore k .e)).outA = rest ∧
        t.threads = s.threads ∧ sameMemory s t) ∧
    (∀ r ta tb rest, s.arg.yes = true → x.mrun = some r → r.cmd.kind = .mmar → r.sentAt.isSome = true → r.gotA = some ta →
      r.gotB = none → x.outA = [] → x.outB = [] → (s.core (torusCore k .s)).outB = tb :: rest → torusCore k .s ≠ k →
      (s.core (torusCore k .s)).mrun = none → k < 8192 → inside r.cmd.a → inside r.cmd.b →
      (∀ u, u / 16 = k → (s.thread u).late < s.now) → Answers .mmarTileArrival s fun t =>
        let c := r.cmd
        let kk := (kClass c.a.fmt).getD 16
        let wr (o : MOperand) (tile : List (List Byte)) (m : Memory) : Memory := match o with
          | .rows offs f _ => (offs.zip tile).foldl (fun m p => writeMem m (coreBase k + p.1) (p.2.take (tileRow false f))) m
          | _ => m
        let holds (o : MOperand) (tile : List (List Byte)) : Prop := ∀ base f bits, o = .regs base f bits →
          ∀ i j, i < 16 → j < 32 → i < tile.length → j < (tile.getD i []).length →
            ((t.core k).vf.get 0 ((s.thread c.tid).winBase + base + i / 2) >>> (8 * (32 * (i % 2) + j))).truncate 8 =
              (tile.getD i []).getD j 0
        (t.core k).mrun = none ∧ t.mem = wr c.b tb (wr c.a ta s.mem) ∧ holds c.b tb ∧
        ((∀ p f bits q f' bits', c.a = .regs p f bits → c.b = .regs q f' bits' → apart p 8 q 8) → holds c.a ta) ∧
        (∀ i j, i < 16 → j < 16 → (t.thread c.tid).acc.get 0 (256 * c.acc + (16 * i + j)) = BitVec.ofNat 32 (fusedDot
          ((List.range kk).map fun q => (c.a.value r.aRows i q, c.b.value r.bRows (16 * (q / kk) + j) (q % kk)))
          (decodeF FP32 (r.acc.getD (16 * i + j) 0).toNat))) ∧
        (∀ q, q < 256 * c.acc ∨ 256 * c.acc + 256 ≤ q → (t.thread c.tid).acc.get 0 q = (s.thread c.tid).acc.get 0 q) ∧
        { t.thread c.tid with acc := .empty } = { s.thread c.tid with acc := .empty } ∧
        owes t s.now .matrixCommandStart (Arg.num k) ∧ (∀ u, u ≠ c.tid → t.thread u = s.thread u)) ∧
    (∀ r a, x.mrun = some r → r.sentAt = some a → ¬ (r.gotA.isSome ∧ r.gotB.isSome) →
      a + (x.regAt s.now kNPCTL).toNat % 2 ^ 32 < s.now → Answers .mmarRotationTimeout s (matrixFails s k r.cmd 0x66))

/-! ### The copy engine -/

/-- 13 R178, R179, R184, R185, R166: CPY and CPYM queue the command that their descriptor asks for, under their tag; on a busy tag or a
full queue they wait; a descriptor fault, each kind of which is stated, raises 0x60 and a fault of an endpoint its own cause. CWAIT waits
for its tag and raises the error recorded for it; CPOLL reads the state of its tag. Both leave the tag without an error. That the checks
come before the wait is log entry 27, what CPOLL's bit 1 is and that a poll clears the record log entry 37, the codes of ESZ log entry 27,
that a command starts in the cycle in which it is queued log entry 9, and that it holds its queue entry until it is over log entry 52. -/
def Obligations.CopyInstructions : Prop :=
  ∀ (k : RClass) (tag : Fin 8) (d b e : Reg) (s : State),
    let own := s.core (s.cur / 16)
    let a := s.g e
    let busy : Prop := ∃ c ∈ own.copies, c.tid = s.cur ∧ c.tag = tag.val
    let full : Prop := busy ∨ 16 ≤ own.copies.length
    let reads (m : Bool) : Except State (List Byte × State) :=
      s.readBlock s.cur (.cpy m k tag.val (s.g d) (s.g b) a (some (s.snap s.cur))) a 64 8 k []
    let queued (c : Copy) (t : State) : Prop :=
      (t.core (s.cur / 16)).copies = own.copies ++ [c] ∧ owes t s.now .copyStart (Arg.num2 (s.cur / 16) c.id) ∧ handedOn s t
    let parked (m : Bool) : Act := .cpy m k tag.val (s.g d) (s.g b) a (some (s.snap s.cur))
    let dst := (((s.th.seg.get 0 ((s.g d).toNat / 2 ^ 61)).toNat % 2 ^ 57) + (s.g d).toNat % 2 ^ 61) % 2 ^ 57
    (∀ bytes s', reads false = .ok (bytes, s') →
      let c := s'.copyOf s.cur k tag.val (s.g d) (s.g b) a bytes
      let w (i : Nat) : Nat := leNat ((bytes.drop (8 * i)).take 8)
      (c.cnt = [w 0 % 2 ^ 16, w 0 / 2 ^ 16 % 2 ^ 16, w 0 / 2 ^ 32 % 2 ^ 16, w 0 / 2 ^ 48 % 2 ^ 16] ∧
        c.esz = 2 ^ (w 4 % 4) ∧ (c.conv = true ↔ w 4 / 4 % 2 = 1) ∧ c.bcast = w 4 / 8 % 4 ∧ c.dshift = w 4 / 2 ^ 10 % 16 ∧
        c.cb = (if w 4 / 32 % 2 = 1 then some (w 4 / 64 % 16) else none) ∧ c.src = s.g b ∧ c.dst = s.g d ∧ c.cls = k ∧
        c.sstr = [(BitVec.ofNat 32 (w 1)).toInt, (BitVec.ofNat 32 (w 1 / 2 ^ 32)).toInt, (BitVec.ofNat 32 (w 2)).toInt] ∧
        c.dstr = [(BitVec.ofNat 32 (w 2 / 2 ^ 32)).toInt, (BitVec.ofNat 32 (w 3)).toInt, (BitVec.ofNat 32 (w 3 / 2 ^ 32)).toInt] ∧
        c.tid = s.cur ∧ c.tag = tag.val ∧ c.asid = s.th.asid ∧ c.follow = none ∧ c.started = false) ∧
      (descFault s' false w dst → Answers (.cpy k tag d b e) s (trapped s' 0x60 a)) ∧
      (¬ descFault s' false w dst → c.conv = true ∨ c.rawErr = none →
        (¬ full → Answers (.cpy k tag d b e) s (queued c)) ∧
        (full → Answers (.cpy k tag d b e) s (waits s (parked false) .cond []))) ∧
      (∀ x, ¬ descFault s' false w dst → c.conv = false → c.rawErr = some x →
        Answers (.cpy k tag d b e) s (trapped s' x.cause x.tval))) ∧
    (∀ bytes s' i sp f, s.th.mxErr = none → reads true = .ok (bytes, s') →
      let c := s'.copyOf s.cur k tag.val (s.g d) (s.g b) a bytes
      let w := leNat ((bytes.drop 40).take 8)
      ¬ descFault s' true (fun i => leNat ((bytes.drop (8 * i)).take 8)) dst → followOk w = true → c.conv = true ∨ c.rawErr = none →
      decodeWord (BitVec.ofNat 32 w) = .ok i → mspecOf i = some sp → s'.prepare s.cur (s.snap s.cur) sp = .ok f →
      (¬ full → Answers (.cpym k tag d b e) s (queued { c with follow := some f })) ∧
      (full → Answers (.cpym k tag d b e) s (waits s (parked true) .cond []))) ∧
    (∀ x, s.th.mxErr = some x → Answers (.cpym k tag d b e) s fun t =>
      trappedAt s s.cur x.cause x.tval t ∧ t.th.mxErr = none) ∧
    (busy → Answers (.cwait tag) s (waits s (.cwait tag.val) .cond [])) ∧
    (¬ busy → s.th.cpErr.get none tag.val = none → Answers (.cwait tag) s fun t =>
      completed s t (s.th.pc + 4) 4 ∧ still t.th = still s.th ∧ onlyOwnThread s t) ∧
    (∀ x, ¬ busy → s.th.cpErr.get none tag.val = some x → Answers (.cwait tag) s fun t =>
      trappedAt s s.cur x.cause x.tval t ∧ t.th.cpErr.get none tag.val = none) ∧
    (∀ v : Nat, ((v % 2 = 1 ↔ busy) ∧ ((s.th.cpErr.get none tag.val = none ∧ v / 2 = 0) ∨
        ∃ x, s.th.cpErr.get none tag.val = some x ∧ v / 2 = 1 + 128 * x.cause.toNat)) →
      Answers (.cpoll tag d) s fun t =>
        (∀ r : Reg, t.g r = if r = d ∧ d ≠ 0 then BitVec.ofNat 64 v else s.g r) ∧
        t.th.cpErr = s.th.cpErr.set none tag.val none ∧ completed s t (s.th.pc + 4) 4 ∧
        { stillG t.th with cpErr := .empty } = { stillG s.th with cpErr := .empty } ∧ onlyOwnThread s t)

/-- 13 R180 to R184, R166, R28 of 03: a command starts, and one that converts samples the formats of its banks, or ends with 0x60 where a
DXB row is no whole number of blocks. A row of the own local store or a slice, copied without conversion into the own local store, leaves
at its destination the bytes of its source; one between banks of two formats their conversion; and the tag is then free. An element for
another place, and each target of a broadcast, is sent as a write of the copy's class; the last acknowledgement ends the copy, and a cause
is recorded for its tag with the address refused. A copy into a circular buffer writes its bytes at the ring's posted position, wrapped at
its size, and then posts their number by the service thread of the buffer's core; a follow-on enters the matrix queue. What a copy reads
is memory as it stands, where no store of the core's threads to its own local store waits for a FENCE (23 R253). That a copy's first
access is made in the cycle in which the copy starts is the model's choice (log entry 9). -/
def Obligations.CopiesMoveBytes : Prop :=
  (∀ (c : Copy) (s : State),
    let k := s.arg.n
    let id := s.arg.k
    s.copy? k id = some c → c.tid / 16 = k → k < 8192 →
    let gone (t : State) : Prop := (t.core k).copies = (s.core k).copies.filter (fun x => x.id != id)
    let becomes (t : State) (y : Copy) : Prop :=
      ∀ z, z ∈ (t.core k).copies ↔ (z ∈ (s.core k).copies ∧ z.id ≠ id) ∨ z = y
    let settled : Prop := (s.core k).past = []
    let lies (loc z : Nat) : Prop := ∀ i, i < z → s.poisoned (loc + i) = false ∧ s.tagOk (loc + i) c.asid = true
    let near (loc z : Nat) : Prop := ∀ i, i < z → inLs k (loc + i) = true
    let bfmt (b : Nat) : Nat := (s.regAt (b / 16) (16 + b % 16)).toNat
    let goes : Prop := s.arg.nums = [] ∧ s.arg.yes = false
    (c.started = false → s.behind c = false → c.conv = false → c.cb = none → Answers .copyStart s fun t =>
      becomes t { c with started := true, fmts := [] } ∧ owes t s.now .copyComplete (Arg.num2 k id) ∧ elseCores s t k) ∧
    (∀ n p q bs bd, c.cnt = [n, 1, 1, 1] → 1 ≤ n → c.started = false → s.behind c = false → c.conv = true → c.cb = none → c.bcast = 0 →
      gvaOf c.segS (offOf c.src) = p → gvaOf c.segD (offOf c.dst) = q → bankOf p = some bs → bankOf q = some bd → bs ≠ bd →
      let c' : Copy := { c with started := true, fmts := [(bs, bfmt bs), (bd, bfmt bd)] }
      let fs := bfmt bs % 16
      let fd := bfmt bd % 16
      let converts : Prop := fs ≠ fd ∧ fs ≠ 0 ∧ fd ≠ 0 ∧ p % 0x10000 + rowBytes fs n ≤ 0x10000 ∧ q % 0x10000 + rowBytes fd n ≤ 0x10000
      (c'.startErr = none → Answers .copyStart s fun t =>
        becomes t c' ∧ owes t s.now .copyComplete (Arg.num2 k id) ∧ elseCores s t k) ∧
      ((converts ∧ (fs ∈ [8, 9] ∨ fd ∈ [8, 9]) ∧ n % 32 ≠ 0) ∨ (converts ∧ fd ∈ [8, 9] ∧ c.dshift = 0) ∨
          (c.dshift ≠ 0 ∧ ¬ (converts ∧ fd ∈ [8, 9])) → Answers .copyStart s fun t =>
        t.thread c.tid = { s.thread c.tid with cpErr := (s.thread c.tid).cpErr.set none c.tag (some ⟨0x60, c.at'⟩) } ∧ gone t ∧
        sameMemory s t)) ∧
    (∀ n p q, c.cnt = [n, 1, 1, 1] → n ≠ 0 → c.esz ∈ [1, 2, 4, 8] → c.conv = false → c.bcast = 0 → c.cb = none →
      c.follow = none → untouched s c → c.reads = [] → goes → settled →
      let len := n * c.esz
      (∀ i, i < len → gvaOf c.segS (offOf (moveOff c.src i)) = p + i ∧ gvaOf c.segD (offOf (moveOff c.dst i)) = q + i) →
      (near p len ∨ ∃ d w, d < 8 ∧ w < 8 ∧ sliceBase d w ≤ p ∧ p + len ≤ sliceBase d w + 2 ^ 27) → near q len →
      lies p len → lies q len → p + len ≤ q ∨ q + len ≤ p → Answers .copyComplete s fun t =>
        (∀ i, i < len → t.mem.get 0 (q + i) = s.mem.get 0 (p + i)) ∧
        (∀ l, l < q ∨ q + len ≤ l → t.mem.get 0 l = s.mem.get 0 l) ∧ gone t ∧ t.threads = s.threads) ∧
    (∀ n p q bs bd vs vd, c.cnt = [n, 1, 1, 1] → n ≠ 0 → c.conv = true → c.bcast = 0 → c.cb = none → c.follow = none → untouched s c →
      c.reads = [] → goes → settled → c.fmts = [(bs, vs), (bd, vd)] → bs ≠ bd → bankOf p = some bs → bankOf q = some bd →
      let fs := vs % 16
      let fd := vd % 16
      let conv : Conv := ⟨fs, vs / 256 % 256, fd, vd / 256 % 256⟩
      let ls := rowBytes fs n
      let ld := rowBytes fd n
      fs ≠ fd → 1 ≤ fs → fs ≤ 9 → 1 ≤ fd → fd ≤ 9 → (fs ∈ [8, 9] ∨ fd ∈ [8, 9] → n % 32 = 0) →
      p % 0x10000 + ls ≤ 0x10000 → q % 0x10000 + ld ≤ 0x10000 →
      gvaOf c.segS (offOf c.src) = p → gvaOf c.segD (offOf c.dst) = q → near p ls → near q ld → lies p ls → lies q ld →
      Answers .copyComplete s fun t =>
        (∀ i, i < ld → t.mem.get 0 (q + i) = (convertRow n conv c.dshift (readMem s.mem p ls)).getD i 0) ∧
        (∀ l, l < q ∨ q + ld ≤ l → t.mem.get 0 l = s.mem.get 0 l) ∧ gone t ∧ t.threads = s.threads) ∧
    (∀ p q, c.cnt = [1, 1, 1, 1] → c.esz ∈ [1, 2, 4, 8] → c.conv = false → c.cb = none → untouched s c → c.reads = [] → goes →
      settled → gvaOf c.segS (offOf c.src) = p → gvaOf c.segD (offOf c.dst) = q → near p c.esz → lies p c.esz →
      let bytes := readMem s.mem p c.esz
      let keeps (t : State) : Prop := (∃ y ∈ (t.core k).copies, y.id = id ∧ y.reads = [(0, bytes)]) ∧ t.threads = s.threads
      (c.bcast = 0 → 2 ^ 56 ≤ q → s.winCause q c.esz .store c.asid = none → inLs k q = false → Answers .copyComplete s fun t =>
        copySends t c (.write bytes) q ∧ sameMemory s t ∧ keeps t) ∧
      (∀ x off, c.bcast ∈ [1, 2] → x < 8192 → q = coreBase x + off → off + 8 ≤ 0x100000 →
        (∀ y, inBroadcast c.bcast x y → s.winCause (coreBase y + off) c.esz .store c.asid = none) →
        Answers .copyComplete s fun t => keeps t ∧ ∀ y, inBroadcast c.bcast x y →
          (y ≠ k → copySends t c (.write bytes) (coreBase y + off)) ∧
          (y = k → ∀ i, i < c.esz → t.mem.get 0 (coreBase y + off + i) = bytes.getD i 0))) ∧
    (∀ b bytes, c.cnt = [1, 1, 1, 1] → c.conv = false → c.bcast = 0 → c.buffer = some (k, b) → b < 16 → c.follow = none →
      untouched s c → c.reads = [(0, bytes)] → bytes.length = c.esz → c.esz ∈ [1, 2, 4, 8] →
      let lo := ((s.core k).regLast (32 + 2 * b)).toNat
      let hi := ((s.core k).regLast (33 + 2 * b)).toNat
      let base := lo % 2 ^ 20
      let sz := lo / 2 ^ 20 % 32
      let size := 2 ^ sz
      6 ≤ sz → base + size ≤ 0x100000 → (hi % 2 ^ 32 + 2 ^ 32 - hi / 2 ^ 32) % 2 ^ 32 + c.esz ≤ size → lies (coreBase k + base) size →
      Answers .cbCopySpace s fun t =>
        (∀ i, i < c.esz → t.mem.get 0 (coreBase k + base + (hi + i) % size) = bytes.getD i 0) ∧
        (∀ l, (∀ i, i < c.esz → l ≠ coreBase k + base + (hi + i) % size) → t.mem.get 0 l = s.mem.get 0 l) ∧
        copySends t c (.post b c.esz) (coreBase k + 0x6100C8 + 16 * b) ∧
        (∃ y ∈ (t.core k).copies, y.id = id ∧ y.posted = true) ∧ t.threads = s.threads) ∧
    (∀ f, c.follow = some f → c.landed = true → (s.core k).mq.length < 8 → f.tid / 16 = k → (s.thread f.tid).mxErr = none →
      Answers .followOnEnqueue s fun t =>
        (t.core k).mq = (s.core k).mq ++ [{ f with copy := some id }] ∧ owes t s.now .matrixCommandStart (Arg.num k) ∧
        elseCores s t k)) ∧
  (∀ (r : Req) (c : Copy) (s : State), s.req? s.arg.n = some r → r.src = .copy c.tid c.id 0 0 → s.copy? (c.tid / 16) c.id = some c →
    s.replicasDue r.id = false →
    let gone (t : State) : Prop := (t.core (c.tid / 16)).copies = (s.core (c.tid / 16)).copies.filter (fun x => x.id != c.id)
    (∀ b q, r.isWrite = true → r.phase = .answered (.bytes []) → (∀ x ∈ s.net, x.id ≠ r.id → ∀ u i, x.src ≠ .copy c.tid c.id u i) →
      c.cnt = [1, 1, 1, 1] → c.conv = false → c.bcast = 0 → c.cb = none → c.follow = none → c.page = false → c.posted = false →
      c.reads = [(0, b)] → c.part = [(0, q)] → gvaOf c.segD (offOf c.dst) = q → c.done = [] → Answers .storeAcknowledge s fun t =>
        gone t ∧ t.threads = s.threads ∧ sameMemory s t) ∧
    (∀ e, r.isWrite = true → r.phase = .answered (.cause e) → Answers .storeAcknowledge s fun t =>
      t.thread c.tid = { s.thread c.tid with cpErr := (s.thread c.tid).cpErr.set none c.tag (some ⟨e, r.seg⟩) } ∧ gone t ∧
      sameMemory s t)) ∧
  (∀ (r : Req) (buf n : Nat) (off : Nat) (rest : List Svc) (s : State), let k := s.arg.n
    s.req? r.id = some r → (s.core k).svc = .msg r.id :: rest → r.op = .post buf n → decodeWin r.loc = some (.core k off) →
    Answers .serviceMessage s fun t =>
      let hi := ((s.core k).regLast (33 + 2 * buf)).toNat
      (t.core k).regLast (33 + 2 * buf) = BitVec.ofNat 64 ((hi % 2 ^ 32 + n) % 2 ^ 32 + 2 ^ 32 * (hi / 2 ^ 32)) ∧
      stands t r.id (.answered (.bytes [])) ∧ t.threads = s.threads ∧ sameMemory s t) ∧
  (∀ (p : Conv) (n i d : Nat) (row : List Byte), i < n →
    let y : FVal := if p.ds = 0xFF then .nan false else (matDecode p.sf p.ss row i).scale (127 - (p.ds : Int))
    let code := leNat (((convertRow n p d row).drop (i * elemBytes p.df)).take (elemBytes p.df))
    (∀ f, bankFmt p.df = some f → code = (roundTo f .rne true y).1) ∧
    (p.df = 6 → code = ((fToInt .rne (-128) 127 y).1 % 256).toNat) ∧ (p.df = 7 → code = ((fToInt .rne 0 255 y).1 % 256).toNat))

/-! ### Field ports -/

/-- 13 R192 to R196, 25 R257: PBIND, PSEND, PRECV and PSTAT make a request of the port's Prism, with the record they read and the segment
of BUF, and wait for its answer; PSEND first waits for its thread's earlier accesses; a port id above 8,191 raises 0x84, with 0x84 in
PORTSTAT. That a free Prism begins a request in the cycle after it comes is the model's choice (log entry 9). -/
def Obligations.FieldPortInstructions : Prop :=
  ∀ (b c d : Reg) (s : State),
    let port := (s.g b).toNat
    let a := s.g c
    let bad (i : Instr) : Prop := 8191 < port → Answers i s fun t =>
      trappedAt s s.cur 0x84 (ibits i) t ∧ t.th.portstat.toNat % 2 ^ 32 = 0x84
    bad (.pbind b c) ∧ bad (.psend b c) ∧ bad (.precv b c) ∧ bad (.pstat d b) ∧
    (port ≤ 8191 → a = 0 → Answers (.pbind b c) s
      (requests s port .unbind (ibits (.pbind b c)) 0 0 (.pbind (ibits (.pbind b c)) port a))) ∧
    (∀ loc s' i k, port ≤ 8191 → a ≠ 0 → s.access s.cur a 128 128 .block needR = (.ok loc, s') →
      decodeWin loc = some (.slice i k) → Answers (.pbind b c) s
        (requests s port (.bind loc) (ibits (.pbind b c)) 0 0 (.pbind (ibits (.pbind b c)) port a))) ∧
    (port ≤ 8191 → Answers (.pstat d b) s
      (requests s port .stat (ibits (.pstat d b)) 0 d (.pstat (ibits (.pstat d b)) d port))) ∧
    (∀ bytes s', port ≤ 8191 →
      let w (i : Nat) : Word := BitVec.ofNat 64 (leNat ((bytes.drop (8 * i)).take 8))
      let seg := s.th.seg.get 0 ((w 0).toNat / 2 ^ 61)
      let inSeg (n z : Nat) (need : Need) : Prop :=
        segCause seg (selOf (w 0)) (offOf (w 0)) (n * z) need = none ∧ offOf (w 0) % z = 0
      let send := Act.psend (ibits (.psend b c)) port a
      let recv := Act.precv (ibits (.precv b c)) port a
      (s.readBlock s.cur send a 32 8 .o [] = .ok (bytes, s') →
        (∀ desc, (s.port port).desc = some desc →
          inSeg (s.portDesc port desc).nsrc (if (w 3).getLsbD 0 = true then 8 else 4) needR) →
        ((∀ r ∈ s.net, r.tid? ≠ some s.cur) → Answers (.psend b c) s
          (requests s port (.send (w 0) (w 1) (w 2) (w 3)) (ibits (.psend b c)) seg 0 send)) ∧
        ((∃ r ∈ s.net, r.tid? = some s.cur) → Answers (.psend b c) s (waits s send .performed []))) ∧
      (s.readBlock s.cur recv a 32 8 .o [] = .ok (bytes, s') →
        (∀ desc, (s.port port).desc = some desc → inSeg (s.portDesc port desc).ndst (s.portDesc port desc).outBytes needW) →
        ∃ res, Answers (.precv b c) s
          (requests s port (.recv (w 0) (w 1) res) (ibits (.precv b c)) seg 0 recv) ∧
          (res = true ↔ w 2 ≠ 0 ∨ w 3 ≠ 0)))

/-- 25 R257, R260 to R265, R266, R267: what a Prism does for the request at the head of its queue: a binding, an unbinding, a send, a
receive and a status query, each that is in order and each that is not; what it reads and writes are class O accesses; it reads memory
with its own writes in it, and goes on once its accesses to BUF are performed (that elements of BUF that lie side by side in a line are
one access is the model's choice, log entry 52); a send or receive whose time has not come is set aside and stands first again later; the
close of an interval; and the bound on waiting. Sums and means are FP64, each operation rounded once. -/
def Obligations.PrismsServePorts : Prop :=
  ∀ (r : PReq) (rest : List PReq) (d : Nat) (s : State),
    let cl := portCluster r.port
    let x := s.port r.port
    let v := s.prismView cl
    let p := v.pdesc d
    let stat (closed counted : Bool) (j : Nat) : Word :=
      BitVec.ofNat 64 ((if counted then 2 ^ 16 else 0) + (if closed then 2 ^ 17 else 0) + 2 ^ 32 * (j % 2 ^ 32))
    let here (k : PKind) : Prop := atPrism s r rest ∧ s.awaits r = true ∧ r.kind = k ∧ (k ≠ .close → s.arg.n = cl)
    let stood : Prop := x.desc = some d ∧ portPlaced v d
    let bound : Prop := stood ∧ s.tagsOk d 128 r.asid = true
    let foreign (i : Instr) : Prop := r.begun = false → x.desc = some d → s.tagsOk d 128 r.asid = false → Answers i s fun t =>
      trapsAt s r.tid 0x39 (BitVec.ofNat 64 d) t ∧ sameMemory s t
    let writes (t : State) (loc : Nat) (b : List Byte) : Prop := prismWrites t cl r.tid r.asid loc b
    let begins (t : State) : Prop := (∃ due, s.now < due ∧ (t.cluster cl).prismQ = { r with begun := true, due := due } :: rest ∧
      owes t due (PKind.event r.kind) (Arg.num cl)) ∧ t.threads = s.threads ∧ sameMemory s t
    let fails (i : Instr) (c : Cause) (reason : Nat) : Prop := Answers i s fun t =>
      trapsAt s r.tid c r.ib t ∧ (t.thread r.tid).portstat.toNat % 2 ^ 32 = c.toNat + 2 ^ 8 * reason ∧ sameMemory s t
    let elemAt (buf : Word) (z i : Nat) : Nat := gvaOf r.seg (offOf (moveOff buf (i * z : Nat)))
    let reached (buf : Word) (n z : Nat) (need : Need) (loc : Nat → Nat) : Prop :=
      segCause r.seg (selOf buf) (offOf buf) (n * z) need = none ∧ offOf buf % z = 0 ∧
      ∀ i, i < n → s.locate cl r.asid r.priv (elemAt buf z i) z .block need = (.ok (loc i), s)
    let elem (t : State) (i z loc : Nat) (op : ROp → Nat → Nat → Prop) : Prop := ∃ q ∈ t.net, ∃ o n, q.src = .prism cl r.tid o ∧
      op q.op o n ∧ q.loc + z * i = loc + o ∧ o ≤ z * i ∧ z * i + z ≤ o + n ∧ q.cls = .o ∧ q.asid = r.asid
    let reads (t : State) (i z loc : Nat) : Prop := elem t i z loc fun op _ n => op = .read n
    let gives (t : State) (i z loc : Nat) (b : List Byte) : Prop := elem t i z loc fun op o n =>
      ∃ w, op = .write w ∧ w.length = n ∧ (w.drop (z * i - o)).take z = b
    -- bindings
    (here (.bind d) → r.begun = false → Answers .prismBind s begins) ∧
    (∀ k, here (.bind d) → r.begun = true → (v.modCluster cl fun c => { c with prismQ := rest }).bindReason r d = some k →
      fails .prismBind 0x85 k) ∧
    (here (.bind d) → r.begun = true → (v.modCluster cl fun c => { c with prismQ := rest }).bindReason r d = none → portPlaced v d →
      Answers .prismBind s fun t =>
        let j := (p.next / p.t + 2 ^ 64 - 1) % 2 ^ 64
        (∃ w, t.port r.port = ⟨some d, false, [], [], false, p.next, j, false, false, w, r.asid⟩ ∧ w % 4 = 1 ∧ w / 2 ^ 32 = j % 2 ^ 32 ∧
          writes t (d + 88) (bytesOf 8 w)) ∧
        writes t (d + 96) (bytesOf 8 j) ∧ writes t (d + 104) (bytesOf 8 0) ∧ writes t (accAt d) (bytesOf (8 * p.nsrc) 0) ∧
        released s t r.tid (stat false false j) plain ∧ sameMemory s t) ∧
    -- unbindings
    (here .unbind → bound → s.compNo r.tid ≠ some p.sndr → s.compNo r.tid ≠ some p.rcvr → fails .prismUnbind 0x85 8) ∧
    (here .unbind → bound → (s.compNo r.tid = some p.sndr ∨ s.compNo r.tid = some p.rcvr) → Answers .prismUnbind s fun t =>
      let leaves (u : Nat) : Prop := u ≠ r.tid ∧ ∃ w ib, (s.thread u).wait = some w ∧ w.act.sendRecv = some (r.port, ib)
      t.port r.port = Port.init ∧ (t.thread r.tid).wait = none ∧ (t.thread r.tid).portstat = stat false false x.j ∧
      (∃ w tid asid, prismWrites t cl tid asid (d + 88) (bytesOf 8 w) ∧ w % 4 = 0 ∧ w / 2 ^ 32 = x.shown / 2 ^ 32) ∧
      (∀ u, leaves u → (t.thread u).cause = 0x84 ∧ (t.thread u).epc = (s.thread u).pc ∧ (t.thread u).wait = none ∧
        (t.thread u).portstat.toNat % 2 ^ 32 = 0x84) ∧
      (∀ u, ¬ leaves u → u ≠ r.tid → t.thread u = s.thread u) ∧ sameMemory s t) ∧
    (here .unbind → x.desc = none → Answers .prismUnbind s fun t => (t.thread r.tid).wait = none ∧ sameMemory s t) ∧
    -- sends
    (∀ buf t0 dt ctl, here (.send buf t0 dt ctl) → r.begun = false →
      let n := t0.toNat + dt.toNat
      let may : Prop := bound ∧ s.compNo r.tid = some p.sndr
      let ahead : Prop := ∃ q ∈ r :: rest, q.port = r.port ∧ q.resumed = true ∧ ∃ buf t0 dt ctl, q.kind = .send buf t0 dt ctl
      let first : Prop := may ∧ x.failed = false ∧ (r.resumed = true ∨ (x.sends = [] ∧ ¬ ahead))
      let good : Prop := first ∧ ctl.toNat / 2 = 0 ∧ dt ≠ 0
      let span : Prop := t0.toNat / p.t = (n - 1) / p.t
      let aside : Prop := Answers .prismSend s fun t =>
        (t.port r.port).sends = (if r.resumed then { r with due := 0 } :: x.sends else x.sends ++ [{ r with due := 0 }]) ∧
        (∀ q ∈ (t.cluster cl).prismQ, q ≠ r) ∧ t.threads = s.threads ∧ sameMemory s t
      (x.desc = none ∨ (bound ∧ s.compNo r.tid ≠ some p.sndr) → fails .prismSend 0x84 0) ∧
      (may → x.failed = true → fails .prismSend 0x85 9) ∧
      (may → x.failed = false → r.resumed = false → x.sends ≠ [] ∨ ahead → r ∉ rest → aside) ∧
      foreign .prismSend ∧
      (first → ctl.toNat / 2 ≠ 0 → fails .prismSend 0x87 1) ∧
      (first → ctl.toNat / 2 = 0 → dt = 0 → fails .prismSend 0x87 2) ∧
      (good → ¬ span → fails .prismSend 0x83 0) ∧
      (good → span → t0.toNat ≠ x.next → fails .prismSend 0x87 3) ∧
      (good → span → t0.toNat = x.next → x.closing = true → r ∉ rest → aside) ∧
      (∀ loc, let z := if ctl.getLsbD 0 = true then 8 else 4
        good → span → t0.toNat = x.next → x.closing = false → reached buf p.nsrc z needR loc → Answers .prismSend s fun t =>
          begins t ∧ ∀ i, i < p.nsrc → reads t i z (loc i))) ∧
    (∀ (buf t0 dt ctl : Word) (e : Nat → List Byte), here (.send buf t0 dt ctl) → r.begun = true → s.prismHeld cl = false → stood → r.bad = none →
      (∀ i, i < p.nsrc → bufBytes r.got (ctlBytes ctl * i) (ctlBytes ctl) = e i ∧ (e i).length = ctlBytes ctl) → Answers .prismSend s fun t =>
        let n := (t0.toNat + dt.toNat) % 2 ^ 64
        let val (i : Nat) : FVal := if (e i).length = 8 then decodeF FP64 (leNat (e i)) else decodeF FP32 (leNat (e i))
        (∀ i, i < p.nsrc → writes t (accAt d + 8 * i) (bytesOf 8 (mac64 (ofInt dt.toNat)
          (decodeF FP64 (mac64 (val i) (decodeF FP64 p.inscale) (decodeF FP64 p.inoffset))) (decodeF FP64 (v.w64 (accAt d + 8 * i)))))) ∧
        writes t (d + 72) (bytesOf 8 n) ∧ (t.port r.port).next = n ∧ (t.port r.port).closing = (n % p.t == 0) ∧
        released s t r.tid (stat (n % p.t == 0) true (t0.toNat / p.t)) plain ∧ sameMemory s t) ∧
    (∀ buf t0 dt ctl q e, here (.send buf t0 dt ctl) → r.begun = true → s.prismHeld cl = false → r.bad = some (q, e) →
      Answers .prismSend s fun t => trapsAt s r.tid e.cause e.tval t ∧ (t.port r.port).next = x.next ∧ sameMemory s t) ∧
    (∀ q more, s.arg.n = r.port → q.port = r.port → x.sends = q :: more → x.closing = false → Answers .prismSendResume s fun t =>
      (t.port r.port).sends = more ∧ (∃ y ∈ (t.cluster cl).prismQ, y.tid = q.tid ∧ y.kind = q.kind ∧ y.resumed = true) ∧
      t.threads = s.threads ∧ sameMemory s t) ∧
    -- receives
    (∀ buf k res, here (.recv buf k res) → r.begun = false →
      let j := (k - BitVec.ofNat 64 p.lag).toInt
      let may : Prop := bound ∧ s.compNo r.tid = some p.rcvr
      let good : Prop := may ∧ x.failed = false ∧ res = false
      (x.desc = none ∨ (bound ∧ s.compNo r.tid ≠ some p.rcvr) → fails .prismReceive 0x84 0) ∧
      foreign .prismReceive ∧
      (may → x.failed = true → fails .prismReceive 0x85 9) ∧
      (may → x.failed = false → res = true → fails .prismReceive 0x87 1) ∧
      (good → j < x.held → fails .prismReceive 0x87 4) ∧
      (good → x.held < j → Answers .prismReceive s fun t =>
        (t.port r.port).recvs = x.recvs ++ [{ r with due := 0 }] ∧ (t.port r.port).resfree = true ∧ t.threads = s.threads ∧
        sameMemory s t) ∧
      (∀ loc, good → j = x.held → reached buf p.ndst p.outBytes needW loc → Answers .prismReceive s fun t =>
        begins t ∧ ∀ i, i < p.ndst → gives t i p.outBytes (loc i) (readMem v.mem (p.resAt d + p.outBytes * i) p.outBytes))) ∧
    (∀ buf k res, here (.recv buf k res) → r.begun = true → s.prismHeld cl = false → stood → r.bad = none →
      Answers .prismReceive s fun t =>
        (t.port r.port).resfree = true ∧ released s t r.tid (stat false false (k - BitVec.ofNat 64 p.lag).toNat) plain ∧ sameMemory s t) ∧
    (∀ e q, s.arg.n = r.port → stood → q ∈ x.recvs → q.port = r.port → q.kind = e → (∃ buf k res, e = .recv buf k res ∧
        (k - BitVec.ofNat 64 p.lag).toInt = x.held) → Answers .prismReceiveResume s fun t =>
      (∃ y ∈ (t.cluster cl).prismQ, y.tid = q.tid ∧ y.kind = e ∧ y.resumed = true) ∧ q ∉ (t.port r.port).recvs ∧
      t.threads = s.threads ∧ sameMemory s t) ∧
    -- status queries
    (here .stat → foreign .prismStatus) ∧ (here .unbind → foreign .prismUnbind) ∧
    (here .stat → bound → Answers .prismStatus s fun t =>
      ∃ w : Word, w.toNat % 4 = (if x.failed then 2 else 1) ∧ w.toNat / 4 % 2 = p.lag ∧ w.getLsbD 3 = x.resfree ∧
        w.getLsbD 4 = !(x.next % p.t == 0) ∧ w.getLsbD 5 = x.cnan ∧ w.toNat / 2 ^ 32 = x.j % 2 ^ 32 ∧
        (∀ g, (t.thread r.tid).rd g = if g = r.d ∧ r.d ≠ 0 then w else (s.thread r.tid).rd g) ∧
        released s t r.tid (stat false false x.j) fun y => { y with g := .empty, oldG := [] }) ∧
    (here .stat → x.desc = none → fails .prismStatus 0x84 0) ∧
    -- an element of BUF comes
    (∀ q i b, s.req? s.arg.n = some q → q.src = .prism cl r.tid i → i < 2 ^ 32 → q.isRead = true → q.phase = .answered (.bytes b) →
      s.arg.yes = false → s.replicasDue q.id = false → (s.cluster cl).prismQ = r :: rest → r.begun = true → Answers .remoteReply s fun t =>
        (t.cluster cl).prismQ = { r with got := r.got ++ [(i, b)] } :: rest ∧ (∀ y ∈ t.net, y.id ≠ q.id) ∧
        ((∀ y ∈ s.net, y.id ≠ q.id → ∀ u n, y.src ≠ .prism cl u n) →
          owes t (max s.now r.due) (PKind.event r.kind) (Arg.num r.agent)) ∧ t.threads = s.threads ∧ sameMemory s t) ∧
    -- closes
    (atPrism s r rest → r.kind = .close → s.arg.n = r.port → stood → x.closing = true → x.resfree = true → r.begun = true →
      (p.rowsOk v = true ∧ p.colsOk v = true → Answers .intervalClose s fun t =>
        let mean (k : Nat) : Nat := meanOf (v.w64 (accAt d + 8 * k)) p.t
        let y (i : Nat) : Nat := v.rowSum p (fun k => if k < p.nsrc then mean k else 0) i
        (∀ i, i < p.ndst → writes t (p.resAt d + p.outBytes * i) (bytesOf p.outBytes (roundTo p.out .rne (p.fmt == 2)
          (decodeF FP64 (fMul FP64 .rne (fSub FP64 .rne (y i) p.outoffset).1 p.gain).1)).1)) ∧
        writes t (accAt d) (bytesOf (8 * p.nsrc) 0) ∧ writes t (d + 96) (bytesOf 8 ((x.j + 1) % 2 ^ 64)) ∧
        writes t (d + 104) (bytesOf 8 (consErr (v.areaSum (p.dstAt v) ((List.range p.ndst).map y))
          (v.areaSum (p.srcAt v) ((List.range p.nsrc).map mean)))) ∧
        (t.port r.port).j = (x.j + 1) % 2 ^ 64 ∧ (t.port r.port).closing = false ∧ (x.recvs = [] → (t.port r.port).resfree = false) ∧
        t.threads = s.threads ∧ sameMemory s t) ∧
      (¬ (p.rowsOk v = true ∧ p.colsOk v = true) → Answers .intervalClose s fun t =>
        (t.port r.port).failed = true ∧ (t.port r.port).sends = [] ∧ (t.port r.port).recvs = [] ∧
        (∀ q ∈ x.sends ++ x.recvs, s.awaits q = true → (t.thread q.tid).cause = 0x85 ∧
          (t.thread q.tid).portstat.toNat % 2 ^ 32 = 0x85 + 2 ^ 8 * 9) ∧ sameMemory s t)) ∧
    -- the bound on waiting
    (∀ u port ib, u = s.arg.n → s.portLate u = some (port, ib) → Answers .portWaitTimeout s fun t =>
      trapsAt s u 0x82 ib t ∧ (t.thread u).portstat.toNat % 2 ^ 32 = 0x82 ∧
      (∀ q ∈ (t.port port).sends ++ (t.port port).recvs, q.tid ≠ u))

/-! ### Tasks, steps and barriers -/

/-- 01 R20, R22; 13 R197, R198, R199, R166: FORK pushes its record at the bottom of the deque, or runs the task as a call when the deque
is full, and 255 deep raises 0x6A; with a join counter it first increments it. JOIN completes when its counter is 0, else it waits, and the
counter's home reads it again within 1,024 cycles; a zero reaches the thread. TEND decrements the counter of g12 and ends the task: the thread is idle, or returns to g1; recorded errors come first. That
a step of a suspended component ends when it is resumed, with RUN and PEND kept
till then (27 R279), is the model's reading (log entry 45). -/
def Obligations.TasksForkJoinAndEnd : Prop :=
  ∀ (k : RClass) (b : Reg) (s : State),
    let own := s.core (s.cur / 16)
    let a := s.g b
    let room : Prop := own.deque.length + own.reserved < 64
    let done : Prop := ∀ r ∈ s.net, r.tid? ≠ some s.cur
    let ib := ibits (.fork k b)
    (∀ bytes s', s.readBlock s.cur (.fork ib k a none false) a 32 8 .o [] = .ok (bytes, s') →
      let w (i : Nat) : Word := BitVec.ofNat 64 (leNat ((bytes.drop (8 * i)).take 8))
      let r : Rec := ⟨w 0, w 1, w 2, w 3, none, false⟩
      (w 3 = 0 → room → own.dqUsed ≠ some s.now → Answers (.fork k b) s fun t =>
        (t.core (s.cur / 16)).deque = own.deque ++ [r] ∧ (t.core (s.cur / 16)).reserved = own.reserved ∧
        handedOn s t) ∧
      (w 3 = 0 → ¬ room → s.th.depth ≠ 255 → Answers (.fork k b) s fun t =>
        (∀ q : Reg, t.g q = if q = 1 then s.th.pc + 4 else if q = 10 then w 1 else if q = 11 then w 2
          else if q = 12 then 0 else s.g q) ∧
        t.th.depth = s.th.depth + 1 ∧ (∃ dist, transferred s t (w 0) True dist) ∧
        { stillG t.th with fetched := [], depth := 0 } = { stillG s.th with fetched := [], depth := 0 } ∧
        (t.core (s.cur / 16)).deque = own.deque ∧ (∀ u, u ≠ s.cur → t.thread u = s.thread u) ∧ sameMemory s t) ∧
      (¬ room → s.th.depth = 255 → Answers (.fork k b) s (trapped s' 0x6A ib)) ∧
      (∀ loc s2, w 3 ≠ 0 → s'.access s.cur (w 3) 8 8 .atomic needRWA = (.ok loc, s2) → s'.lineBusy s.cur loc 8 = false →
        (¬ room → s.th.depth ≠ 255 → Answers (.fork k b) s
          (asks s (.fork ib k a (some r) false) .replies (.amo .add 8 1 0) k (w 3) loc)) ∧
        (room → Answers (.fork k b) s fun t => (t.core (s.cur / 16)).reserved = own.reserved + 1 ∧
          (t.core (s.cur / 16)).deque = own.deque ∧
          asks s (.fork ib k a (some r) true) .replies (.amo .add 8 1 0) k (w 3) loc t))) ∧
    (∀ loc, s.access s.cur a 8 8 .block needR = (.ok loc, s) → ownLs s loc → s.poisonedIn loc 8 = false →
      (leNat (readMem s.mem loc 8) = 0 → Answers (.join k b) s (handedOn s)) ∧
      (leNat (readMem s.mem loc 8) ≠ 0 → Answers (.join k b) s fun t =>
        waits s (.join k a loc false) .counter [] t ∧
        (untimed s → owes t (s.now + 1024) .joinPoll (Arg.num2 s.cur s.th.issuedAt)))) ∧
    (∀ loc s', s.access s.cur a 8 8 .block needR = (.ok loc, s') → ¬ ownLs s loc → s'.lineBusy s.cur loc 8 = false →
      Answers (.join k b) s (asks s (.join k a loc false) .replies (.read 8) k a loc)) ∧
    (∀ x loc y, let u := s.arg.n
      (s.thread u).wait = some x → x.act = .join k a loc y → s.isSuspended (u / 16) = false →
      (x.why = .counter → s.arg.yes = false → s.arg.k = (s.thread u).issuedAt → inMemory s loc → s.poisonedIn loc 8 = false →
        (leNat (readMem s.mem loc 8) = 0 → Answers .joinPoll s fun t =>
          joinAnswered t u s.arg.k ∧ t.threads = s.threads ∧ sameMemory s t) ∧
        (leNat (readMem s.mem loc 8) ≠ 0 → Answers .joinPoll s fun t =>
          t.joins = s.joins ∧ (untimed s → owes t (s.now + 1024) .joinPoll (Arg.num2 u s.arg.k)) ∧ t.threads = s.threads ∧
          sameMemory s t)) ∧
      (∀ st rest, x.why = .counter ∨ x.why = .replies → s.arg.yes = true → s.joins = ⟨u, (s.thread u).issuedAt, none, st⟩ :: rest →
        Answers .joinPoll s fun t => released s t u (s.thread u).portstat plain ∧ t.joins = rest ∧ sameMemory s t)) ∧
    (s.th.mxErr = none → (∀ i, i < 8 → s.th.cpErr.get none i = none) →
      (¬ done → Answers (.tend k) s (waits s (.tend k) .performed [])) ∧
      (done → s.g 12 = 0 → s.th.depth = 0 → Answers (.tend k) s fun t =>
        t.th.st = .idle ∧ t.th.wait = none ∧ (s.th.wait = none → t.th.idleSince = s.th.issuedAt + 4) ∧ t.th.root = none ∧
        { still t.th with idleSince := 0, fetched := [], root := none } =
          { still s.th with idleSince := 0, fetched := [], root := none } ∧
        (∀ e, s.th.root = some e → s.isSuspended (s.leadOf e) = false → let x := s.entry e
          (x.pend = true → t.entry e = { x with pend := false } ∧ t.held = s.held ++ [⟨x.pc, x.a0, x.a1, 0, some e, false⟩] ∧
            comes t .sequencerRootPush (Arg.num e)) ∧
          (x.pend = false → t.entry e = { x with run := false } ∧ t.held = s.held)) ∧
        (∀ e, s.th.root = some e → s.isSuspended (s.leadOf e) = true → t.entry e = s.entry e ∧ t.held = s.held ∧
          t.stepsOver = s.stepsOver ++ [e]) ∧
        (∀ f, s.th.root ≠ some f → t.entry f = s.entry f) ∧
        (∀ u, u ≠ s.cur → t.thread u = s.thread u) ∧ t.cores = s.cores ∧ sameMemory s t) ∧
      (done → s.g 12 = 0 → s.th.depth ≠ 0 → Answers (.tend k) s fun t =>
        t.th.depth = s.th.depth - 1 ∧ transferred s t (s.g 1) False 4 ∧
        { still t.th with fetched := [], depth := 0 } = { still s.th with fetched := [], depth := 0 } ∧ onlyOwnThread s t) ∧
      (∀ loc s', done → s.g 12 ≠ 0 → s.access s.cur (s.g 12) 8 8 .atomic needRWA = (.ok loc, s') →
        Answers (.tend k) s (asks s (.tend k) .replies (.amo .add 8 (BitVec.allOnes 64) 0) k (s.g 12) loc))) ∧
    (∀ e, s.th.mxErr = some e → Answers (.tend k) s fun t => trappedAt s s.cur e.cause e.tval t ∧ t.th.mxErr = none) ∧
    (∀ e i, i < 8 → s.th.mxErr = none → (∀ j, j < i → s.th.cpErr.get none j = none) → s.th.cpErr.get none i = some e →
      Answers (.tend k) s fun t => trappedAt s s.cur e.cause e.tval t ∧ t.th.cpErr.get none i = none)

/-- 13 R200, R201: an arrival at a barrier with NEED 0 raises 0x69; it waits for its thread's earlier accesses and is then counted; one
that does not complete the count waits for the generation; the one that does releases every thread that waits at the barrier and starts
the count again. -/
def Obligations.BarriersReleaseTogether : Prop :=
  ∀ (cl : Bool) (n : Fin 16) (s : State), cl = true ∨ n.val < 4 →
    let i : Instr := if cl then .bark n else .barc (Fin.ofNat 4 n.val)
    let home := if cl then s.cur / 256 * 16 else s.cur / 16
    let b := if cl then 4 + n.val else n.val
    let x := s.bar home b
    let ib := ibits i
    let done (u : Nat) : Prop := ∀ r ∈ s.net, r.tid? ≠ some u
    let arrives (j : Instr) (u : Nat) : Prop :=
      (x.need ≠ 0 → x.count + 1 < x.need → Answers j s fun t =>
        t.bar home b = { x with count := x.count + 1 } ∧ (∀ c q, c ≠ home ∨ q ≠ b → t.bar c q = s.bar c q) ∧
        (t.thread u).st = .parked ∧ (∃ w, (t.thread u).wait = some w ∧ w.act = .bar ib cl n.val ∧ w.why = .gen x.gen) ∧
        (t.thread u).pc = (s.thread u).pc ∧ (∀ v, v ≠ u → t.thread v = s.thread v) ∧ sameMemory s t) ∧
      (x.need ≠ 0 → x.need ≤ x.count + 1 → (s.thread u).atBar cl n.val = false → Answers j s fun t =>
        t.bar home b = { x with count := 0, gen := !x.gen } ∧ (∀ c q, c ≠ home ∨ q ≠ b → t.bar c q = s.bar c q) ∧
        (∀ v, v = u ∨ ((s.thread v).atBar cl n.val = true ∧ v / 16 / (if cl then 16 else 1) = home / (if cl then 16 else 1)) →
          pcRule (s.thread v) (t.thread v) ((s.thread v).pc + 4) ∧ (t.thread v).st = .ready ∧ (t.thread v).wait = none ∧
          (t.thread v).readyAt = s.now + (if v / 16 = u / 16 then 4 else 8)) ∧
        (∀ v, v ≠ u → (s.thread v).atBar cl n.val = false → t.thread v = s.thread v) ∧ sameMemory s t)
    (x.need = 0 → Answers i s (trapped s 0x69 ib)) ∧
    (x.need ≠ 0 → ¬ done s.cur → Answers i s (waits s (.bar ib cl n.val) .performed [])) ∧
    (done s.cur → arrives i s.cur) ∧
    (∀ w, s.arg.n / (if cl then 256 else 16) = s.cur / (if cl then 256 else 16) → (s.thread s.arg.n).wait = some w →
      w.act = .bar ib cl n.val → w.why = .performed → done s.arg.n → arrives .barrierArrivalCount s.arg.n)

/-- 01 R18, R19; 15 R207, R208: the thread that has been idle longest takes the record of the landing slot, else the record at the bottom
of the deque; an idle core asks the core at its victim pointer; a victim answers with its top record or "empty", once no FORK of its core
waits for the deque (R207); a record that comes goes to the landing slot, and "empty" starts the back-off and doubles the next, up to
4,096. In the cycle after one that ends with a record and an idle thread in a core, a take is due. -/
def Obligations.DequesFeedIdleThreads : Prop :=
  ∀ (s : State),
    let c := s.arg.n
    let k := s.core c
    let idle (t : Nat) : Prop := t / 16 = c ∧ (s.thread t).st = .idle ∧ (s.thread t).idleSince ≤ s.now
    let longest (t : Nat) : Prop := idle t ∧ ∀ u, idle u → (s.thread t).idleSince < (s.thread u).idleSince ∨
      ((s.thread t).idleSince = (s.thread u).idleSince ∧ t ≤ u)
    let takes (t : Nat) (r : Rec) (y : State) : Prop :=
      let z := y.thread t
      z.st = .ready ∧ z.pc = r.pc ∧ z.rd 10 = r.a0 ∧ z.rd 11 = r.a1 ∧ z.rd 12 = r.jc ∧ z.depth = 0 ∧ z.root = r.root ∧
      z.readyAt = s.now + 1 ∧ (∀ q : Reg, q ≠ 10 → q ≠ 11 → q ≠ 12 → z.rd q = (s.thread t).rd q) ∧ z.m = (s.thread t).m ∧
      z.seg = (s.thread t).seg ∧ z.acc = (s.thread t).acc ∧ (∀ u, u ≠ t → y.thread u = s.thread u) ∧ sameMemory s y
    (∀ t r, longest t → s.isSuspended c = false → k.landing = some r → Answers .taskTake s fun y =>
      takes t r y ∧ (y.core c).landing = none ∧ (y.core c).deque = k.deque) ∧
    (∀ t r d, longest t → s.isSuspended c = false → k.landing = none → k.deque = d ++ [r] → k.dqUsed ≠ some s.now →
      Answers .taskTake s fun y => takes t r y ∧ (y.core c).deque = d) ∧
    (∀ t v, idle t → k.deque = [] → k.landing = none → k.stealOut = false → k.backUntil ≤ s.now → s.isSuspended c = false →
      k.victim = some v → v ∈ s.domain c → Answers .stealRequest s fun y =>
        y.steals = s.steals ++ [(c, v, none)] ∧ (y.core c).stealOut = true ∧ (y.core c).victim = after (s.domain c) v ∧
        comes y .stealService (Arg.num c) ∧ elseCores s y c) ∧
    (∀ v rest, s.steals = (c, v, none) :: rest → s.isSuspended v = false → (s.core v).dqUsed ≠ some s.now → ¬ pushWaits s v →
      ((s.core v).deque = [] → Answers .stealService s fun y =>
        (c, v, some none) ∈ y.steals ∧ y.core v = { s.core v with dqUsed := some s.now } ∧
        comes y .stealReply (Arg.num c) ∧ elseCores s y v) ∧
      (∀ r d, (s.core v).deque = r :: d → Answers .stealService s fun y =>
        (c, v, some (some r)) ∈ y.steals ∧ (y.core v).deque = d ∧
        comes y .stealReply (Arg.num c) ∧ elseCores s y v)) ∧
    (∀ v rest, (∀ r, s.steals = (c, v, some (some r)) :: rest → Answers .stealReply s fun y =>
        y.steals = rest ∧ (y.core c).landing = some r ∧ (y.core c).stealOut = false ∧ (y.core c).backoff = 64 ∧
        (y.core c).backUntil = 0 ∧ owes y s.now .taskTake (Arg.num c) ∧ elseCores s y c) ∧
      (s.steals = (c, v, some none) :: rest → Answers .stealReply s fun y =>
        y.steals = rest ∧ (y.core c).stealOut = false ∧ (y.core c).backUntil = s.now + k.backoff ∧
        (y.core c).backoff = min 4096 (2 * k.backoff) ∧ owes y (s.now + k.backoff) .stealBackoffExpiry (Arg.num c) ∧
        elseCores s y c)) ∧
    (k.backUntil ≤ s.now → Answers .stealBackoffExpiry s fun y =>
      y.core c = { k with backUntil := 0 } ∧ elseCores s y c ∧
      (∀ t, idle t → k.deque = [] → k.landing = none → k.stealOut = false → s.isSuspended c = false → s.domain c ≠ [] →
        ∃ d ∈ y.pending, d.ev.what = .stealRequest ∧ d.ev.arg.n = c ∧ d.due ≤ s.now)) ∧
    (∀ q, let y := s.endCycle
      y.idles q ≠ [] → (y.core q).landing ≠ none ∨ (y.core q).deque ≠ [] → y.isSuspended q = false →
        ∃ d ∈ y.pending, d.ev.what = .taskTake ∧ d.ev.arg.n = q ∧ d.due ≤ y.now)

/-- 15 R202 to R205; 27 R279: a slot of an entry whose step does not run starts it: its root record goes to the lead core, whose deque
takes it, or where it is held until the deque has room and no FORK waits for it; a slot of a running step is an overrun, counted, kept pending, or raised
as 0xA2 where its root record is, by the entry's rule. Slots passed over by a correction of the clock count as overruns (R202), and so do
those of a suspended component. -/
def Obligations.StepsStartTheirTasks : Prop :=
  ∀ (s : State),
    let e := s.arg.n
    let x := s.entry e
    let lead := (s.comp x.comp.toNat).lead.toNat
    let root : Rec := ⟨x.pc, x.a0, x.a1, 0, some e, false⟩
    let room : Prop := (s.core lead).deque.length + (s.core lead).reserved < 64 ∧ (s.core lead).dqUsed ≠ some s.now ∧
      ¬ pushWaits s lead
    let counts (j : Nat) : BitVec 32 := BitVec.ofNat 32 (min (x.ovrcnt.toNat + j) (2 ^ 32 - 1))
    let others (t : State) : Prop := ∀ f, f ≠ e → t.entry f = s.entry f
    (∀ m, s.slotCame e = true → (∀ f, f < e → s.slotCame f = false) → s.slotReached e = some m →
      let n := (m - s.nextSlotNo e).toNat
      let acts (y : StepEntry) (t : State) : Prop := t.entry e = y ∧ others t ∧ t.slots.get 0 e = m + 1 ∧ sameMemory s t
      let counted (j : Nat) (t : State) : Prop := acts { x with ovrcnt := counts (n + j) } t
      (s.isSuspended lead = true → Answers .stepSlot s fun t => counted 1 t ∧ t.cores = s.cores ∧ t.threads = s.threads) ∧
      (s.isSuspended lead = false →
        (x.run = false → Answers .stepSlot s fun t => acts { x with ovrcnt := counts n, run := true } t ∧
          t.held = s.held ++ [root] ∧ comes t .sequencerRootPush (Arg.num e) ∧ t.cores = s.cores ∧ t.threads = s.threads) ∧
        (x.run = true → x.ovr ≠ 1 ∧ x.ovr ≠ 2 ∨ (x.ovr = 1 ∧ x.pend = true) → Answers .stepSlot s fun t =>
          counted 1 t ∧ t.cores = s.cores ∧ t.threads = s.threads) ∧
        (x.run = true → x.ovr = 1 → x.pend = false → Answers .stepSlot s fun t =>
          acts { x with ovrcnt := counts n, pend := true } t ∧ t.cores = s.cores ∧ t.threads = s.threads) ∧
        (x.run = true → x.ovr = 2 →
          (∀ u, (s.thread u).root = some e → (∀ v, v ≠ u → (s.thread v).root ≠ some e) →
            ((s.thread u).st = .parked → Answers .stepSlot s fun t =>
              counted 1 t ∧ trappedAt s u 0xA2 (BitVec.ofNat 64 e) t) ∧
            ((s.thread u).st ≠ .parked → Answers .stepSlot s fun t => counted 1 t ∧ t.cores = s.cores ∧
              t.thread u = { s.thread u with async := some ((s.thread u).async.getD ⟨0xA2, BitVec.ofNat 64 e⟩) } ∧
              ∀ v, v ≠ u → t.thread v = s.thread v)) ∧
          ((∀ v, (s.thread v).root ≠ some e) → Answers .stepSlot s fun t => counted 1 t ∧ t.threads = s.threads ∧
            (∀ c, t.core c = { s.core c with
              deque := (s.core c).deque.map (Rec.late e), landing := (s.core c).landing.map (Rec.late e) }) ∧
            t.held = s.held.map (Rec.late e) ∧
            ∀ a b r, (a, b, some (some r)) ∈ s.steals → (a, b, some (some (r.late e))) ∈ t.steals)))) ∧
    (∀ r, s.held.find? (fun r => r.root == some e) = some r →
      (s.isSuspended lead = true → Answers .sequencerRootPush s fun t => t = s) ∧
      (s.isSuspended lead = false → room → Answers .sequencerRootPush s fun t =>
        t.held = s.held.erase r ∧ (t.core lead).deque = (s.core lead).deque ++ [r] ∧ elseCores s t lead) ∧
      (s.isSuspended lead = false → ¬ room → Answers .sequencerRootPush s fun t =>
        t.held = s.held.erase r ++ [r] ∧ owes t (s.now + 1) .sequencerRootPush (Arg.num e) ∧ quiet s t))

/-! ### Requests and their answers -/

/-- 21 R238, R239, R243; 01 R16; 11 R152, R153, R154: a request that arrives at a slice or at HBM, its gate open, is applied there; held
in the gate while what has been applied does not cover it; one for a core joins its service thread's queue, but a copy's write to a
register image takes effect as it lands (09 R120). The service thread applies the
message at the head of its queue; a full/empty operation whose condition holds completes, else it is set aside, examined again every 1,024
cycles, and answered 0x86 past its limit. -/
def Obligations.HomesApplyRequests : Prop :=
  ∀ (r : Req) (s : State),
    let mem : Prop := inMemory s r.loc ∧ s.poisonedIn r.loc r.len = false
    (∀ p, s.req? s.arg.n = some r → s.placeOf r.loc = some p → (∀ f, p ≠ .far f) →
      let fabric : Prop := ∀ c o, p ≠ .core c o
      (r.phase = .sent → s.arrivesNext r = true → s.arg.yes = false →
        (r.open? s p.die = true → fabric → mem → serves .homeApply s r fun t => t.cores = s.cores) ∧
        (r.open? s p.die = false → Answers .homeApply s fun t =>
          stands t r.id .gated ∧ t.threads = s.threads ∧ t.cores = s.cores ∧ t.mem = s.mem) ∧
        (∀ c o, let lands : Prop := (∃ u i j q, r.src = .copy u i j q) ∧ (∃ b, r.op = .write b) ∧ 0x100000 ≤ o ∧ o < 0x600000
          p = .core c o → r.open? s p.die = true → s.isSuspended c = false → r.inCluster = false →
          (¬ lands → Answers .homeApply s fun t =>
            stands t r.id .queued ∧ t.core c = { s.core c with svc := (s.core c).svc ++ [.msg r.id] } ∧ elseCores s t c) ∧
          (lands → Answers .homeApply s fun t =>
            stands t r.id (.answered (.bytes [])) ∧ comes t .storeAcknowledge (Arg.num r.id) ∧ (t.core c).svc = (s.core c).svc ∧
            (∀ x b, r.op = .write b → 0x500000 ≤ o → o < 0x510000 → o % 8 = 0 → b.length = 8 → x = 16 * c + (o - 0x500000) / 256 →
              o % 256 ≠ 0 → (s.thread x).late < s.now → ∀ q : Reg, q.val = o % 256 / 8 →
                (t.thread x).rd q = BitVec.ofNat 64 (leNat b))))) ∧
      (r.phase = .gated → r.open? s p.die = true → fabric → mem → serves .gateApply s r fun t => t.cores = s.cores)) ∧
    (∀ rest, s.req? r.id = some r → (s.core s.arg.n).svc = .msg r.id :: rest → mem →
      let after (t : State) : Prop := (t.core s.arg.n).svc = rest
      serves .serviceMessage s r after ∧
      (∀ op x lim, r.op = .fe op x lim → r.loc % 8 = 0 → inLs s.arg.n r.loc = true → s.arg.n < 8192 →
        let try' := feStep op (s.fe.get false (r.loc / 8)) (BitVec.ofNat 64 (leNat (readMem s.mem r.loc 8))) x
        (∀ ans wr bit, try' = some (ans, wr, bit) → Answers .serviceMessage s (feDone s r ans wr bit)) ∧
        (try' = none → (s.asideOf s.arg.n).length < 32 → Answers .serviceMessage s fun t =>
          stands t r.id (.aside 0 s.now) ∧ after t ∧ owes t (s.now + 1024) .fePeriodicExamination (Arg.num2 s.arg.n r.id) ∧
          t.threads = s.threads ∧ t.mem = s.mem))) ∧
    (∀ rest n at' op x lim, s.req? r.id = some r → (s.core s.arg.n).svc = .exam r.id :: rest → mem → r.phase = .aside n at' →
      r.op = .fe op x lim → r.loc % 8 = 0 → inLs s.arg.n r.loc = true → s.arg.n < 8192 →
      let try' := feStep op (s.fe.get false (r.loc / 8)) (BitVec.ofNat 64 (leNat (readMem s.mem r.loc 8))) x
      (∀ ans wr bit, try' = some (ans, wr, bit) → Answers .feExamination s (feDone s r ans wr bit)) ∧
      (try' = none → n < lim → Answers .feExamination s fun t =>
        stands t r.id (.aside (n + 1) at') ∧ t.threads = s.threads ∧ t.mem = s.mem) ∧
      (try' = none → lim ≤ n → Answers .feExamination s fun t =>
        stands t r.id (.answered (.cause 0x86)) ∧ t.threads = s.threads ∧ t.mem = s.mem)) ∧
    (∀ n at', s.req? s.arg.k = some r → r.phase = .aside n at' → inLs s.arg.n r.loc = true →
      Answers .fePeriodicExamination s fun t =>
        t.core s.arg.n = { s.core s.arg.n with svc := (s.core s.arg.n).svc ++ [.exam r.id] } ∧
        owes t (s.now + 1024) .fePeriodicExamination s.arg ∧ elseCores s t s.arg.n ∧ t.net = s.net)

/-- 11 R146, R148, R150, R152, R154; 07 R106, R114, R115; 13 R197 to R199; 21 R240, R245; 29 R286; 19 R233; 27 R277: the answer that a
thread waits for is written and its instruction completes, as a load, an atomic, a full/empty operation, FORK, JOIN, TEND, SEGLD or BTAG
does, or its cause is raised; a store's acknowledgement ends it, and the cause of the earliest store that failed is raised at the thread's
next issue (the earliest is the one that was issued first: log entry 18); a posted store is accepted and its instruction completes; a
refused request is sent again, its paged address translated anew, and past RNRLIM ends with 0x90; replicas take the writes of their home
and are dropped; a parcel that a thread lacks is fetched. -/
def Obligations.AnswersReachTheirThreads : Prop :=
  ∀ (r : Req) (u : Nat) (s : State),
    let gone (t : State) : Prop := ∀ q ∈ t.net, q.id ≠ r.id
    let x := s.thread u
    let waitsFor (w : Wait) (why : Why) : Prop := x.wait = some w ∧ w.why = why ∧ w.reqs = [r.id] ∧ w.got = [] ∧ w.bad = none
    let gets (d : Reg) (v : Word) (t : State) : Prop :=
      (∀ q : Reg, (t.thread u).rd q = if q = d ∧ d ≠ 0 then v else x.rd q) ∧
      released s t u x.portstat (fun x => { x with g := .empty, oldG := [] })
    let goes (target : Word) (call : Prop) (t : State) : Prop :=
      let y := t.thread u
      y.pc = target ∧ y.fetched = [] ∧ y.st = .ready ∧ y.wait = none ∧ (∀ v, v ≠ u → t.thread v = s.thread v) ∧
      (∀ l, l < 2 → y.lc.get 0 l = open Classical in if ¬ call ∧ outside x l target then 0 else x.lc.get 0 l)
    (s.req? s.arg.n = some r → r.src = .thread u 0 →
      (∀ w b, waitsFor w .replies → r.isWrite = false → s.arg.yes = false → r.phase = .answered (.bytes b) →
        s.replicasDue r.id = false →
        let comes (P : State → Prop) : Prop := Answers .remoteReply s fun t => P t ∧ gone t ∧ sameMemory s t
        (∀ d z sg a k, w.act = .load d z sg a k →
          comes (gets d (if sg then BitVec.ofInt 64 (sgn (8 * z) (leNat b)) else BitVec.ofNat 64 (leNat b)))) ∧
        (∀ op d z a v c k, w.act = .amo op d z a v c k →
          comes (gets d (if op = .fadd ∨ op = .fmaxa then BitVec.ofNat 64 (leNat b) else BitVec.ofInt 64 (sgn (8 * z) (leNat b))))) ∧
        (∀ op d a v lim k, w.act = .fe op d a v lim k →
          (op = .synld ∨ op = .feread → comes (gets d (BitVec.ofNat 64 (leNat b)))) ∧
          (op = .synst ∨ op = .feset → comes fun t => released s t u x.portstat plain)) ∧
        (∀ ib k a q, w.act = .fork ib k a (some q) true →
          let c := s.core (u / 16)
          (c.dqUsed ≠ some s.now → comes fun t => released s t u x.portstat plain ∧
            (t.core (u / 16)).deque = c.deque ++ [q] ∧ (t.core (u / 16)).reserved = c.reserved - 1) ∧
          (c.dqUsed = some s.now → comes fun t => (t.core (u / 16)) = c ∧ (∀ v, v ≠ u → t.thread v = s.thread v) ∧
            (t.thread u).st = .parked ∧ ∃ y, (t.thread u).wait = some y ∧ y.act = w.act ∧ y.why = .cond ∧ y.got = [(0, b)])) ∧
        (∀ ib k a q, w.act = .fork ib k a (some q) false → comes fun t =>
          goes q.pc True t ∧ (t.thread u).depth = x.depth + 1 ∧ t.cores = s.cores ∧
          (∀ y : Reg, (t.thread u).rd y = if y = 1 then x.pc + 4 else if y = 10 then q.a0 else if y = 11 then q.a1
            else if y = 12 then q.jc else x.rd y)) ∧
        (∀ k a loc again, w.act = .join k a loc again →
          (leNat b = 0 → comes fun t => released s t u x.portstat plain) ∧
          (leNat b ≠ 0 → again = false → (∀ p, s.placeOf loc ≠ some (.far p)) → comes fun t =>
            (∀ v, v ≠ u → t.thread v = s.thread v) ∧ (t.thread u).st = .parked ∧
            (∃ y, (t.thread u).wait = some y ∧ y.act = .join k a loc false ∧ y.why = .counter) ∧
            (untimed s → owes t (s.now + 1024) .joinPoll (Arg.num2 u x.issuedAt))) ∧
          (∀ l, leNat b ≠ 0 → again = true → s.access u a 8 8 .block needR = (.ok l, s) → inLs (u / 16) l = false →
            (∀ q ∈ s.net, q.tid? = some u → q.isWrite = false) → comes fun t => (t.thread u).st = .parked ∧
            ∃ y, (t.thread u).wait = some y ∧ y.act = .join k a l false ∧ y.why = .replies ∧
              ∃ q ∈ t.net, y.reqs = [q.id] ∧ q.op = .read 8 ∧ q.loc = l)) ∧
        (∀ k, w.act = .tend k →
          (x.depth = 0 → comes fun t => (t.thread u).st = .idle ∧ (t.thread u).wait = none ∧ (t.thread u).root = none ∧
            (∀ e, x.root = some e → (s.entry e).pend = false → s.isSuspended (s.leadOf e) = false →
              t.entry e = { s.entry e with run := false }) ∧
            (∀ v, v ≠ u → t.thread v = s.thread v)) ∧
          (x.depth ≠ 0 → comes fun t => goes (x.rd 1) False t ∧ (t.thread u).depth = x.depth - 1)) ∧
        (∀ ib dir n a, w.act = .btag ib dir n a → comes (goes (BitVec.ofNat 64 (leNat b)) False))) ∧
      (∀ w c, waitsFor w .replies → r.isWrite = false → s.arg.yes = false → (∀ ff d v e st k, w.act ≠ .vload ff d v e st k) →
        (r.phase = .answered (.cause c) → s.replicasDue r.id = false → Answers .remoteReply s fun t =>
          trappedAt s u c r.seg t ∧ gone t) ∧
        (r.phase = .refused → ((s.core (u / 16)).regAt s.now kRNRCTL).toNat % 256 < r.tries → Answers .rnrRetry s fun t =>
          trappedAt s u 0x90 r.seg t ∧ gone t)) ∧
      (r.phase = .refused → r.tries ≤ ((s.core (u / 16)).regAt s.now kRNRCTL).toNat % 256 →
        let again (loc : Nat) (s' : State) : Prop := Answers .rnrRetry s fun t =>
          (∃ q ∈ t.net, q.id = r.id ∧ q.loc = loc ∧ q.op = r.op ∧
            (if s'.hasCredit { r with loc := loc } then
              q.phase = .sent ∧ Spec.comes t .homeApply (Arg.num r.id) else q.phase = .nocredit)) ∧ quiet s t
        (2 ^ 56 ≤ r.gva → again r.loc s) ∧
        (∀ loc s', r.gva < 2 ^ 56 → s.pageXl r.cluster r.asid r.priv r.gva r.op.need = (.ok loc, s') → again loc s')) ∧
      (r.isWrite = true → x.wait = none → s.replicasDue r.id = false →
        (r.phase = .answered (.bytes []) → Answers .storeAcknowledge s fun t => gone t ∧ quiet s t) ∧
        (∀ c k, r.phase = .answered (.cause c) → (s.core (u / 16)).comp = some k → s.ended.contains k = false →
          Answers .storeAcknowledge s fun t =>
            gone t ∧ t.thread u = (if x.deferred ≠ none ∧ x.deferredNo ≤ r.id then x
              else { x with deferred := some ⟨c, r.seg⟩, deferredNo := r.id }) ∧ elsewhere s t u)) ∧
      (∀ w z a v k, waitsFor w .accepts → w.act = .store z a v k → r.phase = .fresh → Answers .postedStoreAcceptance s fun t =>
        (∃ q ∈ t.net, q.id = r.id ∧ q.op = r.op ∧ (q.phase = .sent ∨ q.phase = .held ∨ q.phase = .nocredit)) ∧
        released s t u x.portstat plain ∧ sameMemory s t)) ∧
    (∀ w n a e b lo hi, s.req? s.arg.n = some r → r.src = .thread u e → r.isWrite = false → s.arg.yes = false →
      r.phase = .answered (.bytes b) → s.replicasDue r.id = false → x.wait = some w → w.why = .replies → w.reqs = [r.id] →
      w.bad = none → w.act = .segld n a → (e = 0 ∧ b = lo ∧ w.got = [(8, hi)]) ∨ (e = 8 ∧ b = hi ∧ w.got = [(0, lo)]) →
      segCause (x.seg.get 0 (selOf a)) (selOf a) (offOf a) 16 needR = none → offOf a % 16 = 0 →
      let g : BitVec 128 := BitVec.ofNat 128 (leNat (lo ++ hi))
      (segOk g = true → Answers .remoteReply s fun t =>
        (∀ i, i < 8 → (t.thread u).seg.get 0 i = if i = n.val then g else x.seg.get 0 i) ∧
        (t.thread u).fetched = (if n = 0 then [] else x.fetched) ∧
        released s t u x.portstat (fun x => { x with seg := .empty, fetched := [] }) ∧ gone t ∧ sameMemory s t) ∧
      (segOk g = false → Answers .remoteReply s fun t => trappedAt s u 0x03 a t ∧ gone t)) ∧
    (∀ x pre post, s.replicas = pre ++ x :: post → x.die = s.arg.n → x.line = s.arg.k →
      (∀ y ∈ pre ++ post, ¬ (y.die = s.arg.n ∧ y.line = s.arg.k)) →
      (∀ l b st q rest, x.updates = (l, b, st, q) :: rest → Answers .replicaUpdate s fun t =>
        t.replicas = pre ++ { x with bytes := x.bytes.take (l % 64) ++ b ++ x.bytes.drop (l % 64 + b.length),
                                     stamp := if st.isSome then st else x.stamp, updates := rest } :: post ∧
        { t with replicas := s.replicas } = s) ∧
      Answers .replicaDrop s fun t => t.replicas = pre ++ post ∧ { t with replicas := s.replicas } = s) ∧
    (∀ p o s', u = s.arg.n → s.isSuspended (u / 16) = false → (s.thread u).pc.getLsbD 0 = false →
      (s.thread u).fetched = [] → s.fetchAt u o = (.parcel p, s') →
      (s.arg.yes = false ∧ (s.thread u).st = .ready ∧ o = (s.thread u).pc) ∨
        (s.arg.yes = true ∧ ((s.thread u).st = .parked ∨ (s.thread u).st = .ready) ∧ o = s.arg.word ∧ (s.thread u).ahead o = true) →
      Answers .parcelFetch s fun t =>
        t.thread u = { s.thread u with fetched := [(o, p, s.now)] } ∧ elsewhere s t u)

/-! ### Faults, bounds and maintenance -/

/-- 27 R273, R275: a page-fault record held for a full ring is written once a slot is free; a wake message makes the thread that is parked
on the fault issue its instruction again; past FSBOUND it takes 0x36; a wait without a bound of its own takes 0xA1 after WDLIM times 1,024
cycles. -/
def Obligations.FaultServiceAndWatchdog : Prop :=
  ∀ (f : PFault) (rest : List PFault) (s : State),
    let u := s.arg.n
    let v := s.faultService f.comp
    (s.pfaults = f :: rest → f.comp = s.arg.n → f.written = none → (∀ g ∈ rest, g ≠ f) →
      ringRoom s v.ring.toNat v.slots.toNat → Answers .faultRecordRelease s fun t =>
        placed s t v.ring.toNat v.slots.toNat v.wake.toNat f.record ∧ t.pfaults = rest ++ [{ f with written := some s.now }] ∧
        owes t (s.now + v.fsbound.toNat + 1) .faultServiceTimeout (Arg.num f.tid)) ∧
    (∀ w, u ∈ s.fwakes → (∃ g ∈ s.pfaults, g.tid = u) → (s.thread u).wait = some w → w.why = .page →
      Answers .faultWake s fun t =>
        t.thread u = { s.thread u with st := .ready, wait := none, readyAt := nextReady s.now (s.thread u) w.dist } ∧
        (w.act = .fetch false → (s.thread u).issuedAt ≤ s.now → (t.thread u).readyAt = s.now + 1) ∧ (∀ g ∈ t.pfaults, g.tid ≠ u) ∧
        (∀ x, x ≠ u → t.thread x = s.thread x) ∧ sameMemory s t) ∧
    (∀ w c, s.pfaults = f :: rest → f.tid = u → f.src = 0 → f.written = some c → c + v.fsbound.toNat < s.now →
      (s.thread u).wait = some w → w.why = .page → Answers .faultServiceTimeout s fun t =>
        trappedAt s u 0x36 f.tval t ∧ t.pfaults = rest) ∧
    (∀ w, let lim := ((s.core (u / 16)).regAt s.now kWDCTL).toNat % 2 ^ 32
      (s.thread u).wait = some w → w.unbounded = true → lim ≠ 0 → (s.thread u).issuedAt + 1024 * lim < s.now →
      Answers .watchdog s (trappedAt s u 0xA1 (BitVec.ofNat 64 lim)))

/-- 27 R277; 17 R219, R222: a write of SDREQ starts a shoot-down, which removes the matching entries of every TLB of the own die at once, and of
another die when its request has reached it; the acknowledgements come back, and the last clears BUSY and counts in SEQ; a control-window
write takes effect on a per-core register, on NEED of a barrier, whose reads see it four cycles later, on a mask register, and on a
loop register of the writer or of a thread that is halted or parked, and on no other; the scrubber corrects a single error, and poisons a
line with a double one and ends the component that owns it. That the acknowledgement of a shoot-down comes in the next cycle is the
model's choice (log entry 9), and so are the locations from 2^57 by which hidden arrays are named (log entry 56). -/
def Obligations.ControlWindowAndScrubber : Prop :=
  ∀ (w : CwWrite) (rest : List CwWrite) (s : State),
    let c := s.arg.n
    let k := s.core c
    let hit (word : Word) (asid : BitVec 12) (e : TlbEnt) : Prop :=
      let v := word.toNat
      let page := v / 2 ^ 16 % 2 ^ 40 * 2 ^ 16
      e.asid = asid ∧ (v % 4 = 3 ∨ (v % 4 = 0 ∧ e.base < page + 2 ^ 16 ∧ page < e.base + e.size) ∨
        (v % 4 = 1 ∧ e.base < page + 2 ^ 27 ∧ page < e.base + e.size) ∨
        (v % 4 = 2 ∧ e.base < page + 2 ^ 38 ∧ page < e.base + e.size))
    let noJoin : Prop := ∀ u x k a l y, (s.thread u).wait = some x → x.act ≠ .join k a l y
    let reaches (word : Word) (asid : BitVec 12) (d : Nat) (t : State) : Prop :=
      (∀ x e, x / 64 = d → e ∈ (t.cluster x).tlb → ¬ hit word asid e) ∧ (∀ e, e ∈ (t.die d).tlb → ¬ hit word asid e) ∧
      (∀ x, x / 64 = d → owes t (s.now + 1) .shootdownAck (Arg.num2 c x)) ∧ d ∉ (t.core c).sdDies ∧ elseCores s t c
    (s.cwWrites = w :: rest → w.core = c →
      (w.off = 0x610348 → k.sdBusy = false → s.arg.k = 0 → noJoin → Answers .shootdownRequest s fun t =>
        (t.core c).sdBusy = true ∧ (t.core c).sdWord = w.v ∧ (t.core c).sdAsid = w.asid ∧ (t.core c).sdSeq = k.sdSeq ∧
        (t.core c).sdWait = List.range 512 ∧ reaches w.v w.asid (c / 1024) t ∧
        (∀ d, d < 8 → d ≠ c / 1024 → d ∈ (t.core c).sdDies ∧ comes t .shootdownRequest (Arg.num2 c (d + 1)))) ∧
      (∀ b, b < 4 → w.off = 0x610200 + 16 * b → Answers .controlWindowWrite s fun t =>
        t.bar c b = { s.bar c b with need := min (w.v.toNat % 512) 16 } ∧ elseCores s t c ∧
        (k.needs = [] → ({ t with now := s.now + 3 } : State).cwRead c (.bar b) = (s.bar c b).word ∧
          ({ t with now := s.now + 4 } : State).cwRead c (.bar b) = (t.bar c b).word)) ∧
      (∀ n, n < 8 → w.off = 0x610000 + 8 * n → Answers .controlWindowWrite s fun t =>
        t.cwWrites = rest ∧ (t.core c).regLast n = w.v ∧ elseCores s t c) ∧
      (∀ (l : Nat) (n : MReg) (j : Nat), l < 16 → j < 8 → n ≠ 0 → w.off = 0x600000 + 0x1000 * l + 64 * n.val + 8 * j →
        Answers .controlWindowWrite s fun t =>
          (∀ i, i < 512 → ((t.thread (16 * c + l)).rdM n).getLsbD i =
            if i / 64 = j then w.v.getLsbD (i % 64) else ((s.thread (16 * c + l)).rdM n).getLsbD i) ∧
          (∀ q, q ≠ n → (t.thread (16 * c + l)).rdM q = (s.thread (16 * c + l)).rdM q) ∧ elsewhere s t (16 * c + l)) ∧
      (∀ (l lvl : Nat), l < 16 → lvl < 2 → w.off = 0x600000 + 0x1000 * l + 0x310 + 0x18 * lvl →
        let u := 16 * c + l
        let may : Prop := u = w.tid ∨ ((s.thread u).st = .halted ∧ (s.thread u).late ≤ s.now) ∨ (s.thread u).st = .parked
        (may → Answers .controlWindowWrite s fun t =>
          t.thread u = { s.thread u with lc := (s.thread u).lc.set 0 lvl w.v } ∧ elsewhere s t u) ∧
        (¬ may → Answers .controlWindowWrite s fun t => quiet s t))) ∧
    (∀ d, s.arg.k = d + 1 → d ∈ k.sdDies → k.sdDies.Nodup → noJoin → Answers .shootdownRequest s (reaches k.sdWord k.sdAsid d)) ∧
    (∀ x, k.sdBusy = true → x = s.arg.k → x ∈ k.sdWait →
      let ready : Prop := s.arg.yes = false ∧ x ∉ k.sdBack ∧ x / 64 ∉ k.sdDies ∧
        ((s.cluster x).gated = true ∨ (∀ r ∈ s.net, r.id ∈ k.sdReqs → r.cluster = x → r.phase = .refused))
      let comesIn : Prop := (ready ∧ x / 64 = c / 1024) ∨ (s.arg.yes = true ∧ x ∈ k.sdBack)
      (ready → x / 64 ≠ c / 1024 → Answers .shootdownAck s fun t =>
        t.core c = { k with sdBack := k.sdBack ++ [x] } ∧ comes t .shootdownAck { Arg.num2 c x with yes := true } ∧ elseCores s t c) ∧
      (comesIn → k.sdWait = [x] → Answers .shootdownAck s fun t =>
        (t.core c).sdBusy = false ∧ (t.core c).sdSeq = k.sdSeq + 1 ∧ (t.core c).sdWait = [] ∧ elseCores s t c) ∧
      (∀ y, comesIn → y ∈ k.sdWait → y ≠ x → Answers .shootdownAck s fun t =>
        (t.core c).sdBusy = true ∧ (t.core c).sdSeq = k.sdSeq ∧ (t.core c).sdWait = k.sdWait.filter (fun z => z != x) ∧
        elseCores s t c)) ∧
    (let loc := s.arg.n
     let byTag (a : BitVec 12) (x : Nat) : Prop := x < 64 ∧ (s.comp x).valid = true ∧ (s.comp x).asid = a ∧
       ∀ y, y < x → ¬ ((s.comp y).valid = true ∧ (s.comp y).asid = a)
     let region (p : Nat × AsidEntry) : Prop := p.2.live = true ∧ p.2.base ≤ loc ∧ loc < p.2.base + p.2.size
     let owner (x : Nat) : Prop := match decodeWin loc with
       | some (.core d o) => if o < 0x100000 then byTag (s.tagAt loc) x else (s.core d).comp = some x
       | some _ => byTag (s.tagAt loc) x
       | none => if loc / 2 ^ 57 = 1 then (s.core (loc % 2 ^ 57 / 2 ^ 23)).comp = some x
         else ∃ p ∈ s.asids.entries, region p ∧ (∀ q ∈ s.asids.entries, region q → q = p) ∧ byTag (BitVec.ofNat 12 p.1) x
     (decodeWin loc = none ∧ loc / 2 ^ 57 ≠ 1 ∧ 2 ^ 52 ≤ loc ∨ s.arg.ecc = .none → Answers .scrubRead s fun t => t = s) ∧
     (decodeWin loc ≠ none ∨ loc / 2 ^ 57 = 1 ∨ loc < 2 ^ 52 →
       (s.arg.ecc = .single → Answers .scrubRead s fun t => t = { s with corrected := s.corrected + 1 }) ∧
       (s.arg.ecc = .double → Answers .scrubRead s fun t =>
         (loc / 2 ^ 57 ≠ 1 → t.poisonAt loc = some ⟨false, 0, 0⟩) ∧ (loc / 2 ^ 57 = 1 → t.poison = s.poison ∧ t.cores = s.cores) ∧
         (∀ l, l / 64 ≠ loc / 64 → t.poisonAt l = s.poisonAt l) ∧ (∀ u, t.thread u = s.thread u) ∧
         (∀ c, { t.core c with vbad := (s.core c).vbad } = s.core c) ∧ sameMemory s t ∧
         (∀ x, owner x → owes t s.now .componentEnd (Arg.num2 0 x) ∧ (x, loc / 64) ∈ t.damaged) ∧
         (decodeWin loc ≠ none → (∀ x, ¬ owner x) → t.damaged = s.damaged))))

/-! ### The edge of the package -/

/-- 21 R242, R243; 29 R282, R284, R285, R287 to R290, R292; 15 R206: a flit is laid out as R282 has it; a changed prefix is sent in a flit
of its own; a flit that arrives brings its beacon, the stamp of its write and its message, where it finds an entry; one with a bad CRC
asks for a replay of what the sender kept, one with a reserved bit is discarded and counted, one for another die goes on; a mailbox write
of the owner goes to its ring, or is answered receiver-not-ready or DENY; packets are resent up to seven times, for tokens, and then their
request ends with 0x92; buckets fill at their rate up to their burst; only the owner sets buckets and reserved entries; a packet of class
O takes effect in its order, one that was applied is not applied twice, a reply is acknowledged, a packet that the other gateway serves is
passed on over UCIe, one of a reserved TYPE dropped, a packet for another package goes on, a damaged one spoilt, and one whose checks fail does not take effect, nor does any in recovery. -/
def Obligations.LinksAndGateways : Prop :=
  ∀ (s : State),
    let a := s.arg.n
    let b := s.arg.k
    let l := a * 10 + b
    let applied := (s.die a).p.getD a 0
    let word (F : List Byte) (i : Nat) : Nat := leNat ((F.drop (8 * i)).take 8)
    let crcOk (F : List Byte) : Prop := crc32 (F.take 252) = BitVec.ofNat 32 (leNat (F.drop 252))
    let taken (f : Flit) (rest : List Flit) (t : State) : Prop :=
      (t.link l).flying = rest ∧ (t.link l).replay = (s.link l).replay.erase f ∧ (t.link l).got = (s.link l).got + 1 ∧
      (∀ d, f.msg = some d → owes t (s.now + d.due) d.ev.what d.ev.arg) ∧
      (∀ n, f.beacon = some n → f.src = a → n ≤ applied → a < (s.die b).p.length → (t.die b).p.getD a 0 = n) ∧
      (∀ id m r, f.stamp = some (id, m) → s.req? id = some r →
        ∃ q, t.req? id = some q ∧ q.stamp = some (m.decode (s.link l).lastIn)) ∧
      (∀ d, d ≠ b → t.die d = s.die d) ∧ quiet s t
    (∀ f : Flit, f.bytes.length = 256 ∧ crcOk f.bytes ∧
      word f.bytes 0 = f.dst % 16 + 16 * (f.src % 16) + 256 * (f.group % 16) + (if f.beacon.isSome then 4096 else 0) ∧
      word f.bytes 1 = f.beacon.getD 0 % 2 ^ 64) ∧
    ((s.link l).beacon ≠ applied → Answers .beaconTimer s fun t => ∃ f : Flit, f.dst = b ∧ f.src = a ∧ f.beacon = some applied ∧
      f.msg = none ∧ f.due = s.now + ucie a b ∧ (t.link l).flying = (s.link l).flying ++ [f] ∧
      (t.link l).replay = (s.link l).replay ++ [f] ∧ (t.link l).beacon = applied ∧ owes t f.due .beaconReceive (Arg.num2 a b) ∧
      quiet s t) ∧
    ((s.link l).beacon = applied → Answers .beaconTimer s fun t => t = s) ∧
    (∀ f rest, (s.link l).flying = f :: rest → (s.link l).ask = false →
      (f.due ≤ s.now → s.rxRoom l f.group = true → f.dst = b →
        Answers .beaconReceive s (taken f rest) ∧ (s.arg.bytes = [] → Answers .flitReceive s (taken f rest))) ∧
      (s.now < f.due → Answers .beaconReceive s fun t => t = s) ∧
      (f.due ≤ s.now → s.rxRoom l f.group = false → Answers .beaconReceive s fun t =>
        t.links = s.links ∧ owes t (s.now + 1) .beaconReceive s.arg ∧ quiet s t) ∧
      (let F := s.arg.bytes
       F ≠ [] →
        (¬ crcOk F → Answers .flitReceive s fun t => t.link l = { s.link l with flying := rest, ask := true } ∧ t.net = s.net ∧
          owes t (s.now + ucie a b) .flitReplay (Arg.num2 a b) ∧ quiet s t) ∧
        (crcOk F → word F 0 / 2 ^ 13 ≠ 0 → Answers .flitReceive s fun t =>
          t = s.modLink l fun x => { x with flying := rest, replay := x.replay.erase f, errors := x.errors + 1 }) ∧
        (crcOk F → word F 0 / 2 ^ 13 = 0 → f.due ≤ s.now → s.rxRoom l (word F 0 / 2 ^ 8 % 16) = true → word F 0 % 16 ≠ b →
          word F 0 % 16 < 10 → a < 10 → b < 10 → Answers .flitReceive s fun t =>
            let c := word F 0 % 16
            ∃ g, (t.link (b * 10 + c)).flying = (s.link (b * 10 + c)).flying ++ [g] ∧ g.msg = f.msg ∧ g.dst = c ∧
              owes t g.due .flitReceive (Arg.num2 b c) ∧ quiet s t))) ∧
    (∀ f rest, (s.link l).flying = f :: rest → (s.link l).ask = true → f.due ≤ s.now → Answers .flitReceive s fun t =>
      t = s.modLink l fun x => { x with flying := rest }) ∧
    ((s.link l).ask = true → Answers .flitReplay s fun t =>
      t.link l = { s.link l with
        ask := false, flying := (s.link l).replay.map fun f => { f with due := s.now + ucie a b } } ∧ quiet s t ∧
      ((s.link l).replay ≠ [] → owes t (s.now + ucie a b) .flitReceive (Arg.num2 a b))) ∧
    ((s.link l).ask = false → Answers .flitReplay s fun t => t = s) ∧
    (let x := s.mailboxes.get noMailbox a
     let ok : Prop := s.owns b = true ∧ s.resident = true ∧ x.valid = true ∧ s.arg.bytes.length = 64
     (ok → ringRoom s x.ring.toNat x.slots.toNat → Answers .mailboxWrite s fun t =>
       placed s t x.ring.toNat x.slots.toNat x.wake.toNat s.arg.bytes ∧
       t.out = s.out ++ [.mailAck b a (BitVec.ofNat 64 (s.ringHead x.ring.toNat))]) ∧
     (ok → ringIsFull s x.ring.toNat x.slots.toNat → Answers .mailboxWrite s fun t =>
       t = { s with out := s.out ++ [.mailRnr b a] }) ∧
     (¬ ok → Answers .mailboxWrite s fun t => t = { s with out := s.out ++ [.deny b s.owner] })) ∧
    (∀ o rest, (s.gw a).out = o :: rest → o.tag = b → (∀ x ∈ rest, x.tag ≠ b) →
      (let x := o.pkt.asid.toNat
       let k := (s.gw a).buckets.get Bucket.init x
       let cost := 1 + (o.pkt.payload.length + 63) / 64
       o.resends < 7 → (s.gw a).waiting = [] →
        (k.rate = 0xFFFF ∨ cost ≤ k.tokens → Answers .gatewayResendTimeout s fun t =>
          (t.gw a).out = { o with resends := o.resends + 1 } :: rest ∧ leavesBy s t a o.pkt ∧ (t.gw a).waiting = [] ∧
          (t.gw a).buckets.get Bucket.init x = (if k.rate = 0xFFFF then k else { k with tokens := k.tokens - cost }) ∧
          owes t (s.now + Config.eto) .gatewayResendTimeout (Arg.num2 a b) ∧ quiet s t) ∧
        (k.rate ≠ 0xFFFF → k.tokens < cost → Answers .gatewayResendTimeout s fun t =>
          (t.gw a).waiting = [.resend x b] ∧ (t.gw a).out = (s.gw a).out ∧ t.out = s.out ∧ quiet s t)) ∧
      (∀ r, 7 ≤ o.resends → s.req? o.req = some r → Answers .gatewayResendTimeout s fun t =>
        (t.gw a).out = rest ∧ stands t r.id (.answered (.cause 0x92)) ∧ t.out = s.out ∧ quiet s t)) ∧
    (let k := (s.gw a).buckets.get Bucket.init b
     k.rate ≠ 0xFFFF → k.due ≤ s.now → (s.gw a).waiting = [] → Answers .tokenAdd s fun t =>
       (t.gw a).buckets.get Bucket.init b = { k with tokens := min k.burst (k.tokens + k.rate), due := k.due + 1024 } ∧
       owes t (k.due + 1024) .tokenAdd (Arg.num2 a b) ∧ quiet s t) ∧
    (s.owns a = true → (s.gw b).waiting = [] → Answers .tokenBucketSet s fun t =>
      (t.gw b).buckets.get Bucket.init s.arg.p = ⟨s.arg.q, s.arg.r, s.arg.r, s.now + 1024⟩ ∧ t.out = s.out ∧ quiet s t) ∧
    (s.owns a = false → Answers .tokenBucketSet s fun t => t = { s with out := s.out ++ [.refusedSetting a] }) ∧
    (s.owns a = true → 2 * s.arg.nums.sum ≤ bufEntries b → Answers .trafficMinSet s fun t =>
      t.minOf b = s.arg.nums ∧ (∀ x, x ≠ b → t.minOf x = s.minOf x ∧ t.rxBuf x = s.rxBuf x) ∧
      { t with mins := s.mins, rx := s.rx } = s ∧
      (let y := s.rxBuf b
       let z := t.rxBuf b
       z.used = y.used ∧ z.kept = y.kept ∧ (y.eff.length = 16 → s.arg.nums.length = 16 →
        (∀ g, z.eff.getD g 0 ≤ s.arg.nums.getD g 0 ∧ (s.arg.nums.getD g 0 ≤ y.eff.getD g 0 → z.eff.getD g 0 = s.arg.nums.getD g 0)) ∧
        (z.eff = s.arg.nums ∨ bufEntries b ≤ z.taken) ∧ (y.taken ≤ bufEntries b → z.taken ≤ bufEntries b)))) ∧
    (s.owns a = false ∨ bufEntries b < 2 * s.arg.nums.sum → Answers .trafficMinSet s fun t =>
      t = { s with out := s.out ++ [.refusedSetting a] }) ∧
    (let p := s.arg.pkt
     let next := (s.gw a).seqIn.get 0 p.spkg
     let refused : Prop := (p.spkg, p.seq) ∈ (s.gw a).refused
     let turn : Prop := p.cls ≠ 0 ∨ refused ∨ (p.seq = next ∧ (s.gw 0).early = [] ∧ (s.gw 1).early = [])
     let here : Prop := (p.typ = 5 → a = 0) ∧ (p.typ = 6 → p.addr % 64 % 2 = a)
     let room : Prop := s.arg.yes = false ∧ s.rxRoom (100 + 16 * a + b) (p.f 8 4) = true
     let applied (t : State) : Option Applied := (t.gw a).replies.find? fun e => e.pkg == p.spkg && e.tag == p.tag
     let request : Prop := p.typ = 0 ∨ p.typ = 2 ∨ p.typ = 6
     let unapplied (t : State) : Prop := t.net = s.net ∧ quiet s t
     let answers (t : State) (g typ addr : Nat) : Prop := ∃ n,
       leavesBy s t g ((⟨typ, p.cls, 14, p.spkg, p.asid.toNat, n, p.tag, addr⟩ : Head).packet s.pkgId.toNat false [] false)
     (room →
       (p.headOk = false → Answers .ergPacketReceive s fun t => { t with rx := s.rx } = s) ∧
       (p.headOk = true → 7 ≤ p.typ → Answers .ergPacketReceive s fun t => t = s) ∧
       (p.headOk = true → p.typ < 7 → p.f 32 12 ≠ s.pkgId.toNat → p.dataOk = true → Answers .ergPacketReceive s fun t =>
         leavesBy s t a p ∧ unapplied t) ∧
       (p.headOk = true → p.typ < 7 → p.f 32 12 ≠ s.pkgId.toNat → p.dataOk = false → Answers .ergPacketReceive s fun t =>
         leavesBy s t a ⟨p.header, p.payload, p.trailer &&& 0xFFFFFF00FFFFFFFF ||| 0xA500000000⟩ ∧ unapplied t) ∧
       (p.headOk = true → p.f 32 12 = s.pkgId.toNat → p.sound = false ∨ (s.mgmt.recovery = true ∧ here) →
         Answers .ergPacketReceive s fun t => { t with rx := s.rx } = s) ∧
       (p.sound = true → p.f 32 12 = s.pkgId.toNat → a < 2 → (p.typ = 6 ∧ p.addr % 64 % 2 ≠ a) ∨ (p.typ = 5 ∧ a = 1) →
         Answers .ergPacketReceive s fun t => t.out = s.out ∧ unapplied t ∧ t.gws = s.gws ∧
           comes t .ergPacketReceive { Arg.none with n := 1 - a, yes := true, pkt := p, nums := [s.time.toNat] })) ∧
       (s.arg.yes = true → s.mgmt.recovery = true → Answers .ergPacketReceive s fun t => t = s) ∧
       (s.arg.yes = true ∨ (room ∧ p.sound = true ∧ p.f 32 12 = s.pkgId.toNat ∧ here) → s.mgmt.recovery = false → a < 2 →
         (∀ e q, request → applied s = some e → e.reply = some q → Answers .ergPacketReceive s fun t =>
           leavesBy s t a q ∧ unapplied t) ∧
         (∀ e, request → applied s = some e → e.reply = none → Answers .ergPacketReceive s fun t => t.out = s.out ∧ unapplied t) ∧
         (p.typ = 2 ∨ p.typ = 0 → applied s = none → p.cls = 0 → p.seq ≠ next → ¬ refused → Answers .ergPacketReceive s fun t =>
           t.out = s.out ∧ unapplied t ∧ ((p.seq + 2 ^ 32 - next) % 2 ^ 32 < 2 ^ 31 → (s.gw a).early.length < 64 →
             (∀ q ∈ (s.gw a).early, q.spkg = p.spkg → q.seq ≠ p.seq) → (t.gw a).early = (s.gw a).early ++ [p])) ∧
         (p.typ = 2 ∨ p.typ = 0 → applied s = none → turn → p.addr / 2 ^ 40 = s.pkgId.toNat → p.addr / 2 ^ 39 % 2 = 0 → a < 2 →
           Answers .ergPacketReceive s fun t =>
             let sent (op : ROp) (loc : Nat) : Prop := ∃ q ∈ t.net, q.src = .gateway a p.spkg p.tag ∧ q.op = op ∧ q.loc = loc ∧
               q.asid = p.asid ∧ q.gva = p.addr ∧ q.die = 8 + a ∧ (p.cls = 0 → (∀ z, op ≠ .read z) → q.num.isSome = true)
             quiet s t ∧ match ropOf (Config.ergRequest p.data) with
               | .write w => ∀ i, i < min 2048 w.length → ∃ x loc, sent (.write x) loc ∧ loc ≤ p.addr + i ∧
                   p.addr + i < loc + x.length ∧ x.getD (p.addr + i - loc) 0 = w.getD i 0
               | op => sent op p.addr) ∧
         (p.typ = 6 → applied s = none → turn →
           let m := s.mailboxes.get noMailbox (p.addr % 64)
           let g := if p.cls = 0 then gwFor p.spkg else a
           (¬ (s.owns p.spkg = true ∧ s.resident = true ∧ m.valid = true ∧ p.data.length = 64) → Answers .ergPacketReceive s fun t =>
             leavesBy s t a ((⟨5, 3, 15, p.spkg, 0xFFF, 0, 0, 0⟩ : Head).packet s.pkgId.toNat false
               (Config.mgmtPayload 10 (match s.owner with | some o => o + 1 | none => 0) 0 0) false) ∧ applied t = none ∧ quiet s t) ∧
           (s.owns p.spkg = true → s.resident = true → m.valid = true → p.data.length = 64 →
             (ringRoom s m.ring.toNat m.slots.toNat → Answers .ergPacketReceive s fun t =>
               placed s t m.ring.toNat m.slots.toNat m.wake.toNat p.data ∧ answers t g 3 (s.ringHead m.ring.toNat)) ∧
             (ringIsFull s m.ring.toNat m.slots.toNat → Answers .ergPacketReceive s fun t =>
               answers t g 4 p.addr ∧ applied t = none ∧ quiet s t))) ∧
         (∀ o r, turn → (s.gw a).out = [o] → o.tag = p.tag → o.pkt.f 32 12 = p.spkg → s.req? o.req = some r →
           (p.typ = 1 → Answers .ergPacketReceive s fun t =>
             (t.gw a).out = [] ∧ stands t r.id (.answered (if p.poison = true then .cause 0x91 else .bytes p.data)) ∧
             answers t (if p.cls = 0 then gwFor p.spkg else a) 3 p.addr ∧ quiet s t) ∧
           (p.typ = 3 → o.pkt.typ = 2 → Answers .ergPacketReceive s fun t =>
             (t.gw a).out = [] ∧ stands t r.id (.answered (.bytes [])) ∧ t.out = s.out ∧ quiet s t) ∧
           (p.typ = 4 → r.once = false → Answers .ergPacketReceive s fun t =>
             (t.gw a).out = [] ∧ stands t r.id .refused ∧ t.out = s.out ∧ quiet s t))))

/-! ### The device -/

/-- 29 R291 to R297: CLAIM, RENEW, HANDOVER, ACCEPT and the end of a lease; quotes and reads; a recovery image; cold and warm starts; the
thermal limits; and the messages that discipline the 1588 clock. Outside recovery each is served, and none touches a thread, a core or
memory but the starts, after which no thread runs. The quote's layout and its opaque salt, the identity key as a function of the fused
secret, and the opaque parts of images are the model's (log entry 13). -/
def Obligations.DeviceMessages : Prop :=
  ∀ (s : State),
    let h := s.arg.n
    let reports (i : Instr) (m : Mgmt) (out : List Out) : Prop := Answers i s fun t =>
      t.mgmt = m ∧ t.out = s.out ++ out ∧ quiet s t
    let at' : Time := BitVec.ofNat 80 (65536 * s.arg.k + s.arg.p)
    let lease := s.time + BitVec.ofNat 80 (65536 * 2 ^ 33)
    let c := s.clock
    let body := s.quoteBody s.arg.bytes
    let good (image firmware : Nat) : Prop :=
      BitVec.ofNat 512 (Sha.beNat (Sha.sha512 (Config.imageKeyBytes image))) = s.fuses.keyDigest ∧
      Sha.verifies (Config.imageKey image) (Config.imageSigned image) (Config.imageSignature image) = true ∧
      Sha.verifies (Config.firmwareKey image) (Config.imageSigned firmware) (Config.imageSignature firmware) = true
    (s.mgmt.recovery = false →
      (s.owner = none → reports .claim { s.mgmt with owner := some h, lease := lease, nominee := none } [.grant h]) ∧
      (∀ o, s.owner = some o → reports .claim s.mgmt [.deny h (some o)]) ∧
      (s.owner = some h → reports .renew { s.mgmt with lease := lease } [] ∧
        reports .handover { s.mgmt with nominee := some s.arg.k } []) ∧
      (s.owner ≠ some h → reports .renew s.mgmt [] ∧ reports .handover s.mgmt []) ∧
      (s.owner ≠ none → s.mgmt.nominee = some h → reports .accept { s.mgmt with owner := some h, nominee := none } []) ∧
      (s.owner = none ∨ s.mgmt.nominee ≠ some h → reports .accept s.mgmt []) ∧
      reports .attestQuote s.mgmt [.quote h (body ++
        Sha.beBytes 512 (Sha.sign s.mgmt.identity body (Sha.beBytes 64 (Config.salt s.free).toNat)))] ∧
      (∀ e, s.arg.item = .stepEntry e → reports .managementRead s.mgmt
        [.readAnswer h [(s.entry e).ovrcnt.toNat, if (s.entry e).pend then 1 else 0, if (s.entry e).run then 1 else 0]])) ∧
    ((s.mgmt.lease - s.time).toInt ≤ 0 → reports .leaseExpiry
      (if s.mgmt.owner = none then s.mgmt else { s.mgmt with owner := none, nominee := none }) []) ∧
    (s.mgmt.recovery = true → reports .claim s.mgmt [] ∧ reports .renew s.mgmt [] ∧ reports .attestQuote s.mgmt [] ∧
      Answers .recoveryImage s fun t => quiet s t ∧ t.out = s.out ∧
        let m := if s.arg.yes then { s.mgmt with firmware := h } else { s.mgmt with image := h }
        (good m.image m.firmware → t.mgmt = { m with recovery := false }) ∧ (¬ good m.image m.firmware → t.mgmt = m)) ∧
    (s.mgmt.recovery = false → reports .recoveryImage s.mgmt []) ∧
    (reports .thermalAlarm s.mgmt [.alarm s.owner]) ∧
    (Answers .thermalTrip s fun t => t = { s with power := false }) ∧
    (Answers .coldStart s fun t =>
      (∀ u, t.thread u = Thread.init) ∧ (∀ k, t.core k = Core.init) ∧ (∀ a, t.mem.get 0 a = 0) ∧ t.resident = false ∧
      t.power = true ∧ t.mgmt.owner = none ∧ t.mgmt.image = h ∧ t.mgmt.firmware = s.arg.k ∧ t.mgmt.starts = s.mgmt.starts + 1 ∧
      t.mgmt.identity = Config.identityKey s.fuses.secret.toNat ∧ t.fuses = s.fuses ∧
      (t.mgmt.recovery = false ↔ good h s.arg.k)) ∧
    (s.owner = some h → s.mgmt.recovery = false → Answers .warmStart s fun t =>
      (∀ u, t.thread u = Thread.init) ∧ (∀ k, t.core k = Core.init) ∧ t.resident = false ∧ t.mgmt.owner = some h ∧
      (∀ a, t.mem.get 0 a = if s.arg.yes = true ∧ a < 2 ^ 56 then s.mem.get 0 a else 0)) ∧
    let heard : Prop := s.arg.q = c.domain ∧ c.master = some s.arg.r
    (s.mgmt.recovery = false →
      (heard → Answers .ptpSync s fun t =>
        t = { s with clock := { c with sync := some (h, match s.arg.nums with | x :: _ => BitVec.ofNat 80 x | [] => s.time) } }) ∧
      (∀ m, c.master = some m → Answers .ptpDelayReq s fun t => t.mgmt = s.mgmt ∧ quiet s t ∧ leavesAs s t 0
        ((⟨5, 3, 15, m, 0xFFF, 0, 0, 0⟩ : Head).packet s.pkgId.toNat false (Config.mgmtPayload 9 h c.domain 0) false) (some h)) ∧
      (∀ t3, heard → c.delayReq = some (h, t3) → Answers .ptpDelayResp s fun t =>
        t = { s with clock := { c with delayReq := none, delay := (c.ms + (at' - t3).toInt) / 2 } }) ∧
      (h = c.domain → Answers .ptpAnnounce s fun t => t = { s with clock := { c with master := some s.arg.k } }) ∧
      (∀ t2, heard → c.sync = some (h, t2) →
        let off := (t2 - at').toInt - c.delay
        (65536 * 1000000 < off.natAbs → Answers .ptpFollowUp s fun t =>
          t.time = s.time - BitVec.ofInt 80 off ∧ t.clock.sync = none ∧ quiet s t) ∧
        (off.natAbs ≤ 65536 * 1000000 → Answers .ptpFollowUp s fun t =>
          t.time = s.time ∧ t.clock.slew = -off ∧ t.clock.sync = none ∧ quiet s t) ∧
        Answers .ptpFollowUp s fun t => t.clock.good = if off.natAbs < 65536 * Config.lockThr then c.good + 1 else 0)) ∧
    (s.mgmt.recovery = true ∨ c.master = none → Answers .ptpDelayReq s fun t => t = s) ∧
    (s.mgmt.recovery = true ∨ ¬ heard → Answers .ptpSync s (· = s) ∧ Answers .ptpDelayResp s (· = s) ∧ Answers .ptpFollowUp s (· = s)) ∧
    (s.mgmt.recovery = true ∨ h ≠ c.domain → Answers .ptpAnnounce s (· = s))

/-- 01 R10, R12, R14, R15; 13 R200; 27 R279, R281: a program is made resident for the owner: each of its threads with a window is idle,
with the descriptor's trap vector, ASID and window, and PRIV 0; another program, or another host's, is refused; removed, its threads are
halted and without windows. A suspended component issues nothing until it is resumed; one that ends has its threads halted and its owner
told. A debugger halts and resumes a thread. That a component ended at its owner's request reports cause 0 and line 0 is the model's
reading (log entry 43). -/
def Obligations.ProgramsComeAndGo : Prop :=
  ∀ (s : State),
    let h := s.arg.n
    let k := s.arg.k
    let p := s.arg.prog
    let x := ((s.bare.tables p).place p.bytes).windows p
    (s.owns h = true → s.resident = false → x.programOk p = true → Answers .programResident s fun t =>
      t.resident = true ∧ t.epoch = (s.time >>> 16).truncate 64 ∧ t.residentAt = s.now ∧
      (∀ i c, (i, c) ∈ validComps x.comps → ∀ u, clusterOf (u / 16) ∈ c.clusters →
        (t.core (u / 16)).comp = some i ∧ (∀ b, b < 4 → (t.bar (u / 16) b).need = c.windowed) ∧
        (t.thread u).winSize = c.winOf (u % 16) ∧
        (c.winOf (u % 16) = 0 → (t.thread u).st = .halted) ∧
        (c.winOf (u % 16) ≠ 0 → (t.thread u).st = .idle) ∧ (t.thread u).trapvec = c.trapvec ∧ (t.thread u).asid = c.asid ∧
        (t.thread u).priv = 0 ∧ (t.thread u).winBase = c.winAt (u % 16) ∧ (∀ r, (t.thread u).rd r = 0) ∧
        (∀ i, i < 8 → (t.thread u).seg.get 0 i = c.segimg.getD i 0))) ∧
    (s.mgmt.recovery = false → (s.owns h = false ∨ s.resident = true ∨ x.programOk p = false) →
      Answers .programResident s fun t => t = { s with out := s.out ++ [.refusedProgram h] }) ∧
    (s.owns h = true → s.resident = true → Answers .programRemove s fun t =>
      t.resident = false ∧ (∀ u, t.thread u = Thread.init) ∧ (∀ c, t.core c = Core.init) ∧ sameMemory s t) ∧
    (s.owns h = false ∨ s.resident = false → Answers .programRemove s fun t =>
      t = { s with out := s.out ++ [.refusedProgram h] }) ∧
    (s.owns h = true → s.resident = true → (s.comp k).valid = true → s.ended.contains k = false →
      (∀ v ∈ s.suspended, v.comp ≠ k) → Answers .componentSuspend s fun t =>
        t.suspended = s.suspended ++ [⟨k, s.arg.yes⟩] ∧ (∀ u, (s.core (u / 16)).comp = some k → t.eligible u = false) ∧
        (∀ u, (t.thread u).g = (s.thread u).g ∧ (t.thread u).pc = (s.thread u).pc)) ∧
    (s.owns h = true → (∃ v ∈ s.suspended, v.comp = k) → Answers .componentResume s fun t =>
      t.suspended = s.suspended.filter fun v => v.comp != k) ∧
    ((∀ e ∈ s.damaged, e.1 ≠ k) → s.owns h = true → s.resident = true → (s.comp k).valid = true →
      s.ended.contains k = false → Answers .componentEnd s fun t =>
        t.ended = s.ended ++ [k] ∧ .ended s.owner k 0 0 ∈ t.out ∧
        (∀ u, (s.core (u / 16)).comp = some k → (t.thread u).st = .halted ∧ (t.thread u).wait = none)) ∧
    (∀ l rest, s.damaged = (k, l) :: rest → s.resident = true → s.ended.contains k = false → Answers .componentEnd s fun t =>
      t.ended = s.ended ++ [k] ∧ t.damaged = rest ∧ .ended s.owner k 0xA0 (64 * l) ∈ t.out ∧
      (∀ u, (s.core (u / 16)).comp = some k → (t.thread u).st = .halted ∧ (t.thread u).wait = none)) ∧
    ((s.thread h).winSize ≠ 0 → (s.thread h).st ≠ .halted → Answers .debugHalt s fun t =>
      { t.thread h with readyAt := 0 } = { s.thread h with st := .halted, wait := none, readyAt := 0 } ∧
      (∀ u, u ≠ h → t.thread u = s.thread u) ∧ sameMemory s t) ∧
    (∀ i, (s.thread h).winSize ≠ 0 → (s.thread h).st = .halted → (s.core (h / 16)).comp = some i → s.ended.contains i = false →
      Answers .debugResume s fun t =>
        t.thread h = { s.thread h with st := .ready, readyAt := max (s.thread h).readyAt (s.now + 1) } ∧ elsewhere s t h)

/-! ### Decoding, the step, reset and invariants -/

/-- 05 R44 to R88: the decoder reads from the encoder's words of every well-formed encoded instruction that instruction, with every
operand at every value the encoding admits, whatever bytes follow. -/
def Obligations.DecodeOfEncode : Prop :=
  ∀ (i : Instr) (bytes rest : List Byte), i.wf = true → encode i = some bytes → decode (bytes ++ rest) = .instr i bytes.length rest

/-- 05 R44 to R88: an instruction that the decoder reads is well-formed, and its encoding is the bytes it was read from. -/
def Obligations.EncodeOfDecode : Prop :=
  ∀ (b rest : List Byte) (i : Instr) (n : Nat), decode b = .instr i n rest →
    i.wf = true ∧ ∃ bytes, encode i = some bytes ∧ b = bytes ++ rest ∧ bytes.length = n

/-- 05 R45 to R88, 07 R113: words written out from the encodings of the spec decode to the instructions they stand for. -/
def Obligations.WordsOfTheSpec : Prop :=
  let reads (w : BitVec 32) (i : Instr) : Prop := ∀ rest : List Byte,
    decode ([w.truncate 8, (w >>> 8).truncate 8, (w >>> 16).truncate 8, (w >>> 24).truncate 8] ++ rest) = .instr i 4 rest
  reads 0x310A4183 (.div 3 4 5) ∧ reads 0x10D07303 (.fshl 6 7 8) ∧ reads 0x6000A483 (.clz 9 10) ∧
  reads 0x3E062099 (.feq .d 1 2 3) ∧ reads 0x668C4199 (.fcvtToInt .d .rtz .int32 3 4) ∧ reads 0x0130501F (.waite 5) ∧
  reads 0x0100001F .eret

/-- 05 R44, R45; 11 R146; 15 R205, R210; 27 R269, R270; 29 R297: with power and no event at hand, the step of a state whose next slot a
thread takes marks the thread in flight; a cause deferred or held for it traps; else it fetches at its PC and executes the decoded
instruction, the parcels used gone; bytes that are no instruction trap as such, after a recorded engine error that is due; a fetch that
fails traps with the failing offset, and straight after a trap entry halts the thread. That the deferred cause comes before the held one
is the model's choice (log entry 52). -/
def Obligations.StepRunsDecoded : Prop :=
  ∀ (s : State) (c t : Nat), s.power = true → s.agenda = [] → s.takeDue (some (4 * c + 2)) = none →
    s.nextSlot = some (c, .thread t) →
    let s0 := ({ s with slot := c + 1 } : State).startIssue t
    let x := s0.thread t
    (∀ e, x.deferred = some e → ∃ y, step s = .next y ∧ trapsAt s0 t e.cause e.tval y ∧ (y.thread t).deferred = none) ∧
    (∀ e, x.deferred = none → x.async = some e → ∃ y, step s = .next y ∧ trapsAt s0 t e.cause e.tval y ∧ (y.thread t).async = none) ∧
    (x.deferred = none → x.async = none →
      (∀ b s', s0.fetchInstr t = (.bytes b, s') →
        let s1 := s'.modThread t fun x => { x with
          fetched := x.fetched.filter fun p => p.2.2 == s'.now && p.1 != x.pc && p.1 != x.pc + 2, afterTrap := false }
        (∀ i n rest, decode b = .instr i n rest → step s = exec i s1) ∧
        (∀ why bits n, decode b = .reject why bits n →
          (s'.engineDue t (.bytes b) = none → step s = exec (.invalidInstruction why bits) s1) ∧
          (∀ s2, s'.engineDue t (.bytes b) = some s2 → step s = .next s2))) ∧
      (∀ k off p s', s0.fetchInstr t = (.bad k off p, s') → s'.engineDue t (.bad k off p) = none →
        (x.afterTrap = false → ∃ y, step s = .next y ∧ trapsAt s0 t k off y) ∧
        (x.afterTrap = true → ∃ y, step s = .next y ∧ (y.thread t).st = .halted ∧ (y.thread t).cause = k.zeroExtend 64 ∧
          (y.thread t).epc = x.pc ∧ (y.thread t).tval = off ∧ (y.thread t).priv = x.priv ∧
          y.out = s.out ++ [.doubleTrap s.mgmt.owner t k])))

/-- 29 R297: with power a step answers a next state, from every state; without power it stops, but for COLD_START. -/
def Obligations.StepsGoOnWithPower : Prop :=
  ∀ (s : State), (s.power = true → ∃ t, step s = .next t) ∧
    (s.power = false → (∀ e rest, s.agenda = e :: rest → e.what ≠ .coldStart) → step s = .fault .noPower)

/-- Every step keeps the canonical form of memory: addresses rise strictly, and no byte is listed that reads as an unlisted one; and 03
R31, 09 R122: every step keeps every thread's VL at most VLMAX. -/
def Obligations.StepKeepsMemoryForm : Prop :=
  ∀ (s t : State), step s = .next t → (s.memOk → t.memOk) ∧
    ((∀ u, (s.thread u).vl.toNat ≤ (s.thread u).vlmax) → ∀ u, (t.thread u).vl.toNat ≤ (t.thread u).vlmax)

/-- 03 R24, R27, R29; 07 R112; 11 R151; 13 R189, R191; 17 R221; 27 R273; 29 R286, R296: what reset leaves: every thread halted without a
window, its registers 0 and VTYPE illegal; four credits in each direction; per-core registers at the values the spec gives; memory clear,
in canonical form, every word empty; no program and no owner. That register reads are 0 for state the spec gives no reset value is the
model's choice (log entry 3). -/
def Obligations.ResetValues : Prop :=
  let s := State.reset
  s.memOk ∧ s.power = true ∧ s.resident = false ∧ s.owner = none ∧ (∀ a, s.mem.get 0 a = 0) ∧
  (∀ w, s.fe.get false w = false) ∧ (∀ l, s.tags.get 0xFFF l = 0xFFF) ∧
  (∀ t, (s.thread t).st = .halted ∧ (s.thread t).winSize = 0 ∧ (∀ r, (s.thread t).rd r = 0) ∧
    (∀ m : MReg, m ≠ 0 → (s.thread t).rdM m = 0) ∧ (s.thread t).rdM 0 = BitVec.allOnes 512 ∧
    (s.thread t).vtype = 0x8000000000000000 ∧ (s.thread t).vl = 0 ∧ (s.thread t).fcsr = 0 ∧ (s.thread t).priv = 0 ∧
    (∀ d, (s.thread t).credit d = 4 ∧ (s.thread t).queue d = [])) ∧
  (∀ c, (∀ b, b < 16 → s.regAt c (16 + b) = 0x7F00) ∧ (∀ i, i < 8 → s.regAt c i = 0) ∧ s.regAt c kISSUEPOL = 0 ∧
    s.regAt c kFECTL = 0x400 ∧ s.regAt c kNPCTL = 0x100000 ∧ s.regAt c kWDCTL = 0x100000 ∧ s.regAt c kRNRCTL = 0xC)

end
end

