-- ==== Sys2Proof/Laws/Sp.lean ====
section
/-!
SUPPORT. Laws of the sparse map: reading after writing, and its canonical form.
-/

namespace Sys2Proof.Sp

variable {α : Type}

theorem getL_dropL_same (d : α) (k : Nat) (l : List (Nat × α)) : getL d (dropL k l) k = d := by
  induction l with
  | nil => rfl
  | cons e r ih =>
    obtain ⟨j, a⟩ := e
    by_cases h : j = k
    · simp [dropL, h, ih]
    · simp [dropL, h, getL, ih]

theorem getL_dropL_ne (d : α) {k i : Nat} (l : List (Nat × α)) (h : i ≠ k) : getL d (dropL k l) i = getL d l i := by
  induction l with
  | nil => rfl
  | cons e r ih =>
    obtain ⟨j, a⟩ := e
    by_cases hj : j = k
    · subst hj; simp [dropL, getL, ih, Ne.symm h]
    · simp only [dropL, hj, if_false, getL, ih]

theorem getL_insL_same (d v : α) (k : Nat) (l : List (Nat × α)) (h : getL d l k = d ∧ ∀ e ∈ l, e.1 ≠ k) :
    getL d (insL k v l) k = v := by
  induction l with
  | nil => simp [insL, getL]
  | cons e r ih =>
    obtain ⟨j, a⟩ := e
    have hj : j ≠ k := h.2 (j, a) (by simp)
    by_cases hk : k < j
    · simp [insL, hk, getL]
    · simp only [insL, hk, if_false, getL, hj]
      exact ih ⟨by simpa [getL, hj] using h.1, fun e he => h.2 e (by simp [he])⟩

theorem getL_insL_ne (d v : α) {k i : Nat} (l : List (Nat × α)) (h : i ≠ k) : getL d (insL k v l) i = getL d l i := by
  induction l with
  | nil => simp [insL, getL, Ne.symm h]
  | cons e r ih =>
    obtain ⟨j, a⟩ := e
    by_cases hk : k < j
    · simp [insL, hk, getL, Ne.symm h]
    · simp only [insL, hk, if_false, getL, ih]

theorem dropL_keys (k : Nat) (l : List (Nat × α)) : ∀ e ∈ dropL k l, e.1 ≠ k := by
  induction l with
  | nil => simp [dropL]
  | cons e r ih =>
    obtain ⟨j, a⟩ := e
    by_cases h : j = k
    · simpa [dropL, h] using ih
    · simp only [dropL, h, if_false, List.mem_cons]
      rintro e (rfl | he)
      · exact h
      · exact ih e he

theorem dropL_dropL (k : Nat) (l : List (Nat × α)) : dropL k (dropL k l) = dropL k l := by
  induction l with
  | nil => rfl
  | cons e r ih =>
    obtain ⟨j, a⟩ := e
    by_cases h : j = k
    · simp only [dropL, h, if_true, ih]
    · simp only [dropL, h, if_false, ih]

theorem dropL_insL (k : Nat) (v : α) (l : List (Nat × α)) : dropL k (insL k v l) = dropL k l := by
  induction l with
  | nil => simp [insL, dropL]
  | cons e r ih =>
    obtain ⟨j, a⟩ := e
    by_cases h : k < j
    · simp [insL, h, dropL]
    · simp only [insL, h, if_false, dropL, ih]

@[simp] theorem get_empty (d : α) (k : Nat) : get d (empty : Sp α) k = d := rfl

variable [DecidableEq α]

/-- A key reads as what was written to it. -/
@[simp] theorem get_set_same (d : α) (m : Sp α) (k : Nat) (v : α) : get d (set d m k v) k = v := by
  unfold set get
  by_cases h : v = d
  · simp [h, getL_dropL_same]
  · simp only [h, if_false]
    exact getL_insL_same d v k _ ⟨getL_dropL_same d k _, dropL_keys k _⟩

/-- Other keys keep their value. -/
theorem get_set_ne (d : α) (m : Sp α) {k i : Nat} (v : α) (h : i ≠ k) : get d (set d m k v) i = get d m i := by
  unfold set get
  by_cases hv : v = d
  · simp [hv, getL_dropL_ne d _ h]
  · simp [hv, getL_insL_ne d v _ h, getL_dropL_ne d _ h]

theorem get_set (d : α) (m : Sp α) (k i : Nat) (v : α) : get d (set d m k v) i = if i = k then v else get d m i := by
  by_cases h : i = k
  · simp [h]
  · simp [h, get_set_ne d m v h]

/-- Of two writes to one key the last stands. -/
theorem set_set (d : α) (m : Sp α) (k : Nat) (v w : α) : set d (set d m k v) k w = set d m k w := by
  unfold set
  by_cases hv : v = d <;> by_cases hw : w = d <;> simp [hv, hw, dropL_dropL, dropL_insL]

/-! ### The canonical form -/

theorem wfL_lower {d : α} {lo lo' : Option Nat} {l : List (Nat × α)} (h : wfL d lo l = true)
    (hb : ∀ x, lo' = some x → ∃ y, lo = some y ∧ x ≤ y) : wfL d lo' l = true := by
  cases l with
  | nil => rfl
  | cons e r =>
    obtain ⟨j, a⟩ := e
    simp only [wfL, Bool.and_eq_true] at h ⊢
    refine ⟨⟨?_, h.1.2⟩, h.2⟩
    cases lo' with
    | none => rfl
    | some x =>
      obtain ⟨y, rfl, hxy⟩ := hb x rfl
      have := h.1.1
      simp only [decide_eq_true_eq] at this ⊢
      omega

theorem wfL_dropL {d : α} {lo : Option Nat} (k : Nat) {l : List (Nat × α)} (h : wfL d lo l = true) :
    wfL d lo (dropL k l) = true := by
  induction l generalizing lo with
  | nil => rfl
  | cons e r ih =>
    obtain ⟨j, a⟩ := e
    have h' := h
    simp only [wfL, Bool.and_eq_true] at h
    by_cases hj : j = k
    · simp only [dropL, hj, if_true]
      refine ih (wfL_lower h.2 ?_)
      rintro x rfl
      exact ⟨j, rfl, by have := h.1.1; simp at this; omega⟩
    · simp only [dropL, hj, if_false, wfL, Bool.and_eq_true]
      exact ⟨h.1, ih h.2⟩

theorem wfL_insL {d v : α} {lo : Option Nat} {k : Nat} {l : List (Nat × α)} (h : wfL d lo l = true) (hv : v ≠ d)
    (hk : ∀ x, lo = some x → x < k) (hn : ∀ e ∈ l, e.1 ≠ k) : wfL d lo (insL k v l) = true := by
  induction l generalizing lo with
  | nil =>
    cases lo with
    | none => simp [insL, wfL, hv]
    | some x => simp [insL, wfL, hv, hk x rfl]
  | cons e r ih =>
    obtain ⟨j, a⟩ := e
    have h2 := h
    simp only [wfL, Bool.and_eq_true] at h
    by_cases hj : k < j
    · simp only [insL, hj, if_true, wfL, Bool.and_eq_true]
      refine ⟨⟨?_, by simpa using hv⟩, ⟨by simp, h.1.2⟩, h.2⟩
      cases lo with
      | none => rfl
      | some x => simp [hk x rfl]
    · simp only [insL, hj, if_false, wfL, Bool.and_eq_true]
      refine ⟨h.1, ih h.2 ?_ fun e he => hn e (by simp [he])⟩
      rintro x ⟨rfl⟩
      have := hn (j, a) (by simp)
      simp only at this
      omega

@[simp] theorem wf_empty (d : α) : wf d (empty : Sp α) = true := rfl

/-- A write keeps the canonical form. -/
theorem wf_set {d : α} {m : Sp α} (h : wf d m = true) (k : Nat) (v : α) : wf d (set d m k v) = true := by
  unfold set
  by_cases hv : v = d
  · simpa [hv, wf] using wfL_dropL k h
  · simp only [hv, if_false, wf]
    exact wfL_insL (wfL_dropL k h) hv (by simp) (dropL_keys k _)

theorem getL_of_lower {d : α} {x : Nat} {l : List (Nat × α)} (h : wfL d (some x) l = true) {i : Nat} (hi : i ≤ x) :
    getL d l i = d := by
  induction l generalizing x with
  | nil => rfl
  | cons e r ih =>
    obtain ⟨j, a⟩ := e
    simp only [wfL, Bool.and_eq_true, decide_eq_true_eq] at h
    have : j ≠ i := by omega
    simp only [getL, this, if_false]
    exact ih h.2 (by omega)

theorem extL {d : α} {lo : Option Nat} {l l' : List (Nat × α)} (h : wfL d lo l = true) (h' : wfL d lo l' = true)
    (e : ∀ k, getL d l k = getL d l' k) : l = l' := by
  induction l generalizing lo l' with
  | nil =>
    cases l' with
    | nil => rfl
    | cons x r =>
      obtain ⟨j, a⟩ := x
      have := e j
      simp [getL] at this
      simp [wfL, ← this] at h'
  | cons x r ih =>
    obtain ⟨j, a⟩ := x
    cases l' with
    | nil =>
      have := e j
      simp [getL] at this
      simp [wfL, this] at h
    | cons y r' =>
      obtain ⟨i, b⟩ := y
      simp only [wfL, Bool.and_eq_true, Bool.not_eq_true', decide_eq_false_iff_not] at h h'
      rcases Nat.lt_trichotomy j i with hji | rfl | hji
      · have := e j
        simp only [getL, if_true, if_neg (Nat.ne_of_gt hji)] at this
        exact absurd (this.trans (getL_of_lower h'.2 (Nat.le_of_lt hji))) h.1.2
      · have hab : a = b := by simpa [getL] using e j
        subst hab
        refine congrArg _ (ih h.2 h'.2 fun k => ?_)
        by_cases hk : k = j
        · rw [hk, getL_of_lower h.2 (Nat.le_refl j), getL_of_lower h'.2 (Nat.le_refl j)]
        · simpa [getL, Ne.symm hk] using e k
      · have := e i
        simp only [getL, if_true, if_neg (Nat.ne_of_gt hji)] at this
        exact absurd ((this.symm).trans (getL_of_lower h.2 (Nat.le_of_lt hji))) h'.1.2

/-- Two maps in canonical form that read the same are the same data. -/
theorem ext_wf {d : α} {m m' : Sp α} (h : wf d m = true) (h' : wf d m' = true) (e : ∀ k, get d m k = get d m' k) : m = m' := by
  cases m; cases m'
  exact congrArg Sp.mk (extL h h' e)

end Sys2Proof.Sp
end

