-- ==== Sys2Proof/Laws/State.lean ====
section
/-!
SUPPORT. One law per field and update of the state, and what each agent reads after each update, so that no proof unfolds a
record update.
-/

namespace Sys2Proof.Machine.State

/-! ### setThread -/

@[simp] theorem setThread_cur (s : State) (t : Nat) (th : Thread) : (s.setThread t th).cur = s.cur := rfl
@[simp] theorem setThread_now (s : State) (t : Nat) (th : Thread) : (s.setThread t th).now = s.now := rfl
@[simp] theorem setThread_slot (s : State) (t : Nat) (th : Thread) : (s.setThread t th).slot = s.slot := rfl
@[simp] theorem setThread_arg (s : State) (t : Nat) (th : Thread) : (s.setThread t th).arg = s.arg := rfl
@[simp] theorem setThread_agenda (s : State) (t : Nat) (th : Thread) : (s.setThread t th).agenda = s.agenda := rfl
@[simp] theorem setThread_pending (s : State) (t : Nat) (th : Thread) : (s.setThread t th).pending = s.pending := rfl
@[simp] theorem setThread_free (s : State) (t : Nat) (th : Thread) : (s.setThread t th).free = s.free := rfl
@[simp] theorem setThread_nextId (s : State) (t : Nat) (th : Thread) : (s.setThread t th).nextId = s.nextId := rfl
@[simp] theorem setThread_power (s : State) (t : Nat) (th : Thread) : (s.setThread t th).power = s.power := rfl
@[simp] theorem setThread_threads (s : State) (t : Nat) (th : Thread) : (s.setThread t th).threads = s.threads.set Thread.init t th := rfl
@[simp] theorem setThread_cores (s : State) (t : Nat) (th : Thread) : (s.setThread t th).cores = s.cores := rfl
@[simp] theorem setThread_clusters (s : State) (t : Nat) (th : Thread) : (s.setThread t th).clusters = s.clusters := rfl
@[simp] theorem setThread_ports (s : State) (t : Nat) (th : Thread) : (s.setThread t th).ports = s.ports := rfl
@[simp] theorem setThread_dies (s : State) (t : Nat) (th : Thread) : (s.setThread t th).dies = s.dies := rfl
@[simp] theorem setThread_mem (s : State) (t : Nat) (th : Thread) : (s.setThread t th).mem = s.mem := rfl
@[simp] theorem setThread_fe (s : State) (t : Nat) (th : Thread) : (s.setThread t th).fe = s.fe := rfl
@[simp] theorem setThread_tags (s : State) (t : Nat) (th : Thread) : (s.setThread t th).tags = s.tags := rfl
@[simp] theorem setThread_poison (s : State) (t : Nat) (th : Thread) : (s.setThread t th).poison = s.poison := rfl
@[simp] theorem setThread_stamps (s : State) (t : Nat) (th : Thread) : (s.setThread t th).stamps = s.stamps := rfl
@[simp] theorem setThread_replicas (s : State) (t : Nat) (th : Thread) : (s.setThread t th).replicas = s.replicas := rfl
@[simp] theorem setThread_asids (s : State) (t : Nat) (th : Thread) : (s.setThread t th).asids = s.asids := rfl
@[simp] theorem setThread_pkgId (s : State) (t : Nat) (th : Thread) : (s.setThread t th).pkgId = s.pkgId := rfl
@[simp] theorem setThread_comps (s : State) (t : Nat) (th : Thread) : (s.setThread t th).comps = s.comps := rfl
@[simp] theorem setThread_steps (s : State) (t : Nat) (th : Thread) : (s.setThread t th).steps = s.steps := rfl
@[simp] theorem setThread_slots (s : State) (t : Nat) (th : Thread) : (s.setThread t th).slots = s.slots := rfl
@[simp] theorem setThread_mailboxes (s : State) (t : Nat) (th : Thread) : (s.setThread t th).mailboxes = s.mailboxes := rfl
@[simp] theorem setThread_faultsvcs (s : State) (t : Nat) (th : Thread) : (s.setThread t th).faultsvcs = s.faultsvcs := rfl
@[simp] theorem setThread_resident (s : State) (t : Nat) (th : Thread) : (s.setThread t th).resident = s.resident := rfl
@[simp] theorem setThread_epoch (s : State) (t : Nat) (th : Thread) : (s.setThread t th).epoch = s.epoch := rfl
@[simp] theorem setThread_residentAt (s : State) (t : Nat) (th : Thread) : (s.setThread t th).residentAt = s.residentAt := rfl
@[simp] theorem setThread_digest (s : State) (t : Nat) (th : Thread) : (s.setThread t th).digest = s.digest := rfl
@[simp] theorem setThread_tabDigest (s : State) (t : Nat) (th : Thread) : (s.setThread t th).tabDigest = s.tabDigest := rfl
@[simp] theorem setThread_held (s : State) (t : Nat) (th : Thread) : (s.setThread t th).held = s.held := rfl
@[simp] theorem setThread_ended (s : State) (t : Nat) (th : Thread) : (s.setThread t th).ended = s.ended := rfl
@[simp] theorem setThread_damaged (s : State) (t : Nat) (th : Thread) : (s.setThread t th).damaged = s.damaged := rfl
@[simp] theorem setThread_stepsOver (s : State) (t : Nat) (th : Thread) : (s.setThread t th).stepsOver = s.stepsOver := rfl
@[simp] theorem setThread_suspended (s : State) (t : Nat) (th : Thread) : (s.setThread t th).suspended = s.suspended := rfl
@[simp] theorem setThread_net (s : State) (t : Nat) (th : Thread) : (s.setThread t th).net = s.net := rfl
@[simp] theorem setThread_pfaults (s : State) (t : Nat) (th : Thread) : (s.setThread t th).pfaults = s.pfaults := rfl
@[simp] theorem setThread_cwWrites (s : State) (t : Nat) (th : Thread) : (s.setThread t th).cwWrites = s.cwWrites := rfl
@[simp] theorem setThread_wakes (s : State) (t : Nat) (th : Thread) : (s.setThread t th).wakes = s.wakes := rfl
@[simp] theorem setThread_fwakes (s : State) (t : Nat) (th : Thread) : (s.setThread t th).fwakes = s.fwakes := rfl
@[simp] theorem setThread_transit (s : State) (t : Nat) (th : Thread) : (s.setThread t th).transit = s.transit := rfl
@[simp] theorem setThread_creditsBack (s : State) (t : Nat) (th : Thread) : (s.setThread t th).creditsBack = s.creditsBack := rfl
@[simp] theorem setThread_steals (s : State) (t : Nat) (th : Thread) : (s.setThread t th).steals = s.steals := rfl
@[simp] theorem setThread_joins (s : State) (t : Nat) (th : Thread) : (s.setThread t th).joins = s.joins := rfl
@[simp] theorem setThread_clock (s : State) (t : Nat) (th : Thread) : (s.setThread t th).clock = s.clock := rfl
@[simp] theorem setThread_mgmt (s : State) (t : Nat) (th : Thread) : (s.setThread t th).mgmt = s.mgmt := rfl
@[simp] theorem setThread_gws (s : State) (t : Nat) (th : Thread) : (s.setThread t th).gws = s.gws := rfl
@[simp] theorem setThread_links (s : State) (t : Nat) (th : Thread) : (s.setThread t th).links = s.links := rfl
@[simp] theorem setThread_ergs (s : State) (t : Nat) (th : Thread) : (s.setThread t th).ergs = s.ergs := rfl
@[simp] theorem setThread_rx (s : State) (t : Nat) (th : Thread) : (s.setThread t th).rx = s.rx := rfl
@[simp] theorem setThread_fuses (s : State) (t : Nat) (th : Thread) : (s.setThread t th).fuses = s.fuses := rfl
@[simp] theorem setThread_mins (s : State) (t : Nat) (th : Thread) : (s.setThread t th).mins = s.mins := rfl
@[simp] theorem setThread_corrected (s : State) (t : Nat) (th : Thread) : (s.setThread t th).corrected = s.corrected := rfl
@[simp] theorem setThread_out (s : State) (t : Nat) (th : Thread) : (s.setThread t th).out = s.out := rfl
@[simp] theorem setThread_at_core (s : State) (t : Nat) (th : Thread) (n : Nat) : (s.setThread t th).core n = s.core n := rfl
@[simp] theorem setThread_at_cluster (s : State) (t : Nat) (th : Thread) (n : Nat) : (s.setThread t th).cluster n = s.cluster n := rfl
@[simp] theorem setThread_at_port (s : State) (t : Nat) (th : Thread) (n : Nat) : (s.setThread t th).port n = s.port n := rfl
@[simp] theorem setThread_at_die (s : State) (t : Nat) (th : Thread) (n : Nat) : (s.setThread t th).die n = s.die n := rfl
@[simp] theorem setThread_at_gw (s : State) (t : Nat) (th : Thread) (n : Nat) : (s.setThread t th).gw n = s.gw n := rfl
@[simp] theorem setThread_at_link (s : State) (t : Nat) (th : Thread) (n : Nat) : (s.setThread t th).link n = s.link n := rfl
@[simp] theorem setThread_at_erg (s : State) (t : Nat) (th : Thread) (n : Nat) : (s.setThread t th).erg n = s.erg n := rfl
@[simp] theorem setThread_at_rxBuf (s : State) (t : Nat) (th : Thread) (n : Nat) : (s.setThread t th).rxBuf n = s.rxBuf n := rfl
@[simp] theorem setThread_at_comp (s : State) (t : Nat) (th : Thread) (n : Nat) : (s.setThread t th).comp n = s.comp n := rfl

/-! ### modThread -/

@[simp] theorem modThread_cur (s : State) (t : Nat) (f : Thread → Thread) : (s.modThread t f).cur = s.cur := rfl
@[simp] theorem modThread_now (s : State) (t : Nat) (f : Thread → Thread) : (s.modThread t f).now = s.now := rfl
@[simp] theorem modThread_slot (s : State) (t : Nat) (f : Thread → Thread) : (s.modThread t f).slot = s.slot := rfl
@[simp] theorem modThread_arg (s : State) (t : Nat) (f : Thread → Thread) : (s.modThread t f).arg = s.arg := rfl
@[simp] theorem modThread_agenda (s : State) (t : Nat) (f : Thread → Thread) : (s.modThread t f).agenda = s.agenda := rfl
@[simp] theorem modThread_pending (s : State) (t : Nat) (f : Thread → Thread) : (s.modThread t f).pending = s.pending := rfl
@[simp] theorem modThread_free (s : State) (t : Nat) (f : Thread → Thread) : (s.modThread t f).free = s.free := rfl
@[simp] theorem modThread_nextId (s : State) (t : Nat) (f : Thread → Thread) : (s.modThread t f).nextId = s.nextId := rfl
@[simp] theorem modThread_power (s : State) (t : Nat) (f : Thread → Thread) : (s.modThread t f).power = s.power := rfl
@[simp] theorem modThread_threads (s : State) (t : Nat) (f : Thread → Thread) : (s.modThread t f).threads = s.threads.set Thread.init t (f (s.thread t)) := rfl
@[simp] theorem modThread_cores (s : State) (t : Nat) (f : Thread → Thread) : (s.modThread t f).cores = s.cores := rfl
@[simp] theorem modThread_clusters (s : State) (t : Nat) (f : Thread → Thread) : (s.modThread t f).clusters = s.clusters := rfl
@[simp] theorem modThread_ports (s : State) (t : Nat) (f : Thread → Thread) : (s.modThread t f).ports = s.ports := rfl
@[simp] theorem modThread_dies (s : State) (t : Nat) (f : Thread → Thread) : (s.modThread t f).dies = s.dies := rfl
@[simp] theorem modThread_mem (s : State) (t : Nat) (f : Thread → Thread) : (s.modThread t f).mem = s.mem := rfl
@[simp] theorem modThread_fe (s : State) (t : Nat) (f : Thread → Thread) : (s.modThread t f).fe = s.fe := rfl
@[simp] theorem modThread_tags (s : State) (t : Nat) (f : Thread → Thread) : (s.modThread t f).tags = s.tags := rfl
@[simp] theorem modThread_poison (s : State) (t : Nat) (f : Thread → Thread) : (s.modThread t f).poison = s.poison := rfl
@[simp] theorem modThread_stamps (s : State) (t : Nat) (f : Thread → Thread) : (s.modThread t f).stamps = s.stamps := rfl
@[simp] theorem modThread_replicas (s : State) (t : Nat) (f : Thread → Thread) : (s.modThread t f).replicas = s.replicas := rfl
@[simp] theorem modThread_asids (s : State) (t : Nat) (f : Thread → Thread) : (s.modThread t f).asids = s.asids := rfl
@[simp] theorem modThread_pkgId (s : State) (t : Nat) (f : Thread → Thread) : (s.modThread t f).pkgId = s.pkgId := rfl
@[simp] theorem modThread_comps (s : State) (t : Nat) (f : Thread → Thread) : (s.modThread t f).comps = s.comps := rfl
@[simp] theorem modThread_steps (s : State) (t : Nat) (f : Thread → Thread) : (s.modThread t f).steps = s.steps := rfl
@[simp] theorem modThread_slots (s : State) (t : Nat) (f : Thread → Thread) : (s.modThread t f).slots = s.slots := rfl
@[simp] theorem modThread_mailboxes (s : State) (t : Nat) (f : Thread → Thread) : (s.modThread t f).mailboxes = s.mailboxes := rfl
@[simp] theorem modThread_faultsvcs (s : State) (t : Nat) (f : Thread → Thread) : (s.modThread t f).faultsvcs = s.faultsvcs := rfl
@[simp] theorem modThread_resident (s : State) (t : Nat) (f : Thread → Thread) : (s.modThread t f).resident = s.resident := rfl
@[simp] theorem modThread_epoch (s : State) (t : Nat) (f : Thread → Thread) : (s.modThread t f).epoch = s.epoch := rfl
@[simp] theorem modThread_residentAt (s : State) (t : Nat) (f : Thread → Thread) : (s.modThread t f).residentAt = s.residentAt := rfl
@[simp] theorem modThread_digest (s : State) (t : Nat) (f : Thread → Thread) : (s.modThread t f).digest = s.digest := rfl
@[simp] theorem modThread_tabDigest (s : State) (t : Nat) (f : Thread → Thread) : (s.modThread t f).tabDigest = s.tabDigest := rfl
@[simp] theorem modThread_held (s : State) (t : Nat) (f : Thread → Thread) : (s.modThread t f).held = s.held := rfl
@[simp] theorem modThread_ended (s : State) (t : Nat) (f : Thread → Thread) : (s.modThread t f).ended = s.ended := rfl
@[simp] theorem modThread_damaged (s : State) (t : Nat) (f : Thread → Thread) : (s.modThread t f).damaged = s.damaged := rfl
@[simp] theorem modThread_stepsOver (s : State) (t : Nat) (f : Thread → Thread) : (s.modThread t f).stepsOver = s.stepsOver := rfl
@[simp] theorem modThread_suspended (s : State) (t : Nat) (f : Thread → Thread) : (s.modThread t f).suspended = s.suspended := rfl
@[simp] theorem modThread_net (s : State) (t : Nat) (f : Thread → Thread) : (s.modThread t f).net = s.net := rfl
@[simp] theorem modThread_pfaults (s : State) (t : Nat) (f : Thread → Thread) : (s.modThread t f).pfaults = s.pfaults := rfl
@[simp] theorem modThread_cwWrites (s : State) (t : Nat) (f : Thread → Thread) : (s.modThread t f).cwWrites = s.cwWrites := rfl
@[simp] theorem modThread_wakes (s : State) (t : Nat) (f : Thread → Thread) : (s.modThread t f).wakes = s.wakes := rfl
@[simp] theorem modThread_fwakes (s : State) (t : Nat) (f : Thread → Thread) : (s.modThread t f).fwakes = s.fwakes := rfl
@[simp] theorem modThread_transit (s : State) (t : Nat) (f : Thread → Thread) : (s.modThread t f).transit = s.transit := rfl
@[simp] theorem modThread_creditsBack (s : State) (t : Nat) (f : Thread → Thread) : (s.modThread t f).creditsBack = s.creditsBack := rfl
@[simp] theorem modThread_steals (s : State) (t : Nat) (f : Thread → Thread) : (s.modThread t f).steals = s.steals := rfl
@[simp] theorem modThread_joins (s : State) (t : Nat) (f : Thread → Thread) : (s.modThread t f).joins = s.joins := rfl
@[simp] theorem modThread_clock (s : State) (t : Nat) (f : Thread → Thread) : (s.modThread t f).clock = s.clock := rfl
@[simp] theorem modThread_mgmt (s : State) (t : Nat) (f : Thread → Thread) : (s.modThread t f).mgmt = s.mgmt := rfl
@[simp] theorem modThread_gws (s : State) (t : Nat) (f : Thread → Thread) : (s.modThread t f).gws = s.gws := rfl
@[simp] theorem modThread_links (s : State) (t : Nat) (f : Thread → Thread) : (s.modThread t f).links = s.links := rfl
@[simp] theorem modThread_ergs (s : State) (t : Nat) (f : Thread → Thread) : (s.modThread t f).ergs = s.ergs := rfl
@[simp] theorem modThread_rx (s : State) (t : Nat) (f : Thread → Thread) : (s.modThread t f).rx = s.rx := rfl
@[simp] theorem modThread_fuses (s : State) (t : Nat) (f : Thread → Thread) : (s.modThread t f).fuses = s.fuses := rfl
@[simp] theorem modThread_mins (s : State) (t : Nat) (f : Thread → Thread) : (s.modThread t f).mins = s.mins := rfl
@[simp] theorem modThread_corrected (s : State) (t : Nat) (f : Thread → Thread) : (s.modThread t f).corrected = s.corrected := rfl
@[simp] theorem modThread_out (s : State) (t : Nat) (f : Thread → Thread) : (s.modThread t f).out = s.out := rfl
@[simp] theorem modThread_at_core (s : State) (t : Nat) (f : Thread → Thread) (n : Nat) : (s.modThread t f).core n = s.core n := rfl
@[simp] theorem modThread_at_cluster (s : State) (t : Nat) (f : Thread → Thread) (n : Nat) : (s.modThread t f).cluster n = s.cluster n := rfl
@[simp] theorem modThread_at_port (s : State) (t : Nat) (f : Thread → Thread) (n : Nat) : (s.modThread t f).port n = s.port n := rfl
@[simp] theorem modThread_at_die (s : State) (t : Nat) (f : Thread → Thread) (n : Nat) : (s.modThread t f).die n = s.die n := rfl
@[simp] theorem modThread_at_gw (s : State) (t : Nat) (f : Thread → Thread) (n : Nat) : (s.modThread t f).gw n = s.gw n := rfl
@[simp] theorem modThread_at_link (s : State) (t : Nat) (f : Thread → Thread) (n : Nat) : (s.modThread t f).link n = s.link n := rfl
@[simp] theorem modThread_at_erg (s : State) (t : Nat) (f : Thread → Thread) (n : Nat) : (s.modThread t f).erg n = s.erg n := rfl
@[simp] theorem modThread_at_rxBuf (s : State) (t : Nat) (f : Thread → Thread) (n : Nat) : (s.modThread t f).rxBuf n = s.rxBuf n := rfl
@[simp] theorem modThread_at_comp (s : State) (t : Nat) (f : Thread → Thread) (n : Nat) : (s.modThread t f).comp n = s.comp n := rfl

/-! ### modTh -/

@[simp] theorem modTh_cur (s : State) (f : Thread → Thread) : (s.modTh f).cur = s.cur := rfl
@[simp] theorem modTh_now (s : State) (f : Thread → Thread) : (s.modTh f).now = s.now := rfl
@[simp] theorem modTh_slot (s : State) (f : Thread → Thread) : (s.modTh f).slot = s.slot := rfl
@[simp] theorem modTh_arg (s : State) (f : Thread → Thread) : (s.modTh f).arg = s.arg := rfl
@[simp] theorem modTh_agenda (s : State) (f : Thread → Thread) : (s.modTh f).agenda = s.agenda := rfl
@[simp] theorem modTh_pending (s : State) (f : Thread → Thread) : (s.modTh f).pending = s.pending := rfl
@[simp] theorem modTh_free (s : State) (f : Thread → Thread) : (s.modTh f).free = s.free := rfl
@[simp] theorem modTh_nextId (s : State) (f : Thread → Thread) : (s.modTh f).nextId = s.nextId := rfl
@[simp] theorem modTh_power (s : State) (f : Thread → Thread) : (s.modTh f).power = s.power := rfl
@[simp] theorem modTh_threads (s : State) (f : Thread → Thread) : (s.modTh f).threads = s.threads.set Thread.init s.cur (f (s.thread s.cur)) := rfl
@[simp] theorem modTh_cores (s : State) (f : Thread → Thread) : (s.modTh f).cores = s.cores := rfl
@[simp] theorem modTh_clusters (s : State) (f : Thread → Thread) : (s.modTh f).clusters = s.clusters := rfl
@[simp] theorem modTh_ports (s : State) (f : Thread → Thread) : (s.modTh f).ports = s.ports := rfl
@[simp] theorem modTh_dies (s : State) (f : Thread → Thread) : (s.modTh f).dies = s.dies := rfl
@[simp] theorem modTh_mem (s : State) (f : Thread → Thread) : (s.modTh f).mem = s.mem := rfl
@[simp] theorem modTh_fe (s : State) (f : Thread → Thread) : (s.modTh f).fe = s.fe := rfl
@[simp] theorem modTh_tags (s : State) (f : Thread → Thread) : (s.modTh f).tags = s.tags := rfl
@[simp] theorem modTh_poison (s : State) (f : Thread → Thread) : (s.modTh f).poison = s.poison := rfl
@[simp] theorem modTh_stamps (s : State) (f : Thread → Thread) : (s.modTh f).stamps = s.stamps := rfl
@[simp] theorem modTh_replicas (s : State) (f : Thread → Thread) : (s.modTh f).replicas = s.replicas := rfl
@[simp] theorem modTh_asids (s : State) (f : Thread → Thread) : (s.modTh f).asids = s.asids := rfl
@[simp] theorem modTh_pkgId (s : State) (f : Thread → Thread) : (s.modTh f).pkgId = s.pkgId := rfl
@[simp] theorem modTh_comps (s : State) (f : Thread → Thread) : (s.modTh f).comps = s.comps := rfl
@[simp] theorem modTh_steps (s : State) (f : Thread → Thread) : (s.modTh f).steps = s.steps := rfl
@[simp] theorem modTh_slots (s : State) (f : Thread → Thread) : (s.modTh f).slots = s.slots := rfl
@[simp] theorem modTh_mailboxes (s : State) (f : Thread → Thread) : (s.modTh f).mailboxes = s.mailboxes := rfl
@[simp] theorem modTh_faultsvcs (s : State) (f : Thread → Thread) : (s.modTh f).faultsvcs = s.faultsvcs := rfl
@[simp] theorem modTh_resident (s : State) (f : Thread → Thread) : (s.modTh f).resident = s.resident := rfl
@[simp] theorem modTh_epoch (s : State) (f : Thread → Thread) : (s.modTh f).epoch = s.epoch := rfl
@[simp] theorem modTh_residentAt (s : State) (f : Thread → Thread) : (s.modTh f).residentAt = s.residentAt := rfl
@[simp] theorem modTh_digest (s : State) (f : Thread → Thread) : (s.modTh f).digest = s.digest := rfl
@[simp] theorem modTh_tabDigest (s : State) (f : Thread → Thread) : (s.modTh f).tabDigest = s.tabDigest := rfl
@[simp] theorem modTh_held (s : State) (f : Thread → Thread) : (s.modTh f).held = s.held := rfl
@[simp] theorem modTh_ended (s : State) (f : Thread → Thread) : (s.modTh f).ended = s.ended := rfl
@[simp] theorem modTh_damaged (s : State) (f : Thread → Thread) : (s.modTh f).damaged = s.damaged := rfl
@[simp] theorem modTh_stepsOver (s : State) (f : Thread → Thread) : (s.modTh f).stepsOver = s.stepsOver := rfl
@[simp] theorem modTh_suspended (s : State) (f : Thread → Thread) : (s.modTh f).suspended = s.suspended := rfl
@[simp] theorem modTh_net (s : State) (f : Thread → Thread) : (s.modTh f).net = s.net := rfl
@[simp] theorem modTh_pfaults (s : State) (f : Thread → Thread) : (s.modTh f).pfaults = s.pfaults := rfl
@[simp] theorem modTh_cwWrites (s : State) (f : Thread → Thread) : (s.modTh f).cwWrites = s.cwWrites := rfl
@[simp] theorem modTh_wakes (s : State) (f : Thread → Thread) : (s.modTh f).wakes = s.wakes := rfl
@[simp] theorem modTh_fwakes (s : State) (f : Thread → Thread) : (s.modTh f).fwakes = s.fwakes := rfl
@[simp] theorem modTh_transit (s : State) (f : Thread → Thread) : (s.modTh f).transit = s.transit := rfl
@[simp] theorem modTh_creditsBack (s : State) (f : Thread → Thread) : (s.modTh f).creditsBack = s.creditsBack := rfl
@[simp] theorem modTh_steals (s : State) (f : Thread → Thread) : (s.modTh f).steals = s.steals := rfl
@[simp] theorem modTh_joins (s : State) (f : Thread → Thread) : (s.modTh f).joins = s.joins := rfl
@[simp] theorem modTh_clock (s : State) (f : Thread → Thread) : (s.modTh f).clock = s.clock := rfl
@[simp] theorem modTh_mgmt (s : State) (f : Thread → Thread) : (s.modTh f).mgmt = s.mgmt := rfl
@[simp] theorem modTh_gws (s : State) (f : Thread → Thread) : (s.modTh f).gws = s.gws := rfl
@[simp] theorem modTh_links (s : State) (f : Thread → Thread) : (s.modTh f).links = s.links := rfl
@[simp] theorem modTh_ergs (s : State) (f : Thread → Thread) : (s.modTh f).ergs = s.ergs := rfl
@[simp] theorem modTh_rx (s : State) (f : Thread → Thread) : (s.modTh f).rx = s.rx := rfl
@[simp] theorem modTh_fuses (s : State) (f : Thread → Thread) : (s.modTh f).fuses = s.fuses := rfl
@[simp] theorem modTh_mins (s : State) (f : Thread → Thread) : (s.modTh f).mins = s.mins := rfl
@[simp] theorem modTh_corrected (s : State) (f : Thread → Thread) : (s.modTh f).corrected = s.corrected := rfl
@[simp] theorem modTh_out (s : State) (f : Thread → Thread) : (s.modTh f).out = s.out := rfl
@[simp] theorem modTh_at_core (s : State) (f : Thread → Thread) (n : Nat) : (s.modTh f).core n = s.core n := rfl
@[simp] theorem modTh_at_cluster (s : State) (f : Thread → Thread) (n : Nat) : (s.modTh f).cluster n = s.cluster n := rfl
@[simp] theorem modTh_at_port (s : State) (f : Thread → Thread) (n : Nat) : (s.modTh f).port n = s.port n := rfl
@[simp] theorem modTh_at_die (s : State) (f : Thread → Thread) (n : Nat) : (s.modTh f).die n = s.die n := rfl
@[simp] theorem modTh_at_gw (s : State) (f : Thread → Thread) (n : Nat) : (s.modTh f).gw n = s.gw n := rfl
@[simp] theorem modTh_at_link (s : State) (f : Thread → Thread) (n : Nat) : (s.modTh f).link n = s.link n := rfl
@[simp] theorem modTh_at_erg (s : State) (f : Thread → Thread) (n : Nat) : (s.modTh f).erg n = s.erg n := rfl
@[simp] theorem modTh_at_rxBuf (s : State) (f : Thread → Thread) (n : Nat) : (s.modTh f).rxBuf n = s.rxBuf n := rfl
@[simp] theorem modTh_at_comp (s : State) (f : Thread → Thread) (n : Nat) : (s.modTh f).comp n = s.comp n := rfl

/-! ### setCore -/

@[simp] theorem setCore_cur (s : State) (c : Nat) (k : Core) : (s.setCore c k).cur = s.cur := rfl
@[simp] theorem setCore_now (s : State) (c : Nat) (k : Core) : (s.setCore c k).now = s.now := rfl
@[simp] theorem setCore_slot (s : State) (c : Nat) (k : Core) : (s.setCore c k).slot = s.slot := rfl
@[simp] theorem setCore_arg (s : State) (c : Nat) (k : Core) : (s.setCore c k).arg = s.arg := rfl
@[simp] theorem setCore_agenda (s : State) (c : Nat) (k : Core) : (s.setCore c k).agenda = s.agenda := rfl
@[simp] theorem setCore_pending (s : State) (c : Nat) (k : Core) : (s.setCore c k).pending = s.pending := rfl
@[simp] theorem setCore_free (s : State) (c : Nat) (k : Core) : (s.setCore c k).free = s.free := rfl
@[simp] theorem setCore_nextId (s : State) (c : Nat) (k : Core) : (s.setCore c k).nextId = s.nextId := rfl
@[simp] theorem setCore_power (s : State) (c : Nat) (k : Core) : (s.setCore c k).power = s.power := rfl
@[simp] theorem setCore_threads (s : State) (c : Nat) (k : Core) : (s.setCore c k).threads = s.threads := rfl
@[simp] theorem setCore_cores (s : State) (c : Nat) (k : Core) : (s.setCore c k).cores = s.cores.set Core.init c k := rfl
@[simp] theorem setCore_clusters (s : State) (c : Nat) (k : Core) : (s.setCore c k).clusters = s.clusters := rfl
@[simp] theorem setCore_ports (s : State) (c : Nat) (k : Core) : (s.setCore c k).ports = s.ports := rfl
@[simp] theorem setCore_dies (s : State) (c : Nat) (k : Core) : (s.setCore c k).dies = s.dies := rfl
@[simp] theorem setCore_mem (s : State) (c : Nat) (k : Core) : (s.setCore c k).mem = s.mem := rfl
@[simp] theorem setCore_fe (s : State) (c : Nat) (k : Core) : (s.setCore c k).fe = s.fe := rfl
@[simp] theorem setCore_tags (s : State) (c : Nat) (k : Core) : (s.setCore c k).tags = s.tags := rfl
@[simp] theorem setCore_poison (s : State) (c : Nat) (k : Core) : (s.setCore c k).poison = s.poison := rfl
@[simp] theorem setCore_stamps (s : State) (c : Nat) (k : Core) : (s.setCore c k).stamps = s.stamps := rfl
@[simp] theorem setCore_replicas (s : State) (c : Nat) (k : Core) : (s.setCore c k).replicas = s.replicas := rfl
@[simp] theorem setCore_asids (s : State) (c : Nat) (k : Core) : (s.setCore c k).asids = s.asids := rfl
@[simp] theorem setCore_pkgId (s : State) (c : Nat) (k : Core) : (s.setCore c k).pkgId = s.pkgId := rfl
@[simp] theorem setCore_comps (s : State) (c : Nat) (k : Core) : (s.setCore c k).comps = s.comps := rfl
@[simp] theorem setCore_steps (s : State) (c : Nat) (k : Core) : (s.setCore c k).steps = s.steps := rfl
@[simp] theorem setCore_slots (s : State) (c : Nat) (k : Core) : (s.setCore c k).slots = s.slots := rfl
@[simp] theorem setCore_mailboxes (s : State) (c : Nat) (k : Core) : (s.setCore c k).mailboxes = s.mailboxes := rfl
@[simp] theorem setCore_faultsvcs (s : State) (c : Nat) (k : Core) : (s.setCore c k).faultsvcs = s.faultsvcs := rfl
@[simp] theorem setCore_resident (s : State) (c : Nat) (k : Core) : (s.setCore c k).resident = s.resident := rfl
@[simp] theorem setCore_epoch (s : State) (c : Nat) (k : Core) : (s.setCore c k).epoch = s.epoch := rfl
@[simp] theorem setCore_residentAt (s : State) (c : Nat) (k : Core) : (s.setCore c k).residentAt = s.residentAt := rfl
@[simp] theorem setCore_digest (s : State) (c : Nat) (k : Core) : (s.setCore c k).digest = s.digest := rfl
@[simp] theorem setCore_tabDigest (s : State) (c : Nat) (k : Core) : (s.setCore c k).tabDigest = s.tabDigest := rfl
@[simp] theorem setCore_held (s : State) (c : Nat) (k : Core) : (s.setCore c k).held = s.held := rfl
@[simp] theorem setCore_ended (s : State) (c : Nat) (k : Core) : (s.setCore c k).ended = s.ended := rfl
@[simp] theorem setCore_damaged (s : State) (c : Nat) (k : Core) : (s.setCore c k).damaged = s.damaged := rfl
@[simp] theorem setCore_stepsOver (s : State) (c : Nat) (k : Core) : (s.setCore c k).stepsOver = s.stepsOver := rfl
@[simp] theorem setCore_suspended (s : State) (c : Nat) (k : Core) : (s.setCore c k).suspended = s.suspended := rfl
@[simp] theorem setCore_net (s : State) (c : Nat) (k : Core) : (s.setCore c k).net = s.net := rfl
@[simp] theorem setCore_pfaults (s : State) (c : Nat) (k : Core) : (s.setCore c k).pfaults = s.pfaults := rfl
@[simp] theorem setCore_cwWrites (s : State) (c : Nat) (k : Core) : (s.setCore c k).cwWrites = s.cwWrites := rfl
@[simp] theorem setCore_wakes (s : State) (c : Nat) (k : Core) : (s.setCore c k).wakes = s.wakes := rfl
@[simp] theorem setCore_fwakes (s : State) (c : Nat) (k : Core) : (s.setCore c k).fwakes = s.fwakes := rfl
@[simp] theorem setCore_transit (s : State) (c : Nat) (k : Core) : (s.setCore c k).transit = s.transit := rfl
@[simp] theorem setCore_creditsBack (s : State) (c : Nat) (k : Core) : (s.setCore c k).creditsBack = s.creditsBack := rfl
@[simp] theorem setCore_steals (s : State) (c : Nat) (k : Core) : (s.setCore c k).steals = s.steals := rfl
@[simp] theorem setCore_joins (s : State) (c : Nat) (k : Core) : (s.setCore c k).joins = s.joins := rfl
@[simp] theorem setCore_clock (s : State) (c : Nat) (k : Core) : (s.setCore c k).clock = s.clock := rfl
@[simp] theorem setCore_mgmt (s : State) (c : Nat) (k : Core) : (s.setCore c k).mgmt = s.mgmt := rfl
@[simp] theorem setCore_gws (s : State) (c : Nat) (k : Core) : (s.setCore c k).gws = s.gws := rfl
@[simp] theorem setCore_links (s : State) (c : Nat) (k : Core) : (s.setCore c k).links = s.links := rfl
@[simp] theorem setCore_ergs (s : State) (c : Nat) (k : Core) : (s.setCore c k).ergs = s.ergs := rfl
@[simp] theorem setCore_rx (s : State) (c : Nat) (k : Core) : (s.setCore c k).rx = s.rx := rfl
@[simp] theorem setCore_fuses (s : State) (c : Nat) (k : Core) : (s.setCore c k).fuses = s.fuses := rfl
@[simp] theorem setCore_mins (s : State) (c : Nat) (k : Core) : (s.setCore c k).mins = s.mins := rfl
@[simp] theorem setCore_corrected (s : State) (c : Nat) (k : Core) : (s.setCore c k).corrected = s.corrected := rfl
@[simp] theorem setCore_out (s : State) (c : Nat) (k : Core) : (s.setCore c k).out = s.out := rfl
@[simp] theorem setCore_at_thread (s : State) (c : Nat) (k : Core) (n : Nat) : (s.setCore c k).thread n = s.thread n := rfl
@[simp] theorem setCore_at_cluster (s : State) (c : Nat) (k : Core) (n : Nat) : (s.setCore c k).cluster n = s.cluster n := rfl
@[simp] theorem setCore_at_port (s : State) (c : Nat) (k : Core) (n : Nat) : (s.setCore c k).port n = s.port n := rfl
@[simp] theorem setCore_at_die (s : State) (c : Nat) (k : Core) (n : Nat) : (s.setCore c k).die n = s.die n := rfl
@[simp] theorem setCore_at_gw (s : State) (c : Nat) (k : Core) (n : Nat) : (s.setCore c k).gw n = s.gw n := rfl
@[simp] theorem setCore_at_link (s : State) (c : Nat) (k : Core) (n : Nat) : (s.setCore c k).link n = s.link n := rfl
@[simp] theorem setCore_at_erg (s : State) (c : Nat) (k : Core) (n : Nat) : (s.setCore c k).erg n = s.erg n := rfl
@[simp] theorem setCore_at_rxBuf (s : State) (c : Nat) (k : Core) (n : Nat) : (s.setCore c k).rxBuf n = s.rxBuf n := rfl
@[simp] theorem setCore_at_comp (s : State) (c : Nat) (k : Core) (n : Nat) : (s.setCore c k).comp n = s.comp n := rfl

/-! ### modCore -/

@[simp] theorem modCore_cur (s : State) (c : Nat) (f : Core → Core) : (s.modCore c f).cur = s.cur := rfl
@[simp] theorem modCore_now (s : State) (c : Nat) (f : Core → Core) : (s.modCore c f).now = s.now := rfl
@[simp] theorem modCore_slot (s : State) (c : Nat) (f : Core → Core) : (s.modCore c f).slot = s.slot := rfl
@[simp] theorem modCore_arg (s : State) (c : Nat) (f : Core → Core) : (s.modCore c f).arg = s.arg := rfl
@[simp] theorem modCore_agenda (s : State) (c : Nat) (f : Core → Core) : (s.modCore c f).agenda = s.agenda := rfl
@[simp] theorem modCore_pending (s : State) (c : Nat) (f : Core → Core) : (s.modCore c f).pending = s.pending := rfl
@[simp] theorem modCore_free (s : State) (c : Nat) (f : Core → Core) : (s.modCore c f).free = s.free := rfl
@[simp] theorem modCore_nextId (s : State) (c : Nat) (f : Core → Core) : (s.modCore c f).nextId = s.nextId := rfl
@[simp] theorem modCore_power (s : State) (c : Nat) (f : Core → Core) : (s.modCore c f).power = s.power := rfl
@[simp] theorem modCore_threads (s : State) (c : Nat) (f : Core → Core) : (s.modCore c f).threads = s.threads := rfl
@[simp] theorem modCore_cores (s : State) (c : Nat) (f : Core → Core) : (s.modCore c f).cores = s.cores.set Core.init c (f (s.core c)) := rfl
@[simp] theorem modCore_clusters (s : State) (c : Nat) (f : Core → Core) : (s.modCore c f).clusters = s.clusters := rfl
@[simp] theorem modCore_ports (s : State) (c : Nat) (f : Core → Core) : (s.modCore c f).ports = s.ports := rfl
@[simp] theorem modCore_dies (s : State) (c : Nat) (f : Core → Core) : (s.modCore c f).dies = s.dies := rfl
@[simp] theorem modCore_mem (s : State) (c : Nat) (f : Core → Core) : (s.modCore c f).mem = s.mem := rfl
@[simp] theorem modCore_fe (s : State) (c : Nat) (f : Core → Core) : (s.modCore c f).fe = s.fe := rfl
@[simp] theorem modCore_tags (s : State) (c : Nat) (f : Core → Core) : (s.modCore c f).tags = s.tags := rfl
@[simp] theorem modCore_poison (s : State) (c : Nat) (f : Core → Core) : (s.modCore c f).poison = s.poison := rfl
@[simp] theorem modCore_stamps (s : State) (c : Nat) (f : Core → Core) : (s.modCore c f).stamps = s.stamps := rfl
@[simp] theorem modCore_replicas (s : State) (c : Nat) (f : Core → Core) : (s.modCore c f).replicas = s.replicas := rfl
@[simp] theorem modCore_asids (s : State) (c : Nat) (f : Core → Core) : (s.modCore c f).asids = s.asids := rfl
@[simp] theorem modCore_pkgId (s : State) (c : Nat) (f : Core → Core) : (s.modCore c f).pkgId = s.pkgId := rfl
@[simp] theorem modCore_comps (s : State) (c : Nat) (f : Core → Core) : (s.modCore c f).comps = s.comps := rfl
@[simp] theorem modCore_steps (s : State) (c : Nat) (f : Core → Core) : (s.modCore c f).steps = s.steps := rfl
@[simp] theorem modCore_slots (s : State) (c : Nat) (f : Core → Core) : (s.modCore c f).slots = s.slots := rfl
@[simp] theorem modCore_mailboxes (s : State) (c : Nat) (f : Core → Core) : (s.modCore c f).mailboxes = s.mailboxes := rfl
@[simp] theorem modCore_faultsvcs (s : State) (c : Nat) (f : Core → Core) : (s.modCore c f).faultsvcs = s.faultsvcs := rfl
@[simp] theorem modCore_resident (s : State) (c : Nat) (f : Core → Core) : (s.modCore c f).resident = s.resident := rfl
@[simp] theorem modCore_epoch (s : State) (c : Nat) (f : Core → Core) : (s.modCore c f).epoch = s.epoch := rfl
@[simp] theorem modCore_residentAt (s : State) (c : Nat) (f : Core → Core) : (s.modCore c f).residentAt = s.residentAt := rfl
@[simp] theorem modCore_digest (s : State) (c : Nat) (f : Core → Core) : (s.modCore c f).digest = s.digest := rfl
@[simp] theorem modCore_tabDigest (s : State) (c : Nat) (f : Core → Core) : (s.modCore c f).tabDigest = s.tabDigest := rfl
@[simp] theorem modCore_held (s : State) (c : Nat) (f : Core → Core) : (s.modCore c f).held = s.held := rfl
@[simp] theorem modCore_ended (s : State) (c : Nat) (f : Core → Core) : (s.modCore c f).ended = s.ended := rfl
@[simp] theorem modCore_damaged (s : State) (c : Nat) (f : Core → Core) : (s.modCore c f).damaged = s.damaged := rfl
@[simp] theorem modCore_stepsOver (s : State) (c : Nat) (f : Core → Core) : (s.modCore c f).stepsOver = s.stepsOver := rfl
@[simp] theorem modCore_suspended (s : State) (c : Nat) (f : Core → Core) : (s.modCore c f).suspended = s.suspended := rfl
@[simp] theorem modCore_net (s : State) (c : Nat) (f : Core → Core) : (s.modCore c f).net = s.net := rfl
@[simp] theorem modCore_pfaults (s : State) (c : Nat) (f : Core → Core) : (s.modCore c f).pfaults = s.pfaults := rfl
@[simp] theorem modCore_cwWrites (s : State) (c : Nat) (f : Core → Core) : (s.modCore c f).cwWrites = s.cwWrites := rfl
@[simp] theorem modCore_wakes (s : State) (c : Nat) (f : Core → Core) : (s.modCore c f).wakes = s.wakes := rfl
@[simp] theorem modCore_fwakes (s : State) (c : Nat) (f : Core → Core) : (s.modCore c f).fwakes = s.fwakes := rfl
@[simp] theorem modCore_transit (s : State) (c : Nat) (f : Core → Core) : (s.modCore c f).transit = s.transit := rfl
@[simp] theorem modCore_creditsBack (s : State) (c : Nat) (f : Core → Core) : (s.modCore c f).creditsBack = s.creditsBack := rfl
@[simp] theorem modCore_steals (s : State) (c : Nat) (f : Core → Core) : (s.modCore c f).steals = s.steals := rfl
@[simp] theorem modCore_joins (s : State) (c : Nat) (f : Core → Core) : (s.modCore c f).joins = s.joins := rfl
@[simp] theorem modCore_clock (s : State) (c : Nat) (f : Core → Core) : (s.modCore c f).clock = s.clock := rfl
@[simp] theorem modCore_mgmt (s : State) (c : Nat) (f : Core → Core) : (s.modCore c f).mgmt = s.mgmt := rfl
@[simp] theorem modCore_gws (s : State) (c : Nat) (f : Core → Core) : (s.modCore c f).gws = s.gws := rfl
@[simp] theorem modCore_links (s : State) (c : Nat) (f : Core → Core) : (s.modCore c f).links = s.links := rfl
@[simp] theorem modCore_ergs (s : State) (c : Nat) (f : Core → Core) : (s.modCore c f).ergs = s.ergs := rfl
@[simp] theorem modCore_rx (s : State) (c : Nat) (f : Core → Core) : (s.modCore c f).rx = s.rx := rfl
@[simp] theorem modCore_fuses (s : State) (c : Nat) (f : Core → Core) : (s.modCore c f).fuses = s.fuses := rfl
@[simp] theorem modCore_mins (s : State) (c : Nat) (f : Core → Core) : (s.modCore c f).mins = s.mins := rfl
@[simp] theorem modCore_corrected (s : State) (c : Nat) (f : Core → Core) : (s.modCore c f).corrected = s.corrected := rfl
@[simp] theorem modCore_out (s : State) (c : Nat) (f : Core → Core) : (s.modCore c f).out = s.out := rfl
@[simp] theorem modCore_at_thread (s : State) (c : Nat) (f : Core → Core) (n : Nat) : (s.modCore c f).thread n = s.thread n := rfl
@[simp] theorem modCore_at_cluster (s : State) (c : Nat) (f : Core → Core) (n : Nat) : (s.modCore c f).cluster n = s.cluster n := rfl
@[simp] theorem modCore_at_port (s : State) (c : Nat) (f : Core → Core) (n : Nat) : (s.modCore c f).port n = s.port n := rfl
@[simp] theorem modCore_at_die (s : State) (c : Nat) (f : Core → Core) (n : Nat) : (s.modCore c f).die n = s.die n := rfl
@[simp] theorem modCore_at_gw (s : State) (c : Nat) (f : Core → Core) (n : Nat) : (s.modCore c f).gw n = s.gw n := rfl
@[simp] theorem modCore_at_link (s : State) (c : Nat) (f : Core → Core) (n : Nat) : (s.modCore c f).link n = s.link n := rfl
@[simp] theorem modCore_at_erg (s : State) (c : Nat) (f : Core → Core) (n : Nat) : (s.modCore c f).erg n = s.erg n := rfl
@[simp] theorem modCore_at_rxBuf (s : State) (c : Nat) (f : Core → Core) (n : Nat) : (s.modCore c f).rxBuf n = s.rxBuf n := rfl
@[simp] theorem modCore_at_comp (s : State) (c : Nat) (f : Core → Core) (n : Nat) : (s.modCore c f).comp n = s.comp n := rfl

/-! ### modCluster -/

@[simp] theorem modCluster_cur (s : State) (c : Nat) (f : Cluster → Cluster) : (s.modCluster c f).cur = s.cur := rfl
@[simp] theorem modCluster_now (s : State) (c : Nat) (f : Cluster → Cluster) : (s.modCluster c f).now = s.now := rfl
@[simp] theorem modCluster_slot (s : State) (c : Nat) (f : Cluster → Cluster) : (s.modCluster c f).slot = s.slot := rfl
@[simp] theorem modCluster_arg (s : State) (c : Nat) (f : Cluster → Cluster) : (s.modCluster c f).arg = s.arg := rfl
@[simp] theorem modCluster_agenda (s : State) (c : Nat) (f : Cluster → Cluster) : (s.modCluster c f).agenda = s.agenda := rfl
@[simp] theorem modCluster_pending (s : State) (c : Nat) (f : Cluster → Cluster) : (s.modCluster c f).pending = s.pending := rfl
@[simp] theorem modCluster_free (s : State) (c : Nat) (f : Cluster → Cluster) : (s.modCluster c f).free = s.free := rfl
@[simp] theorem modCluster_nextId (s : State) (c : Nat) (f : Cluster → Cluster) : (s.modCluster c f).nextId = s.nextId := rfl
@[simp] theorem modCluster_power (s : State) (c : Nat) (f : Cluster → Cluster) : (s.modCluster c f).power = s.power := rfl
@[simp] theorem modCluster_threads (s : State) (c : Nat) (f : Cluster → Cluster) : (s.modCluster c f).threads = s.threads := rfl
@[simp] theorem modCluster_cores (s : State) (c : Nat) (f : Cluster → Cluster) : (s.modCluster c f).cores = s.cores := rfl
@[simp] theorem modCluster_clusters (s : State) (c : Nat) (f : Cluster → Cluster) : (s.modCluster c f).clusters = s.clusters.set Cluster.init c (f (s.cluster c)) := rfl
@[simp] theorem modCluster_ports (s : State) (c : Nat) (f : Cluster → Cluster) : (s.modCluster c f).ports = s.ports := rfl
@[simp] theorem modCluster_dies (s : State) (c : Nat) (f : Cluster → Cluster) : (s.modCluster c f).dies = s.dies := rfl
@[simp] theorem modCluster_mem (s : State) (c : Nat) (f : Cluster → Cluster) : (s.modCluster c f).mem = s.mem := rfl
@[simp] theorem modCluster_fe (s : State) (c : Nat) (f : Cluster → Cluster) : (s.modCluster c f).fe = s.fe := rfl
@[simp] theorem modCluster_tags (s : State) (c : Nat) (f : Cluster → Cluster) : (s.modCluster c f).tags = s.tags := rfl
@[simp] theorem modCluster_poison (s : State) (c : Nat) (f : Cluster → Cluster) : (s.modCluster c f).poison = s.poison := rfl
@[simp] theorem modCluster_stamps (s : State) (c : Nat) (f : Cluster → Cluster) : (s.modCluster c f).stamps = s.stamps := rfl
@[simp] theorem modCluster_replicas (s : State) (c : Nat) (f : Cluster → Cluster) : (s.modCluster c f).replicas = s.replicas := rfl
@[simp] theorem modCluster_asids (s : State) (c : Nat) (f : Cluster → Cluster) : (s.modCluster c f).asids = s.asids := rfl
@[simp] theorem modCluster_pkgId (s : State) (c : Nat) (f : Cluster → Cluster) : (s.modCluster c f).pkgId = s.pkgId := rfl
@[simp] theorem modCluster_comps (s : State) (c : Nat) (f : Cluster → Cluster) : (s.modCluster c f).comps = s.comps := rfl
@[simp] theorem modCluster_steps (s : State) (c : Nat) (f : Cluster → Cluster) : (s.modCluster c f).steps = s.steps := rfl
@[simp] theorem modCluster_slots (s : State) (c : Nat) (f : Cluster → Cluster) : (s.modCluster c f).slots = s.slots := rfl
@[simp] theorem modCluster_mailboxes (s : State) (c : Nat) (f : Cluster → Cluster) : (s.modCluster c f).mailboxes = s.mailboxes := rfl
@[simp] theorem modCluster_faultsvcs (s : State) (c : Nat) (f : Cluster → Cluster) : (s.modCluster c f).faultsvcs = s.faultsvcs := rfl
@[simp] theorem modCluster_resident (s : State) (c : Nat) (f : Cluster → Cluster) : (s.modCluster c f).resident = s.resident := rfl
@[simp] theorem modCluster_epoch (s : State) (c : Nat) (f : Cluster → Cluster) : (s.modCluster c f).epoch = s.epoch := rfl
@[simp] theorem modCluster_residentAt (s : State) (c : Nat) (f : Cluster → Cluster) : (s.modCluster c f).residentAt = s.residentAt := rfl
@[simp] theorem modCluster_digest (s : State) (c : Nat) (f : Cluster → Cluster) : (s.modCluster c f).digest = s.digest := rfl
@[simp] theorem modCluster_tabDigest (s : State) (c : Nat) (f : Cluster → Cluster) : (s.modCluster c f).tabDigest = s.tabDigest := rfl
@[simp] theorem modCluster_held (s : State) (c : Nat) (f : Cluster → Cluster) : (s.modCluster c f).held = s.held := rfl
@[simp] theorem modCluster_ended (s : State) (c : Nat) (f : Cluster → Cluster) : (s.modCluster c f).ended = s.ended := rfl
@[simp] theorem modCluster_damaged (s : State) (c : Nat) (f : Cluster → Cluster) : (s.modCluster c f).damaged = s.damaged := rfl
@[simp] theorem modCluster_stepsOver (s : State) (c : Nat) (f : Cluster → Cluster) : (s.modCluster c f).stepsOver = s.stepsOver := rfl
@[simp] theorem modCluster_suspended (s : State) (c : Nat) (f : Cluster → Cluster) : (s.modCluster c f).suspended = s.suspended := rfl
@[simp] theorem modCluster_net (s : State) (c : Nat) (f : Cluster → Cluster) : (s.modCluster c f).net = s.net := rfl
@[simp] theorem modCluster_pfaults (s : State) (c : Nat) (f : Cluster → Cluster) : (s.modCluster c f).pfaults = s.pfaults := rfl
@[simp] theorem modCluster_cwWrites (s : State) (c : Nat) (f : Cluster → Cluster) : (s.modCluster c f).cwWrites = s.cwWrites := rfl
@[simp] theorem modCluster_wakes (s : State) (c : Nat) (f : Cluster → Cluster) : (s.modCluster c f).wakes = s.wakes := rfl
@[simp] theorem modCluster_fwakes (s : State) (c : Nat) (f : Cluster → Cluster) : (s.modCluster c f).fwakes = s.fwakes := rfl
@[simp] theorem modCluster_transit (s : State) (c : Nat) (f : Cluster → Cluster) : (s.modCluster c f).transit = s.transit := rfl
@[simp] theorem modCluster_creditsBack (s : State) (c : Nat) (f : Cluster → Cluster) : (s.modCluster c f).creditsBack = s.creditsBack := rfl
@[simp] theorem modCluster_steals (s : State) (c : Nat) (f : Cluster → Cluster) : (s.modCluster c f).steals = s.steals := rfl
@[simp] theorem modCluster_joins (s : State) (c : Nat) (f : Cluster → Cluster) : (s.modCluster c f).joins = s.joins := rfl
@[simp] theorem modCluster_clock (s : State) (c : Nat) (f : Cluster → Cluster) : (s.modCluster c f).clock = s.clock := rfl
@[simp] theorem modCluster_mgmt (s : State) (c : Nat) (f : Cluster → Cluster) : (s.modCluster c f).mgmt = s.mgmt := rfl
@[simp] theorem modCluster_gws (s : State) (c : Nat) (f : Cluster → Cluster) : (s.modCluster c f).gws = s.gws := rfl
@[simp] theorem modCluster_links (s : State) (c : Nat) (f : Cluster → Cluster) : (s.modCluster c f).links = s.links := rfl
@[simp] theorem modCluster_ergs (s : State) (c : Nat) (f : Cluster → Cluster) : (s.modCluster c f).ergs = s.ergs := rfl
@[simp] theorem modCluster_rx (s : State) (c : Nat) (f : Cluster → Cluster) : (s.modCluster c f).rx = s.rx := rfl
@[simp] theorem modCluster_fuses (s : State) (c : Nat) (f : Cluster → Cluster) : (s.modCluster c f).fuses = s.fuses := rfl
@[simp] theorem modCluster_mins (s : State) (c : Nat) (f : Cluster → Cluster) : (s.modCluster c f).mins = s.mins := rfl
@[simp] theorem modCluster_corrected (s : State) (c : Nat) (f : Cluster → Cluster) : (s.modCluster c f).corrected = s.corrected := rfl
@[simp] theorem modCluster_out (s : State) (c : Nat) (f : Cluster → Cluster) : (s.modCluster c f).out = s.out := rfl
@[simp] theorem modCluster_at_thread (s : State) (c : Nat) (f : Cluster → Cluster) (n : Nat) : (s.modCluster c f).thread n = s.thread n := rfl
@[simp] theorem modCluster_at_core (s : State) (c : Nat) (f : Cluster → Cluster) (n : Nat) : (s.modCluster c f).core n = s.core n := rfl
@[simp] theorem modCluster_at_port (s : State) (c : Nat) (f : Cluster → Cluster) (n : Nat) : (s.modCluster c f).port n = s.port n := rfl
@[simp] theorem modCluster_at_die (s : State) (c : Nat) (f : Cluster → Cluster) (n : Nat) : (s.modCluster c f).die n = s.die n := rfl
@[simp] theorem modCluster_at_gw (s : State) (c : Nat) (f : Cluster → Cluster) (n : Nat) : (s.modCluster c f).gw n = s.gw n := rfl
@[simp] theorem modCluster_at_link (s : State) (c : Nat) (f : Cluster → Cluster) (n : Nat) : (s.modCluster c f).link n = s.link n := rfl
@[simp] theorem modCluster_at_erg (s : State) (c : Nat) (f : Cluster → Cluster) (n : Nat) : (s.modCluster c f).erg n = s.erg n := rfl
@[simp] theorem modCluster_at_rxBuf (s : State) (c : Nat) (f : Cluster → Cluster) (n : Nat) : (s.modCluster c f).rxBuf n = s.rxBuf n := rfl
@[simp] theorem modCluster_at_comp (s : State) (c : Nat) (f : Cluster → Cluster) (n : Nat) : (s.modCluster c f).comp n = s.comp n := rfl

/-! ### modPort -/

@[simp] theorem modPort_cur (s : State) (p : Nat) (f : Port → Port) : (s.modPort p f).cur = s.cur := rfl
@[simp] theorem modPort_now (s : State) (p : Nat) (f : Port → Port) : (s.modPort p f).now = s.now := rfl
@[simp] theorem modPort_slot (s : State) (p : Nat) (f : Port → Port) : (s.modPort p f).slot = s.slot := rfl
@[simp] theorem modPort_arg (s : State) (p : Nat) (f : Port → Port) : (s.modPort p f).arg = s.arg := rfl
@[simp] theorem modPort_agenda (s : State) (p : Nat) (f : Port → Port) : (s.modPort p f).agenda = s.agenda := rfl
@[simp] theorem modPort_pending (s : State) (p : Nat) (f : Port → Port) : (s.modPort p f).pending = s.pending := rfl
@[simp] theorem modPort_free (s : State) (p : Nat) (f : Port → Port) : (s.modPort p f).free = s.free := rfl
@[simp] theorem modPort_nextId (s : State) (p : Nat) (f : Port → Port) : (s.modPort p f).nextId = s.nextId := rfl
@[simp] theorem modPort_power (s : State) (p : Nat) (f : Port → Port) : (s.modPort p f).power = s.power := rfl
@[simp] theorem modPort_threads (s : State) (p : Nat) (f : Port → Port) : (s.modPort p f).threads = s.threads := rfl
@[simp] theorem modPort_cores (s : State) (p : Nat) (f : Port → Port) : (s.modPort p f).cores = s.cores := rfl
@[simp] theorem modPort_clusters (s : State) (p : Nat) (f : Port → Port) : (s.modPort p f).clusters = s.clusters := rfl
@[simp] theorem modPort_ports (s : State) (p : Nat) (f : Port → Port) : (s.modPort p f).ports = s.ports.set Port.init p (f (s.port p)) := rfl
@[simp] theorem modPort_dies (s : State) (p : Nat) (f : Port → Port) : (s.modPort p f).dies = s.dies := rfl
@[simp] theorem modPort_mem (s : State) (p : Nat) (f : Port → Port) : (s.modPort p f).mem = s.mem := rfl
@[simp] theorem modPort_fe (s : State) (p : Nat) (f : Port → Port) : (s.modPort p f).fe = s.fe := rfl
@[simp] theorem modPort_tags (s : State) (p : Nat) (f : Port → Port) : (s.modPort p f).tags = s.tags := rfl
@[simp] theorem modPort_poison (s : State) (p : Nat) (f : Port → Port) : (s.modPort p f).poison = s.poison := rfl
@[simp] theorem modPort_stamps (s : State) (p : Nat) (f : Port → Port) : (s.modPort p f).stamps = s.stamps := rfl
@[simp] theorem modPort_replicas (s : State) (p : Nat) (f : Port → Port) : (s.modPort p f).replicas = s.replicas := rfl
@[simp] theorem modPort_asids (s : State) (p : Nat) (f : Port → Port) : (s.modPort p f).asids = s.asids := rfl
@[simp] theorem modPort_pkgId (s : State) (p : Nat) (f : Port → Port) : (s.modPort p f).pkgId = s.pkgId := rfl
@[simp] theorem modPort_comps (s : State) (p : Nat) (f : Port → Port) : (s.modPort p f).comps = s.comps := rfl
@[simp] theorem modPort_steps (s : State) (p : Nat) (f : Port → Port) : (s.modPort p f).steps = s.steps := rfl
@[simp] theorem modPort_slots (s : State) (p : Nat) (f : Port → Port) : (s.modPort p f).slots = s.slots := rfl
@[simp] theorem modPort_mailboxes (s : State) (p : Nat) (f : Port → Port) : (s.modPort p f).mailboxes = s.mailboxes := rfl
@[simp] theorem modPort_faultsvcs (s : State) (p : Nat) (f : Port → Port) : (s.modPort p f).faultsvcs = s.faultsvcs := rfl
@[simp] theorem modPort_resident (s : State) (p : Nat) (f : Port → Port) : (s.modPort p f).resident = s.resident := rfl
@[simp] theorem modPort_epoch (s : State) (p : Nat) (f : Port → Port) : (s.modPort p f).epoch = s.epoch := rfl
@[simp] theorem modPort_residentAt (s : State) (p : Nat) (f : Port → Port) : (s.modPort p f).residentAt = s.residentAt := rfl
@[simp] theorem modPort_digest (s : State) (p : Nat) (f : Port → Port) : (s.modPort p f).digest = s.digest := rfl
@[simp] theorem modPort_tabDigest (s : State) (p : Nat) (f : Port → Port) : (s.modPort p f).tabDigest = s.tabDigest := rfl
@[simp] theorem modPort_held (s : State) (p : Nat) (f : Port → Port) : (s.modPort p f).held = s.held := rfl
@[simp] theorem modPort_ended (s : State) (p : Nat) (f : Port → Port) : (s.modPort p f).ended = s.ended := rfl
@[simp] theorem modPort_damaged (s : State) (p : Nat) (f : Port → Port) : (s.modPort p f).damaged = s.damaged := rfl
@[simp] theorem modPort_stepsOver (s : State) (p : Nat) (f : Port → Port) : (s.modPort p f).stepsOver = s.stepsOver := rfl
@[simp] theorem modPort_suspended (s : State) (p : Nat) (f : Port → Port) : (s.modPort p f).suspended = s.suspended := rfl
@[simp] theorem modPort_net (s : State) (p : Nat) (f : Port → Port) : (s.modPort p f).net = s.net := rfl
@[simp] theorem modPort_pfaults (s : State) (p : Nat) (f : Port → Port) : (s.modPort p f).pfaults = s.pfaults := rfl
@[simp] theorem modPort_cwWrites (s : State) (p : Nat) (f : Port → Port) : (s.modPort p f).cwWrites = s.cwWrites := rfl
@[simp] theorem modPort_wakes (s : State) (p : Nat) (f : Port → Port) : (s.modPort p f).wakes = s.wakes := rfl
@[simp] theorem modPort_fwakes (s : State) (p : Nat) (f : Port → Port) : (s.modPort p f).fwakes = s.fwakes := rfl
@[simp] theorem modPort_transit (s : State) (p : Nat) (f : Port → Port) : (s.modPort p f).transit = s.transit := rfl
@[simp] theorem modPort_creditsBack (s : State) (p : Nat) (f : Port → Port) : (s.modPort p f).creditsBack = s.creditsBack := rfl
@[simp] theorem modPort_steals (s : State) (p : Nat) (f : Port → Port) : (s.modPort p f).steals = s.steals := rfl
@[simp] theorem modPort_joins (s : State) (p : Nat) (f : Port → Port) : (s.modPort p f).joins = s.joins := rfl
@[simp] theorem modPort_clock (s : State) (p : Nat) (f : Port → Port) : (s.modPort p f).clock = s.clock := rfl
@[simp] theorem modPort_mgmt (s : State) (p : Nat) (f : Port → Port) : (s.modPort p f).mgmt = s.mgmt := rfl
@[simp] theorem modPort_gws (s : State) (p : Nat) (f : Port → Port) : (s.modPort p f).gws = s.gws := rfl
@[simp] theorem modPort_links (s : State) (p : Nat) (f : Port → Port) : (s.modPort p f).links = s.links := rfl
@[simp] theorem modPort_ergs (s : State) (p : Nat) (f : Port → Port) : (s.modPort p f).ergs = s.ergs := rfl
@[simp] theorem modPort_rx (s : State) (p : Nat) (f : Port → Port) : (s.modPort p f).rx = s.rx := rfl
@[simp] theorem modPort_fuses (s : State) (p : Nat) (f : Port → Port) : (s.modPort p f).fuses = s.fuses := rfl
@[simp] theorem modPort_mins (s : State) (p : Nat) (f : Port → Port) : (s.modPort p f).mins = s.mins := rfl
@[simp] theorem modPort_corrected (s : State) (p : Nat) (f : Port → Port) : (s.modPort p f).corrected = s.corrected := rfl
@[simp] theorem modPort_out (s : State) (p : Nat) (f : Port → Port) : (s.modPort p f).out = s.out := rfl
@[simp] theorem modPort_at_thread (s : State) (p : Nat) (f : Port → Port) (n : Nat) : (s.modPort p f).thread n = s.thread n := rfl
@[simp] theorem modPort_at_core (s : State) (p : Nat) (f : Port → Port) (n : Nat) : (s.modPort p f).core n = s.core n := rfl
@[simp] theorem modPort_at_cluster (s : State) (p : Nat) (f : Port → Port) (n : Nat) : (s.modPort p f).cluster n = s.cluster n := rfl
@[simp] theorem modPort_at_die (s : State) (p : Nat) (f : Port → Port) (n : Nat) : (s.modPort p f).die n = s.die n := rfl
@[simp] theorem modPort_at_gw (s : State) (p : Nat) (f : Port → Port) (n : Nat) : (s.modPort p f).gw n = s.gw n := rfl
@[simp] theorem modPort_at_link (s : State) (p : Nat) (f : Port → Port) (n : Nat) : (s.modPort p f).link n = s.link n := rfl
@[simp] theorem modPort_at_erg (s : State) (p : Nat) (f : Port → Port) (n : Nat) : (s.modPort p f).erg n = s.erg n := rfl
@[simp] theorem modPort_at_rxBuf (s : State) (p : Nat) (f : Port → Port) (n : Nat) : (s.modPort p f).rxBuf n = s.rxBuf n := rfl
@[simp] theorem modPort_at_comp (s : State) (p : Nat) (f : Port → Port) (n : Nat) : (s.modPort p f).comp n = s.comp n := rfl

/-! ### modDie -/

@[simp] theorem modDie_cur (s : State) (d : Nat) (f : Die → Die) : (s.modDie d f).cur = s.cur := rfl
@[simp] theorem modDie_now (s : State) (d : Nat) (f : Die → Die) : (s.modDie d f).now = s.now := rfl
@[simp] theorem modDie_slot (s : State) (d : Nat) (f : Die → Die) : (s.modDie d f).slot = s.slot := rfl
@[simp] theorem modDie_arg (s : State) (d : Nat) (f : Die → Die) : (s.modDie d f).arg = s.arg := rfl
@[simp] theorem modDie_agenda (s : State) (d : Nat) (f : Die → Die) : (s.modDie d f).agenda = s.agenda := rfl
@[simp] theorem modDie_pending (s : State) (d : Nat) (f : Die → Die) : (s.modDie d f).pending = s.pending := rfl
@[simp] theorem modDie_free (s : State) (d : Nat) (f : Die → Die) : (s.modDie d f).free = s.free := rfl
@[simp] theorem modDie_nextId (s : State) (d : Nat) (f : Die → Die) : (s.modDie d f).nextId = s.nextId := rfl
@[simp] theorem modDie_power (s : State) (d : Nat) (f : Die → Die) : (s.modDie d f).power = s.power := rfl
@[simp] theorem modDie_threads (s : State) (d : Nat) (f : Die → Die) : (s.modDie d f).threads = s.threads := rfl
@[simp] theorem modDie_cores (s : State) (d : Nat) (f : Die → Die) : (s.modDie d f).cores = s.cores := rfl
@[simp] theorem modDie_clusters (s : State) (d : Nat) (f : Die → Die) : (s.modDie d f).clusters = s.clusters := rfl
@[simp] theorem modDie_ports (s : State) (d : Nat) (f : Die → Die) : (s.modDie d f).ports = s.ports := rfl
@[simp] theorem modDie_dies (s : State) (d : Nat) (f : Die → Die) : (s.modDie d f).dies = s.dies.set Die.init d (f (s.die d)) := rfl
@[simp] theorem modDie_mem (s : State) (d : Nat) (f : Die → Die) : (s.modDie d f).mem = s.mem := rfl
@[simp] theorem modDie_fe (s : State) (d : Nat) (f : Die → Die) : (s.modDie d f).fe = s.fe := rfl
@[simp] theorem modDie_tags (s : State) (d : Nat) (f : Die → Die) : (s.modDie d f).tags = s.tags := rfl
@[simp] theorem modDie_poison (s : State) (d : Nat) (f : Die → Die) : (s.modDie d f).poison = s.poison := rfl
@[simp] theorem modDie_stamps (s : State) (d : Nat) (f : Die → Die) : (s.modDie d f).stamps = s.stamps := rfl
@[simp] theorem modDie_replicas (s : State) (d : Nat) (f : Die → Die) : (s.modDie d f).replicas = s.replicas := rfl
@[simp] theorem modDie_asids (s : State) (d : Nat) (f : Die → Die) : (s.modDie d f).asids = s.asids := rfl
@[simp] theorem modDie_pkgId (s : State) (d : Nat) (f : Die → Die) : (s.modDie d f).pkgId = s.pkgId := rfl
@[simp] theorem modDie_comps (s : State) (d : Nat) (f : Die → Die) : (s.modDie d f).comps = s.comps := rfl
@[simp] theorem modDie_steps (s : State) (d : Nat) (f : Die → Die) : (s.modDie d f).steps = s.steps := rfl
@[simp] theorem modDie_slots (s : State) (d : Nat) (f : Die → Die) : (s.modDie d f).slots = s.slots := rfl
@[simp] theorem modDie_mailboxes (s : State) (d : Nat) (f : Die → Die) : (s.modDie d f).mailboxes = s.mailboxes := rfl
@[simp] theorem modDie_faultsvcs (s : State) (d : Nat) (f : Die → Die) : (s.modDie d f).faultsvcs = s.faultsvcs := rfl
@[simp] theorem modDie_resident (s : State) (d : Nat) (f : Die → Die) : (s.modDie d f).resident = s.resident := rfl
@[simp] theorem modDie_epoch (s : State) (d : Nat) (f : Die → Die) : (s.modDie d f).epoch = s.epoch := rfl
@[simp] theorem modDie_residentAt (s : State) (d : Nat) (f : Die → Die) : (s.modDie d f).residentAt = s.residentAt := rfl
@[simp] theorem modDie_digest (s : State) (d : Nat) (f : Die → Die) : (s.modDie d f).digest = s.digest := rfl
@[simp] theorem modDie_tabDigest (s : State) (d : Nat) (f : Die → Die) : (s.modDie d f).tabDigest = s.tabDigest := rfl
@[simp] theorem modDie_held (s : State) (d : Nat) (f : Die → Die) : (s.modDie d f).held = s.held := rfl
@[simp] theorem modDie_ended (s : State) (d : Nat) (f : Die → Die) : (s.modDie d f).ended = s.ended := rfl
@[simp] theorem modDie_damaged (s : State) (d : Nat) (f : Die → Die) : (s.modDie d f).damaged = s.damaged := rfl
@[simp] theorem modDie_stepsOver (s : State) (d : Nat) (f : Die → Die) : (s.modDie d f).stepsOver = s.stepsOver := rfl
@[simp] theorem modDie_suspended (s : State) (d : Nat) (f : Die → Die) : (s.modDie d f).suspended = s.suspended := rfl
@[simp] theorem modDie_net (s : State) (d : Nat) (f : Die → Die) : (s.modDie d f).net = s.net := rfl
@[simp] theorem modDie_pfaults (s : State) (d : Nat) (f : Die → Die) : (s.modDie d f).pfaults = s.pfaults := rfl
@[simp] theorem modDie_cwWrites (s : State) (d : Nat) (f : Die → Die) : (s.modDie d f).cwWrites = s.cwWrites := rfl
@[simp] theorem modDie_wakes (s : State) (d : Nat) (f : Die → Die) : (s.modDie d f).wakes = s.wakes := rfl
@[simp] theorem modDie_fwakes (s : State) (d : Nat) (f : Die → Die) : (s.modDie d f).fwakes = s.fwakes := rfl
@[simp] theorem modDie_transit (s : State) (d : Nat) (f : Die → Die) : (s.modDie d f).transit = s.transit := rfl
@[simp] theorem modDie_creditsBack (s : State) (d : Nat) (f : Die → Die) : (s.modDie d f).creditsBack = s.creditsBack := rfl
@[simp] theorem modDie_steals (s : State) (d : Nat) (f : Die → Die) : (s.modDie d f).steals = s.steals := rfl
@[simp] theorem modDie_joins (s : State) (d : Nat) (f : Die → Die) : (s.modDie d f).joins = s.joins := rfl
@[simp] theorem modDie_clock (s : State) (d : Nat) (f : Die → Die) : (s.modDie d f).clock = s.clock := rfl
@[simp] theorem modDie_mgmt (s : State) (d : Nat) (f : Die → Die) : (s.modDie d f).mgmt = s.mgmt := rfl
@[simp] theorem modDie_gws (s : State) (d : Nat) (f : Die → Die) : (s.modDie d f).gws = s.gws := rfl
@[simp] theorem modDie_links (s : State) (d : Nat) (f : Die → Die) : (s.modDie d f).links = s.links := rfl
@[simp] theorem modDie_ergs (s : State) (d : Nat) (f : Die → Die) : (s.modDie d f).ergs = s.ergs := rfl
@[simp] theorem modDie_rx (s : State) (d : Nat) (f : Die → Die) : (s.modDie d f).rx = s.rx := rfl
@[simp] theorem modDie_fuses (s : State) (d : Nat) (f : Die → Die) : (s.modDie d f).fuses = s.fuses := rfl
@[simp] theorem modDie_mins (s : State) (d : Nat) (f : Die → Die) : (s.modDie d f).mins = s.mins := rfl
@[simp] theorem modDie_corrected (s : State) (d : Nat) (f : Die → Die) : (s.modDie d f).corrected = s.corrected := rfl
@[simp] theorem modDie_out (s : State) (d : Nat) (f : Die → Die) : (s.modDie d f).out = s.out := rfl
@[simp] theorem modDie_at_thread (s : State) (d : Nat) (f : Die → Die) (n : Nat) : (s.modDie d f).thread n = s.thread n := rfl
@[simp] theorem modDie_at_core (s : State) (d : Nat) (f : Die → Die) (n : Nat) : (s.modDie d f).core n = s.core n := rfl
@[simp] theorem modDie_at_cluster (s : State) (d : Nat) (f : Die → Die) (n : Nat) : (s.modDie d f).cluster n = s.cluster n := rfl
@[simp] theorem modDie_at_port (s : State) (d : Nat) (f : Die → Die) (n : Nat) : (s.modDie d f).port n = s.port n := rfl
@[simp] theorem modDie_at_gw (s : State) (d : Nat) (f : Die → Die) (n : Nat) : (s.modDie d f).gw n = s.gw n := rfl
@[simp] theorem modDie_at_link (s : State) (d : Nat) (f : Die → Die) (n : Nat) : (s.modDie d f).link n = s.link n := rfl
@[simp] theorem modDie_at_erg (s : State) (d : Nat) (f : Die → Die) (n : Nat) : (s.modDie d f).erg n = s.erg n := rfl
@[simp] theorem modDie_at_rxBuf (s : State) (d : Nat) (f : Die → Die) (n : Nat) : (s.modDie d f).rxBuf n = s.rxBuf n := rfl
@[simp] theorem modDie_at_comp (s : State) (d : Nat) (f : Die → Die) (n : Nat) : (s.modDie d f).comp n = s.comp n := rfl

/-! ### modGw -/

@[simp] theorem modGw_cur (s : State) (g : Nat) (f : Gateway → Gateway) : (s.modGw g f).cur = s.cur := rfl
@[simp] theorem modGw_now (s : State) (g : Nat) (f : Gateway → Gateway) : (s.modGw g f).now = s.now := rfl
@[simp] theorem modGw_slot (s : State) (g : Nat) (f : Gateway → Gateway) : (s.modGw g f).slot = s.slot := rfl
@[simp] theorem modGw_arg (s : State) (g : Nat) (f : Gateway → Gateway) : (s.modGw g f).arg = s.arg := rfl
@[simp] theorem modGw_agenda (s : State) (g : Nat) (f : Gateway → Gateway) : (s.modGw g f).agenda = s.agenda := rfl
@[simp] theorem modGw_pending (s : State) (g : Nat) (f : Gateway → Gateway) : (s.modGw g f).pending = s.pending := rfl
@[simp] theorem modGw_free (s : State) (g : Nat) (f : Gateway → Gateway) : (s.modGw g f).free = s.free := rfl
@[simp] theorem modGw_nextId (s : State) (g : Nat) (f : Gateway → Gateway) : (s.modGw g f).nextId = s.nextId := rfl
@[simp] theorem modGw_power (s : State) (g : Nat) (f : Gateway → Gateway) : (s.modGw g f).power = s.power := rfl
@[simp] theorem modGw_threads (s : State) (g : Nat) (f : Gateway → Gateway) : (s.modGw g f).threads = s.threads := rfl
@[simp] theorem modGw_cores (s : State) (g : Nat) (f : Gateway → Gateway) : (s.modGw g f).cores = s.cores := rfl
@[simp] theorem modGw_clusters (s : State) (g : Nat) (f : Gateway → Gateway) : (s.modGw g f).clusters = s.clusters := rfl
@[simp] theorem modGw_ports (s : State) (g : Nat) (f : Gateway → Gateway) : (s.modGw g f).ports = s.ports := rfl
@[simp] theorem modGw_dies (s : State) (g : Nat) (f : Gateway → Gateway) : (s.modGw g f).dies = s.dies := rfl
@[simp] theorem modGw_mem (s : State) (g : Nat) (f : Gateway → Gateway) : (s.modGw g f).mem = s.mem := rfl
@[simp] theorem modGw_fe (s : State) (g : Nat) (f : Gateway → Gateway) : (s.modGw g f).fe = s.fe := rfl
@[simp] theorem modGw_tags (s : State) (g : Nat) (f : Gateway → Gateway) : (s.modGw g f).tags = s.tags := rfl
@[simp] theorem modGw_poison (s : State) (g : Nat) (f : Gateway → Gateway) : (s.modGw g f).poison = s.poison := rfl
@[simp] theorem modGw_stamps (s : State) (g : Nat) (f : Gateway → Gateway) : (s.modGw g f).stamps = s.stamps := rfl
@[simp] theorem modGw_replicas (s : State) (g : Nat) (f : Gateway → Gateway) : (s.modGw g f).replicas = s.replicas := rfl
@[simp] theorem modGw_asids (s : State) (g : Nat) (f : Gateway → Gateway) : (s.modGw g f).asids = s.asids := rfl
@[simp] theorem modGw_pkgId (s : State) (g : Nat) (f : Gateway → Gateway) : (s.modGw g f).pkgId = s.pkgId := rfl
@[simp] theorem modGw_comps (s : State) (g : Nat) (f : Gateway → Gateway) : (s.modGw g f).comps = s.comps := rfl
@[simp] theorem modGw_steps (s : State) (g : Nat) (f : Gateway → Gateway) : (s.modGw g f).steps = s.steps := rfl
@[simp] theorem modGw_slots (s : State) (g : Nat) (f : Gateway → Gateway) : (s.modGw g f).slots = s.slots := rfl
@[simp] theorem modGw_mailboxes (s : State) (g : Nat) (f : Gateway → Gateway) : (s.modGw g f).mailboxes = s.mailboxes := rfl
@[simp] theorem modGw_faultsvcs (s : State) (g : Nat) (f : Gateway → Gateway) : (s.modGw g f).faultsvcs = s.faultsvcs := rfl
@[simp] theorem modGw_resident (s : State) (g : Nat) (f : Gateway → Gateway) : (s.modGw g f).resident = s.resident := rfl
@[simp] theorem modGw_epoch (s : State) (g : Nat) (f : Gateway → Gateway) : (s.modGw g f).epoch = s.epoch := rfl
@[simp] theorem modGw_residentAt (s : State) (g : Nat) (f : Gateway → Gateway) : (s.modGw g f).residentAt = s.residentAt := rfl
@[simp] theorem modGw_digest (s : State) (g : Nat) (f : Gateway → Gateway) : (s.modGw g f).digest = s.digest := rfl
@[simp] theorem modGw_tabDigest (s : State) (g : Nat) (f : Gateway → Gateway) : (s.modGw g f).tabDigest = s.tabDigest := rfl
@[simp] theorem modGw_held (s : State) (g : Nat) (f : Gateway → Gateway) : (s.modGw g f).held = s.held := rfl
@[simp] theorem modGw_ended (s : State) (g : Nat) (f : Gateway → Gateway) : (s.modGw g f).ended = s.ended := rfl
@[simp] theorem modGw_damaged (s : State) (g : Nat) (f : Gateway → Gateway) : (s.modGw g f).damaged = s.damaged := rfl
@[simp] theorem modGw_stepsOver (s : State) (g : Nat) (f : Gateway → Gateway) : (s.modGw g f).stepsOver = s.stepsOver := rfl
@[simp] theorem modGw_suspended (s : State) (g : Nat) (f : Gateway → Gateway) : (s.modGw g f).suspended = s.suspended := rfl
@[simp] theorem modGw_net (s : State) (g : Nat) (f : Gateway → Gateway) : (s.modGw g f).net = s.net := rfl
@[simp] theorem modGw_pfaults (s : State) (g : Nat) (f : Gateway → Gateway) : (s.modGw g f).pfaults = s.pfaults := rfl
@[simp] theorem modGw_cwWrites (s : State) (g : Nat) (f : Gateway → Gateway) : (s.modGw g f).cwWrites = s.cwWrites := rfl
@[simp] theorem modGw_wakes (s : State) (g : Nat) (f : Gateway → Gateway) : (s.modGw g f).wakes = s.wakes := rfl
@[simp] theorem modGw_fwakes (s : State) (g : Nat) (f : Gateway → Gateway) : (s.modGw g f).fwakes = s.fwakes := rfl
@[simp] theorem modGw_transit (s : State) (g : Nat) (f : Gateway → Gateway) : (s.modGw g f).transit = s.transit := rfl
@[simp] theorem modGw_creditsBack (s : State) (g : Nat) (f : Gateway → Gateway) : (s.modGw g f).creditsBack = s.creditsBack := rfl
@[simp] theorem modGw_steals (s : State) (g : Nat) (f : Gateway → Gateway) : (s.modGw g f).steals = s.steals := rfl
@[simp] theorem modGw_joins (s : State) (g : Nat) (f : Gateway → Gateway) : (s.modGw g f).joins = s.joins := rfl
@[simp] theorem modGw_clock (s : State) (g : Nat) (f : Gateway → Gateway) : (s.modGw g f).clock = s.clock := rfl
@[simp] theorem modGw_mgmt (s : State) (g : Nat) (f : Gateway → Gateway) : (s.modGw g f).mgmt = s.mgmt := rfl
@[simp] theorem modGw_gws (s : State) (g : Nat) (f : Gateway → Gateway) : (s.modGw g f).gws = s.gws.set Gateway.init g (f (s.gw g)) := rfl
@[simp] theorem modGw_links (s : State) (g : Nat) (f : Gateway → Gateway) : (s.modGw g f).links = s.links := rfl
@[simp] theorem modGw_ergs (s : State) (g : Nat) (f : Gateway → Gateway) : (s.modGw g f).ergs = s.ergs := rfl
@[simp] theorem modGw_rx (s : State) (g : Nat) (f : Gateway → Gateway) : (s.modGw g f).rx = s.rx := rfl
@[simp] theorem modGw_fuses (s : State) (g : Nat) (f : Gateway → Gateway) : (s.modGw g f).fuses = s.fuses := rfl
@[simp] theorem modGw_mins (s : State) (g : Nat) (f : Gateway → Gateway) : (s.modGw g f).mins = s.mins := rfl
@[simp] theorem modGw_corrected (s : State) (g : Nat) (f : Gateway → Gateway) : (s.modGw g f).corrected = s.corrected := rfl
@[simp] theorem modGw_out (s : State) (g : Nat) (f : Gateway → Gateway) : (s.modGw g f).out = s.out := rfl
@[simp] theorem modGw_at_thread (s : State) (g : Nat) (f : Gateway → Gateway) (n : Nat) : (s.modGw g f).thread n = s.thread n := rfl
@[simp] theorem modGw_at_core (s : State) (g : Nat) (f : Gateway → Gateway) (n : Nat) : (s.modGw g f).core n = s.core n := rfl
@[simp] theorem modGw_at_cluster (s : State) (g : Nat) (f : Gateway → Gateway) (n : Nat) : (s.modGw g f).cluster n = s.cluster n := rfl
@[simp] theorem modGw_at_port (s : State) (g : Nat) (f : Gateway → Gateway) (n : Nat) : (s.modGw g f).port n = s.port n := rfl
@[simp] theorem modGw_at_die (s : State) (g : Nat) (f : Gateway → Gateway) (n : Nat) : (s.modGw g f).die n = s.die n := rfl
@[simp] theorem modGw_at_link (s : State) (g : Nat) (f : Gateway → Gateway) (n : Nat) : (s.modGw g f).link n = s.link n := rfl
@[simp] theorem modGw_at_erg (s : State) (g : Nat) (f : Gateway → Gateway) (n : Nat) : (s.modGw g f).erg n = s.erg n := rfl
@[simp] theorem modGw_at_rxBuf (s : State) (g : Nat) (f : Gateway → Gateway) (n : Nat) : (s.modGw g f).rxBuf n = s.rxBuf n := rfl
@[simp] theorem modGw_at_comp (s : State) (g : Nat) (f : Gateway → Gateway) (n : Nat) : (s.modGw g f).comp n = s.comp n := rfl

/-! ### modLink -/

@[simp] theorem modLink_cur (s : State) (l : Nat) (f : Link → Link) : (s.modLink l f).cur = s.cur := rfl
@[simp] theorem modLink_now (s : State) (l : Nat) (f : Link → Link) : (s.modLink l f).now = s.now := rfl
@[simp] theorem modLink_slot (s : State) (l : Nat) (f : Link → Link) : (s.modLink l f).slot = s.slot := rfl
@[simp] theorem modLink_arg (s : State) (l : Nat) (f : Link → Link) : (s.modLink l f).arg = s.arg := rfl
@[simp] theorem modLink_agenda (s : State) (l : Nat) (f : Link → Link) : (s.modLink l f).agenda = s.agenda := rfl
@[simp] theorem modLink_pending (s : State) (l : Nat) (f : Link → Link) : (s.modLink l f).pending = s.pending := rfl
@[simp] theorem modLink_free (s : State) (l : Nat) (f : Link → Link) : (s.modLink l f).free = s.free := rfl
@[simp] theorem modLink_nextId (s : State) (l : Nat) (f : Link → Link) : (s.modLink l f).nextId = s.nextId := rfl
@[simp] theorem modLink_power (s : State) (l : Nat) (f : Link → Link) : (s.modLink l f).power = s.power := rfl
@[simp] theorem modLink_threads (s : State) (l : Nat) (f : Link → Link) : (s.modLink l f).threads = s.threads := rfl
@[simp] theorem modLink_cores (s : State) (l : Nat) (f : Link → Link) : (s.modLink l f).cores = s.cores := rfl
@[simp] theorem modLink_clusters (s : State) (l : Nat) (f : Link → Link) : (s.modLink l f).clusters = s.clusters := rfl
@[simp] theorem modLink_ports (s : State) (l : Nat) (f : Link → Link) : (s.modLink l f).ports = s.ports := rfl
@[simp] theorem modLink_dies (s : State) (l : Nat) (f : Link → Link) : (s.modLink l f).dies = s.dies := rfl
@[simp] theorem modLink_mem (s : State) (l : Nat) (f : Link → Link) : (s.modLink l f).mem = s.mem := rfl
@[simp] theorem modLink_fe (s : State) (l : Nat) (f : Link → Link) : (s.modLink l f).fe = s.fe := rfl
@[simp] theorem modLink_tags (s : State) (l : Nat) (f : Link → Link) : (s.modLink l f).tags = s.tags := rfl
@[simp] theorem modLink_poison (s : State) (l : Nat) (f : Link → Link) : (s.modLink l f).poison = s.poison := rfl
@[simp] theorem modLink_stamps (s : State) (l : Nat) (f : Link → Link) : (s.modLink l f).stamps = s.stamps := rfl
@[simp] theorem modLink_replicas (s : State) (l : Nat) (f : Link → Link) : (s.modLink l f).replicas = s.replicas := rfl
@[simp] theorem modLink_asids (s : State) (l : Nat) (f : Link → Link) : (s.modLink l f).asids = s.asids := rfl
@[simp] theorem modLink_pkgId (s : State) (l : Nat) (f : Link → Link) : (s.modLink l f).pkgId = s.pkgId := rfl
@[simp] theorem modLink_comps (s : State) (l : Nat) (f : Link → Link) : (s.modLink l f).comps = s.comps := rfl
@[simp] theorem modLink_steps (s : State) (l : Nat) (f : Link → Link) : (s.modLink l f).steps = s.steps := rfl
@[simp] theorem modLink_slots (s : State) (l : Nat) (f : Link → Link) : (s.modLink l f).slots = s.slots := rfl
@[simp] theorem modLink_mailboxes (s : State) (l : Nat) (f : Link → Link) : (s.modLink l f).mailboxes = s.mailboxes := rfl
@[simp] theorem modLink_faultsvcs (s : State) (l : Nat) (f : Link → Link) : (s.modLink l f).faultsvcs = s.faultsvcs := rfl
@[simp] theorem modLink_resident (s : State) (l : Nat) (f : Link → Link) : (s.modLink l f).resident = s.resident := rfl
@[simp] theorem modLink_epoch (s : State) (l : Nat) (f : Link → Link) : (s.modLink l f).epoch = s.epoch := rfl
@[simp] theorem modLink_residentAt (s : State) (l : Nat) (f : Link → Link) : (s.modLink l f).residentAt = s.residentAt := rfl
@[simp] theorem modLink_digest (s : State) (l : Nat) (f : Link → Link) : (s.modLink l f).digest = s.digest := rfl
@[simp] theorem modLink_tabDigest (s : State) (l : Nat) (f : Link → Link) : (s.modLink l f).tabDigest = s.tabDigest := rfl
@[simp] theorem modLink_held (s : State) (l : Nat) (f : Link → Link) : (s.modLink l f).held = s.held := rfl
@[simp] theorem modLink_ended (s : State) (l : Nat) (f : Link → Link) : (s.modLink l f).ended = s.ended := rfl
@[simp] theorem modLink_damaged (s : State) (l : Nat) (f : Link → Link) : (s.modLink l f).damaged = s.damaged := rfl
@[simp] theorem modLink_stepsOver (s : State) (l : Nat) (f : Link → Link) : (s.modLink l f).stepsOver = s.stepsOver := rfl
@[simp] theorem modLink_suspended (s : State) (l : Nat) (f : Link → Link) : (s.modLink l f).suspended = s.suspended := rfl
@[simp] theorem modLink_net (s : State) (l : Nat) (f : Link → Link) : (s.modLink l f).net = s.net := rfl
@[simp] theorem modLink_pfaults (s : State) (l : Nat) (f : Link → Link) : (s.modLink l f).pfaults = s.pfaults := rfl
@[simp] theorem modLink_cwWrites (s : State) (l : Nat) (f : Link → Link) : (s.modLink l f).cwWrites = s.cwWrites := rfl
@[simp] theorem modLink_wakes (s : State) (l : Nat) (f : Link → Link) : (s.modLink l f).wakes = s.wakes := rfl
@[simp] theorem modLink_fwakes (s : State) (l : Nat) (f : Link → Link) : (s.modLink l f).fwakes = s.fwakes := rfl
@[simp] theorem modLink_transit (s : State) (l : Nat) (f : Link → Link) : (s.modLink l f).transit = s.transit := rfl
@[simp] theorem modLink_creditsBack (s : State) (l : Nat) (f : Link → Link) : (s.modLink l f).creditsBack = s.creditsBack := rfl
@[simp] theorem modLink_steals (s : State) (l : Nat) (f : Link → Link) : (s.modLink l f).steals = s.steals := rfl
@[simp] theorem modLink_joins (s : State) (l : Nat) (f : Link → Link) : (s.modLink l f).joins = s.joins := rfl
@[simp] theorem modLink_clock (s : State) (l : Nat) (f : Link → Link) : (s.modLink l f).clock = s.clock := rfl
@[simp] theorem modLink_mgmt (s : State) (l : Nat) (f : Link → Link) : (s.modLink l f).mgmt = s.mgmt := rfl
@[simp] theorem modLink_gws (s : State) (l : Nat) (f : Link → Link) : (s.modLink l f).gws = s.gws := rfl
@[simp] theorem modLink_links (s : State) (l : Nat) (f : Link → Link) : (s.modLink l f).links = s.links.set Link.init l (f (s.link l)) := rfl
@[simp] theorem modLink_ergs (s : State) (l : Nat) (f : Link → Link) : (s.modLink l f).ergs = s.ergs := rfl
@[simp] theorem modLink_rx (s : State) (l : Nat) (f : Link → Link) : (s.modLink l f).rx = s.rx := rfl
@[simp] theorem modLink_fuses (s : State) (l : Nat) (f : Link → Link) : (s.modLink l f).fuses = s.fuses := rfl
@[simp] theorem modLink_mins (s : State) (l : Nat) (f : Link → Link) : (s.modLink l f).mins = s.mins := rfl
@[simp] theorem modLink_corrected (s : State) (l : Nat) (f : Link → Link) : (s.modLink l f).corrected = s.corrected := rfl
@[simp] theorem modLink_out (s : State) (l : Nat) (f : Link → Link) : (s.modLink l f).out = s.out := rfl
@[simp] theorem modLink_at_thread (s : State) (l : Nat) (f : Link → Link) (n : Nat) : (s.modLink l f).thread n = s.thread n := rfl
@[simp] theorem modLink_at_core (s : State) (l : Nat) (f : Link → Link) (n : Nat) : (s.modLink l f).core n = s.core n := rfl
@[simp] theorem modLink_at_cluster (s : State) (l : Nat) (f : Link → Link) (n : Nat) : (s.modLink l f).cluster n = s.cluster n := rfl
@[simp] theorem modLink_at_port (s : State) (l : Nat) (f : Link → Link) (n : Nat) : (s.modLink l f).port n = s.port n := rfl
@[simp] theorem modLink_at_die (s : State) (l : Nat) (f : Link → Link) (n : Nat) : (s.modLink l f).die n = s.die n := rfl
@[simp] theorem modLink_at_gw (s : State) (l : Nat) (f : Link → Link) (n : Nat) : (s.modLink l f).gw n = s.gw n := rfl
@[simp] theorem modLink_at_erg (s : State) (l : Nat) (f : Link → Link) (n : Nat) : (s.modLink l f).erg n = s.erg n := rfl
@[simp] theorem modLink_at_rxBuf (s : State) (l : Nat) (f : Link → Link) (n : Nat) : (s.modLink l f).rxBuf n = s.rxBuf n := rfl
@[simp] theorem modLink_at_comp (s : State) (l : Nat) (f : Link → Link) (n : Nat) : (s.modLink l f).comp n = s.comp n := rfl

/-! ### owe -/

@[simp] theorem owe_cur (s : State) (due : Nat) (i : Instr) (a : Arg) : (s.owe due i a).cur = s.cur := rfl
@[simp] theorem owe_now (s : State) (due : Nat) (i : Instr) (a : Arg) : (s.owe due i a).now = s.now := rfl
@[simp] theorem owe_slot (s : State) (due : Nat) (i : Instr) (a : Arg) : (s.owe due i a).slot = s.slot := rfl
@[simp] theorem owe_arg (s : State) (due : Nat) (i : Instr) (a : Arg) : (s.owe due i a).arg = s.arg := rfl
@[simp] theorem owe_agenda (s : State) (due : Nat) (i : Instr) (a : Arg) : (s.owe due i a).agenda = s.agenda := rfl
@[simp] theorem owe_pending (s : State) (due : Nat) (i : Instr) (a : Arg) : (s.owe due i a).pending = s.pending ++ [⟨due, ⟨i, a⟩⟩] := rfl
@[simp] theorem owe_free (s : State) (due : Nat) (i : Instr) (a : Arg) : (s.owe due i a).free = s.free := rfl
@[simp] theorem owe_nextId (s : State) (due : Nat) (i : Instr) (a : Arg) : (s.owe due i a).nextId = s.nextId := rfl
@[simp] theorem owe_power (s : State) (due : Nat) (i : Instr) (a : Arg) : (s.owe due i a).power = s.power := rfl
@[simp] theorem owe_threads (s : State) (due : Nat) (i : Instr) (a : Arg) : (s.owe due i a).threads = s.threads := rfl
@[simp] theorem owe_cores (s : State) (due : Nat) (i : Instr) (a : Arg) : (s.owe due i a).cores = s.cores := rfl
@[simp] theorem owe_clusters (s : State) (due : Nat) (i : Instr) (a : Arg) : (s.owe due i a).clusters = s.clusters := rfl
@[simp] theorem owe_ports (s : State) (due : Nat) (i : Instr) (a : Arg) : (s.owe due i a).ports = s.ports := rfl
@[simp] theorem owe_dies (s : State) (due : Nat) (i : Instr) (a : Arg) : (s.owe due i a).dies = s.dies := rfl
@[simp] theorem owe_mem (s : State) (due : Nat) (i : Instr) (a : Arg) : (s.owe due i a).mem = s.mem := rfl
@[simp] theorem owe_fe (s : State) (due : Nat) (i : Instr) (a : Arg) : (s.owe due i a).fe = s.fe := rfl
@[simp] theorem owe_tags (s : State) (due : Nat) (i : Instr) (a : Arg) : (s.owe due i a).tags = s.tags := rfl
@[simp] theorem owe_poison (s : State) (due : Nat) (i : Instr) (a : Arg) : (s.owe due i a).poison = s.poison := rfl
@[simp] theorem owe_stamps (s : State) (due : Nat) (i : Instr) (a : Arg) : (s.owe due i a).stamps = s.stamps := rfl
@[simp] theorem owe_replicas (s : State) (due : Nat) (i : Instr) (a : Arg) : (s.owe due i a).replicas = s.replicas := rfl
@[simp] theorem owe_asids (s : State) (due : Nat) (i : Instr) (a : Arg) : (s.owe due i a).asids = s.asids := rfl
@[simp] theorem owe_pkgId (s : State) (due : Nat) (i : Instr) (a : Arg) : (s.owe due i a).pkgId = s.pkgId := rfl
@[simp] theorem owe_comps (s : State) (due : Nat) (i : Instr) (a : Arg) : (s.owe due i a).comps = s.comps := rfl
@[simp] theorem owe_steps (s : State) (due : Nat) (i : Instr) (a : Arg) : (s.owe due i a).steps = s.steps := rfl
@[simp] theorem owe_slots (s : State) (due : Nat) (i : Instr) (a : Arg) : (s.owe due i a).slots = s.slots := rfl
@[simp] theorem owe_mailboxes (s : State) (due : Nat) (i : Instr) (a : Arg) : (s.owe due i a).mailboxes = s.mailboxes := rfl
@[simp] theorem owe_faultsvcs (s : State) (due : Nat) (i : Instr) (a : Arg) : (s.owe due i a).faultsvcs = s.faultsvcs := rfl
@[simp] theorem owe_resident (s : State) (due : Nat) (i : Instr) (a : Arg) : (s.owe due i a).resident = s.resident := rfl
@[simp] theorem owe_epoch (s : State) (due : Nat) (i : Instr) (a : Arg) : (s.owe due i a).epoch = s.epoch := rfl
@[simp] theorem owe_residentAt (s : State) (due : Nat) (i : Instr) (a : Arg) : (s.owe due i a).residentAt = s.residentAt := rfl
@[simp] theorem owe_digest (s : State) (due : Nat) (i : Instr) (a : Arg) : (s.owe due i a).digest = s.digest := rfl
@[simp] theorem owe_tabDigest (s : State) (due : Nat) (i : Instr) (a : Arg) : (s.owe due i a).tabDigest = s.tabDigest := rfl
@[simp] theorem owe_held (s : State) (due : Nat) (i : Instr) (a : Arg) : (s.owe due i a).held = s.held := rfl
@[simp] theorem owe_ended (s : State) (due : Nat) (i : Instr) (a : Arg) : (s.owe due i a).ended = s.ended := rfl
@[simp] theorem owe_damaged (s : State) (due : Nat) (i : Instr) (a : Arg) : (s.owe due i a).damaged = s.damaged := rfl
@[simp] theorem owe_stepsOver (s : State) (due : Nat) (i : Instr) (a : Arg) : (s.owe due i a).stepsOver = s.stepsOver := rfl
@[simp] theorem owe_suspended (s : State) (due : Nat) (i : Instr) (a : Arg) : (s.owe due i a).suspended = s.suspended := rfl
@[simp] theorem owe_net (s : State) (due : Nat) (i : Instr) (a : Arg) : (s.owe due i a).net = s.net := rfl
@[simp] theorem owe_pfaults (s : State) (due : Nat) (i : Instr) (a : Arg) : (s.owe due i a).pfaults = s.pfaults := rfl
@[simp] theorem owe_cwWrites (s : State) (due : Nat) (i : Instr) (a : Arg) : (s.owe due i a).cwWrites = s.cwWrites := rfl
@[simp] theorem owe_wakes (s : State) (due : Nat) (i : Instr) (a : Arg) : (s.owe due i a).wakes = s.wakes := rfl
@[simp] theorem owe_fwakes (s : State) (due : Nat) (i : Instr) (a : Arg) : (s.owe due i a).fwakes = s.fwakes := rfl
@[simp] theorem owe_transit (s : State) (due : Nat) (i : Instr) (a : Arg) : (s.owe due i a).transit = s.transit := rfl
@[simp] theorem owe_creditsBack (s : State) (due : Nat) (i : Instr) (a : Arg) : (s.owe due i a).creditsBack = s.creditsBack := rfl
@[simp] theorem owe_steals (s : State) (due : Nat) (i : Instr) (a : Arg) : (s.owe due i a).steals = s.steals := rfl
@[simp] theorem owe_joins (s : State) (due : Nat) (i : Instr) (a : Arg) : (s.owe due i a).joins = s.joins := rfl
@[simp] theorem owe_clock (s : State) (due : Nat) (i : Instr) (a : Arg) : (s.owe due i a).clock = s.clock := rfl
@[simp] theorem owe_mgmt (s : State) (due : Nat) (i : Instr) (a : Arg) : (s.owe due i a).mgmt = s.mgmt := rfl
@[simp] theorem owe_gws (s : State) (due : Nat) (i : Instr) (a : Arg) : (s.owe due i a).gws = s.gws := rfl
@[simp] theorem owe_links (s : State) (due : Nat) (i : Instr) (a : Arg) : (s.owe due i a).links = s.links := rfl
@[simp] theorem owe_ergs (s : State) (due : Nat) (i : Instr) (a : Arg) : (s.owe due i a).ergs = s.ergs := rfl
@[simp] theorem owe_rx (s : State) (due : Nat) (i : Instr) (a : Arg) : (s.owe due i a).rx = s.rx := rfl
@[simp] theorem owe_fuses (s : State) (due : Nat) (i : Instr) (a : Arg) : (s.owe due i a).fuses = s.fuses := rfl
@[simp] theorem owe_mins (s : State) (due : Nat) (i : Instr) (a : Arg) : (s.owe due i a).mins = s.mins := rfl
@[simp] theorem owe_corrected (s : State) (due : Nat) (i : Instr) (a : Arg) : (s.owe due i a).corrected = s.corrected := rfl
@[simp] theorem owe_out (s : State) (due : Nat) (i : Instr) (a : Arg) : (s.owe due i a).out = s.out := rfl
@[simp] theorem owe_at_thread (s : State) (due : Nat) (i : Instr) (a : Arg) (n : Nat) : (s.owe due i a).thread n = s.thread n := rfl
@[simp] theorem owe_at_core (s : State) (due : Nat) (i : Instr) (a : Arg) (n : Nat) : (s.owe due i a).core n = s.core n := rfl
@[simp] theorem owe_at_cluster (s : State) (due : Nat) (i : Instr) (a : Arg) (n : Nat) : (s.owe due i a).cluster n = s.cluster n := rfl
@[simp] theorem owe_at_port (s : State) (due : Nat) (i : Instr) (a : Arg) (n : Nat) : (s.owe due i a).port n = s.port n := rfl
@[simp] theorem owe_at_die (s : State) (due : Nat) (i : Instr) (a : Arg) (n : Nat) : (s.owe due i a).die n = s.die n := rfl
@[simp] theorem owe_at_gw (s : State) (due : Nat) (i : Instr) (a : Arg) (n : Nat) : (s.owe due i a).gw n = s.gw n := rfl
@[simp] theorem owe_at_link (s : State) (due : Nat) (i : Instr) (a : Arg) (n : Nat) : (s.owe due i a).link n = s.link n := rfl
@[simp] theorem owe_at_erg (s : State) (due : Nat) (i : Instr) (a : Arg) (n : Nat) : (s.owe due i a).erg n = s.erg n := rfl
@[simp] theorem owe_at_rxBuf (s : State) (due : Nat) (i : Instr) (a : Arg) (n : Nat) : (s.owe due i a).rxBuf n = s.rxBuf n := rfl
@[simp] theorem owe_at_comp (s : State) (due : Nat) (i : Instr) (a : Arg) (n : Nat) : (s.owe due i a).comp n = s.comp n := rfl

/-! ### modErg -/

@[simp] theorem modErg_cur (s : State) (e : Nat) (f : Erg → Erg) : (s.modErg e f).cur = s.cur := rfl
@[simp] theorem modErg_now (s : State) (e : Nat) (f : Erg → Erg) : (s.modErg e f).now = s.now := rfl
@[simp] theorem modErg_slot (s : State) (e : Nat) (f : Erg → Erg) : (s.modErg e f).slot = s.slot := rfl
@[simp] theorem modErg_arg (s : State) (e : Nat) (f : Erg → Erg) : (s.modErg e f).arg = s.arg := rfl
@[simp] theorem modErg_agenda (s : State) (e : Nat) (f : Erg → Erg) : (s.modErg e f).agenda = s.agenda := rfl
@[simp] theorem modErg_pending (s : State) (e : Nat) (f : Erg → Erg) : (s.modErg e f).pending = s.pending := rfl
@[simp] theorem modErg_free (s : State) (e : Nat) (f : Erg → Erg) : (s.modErg e f).free = s.free := rfl
@[simp] theorem modErg_nextId (s : State) (e : Nat) (f : Erg → Erg) : (s.modErg e f).nextId = s.nextId := rfl
@[simp] theorem modErg_power (s : State) (e : Nat) (f : Erg → Erg) : (s.modErg e f).power = s.power := rfl
@[simp] theorem modErg_threads (s : State) (e : Nat) (f : Erg → Erg) : (s.modErg e f).threads = s.threads := rfl
@[simp] theorem modErg_cores (s : State) (e : Nat) (f : Erg → Erg) : (s.modErg e f).cores = s.cores := rfl
@[simp] theorem modErg_clusters (s : State) (e : Nat) (f : Erg → Erg) : (s.modErg e f).clusters = s.clusters := rfl
@[simp] theorem modErg_ports (s : State) (e : Nat) (f : Erg → Erg) : (s.modErg e f).ports = s.ports := rfl
@[simp] theorem modErg_dies (s : State) (e : Nat) (f : Erg → Erg) : (s.modErg e f).dies = s.dies := rfl
@[simp] theorem modErg_mem (s : State) (e : Nat) (f : Erg → Erg) : (s.modErg e f).mem = s.mem := rfl
@[simp] theorem modErg_fe (s : State) (e : Nat) (f : Erg → Erg) : (s.modErg e f).fe = s.fe := rfl
@[simp] theorem modErg_tags (s : State) (e : Nat) (f : Erg → Erg) : (s.modErg e f).tags = s.tags := rfl
@[simp] theorem modErg_poison (s : State) (e : Nat) (f : Erg → Erg) : (s.modErg e f).poison = s.poison := rfl
@[simp] theorem modErg_stamps (s : State) (e : Nat) (f : Erg → Erg) : (s.modErg e f).stamps = s.stamps := rfl
@[simp] theorem modErg_replicas (s : State) (e : Nat) (f : Erg → Erg) : (s.modErg e f).replicas = s.replicas := rfl
@[simp] theorem modErg_asids (s : State) (e : Nat) (f : Erg → Erg) : (s.modErg e f).asids = s.asids := rfl
@[simp] theorem modErg_pkgId (s : State) (e : Nat) (f : Erg → Erg) : (s.modErg e f).pkgId = s.pkgId := rfl
@[simp] theorem modErg_comps (s : State) (e : Nat) (f : Erg → Erg) : (s.modErg e f).comps = s.comps := rfl
@[simp] theorem modErg_steps (s : State) (e : Nat) (f : Erg → Erg) : (s.modErg e f).steps = s.steps := rfl
@[simp] theorem modErg_slots (s : State) (e : Nat) (f : Erg → Erg) : (s.modErg e f).slots = s.slots := rfl
@[simp] theorem modErg_mailboxes (s : State) (e : Nat) (f : Erg → Erg) : (s.modErg e f).mailboxes = s.mailboxes := rfl
@[simp] theorem modErg_faultsvcs (s : State) (e : Nat) (f : Erg → Erg) : (s.modErg e f).faultsvcs = s.faultsvcs := rfl
@[simp] theorem modErg_resident (s : State) (e : Nat) (f : Erg → Erg) : (s.modErg e f).resident = s.resident := rfl
@[simp] theorem modErg_epoch (s : State) (e : Nat) (f : Erg → Erg) : (s.modErg e f).epoch = s.epoch := rfl
@[simp] theorem modErg_residentAt (s : State) (e : Nat) (f : Erg → Erg) : (s.modErg e f).residentAt = s.residentAt := rfl
@[simp] theorem modErg_digest (s : State) (e : Nat) (f : Erg → Erg) : (s.modErg e f).digest = s.digest := rfl
@[simp] theorem modErg_tabDigest (s : State) (e : Nat) (f : Erg → Erg) : (s.modErg e f).tabDigest = s.tabDigest := rfl
@[simp] theorem modErg_held (s : State) (e : Nat) (f : Erg → Erg) : (s.modErg e f).held = s.held := rfl
@[simp] theorem modErg_ended (s : State) (e : Nat) (f : Erg → Erg) : (s.modErg e f).ended = s.ended := rfl
@[simp] theorem modErg_damaged (s : State) (e : Nat) (f : Erg → Erg) : (s.modErg e f).damaged = s.damaged := rfl
@[simp] theorem modErg_stepsOver (s : State) (e : Nat) (f : Erg → Erg) : (s.modErg e f).stepsOver = s.stepsOver := rfl
@[simp] theorem modErg_suspended (s : State) (e : Nat) (f : Erg → Erg) : (s.modErg e f).suspended = s.suspended := rfl
@[simp] theorem modErg_net (s : State) (e : Nat) (f : Erg → Erg) : (s.modErg e f).net = s.net := rfl
@[simp] theorem modErg_pfaults (s : State) (e : Nat) (f : Erg → Erg) : (s.modErg e f).pfaults = s.pfaults := rfl
@[simp] theorem modErg_cwWrites (s : State) (e : Nat) (f : Erg → Erg) : (s.modErg e f).cwWrites = s.cwWrites := rfl
@[simp] theorem modErg_wakes (s : State) (e : Nat) (f : Erg → Erg) : (s.modErg e f).wakes = s.wakes := rfl
@[simp] theorem modErg_fwakes (s : State) (e : Nat) (f : Erg → Erg) : (s.modErg e f).fwakes = s.fwakes := rfl
@[simp] theorem modErg_transit (s : State) (e : Nat) (f : Erg → Erg) : (s.modErg e f).transit = s.transit := rfl
@[simp] theorem modErg_creditsBack (s : State) (e : Nat) (f : Erg → Erg) : (s.modErg e f).creditsBack = s.creditsBack := rfl
@[simp] theorem modErg_steals (s : State) (e : Nat) (f : Erg → Erg) : (s.modErg e f).steals = s.steals := rfl
@[simp] theorem modErg_joins (s : State) (e : Nat) (f : Erg → Erg) : (s.modErg e f).joins = s.joins := rfl
@[simp] theorem modErg_clock (s : State) (e : Nat) (f : Erg → Erg) : (s.modErg e f).clock = s.clock := rfl
@[simp] theorem modErg_mgmt (s : State) (e : Nat) (f : Erg → Erg) : (s.modErg e f).mgmt = s.mgmt := rfl
@[simp] theorem modErg_gws (s : State) (e : Nat) (f : Erg → Erg) : (s.modErg e f).gws = s.gws := rfl
@[simp] theorem modErg_links (s : State) (e : Nat) (f : Erg → Erg) : (s.modErg e f).links = s.links := rfl
@[simp] theorem modErg_ergs (s : State) (e : Nat) (f : Erg → Erg) : (s.modErg e f).ergs = s.ergs.set Erg.init e (f (s.erg e)) := rfl
@[simp] theorem modErg_rx (s : State) (e : Nat) (f : Erg → Erg) : (s.modErg e f).rx = s.rx := rfl
@[simp] theorem modErg_fuses (s : State) (e : Nat) (f : Erg → Erg) : (s.modErg e f).fuses = s.fuses := rfl
@[simp] theorem modErg_mins (s : State) (e : Nat) (f : Erg → Erg) : (s.modErg e f).mins = s.mins := rfl
@[simp] theorem modErg_corrected (s : State) (e : Nat) (f : Erg → Erg) : (s.modErg e f).corrected = s.corrected := rfl
@[simp] theorem modErg_out (s : State) (e : Nat) (f : Erg → Erg) : (s.modErg e f).out = s.out := rfl
@[simp] theorem modErg_at_thread (s : State) (e : Nat) (f : Erg → Erg) (n : Nat) : (s.modErg e f).thread n = s.thread n := rfl
@[simp] theorem modErg_at_core (s : State) (e : Nat) (f : Erg → Erg) (n : Nat) : (s.modErg e f).core n = s.core n := rfl
@[simp] theorem modErg_at_cluster (s : State) (e : Nat) (f : Erg → Erg) (n : Nat) : (s.modErg e f).cluster n = s.cluster n := rfl
@[simp] theorem modErg_at_port (s : State) (e : Nat) (f : Erg → Erg) (n : Nat) : (s.modErg e f).port n = s.port n := rfl
@[simp] theorem modErg_at_die (s : State) (e : Nat) (f : Erg → Erg) (n : Nat) : (s.modErg e f).die n = s.die n := rfl
@[simp] theorem modErg_at_gw (s : State) (e : Nat) (f : Erg → Erg) (n : Nat) : (s.modErg e f).gw n = s.gw n := rfl
@[simp] theorem modErg_at_link (s : State) (e : Nat) (f : Erg → Erg) (n : Nat) : (s.modErg e f).link n = s.link n := rfl
@[simp] theorem modErg_at_rxBuf (s : State) (e : Nat) (f : Erg → Erg) (n : Nat) : (s.modErg e f).rxBuf n = s.rxBuf n := rfl
@[simp] theorem modErg_at_comp (s : State) (e : Nat) (f : Erg → Erg) (n : Nat) : (s.modErg e f).comp n = s.comp n := rfl

/-! ### modRx -/

@[simp] theorem modRx_cur (s : State) (b : Nat) (f : RxBuf → RxBuf) : (s.modRx b f).cur = s.cur := rfl
@[simp] theorem modRx_now (s : State) (b : Nat) (f : RxBuf → RxBuf) : (s.modRx b f).now = s.now := rfl
@[simp] theorem modRx_slot (s : State) (b : Nat) (f : RxBuf → RxBuf) : (s.modRx b f).slot = s.slot := rfl
@[simp] theorem modRx_arg (s : State) (b : Nat) (f : RxBuf → RxBuf) : (s.modRx b f).arg = s.arg := rfl
@[simp] theorem modRx_agenda (s : State) (b : Nat) (f : RxBuf → RxBuf) : (s.modRx b f).agenda = s.agenda := rfl
@[simp] theorem modRx_pending (s : State) (b : Nat) (f : RxBuf → RxBuf) : (s.modRx b f).pending = s.pending := rfl
@[simp] theorem modRx_free (s : State) (b : Nat) (f : RxBuf → RxBuf) : (s.modRx b f).free = s.free := rfl
@[simp] theorem modRx_nextId (s : State) (b : Nat) (f : RxBuf → RxBuf) : (s.modRx b f).nextId = s.nextId := rfl
@[simp] theorem modRx_power (s : State) (b : Nat) (f : RxBuf → RxBuf) : (s.modRx b f).power = s.power := rfl
@[simp] theorem modRx_threads (s : State) (b : Nat) (f : RxBuf → RxBuf) : (s.modRx b f).threads = s.threads := rfl
@[simp] theorem modRx_cores (s : State) (b : Nat) (f : RxBuf → RxBuf) : (s.modRx b f).cores = s.cores := rfl
@[simp] theorem modRx_clusters (s : State) (b : Nat) (f : RxBuf → RxBuf) : (s.modRx b f).clusters = s.clusters := rfl
@[simp] theorem modRx_ports (s : State) (b : Nat) (f : RxBuf → RxBuf) : (s.modRx b f).ports = s.ports := rfl
@[simp] theorem modRx_dies (s : State) (b : Nat) (f : RxBuf → RxBuf) : (s.modRx b f).dies = s.dies := rfl
@[simp] theorem modRx_mem (s : State) (b : Nat) (f : RxBuf → RxBuf) : (s.modRx b f).mem = s.mem := rfl
@[simp] theorem modRx_fe (s : State) (b : Nat) (f : RxBuf → RxBuf) : (s.modRx b f).fe = s.fe := rfl
@[simp] theorem modRx_tags (s : State) (b : Nat) (f : RxBuf → RxBuf) : (s.modRx b f).tags = s.tags := rfl
@[simp] theorem modRx_poison (s : State) (b : Nat) (f : RxBuf → RxBuf) : (s.modRx b f).poison = s.poison := rfl
@[simp] theorem modRx_stamps (s : State) (b : Nat) (f : RxBuf → RxBuf) : (s.modRx b f).stamps = s.stamps := rfl
@[simp] theorem modRx_replicas (s : State) (b : Nat) (f : RxBuf → RxBuf) : (s.modRx b f).replicas = s.replicas := rfl
@[simp] theorem modRx_asids (s : State) (b : Nat) (f : RxBuf → RxBuf) : (s.modRx b f).asids = s.asids := rfl
@[simp] theorem modRx_pkgId (s : State) (b : Nat) (f : RxBuf → RxBuf) : (s.modRx b f).pkgId = s.pkgId := rfl
@[simp] theorem modRx_comps (s : State) (b : Nat) (f : RxBuf → RxBuf) : (s.modRx b f).comps = s.comps := rfl
@[simp] theorem modRx_steps (s : State) (b : Nat) (f : RxBuf → RxBuf) : (s.modRx b f).steps = s.steps := rfl
@[simp] theorem modRx_slots (s : State) (b : Nat) (f : RxBuf → RxBuf) : (s.modRx b f).slots = s.slots := rfl
@[simp] theorem modRx_mailboxes (s : State) (b : Nat) (f : RxBuf → RxBuf) : (s.modRx b f).mailboxes = s.mailboxes := rfl
@[simp] theorem modRx_faultsvcs (s : State) (b : Nat) (f : RxBuf → RxBuf) : (s.modRx b f).faultsvcs = s.faultsvcs := rfl
@[simp] theorem modRx_resident (s : State) (b : Nat) (f : RxBuf → RxBuf) : (s.modRx b f).resident = s.resident := rfl
@[simp] theorem modRx_epoch (s : State) (b : Nat) (f : RxBuf → RxBuf) : (s.modRx b f).epoch = s.epoch := rfl
@[simp] theorem modRx_residentAt (s : State) (b : Nat) (f : RxBuf → RxBuf) : (s.modRx b f).residentAt = s.residentAt := rfl
@[simp] theorem modRx_digest (s : State) (b : Nat) (f : RxBuf → RxBuf) : (s.modRx b f).digest = s.digest := rfl
@[simp] theorem modRx_tabDigest (s : State) (b : Nat) (f : RxBuf → RxBuf) : (s.modRx b f).tabDigest = s.tabDigest := rfl
@[simp] theorem modRx_held (s : State) (b : Nat) (f : RxBuf → RxBuf) : (s.modRx b f).held = s.held := rfl
@[simp] theorem modRx_ended (s : State) (b : Nat) (f : RxBuf → RxBuf) : (s.modRx b f).ended = s.ended := rfl
@[simp] theorem modRx_damaged (s : State) (b : Nat) (f : RxBuf → RxBuf) : (s.modRx b f).damaged = s.damaged := rfl
@[simp] theorem modRx_stepsOver (s : State) (b : Nat) (f : RxBuf → RxBuf) : (s.modRx b f).stepsOver = s.stepsOver := rfl
@[simp] theorem modRx_suspended (s : State) (b : Nat) (f : RxBuf → RxBuf) : (s.modRx b f).suspended = s.suspended := rfl
@[simp] theorem modRx_net (s : State) (b : Nat) (f : RxBuf → RxBuf) : (s.modRx b f).net = s.net := rfl
@[simp] theorem modRx_pfaults (s : State) (b : Nat) (f : RxBuf → RxBuf) : (s.modRx b f).pfaults = s.pfaults := rfl
@[simp] theorem modRx_cwWrites (s : State) (b : Nat) (f : RxBuf → RxBuf) : (s.modRx b f).cwWrites = s.cwWrites := rfl
@[simp] theorem modRx_wakes (s : State) (b : Nat) (f : RxBuf → RxBuf) : (s.modRx b f).wakes = s.wakes := rfl
@[simp] theorem modRx_fwakes (s : State) (b : Nat) (f : RxBuf → RxBuf) : (s.modRx b f).fwakes = s.fwakes := rfl
@[simp] theorem modRx_transit (s : State) (b : Nat) (f : RxBuf → RxBuf) : (s.modRx b f).transit = s.transit := rfl
@[simp] theorem modRx_creditsBack (s : State) (b : Nat) (f : RxBuf → RxBuf) : (s.modRx b f).creditsBack = s.creditsBack := rfl
@[simp] theorem modRx_steals (s : State) (b : Nat) (f : RxBuf → RxBuf) : (s.modRx b f).steals = s.steals := rfl
@[simp] theorem modRx_joins (s : State) (b : Nat) (f : RxBuf → RxBuf) : (s.modRx b f).joins = s.joins := rfl
@[simp] theorem modRx_clock (s : State) (b : Nat) (f : RxBuf → RxBuf) : (s.modRx b f).clock = s.clock := rfl
@[simp] theorem modRx_mgmt (s : State) (b : Nat) (f : RxBuf → RxBuf) : (s.modRx b f).mgmt = s.mgmt := rfl
@[simp] theorem modRx_gws (s : State) (b : Nat) (f : RxBuf → RxBuf) : (s.modRx b f).gws = s.gws := rfl
@[simp] theorem modRx_links (s : State) (b : Nat) (f : RxBuf → RxBuf) : (s.modRx b f).links = s.links := rfl
@[simp] theorem modRx_ergs (s : State) (b : Nat) (f : RxBuf → RxBuf) : (s.modRx b f).ergs = s.ergs := rfl
@[simp] theorem modRx_rx (s : State) (b : Nat) (f : RxBuf → RxBuf) : (s.modRx b f).rx = s.rx.set RxBuf.init b (f (s.rxBuf b)) := rfl
@[simp] theorem modRx_fuses (s : State) (b : Nat) (f : RxBuf → RxBuf) : (s.modRx b f).fuses = s.fuses := rfl
@[simp] theorem modRx_mins (s : State) (b : Nat) (f : RxBuf → RxBuf) : (s.modRx b f).mins = s.mins := rfl
@[simp] theorem modRx_corrected (s : State) (b : Nat) (f : RxBuf → RxBuf) : (s.modRx b f).corrected = s.corrected := rfl
@[simp] theorem modRx_out (s : State) (b : Nat) (f : RxBuf → RxBuf) : (s.modRx b f).out = s.out := rfl
@[simp] theorem modRx_at_thread (s : State) (b : Nat) (f : RxBuf → RxBuf) (n : Nat) : (s.modRx b f).thread n = s.thread n := rfl
@[simp] theorem modRx_at_core (s : State) (b : Nat) (f : RxBuf → RxBuf) (n : Nat) : (s.modRx b f).core n = s.core n := rfl
@[simp] theorem modRx_at_cluster (s : State) (b : Nat) (f : RxBuf → RxBuf) (n : Nat) : (s.modRx b f).cluster n = s.cluster n := rfl
@[simp] theorem modRx_at_port (s : State) (b : Nat) (f : RxBuf → RxBuf) (n : Nat) : (s.modRx b f).port n = s.port n := rfl
@[simp] theorem modRx_at_die (s : State) (b : Nat) (f : RxBuf → RxBuf) (n : Nat) : (s.modRx b f).die n = s.die n := rfl
@[simp] theorem modRx_at_gw (s : State) (b : Nat) (f : RxBuf → RxBuf) (n : Nat) : (s.modRx b f).gw n = s.gw n := rfl
@[simp] theorem modRx_at_link (s : State) (b : Nat) (f : RxBuf → RxBuf) (n : Nat) : (s.modRx b f).link n = s.link n := rfl
@[simp] theorem modRx_at_erg (s : State) (b : Nat) (f : RxBuf → RxBuf) (n : Nat) : (s.modRx b f).erg n = s.erg n := rfl
@[simp] theorem modRx_at_comp (s : State) (b : Nat) (f : RxBuf → RxBuf) (n : Nat) : (s.modRx b f).comp n = s.comp n := rfl

/-! ### tell -/

@[simp] theorem tell_cur (s : State) (o : Out) : (s.tell o).cur = s.cur := rfl
@[simp] theorem tell_now (s : State) (o : Out) : (s.tell o).now = s.now := rfl
@[simp] theorem tell_slot (s : State) (o : Out) : (s.tell o).slot = s.slot := rfl
@[simp] theorem tell_arg (s : State) (o : Out) : (s.tell o).arg = s.arg := rfl
@[simp] theorem tell_agenda (s : State) (o : Out) : (s.tell o).agenda = s.agenda := rfl
@[simp] theorem tell_pending (s : State) (o : Out) : (s.tell o).pending = s.pending := rfl
@[simp] theorem tell_free (s : State) (o : Out) : (s.tell o).free = s.free := rfl
@[simp] theorem tell_nextId (s : State) (o : Out) : (s.tell o).nextId = s.nextId := rfl
@[simp] theorem tell_power (s : State) (o : Out) : (s.tell o).power = s.power := rfl
@[simp] theorem tell_threads (s : State) (o : Out) : (s.tell o).threads = s.threads := rfl
@[simp] theorem tell_cores (s : State) (o : Out) : (s.tell o).cores = s.cores := rfl
@[simp] theorem tell_clusters (s : State) (o : Out) : (s.tell o).clusters = s.clusters := rfl
@[simp] theorem tell_ports (s : State) (o : Out) : (s.tell o).ports = s.ports := rfl
@[simp] theorem tell_dies (s : State) (o : Out) : (s.tell o).dies = s.dies := rfl
@[simp] theorem tell_mem (s : State) (o : Out) : (s.tell o).mem = s.mem := rfl
@[simp] theorem tell_fe (s : State) (o : Out) : (s.tell o).fe = s.fe := rfl
@[simp] theorem tell_tags (s : State) (o : Out) : (s.tell o).tags = s.tags := rfl
@[simp] theorem tell_poison (s : State) (o : Out) : (s.tell o).poison = s.poison := rfl
@[simp] theorem tell_stamps (s : State) (o : Out) : (s.tell o).stamps = s.stamps := rfl
@[simp] theorem tell_replicas (s : State) (o : Out) : (s.tell o).replicas = s.replicas := rfl
@[simp] theorem tell_asids (s : State) (o : Out) : (s.tell o).asids = s.asids := rfl
@[simp] theorem tell_pkgId (s : State) (o : Out) : (s.tell o).pkgId = s.pkgId := rfl
@[simp] theorem tell_comps (s : State) (o : Out) : (s.tell o).comps = s.comps := rfl
@[simp] theorem tell_steps (s : State) (o : Out) : (s.tell o).steps = s.steps := rfl
@[simp] theorem tell_slots (s : State) (o : Out) : (s.tell o).slots = s.slots := rfl
@[simp] theorem tell_mailboxes (s : State) (o : Out) : (s.tell o).mailboxes = s.mailboxes := rfl
@[simp] theorem tell_faultsvcs (s : State) (o : Out) : (s.tell o).faultsvcs = s.faultsvcs := rfl
@[simp] theorem tell_resident (s : State) (o : Out) : (s.tell o).resident = s.resident := rfl
@[simp] theorem tell_epoch (s : State) (o : Out) : (s.tell o).epoch = s.epoch := rfl
@[simp] theorem tell_residentAt (s : State) (o : Out) : (s.tell o).residentAt = s.residentAt := rfl
@[simp] theorem tell_digest (s : State) (o : Out) : (s.tell o).digest = s.digest := rfl
@[simp] theorem tell_tabDigest (s : State) (o : Out) : (s.tell o).tabDigest = s.tabDigest := rfl
@[simp] theorem tell_held (s : State) (o : Out) : (s.tell o).held = s.held := rfl
@[simp] theorem tell_ended (s : State) (o : Out) : (s.tell o).ended = s.ended := rfl
@[simp] theorem tell_damaged (s : State) (o : Out) : (s.tell o).damaged = s.damaged := rfl
@[simp] theorem tell_stepsOver (s : State) (o : Out) : (s.tell o).stepsOver = s.stepsOver := rfl
@[simp] theorem tell_suspended (s : State) (o : Out) : (s.tell o).suspended = s.suspended := rfl
@[simp] theorem tell_net (s : State) (o : Out) : (s.tell o).net = s.net := rfl
@[simp] theorem tell_pfaults (s : State) (o : Out) : (s.tell o).pfaults = s.pfaults := rfl
@[simp] theorem tell_cwWrites (s : State) (o : Out) : (s.tell o).cwWrites = s.cwWrites := rfl
@[simp] theorem tell_wakes (s : State) (o : Out) : (s.tell o).wakes = s.wakes := rfl
@[simp] theorem tell_fwakes (s : State) (o : Out) : (s.tell o).fwakes = s.fwakes := rfl
@[simp] theorem tell_transit (s : State) (o : Out) : (s.tell o).transit = s.transit := rfl
@[simp] theorem tell_creditsBack (s : State) (o : Out) : (s.tell o).creditsBack = s.creditsBack := rfl
@[simp] theorem tell_steals (s : State) (o : Out) : (s.tell o).steals = s.steals := rfl
@[simp] theorem tell_joins (s : State) (o : Out) : (s.tell o).joins = s.joins := rfl
@[simp] theorem tell_clock (s : State) (o : Out) : (s.tell o).clock = s.clock := rfl
@[simp] theorem tell_mgmt (s : State) (o : Out) : (s.tell o).mgmt = s.mgmt := rfl
@[simp] theorem tell_gws (s : State) (o : Out) : (s.tell o).gws = s.gws := rfl
@[simp] theorem tell_links (s : State) (o : Out) : (s.tell o).links = s.links := rfl
@[simp] theorem tell_ergs (s : State) (o : Out) : (s.tell o).ergs = s.ergs := rfl
@[simp] theorem tell_rx (s : State) (o : Out) : (s.tell o).rx = s.rx := rfl
@[simp] theorem tell_fuses (s : State) (o : Out) : (s.tell o).fuses = s.fuses := rfl
@[simp] theorem tell_mins (s : State) (o : Out) : (s.tell o).mins = s.mins := rfl
@[simp] theorem tell_corrected (s : State) (o : Out) : (s.tell o).corrected = s.corrected := rfl
@[simp] theorem tell_out (s : State) (o : Out) : (s.tell o).out = s.out ++ [o] := rfl
@[simp] theorem tell_at_thread (s : State) (o : Out) (n : Nat) : (s.tell o).thread n = s.thread n := rfl
@[simp] theorem tell_at_core (s : State) (o : Out) (n : Nat) : (s.tell o).core n = s.core n := rfl
@[simp] theorem tell_at_cluster (s : State) (o : Out) (n : Nat) : (s.tell o).cluster n = s.cluster n := rfl
@[simp] theorem tell_at_port (s : State) (o : Out) (n : Nat) : (s.tell o).port n = s.port n := rfl
@[simp] theorem tell_at_die (s : State) (o : Out) (n : Nat) : (s.tell o).die n = s.die n := rfl
@[simp] theorem tell_at_gw (s : State) (o : Out) (n : Nat) : (s.tell o).gw n = s.gw n := rfl
@[simp] theorem tell_at_link (s : State) (o : Out) (n : Nat) : (s.tell o).link n = s.link n := rfl
@[simp] theorem tell_at_erg (s : State) (o : Out) (n : Nat) : (s.tell o).erg n = s.erg n := rfl
@[simp] theorem tell_at_rxBuf (s : State) (o : Out) (n : Nat) : (s.tell o).rxBuf n = s.rxBuf n := rfl
@[simp] theorem tell_at_comp (s : State) (o : Out) (n : Nat) : (s.tell o).comp n = s.comp n := rfl

/-! ### Agents that are written -/

@[simp] theorem thread_setThread (s : State) (t : Nat) (th : Thread) (u : Nat) :
    (s.setThread t th).thread u = if u = t then th else s.thread u := Sp.get_set ..
@[simp] theorem thread_modThread (s : State) (t : Nat) (f : Thread → Thread) (u : Nat) :
    (s.modThread t f).thread u = if u = t then f (s.thread t) else s.thread u := Sp.get_set ..
@[simp] theorem thread_modTh (s : State) (f : Thread → Thread) (u : Nat) :
    (s.modTh f).thread u = if u = s.cur then f (s.thread s.cur) else s.thread u := Sp.get_set ..
@[simp] theorem core_setCore (s : State) (c : Nat) (k : Core) (n : Nat) :
    (s.setCore c k).core n = if n = c then k else s.core n := Sp.get_set ..
@[simp] theorem core_modCore (s : State) (c : Nat) (f : Core → Core) (n : Nat) :
    (s.modCore c f).core n = if n = c then f (s.core c) else s.core n := Sp.get_set ..
@[simp] theorem cluster_modCluster (s : State) (c : Nat) (f : Cluster → Cluster) (n : Nat) :
    (s.modCluster c f).cluster n = if n = c then f (s.cluster c) else s.cluster n := Sp.get_set ..
@[simp] theorem port_modPort (s : State) (p : Nat) (f : Port → Port) (n : Nat) :
    (s.modPort p f).port n = if n = p then f (s.port p) else s.port n := Sp.get_set ..
@[simp] theorem die_modDie (s : State) (d : Nat) (f : Die → Die) (n : Nat) :
    (s.modDie d f).die n = if n = d then f (s.die d) else s.die n := Sp.get_set ..
@[simp] theorem gw_modGw (s : State) (g : Nat) (f : Gateway → Gateway) (n : Nat) :
    (s.modGw g f).gw n = if n = g then f (s.gw g) else s.gw n := Sp.get_set ..
@[simp] theorem link_modLink (s : State) (l : Nat) (f : Link → Link) (n : Nat) :
    (s.modLink l f).link n = if n = l then f (s.link l) else s.link n := Sp.get_set ..

@[simp] theorem erg_modErg (s : State) (e : Nat) (f : Erg → Erg) (n : Nat) :
    (s.modErg e f).erg n = if n = e then f (s.erg e) else s.erg n := Sp.get_set ..
@[simp] theorem rxBuf_modRx (s : State) (b : Nat) (f : RxBuf → RxBuf) (n : Nat) :
    (s.modRx b f).rxBuf n = if n = b then f (s.rxBuf b) else s.rxBuf n := Sp.get_set ..

/-- Writing a thread twice leaves the last value. -/
theorem setThread_setThread (s : State) (t : Nat) (x y : Thread) : (s.setThread t x).setThread t y = s.setThread t y := by
  simp only [setThread, Sp.set_set]
theorem modThread_modThread (s : State) (t : Nat) (f g : Thread → Thread) :
    (s.modThread t f).modThread t g = s.modThread t fun th => g (f th) := by
  unfold modThread
  rw [thread_setThread, if_pos rfl, setThread_setThread]

end Sys2Proof.Machine.State
end

