-- ==== Sys2Proof/Laws/Ops.lean ====
section
/-!
SUPPORT. Laws of the shared operations: reading and writing registers, completing an instruction, control transfer, trap
entry.
-/

namespace Sys2Proof.Machine

/-! ### Registers -/

namespace Thread

@[simp] theorem rd_wr (th : Thread) (d r : Reg) (v : Word) :
    (th.wr d v).rd r = if r = d ∧ d ≠ 0 then v else th.rd r := by
  unfold wr rd
  by_cases hd : d = 0
  · simp [hd]
  · by_cases hr : r = 0
    · simp [hr, hd, Ne.symm hd]
    · simp [hd, hr, Sp.get_set, Fin.val_inj]

/-- Everything but the general registers is as before. -/
theorem wr_frame (th : Thread) (d : Reg) (v : Word) : { th.wr d v with g := th.g, oldG := th.oldG } = th := by
  unfold wr; split <;> rfl

theorem wr_zero (th : Thread) (v : Word) : th.wr 0 v = th := rfl

end Thread

/-- A write of a register changes no other field. -/
theorem Thread.wr_fields (th : Thread) (d : Reg) (v : Word) :
    (th.wr d v).pc = th.pc ∧ (th.wr d v).lc = th.lc ∧ (th.wr d v).ls = th.ls ∧ (th.wr d v).le = th.le ∧
    (th.wr d v).lp = th.lp ∧ (th.wr d v).priv = th.priv ∧ (th.wr d v).wait = th.wait ∧
    (th.wr d v).issuedAt = th.issuedAt ∧ (th.wr d v).fcsr = th.fcsr ∧ (th.wr d v).seg = th.seg := by
  unfold Thread.wr; split <;> simp

@[simp] theorem Thread.wr_pc (th : Thread) (d : Reg) (v : Word) : (th.wr d v).pc = th.pc := (wr_fields th d v).1
@[simp] theorem Thread.wr_lc (th : Thread) (d : Reg) (v : Word) : (th.wr d v).lc = th.lc := (wr_fields th d v).2.1
@[simp] theorem Thread.wr_ls (th : Thread) (d : Reg) (v : Word) : (th.wr d v).ls = th.ls := (wr_fields th d v).2.2.1
@[simp] theorem Thread.wr_le (th : Thread) (d : Reg) (v : Word) : (th.wr d v).le = th.le := (wr_fields th d v).2.2.2.1
@[simp] theorem Thread.wr_lp (th : Thread) (d : Reg) (v : Word) : (th.wr d v).lp = th.lp := (wr_fields th d v).2.2.2.2.1
@[simp] theorem Thread.wr_priv (th : Thread) (d : Reg) (v : Word) : (th.wr d v).priv = th.priv :=
  (wr_fields th d v).2.2.2.2.2.1
@[simp] theorem Thread.wr_wait (th : Thread) (d : Reg) (v : Word) : (th.wr d v).wait = th.wait :=
  (wr_fields th d v).2.2.2.2.2.2.1
@[simp] theorem Thread.wr_issuedAt (th : Thread) (d : Reg) (v : Word) : (th.wr d v).issuedAt = th.issuedAt :=
  (wr_fields th d v).2.2.2.2.2.2.2.1
@[simp] theorem Thread.wr_fcsr (th : Thread) (d : Reg) (v : Word) : (th.wr d v).fcsr = th.fcsr :=
  (wr_fields th d v).2.2.2.2.2.2.2.2.1
@[simp] theorem Thread.wr_seg (th : Thread) (d : Reg) (v : Word) : (th.wr d v).seg = th.seg :=
  (wr_fields th d v).2.2.2.2.2.2.2.2.2

/-! ### The loop-end check -/

/-- A level acts at offset p (07 R104): a count, p its last instruction, the same privilege. -/
abbrev levelActs (p : Word) (l : Nat) (th : Thread) : Prop :=
  th.lc.get 0 l ≠ 0 ∧ p = th.le.get 0 l ∧ th.lp.get false l = th.priv.getLsbD 0

theorem loopLevel_idle {p : Word} {l : Nat} {th : Thread} (h : ¬ levelActs p l th) : loopLevel p l th = (th, false) :=
  if_neg h
theorem loopLevel_again {p : Word} {l : Nat} {th : Thread} (h : levelActs p l th) (h1 : 1 < (th.lc.get 0 l).toNat) :
    loopLevel p l th = ({ th with lc := th.lc.set 0 l (th.lc.get 0 l - 1), pc := th.ls.get 0 l }, true) :=
  (if_pos h).trans (if_pos h1)
theorem loopLevel_last {p : Word} {l : Nat} {th : Thread} (h : levelActs p l th) (h1 : ¬ 1 < (th.lc.get 0 l).toNat) :
    loopLevel p l th = ({ th with lc := th.lc.set 0 l (th.lc.get 0 l - 1) }, false) := by
  have e : th.lc.get 0 l - 1 = 0 := by
    have : (th.lc.get 0 l).toNat ≠ 0 := fun h' => h.1 (BitVec.eq_of_toNat_eq (by simpa using h'))
    bv_omega
  rw [e]
  exact (if_pos h).trans (if_neg h1)

/-- The three ways a level ends at the last instruction of its body. -/
theorem loopLevel_cases (p : Word) (l : Nat) (th : Thread) :
    (¬ levelActs p l th ∧ loopLevel p l th = (th, false)) ∨
    (levelActs p l th ∧ 1 < (th.lc.get 0 l).toNat ∧
      loopLevel p l th = ({ th with lc := th.lc.set 0 l (th.lc.get 0 l - 1), pc := th.ls.get 0 l }, true)) ∨
    (levelActs p l th ∧ ¬ 1 < (th.lc.get 0 l).toNat ∧
      loopLevel p l th = ({ th with lc := th.lc.set 0 l (th.lc.get 0 l - 1) }, false)) := by
  by_cases h : levelActs p l th
  · by_cases h1 : 1 < (th.lc.get 0 l).toNat
    · exact .inr (.inl ⟨h, h1, loopLevel_again h h1⟩)
    · exact .inr (.inr ⟨h, h1, loopLevel_last h h1⟩)
  · exact .inl ⟨h, loopLevel_idle h⟩

/-- One level of the check writes PC and its own count only. -/
theorem loopLevel_frame (p : Word) (l : Nat) (th : Thread) :
    { (loopLevel p l th).1 with pc := th.pc, lc := th.lc } = th := by
  unfold loopLevel; simp only []; split <;> [split; skip] <;> rfl

/-- The check writes PC and loop counts only (07 R104). -/
theorem loopEnd_frame (p : Word) (th : Thread) : { loopEnd p th with pc := th.pc, lc := th.lc } = th := by
  unfold loopEnd
  have h1 := loopLevel_frame p 1 th
  simp only []
  split
  · exact h1
  · have h0 := loopLevel_frame p 0 (loopLevel p 1 th).1
    rw [← h0] at h1
    exact h1

/-- The check does not look at what it does not name. -/
theorem loopEnd_keeps {α : Type} (f : Thread → α) (hf : ∀ (x : Thread) (pc : Word) (lc : Sp Word),
    f { x with pc := pc, lc := lc } = f x) (p : Word) (th : Thread) : f (loopEnd p th) = f th := by
  rw [← hf (loopEnd p th) th.pc th.lc, loopEnd_frame]

@[simp] theorem loopEnd_issuedAt (p : Word) (th : Thread) : (loopEnd p th).issuedAt = th.issuedAt :=
  loopEnd_keeps (·.issuedAt) (fun _ _ _ => rfl) p th
@[simp] theorem loopEnd_wait (p : Word) (th : Thread) : (loopEnd p th).wait = th.wait :=
  loopEnd_keeps (·.wait) (fun _ _ _ => rfl) p th
@[simp] theorem loopEnd_rd (p : Word) (th : Thread) (r : Reg) : (loopEnd p th).rd r = th.rd r :=
  loopEnd_keeps (·.rd r) (fun _ _ _ => rfl) p th
@[simp] theorem loopEnd_fetched (p : Word) (th : Thread) : (loopEnd p th).fetched = th.fetched :=
  loopEnd_keeps (·.fetched) (fun _ _ _ => rfl) p th

/-! ### Completing -/

/-- After completion the thread is ready and waits for nothing. -/
@[simp] theorem Thread.settle_st (th : Thread) (now dist : Nat) : (th.settle now dist).st = .ready := rfl
@[simp] theorem Thread.settle_wait (th : Thread) (now dist : Nat) : (th.settle now dist).wait = none := rfl
@[simp] theorem Thread.settle_pc (th : Thread) (now dist : Nat) : (th.settle now dist).pc = th.pc := rfl
@[simp] theorem Thread.settle_lc (th : Thread) (now dist : Nat) : (th.settle now dist).lc = th.lc := rfl
@[simp] theorem Thread.settle_rd (th : Thread) (now dist : Nat) (r : Reg) : (th.settle now dist).rd r = th.rd r := rfl
@[simp] theorem Thread.settle_readyAt (th : Thread) (now dist : Nat) :
    (th.settle now dist).readyAt = nextReady now th dist := rfl

/-- An instruction that did not wait is followed by the next one after its distance (15 R209). -/
theorem nextReady_none {th : Thread} (h : th.wait = none) (now dist : Nat) : nextReady now th dist = th.issuedAt + dist := by
  simp [nextReady, h]

@[simp] theorem State.finishAt_cur (s : State) (t : Nat) (n : Word) (dist : Nat) : (s.finishAt t n dist).cur = s.cur := rfl
@[simp] theorem State.finishAt_mem (s : State) (t : Nat) (n : Word) (dist : Nat) : (s.finishAt t n dist).mem = s.mem := rfl
/-- Completion changes its own thread only. -/
theorem State.thread_finishAt (s : State) (t : Nat) (n : Word) (dist u : Nat) :
    (s.finishAt t n dist).thread u = if u = t then
      (loopEnd (s.thread t).pc { s.thread t with pc := n }).settle s.now dist else s.thread u := by
  simp [finishAt, thread_modThread]
theorem State.finishAt_frame (s : State) (t : Nat) (n : Word) (dist : Nat) :
    { s.finishAt t n dist with threads := s.threads } = s := rfl

end Sys2Proof.Machine
end

