-- ==== Sys2Proof/Laws/Completion.lean ====
section
/-!
SUPPORT. The shared operations in the vocabulary of Safety.lean: what completing an instruction, writing a register and
taking a trap leave.
-/

namespace Sys2Proof.Spec

open Sys2Proof.Machine

/-- What `still` forgets may be anything. -/
theorem still_of (x : Thread) (pc : Word) (lc : Sp Word) (st : TState) (r : Nat) (w : Option Wait) (l : Nat) :
    still { x with pc := pc, lc := lc, st := st, readyAt := r, wait := w, late := l } = still x := rfl

theorem still_settle (x : Thread) (now dist : Nat) : still (x.settle now dist) = still x := rfl

theorem still_loopEnd (p : Word) (x : Thread) : still (loopEnd p x) = still x := by
  have h := loopEnd_frame p x
  generalize loopEnd p x = y at h
  rw [← h]; rfl

/-- The loop-end check sets PC and loop counts as 07 R104 says. -/
theorem pcRule_loopEnd (x y : Thread) (n : Word) (h : y.pc = (loopEnd x.pc { x with pc := n }).pc)
    (h2 : y.lc = (loopEnd x.pc { x with pc := n }).lc) : pcRule x y n := by
  unfold pcRule loopRepeats
  rw [h, h2]
  clear h h2
  unfold loopEnd
  rcases loopLevel_cases x.pc 1 { x with pc := n } with ⟨a, e⟩ | ⟨a, b, e⟩ | ⟨a, b, e⟩ <;> rw [e] <;> clear e
  · change ¬ loopActs x 1 at a
    rcases loopLevel_cases x.pc 0 { x with pc := n } with ⟨a0, e⟩ | ⟨a0, b0, e⟩ | ⟨a0, b0, e⟩ <;>
      simp only [Bool.false_eq_true, if_false] <;> rw [e] <;> clear e
    · change ¬ loopActs x 0 at a0
      simp [a, a0]
    · change loopActs x 0 at a0
      simp only at b0
      simp [a, a0, Sp.get_set]; grind
    · change loopActs x 0 at a0
      simp only at b0
      simp [a, a0, Sp.get_set]; grind
  · change loopActs x 1 at a
    simp only at b
    simp [a, Sp.get_set]; grind
  · change loopActs x 1 at a
    simp only at b
    rcases loopLevel_cases x.pc 0 { x with pc := n, lc := x.lc.set 0 1 (x.lc.get 0 1 - 1) } with
      ⟨a0, e⟩ | ⟨a0, b0, e⟩ | ⟨a0, b0, e⟩ <;> simp only [Bool.false_eq_true, if_false] <;> rw [e] <;> clear e
    · have a1 : ¬ loopActs x 0 := by simpa [levelActs, loopActs, Sp.get_set] using a0
      clear a0
      simp [a, a1, Sp.get_set]; grind
    · have a1 : loopActs x 0 := by simpa [levelActs, loopActs, Sp.get_set] using a0
      clear a0
      simp [Sp.get_set] at b0
      simp [a, a1, Sp.get_set]; grind
    · have a1 : loopActs x 0 := by simpa [levelActs, loopActs, Sp.get_set] using a0
      clear a0
      simp [Sp.get_set] at b0
      simp [a, a1, Sp.get_set]; grind

/-- Two threads that a completion treats alike. -/
def sameFlow (x y : Thread) : Prop :=
  y.pc = x.pc ∧ y.lc = x.lc ∧ y.ls = x.ls ∧ y.le = x.le ∧ y.lp = x.lp ∧ y.priv = x.priv ∧ y.wait = x.wait ∧
  y.issuedAt = x.issuedAt

theorem pcRule_congr {x x' y : Thread} {n : Word} (h : sameFlow x x') (hr : pcRule x' y n) : pcRule x y n := by
  obtain ⟨h1, h2, h3, h4, h5, h6, -, -⟩ := h
  simpa only [pcRule, loopRepeats, loopActs, h1, h2, h3, h4, h5, h6] using hr

/-- An instruction that edits its own thread and completes. -/
theorem finishAt_completed (s : State) (f : Thread → Thread) (next : Word) (dist : Nat) (hf : sameFlow s.th (f s.th)) :
    completed s ((s.modTh f).finishAt s.cur next dist) next dist := by
  have ht : ((s.modTh f).finishAt s.cur next dist).th =
      (loopEnd (f s.th).pc { f s.th with pc := next }).settle s.now dist := by
    simp [State.th, State.thread_finishAt]
  refine ⟨?_, ?_, ?_, ?_⟩
  · exact pcRule_congr hf (pcRule_loopEnd (f s.th) _ next (by rw [ht]; rfl) (by rw [ht]; rfl))
  · rw [ht]; rfl
  · rw [ht]; rfl
  · intro hw
    have h7 := hf.2.2.2.2.2.2.1
    have h8 := hf.2.2.2.2.2.2.2
    rw [ht, Thread.settle_readyAt, nextReady_none]
    · rw [loopEnd_issuedAt]; exact congrArg (· + dist) h8
    · rw [loopEnd_wait]; exact h7.trans hw

theorem finishAt_still (s : State) (f : Thread → Thread) (next : Word) (dist : Nat) :
    still ((s.modTh f).finishAt s.cur next dist).th = still (f s.th) := by
  have ht : ((s.modTh f).finishAt s.cur next dist).th =
      (loopEnd (f s.th).pc { f s.th with pc := next }).settle s.now dist := by
    simp [State.th, State.thread_finishAt]
  rw [ht, still_settle, still_loopEnd]; rfl

/-- A state that differs in one thread's record only. -/
theorem setThread_only (s : State) (x : Thread) : onlyOwnThread s (s.setThread s.cur x) :=
  ⟨rfl, rfl, fun u hu => by simp [hu], fun a => by rw [State.setThread_mem]⟩

theorem finishAt_only (s : State) (f : Thread → Thread) (next : Word) (dist : Nat) :
    onlyOwnThread s ((s.modTh f).finishAt s.cur next dist) := by
  have h : (s.modTh f).finishAt s.cur next dist = s.modThread s.cur fun th =>
      (loopEnd (f th).pc { f th with pc := next }).settle s.now dist := State.modThread_modThread ..
  rw [h]
  exact setThread_only ..

theorem sameFlow_wr (x : Thread) (d : Reg) (v : Word) : sameFlow x (x.wr d v) := by simp [sameFlow]

theorem stillG_wr (x : Thread) (d : Reg) (v : Word) : stillG (x.wr d v) = stillG x := by
  have h := x.wr_frame d v
  generalize x.wr d v = y at h
  rw [← h]; rfl

/-- `put` writes its register and completes (03 R24, 07 R104). -/
theorem put_writesG (s : State) (d : Reg) (v : Word) (dist : Nat) :
    ∃ t, s.put d v dist = .next t ∧ writesG s d v dist t := by
  have e : (s.setG d v).done dist = (s.modTh fun th => th.wr d v).finishAt s.cur (s.th.pc + 4) dist := by
    simp [State.setG, State.done, State.finish]
  refine ⟨_, rfl, ?_⟩
  rw [e]
  refine ⟨fun r => ?_, finishAt_completed s _ _ _ (sameFlow_wr ..), ?_, finishAt_only ..⟩
  · simp only [State.g, State.th, State.thread_finishAt, State.finishAt_cur, State.modTh_cur, if_true,
      Thread.settle_rd, loopEnd_rd, State.thread_modTh]
    exact Thread.rd_wr ..
  · unfold stillG
    rw [finishAt_still s (fun th => th.wr d v)]
    exact stillG_wr ..

theorem privTrap (p : Word) : (p &&& 1) <<< 1 ||| 1 = if p.getLsbD 0 then 3 else 1 := by
  have h : p &&& 1 = if p.getLsbD 0 then 1 else 0 := by
    apply BitVec.eq_of_getLsbD_eq; intro i hi
    by_cases h0 : i = 0
    · subst h0; split <;> simp_all
    · split <;> simp [h0]
  rw [h]; split <;> rfl

/-- Taking a trap (27 R269). -/
theorem raise_trapped (s : State) (c : Cause) (tv : Word) : ∃ t, s.raise c tv = .next t ∧ trapped s c tv t := by
  refine ⟨_, rfl, ?_⟩
  have ht : (s.trap s.cur c tv).th = s.th.trap s.now c tv := by simp [State.trap]
  refine ⟨?_, ?_, ?_, ?_, ?_, ?_, ?_, ?_, ?_, ?_, ?_, rfl, rfl, fun u hu => by simp [State.trap, hu],
    fun a => by rw [State.trap, State.modThread_mem]⟩
  all_goals rw [ht]
  all_goals first | rfl | skip
  · exact privTrap _
  · intro hw
    simp [Thread.trap, hw]

theorem exitLoops_get (x : Thread) (target : Word) (l : Nat) (hl : l < 2) :
    (outside x l target → (exitLoops target x).lc.get 0 l = 0) ∧
    (¬ outside x l target → (exitLoops target x).lc.get 0 l = x.lc.get 0 l) := by
  unfold exitLoops outside
  rcases l with _ | _ | l
  · constructor <;> intro h <;> simp only [h, Bool.or_eq_true, decide_eq_true_eq, if_true, if_false] <;> split <;>
      simp [Sp.get_set]
  · constructor <;> intro h <;> simp only [h, Bool.or_eq_true, decide_eq_true_eq, if_true, if_false] <;>
      (try split) <;> simp [Sp.get_set]
  · omega

/-- What a transfer forgets of a thread besides the loop counts. -/
theorem exitLoops_frame (x : Thread) (target : Word) : { exitLoops target x with lc := x.lc } = x := rfl

/-- A taken transfer after an edit of the own thread that keeps its flow (07 R100, R105). -/
theorem jump_transferred (s : State) (f : Thread → Thread) (target : Word) (call : Bool) (dist : Nat)
    (hf : sameFlow s.th (f s.th)) :
    transferred s ((s.modTh f).jump s.cur target call dist) target (call = true) dist ∧
    { still ((s.modTh f).jump s.cur target call dist).th with fetched := [] } = { still (f s.th) with fetched := [] } ∧
    ((s.modTh f).jump s.cur target call dist).th.g = (f s.th).g ∧
    onlyOwnThread s ((s.modTh f).jump s.cur target call dist) := by
  obtain ⟨h1, h2, h3, h4, h5, h6, h7, h8⟩ := hf
  have ht : ((s.modTh f).jump s.cur target call dist) = s.setThread s.cur
      (Thread.settle { (if call then f s.th else exitLoops target (f s.th)) with pc := target, fetched := [] } s.now dist) :=
    State.modThread_modThread ..
  rw [ht]
  have e : ∀ y, (s.setThread s.cur y).th = y := by intro y; simp [State.th]
  unfold transferred
  rw [e]
  generalize hy : f s.th = y at *
  refine ⟨⟨rfl, rfl, rfl, rfl, ?_, ?_⟩, ?_, ?_, setThread_only ..⟩
  · intro hw
    rw [Thread.settle_readyAt, nextReady_none]
    · cases call <;> exact congrArg (· + dist) h8
    · cases call <;> exact h7.trans hw
  · intro l hl
    have ho : outside s.th l target ↔ outside y l target := by simp only [outside, h3, h4]
    rw [ho, ← h2]
    cases call
    · simpa using exitLoops_get y target l hl
    · simp
  · cases call <;> rfl
  · cases call <;> rfl

theorem trapFlag_none (fcsr : Word) (f : Flags) (h : ∀ k, k < 5 → ¬ trapOn fcsr f k) : trapFlag fcsr f = none := by
  have e : ∀ k, k < 5 → (enabledFlags fcsr f).getLsbD k = false := by
    intro k hk
    have := h k hk
    simp only [trapOn] at this
    rcases hh : f.getLsbD k <;> simp [enabledFlags, hh]
    simp [hh] at this
    simp [hk, this]
  unfold trapFlag firstFlag
  rw [e 4 (by omega), e 3 (by omega), e 2 (by omega), e 1 (by omega), e 0 (by omega)]
  rfl
theorem trapFlag_some (fcsr : Word) (f : Flags) (k) (h : firstTrap fcsr f k) : trapFlag fcsr f = some k := by
  obtain ⟨h0, h1, h2⟩ := h
  have e : ∀ k, k < 5 → ((enabledFlags fcsr f).getLsbD k = true ↔ trapOn fcsr f k) := by
    intro k hk
    simp [enabledFlags, trapOn, hk]
  have e4 := e 4 (by omega)
  have e3 := e 3 (by omega)
  have e2 := e 2 (by omega)
  have e1 := e 1 (by omega)
  have e0 := e 0 (by omega)
  unfold trapFlag firstFlag
  rcases k with _|_|_|_|_|k <;> simp_all
  omega

/-- The end of a scalar floating-point instruction (07 R97). -/
theorem fpFinish_ends (i : Instr) (s : State) (d : Reg) (v : Word) (f : Flags) (dist : Nat)
    (he : exec i s = s.fpFinish (ibits i) d v f dist) :
    fpEnds i s d v f dist := by
  constructor
  · intro h
    unfold Answers
    rw [he, State.fpFinish, trapFlag_none _ _ h]
    refine ⟨_, rfl, ?_⟩
    have e : (s.modTh fun th => (th.wr d v).raiseFlags f).done dist = (s.modTh fun th => (th.wr d v).raiseFlags f).finishAt s.cur (s.th.pc + 4) dist := by
      simp [State.done, State.finish, Thread.raiseFlags]
    rw [e]
    have hs : ((s.modTh fun th => (th.wr d v).raiseFlags f).finishAt s.cur (s.th.pc+4) dist).th =
      (loopEnd ((s.th.wr d v).raiseFlags f).pc { (s.th.wr d v).raiseFlags f with pc := s.th.pc+4 }).settle s.now dist := by
      simp [State.th, State.thread_finishAt]
    refine ⟨?_, ?_, finishAt_completed s _ _ _ (by simp [sameFlow, Thread.raiseFlags]), ?_, finishAt_only ..⟩
    · intro r
      simp only [State.g, hs, Thread.settle_rd, loopEnd_rd]
      have : ({ (s.th.wr d v).raiseFlags f with pc := s.th.pc + 4 } : Thread).rd r = (s.th.wr d v).rd r := rfl
      rw [this, Thread.rd_wr]
    · rw [hs]
      have : ∀ x : Thread, (x.settle s.now dist).fcsr = x.fcsr := fun _ => rfl
      rw [this, loopEnd_keeps (·.fcsr) (fun _ _ _ => rfl)]
      simp [Thread.raiseFlags]
    · unfold stillG
      rw [finishAt_still s (fun th => (th.wr d v).raiseFlags f)]
      have h := s.th.wr_frame d v
      generalize s.th.wr d v = y at h
      rw [← h]; rfl
  · intro k hk
    unfold Answers
    rw [he, State.fpFinish, trapFlag_some _ _ _ hk]
    exact raise_trapped ..

end Sys2Proof.Spec
end

