-- ==== Sys2Proof/Laws/Memory.lean ====
section
/-!
SUPPORT. Laws of memory: reading after writing, the canonical form, and what an access changes besides its answer.
-/

namespace Sys2Proof.Machine

/-! ### Bytes -/

/-- A byte reads as written, and every byte outside the written ones as before. -/
theorem writeMem_get (l : List Byte) : ∀ (m : Memory) (loc a : Nat),
    (writeMem m loc l).get 0 a = if loc ≤ a ∧ a < loc + l.length then l.getD (a - loc) 0 else m.get 0 a := by
  induction l with
  | nil => intro m loc a; rw [if_neg (by simp)]; rfl
  | cons b r ih =>
    intro m loc a
    rw [writeMem, ih, Sp.get_set]
    by_cases h : a = loc
    · subst h; simp
    · by_cases h2 : loc + 1 ≤ a ∧ a < loc + 1 + r.length
      · rw [if_pos h2, if_pos (by simp; omega)]
        obtain ⟨k, rfl⟩ : ∃ k, a = loc + 1 + k := ⟨a - (loc + 1), by omega⟩
        rw [show loc + 1 + k - loc = (loc + 1 + k - (loc + 1)) + 1 by omega, List.getD_cons_succ]
      · rw [if_neg h2, if_neg h, if_neg (by simp; omega)]

/-- Writing keeps the canonical form. -/
theorem writeMem_wf (l : List Byte) : ∀ (m : Memory) (loc : Nat), Memory.wf m = true → Memory.wf (writeMem m loc l) = true := by
  induction l with
  | nil => intro m loc h; exact h
  | cons b r ih => intro m loc h; exact ih _ _ (Sp.wf_set h ..)

@[simp] theorem readMem_length (m : Memory) (loc n : Nat) : (readMem m loc n).length = n := by simp [readMem]

/-- What is read after a write of the same bytes' place. -/
theorem readMem_writeMem (m : Memory) (loc : Nat) (l : List Byte) : readMem (writeMem m loc l) loc l.length = l := by
  apply List.ext_getElem
  · simp
  · intro i h1 h2
    simp only [readMem, List.getElem_map, List.getElem_range]
    rw [writeMem_get, if_pos (by omega), Nat.add_sub_cancel_left, List.getD_eq_getElem _ _ h2]

/-- Bytes apart from the written ones read as before. -/
theorem readMem_writeMem_apart (m : Memory) (loc a n : Nat) (l : List Byte) (h : a + n ≤ loc ∨ loc + l.length ≤ a) :
    readMem (writeMem m loc l) a n = readMem m a n := by
  simp only [readMem, List.map_inj_left, List.mem_range]
  intro i hi
  rw [writeMem_get, if_neg (by omega)]

/-- A byte written through a register image leaves memory alone. -/
theorem State.putImgByte_mem (s : State) (c off : Nat) (b : Byte) : (s.putImgByte c off b).mem = s.mem := by
  unfold putImgByte putImgV
  split
  · simp only []
    split
    · exact modCore_mem ..
    · split
      · exact setThread_mem ..
      · exact modCore_mem ..
  · split
    · exact modThread_mem ..
    · exact modThread_mem ..

theorem State.putImgBytes_mem (c off : Nat) (l : List (Nat × Byte)) : ∀ s : State,
    (l.foldl (fun s p => s.putImgByte c (off + p.1) p.2) s).mem = s.mem := by
  induction l with
  | nil => intro s; rfl
  | cons p r ih => intro s; rw [List.foldl_cons, ih, putImgByte_mem]

theorem State.coverWindow_mem (s : State) (loc off c n grp : Nat) : (s.coverWindow loc off c n grp).mem = s.mem := by
  unfold coverWindow
  split
  · exact modCore_mem ..
  · rfl

/-- A write through a location changes memory at that location only, or not at all. -/
theorem State.writeLoc_mem (s : State) (loc : Nat) (b : List Byte) (priv : Bool) (asid : BitVec 12) (tid : Nat)
    (st : Option Stamp) (req grp : Nat) :
    (s.writeLoc loc b priv asid tid st req grp).mem = s.mem ∨
    (s.writeLoc loc b priv asid tid st req grp).mem = writeMem s.mem loc b := by
  unfold writeLoc
  split
  · split
    · exact .inr rfl
    · split
      · exact .inl ((putImgBytes_mem ..).trans (coverWindow_mem ..))
      · split <;> simp [wakeWrite, wakeFlag, coverWindow_mem]
  · exact .inr rfl

/-- A write through a location keeps the canonical form of memory. -/
theorem State.writeLoc_wf (s : State) (loc : Nat) (b : List Byte) (priv : Bool) (asid : BitVec 12) (tid : Nat)
    (st : Option Stamp) (req grp : Nat) (h : Memory.wf s.mem = true) :
    Memory.wf (s.writeLoc loc b priv asid tid st req grp).mem = true := by
  rcases s.writeLoc_mem loc b priv asid tid st req grp with e | e <;> rw [e]
  · exact h
  · exact writeMem_wf _ _ _ h

/-- So does an engine's write. -/
theorem State.putBytes_wf (s : State) (loc : Nat) (b : List Byte) (priv : Bool) (asid : BitVec 12) (tid : Nat)
    (st : Option Stamp) (h : Memory.wf s.mem = true) : Memory.wf (s.putBytes loc b priv asid tid st).mem = true :=
  State.writeLoc_wf { s with replicas := s.replicas.filter fun r => !(linesOf loc b.length).contains r.line } _ _ _ _ _ _ _ _ h

/-! ### What engines read (23 R253) -/

/-- Reading for an engine changes nothing but the records of older bytes and the counter of free values. -/
theorem State.engineElem_frame (s : State) (c path loc n : Nat) :
    { (s.engineElem c path loc n).2 with cores := s.cores, free := s.free } = s := by
  unfold engineElem
  split <;> rfl

theorem State.engineRead_frame (s : State) (c path loc n : Nat) :
    { (s.engineRead c path loc n).2 with cores := s.cores, free := s.free } = s := by
  unfold engineRead
  split
  · rfl
  · have key : ∀ (l : List (Nat × Nat)) (r : List Byte × State), { r.2 with cores := s.cores, free := s.free } = s →
        { (l.foldl (fun (r : List Byte × State) e => let x := r.2.engineElem c path e.1 e.2; (r.1 ++ x.1, x.2)) r).2 with
          cores := s.cores, free := s.free } = s := by
      intro l
      induction l with
      | nil => exact fun r h => h
      | cons e l ih =>
        intro r h
        refine ih _ ?_
        exact (congrArg (fun y : State => { y with cores := s.cores, free := s.free }) (engineElem_frame r.2 c path e.1 e.2)).trans h
    exact key _ _ rfl

/-- Where no write of the core's threads waits for a FENCE, an engine reads memory as it stands. -/
theorem State.engineRead_settled (s : State) (c path loc n : Nat) (h : (s.core c).past = []) :
    s.engineRead c path loc n = (s.readLoc loc n, s) := by
  unfold engineRead
  rw [h]; rfl

/-- What orders writes of a core's threads, or records them, changes that record alone. -/
theorem State.keepPast_frame (s : State) (c loc n t : Nat) (k : RClass) :
    { (s.keepPast c loc n t k) with cores := s.cores } = s := rfl
theorem State.settlePast_frame (s : State) (t : Nat) (cl paths : BitVec 3) :
    { (s.settlePast t cl paths) with cores := s.cores } = s := rfl
theorem State.dropPast_frame (s : State) (c loc n : Nat) : { (s.dropPast c loc n) with cores := s.cores } = s := by
  unfold dropPast
  split <;> rfl

/-! ### Poison (17 R222) -/

/-- One write of all 64 bytes of a line ends its poison, whatever was written before. -/
theorem Poison.write_all (m : Poison) (grp : Nat) : m.write grp 0 64 = none := by
  have h : BitVec.ofNat 64 (2 ^ 64 - 2 ^ 0) = BitVec.allOnes 64 := by decide
  simp only [Poison.write, h, BitVec.or_allOnes, ite_self, if_true]

/-! ### Access -/

/-- Two states that differ at most in what translation caches and in the counter of free values. -/
def State.sameButTlb (s t : State) : Prop := { t with clusters := s.clusters, dies := s.dies, free := s.free } = s

theorem State.sameButTlb.refl (s : State) : s.sameButTlb s := rfl

theorem State.sameButTlb.mem {s t : State} (h : s.sameButTlb t) : t.mem = s.mem := by
  have e := congrArg State.mem h; exact e
theorem State.sameButTlb.cur {s t : State} (h : s.sameButTlb t) : t.cur = s.cur := by
  have e := congrArg State.cur h; exact e
theorem State.sameButTlb.now {s t : State} (h : s.sameButTlb t) : t.now = s.now := by
  have e := congrArg State.now h; exact e
theorem State.sameButTlb.threads {s t : State} (h : s.sameButTlb t) : t.threads = s.threads := by
  have e := congrArg State.threads h; exact e
theorem State.sameButTlb.cores {s t : State} (h : s.sameButTlb t) : t.cores = s.cores := by
  have e := congrArg State.cores h; exact e
theorem State.sameButTlb.net {s t : State} (h : s.sameButTlb t) : t.net = s.net := by
  have e := congrArg State.net h; exact e
theorem State.sameButTlb.thread {s t : State} (h : s.sameButTlb t) (u : Nat) : t.thread u = s.thread u := by
  simp only [State.thread, h.threads]

/-- Translation changes nothing but TLBs and the counter of free values (17 R228, R229). -/
theorem State.pageXl_frame (s : State) (cl : Nat) (asid : BitVec 12) (priv : Bool) (gva : Nat) (n : Need) :
    s.sameButTlb (s.pageXl cl asid priv gva n).2 := by
  unfold pageXl
  simp only []
  generalize walkFrom s.mem _ gva 4 _ = w
  cases w <;> (repeat' split) <;> rfl

theorem State.locate_frame (s : State) (cl : Nat) (asid : BitVec 12) (priv : Bool) (gva z : Nat) (k : AKind) (n : Need) :
    s.sameButTlb (s.locate cl asid priv gva z k n).2 := by
  unfold locate
  split
  · split <;> rfl
  · split
    · rfl
    · exact pageXl_frame ..

/-- An access changes nothing but TLBs and the counter of free values. -/
theorem State.access_frame (s : State) (t : Nat) (a : Word) (z al : Nat) (k : AKind) (n : Need) :
    s.sameButTlb (s.access t a z al k n).2 := by
  unfold access accessSeg
  simp only []
  split
  · rfl
  · split
    · rfl
    · exact locate_frame ..

end Sys2Proof.Machine
end

