-- ==== Sys2Proof/Laws/Access.lean ====
section
/-!
SUPPORT. What the shared operations of memory instructions do: a request, a posted store, a load from and a store to the own
local store, and an access that is refused.
-/

namespace Sys2Proof.Spec

open Sys2Proof.Machine

/-- A message from die to die changes what is owed and, where it leaves its die, the module's links (29 R282). -/
theorem carry_frame (s : State) (src dst group cycles : Nat) (i : Instr) (a : Arg) (stamp : Option (Nat × Stamp)) :
    { (s.carry src dst group cycles i a stamp) with links := s.links, pending := s.pending } = s := by
  unfold State.carry
  split <;> rfl

/-- What a message brings about is owed, or a flit carries it. -/
theorem carry_comes (s : State) (src dst group cycles : Nat) (i : Instr) (a : Arg) (stamp : Option (Nat × Stamp)) (h : dst < 10) :
    comes (s.carry src dst group cycles i a stamp) i a := by
  unfold State.carry
  split
  · exact .inl ⟨_, List.mem_append.2 (.inr (List.mem_singleton.2 rfl))⟩
  · refine .inr ⟨linkNo src dst, ⟨dst, src, group, some ((s.die src).p.getD src 0), some ⟨cycles - ucie src dst, ⟨i, a⟩⟩,
      stamp.map fun v => (v.1, stampEncode (s.link (linkNo src dst)).lastOut v.2), s.now + ucie src dst⟩, ?_, ⟨_, rfl⟩, ?_⟩
    · simp only [State.flitOut, State.owe, State.modLink, State.link, Sp.get_set, if_true]
      exact List.mem_append.2 (.inr (List.mem_singleton.2 rfl))
    · have h1 : linkNo src dst / 10 = src := by unfold linkNo; omega
      have h2 : linkNo src dst % 10 = dst := by unfold linkNo; omega
      rw [h1, h2]
      exact List.mem_append.2 (.inr (List.mem_singleton.2 rfl))

/-- A request that is sent is on its way or waits for credit, otherwise as it was; threads and memory stay. -/
theorem send_frame (s : State) (r : Req) :
    ∃ q ∈ (s.send r).net, { q with phase := r.phase } = r ∧
      (s.send r).threads = s.threads ∧ (s.send r).mem = s.mem ∧ (s.send r).cur = s.cur ∧ (s.send r).now = s.now := by
  unfold State.send
  split
  · unfold State.launch
    have h := carry_frame { s with net := (s.net.filter fun x => x.id != r.id) ++ [{ r with phase := .sent }] } r.die
      ((State.homeDie { s with net := (s.net.filter fun x => x.id != r.id) ++ [{ r with phase := .sent }] } r.loc).getD r.die)
      (requestGroup r.asid) (s.legs r).1 .homeApply (Arg.num r.id) (r.stamp.map fun v => (r.id, v))
    refine ⟨{ r with phase := .sent }, ?_, rfl, ?_, ?_, ?_, ?_⟩
    · have := congrArg State.net h
      exact this ▸ List.mem_append.2 (.inr (List.mem_singleton.2 rfl))
    · have := congrArg State.threads h; exact this
    · have := congrArg State.mem h; exact this
    · have := congrArg State.cur h; exact this
    · have := congrArg State.now h; exact this
  · exact ⟨_, List.mem_append.2 (.inr (List.mem_singleton.2 rfl)), rfl, rfl, rfl, rfl, rfl⟩

/-- A request goes out under the next number, and threads and memory stay. -/
theorem inject_frame (s : State) (r : Req) :
    ∃ q ∈ (s.inject r).net, { q with num := r.num, stamp := r.stamp, phase := r.phase } = r ∧
      (s.inject r).threads = s.threads ∧ (s.inject r).mem = s.mem ∧ (s.inject r).cur = s.cur ∧
      (s.inject r).now = s.now := by
  unfold State.inject State.number
  simp only []
  split <;> obtain ⟨q, hq, hr, h⟩ := send_frame (s := _) (r := _) <;>
    refine ⟨q, hq, ?_, h⟩ <;> have := congrArg (fun x : Req => { x with num := r.num, stamp := r.stamp }) hr <;> exact this

/-- A thread that waits: nothing of it changes but its state and wait. -/
theorem waitFor_waits (s x : State) (act : Act) (why : Why) (reqs : List Nat) (got : List (Nat × List Byte))
    (ht : x.threads = s.threads) (hm : x.mem = s.mem) (hc : x.cur = s.cur) :
    waits s act why reqs (x.waitFor s.cur act why reqs got) := by
  have hth : ∀ u, x.thread u = s.thread u := fun u => by simp only [State.thread, ht]
  have e : ∀ w, (x.park s.cur w).th = { s.thread s.cur with st := .parked, wait := some w } := by
    intro w
    simp only [State.th, State.park, State.modThread_cur, hc, State.thread_modThread, if_true, hth]
  unfold State.waitFor
  generalize (match (x.thread s.cur).wait with | some w => _ | none => _ : Nat) = since
  simp only []
  refine ⟨by rw [e], ⟨_, by rw [e], rfl, rfl, rfl⟩, by rw [e], by rw [e], ?_, ?_⟩
  · intro a; simp only [State.park, State.modThread_mem, hm]
  · intro u hu; simp only [State.park, State.thread_modThread, hu, if_false, hth]

/-- One request, sent, with its thread waiting for the answer. -/
theorem ask_asks (s x : State) (act : Act) (k : RClass) (got : List (Nat × List Byte)) (once : Nat → Bool) (op : ROp)
    (a : Word) (loc : Nat) (ht : x.threads = s.threads) (hm : x.mem = s.mem) (hc : x.cur = s.cur) :
    asks s act .replies op k a loc (x.ask s.cur act k got once [⟨0, op, a, loc⟩]) := by
  have hth : x.thread s.cur = s.th := by simp only [State.thread, State.th, ht]
  obtain ⟨q, hq, hr, h1, h2, h3, -⟩ := inject_frame x (x.request s.cur 0 x.nextId k op a loc (once 0))
  unfold State.ask
  simp only [List.foldl_cons, List.foldl_nil, List.nil_append]
  have hid : q.id = (x.request s.cur 0 x.nextId k op a loc (once 0)).id := by rw [← hr]
  refine ⟨q, hq, ?_, ?_, ?_, ?_, ?_, ?_, ?_, ?_⟩
  · rw [show q.src = (x.request s.cur 0 x.nextId k op a loc (once 0)).src by rw [← hr]]; rfl
  · rw [show q.op = (x.request s.cur 0 x.nextId k op a loc (once 0)).op by rw [← hr]]; rfl
  · rw [show q.cls = (x.request s.cur 0 x.nextId k op a loc (once 0)).cls by rw [← hr]]; rfl
  · rw [show q.seg = (x.request s.cur 0 x.nextId k op a loc (once 0)).seg by rw [← hr]]; rfl
  · rw [show q.loc = (x.request s.cur 0 x.nextId k op a loc (once 0)).loc by rw [← hr]]; rfl
  · rw [show q.asid = (x.request s.cur 0 x.nextId k op a loc (once 0)).asid by rw [← hr]]
    show (x.thread s.cur).asid = _
    rw [hth]
  · rw [show q.priv = (x.request s.cur 0 x.nextId k op a loc (once 0)).priv by rw [← hr]]
    show (x.thread s.cur).privileged = _
    rw [hth]; rfl
  · rw [hid]
    exact waitFor_waits s _ act .replies _ got (h1.trans ht) (h2.trans hm) (h3.trans hc)

/-- One posted store, with its thread waiting for the acceptance. -/
theorem postAll_asks (s x : State) (act : Act) (k : RClass) (op : ROp) (a : Word) (loc : Nat)
    (ht : x.threads = s.threads) (hm : x.mem = s.mem) (hc : x.cur = s.cur) :
    asks s act .accepts op k a loc (x.postAll s.cur act k .accepts [⟨0, op, a, loc⟩]) := by
  have hth : x.thread s.cur = s.th := by simp only [State.thread, State.th, ht]
  unfold State.postAll
  simp only [List.foldl_cons, List.foldl_nil, List.nil_append]
  refine ⟨_, List.mem_append.2 (.inr (List.mem_singleton.2 rfl)), rfl, rfl, rfl, rfl, rfl, ?_, ?_, ?_⟩
  · show (x.thread s.cur).asid = _
    rw [hth]
  · show (x.thread s.cur).privileged = _
    rw [hth]; rfl
  · exact waitFor_waits s _ act .accepts _ [] ht hm hc

/-- `reach` by the answer of the access. -/
theorem reach_ok {s s' : State} {t : Nat} {a : Word} {z al : Nat} {kind : AKind} {n : Need} {loc : Nat}
    (h : s.access t a z al kind n = (.ok loc, s')) (act : Act) (go : Nat → State → State) :
    s.reach t a z al kind n act go = go loc s' := by simp [State.reach, h]
theorem reach_bad {s s' : State} {t : Nat} {a : Word} {z al : Nat} {kind : AKind} {n : Need} {c : Cause}
    (h : s.access t a z al kind n = (.bad c, s')) (act : Act) (go : Nat → State → State) :
    s.reach t a z al kind n act go = s'.trap t c a := by simp [State.reach, h]
theorem reach_absent {s s' : State} {t : Nat} {a : Word} {z al : Nat} {kind : AKind} {n : Need} {gva : Nat}
    (h : s.access t a z al kind n = (.absent gva, s')) (act : Act) (go : Nat → State → State) :
    s.reach t a z al kind n act go = s'.pageAbsent t 0 gva n a act := by simp [State.reach, h]

end Sys2Proof.Spec
end

