-- ==== Sys2Proof/Laws/Fabric.lean ====
section
/-!
SUPPORT. What the shared operations of the fabric and of a cycle do: the next event of a cycle, deferred causes, a TLB that
takes a leaf, and stamps on a module.
-/

namespace Sys2Proof.Machine

/-! ### The next event of a cycle (log entry 57) -/

/-- A fold that keeps what it has or takes the next element ends in one of the list, or in its start. -/
theorem foldl_pick_mem {α : Type} (f : Option α → α → Option α) (hf : ∀ m d, f m d = some d ∨ f m d = m) (l : List α)
    (m : Option α) (d : α) (h : l.foldl f m = some d) : m = some d ∨ d ∈ l := by
  induction l generalizing m with
  | nil => exact .inl h
  | cons a r ih =>
    rcases ih _ h with h | h
    · rcases hf m a with e | e <;> rw [e] at h <;> simp_all
    · exact .inr (by simp [h])

/-- The event that `takeDue` answers is owed, due, and within the bound; the others stay owed. -/
theorem State.takeDue_spec {s : State} {bound : Option Nat} {d : Due} {rest : List Due} (h : s.takeDue bound = some (d, rest)) :
    d ∈ s.pending ∧ d.due ≤ s.now ∧ (∀ b, bound = some b → s.rank d.ev ≤ b) ∧ rest = s.pending.erase d := by
  unfold State.takeDue at h
  simp only at h
  split at h
  · cases h
  · rename_i x hx
    split at h
    · rename_i hb
      obtain ⟨rfl, rfl⟩ : x = d ∧ s.pending.erase x = rest := by simpa using h
      have hm := foldl_pick_mem _ (fun m d => by
        cases m with
        | none => exact .inl rfl
        | some x => simp only; split <;> simp) _ none x hx
      simp only [reduceCtorEq, false_or, List.mem_filter, decide_eq_true_eq] at hm
      refine ⟨hm.1, hm.2, ?_, rfl⟩
      rintro b rfl
      simpa using hb
    · cases h

/-! ### Deferred causes (11 R146) -/

/-- After a failure a cause stands: the new one where no earlier store has failed, else the one before. -/
theorem Thread.defer_spec (th : Thread) (no : Nat) (e : Err) :
    (th.deferred.isSome ∧ th.deferredNo ≤ no ∧ th.defer no e = th) ∨
    (¬ (th.deferred.isSome ∧ th.deferredNo ≤ no) ∧ th.defer no e = { th with deferred := some e, deferredNo := no }) := by
  unfold Thread.defer
  split
  · rename_i h; exact .inl ⟨h.1, h.2, rfl⟩
  · rename_i h; exact .inr ⟨h, rfl⟩

/-! ### TLBs (17 R229) -/

/-- A TLB that takes a leaf stays within its capacity. -/
theorem tlbFill_length (n : Nat) (l : List TlbEnt) (t : TlbEnt) (h : l.length ≤ n) : (tlbFill n l t).length ≤ n := by
  unfold tlbFill
  split
  · exact h
  · simp only [List.length_take]; omega

/-! ### Stamps on a module (29 R282) -/

theorem stampAdd_mask (a v : Stamp) (hl : a.length = v.length) (h : ∀ e ∈ a.zip v, e.1 ≤ e.2) :
    stampAdd a (stampMask a v) (((a.zip v).filter fun e => e.1 != e.2).map fun e => e.2 - e.1) = v := by
  induction a generalizing v with
  | nil => cases v <;> simp_all [stampAdd]
  | cons x r ih =>
    cases v with
    | nil => simp at hl
    | cons y q =>
      have hxy : x ≤ y := h (x, y) (by simp)
      have hr := ih q (by simpa using hl) (fun e he => h e (by simp [he]))
      by_cases e : x = y
      · subst e
        have h2 : (0 + 2 * stampMask r q) % 2 ≠ 1 := by omega
        have h3 : (0 + 2 * stampMask r q) / 2 = stampMask r q := by omega
        simp only [stampMask, stampAdd, if_true, List.zip_cons_cons, bne_self_eq_false, List.filter_cons_of_neg,
          Bool.false_eq_true, not_false_eq_true, if_neg h2, h3, hr]
      · have h2 : (1 + 2 * stampMask r q) % 2 = 1 := by omega
        have h3 : (1 + 2 * stampMask r q) / 2 = stampMask r q := by omega
        have hb : (x != y) = true := by simpa using e
        simp only [stampMask, stampAdd, if_neg e, List.zip_cons_cons, List.filter_cons, hb, if_true, List.map_cons,
          List.headD_cons, List.tail_cons, if_pos h2, h3, hr]
        congr 1; omega

/-- A stamp decoded against the stamp before it is the stamp that was encoded. -/
theorem stampEncode_decode (a v : Stamp) (hl : a.length = v.length) : (stampEncode a v).decode a = v := by
  unfold stampEncode
  split
  · rfl
  · rename_i h
    refine stampAdd_mask a v hl fun e he => ?_
    simp only [List.any_eq_true, Bool.or_eq_true, decide_eq_true_eq, not_exists, not_and, not_or] at h
    have := (h e he).1
    omega

end Sys2Proof.Machine
end

