-- ==== Sys2Proof/Laws/Vector.lean ====
section
/-!
SUPPORT. What writing the elements of a vector register group leaves.
-/

namespace Sys2Proof.Machine

/-! ### Vector registers -/

/-- A masked write of one register: the bits under the mask are new, every other bit and register as before. -/
theorem State.vreg_setVreg (s : State) (t n m : Nat) (v mask : Vec) :
    (s.setVreg t n v mask).vreg t m =
      if m = n then (s.vreg t n &&& ~~~mask) ||| (v &&& mask) else s.vreg t m := by
  have hw : ((s.setVreg t n v mask).thread t).winBase = (s.thread t).winBase := by
    unfold setVreg
    simp only [State.modCore_at_thread, State.thread_setThread, if_true]
  unfold vreg
  rw [hw]
  unfold setVreg
  simp only [State.core_modCore, if_true, State.setThread_at_core, Sp.get_set, Nat.add_left_cancel_iff]

theorem and_not_zero (x v : Vec) : (x &&& ~~~0#512) ||| (v &&& 0#512) = x := by
  rw [BitVec.not_zero, BitVec.and_allOnes, BitVec.and_zero, BitVec.or_zero]

/-- Writing elements register by register, as one function of the register number. -/
theorem State.vreg_putElems (s : State) (t base w n : Nat) (l : List (Nat × Nat)) (m : Nat) :
    (s.putElems t base w n l).vreg t m =
      if base ≤ m ∧ m < base + n then
        (s.vreg t m &&& ~~~(regBits w (m - base) l).2) ||| ((regBits w (m - base) l).1 &&& (regBits w (m - base) l).2)
      else s.vreg t m := by
  unfold putElems
  induction n with
  | zero => rw [if_neg (by omega)]; rfl
  | succ k ih =>
    rw [List.range_succ, List.foldl_append, List.foldl_cons, List.foldl_nil]
    generalize (List.range k).foldl _ s = x at ih
    simp only []
    by_cases h : m = base + k
    · subst h
      have hb : x.vreg t (base + k) = s.vreg t (base + k) := by rw [ih, if_neg (by omega)]
      have hr : base ≤ base + k ∧ base + k < base + (k + 1) := by omega
      rw [if_pos hr, Nat.add_sub_cancel_left]
      by_cases hz : (regBits w k l).2 = 0
      · rw [if_pos hz, hz, hb]
        exact (and_not_zero _ _).symm
      · rw [if_neg hz, vreg_setVreg, if_pos rfl, hb]
    · have e : (if (regBits w k l).2 = 0 then x else x.setVreg t (base + k) (regBits w k l).1 (regBits w k l).2).vreg t m =
          x.vreg t m := by
        split
        · rfl
        · rw [vreg_setVreg, if_neg h]
      rw [e, ih]
      by_cases hr : base ≤ m ∧ m < base + k
      · rw [if_pos hr, if_pos (by omega)]
      · rw [if_neg hr, if_neg (by omega)]

/-! ### Bits of a register -/

/-- A list entry covers bit b of register r. -/
def covers (w r b : Nat) (e : Nat × Nat) : Prop := e.1 * w / 512 = r ∧ e.1 * w % 512 ≤ b ∧ b < e.1 * w % 512 + w

theorem regBits_snoc (w r : Nat) (l : List (Nat × Nat)) (e : Nat × Nat) :
    regBits w r (l ++ [e]) = if e.1 * w / 512 = r then
      ((regBits w r l).1 ||| (BitVec.ofNat 512 (e.2 % 2 ^ w) <<< (e.1 * w % 512)),
        (regBits w r l).2 ||| (BitVec.ofNat 512 (ones w) <<< (e.1 * w % 512))) else regBits w r l := by
  simp [regBits, List.foldl_append]

theorem ones_testBit (w i : Nat) : (ones w).testBit i = decide (i < w) := by
  rw [ones, Nat.testBit_two_pow_sub_one]

/-- The mask covers exactly the bits of the listed elements. -/
theorem regBits_mask (w r b : Nat) (hb : b < 512) (l : List (Nat × Nat)) :
    (regBits w r l).2.getLsbD b = true ↔ ∃ e ∈ l, covers w r b e := by
  induction l using List.reverseRecOn with
  | nil => simp [regBits]
  | append_singleton l e ih =>
    rw [regBits_snoc]
    by_cases h : e.1 * w / 512 = r
    · rw [if_pos h, BitVec.getLsbD_or, Bool.or_eq_true, ih]
      have : (BitVec.ofNat 512 (ones w) <<< (e.1 * w % 512)).getLsbD b = true ↔ covers w r b e := by
        rw [BitVec.getLsbD_shiftLeft, BitVec.getLsbD_ofNat, ones_testBit]
        simp only [covers, h, true_and, Bool.and_eq_true, Bool.not_eq_true', decide_eq_true_eq, decide_eq_false_iff_not]
        omega
      rw [this]
      simp only [List.mem_append, List.mem_singleton]
      constructor
      · rintro (⟨x, hx, hc⟩ | hc)
        · exact ⟨x, .inl hx, hc⟩
        · exact ⟨e, .inr rfl, hc⟩
      · rintro ⟨x, hx | rfl, hc⟩
        · exact .inl ⟨x, hx, hc⟩
        · exact .inr hc
    · rw [if_neg h, ih]
      simp only [List.mem_append, List.mem_singleton]
      constructor
      · rintro ⟨x, hx, hc⟩; exact ⟨x, .inl hx, hc⟩
      · rintro ⟨x, hx | rfl, hc⟩
        · exact ⟨x, hx, hc⟩
        · exact absurd hc.1 h

/-- A bit of the value comes from a listed element. -/
theorem regBits_value (w r b : Nat) (hb : b < 512) (l : List (Nat × Nat)) :
    (regBits w r l).1.getLsbD b = true ↔ ∃ e ∈ l, covers w r b e ∧ e.2.testBit (b - e.1 * w % 512) = true := by
  induction l using List.reverseRecOn with
  | nil => simp [regBits]
  | append_singleton l e ih =>
    rw [regBits_snoc]
    by_cases h : e.1 * w / 512 = r
    · rw [if_pos h, BitVec.getLsbD_or, Bool.or_eq_true, ih]
      have : (BitVec.ofNat 512 (e.2 % 2 ^ w) <<< (e.1 * w % 512)).getLsbD b = true ↔
          covers w r b e ∧ e.2.testBit (b - e.1 * w % 512) = true := by
        rw [BitVec.getLsbD_shiftLeft, BitVec.getLsbD_ofNat, Nat.testBit_mod_two_pow]
        simp only [covers, h, true_and, Bool.and_eq_true, Bool.not_eq_true', decide_eq_true_eq, decide_eq_false_iff_not]
        constructor
        · rintro ⟨⟨-, h1⟩, h2, h3, h4⟩; exact ⟨⟨by omega, by omega⟩, h4⟩
        · rintro ⟨⟨h1, h2⟩, h3⟩; exact ⟨⟨hb, by omega⟩, by omega, by omega, h3⟩
      rw [this]
      simp only [List.mem_append, List.mem_singleton]
      constructor
      · rintro (⟨x, hx, hc⟩ | hc)
        · exact ⟨x, .inl hx, hc⟩
        · exact ⟨e, .inr rfl, hc⟩
      · rintro ⟨x, hx | rfl, hc⟩
        · exact .inl ⟨x, hx, hc⟩
        · exact .inr hc
    · rw [if_neg h, ih]
      simp only [List.mem_append, List.mem_singleton]
      constructor
      · rintro ⟨x, hx, hc⟩; exact ⟨x, .inl hx, hc⟩
      · rintro ⟨x, hx | rfl, hc⟩
        · exact ⟨x, hx, hc⟩
        · exact absurd hc.1.1 h

/-! ### Elements -/

/-- Element widths of vectors and streams. -/
def goodWidth (w : Nat) : Prop := w = 8 ∨ w = 16 ∨ w = 32 ∨ w = 64

/-- An element does not cross a register. -/
theorem goodWidth.fits {w : Nat} (h : goodWidth w) (j : Nat) : j * w % 512 + w ≤ 512 := by
  rcases h with rfl | rfl | rfl | rfl <;> omega

/-- Distinct elements share no bit. -/
theorem covers_inj {w : Nat} (h : goodWidth w) {j i : Nat} (hi : i < w) {e : Nat × Nat}
    (hc : covers w (j * w / 512) (j * w % 512 + i) e) : e.1 = j := by
  obtain ⟨h1, h2, h3⟩ := hc
  rcases h with rfl | rfl | rfl | rfl <;> omega

theorem covers_self (w j i : Nat) (hi : i < w) (v : Nat) : covers w (j * w / 512) (j * w % 512 + i) (j, v) :=
  ⟨rfl, Nat.le_add_right .., Nat.add_lt_add_left hi _⟩

/-- Bits of an element. -/
theorem State.elem_testBit (s : State) (t base w j i : Nat) (hi : i < w) :
    (s.elem t base w j).testBit i = (s.vreg t (base + j * w / 512)).getLsbD (j * w % 512 + i) := by
  unfold elem
  rw [Nat.testBit_mod_two_pow, BitVec.testBit_toNat, BitVec.getLsbD_ushiftRight]
  simp [hi]

theorem State.elem_lt (s : State) (t base w j : Nat) : s.elem t base w j < 2 ^ w := Nat.mod_lt _ (Nat.two_pow_pos w)

/-- A listed element reads as written; the list names no element twice. -/
theorem State.elem_putElems_mem (s : State) (t base w n : Nat) (l : List (Nat × Nat)) (hw : goodWidth w)
    (hl : (l.map (·.1)).Nodup) {j v : Nat} (hm : (j, v) ∈ l) (hn : j * w / 512 < n) :
    (s.putElems t base w n l).elem t base w j = v % 2 ^ w := by
  apply Nat.eq_of_testBit_eq
  intro i
  by_cases hi : i < w
  · have hb : j * w % 512 + i < 512 := by have := hw.fits j; omega
    rw [elem_testBit _ _ _ _ _ _ hi, vreg_putElems, if_pos (by omega), Nat.add_sub_cancel_left]
    have hmask : (regBits w (j * w / 512) l).2.getLsbD (j * w % 512 + i) = true :=
      (regBits_mask _ _ _ hb l).2 ⟨_, hm, covers_self w j i hi v⟩
    rw [BitVec.getLsbD_or, BitVec.getLsbD_and, BitVec.getLsbD_and, BitVec.getLsbD_not, hmask]
    simp only [hb, decide_true, Bool.not_true, Bool.and_false, Bool.false_or, Bool.and_true]
    rw [Nat.testBit_mod_two_pow, Bool.eq_iff_iff, regBits_value _ _ _ hb l]
    simp only [hi, decide_true, Bool.true_and]
    constructor
    · rintro ⟨e, he, hc, hv⟩
      have e1 := covers_inj hw hi hc
      have : e = (j, v) := by
        have hp := List.inj_on_of_nodup_map hl he hm e1
        exact hp
      subst this
      simpa using hv
    · intro hv
      exact ⟨(j, v), hm, covers_self w j i hi v, by simpa using hv⟩
  · have hle : w ≤ i := by omega
    rw [Nat.testBit_lt_two_pow (Nat.lt_of_lt_of_le (elem_lt ..) (Nat.pow_le_pow_right (by omega) hle)),
      Nat.testBit_lt_two_pow (Nat.lt_of_lt_of_le (Nat.mod_lt _ (Nat.two_pow_pos w)) (Nat.pow_le_pow_right (by omega) hle))]

/-- An element that is not listed reads as before. -/
theorem State.elem_putElems_ne (s : State) (t base w n : Nat) (l : List (Nat × Nat)) (hw : goodWidth w) {j : Nat}
    (hm : ∀ e ∈ l, e.1 ≠ j) : (s.putElems t base w n l).elem t base w j = s.elem t base w j := by
  apply Nat.eq_of_testBit_eq
  intro i
  by_cases hi : i < w
  · have hb : j * w % 512 + i < 512 := by have := hw.fits j; omega
    rw [elem_testBit _ _ _ _ _ _ hi, elem_testBit _ _ _ _ _ _ hi, vreg_putElems]
    split
    · rw [Nat.add_sub_cancel_left]
      have hmask : (regBits w (j * w / 512) l).2.getLsbD (j * w % 512 + i) = false := by
        rw [Bool.eq_false_iff, Ne, regBits_mask _ _ _ hb l]
        rintro ⟨e, he, hc⟩
        exact hm e he (covers_inj hw hi hc)
      rw [BitVec.getLsbD_or, BitVec.getLsbD_and, BitVec.getLsbD_and, BitVec.getLsbD_not, hmask]
      simp [hb]
    · rfl
  · have hle : w ≤ i := by omega
    rw [Nat.testBit_lt_two_pow (Nat.lt_of_lt_of_le (elem_lt ..) (Nat.pow_le_pow_right (by omega) hle)),
      Nat.testBit_lt_two_pow (Nat.lt_of_lt_of_le (elem_lt ..) (Nat.pow_le_pow_right (by omega) hle))]

/-- A write of elements changes the file of its own core and the image record of its thread only. -/
theorem State.putElems_frame (s : State) (t base w n : Nat) (l : List (Nat × Nat)) :
    (∀ u, { (s.putElems t base w n l).thread u with oldV := (s.thread u).oldV } = s.thread u) ∧
    (∀ u, u ≠ t → (s.putElems t base w n l).thread u = s.thread u) ∧
    (∀ c, { (s.putElems t base w n l).core c with vf := (s.core c).vf, vbad := (s.core c).vbad } = s.core c) ∧
    (∀ c, c ≠ coreOf t → (s.putElems t base w n l).core c = s.core c) ∧
    { s.putElems t base w n l with threads := s.threads, cores := s.cores } = s := by
  unfold putElems
  induction n with
  | zero => exact ⟨fun _ => rfl, fun _ _ => rfl, fun _ => rfl, fun _ _ => rfl, rfl⟩
  | succ k ih =>
    rw [List.range_succ, List.foldl_append, List.foldl_cons, List.foldl_nil]
    generalize (List.range k).foldl _ s = x at ih
    simp only []
    split
    · exact ih
    · obtain ⟨h1, h2, h3, h4, h5⟩ := ih
      refine ⟨fun u => ?_, fun u hu => ?_, fun c => ?_, fun c hc => ?_, ?_⟩
      · rw [← h1 u]
        simp only [setVreg, State.modCore_at_thread, State.thread_setThread]
        split
        · rename_i h; subst h; rfl
        · rfl
      · rw [← h2 u hu]; simp [setVreg, hu]
      · rw [← h3 c]
        simp only [setVreg, State.core_modCore, State.setThread_at_core]
        split
        · rename_i h; subst h; rfl
        · rfl
      · rw [← h4 c hc]; simp [setVreg, hc]
      · rw [← h5]; rfl

/-- Poison of a physical register that a write of elements does not reach stays (17 R222). -/
theorem State.putElems_vbad (s : State) (t base w n : Nat) (l : List (Nat × Nat)) (e : Nat × Poison)
    (he : e.1 < (s.thread t).winBase + base ∨ (s.thread t).winBase + base + n ≤ e.1) :
    e ∈ ((s.putElems t base w n l).core (coreOf t)).vbad ↔ e ∈ (s.core (coreOf t)).vbad := by
  unfold putElems
  have key : ∀ k, k ≤ n → ((((List.range k).foldl (fun s r => let p := regBits w r l
        if p.2 = 0 then s else s.setVreg t (base + r) p.1 p.2) s).thread t).winBase = (s.thread t).winBase) ∧
      (e ∈ (((List.range k).foldl (fun s r => let p := regBits w r l
        if p.2 = 0 then s else s.setVreg t (base + r) p.1 p.2) s).core (coreOf t)).vbad ↔ e ∈ (s.core (coreOf t)).vbad) := by
    intro k
    induction k with
    | zero => exact fun _ => ⟨rfl, Iff.rfl⟩
    | succ k ih =>
      intro hk
      rw [List.range_succ, List.foldl_append, List.foldl_cons, List.foldl_nil]
      have ih := ih (by omega)
      generalize (List.range k).foldl _ s = x at ih
      simp only []
      split
      · exact ih
      · obtain ⟨h1, h2⟩ := ih
        constructor
        · rw [← h1]; simp [setVreg]
        · rw [← h2]
          simp only [setVreg, State.core_modCore, if_true, State.setThread_at_core]
          split
          · rw [List.mem_filter]
            have : e.1 ≠ (x.thread t).winBase + (base + k) := by rw [h1]; omega
            simp [this]
          · exact Iff.rfl
  exact (key n (Nat.le_refl n)).2

/-- Physical registers below a window are never written through it. -/
theorem State.putElems_vf_low (s : State) (t base w n : Nat) (l : List (Nat × Nat)) (p : Nat)
    (hp : p < (s.thread t).winBase) :
    ((s.putElems t base w n l).core (coreOf t)).vf.get 0 p = (s.core (coreOf t)).vf.get 0 p := by
  unfold putElems
  have key : ∀ k, ((((List.range k).foldl (fun s r => let p := regBits w r l
        if p.2 = 0 then s else s.setVreg t (base + r) p.1 p.2) s).thread t).winBase = (s.thread t).winBase) ∧
      ((((List.range k).foldl (fun s r => let p := regBits w r l
        if p.2 = 0 then s else s.setVreg t (base + r) p.1 p.2) s).core (coreOf t)).vf.get 0 p =
        (s.core (coreOf t)).vf.get 0 p) := by
    intro k
    induction k with
    | zero => exact ⟨rfl, rfl⟩
    | succ k ih =>
      rw [List.range_succ, List.foldl_append, List.foldl_cons, List.foldl_nil]
      generalize (List.range k).foldl _ s = x at ih
      simp only []
      split
      · exact ih
      · obtain ⟨h1, h2⟩ := ih
        constructor
        · rw [← h1]; simp [setVreg]
        · rw [← h2]
          simp only [setVreg, State.core_modCore, if_true, State.setThread_at_core]
          rw [Sp.get_set_ne]
          omega
  exact (key n).2

end Sys2Proof.Machine

namespace Sys2Proof.Spec

open Sys2Proof.Machine

/-- An element as its bits, and as its number. -/
theorem velem_toNat (s : State) (r w i : Nat) : (velem s r w i).toNat = s.elem s.cur r w i := by
  simp [velem, State.elem]

theorem velem_eq (s : State) (r w i : Nat) : velem s r w i = BitVec.ofNat w (s.elem s.cur r w i) := by
  apply BitVec.eq_of_toNat_eq
  rw [velem_toNat, BitVec.toNat_ofNat, Nat.mod_eq_of_lt (s.elem_lt ..)]

/-- Keeping some members of a list keeps it free of repeats. -/
theorem filterMap_sublist (g : Nat → Option Nat) (hg : ∀ i j, g i = some j → i = j) (l : List Nat) :
    (l.filterMap g).Sublist l := by
  induction l with
  | nil => exact List.Sublist.slnil
  | cons i r ih =>
    rw [List.filterMap_cons]
    split
    · exact ih.cons _
    · rename_i j h; rw [← hg i j h]; exact ih.cons_cons _

/-- No element is written twice. -/
theorem written_nodup (x : VCtx) (w : Nat) (op : Nat → Nat) : ((x.written w op).map (·.1)).Nodup := by
  unfold VCtx.written
  rw [List.map_filterMap]
  refine List.Nodup.sublist (filterMap_sublist _ ?_ _) List.nodup_range
  intro i j h
  by_cases h1 : i < x.vstart
  · simp [h1] at h
  · by_cases h2 : x.vl ≤ i
    · by_cases h3 : x.ta = true <;> simp [h1, h2, h3] at h; exact h
    · by_cases h3 : x.mask.getLsbD i = true
      · simp [h1, h2, h3] at h; exact h
      · by_cases h4 : x.ma = true <;> simp [h1, h2, h3, h4] at h; exact h

/-- What an element reads after the elements of a context are written (09 R116). -/
theorem elem_written (s : State) (r n w : Nat) (x : VCtx) (op : Nat → Nat) (hw : goodWidth w) (i : Nat) (hi : i < x.vlmax)
    (hn : i * w / 512 < n) :
    (s.putElems s.cur r w n (x.written w op)).elem s.cur r w i =
      if i < x.vstart then s.elem s.cur r w i
      else if x.vl ≤ i then (if x.ta then ones w else s.elem s.cur r w i)
      else if x.mask.getLsbD i then op i % 2 ^ w
      else if x.ma then ones w else s.elem s.cur r w i := by
  have hmem : ∀ e, e ∈ x.written w op ↔ e.1 < x.vlmax ∧
      (if e.1 < x.vstart then none
        else if x.vl ≤ e.1 then (if x.ta then some (e.1, ones w) else none)
        else if x.mask.getLsbD e.1 then some (e.1, op e.1)
        else if x.ma then some (e.1, ones w) else none) = some e := by
    intro e
    simp only [VCtx.written, List.mem_filterMap, List.mem_range]
    constructor
    · rintro ⟨a, ha, h⟩
      have : a = e.1 := by
        split at h
        · cases h
        · split at h
          · split at h
            · cases h; rfl
            · cases h
          · split at h
            · cases h; rfl
            · split at h
              · cases h; rfl
              · cases h
      subst this
      exact ⟨ha, h⟩
    · rintro ⟨ha, h⟩; exact ⟨e.1, ha, h⟩
  have hin : ∀ v, (i, v) ∈ x.written w op → (s.putElems s.cur r w n (x.written w op)).elem s.cur r w i = v % 2 ^ w :=
    fun v hv => State.elem_putElems_mem _ _ _ _ _ _ hw (written_nodup ..) hv hn
  have hout : (∀ v, (i, v) ∉ x.written w op) →
      (s.putElems s.cur r w n (x.written w op)).elem s.cur r w i = s.elem s.cur r w i := by
    intro h
    refine State.elem_putElems_ne _ _ _ _ _ _ hw fun e he hei => h e.2 ?_
    rw [← hei]; exact he
  have h1s : ones w % 2 ^ w = ones w := Nat.mod_eq_of_lt (by have := Nat.two_pow_pos w; unfold ones; omega)
  simp only [hmem] at hin hout
  by_cases h1 : i < x.vstart
  · rw [if_pos h1]; exact hout fun v => by simp [h1]
  · by_cases h2 : x.vl ≤ i
    · by_cases h3 : x.ta = true
      · rw [if_neg h1, if_pos h2, if_pos h3, hin (ones w) (by simp [hi, h1, h2, h3]), h1s]
      · rw [if_neg h1, if_pos h2, if_neg h3]; exact hout fun v => by simp [h1, h2, h3]
    · by_cases h3 : x.mask.getLsbD i = true
      · rw [if_neg h1, if_neg h2, if_pos h3, hin (op i) (by simp [hi, h1, h2, h3])]
      · by_cases h4 : x.ma = true
        · rw [if_neg h1, if_neg h2, if_neg h3, if_pos h4, hin (ones w) (by simp [hi, h1, h2, h3, h4]), h1s]
        · rw [if_neg h1, if_neg h2, if_neg h3, if_neg h4]; exact hout fun v => by simp [h1, h2, h3, h4]

/-- The end of a vector instruction: VSTART is 0 and it completes; vector registers stay. -/
theorem vDone_eq (s : State) (len : Word) (dist : Nat) :
    s.vDone len dist = (s.modTh fun th => { th with vstart := 0 }).finishAt s.cur (s.th.pc + len) dist := by
  simp [State.vDone, State.finish]

theorem vDone_vreg (s : State) (len : Word) (dist n : Nat) : (s.vDone len dist).vreg s.cur n = s.vreg s.cur n := by
  rw [vDone_eq]
  unfold State.vreg
  have hc : ∀ c, ((s.modTh fun th => { th with vstart := 0 }).finishAt s.cur (s.th.pc + len) dist).core c = s.core c :=
    fun _ => rfl
  rw [hc, State.thread_finishAt, if_pos rfl]
  have hs : ∀ (x : Thread) (k : Nat), (x.settle s.now k).winBase = x.winBase := fun _ _ => rfl
  rw [State.modTh_now, hs, loopEnd_keeps (fun x => x.winBase) (fun _ _ _ => rfl)]
  simp

theorem vDone_velem (s : State) (len : Word) (dist r w i : Nat) : velem (s.vDone len dist) r w i = velem s r w i := by
  unfold velem
  have h : (s.vDone len dist).cur = s.cur := rfl
  rw [h, vDone_vreg]

theorem still_vstart {x y : Thread} (h : still x = still y) : x.vstart = y.vstart := by
  have e := congrArg Thread.vstart h; exact e

end Sys2Proof.Spec
end

