-- ==== Sys2Proof/Laws/Waits.lean ====
section
/-!
SUPPORT. What the shared operations do that read a JOIN's counter again, push a root record, show NEED of a barrier, and grow the
reservations of a receive buffer.
-/

namespace Sys2Proof.Machine

/-! ### JOIN (13 R198) -/

/-- The timer of a JOIN's next reading touches nothing but what the hardware owes. -/
theorem State.joinTimer_frame (s : State) (t due : Nat) : { s.joinTimer t due with pending := s.pending } = s := by
  unfold State.joinTimer
  dsimp only
  split <;> rfl

/-- With no reading owed, a thread that waits in a JOIN is owed one. -/
theorem State.joinTimer_owes (s : State) (t due : Nat) (h : s.inJoin t = true) (hu : Spec.untimed s) :
    Spec.owes (s.joinTimer t due) due .joinPoll (Arg.num2 t (s.thread t).issuedAt) := by
  have hp : (s.pending.any fun d => d.ev.what == .joinPoll && !d.ev.arg.yes && d.ev.arg.n == t && d.ev.arg.k == (s.thread t).issuedAt) = false := by
    rw [List.any_eq_false]
    intro d hd
    simp [hu d hd]
  unfold State.joinTimer Spec.owes
  simp [h, hp, State.owe]

/-! ### Root records (15 R204) -/

/-- The sequencer holds a root record and sends it on its way; nothing else changes but the links and what the hardware owes. -/
theorem State.pushRoot_spec (s : State) (e : Nat) :
    (s.pushRoot e).held = s.held ++ [rootRec (s.entry e) e] ∧
    { s.pushRoot e with held := s.held, links := s.links, pending := s.pending } = s := by
  have h := Spec.carry_frame { s with held := s.held ++ [rootRec (s.entry e) e] } 8 (dieOf (s.leadOf e))
    (requestGroup (s.comp (s.entry e).comp.toNat).asid) (fabricTrip 8 (.core (s.leadOf e) 0) / 2) .sequencerRootPush (Arg.num e) none
  refine ⟨congrArg State.held h, ?_⟩
  have h2 := congrArg (fun t : State => { t with held := s.held, links := s.links, pending := s.pending }) h
  exact h2

/-! ### NEED (03 R28; 13 R201) -/

/-- An arrival meets the NEED of the last write. -/
theorem Core.setNeed_need (c : Core) (now i n : Nat) : ((c.setNeed now i n).bars.get Bar.init i).need = n := by
  simp [Core.setNeed]

/-- A read within three cycles of a write, the first for a while, shows the NEED before it. -/
theorem Core.setNeed_seen (c : Core) (now i n k : Nat) (h : c.needs = []) (hk : k < 4) :
    (c.setNeed now i n).needSeen (now + k) i = (c.bars.get Bar.init i).need := by
  have hk' : now + k < now + 4 := by omega
  simp [Core.setNeed, Core.needSeen, h, hk']

/-- Four cycles after a write a read shows it. -/
theorem Core.setNeed_settled (c : Core) (now i n k : Nat) (h : c.needs = []) (hk : 4 ≤ k) :
    (c.setNeed now i n).needSeen (now + k) i = n := by
  have hk' : ¬ now + k < now + 4 := by omega
  simp [Core.setNeed, Core.needSeen, h, hk']

/-! ### Receive buffers (29 R288) -/

/-- A reservation that grows leaves what the buffer holds, and stays within the old one or MIN. -/
theorem RxBuf.grow_spec (n : Nat) (m : List Nat) (b : RxBuf) (g : Nat) :
    (b.grow n m g).used = b.used ∧ (b.grow n m g).kept = b.kept ∧ (b.grow n m g).eff.length = b.eff.length ∧
    ∀ x, b.eff.getD x 0 ≤ (b.grow n m g).eff.getD x 0 ∧ (b.grow n m g).eff.getD x 0 ≤ max (b.eff.getD x 0) (m.getD x 0) := by
  refine ⟨rfl, rfl, by simp [RxBuf.grow], fun x => ?_⟩
  simp only [RxBuf.grow, List.getD_eq_getElem?_getD, List.getElem?_set]
  split
  · rename_i h
    subst h
    split
    · simp only [Option.getD_some]; omega
    · rename_i h; simp [List.getElem?_eq_none (Nat.le_of_not_lt h)]
  · omega

/-- The same of any sequence of groups. -/
theorem RxBuf.grow_all (n : Nat) (m : List Nat) (l : List Nat) (b : RxBuf) :
    (l.foldl (RxBuf.grow n m) b).used = b.used ∧ (l.foldl (RxBuf.grow n m) b).kept = b.kept ∧
    (l.foldl (RxBuf.grow n m) b).eff.length = b.eff.length ∧
    ∀ x, b.eff.getD x 0 ≤ (l.foldl (RxBuf.grow n m) b).eff.getD x 0 ∧
      (l.foldl (RxBuf.grow n m) b).eff.getD x 0 ≤ max (b.eff.getD x 0) (m.getD x 0) := by
  induction l generalizing b with
  | nil => exact ⟨rfl, rfl, rfl, fun x => ⟨Nat.le_refl _, Nat.le_max_left _ _⟩⟩
  | cons g r ih =>
    have hg := RxBuf.grow_spec n m b g
    have hr := ih (b.grow n m g)
    simp only [List.foldl_cons]
    refine ⟨hr.1.trans hg.1, hr.2.1.trans hg.2.1, hr.2.2.1.trans hg.2.2.1, fun x => ?_⟩
    have h1 := hg.2.2.2 x
    have h2 := hr.2.2.2 x
    omega

/-- Growing touches nothing but the receive buffers. -/
theorem State.rxGrow_frame (s : State) (buf : Nat) : { s.rxGrow buf with rx := s.rx } = s := rfl

end Sys2Proof.Machine
end

