-- ==== Sys2Proof/Tests/Slice0.lean ====
section
/-!
SUPPORT. Tests. The words are written out field by field from the encodings of spec/opcode_table.json and 05 R44 to R88;
expected results are worked out by hand from the rules that each test names.
-/

namespace Sys2Proof.Tests

open Sys2Proof.Machine Sys2Proof.Spec

set_option Elab.async false

/-! ### Words of the encodings, one for each constructor that has one -/

/-- Words of the alu group. -/
theorem test_decode_alu :
    decodeTableWord 32 0x00208B03 = some (.add 22 8 16) ∧
    decodeTableWord 32 0x005A6A03 = some (.sub 20 6 13) ∧
    decodeTableWord 32 0x009C8C83 = some (.and 25 8 14) ∧
    decodeTableWord 32 0x00E06A03 = some (.or 20 6 16) ∧
    decodeTableWord 32 0x01206A83 = some (.xor 21 6 16) ∧
    decodeTableWord 32 0x01608B83 = some (.andn 23 8 16) ∧
    decodeTableWord 32 0x01A0AB03 = some (.slt 22 10 16) ∧
    decodeTableWord 32 0x01DA7A03 = some (.sltu 20 7 13) ∧
    decodeTableWord 32 0x101C7A83 = some (.sll 21 7 14) ∧
    decodeTableWord 32 0x105C8A03 = some (.srl 20 8 14) ∧
    decodeTableWord 32 0x109E7B83 = some (.sra 23 7 15) ∧
    decodeTableWord 32 0x10E0AA83 = some (.fshl 21 10 16) ∧
    decodeTableWord 32 0x11206A03 = some (.fshr 20 6 16) ∧
    decodeTableWord 32 0x201AAA83 = some (.min 21 10 13) ∧
    decodeTableWord 32 0x20607983 = some (.minu 19 7 16) ∧
    decodeTableWord 32 0x209E7B83 = some (.max 23 7 15) ∧
    decodeTableWord 32 0x20E49A83 = some (.maxu 21 9 18) ∧
    decodeTableWord 32 0x3022AC03 = some (.mul 24 10 17) ∧
    decodeTableWord 32 0x305A9B83 = some (.mulh 23 9 13) ∧
    decodeTableWord 32 0x30A06A83 = some (.mulhu 21 6 16) ∧
    decodeTableWord 32 0x31249A03 = some (.div 20 9 18) ∧
    decodeTableWord 32 0x315E6C83 = some (.divu 25 6 15) ∧
    decodeTableWord 32 0x319AAA83 = some (.rem 21 10 13) ∧
    decodeTableWord 32 0x31E07983 = some (.remu 19 7 16) ∧
    decodeTableWord 32 0x6000A983 = some (.clz 19 10) ∧
    decodeTableWord 32 0x60408A03 = some (.ctz 20 8) ∧
    decodeTableWord 32 0x6080A983 = some (.popc 19 10) ∧
    decodeTableWord 32 0x60C07B83 = some (.sextw 23 7) ∧
    decodeTableWord 32 0x61009B83 = some (.zextw 23 9) ∧
    decodeTableWord 32 0x61407A83 = some (.bswap 21 7) := by
  decide +kernel

/-- Words of the imm group. -/
theorem test_decode_imm :
    decodeTableWord 32 0x9A508B05 = some (.addi 22 8 0x9a5) ∧
    decodeTableWord 32 0x9A52AB05 = some (.slti 22 10 0x9a5) ∧
    decodeTableWord 32 0x9A547A05 = some (.sltiu 20 7 0x9a5) ∧
    decodeTableWord 32 0x9A566A85 = some (.xori 21 6 0x9a5) ∧
    decodeTableWord 32 0x9A586A05 = some (.ori 20 6 0x9a5) ∧
    decodeTableWord 32 0x9A6A8C85 = some (.andi 25 8 0x9a6) ∧
    decodeTableWord 32 0x03FC7A85 = some (.slli 21 7 63) ∧
    decodeTableWord 32 0x07FC8A05 = some (.srli 20 8 63) ∧
    decodeTableWord 32 0x0BEC7B85 = some (.srai 23 7 62) ∧
    decodeTableWord 32 0x8F0F1A07 = some (.lui 20 0x8F0F1) ∧
    decodeTableWord 32 0x8F0F1C09 = some (.auipc 24 0x8F0F1) := by
  decide +kernel

/-- Words of the control group. -/
theorem test_decode_control :
    decodeTableWord 32 0x9A1A8291 = some (.beq 8 13 0x9a5) ∧
    decodeTableWord 32 0x9A60A291 = some (.bne 10 16 0x9a5) ∧
    decodeTableWord 32 0x9B228311 = some (.blt 8 17 0x9a6) ∧
    decodeTableWord 32 0x9B5E8391 = some (.bge 8 15 0x9a7) ∧
    decodeTableWord 32 0x9B9CA311 = some (.bltu 10 14 0x9a6) ∧
    decodeTableWord 32 0x9BE4A391 = some (.bgeu 10 18 0x9a7) ∧
    decodeTableWord 32 0x8F0F1B13 = some (.jal 22 0x8F0F1) ∧
    decodeTableWord 32 0x9A706C15 = some (.jalr 24 6 0x9a7) ∧
    decodeTableWord 32 0x9A56A795 = some (.btag .s 15 10 0x9a5) ∧
    decodeTableWord 32 0x9A628017 = some (.loop 1 8 0x9a6) ∧
    decodeTableWord 32 0x9A673B17 = some (.loopi 1 723 0x9a6) := by
  decide +kernel

/-- Words of the fp group. -/
theorem test_decode_fp :
    decodeTableWord 32 0x0F20A999 = some (.fadd .d .rup 19 10 16) ∧
    decodeTableWord 32 0x109A8C19 = some (.fsub .h .rtz 24 8 13) ∧
    decodeTableWord 32 0x18627A99 = some (.fmul .h .rne 21 7 17) ∧
    decodeTableWord 32 0x22246C19 = some (.fdiv .bf .dyn 24 6 18) ∧
    decodeTableWord 32 0x28006999 = some (.fsqrt .h .dyn 19 6) ∧
    decodeTableWord 32 0x341A7C99 = some (.fmin .s 25 7 13) ∧
    decodeTableWord 32 0x305E9A19 = some (.fmax .h 20 9 15) ∧
    decodeTableWord 32 0x38227A19 = some (.feq .h 20 7 17) ∧
    decodeTableWord 32 0x3C5E7B99 = some (.flt .s 23 7 15) ∧
    decodeTableWord 32 0x3EA47B19 = some (.fle .d 22 7 18) ∧
    decodeTableWord 32 0x40007C99 = some (.fclass .h 25 7) ∧
    decodeTableWord 32 0x481E7B99 = some (.fsgnj .h 23 7 15) ∧
    decodeTableWord 32 0x56808999 = some (.fcvtToFp .d .rtz .fp32 19 8) ∧
    decodeTableWord 32 0x5E407B19 = some (.fcvtSat .d .rne .fp32 22 7) ∧
    decodeTableWord 32 0x670CAC19 = some (.fcvtToInt .d .rup .int32 24 10) ∧
    decodeTableWord 32 0x32DE999B = some (.fma .h .rdn 19 9 15 25) := by
  decide +kernel

/-- Words of the system group. -/
theorem test_decode_system :
    decodeTableWord 32 0x00E0001F = some (.trap 14) ∧
    decodeTableWord 32 0x0100001F = some (.eret) ∧
    decodeTableWord 32 0x0110001F = some (.halt) ∧
    decodeTableWord 32 0x0120001F = some (.yield) ∧
    decodeTableWord 32 0x0130901F = some (.waite 9) ∧
    decodeTableWord 32 0x10320B1F = some (.sysr 0x103 22) ∧
    decodeTableWord 32 0x1034601F = some (.sysw 0x103 6) ∧
    decodeTableWord 32 0x9A76831F = some (.segld 6 8 0x9a7) ∧
    decodeTableWord 32 0x9A68639F = some (.segst 7 6 0x9a6) := by
  decide +kernel

/-- Words of the load and store group. -/
theorem test_decode_load_store :
    decodeTableWord 32 0xAA267B0B = some (.lb .a 22 7 0x2b3) ∧
    decodeTableWord 32 0xAA668A8B = some (.lh .a 21 8 0x2b3) ∧
    decodeTableWord 32 0xACA68B0B = some (.lw .v 22 8 0x2b3) ∧
    decodeTableWord 32 0xAAE69C0B = some (.ld .a 24 9 0x2b3) ∧
    decodeTableWord 32 0xAB269C8B = some (.lbz .a 25 9 0x2b3) ∧
    decodeTableWord 32 0xAB66AC0B = some (.lhz .a 24 10 0x2b3) ∧
    decodeTableWord 32 0xADA6AC8B = some (.lwz .v 25 10 0x2b3) ∧
    decodeTableWord 32 0xAC20998D = some (.sb .v 16 9 0x2b3) ∧
    decodeTableWord 32 0xAC60A98D = some (.sh .v 16 10 0x2b3) ∧
    decodeTableWord 32 0xAA9AA98D = some (.sw .a 13 10 0x2b3) ∧
    decodeTableWord 32 0xACE4698D = some (.sd .v 18 6 0x2b3) := by
  decide +kernel

/-- Words of the atomic group. -/
theorem test_decode_atomic :
    decodeTableWord 32 0x025EAC0F = some (.amoadd .a true 24 10 15) ∧
    decodeTableWord 32 0x0A1AAA0F = some (.amoand .a false 20 10 13) ∧
    decodeTableWord 32 0x125E8B0F = some (.amoor .a true 22 8 15) ∧
    decodeTableWord 32 0x1A5E8B8F = some (.amoxor .a true 23 8 15) ∧
    decodeTableWord 32 0x22226B8F = some (.amoswap .a false 23 6 17) ∧
    decodeTableWord 32 0x2C247B8F = some (.amomin .v false 23 7 18) ∧
    decodeTableWord 32 0x345C9C8F = some (.amomax .v true 25 9 14) ∧
    decodeTableWord 32 0x3A5E9A8F = some (.amominu .a true 21 9 15) ∧
    decodeTableWord 32 0x42226B8F = some (.amomaxu .a false 23 6 17) ∧
    decodeTableWord 32 0x4A229C0F = some (.amocas .a false 24 9 17) ∧
    decodeTableWord 32 0x521E7A8F = some (.amofadd .a false 21 7 15) ∧
    decodeTableWord 32 0x5A5E8A8F = some (.amofmaxa .a true 21 8 15) ∧
    decodeTableWord 32 0x8240AA0F = some (.synld .a 20 10) ∧
    decodeTableWord 32 0x8C5C800F = some (.synst .v 8 14) ∧
    decodeTableWord 32 0x94406C8F = some (.feread .v 25 6) ∧
    decodeTableWord 32 0x9C5C600F = some (.feset .v 6 14) ∧
    decodeTableWord 32 0x98CA001D = some (.fence 0b100110 .package 0b101) ∧
    decodeTableWord 32 0x0200001D = some (.ifence) := by
  decide +kernel

/-- Words of the vmem group. -/
theorem test_decode_vmem :
    decodeTableWord 32 0x83407BAB = some (.vld .e32 .a 5 23 7) ∧
    decodeTableWord 32 0x4C5279AB = some (.vlds .e16 .v 1 19 7 9) ∧
    decodeTableWord 32 0x939E7C2B = some (.vldx .e32 .a 6 24 7 15) ∧
    decodeTableWord 32 0x9B806C2B = some (.vldff .e32 .a 6 24 6) ∧
    decodeTableWord 32 0x2A2299AB = some (.vldz .e8 .a 19 9 17) ∧
    decodeTableWord 32 0x45C0ACAD = some (.vst .e16 .v 7 25 10) ∧
    decodeTableWord 32 0x0AD2AAAD = some (.vsts .e8 .a 3 21 10 9) ∧
    decodeTableWord 32 0x545CA9AD = some (.vstx .e16 .v 1 19 10 14) ∧
    decodeTableWord 32 0xE5C08CAD = some (.vstb .e64 .v 7 25 8) ∧
    decodeTableWord 32 0xEC207AAD = some (.vstz .e64 .v 21 7 16) := by
  decide +kernel

/-- Words of the vint group. -/
theorem test_decode_vint :
    decodeTableWord 32 0x001A9C21 = some (.vsetl 24 9 13) ∧
    decodeTableWord 32 0xEC409C21 = some (.vsetli 6 2 true true 24 9) ∧
    decodeTableWord 32 0x02DC6AA3 = some (.vadd .vx 3 21 14 6) ∧
    decodeTableWord 32 0x0A6299A3 = some (.vsub .vx 1 19 17 9) ∧
    decodeTableWord 32 0x12E28AA3 = some (.vrsub .vx 3 21 17 8) ∧
    decodeTableWord 32 0x1B5E8BA3 = some (.vmul .vx 5 23 15 8) ∧
    decodeTableWord 32 0x23227B23 = some (.vmulh .vx 4 22 17 7) ∧
    decodeTableWord 32 0x2A9C9A23 = some (.vmulhu .vx 2 20 14 9) ∧
    decodeTableWord 32 0x335A8BA3 = some (.vmacc .vx 5 23 13 8) ∧
    decodeTableWord 32 0x3B5A9BA3 = some (.vnmsac .vx 5 23 13 9) ∧
    decodeTableWord 32 0x43A46C23 = some (.vand .vx 6 24 18 6) ∧
    decodeTableWord 32 0x4A5C99A3 = some (.vor .vx 1 19 14 9) ∧
    decodeTableWord 32 0x529C9A23 = some (.vxor .vx 2 20 14 9) ∧
    decodeTableWord 32 0x5AA4AA23 = some (.vsll .vx 2 20 18 10) ∧
    decodeTableWord 32 0x626469A3 = some (.vsrl .vx 1 19 18 6) ∧
    decodeTableWord 32 0x6B1AAB23 = some (.vsra .vx 4 22 13 10) ∧
    decodeTableWord 32 0x72A28A23 = some (.vmin .vx 2 20 17 8) ∧
    decodeTableWord 32 0x7B1AAB23 = some (.vmax .vx 4 22 13 10) ∧
    decodeTableWord 32 0x83DCACA3 = some (.vminu .vx 7 25 14 10) ∧
    decodeTableWord 32 0x8AA07A23 = some (.vmaxu .vx 2 20 16 7) ∧
    decodeTableWord 32 0x929C8A23 = some (.vfshl .vx 2 20 14 8) ∧
    decodeTableWord 32 0x9A5C99A3 = some (.vfshr .vx 1 19 14 9) ∧
    decodeTableWord 32 0xA1E00CA3 = some (.vclz 7 25 16) ∧
    decodeTableWord 32 0xA9DA0CA3 = some (.vpopc 7 25 13) ∧
    decodeTableWord 32 0xB3E080A3 = some (.vseq .vx 7 1 16 8) ∧
    decodeTableWord 32 0xBB1AA2A3 = some (.vsne .vx 4 5 13 10) ∧
    decodeTableWord 32 0xC2DC8223 = some (.vslt .vx 3 4 14 8) ∧
    decodeTableWord 32 0xCA62A123 = some (.vsltu .vx 1 2 17 10) ∧
    decodeTableWord 32 0xD2A281A3 = some (.vsle .vx 2 3 17 8) ∧
    decodeTableWord 32 0xDBDCA0A3 = some (.vsleu .vx 7 1 14 10) ∧
    decodeTableWord 32 0xE2E27AA3 = some (.vmerge .vx 3 21 17 7) ∧
    decodeTableWord 32 0xEA006AA3 = some (.vmv .vx 21 6) := by
  decide +kernel

/-- Words of the lane and parcels group. -/
theorem test_decode_lane_parcels :
    decodeTableWord 16 0xCA40 = some (.vmvParcel false 25 9) ∧
    decodeTableWord 16 0xCA46 = some (.vaddParcel true 25 9) ∧
    decodeTableWord 16 0xBA4A = some (.vsubParcel true 23 9) ∧
    decodeTableWord 16 0xA24E = some (.vmulParcel true 20 9) ∧
    decodeTableWord 16 0xAA50 = some (.vandParcel false 21 9) ∧
    decodeTableWord 16 0xBA56 = some (.vorParcel true 23 9) ∧
    decodeTableWord 16 0xC25A = some (.vxorParcel true 24 9) ∧
    decodeTableWord 16 0xC25C = some (.vsllParcel false 24 9) ∧
    decodeTableWord 16 0xBA62 = some (.vsrlParcel true 23 9) ∧
    decodeTableWord 16 0xC264 = some (.vminParcel false 24 9) ∧
    decodeTableWord 16 0x9A6A = some (.vmaxParcel true 19 9) ∧
    decodeTableWord 16 0xB26C = some (.vfaddParcel false 22 9) ∧
    decodeTableWord 16 0xA270 = some (.vfsubParcel false 20 9) ∧
    decodeTableWord 16 0xC274 = some (.vfmulParcel false 24 9) ∧
    decodeTableWord 16 0xBA78 = some (.vfmaxParcel false 23 9) ∧
    decodeTableWord 16 0xAA7E = some (.vfminParcel true 21 9) ∧
    decodeTableWord 16 0x0000 = some (.zeroParcel) := by
  decide +kernel

/-- Words of the vfp group. -/
theorem test_decode_vfp :
    decodeTableWord 32 0x07DC8CA5 = some (.vfadd false .vf 7 25 14 8) ∧
    decodeTableWord 32 0x8F626BA5 = some (.vfsub true .vf 5 23 17 6) ∧
    decodeTableWord 32 0x969EAA25 = some (.vfmul true .vf 2 20 15 10) ∧
    decodeTableWord 32 0x1F609BA5 = some (.vfdiv false .vf 5 23 16 9) ∧
    decodeTableWord 32 0xA1DA0CA5 = some (.vfsqrt true 7 25 13) ∧
    decodeTableWord 32 0xAE9AAA25 = some (.vfmacc true .vf 2 20 13 10) ∧
    decodeTableWord 32 0xB7DEACA5 = some (.vfnmacc true .vf 7 25 15 10) ∧
    decodeTableWord 32 0xBFA2AC25 = some (.vfmin true .vf 6 24 17 10) ∧
    decodeTableWord 32 0xC65A79A5 = some (.vfmax true .vf 1 19 13 7) ∧
    decodeTableWord 32 0xCF1AAB25 = some (.vfsgnj true .vf 4 22 13 10) ∧
    decodeTableWord 32 0xD65EA125 = some (.vfeq true .vf 1 2 15 10) ∧
    decodeTableWord 32 0xDF1AA2A5 = some (.vflt true .vf 4 5 13 10) ∧
    decodeTableWord 32 0x66E0A225 = some (.vfle false .vf 3 4 16 10) ∧
    decodeTableWord 32 0xE9A20C25 = some (.vfclass true 6 24 17) := by
  decide +kernel

/-- Words of the vperm group. -/
theorem test_decode_vperm :
    decodeTableWord 32 0x015AABA7 = some (.vredsum 5 23 13 10) ∧
    decodeTableWord 32 0x0920AB27 = some (.vredmax 4 22 16 10) ∧
    decodeTableWord 32 0x109A7A27 = some (.vredmaxu 2 20 13 7) ∧
    decodeTableWord 32 0x189C8A27 = some (.vredmin 2 20 14 8) ∧
    decodeTableWord 32 0x21E2ACA7 = some (.vredminu 7 25 17 10) ∧
    decodeTableWord 32 0x299E6C27 = some (.vredand 6 24 15 6) ∧
    decodeTableWord 32 0x306299A7 = some (.vredor 1 19 17 9) ∧
    decodeTableWord 32 0x386089A7 = some (.vfredosum 1 19 16 8) ∧
    decodeTableWord 32 0x419E8C27 = some (.vfredtsum 6 24 15 8) ∧
    decodeTableWord 32 0x486079A7 = some (.vfredmax 1 19 16 7) ∧
    decodeTableWord 32 0x519CAC27 = some (.vfredmin 6 24 14 10) ∧
    decodeTableWord 32 0x80800A27 = some (.vid 2 20) ∧
    decodeTableWord 32 0x8A9A7A27 = some (.vslideup .vx 2 20 13 7) ∧
    decodeTableWord 32 0x93248B27 = some (.vslidedn .vx 4 22 18 8) ∧
    decodeTableWord 32 0x9A9C6A27 = some (.vslide1up 2 20 14 6) ∧
    decodeTableWord 32 0xA31A7B27 = some (.vslide1dn 4 22 13 7) ∧
    decodeTableWord 32 0xAB609BA7 = some (.vgather .vx 5 23 16 9) ∧
    decodeTableWord 32 0xB02239A7 = some (.vcompress 19 17 3) ∧
    decodeTableWord 32 0xBA247CA7 = some (.vextract .vx 25 18 7) ∧
    decodeTableWord 32 0xC224AAA7 = some (.vinsert 21 18 10) := by
  decide +kernel

/-- Words of the vmask and vcvt group. -/
theorem test_decode_vmask_vcvt :
    decodeTableWord 32 0x000E62A9 = some (.mand 5 6 7) ∧
    decodeTableWord 32 0x080413A9 = some (.mor 7 1 2) ∧
    decodeTableWord 32 0x100620A9 = some (.mxor 1 2 3) ∧
    decodeTableWord 32 0x180A41A9 = some (.mandn 3 4 5) ∧
    decodeTableWord 32 0x20020BA9 = some (.mpopc 23 1) ∧
    decodeTableWord 32 0x280E0B29 = some (.mfirst 22 7) ∧
    decodeTableWord 32 0x30020329 = some (.msbf 6 1) ∧
    decodeTableWord 32 0x271C4B2F = some (.vcvt .int32 .e4m3 true 4 22 14) ∧
    decodeTableWord 32 0x501C7AAF = some (.vqscale .e4m3 21 14 7) ∧
    decodeTableWord 32 0xAE240BAF = some (.vdxbpack true 11 23 18) ∧
    decodeTableWord 32 0xE02209AF = some (.vdxbunpack true 19 17) := by
  decide +kernel

/-- Words of the matrix group. -/
theorem test_decode_matrix :
    decodeTableWord 32 0x04000031 = some (.mzero 2) ∧
    decodeTableWord 32 0x34C06831 = some (.mma true false 2 3 16 6) ∧
    decodeTableWord 32 0x4CC0A831 = some (.mmar false true 2 3 16 10) ∧
    decodeTableWord 32 0x6600A031 = some (.mlda 3 10) ∧
    decodeTableWord 32 0x84008031 = some (.msta 2 8) ∧
    decodeTableWord 32 0xACE48831 = some (.mmasN1 false true 2 3 16 8 18) ∧
    decodeTableWord 32 0xD6DA9831 = some (.mmasN2 true false 3 3 16 9 13) ∧
    decodeTableWord 32 0xEEDE6831 = some (.mmasN4 false true 3 3 16 6 15) := by
  decide +kernel

/-- Words of the engines group. -/
theorem test_decode_engines :
    decodeTableWord 32 0x03F28B33 = some (.cpy .a 7 22 8 25) ∧
    decodeTableWord 32 0x0DB279B3 = some (.cpym .v 6 19 7 25) ∧
    decodeTableWord 32 0x11C00033 = some (.cwait 7) ∧
    decodeTableWord 32 0x19C00CB3 = some (.cpoll 7 25) ∧
    decodeTableWord 32 0x0022F035 = some (.cbwait 15 17) ∧
    decodeTableWord 32 0x0820E035 = some (.cbpost 14 16) ∧
    decodeTableWord 32 0x1020E035 = some (.cbfree 14 16) ∧
    decodeTableWord 32 0x1800EBB5 = some (.cbstat 14 23) ∧
    decodeTableWord 32 0x02DA9037 = some (.npush true .w 9 13) ∧
    decodeTableWord 32 0x08627037 = some (.npushv false .e 7 17) ∧
    decodeTableWord 32 0x109C0BB7 = some (.npop false .s 23 14) ∧
    decodeTableWord 32 0x1B240B37 = some (.npopv true .t 22 18) ∧
    decodeTableWord 32 0x21200CB7 = some (.npeek .t 25 16) ∧
    decodeTableWord 32 0x28C00A37 = some (.nstat .w 20) := by
  decide +kernel

/-- Words of the ports and tasks group. -/
theorem test_decode_ports_tasks :
    decodeTableWord 32 0x00206039 = some (.pbind 6 16) ∧
    decodeTableWord 32 0x08229039 = some (.psend 9 17) ∧
    decodeTableWord 32 0x1022A039 = some (.precv 10 17) ∧
    decodeTableWord 32 0x18007B39 = some (.pstat 22 7) ∧
    decodeTableWord 32 0x0200A03B = some (.fork .a 10) ∧
    decodeTableWord 32 0x0A00803B = some (.join .a 8) ∧
    decodeTableWord 32 0x1400003B = some (.tend .v) ∧
    decodeTableWord 32 0x0000303D = some (.barc 3) ∧
    decodeTableWord 32 0x0800F03D = some (.bark 15) := by
  decide +kernel

/-! ### Rejections -/

/-- Each check of `Instr.wf` refuses a term that fails it: short loops (R104), FCVT of a format to itself and to a floating type (R58), a
number R64 does not assign, forms that R66 and R67 do not have, the zero parcel (R46), equal types and other targets (R70), a shift
of 0, a format of a scratchpad pair (R71), a parcel as a 32-bit word (R44). -/
theorem test_wf_refuses : ([.loop 0 3 1, .loopi 1 4 0, .fcvtToFp .s .rne .fp32 1 2, .fcvtSat .bf .rne .bf16 1 2, .fcvtToInt .d .rne .fp32 1 2,
    .sysr 0x11 3, .sysw 0x108 3, .vadd .vf 0 1 2 3, .vsub .vi 0 1 2 3, .vrsub .vv 0 1 2 3, .vfadd false .vx 0 1 2 3, .vmvParcel false 0 0,
    .vcvt .fp32 .fp32 false 0 1 2, .vqscale .fp32 1 2 3, .vdxbpack false 0 1 2, .mma true true 0 1 2 4, .mmasN4 true true 0 7 2 4 6,
    .invalidInstruction .unassigned 0x1000] : List Instr).all (fun i => !i.wf) = true := by decide +kernel

/-- An event that names an agent out of range is refused: cores, threads, clusters, ports, dies, components, hosts, gateways, lengths. -/
theorem test_event_range : ([(.taskTake, Arg.num 8192), (.watchdog, Arg.num 131072), (.prismBind, Arg.num 512),
    (.intervalClose, Arg.num 8192), (.beaconTimer, Arg.num2 3 3), (.flitReplay, Arg.num2 10 0), (.flitReceive, Arg.num2 10 1),
    (.replicaDrop, Arg.num 8), (.faultRecordRelease, Arg.num 64), (.componentEnd, Arg.num2 4096 0), (.componentSuspend, Arg.num2 0 64),
    (.shootdownAck, Arg.num2 0 512), (.stepSlot, Arg.num 256), (.mailboxWrite, Arg.num2 64 0), (.claim, Arg.num 4096), (.handover, Arg.num2 0 4096),
    (.attestQuote, Arg.num 1), (.ergPacketReceive, Arg.num 2), (.gatewayResendTimeout, Arg.num 2), (.tokenAdd, Arg.num2 0 4096),
    (.tokenBucketSet, Arg.num2 0 2), (.trafficMinSet, Arg.num 0), (.add 1 2 3, Arg.none)] : List (Instr × Arg)).all
      (fun p => !eventOk p.1 p.2) = true := by decide +kernel

/-- R45: a reserved major opcode, an unassigned function value, a nonzero bit that shall be zero, and a word cut short. -/
theorem test_decode_rejects :
    decode (bytesOf 4 0x00000001) = .reject .reservedMajor 0x00000001 [] ∧
    decode (bytesOf 4 0x33000003) = .reject .unassigned 0x33000003 [] ∧
    decode (bytesOf 4 0x60020003) = .reject .reservedBit 0x60020003 [] ∧
    decode (bytesOf 2 0x0003) = .short ∧ decode [0, 0] = .instr .zeroParcel 2 [] := by decide +kernel

/-! ### Small states -/

/-- A segment image: base, limit, rights (1 read, 2 write, 4 execute, 8 atomic). -/
def sgi (base limit rights : Nat) : BitVec 128 := BitVec.ofNat 128 (base + rights * 2 ^ 57 + limit * 2 ^ 64)
/-- The local store of core 0, and a line of slice 0. -/
def ls : Nat := 0x100000000000000
def sl : Nat := 0x108000000001000
def t0 : Thread := { Thread.init with
  g := ⟨[(1, 0x1000), (3, 5), (8, 0x2000000000001000), (9, 0x4000000000001000), (10, 0x5555)]⟩
  seg := ⟨[(0, sgi ls 0x100000 15), (1, sgi (ls + 2 ^ 51) 0x100000 15), (2, sgi 0 0x10000000000 15), (4, sgi ls 0x1000 7),
    (5, sgi ls 0x1000 1), (6, sgi ls 0x1000 2), (7, sgi ls 0x100000000000000 15)]⟩
  pc := 0x400, vtype := 2, vl := 4, trapvec := 0x800, asid := 5, st := .inflight, winSize := 128, issuedAt := 10 }
def k0 : Core := { Core.init with comp := some 0 }
def c0 : Component := { noComponent with clmask := [1], asid := 5, valid := true, stealdom := 1 }
/-- Thread 0 of core 0 executes; cores 0 and 1 belong to component 0. -/
def s0 : State := { State.reset with
  now := 10, nextId := 30, resident := true, threads := ⟨[(0, t0), (1, { Thread.init with st := .idle, winSize := 4, idleSince := 3 })]⟩
  cores := ⟨[(0, k0), (1, k0)]⟩, comps := ⟨[(0, c0)]⟩, asids := ⟨[(5, ⟨true, 0x100000, 0, 0x10000000⟩)]⟩
  tags := ⟨[(sl / 64, 5)]⟩, mem := ⟨[(ls + 0x1000, 5), (ls + 0x1004, 0x83)]⟩ }
def up (f : Thread → Thread) (s : State := s0) : State := s.modThread 0 f
def core (f : Core → Core) (s : State := s0) : State := s.modCore 0 f
def g3 (v : Word) : State := up fun t => { t with g := t.g.set 0 3 v }
def put (loc : Nat) (b : List Byte) (s : State := s0) : State := { s with mem := writeMem s.mem loc b }
def words (l : List Nat) : List Byte := l.flatMap (bytesOf 8)
/-- Thread 0 waits. -/
def parks (act : Act) (why : Why) (reqs : List Nat := []) (s : State := s0) : State :=
  up (fun t => { t with st := .parked, wait := some ⟨act, why, 4, reqs, [], none⟩ }) s
def rq (op : ROp) (loc : Nat) (ph : Phase) (tries : Nat := 0) : Req :=
  ⟨7, .thread 0 0, 0, .o, op, loc, 0x2000000000001000, loc, 5, false, 0, 0, false, none, none, none, ph, tries, false⟩
def busy : State := { s0 with net := [rq (.write [1]) sl .sent] }
def okBytes (x : Except State (List Byte × State)) : Option (List Byte) := match x with | .ok p => some p.1 | .error _ => none

/-! ### Witnesses: for each statement with hypotheses, states and operands that meet those of each clause -/

theorem witness_DivisionsAndTheirTrap : s0.g 3 ≠ 0 ∧ s0.g 4 = 0 := by decide +kernel

theorem witness_ScalarFloatResults :
    (∀ k, k < 5 → ¬ trapOn 0 fNX k) ∧ firstTrap 0x1F00 (fNV ||| fNX) 4 ∧ firstTrap 0x1000 fNV 4 ∧ (fAdd FP32 .rne 0x7F800000 0xFF800000).2 = fNV := by
  refine ⟨?_, ⟨by decide, ?_, fun j h h' => absurd h' (by omega)⟩, ⟨by decide, ?_, fun j h h' => absurd h' (by omega)⟩, by decide +kernel⟩ <;> unfold trapOn <;> decide

theorem witness_ScalarConversionResults : (CvtTy.int64 = .int64) ∧ (CvtTy.uint32 = .uint32) ∧
    (fToInt .rtz (-2 ^ 63) (2 ^ 63 - 1) (decodeF FP64 0x3FF8000000000000)).1 = 1 := by decide +kernel

theorem witness_FloatSpecialResults :
    FP16 ∈ [FP64, FP32, FP16, BF16, E4M3, E5M2] ∧ 0x7BFF < 2 ^ FP16.width ∧ decodeF FP16 0x7BFF = .fin false 2047 5 ∧
    (∃ m e, decodeF FP16 0x3C00 = .fin false m e ∧ m ≠ 0) ∧ (∃ e, decodeF FP16 0x8000 = .fin true 0 e) ∧
    decodeF FP16 0xFC00 = .inf true ∧ (∃ m e, decodeF FP16 0xBC00 = .fin true m e ∧ m ≠ 0) ∧
    decodeF FP16 0xBC00 = (decodeF FP16 0x3C00).neg := by
  exact ⟨by decide +kernel, by decide +kernel, by decide +kernel, ⟨1024, -10, by decide +kernel, by decide⟩, ⟨-24, by decide +kernel⟩,
    by decide +kernel, ⟨1024, -10, by decide +kernel, by decide⟩, by decide +kernel⟩

theorem witness_LoopsSetUpTheirLevel : 2 ≤ (2 : BitVec 12).toNat ∧ s0.g 3 ≠ 0 ∧ s0.g 4 = 0 ∧ (s0.fetchAt 0 0x404).1 = .parcel 0 ∧
    ((up fun t => { t with seg := .empty }).fetchAt 0 0x404).1 = .bad 0x10 ∧
    ((up fun t => { t with seg := ⟨[(0, sgi 0 0x100000 15)]⟩ }).fetchAt 0 0x404).1 = .absent 0x404 := by decide +kernel

theorem witness_EretReturns : (up fun t => { t with priv := 1 }).th.priv.getLsbD 0 = true ∧ s0.th.priv.getLsbD 0 = false ∧
    ∃ t u, s0.raise 0x38 7 = .next t ∧ exec .eret t = .next u := ⟨by decide +kernel, by decide +kernel, _, _, rfl, rfl⟩

theorem witness_SysrReads : (0 < 8 ∧ 7 < 8) ∧ (16 ≤ 16 ∧ 16 ≤ 63 ∧ 63 < 64) := by decide

theorem witness_SyswWrites :
    ((g3 0xFFFF).g 3).toNat < 2 ^ 16 ∧ (g3 0x1F7F).g 3 &&& 0xFFFFFFFFFFFFE080 = 0 ∧
    (up fun t => { t with priv := 1 }).th.priv.getLsbD 0 = true ∧ ((g3 0xFF).g 3).toNat < 2 ^ 8 ∧ ((g3 0xFFFE).g 3).getLsbD 0 = false ∧
    ((g3 3).g 3).toNat < 4 ∧ (s0.core 0).recent.Pairwise (fun x y => y.1 ≤ x.1) ∧ ((g3 1).g 3).toNat < 2 ∧
    ((g3 0xFF09).g 3 &&& 0xFFFFFFFFFFFF00F0 = 0 ∧ ((g3 0xFF09).g 3).toNat % 16 ≤ 9) ∧
    (let v := ((g3 0x6FFFC0).g 3).toNat; v < 2 ^ 25 ∧ 6 = v / 2 ^ 20 ∧ v % 2 ^ 20 % 2 ^ 6 = 0) ∧
    (let v := ((g3 0x1400000).g 3).toNat; v < 2 ^ 25 ∧ 20 = v / 2 ^ 20 ∧ v % 2 ^ 20 % 2 ^ 20 = 0) ∧
    (let v := ((g3 0xFFFFF).g 3).toNat; v < 2 ^ 25 ∧ 0 = v / 2 ^ 20 ∧ v % 2 ^ 20 % 2 ^ 0 = 0) := by decide +kernel

theorem witness_SyswRefuses :
    16 ∈ [0, 1, 7, 8, 9, 10, 12, 13, 16] ∧ (15 ∈ [4, 5, 6, 11, 14, 15] ∧ ¬ s0.th.priv.getLsbD 0 = true) ∧ 2 ^ 16 ≤ ((g3 0x10000).g 3).toNat ∧
    (g3 0x80).g 3 &&& 0xFFFFFFFFFFFFE080 ≠ 0 ∧ 2 ^ 8 ≤ ((g3 0x100).g 3).toNat ∧ ((g3 1).g 3).getLsbD 0 = true ∧ 2 ≤ ((g3 2).g 3).toNat ∧
    4 ≤ ((g3 4).g 3).toNat ∧ (up fun t => { t with priv := 1 }).th.priv.getLsbD 0 = true ∧ (g3 0x10).g 3 &&& 0xFFFFFFFFFFFF00F0 ≠ 0 ∧
    ((g3 0xA).g 3 &&& 0xFFFFFFFFFFFF00F0 = 0 ∧ 9 < ((g3 0xA).g 3).toNat % 16) ∧ 2 ^ 25 ≤ ((g3 0x2000000).g 3).toNat := by decide +kernel

/-- The access of the own local store, and of a slice with no store in flight to the line. -/
theorem witness_LoadsReadTheirBytes :
    (let x := s0.access 0 0xFFFFC 4 4 .load needR; x.1 = .ok (ls + 0xFFFFC) ∧ ownLs s0 (ls + 0xFFFFC) ∧ x.2.poisoned (ls + 0xFFFFC) = false) ∧
    (let x := s0.access 0 0x2000000000001000 8 8 .load needR; x.1 = .ok sl ∧ ¬ ownLs s0 sl ∧ x.2.lineBusy 0 sl 8 = false) := by decide +kernel

theorem witness_StoresWriteTheirBytes :
    (let x := s0.access 0 0x1008 2 2 .store needW; x.1 = .ok (ls + 0x1008) ∧ ownLs s0 (ls + 0x1008) ∧ x.2.cwRefuse (ls + 0x1008) [1, 2] false = none) ∧
    (let x := busy.access 0 0x2000000000001000 8 8 .store needW; x.1 = .ok sl ∧ ¬ ownLs busy sl ∧
      x.2.cwRefuse sl (bytesOf 8 1) false = none ∧ x.2.inFlight 0 < 16) ∧
    (s0.access 0 0x1010 16 16 .store needW).1 = .ok (ls + 0x1010) := by decide +kernel

theorem witness_AccessChecksTrap :
    (s0.access 0 0xFFFFE 4 4 .load needR).1 = .bad 0x10 ∧ (s0.access 0 0x4000000000001000 4 4 .atomic needRWA).1 = .absent 0x1000 ∧
    (s0.access 0 0x2000000000001000 8 8 .fe needRWA).1 = .bad 0x3A ∧
    (let x := s0.access 0 0xE000000000610080 8 8 .store needW; x.1 = .ok (ls + 0x610080) ∧
      x.2.cwRefuse (ls + 0x610080) (lowBytes 0x10 8) false = some 0x03) ∧
    needR.x = false ∧ 0x1000 < 0xFFD + 4 ∧ (0xFFC + 4 ≤ 0x1000 ∧ needR.r = true ∧ (s0.th.seg.get 0 6).getLsbD 57 = false) ∧
    ((s0.th.seg.get 0 5).getLsbD 57 = true ∧ needW.w = true ∧ (s0.th.seg.get 0 5).getLsbD 58 = false) ∧
    ((s0.th.seg.get 0 4).getLsbD 57 = true ∧ (s0.th.seg.get 0 4).getLsbD 58 = true ∧ needRWA.a = true ∧ (s0.th.seg.get 0 4).getLsbD 60 = false) ∧
    ((s0.th.seg.get 0 0).getLsbD 57 = true ∧ (s0.th.seg.get 0 0).getLsbD 58 = true ∧ (s0.th.seg.get 0 0).getLsbD 60 = true ∧
      (0x1001 % 4 ≠ 0 ∧ 0x1000 % 4 = 0)) := by decide +kernel

/-- The root of ASID 5's tables at 0x100000 points to a node that holds a leaf of 128 MiB at level 1, as far as its entries are given. -/
def paged (top mid low : Nat) : State :=
  put 0x100000 (bytesOf 8 top) (put 0x104000 (bytesOf 8 mid) (put 0x108000 (bytesOf 8 low) s0))
/-- A walk that ends at the root, absent; one with a reserved bit in the entry there; one that ends in a leaf; windows, with and without a
tag of the ASID, and the control window of a core of its own component and of none. -/
theorem witness_Translation :
    let r := s0.asids.get noAsid 5
    (r.live = true ∧ (s0.asids.get noAsid 6).live = false ∧ (0x1000 < 2 ^ 56)) ∧
    ((s0.cluster 0).tlb ++ (s0.die 0).tlb = [] ∧ [r.root].head? = some r.root ∧ (pteAt s0 0x100000 3 0x1000).getLsbD 0 = false) ∧
    ((pteAt (paged 0x104081 0 0) 0x100000 3 0x1000).getLsbD 0 = true ∧ ¬ pteGood r 3 (pteAt (paged 0x104081 0 0) 0x100000 3 0x1000)) ∧
    (let s := paged 0x104001 0x108001 0x800003F
     walks s r 0x1000 [0x100000, 0x104000, 0x108000] ∧ (pteAt s 0x108000 1 0x1000).getLsbD 0 = true ∧
      pteGood r 1 (pteAt s 0x108000 1 0x1000) ∧ (pteAt s 0x108000 1 0x1000).getLsbD 1 = true) ∧
    (decodeWin (ls + 2 ^ 52 * 8) = none ∧ decodeWin sl = some (.slice 0 0) ∧ tagged s0 sl 64 5 ∧ ¬ tagged s0 sl 65 5 ∧
      decodeWin (ls + 0x1000) = some (.core 0 0x1000)) ∧
    (decodeWin (ls + 0x610008) = some (.core 0 0x610008) ∧ (s0.core 0).comp ≠ none ∧ (s0.compOf 0).asid = 5 ∧
      decodeWin (ls + 2 ^ 42 + 0x610008) = some (.core 2 0x610008) ∧ (s0.core 2).comp = none) := by
  have w (s : State) (h : (pteAt s 0x100000 3 0x1000).toNat = 0x104001) (h' : (pteAt s 0x104000 2 0x1000).toNat = 0x108001) :
      walks s (s0.asids.get noAsid 5) 0x1000 [0x100000, 0x104000, 0x108000] := by
    refine ⟨by decide +kernel, by decide, fun i hi => ?_⟩
    have e : pteAt s 0x100000 3 0x1000 = 0x104001 := BitVec.eq_of_toNat_eq h
    have e' : pteAt s 0x104000 2 0x1000 = 0x108001 := BitVec.eq_of_toNat_eq h'
    match i, hi with
    | 0, _ => simp only [List.getD_cons_zero, Nat.sub_zero, e]; unfold pteGood; decide +kernel
    | 1, _ => simp only [List.getD_cons_succ, List.getD_cons_zero, Nat.reduceSub, e']; unfold pteGood; decide +kernel
  refine ⟨by decide +kernel, by decide +kernel, ⟨by decide +kernel, by unfold pteGood; decide +kernel⟩,
    ⟨w _ (by decide +kernel) (by decide +kernel), by decide +kernel, by unfold pteGood; decide +kernel, by decide +kernel⟩,
    ⟨by decide +kernel, by decide +kernel, fun l h h' => ?_, fun h => ?_, by decide +kernel⟩, by decide +kernel⟩
  · have : l = sl / 64 := by simp only [sl] at *; omega
    subst this; decide +kernel
  · exact absurd (h (sl / 64 + 1) (by simp only [sl]; omega) (by simp only [sl]; omega)) (by decide +kernel)

theorem witness_SynchronisingOperationsAskTheirHome :
    (let x := s0.access 0 0x1000 4 4 .atomic needRWA; x.1 = .ok (ls + 0x1000) ∧ x.2.lineBusy 0 (ls + 0x1000) 4 = false) ∧
    (let x := s0.access 0 0x2000000000001000 8 8 .atomic needRWA; x.1 = .ok sl ∧ x.2.lineBusy 0 sl 8 = false) ∧
    (let x := s0.access 0 0x1000 8 8 .fe needRWA; x.1 = .ok (ls + 0x1000) ∧ x.2.lineBusy 0 (ls + 0x1000) 8 = false ∧ x.2.pathTDone 0 = true) ∧
    (let x := busy.access 0 0x1000 8 8 .fe needRWA; x.1 = .ok (ls + 0x1000) ∧ x.2.lineBusy 0 (ls + 0x1000) 8 = false ∧ x.2.pathTDone 0 = false) := by
  decide +kernel

/-- An image with limit 0x100000 at the base of the local store, and one with a reserved bit. -/
theorem witness_SegldLoadsAnImage :
    let p (b : List Byte) : State := put (ls + 0x1000) b (up fun t => { t with priv := 1 })
    s0.th.priv.getLsbD 0 = false ∧ (p []).th.priv.getLsbD 0 = true ∧
    (let b := bytesOf 16 (sgi ls 0x100000 15).toNat;
      okBytes ((p b).readBlock 0 (.segld 2 0x1000) 0x1000 16 16 .o []) = some b ∧ segOk (BitVec.ofNat 128 (leNat b)) = true) ∧
    (let b := bytesOf 16 (2 ^ 61);
      okBytes ((p b).readBlock 0 (.segld 2 0x1000) 0x1000 16 16 .o []) = some b ∧ segOk (BitVec.ofNat 128 (leNat b)) = false) ∧
    okBytes ((p []).readBlock 0 (.segld 2 0x1008) 0x1008 16 16 .o []) = none := by decide +kernel

/-- Two operand groups at the edges of the window of 128 registers, in every grouping. -/
theorem witness_VectorIntegerResults : VForm.vx ≠ .vf ∧ vtypeOk s0.th ∧ groupOk s0.th 127 1 1 ∧ groupOk s0.th 0 s0.th.grp s0.th.grp ∧
    (let s := up fun t => { t with vtype := 0x1B }; vtypeOk s.th ∧ s.th.grp = 8 ∧ groupOk s.th 120 s.th.grp s.th.grp) := by decide +kernel

theorem witness_LaneParcelResults : vtypeOk s0.th ∧ groupOk s0.th 31 s0.th.grp s0.th.grp ∧ ((0 : Reg) ≠ 0 ∨ (0 : Reg) ≠ 0 ∨ true = true) := by
  decide +kernel

theorem witness_VectorCompareResults : VForm.vi ≠ .vf ∧ (VForm.vf = .vv ∨ VForm.vf = .vf) ∧ vtypeOk s0.th ∧
    vfFormat false s0.th.sew = some FP32 ∧ groupOk s0.th 31 s0.th.grp s0.th.grp := by decide +kernel

theorem witness_VectorChecksTrap :
    (up fun t => { t with vtype := 0x8000000000000000 }).th.vtype.getLsbD 63 = true ∧
    (let s := up fun t => { t with vtype := 8, winSize := 8 }
     s.th.vtype.getLsbD 63 = false ∧ ¬ (7 + s.th.grp ≤ s.th.winSize) ∧ (6 + s.th.grp ≤ s.th.winSize ∧ 6 % s.th.grp = 0) ∧
      (5 + s.th.grp ≤ s.th.winSize ∧ ¬ 5 % s.th.grp = 0)) := by decide +kernel

/-- Both ends: no enabled flag, and an element that raises an enabled NV. -/
theorem witness_VectorFloatResults : vtypeOk s0.th ∧ vfFormat false s0.th.sew = some FP32 ∧
    vfFormat true (up fun t => { t with vtype := 1 }).th.sew = some BF16 ∧ groupOk s0.th 31 s0.th.grp s0.th.grp ∧
    (∀ k, k < 5 → s0.th.fcsr.getLsbD (8 + k) = false) ∧
    (let s := up fun t => { t with fcsr := 0x1000 }
     s.th.fcsr.getLsbD (8 + 4) = true ∧ vactive s.th true 0 0 ∧ (fAdd FP32 .rne 0x7F800001 0).2.getLsbD 4 = true) := by decide +kernel

theorem witness_ReductionResults : vtypeOk s0.th ∧ vfFormat false s0.th.sew = some FP32 ∧ groupOk s0.th 127 1 1 ∧
    groupOk s0.th 31 s0.th.grp s0.th.grp ∧ s0.th.vl.toNat ≠ 0 ∧ trapFlag s0.th.fcsr (unionFlags [(0, fNV)]) = none ∧
    trapFlag 0x1000 (unionFlags [(0, fNV)]) = some 4 := by decide +kernel

theorem witness_PermutationResults : vtypeOk s0.th ∧ groupOk s0.th 31 s0.th.grp s0.th.grp ∧ groupOk s0.th 30 s0.th.grp s0.th.grp ∧
    apart 30 1 31 1 ∧ apart 31 1 30 1 ∧ VForm.vx ≠ .vv := by decide +kernel

theorem witness_MaskInstructionResults : vtypeOk s0.th ∧
    (let s := up fun t => { t with m := ⟨[(1, 0x8)]⟩ }
     3 < s.th.vl.toNat ∧ (s.th.rdM 1).getLsbD 3 = true ∧ (∀ j, j < 3 → (s.th.rdM 1).getLsbD j = false) ∧
      ∀ i, i < s.th.vl.toNat → (s.th.rdM 2).getLsbD i = false) := by decide +kernel

theorem witness_VectorConversionResults : VTy.fp32 ≠ .fp16 ∧ vtypeOk s0.th ∧ s0.th.sew = max VTy.fp32.width VTy.fp16.width ∧
    groupOk s0.th 31 1 1 ∧ apart 30 1 31 1 ∧ (VTy.int32 ≠ .fp32 ∧ s0.th.sew = max VTy.int32.width VTy.fp32.width) := by decide +kernel

theorem witness_BlockFormatResults : VTy.int8.isScaleTarget = true ∧ vtypeOk s0.th ∧ blockSource s0.th.sew = some FP32 ∧
    groupOk s0.th 28 1 1 ∧ groupOk s0.th 29 s0.th.grp s0.th.grp ∧ groupOk s0.th 31 1 1 ∧ apart 28 1 29 1 ∧ apart 28 1 31 1 ∧ apart 29 1 31 1 ∧
    s0.th.vl.toNat ≠ 0 ∧ (1 : Fin 16) ≠ 0 := by decide +kernel

/-- Four words of the own local store; the limit of the segment stops the fourth element; a byte mask. -/
theorem witness_VectorLoadsAndStores :
    let s := up fun t => { t with seg := ⟨[(0, sgi ls 0x100C 15)]⟩ }
    (vtypeOk s0.th ∧ s0.th.vl.toNat ≤ s0.th.vlmax) ∧ groupOk s0.th 31 s0.th.grp s0.th.grp ∧ ewBits .e32 = s0.th.sew ∧ apart 31 1 30 1 ∧
    (∀ j, vactive s0.th true 0 j → loadable s0 32 (addOff 0x1000 ((j * 4 : Nat) : Int)) (ls + 0x1000 + 4 * j)) ∧
    (vactive s.th true 0 3 ∧ s.access 0 0x100C 4 4 .load needR = (.bad 0x10, s)) ∧
    (∀ k, k < 3 → vactive s.th true 0 k → loadable s 32 (addOff 0x1000 ((k * 4 : Nat) : Int)) (ls + 0x1000 + 4 * k)) ∧
    (∀ j, j < 4 → vactive s0.th true 0 j →
      s0.access 0 (addOff 0x1000 ((j * 4 : Nat) : Int)) 4 4 .store needW = (.ok (ls + 0x1000 + 4 * j), s0) ∧ ownLs s0 (ls + 0x1000 + 4 * j)) ∧
    ((s.th.rdM 0).getLsbD 12 = true ∧ s.access 0 0x100C 1 1 .store needW = (.bad 0x10, s)) ∧
    (∀ j : Nat, j < 12 → s.access 0 (addOff 0x1000 (j : Int)) 1 1 .store needW = (.ok (ls + 0x1000 + j), s) ∧ ownLs s (ls + 0x1000 + j)) := by
  have h : ∀ j, j < 4 → loadable s0 32 (addOff 0x1000 ((j * 4 : Nat) : Int)) (ls + 0x1000 + 4 * j) := by decide +kernel
  exact ⟨by decide +kernel, by decide +kernel, by decide +kernel, by decide +kernel, fun j hj => h j hj.2.1, by decide +kernel,
    by decide +kernel, by decide +kernel, by decide +kernel, by decide +kernel⟩

/-- A record of 24 bytes for two elements, one of them 0; too small a region; a record stored over its size. -/
theorem witness_CompressedRecords :
    let s := put (ls + 0x1000) (compress 32 [7, 0]) s0
    vtypeOk s0.th ∧ ewBits .e32 = s0.th.sew ∧ groupOk s0.th 31 s0.th.grp s0.th.grp ∧ s0.th.vl ≠ 0 ∧
    (s0.g 3).toNat < (compress 32 [0, 0, 0, 0]).length ∧ ((compress 32 [0, 0, 0, 0]).length ≤ (s0.g 10).toNat ∧ s0.th.wait = none ∧
      ∀ i, i < 16 → s0.access 0 (addOff 0x1000 (i : Nat)) 1 (if i = 0 then 8 else 1) .store needW = (.ok (ls + 0x1000 + i), s0) ∧
        ownLs s0 (ls + 0x1000 + i)) ∧
    (∀ x ∈ [7, 0], x < 2 ^ 32) ∧ [7, 0].length ≤ s.th.vlmax ∧ ownRegion s 0x1000 (compress 32 [7, 0]).length (ls + 0x1000) ∧
    (compress 32 [7, 0]).length ≤ (s.g 10).toNat ∧
    readMem s.mem (ls + 0x1000) (compress 32 [7, 0]).length = compress 32 [7, 0] :=
  ⟨by decide +kernel, by decide +kernel, by decide +kernel, by decide +kernel, by decide +kernel, by decide +kernel,
    by decide +kernel, by decide +kernel, ⟨by decide +kernel, by decide +kernel⟩, by decide +kernel, by decide +kernel⟩

theorem witness_FencesWaitForWhatTheyName :
    s0.th.mxErr = none ∧ ¬ unperformed s0 1 1 ∧ unperformed busy 1 1 ∧
    ((1 : BitVec 6).getLsbD 2 = true → False) ∧ ((4 : BitVec 6).getLsbD 2 = true ∧ (up fun t => { t with mxErr := some ⟨0x65, 0x300⟩ }).th.mxErr = some ⟨0x65, 0x300⟩) ∧
    (∀ r ∈ s0.net, r.tid? = some s0.cur → r.isWrite = false) ∧ (∃ r ∈ busy.net, r.tid? = some busy.cur ∧ r.isWrite = true) := by
  refine ⟨by decide +kernel, ?_, .inl ⟨by decide, by decide +kernel⟩, by decide, by decide +kernel, by decide +kernel, by decide +kernel⟩
  rintro (⟨_, h⟩ | ⟨h, _⟩ | ⟨h, _⟩ | ⟨_, ⟨h, _⟩ | ⟨h, _⟩ | ⟨h, _⟩⟩) <;> revert h <;> decide +kernel

def en : Entry := ⟨0x1234, 3, true, none⟩
/-- Lane 15 has a window, so the queue from T has a link on both sides. -/
def linked (f : Thread → Thread) : State :=
  up f { s0 with threads := s0.threads.set Thread.init 15 { Thread.init with winSize := 1 } }

theorem witness_NeighbourPorts :
    (s0.receiver 0 .t = some 1 ∧ s0.th.credit .t = 4 ∧ s0.receiver 0 .n = none) ∧ (up fun t => { t with credits := ⟨[(4, 0)]⟩ }).th.credit .t = 0 ∧
    (s0.th.credit .t ≠ 0 ∧ (∃ r ∈ busy.net, r.tid? = some busy.cur) ∧ ∀ r ∈ s0.net, r.tid? ≠ some s0.cur) ∧
    ((linked id).feeder 0 .t = some 15 ∧ (linked id).th.queue .t = [] ∧ s0.feeder 0 .t = none) ∧
    (linked fun t => { t with inq := ⟨[(4, [en])]⟩ }).th.queue .t = en :: [] ∧ 127 < s0.th.winSize ∧ s0.th.winSize ≤ 128 ∧
    ((linked id).receiver 0 .t ≠ none ∧ ((linked id).th.queue .t).length ≤ 4 ∧ (linked id).th.credit .t ≤ 4) := by decide +kernel

theorem witness_LinkAndWakeEvents :
    let s : State := { s0 with transit := [(1, .t, en)], creditsBack := [(0, .e)], wakes := [0] }
    s.transit.find? (fun e => e.1 == 1 && e.2.1 == .t) = some (1, .t, en) ∧ (0, Dir.e) ∈ s.creditsBack ∧ 0 ∈ s.wakes ∧
    (let p : State := { parks (.npush 9 false .t 0 false 0) .cond with now := 0x100005 }
     ∃ w, (p.thread 0).wait = some w ∧ w.onLink = some 9 ∧ w.since + ((p.core 0).regAt p.now kNPCTL).toNat % 2 ^ 32 < p.now) ∧
    (s0.feeder 0 .n = none ∧ (linked id).feeder 0 .t ≠ none ∧ (linked id).th.queue .t = []) ∧
    (let q := linked fun t => { t with inq := ⟨[(4, [en])]⟩, wake := true }
     q.th.queue .t = en :: [] ∧ q.access 0 0x1008 4 4 .load needR = (.ok (ls + 0x1008), q) ∧ ownLs q (ls + 0x1008) ∧
      q.poisonedIn (ls + 0x1008) 4 = false ∧ ((0x10 : Word).getLsbD (Dir.idx .t) = true ∧ q.th.queue .t ≠ []) ∧
      ((0x20 : Word).getLsbD 5 = true ∧ q.th.wake = true)) ∧
    ((0x40 : Word).toNat % 64 = 0) ∧ (0x20 : Word).toNat % 64 ≠ 0 ∧ (∀ o : Dir, s0.th.queue o = []) ∧ s0.th.wake = false := by
  refine ⟨by decide +kernel, by decide +kernel, by decide +kernel, ⟨_, rfl, by decide +kernel⟩, by decide +kernel, by decide +kernel, by decide +kernel,
    by decide +kernel, ?_, by decide +kernel⟩
  intro o; cases o <;> decide +kernel

/-- Buffer 1: size 64, posted and freed as given. -/
def ring (posted freed : Nat) (s : State := s0) : State :=
  core (fun k => { k with regs := (k.regs.set 0 34 0x640000).set 0 35 (BitVec.ofNat 64 (posted + 2 ^ 32 * freed)) }) s

theorem witness_CircularBuffers :
    let lo (s : State) : Nat := ((s.core 0).regAt s.now 34).toNat
    let hi (s : State) : Nat := ((s.core 0).regAt s.now 35).toNat
    let fill (s : State) : Nat := (hi s % 2 ^ 32 + 2 ^ 32 - hi s / 2 ^ 32) % 2 ^ 32
    lo s0 / 2 ^ 20 % 32 = 0 ∧ lo (ring 0 0) / 2 ^ 20 % 32 = 6 ∧ fill (ring 3 (2 ^ 32 - 2)) = 5 ∧ (s0.g 3).toNat = 5 ∧ fill (ring 60 1) = 59 ∧
    (∀ r ∈ (ring 60 1).net, r.tid? ≠ some 0) ∧ ¬ (∀ r ∈ (ring 60 1 busy).net, r.tid? ≠ some 0) ∧
    ((ring 60 1).core 0).recent.Pairwise (fun x y => y.1 ≤ x.1) := by decide +kernel

/-- A command of a thread at pc 0x300 with register operands, and rows of the own local store. -/
def cmd (kind : MKind) (a b : MOperand) (md : Nat := 0) : MCmd := ⟨0, kind, 1, a, b, md, 0x300, none⟩
def rgs (r f n : Nat) : MOperand := .regs r f ((List.range n).map fun j => s0.vreg 0 (r + j))
def rws (f : Nat) : MOperand := .rows ((List.range 16).map fun i => 0x1000 + 64 * i) f 127
/-- Registers 2 and 3 name 16 rows at 0x1000; the format of their bank is FP32. -/
def pair : State := up fun t => { t with g := ⟨[(2, 0x1000), (3, 64), (18, 0x2000)]⟩ }

theorem witness_MatrixInstructionsQueueCommands :
    (s0.th.mxErr = none ∧ (s0.core 0).mq.length < 8) ∧
    ¬ ((core fun k => { k with mq := List.replicate 8 (cmd .zero .none .none) }).core 0).mq.length < 8 ∧
    (up fun t => { t with mxErr := some ⟨0x65, 0x300⟩ }).th.mxErr = some ⟨0x65, 0x300⟩ ∧
    (matArg s0 false 0 8 1 (rgs 8 2 8) ∧ kClass (rgs 8 2 8).fmt = some 16 ∧ matArg s0 false 4 16 1 (rgs 16 6 8) ∧ kClass (rgs 16 6 8).fmt = some 32) ∧
    (matArg s0 false 0 16 8 (rgs 16 2 64) ∧ matArg s0 false 0 16 4 (rgs 16 2 32) ∧ matArg s0 false 0 16 2 (rgs 16 2 16)) ∧
    (pair.metadata 0 0x2000 16 = .ok 0x2000) ∧
    (pair.scratch 0 (pair.snap 0) true needR 2 1 = .ok (rws 0) ∧ pair.scratch 0 (pair.snap 0) true needW 2 1 = .ok (rws 0) ∧ (rws 0).fmt ≤ 5) ∧
    ((s0.compOf 0).nlmode = false ∧ ((24 : Reg).val + 8 ≤ s0.th.winSize ∧ (24 : Reg).val % 8 = 0) ∧
      ({ s0 with comps := ⟨[(0, { c0 with nlmode := true })]⟩ } : State).compOf 0 = { c0 with nlmode := true }) := by
  refine ⟨by decide +kernel, by decide +kernel, by decide +kernel, ?_, ?_, by rfl, ?_, by decide +kernel⟩
  · unfold matArg; decide +kernel
  · unfold matArg; decide +kernel
  · exact ⟨by rfl, by rfl, by decide +kernel⟩

/-- The unit runs a command that has ended. -/
def runs (c : MCmd) (f : MRun → MRun := id) (md : List Byte := []) : State :=
  core fun k => { k with mrun := some (f ⟨c, s0.accOf 0 c.acc, (s0.readRows 0 false c.a).1, (s0.readRows 0 false c.b).1, md, 10, none, none, none⟩) }

theorem witness_MatrixUnitRunsCommands :
    (s0.arg.n = 0 ∧ (s0.core 0).mrun = none ∧ ((core fun k => { k with mq := [cmd .zero .none .none] }).core 0).mq = cmd .zero .none .none :: []) ∧
    s0.th.mxErr = none ∧ (up fun t => { t with mxErr := some ⟨0x65, 0x300⟩ }).th.mxErr ≠ none ∧
    (∃ r, ((runs (cmd .mma (rgs 8 2 8) (rgs 16 2 8))).core 0).mrun = some r ∧ r.endAt ≤ s0.now ∧ r.cmd.kind = .mma) ∧
    (mdOk (List.replicate 128 0x10) 16 2 = true ∧ mdOk (List.replicate 128 0x11) 16 2 = false) ∧
    ((cmd .lda (rws 0) .none).a.fmt = 0 ∧ (cmd .lda (rws 2) .none).a.fmt ≠ 0) ∧
    ((cmd .sta (rws 3) .none).a = .rows ((List.range 16).map fun i => 0x1000 + 64 * i) 3 127 ∧
      ∀ o ∈ (List.range 16).map (fun i => 0x1000 + 64 * i), o + 64 ≤ 0x100000) ∧
    (∃ r, ((runs (cmd .mmar (rgs 8 2 8) (rgs 16 2 8)) (fun r => { r with sentAt := some 0 })).core 0).mrun = some r ∧ r.gotA = none ∧ r.gotB = none ∧
      0 + ((s0.core 0).regAt 0x100001 kNPCTL).toNat % 2 ^ 32 < 0x100001) ∧
    (torusCore 0 .e ≠ 0 ∧ ((s0.core (torusCore 0 .e)).mrun.all fun r => r.gotA.isNone || r.gotB.isNone) = true ∧
      (({ s0 with cores := s0.cores.set Core.init 1 { k0 with outA := [[[1]]] } } : State).core (torusCore 0 .e)).outA = [[1]] :: []) := by
  refine ⟨by decide +kernel, by decide +kernel, by decide +kernel, ⟨_, rfl, by decide +kernel⟩, by decide +kernel, by decide +kernel, by decide +kernel,
    ⟨_, rfl, by decide +kernel⟩, by decide +kernel⟩

/-- No line of the small state is poisoned. -/
theorem s0_clean (l : Nat) : s0.poisoned l = false := by
  have hv (c : Nat) : (s0.core c).vbad = [] := by
    by_cases h : c ∈ [0, 1]
    · simp only [List.mem_cons, List.not_mem_nil, or_false] at h
      rcases h with rfl | rfl <;> rfl
    · simp only [List.mem_cons, List.not_mem_nil, or_false, not_or] at h
      have : s0.core c = Core.init := by
        simp [State.core, s0, Sp.get, Sp.getL, Ne.symm h.1, Ne.symm h.2]
      rw [this]; rfl
  unfold State.poisoned State.poisonAt
  split
  · split
    · rw [hv]; rfl
    · rfl
  · rfl

/-- The unit is free to start a command on rows of the own local store; and an MMAR has the tile for A and gets the one for B. -/
theorem witness_MatrixUnitStartsAndRotates :
    (((0 : Nat) < 8192 ∧ (s0.core 0).past = []) ∧ (∀ y : Nat, y < 0x100000 → s0.poisoned (coreBase 0 + y) = false) ∧
      (∀ o ∈ (List.range 16).map (fun i => 0x1000 + 64 * i), o + 64 ≤ 0x100000)) ∧
    (let c := cmd .mmar (rgs 8 2 8) (rgs 16 2 8)
     let tile := List.replicate 16 (List.replicate 32 (1 : Byte))
     let k := torusCore 0 .s
     let s := runs c fun r => { r with sentAt := some 0, gotA := some tile }
     let s := { s with arg := { Arg.num 0 with yes := true }, cores := s.cores.set Core.init k { k0 with outB := [tile] } }
     s.arg.yes = true ∧ (∃ r, (s.core 0).mrun = some r ∧ r.cmd.kind = .mmar ∧ r.sentAt.isSome = true ∧ r.gotA = some tile ∧ r.gotB = none) ∧
      (s.core 0).outA = [] ∧ (s.core 0).outB = [] ∧ (s.core k).outB = tile :: [] ∧ k ≠ 0 ∧ (s.core k).mrun = none ∧
      ∀ u, u / 16 = 0 → (s.thread u).late < s.now) := by
  refine ⟨⟨by decide +kernel, fun _ _ => s0_clean _, by decide +kernel⟩, rfl, ⟨_, rfl, rfl, rfl, rfl, rfl⟩, rfl, rfl, by decide +kernel, by decide +kernel,
    by decide +kernel, fun u hu => ?_⟩
  have h : ∀ u, u < 16 → (s0.thread u).late < s0.now := by decide +kernel
  exact h u (by omega)

/-- A descriptor of four elements of four bytes, with a follow-on word. -/
def desc (cnt fl fo : Nat) : List Byte := words [cnt, 0, 0, 0, fl, fo, 0, 0]
def cp : Copy := ⟨7, 0, 2, .a, 0x1000, 0x6000000000001100, t0.seg.get 0 0, sgi (ls + 2 ^ 41) 0x100000 15, 0x1000, [4, 1, 1, 1],
  [0, 0, 0], [0, 0, 0], 4, false, 0, none, 0, none, 5, false, true, [], [], [], [], [], false, none, false, false⟩
def copies (l : List Copy) (s : State := s0) : State := core (fun k => { k with copies := l }) { s with arg := Arg.num2 0 7 }

theorem witness_CopyInstructions :
    let reads (s : State) (m : Bool) : Option (List Byte) := okBytes (s.readBlock 0 (.cpy m .o 1 0x1000 0x1000 0x1000 (some (s.snap 0))) 0x1000 64 8 .o [])
    let d (cnt fl fo : Nat) : State := put (ls + 0x1000) (desc cnt fl fo)
    let c (cnt fl fo : Nat) : Copy := (d cnt fl fo).copyOf 0 .o 1 0x1000 0x1000 0x1000 (desc cnt fl fo)
    let bad (m : Bool) (cnt fl fo : Nat) : Prop := descFault (d cnt fl fo) m (fun i => [cnt, 0, 0, 0, fl, fo, 0, 0].getD i 0) (ls + 0x1000)
    (∃ y ∈ ((copies [cp]).core 0).copies, y.tid = 0 ∧ y.tag = 2) ∧ 16 ≤ ((copies (List.replicate 16 { cp with tid := 1 })).core 0).copies.length ∧
    (reads (d 0x1000100010004 2 0) false = some (desc 0x1000100010004 2 0) ∧ ¬ bad false 0x1000100010004 2 0 ∧
      (c 0x1000100010004 2 0).rawErr = none) ∧
    (bad false 0x1000100010000 2 0 ∧ bad false 0x1000100010004 2 1 ∧ bad false 0x1000100010004 0x4002 0 ∧ bad false 0x1000100010004 0x42 0 ∧
      bad false 0x1000100010004 0x18 0) ∧
    (¬ bad false 0x1000100010004 4 0 ∧ (c 0x1000100010004 4 0).conv = true) ∧
    (∃ e, ((d 0x1000100010004 2 0).copyOf 0 .o 1 0x1002 0x1000 0x1000 (desc 0x1000100010004 2 0)).rawErr = some e) ∧
    (let w := 0x04000031;
     ¬ bad true 0x1000100010004 2 w ∧ followOk w = true ∧ decodeWord (BitVec.ofNat 32 w) = .ok (.mzero 2) ∧
      (∃ sp, mspecOf (.mzero 2) = some sp ∧ ∃ f, (d 0x1000100010004 2 w).prepare 0 ((d 0x1000100010004 2 w).snap 0) sp = .ok f)) ∧
    s0.th.cpErr.get none 2 = none ∧ (up fun t => { t with cpErr := ⟨[(2, some ⟨0x60, 0x1000⟩)]⟩ }).th.cpErr.get none 2 = some ⟨0x60, 0x1000⟩ := by
  refine ⟨by decide +kernel, by decide +kernel, ⟨by decide +kernel, ?_, by decide +kernel⟩, ⟨?_, ?_, ?_, ?_, ?_⟩, ⟨?_, by decide +kernel⟩,
    ⟨⟨0x38, 0x1002⟩, by decide +kernel⟩, ⟨?_, by decide +kernel, by decide +kernel, _, rfl, _, rfl⟩, by decide +kernel, by decide +kernel⟩
  all_goals simp only [descFault]; decide +kernel

/-- One copy of core 0 that has not begun its accesses: 16 bytes from 0x1000 to 0x1800, and a converting one of bank 0 into bank 1. -/
def moves : Copy := { cp with dst := 0x1800, segD := cp.segS }
def mixes : Copy := { moves with dst := 0x11000, conv := true }
def inBanks (c : Copy) : State := core (fun k => { k with copies := [c], regs := (k.regs.set 0 16 0x7F01).set 0 17 0x7F02 }) { s0 with arg := Arg.num2 0 7 }
/-- The 16 cores that a broadcast of kind 1 from core 0 reaches belong to component 0. -/
def wide : State := { s0 with cores := ⟨(List.range 16).map fun i => (16 * i, k0)⟩ }

theorem witness_CopiesMoveBytes :
    let s := copies [moves]
    ((s.copy? 0 7 = some moves ∧ moves.tid / 16 = 0) ∧ (s.core 0).past = [] ∧ s.arg.nums = [] ∧ s.arg.yes = false) ∧
    (moves.started = true ∧ moves.page = false ∧ moves.landed = false ∧ moves.posted = false ∧ moves.done = [] ∧ moves.got = [] ∧
      moves.part = [] ∧ s.net = [] ∧ moves.reads = []) ∧
    (let y := { moves with started := false }; (copies [y]).copy? 0 7 = some y ∧ (copies [y]).behind y = false) ∧
    (∀ i, i < 16 → gvaOf moves.segS (offOf (moveOff moves.src (i : Nat))) = ls + 0x1000 + i ∧
      gvaOf moves.segD (offOf (moveOff moves.dst (i : Nat))) = ls + 0x1800 + i ∧ inLs 0 (ls + 0x1000 + i) = true ∧
      inLs 0 (ls + 0x1800 + i) = true ∧ s.poisoned (ls + 0x1000 + i) = false ∧ s.poisoned (ls + 0x1800 + i) = false ∧
      s.tagOk (ls + 0x1000 + i) 5 = true ∧ s.tagOk (ls + 0x1800 + i) 5 = true) ∧
    (let y := { mixes with started := false }
     let z := inBanks y
     z.copy? 0 7 = some y ∧ z.behind y = false ∧ bankOf (ls + 0x1000) = some 0 ∧ bankOf (ls + 0x11000) = some 1 ∧
      gvaOf y.segD (offOf y.dst) = ls + 0x11000 ∧ ((z.regAt 0 16).toNat % 16 = 1 ∧ (z.regAt 0 17).toNat % 16 = 2) ∧
      ({ y with started := true, fmts := [(0, 0x7F01), (1, 0x7F02)] } : Copy).startErr = none ∧ ({ y with dshift := 1 } : Copy).dshift ≠ 0) ∧
    (let y := { mixes with fmts := [(0, 0x7F01), (1, 0x7F02)] }
     (inBanks y).copy? 0 7 = some y ∧ 0x1000 % 0x10000 + rowBytes 1 4 ≤ 0x10000 ∧ 0x11000 % 0x10000 + rowBytes 2 4 ≤ 0x10000 ∧
      ∀ i, i < 16 → inLs 0 (ls + 0x11000 + i) = true ∧ (inBanks y).poisoned (ls + 0x11000 + i) = false ∧ (inBanks y).tagOk (ls + 0x11000 + i) 5 = true) ∧
    (s0.winCause sl 4 .store 5 = none ∧ inLs 0 sl = false ∧ 2 ^ 56 ≤ sl) ∧
    (∀ y, inBroadcast 1 0 y → wide.winCause (coreBase y + 0x1800) 4 .store 5 = none) ∧
    (let y := { cp with cnt := [1, 1, 1, 1], cb := some 1, reads := [(0, [1, 2, 3, 4])], segD := cp.segS, dst := 0x1800 }
     let r := copies [y] (ring 60 0)
     r.copy? 0 7 = some y ∧ y.buffer = some (0, 1) ∧ (60 + 4 ≤ 64 ∧ 0x40000 + 64 ≤ 0x100000) ∧
      ((r.core 0).regLast 34).toNat = 0x640000 ∧ ((r.core 0).regLast 35).toNat = 60 ∧
      ∀ i, i < 64 → r.poisoned (coreBase 0 + 0x40000 + i) = false ∧ r.tagOk (coreBase 0 + 0x40000 + i) 5 = true) ∧
    (let y := { cp with follow := some (cmd .zero .none .none), landed := true }
     (copies [y]).copy? 0 7 = some y ∧ ((copies [y]).core 0).mq.length < 8 ∧ (cmd .zero .none .none).tid / 16 = 0) := by
  have h : ∀ y, y < 1024 → y % 16 = 0 → y / 16 % 64 / 8 / 2 = 0 → wide.winCause (coreBase y + 0x1800) 4 .store 5 = none := by decide +kernel
  refine ⟨by decide +kernel, by decide +kernel, by decide +kernel, by decide +kernel, by decide +kernel, by decide +kernel, by decide +kernel,
    fun y ⟨a, b, c⟩ => h y (by omega) b c, by decide +kernel, by decide +kernel⟩

/-- A write of a copy, its last, that is performed, and one that fails; a post of four bytes into a buffer of core 0. -/
theorem witness_CopiesHearOfTheirWrites :
    let y := { cp with cnt := [1, 1, 1, 1], dst := 0x2000000000001000, segD := sgi (ls + 2 ^ 51) 0x100000 15, reads := [(0, [1, 2, 3, 4])], part := [(0, sl)] }
    let q (op : ROp) (loc : Nat) (ph : Phase) : Req := { rq op loc ph with src := .copy 0 7 0 0 }
    let s (ph : Phase) : State := { copies [y] with arg := Arg.num 7, net := [q (.write [1, 2, 3, 4]) sl ph] }
    ((s (.answered (.bytes []))).req? 7 = some (q (.write [1, 2, 3, 4]) sl (.answered (.bytes []))) ∧ (s .sent).copy? 0 7 = some y ∧
      (s .sent).replicasDue 7 = false ∧ gvaOf y.segD (offOf y.dst) = sl ∧ y.posted = false) ∧
    (s (.answered (.cause 0x39))).req? 7 = some (q (.write [1, 2, 3, 4]) sl (.answered (.cause 0x39))) ∧
    (let l := ls + 0x6100D8
     let z := core (fun k => { k with svc := [.msg 7] }) { s0 with arg := Arg.num 0, net := [q (.post 1 4) l .queued] }
     z.req? 7 = some (q (.post 1 4) l .queued) ∧ (z.core 0).svc = .msg 7 :: [] ∧ decodeWin l = some (.core 0 0x6100D8)) := by
  decide +kernel

/-- The descriptor of port 5 in a slice, its tables behind it, on shared lines; thread 0 has a request at cluster 0's Prism. -/
def pd : Nat := 0x108000000002000
def pdesc (fmt next status j : Nat) : List Byte :=
  words [fmt * 2 ^ 16, 2 + 2 ^ 33, pd + 0x400, 10, 0x3FF0000000000000, 0, 0, 0x3FF0000000000000, 1000, next, 0, status, j, 0, 0, 0]
def wtab : List Byte := [0, 1, 2, 0, 1, 0x3F800000, 0x3F000000, 0x3F800000, 0x40000000, 0x3F800000, 0x40400000].flatMap (bytesOf 4)
def prism (next status : Nat) (p : Port) : State :=
  put (pd + 0x400) wtab (put pd (pdesc 0 next status 1)
    { parks (.pstat 0x77 3 5) .prism with tags := ⟨(List.range 32).map fun i => (pd / 64 + i, 0)⟩, ports := ⟨[(5, p)]⟩ })
def pr (k : PKind) : PReq := ⟨0, 5, k, 0x77, t0.seg.get 0 0, 5, false, 10, 3, 10, false, false, false, [], none⟩
def bnd : Port := ⟨some pd, false, [], [], false, 20, 1, true, false, 0, 5⟩
def asked (r : PReq) (s : State) : State :=
  { s with arg := Arg.num (if r.kind = .close then 5 else 0), clusters := ⟨[(0, { Cluster.init with prismQ := [r] })]⟩ }
def sending : PKind := .send 0x1000 20 10 0
/-- A request that has begun, with the two elements of BUF read in one access. -/
def begun (k : PKind) : PReq := { pr k with begun := true, got := [(0, bytesOf 4 0x3F800000 ++ bytesOf 4 0x40000000)] }

theorem witness_FieldPortInstructions :
    let b (f : Nat) : List Byte := words [0x1800, 20, 3, f]
    8191 < ((g3 8192).g 3).toNat ∧ ((g3 8191).g 3).toNat ≤ 8191 ∧ (0 : Word) = 0 ∧
    (({ s0 with tags := ⟨[(sl / 64, 5), (sl / 64 + 1, 5)]⟩ }.access 0 0x2000000000001000 128 128 .block needR).1 = .ok sl ∧ decodeWin sl = some (.slice 0 0)) ∧
    (okBytes ((put (ls + 0x1000) (b 0)).readBlock 0 (.psend 9 5 0x1000) 0x1000 32 8 .o []) = some (b 0) ∧ (s0.port 5).desc = none) ∧
    (∀ r ∈ s0.net, r.tid? ≠ some s0.cur) ∧ (∃ r ∈ busy.net, r.tid? = some busy.cur) ∧
    (let s := put (ls + 0x1000) (b 1) (prism 20 0 bnd)
     okBytes (s.readBlock 0 (.precv 9 5 0x1000) 0x1000 32 8 .o []) = some (b 1) ∧ (s.port 5).desc = some pd ∧
      (s.pdesc pd).nsrc = 2 ∧ segCause (s.th.seg.get 0 0) (selOf 0x1800) (offOf 0x1800) (2 * 8) needR = none ∧ offOf 0x1800 % 8 = 0) := by
  decide +kernel

theorem witness_PrismsServePorts :
    let nb : Port := { bnd with desc := none }
    let at' (r : PReq) (s : State) : Prop := atPrism (asked r s) r [] ∧ (asked r s).awaits r = true
    let placed' (s : State) : Prop := portPlaced s pd
    let buf (i : Nat) : Nat := gvaOf (t0.seg.get 0 0) (offOf (moveOff 0x1000 (i * 4 : Nat)))
    let b := prism 20 9 bnd
    (at' (pr (.bind pd)) (prism 20 0 nb) ∧ at' (begun (.bind pd)) (prism 20 0 nb) ∧ (prism 20 0 nb).bindReason (begun (.bind pd)) pd = none ∧
      placed' (prism 20 0 nb)) ∧
    (prism 21 0 nb).bindReason (begun (.bind pd)) pd = some 1 ∧
    (at' (pr .unbind) b ∧ (b.port 5).desc = some pd ∧ placed' b ∧ b.compNo 0 = some (b.pdesc pd).sndr) ∧
    (at' (pr sending) b ∧ (20 / 10 = (20 + 10 - 1) / 10) ∧ bnd.next = 20 ∧
      segCause (t0.seg.get 0 0) (selOf 0x1000) (offOf 0x1000) (2 * 4) needR = none ∧ offOf 0x1000 % 4 = 0 ∧
      ∀ i, i < 2 → (asked (pr sending) b).locate 0 5 false (buf i) 4 .block needR = (.ok (ls + 0x1000 + 4 * i), asked (pr sending) b)) ∧
    (let s := asked (begun sending) b
     at' (begun sending) b ∧ s.prismHeld 0 = false ∧ (begun sending).bad = none ∧
      ∀ i, i < 2 → bufBytes (begun sending).got (ctlBytes 0 * i) (ctlBytes 0) = bytesOf 4 (0x3F800000 + i * 0x800000)) ∧
    at' { begun sending with bad := some (1, ⟨0x31, 0x1004⟩) } b ∧
    (let k := PKind.recv 0x1000 1 false
     at' (pr k) b ∧ at' (begun k) b ∧ ((1 : Word) - BitVec.ofNat 64 (b.pdesc pd).lag).toInt = bnd.held ∧
      ∀ i, i < 2 → (asked (pr k) b).locate 0 5 false (buf i) 4 .block needW = (.ok (ls + 0x1000 + 4 * i), asked (pr k) b)) ∧
    (let r := pr (.recv 0x1000 1 false)
     let s := { prism 20 9 { bnd with sends := [pr sending], recvs := [r] } with arg := Arg.num 5 }
     (s.port 5).sends = pr sending :: [] ∧ (s.port 5).closing = false ∧ r ∈ (s.port 5).recvs ∧ s.awaits (pr sending) = true) ∧
    (let q : Req := { rq (.read 4) (ls + 0x1004) (.answered (.bytes [1, 2, 3, 4])) with src := .prism 0 0 1 }
     let s := { asked (begun sending) b with arg := Arg.num 7, net := [q] }
     s.req? 7 = some q ∧ q.isRead = true ∧ s.replicasDue 7 = false ∧ ∀ y ∈ s.net, y.id ≠ q.id → ∀ u n, y.src ≠ .prism 0 u n) ∧
    (let s := prism 20 8 { bnd with closing := true }
     atPrism (asked (begun .close) s) (begun .close) [] ∧ (asked (begun .close) s).arg.n = 5 ∧ (s.port 5).closing = true ∧
      (s.port 5).resfree = true ∧ (s.port 5).recvs = [] ∧ (s.pdesc pd).rowsOk s = true ∧ (s.pdesc pd).colsOk s = true) ∧
    ({ parks (.precv 0x77 5 0x1000) .prism [] (prism 20 0 bnd) with now := 2000 } : State).portLate 0 = some (5, 0x77) := by
  have h : ∀ (s : State), s.sharedSlices (accAt pd) (8 * (s.pdesc pd).nsrc) = true →
      s.sharedSlices ((s.pdesc pd).resAt pd) ((s.pdesc pd).ndst * (s.pdesc pd).outBytes) = true → 1 ≤ (s.pdesc pd).nsrc → 1 ≤ (s.pdesc pd).ndst →
      portPlaced s pd := fun s a b c d => ⟨⟨0, 0, by decide +kernel⟩, by decide +kernel, a, b, c, d⟩
  have a {s : State} {r : PReq} (h1 : (s.cluster (portCluster r.port)).prismQ = [r]) (h2 : r.due ≠ 0 ∧ r.due ≤ s.now ∧ r.page = false)
      (h3 : s.awaits r = true) : atPrism s r [] ∧ s.awaits r = true := ⟨⟨h1, h2⟩, h3⟩
  refine ⟨⟨a (by decide +kernel) (by decide +kernel) (by decide +kernel), a (by decide +kernel) (by decide +kernel) (by decide +kernel),
      by decide +kernel, h _ (by decide +kernel) (by decide +kernel) (by decide +kernel) (by decide +kernel)⟩, by decide +kernel,
    ⟨a (by decide +kernel) (by decide +kernel) (by decide +kernel), by decide +kernel,
      h _ (by decide +kernel) (by decide +kernel) (by decide +kernel) (by decide +kernel), by decide +kernel⟩,
    ⟨a (by decide +kernel) (by decide +kernel) (by decide +kernel), by decide +kernel⟩,
    ⟨a (by decide +kernel) (by decide +kernel) (by decide +kernel), by decide +kernel⟩, a (by decide +kernel) (by decide +kernel) (by decide +kernel),
    ⟨a (by decide +kernel) (by decide +kernel) (by decide +kernel), a (by decide +kernel) (by decide +kernel) (by decide +kernel), by decide +kernel⟩,
    by decide +kernel, ⟨rfl, rfl, by decide +kernel, ?_⟩,
    ⟨⟨by decide +kernel, by decide +kernel⟩, by decide +kernel⟩, by decide +kernel⟩
  intro y hy hne
  rw [List.mem_singleton.mp hy] at hne
  exact absurd rfl hne

/-- The lines of a port's descriptor let its thread through, or belong to another component; and a PSEND that was set aside, back at the
Prism, stands behind a later one. -/
theorem witness_PrismsServePorts_lines :
    let b := prism 20 9 bnd
    let f := { b with tags := ⟨(List.range 32).map fun i => (pd / 64 + i, 6)⟩ }
    let back := { pr sending with tid := 1, resumed := true }
    let z : State := { asked (pr sending) b with clusters := ⟨[(0, { Cluster.init with prismQ := [pr sending, back] })]⟩ }
    b.tagsOk pd 128 5 = true ∧ f.tagsOk pd 128 5 = false ∧ (f.port 5).desc = some pd ∧
    (∀ k ∈ [sending, .recv 0x1000 1 false, .stat, .unbind], (pr k).begun = false ∧ (asked (pr k) f).awaits (pr k) = true ∧
      ((asked (pr k) f).cluster 0).prismQ = pr k :: [] ∧ (pr k).due ≤ f.now ∧ (pr k).page = false) ∧
    ((z.cluster 0).prismQ = pr sending :: [back] ∧ back.port = (pr sending).port ∧ back.resumed = true ∧ pr sending ∉ [back]) := by
  decide +kernel

/-! ### Witnesses: tasks, requests, faults, links and the device -/

def rec0 : Rec := ⟨0x500, 1, 2, 0, none, false⟩
def rec1 : Rec := ⟨0x600, 3, 4, 9, some 2, false⟩
def full (k : Core) : Core := { k with deque := List.replicate 64 rec0 }
def fk (j : Nat) (f : Core → Core := id) (d : Nat := 0) : State :=
  core f (up (fun t => { t with depth := d }) (put (ls + 0x1000) (words [0x900, 11, 12, j])))
def act (i : Nat) (a : Act) (why : Why) (s : State) : State :=
  s.modThread i fun t => { t with st := .parked, wait := some ⟨a, why, 4, [], [], none⟩ }

/-- The counter of these JOINs lies in memory, and no reading of it is owed. -/
theorem witness_TasksForkJoinAndEnd_home : inMemory s0 (ls + 0x1000) ∧ untimed s0 :=
  ⟨.inr (.inr ⟨0, 0x1000, by decide +kernel, by decide⟩), fun _ h => by cases h⟩

/-- A JOIN of thread 0 whose home reads its counter, and one that its home has answered. -/
theorem witness_TasksForkJoinAndEnd_polls :
    let s (v : Nat) (yes : Bool) (l : List JoinReply) : State := put (ls + 0x1000) (words [v])
      (act 0 (.join .o 0x1000 (ls + 0x1000) false) .counter { s0 with arg := { Arg.num2 0 10 with yes := yes }, joins := l })
    ((s 0 false []).thread 0).wait = some ⟨.join .o 0x1000 (ls + 0x1000) false, .counter, 4, [], [], none⟩ ∧
      (s 0 false []).isSuspended 0 = false ∧ (s 0 false []).arg.k = ((s 0 false []).thread 0).issuedAt ∧
      (s 0 false []).poisonedIn (ls + 0x1000) 8 = false ∧ leNat (readMem (s 0 false []).mem (ls + 0x1000) 8) = 0 ∧
      leNat (readMem (s 3 false []).mem (ls + 0x1000) 8) ≠ 0 ∧ (s 0 true [⟨0, 10, none, none⟩]).arg.yes = true ∧
      (s 0 true [⟨0, 10, none, none⟩]).joins = ⟨0, ((s 0 true []).thread 0).issuedAt, none, none⟩ :: [] := by
  decide +kernel

theorem witness_TasksForkJoinAndEnd :
    let block (s : State) (j : Nat) : Prop :=
      okBytes (s.readBlock 0 (.fork (ibits (.fork .o 1)) .o 0x1000 none false) 0x1000 32 8 .o []) = some (words [0x900, 11, 12, j])
    let j := 0x2000000000001000
    (block (fk 0) 0 ∧ ((fk 0).core 0).deque.length + ((fk 0).core 0).reserved < 64 ∧ ((fk 0).core 0).dqUsed ≠ some (fk 0).now) ∧
    (block (fk 0 full 254) 0 ∧ ¬ ((fk 0 full 254).core 0).deque.length < 64 ∧ (fk 0 full 254).th.depth ≠ 255) ∧
    (block (fk 0 full 255) 0 ∧ (fk 0 full 255).th.depth = 255) ∧
    (block (fk j full) j ∧ ((fk j full).access 0 0x2000000000001000 8 8 .atomic needRWA).1 = .ok sl ∧
      ((fk j full).access 0 0x2000000000001000 8 8 .atomic needRWA).2.lineBusy 0 sl 8 = false) ∧
    (s0.access 0 0x1000 8 8 .block needR = (.ok (ls + 0x1000), s0) ∧ ownLs s0 (ls + 0x1000) ∧ s0.poisonedIn (ls + 0x1000) 8 = false ∧
      leNat (readMem s0.mem (ls + 0x1000) 8) ≠ 0 ∧ leNat (readMem (put (ls + 0x1000) (words [0])).mem (ls + 0x1000) 8) = 0) ∧
    ((s0.access 0 0x2000000000001000 8 8 .block needR).1 = .ok sl ∧ ¬ ownLs s0 sl ∧ s0.lineBusy 0 sl 8 = false) ∧
    (s0.th.mxErr = none ∧ (∀ i, i < 8 → s0.th.cpErr.get none i = none) ∧ ¬ (∀ r ∈ busy.net, r.tid? ≠ some busy.cur) ∧
      (∀ r ∈ s0.net, r.tid? ≠ some s0.cur) ∧ s0.g 12 = 0 ∧ s0.th.depth = 0 ∧ s0.th.root = none) ∧
    (block (fk j) j ∧ ((fk j).access 0 j 8 8 .atomic needRWA).1 = .ok sl ∧ ((fk j).core 0).deque.length + ((fk j).core 0).reserved < 64) ∧
    (let s : State := { up (fun t => { t with root := some 2 }) with steps := ⟨[(2, { noStep with run := true, pend := true })]⟩ }
     s.th.root = some 2 ∧ (s.entry 2).pend = true ∧ (up (fun t => { t with depth := 1 }) s).th.depth ≠ 0) ∧
    (let s : State := { up (fun t => { t with root := some 2 }) with suspended := [⟨0, true⟩] }
     s.th.root = some 2 ∧ s.isSuspended (s.leadOf 2) = true) ∧
    (let s := up fun t => { t with g := t.g.set 0 12 0x2000000000001000 }
     s.g 12 ≠ 0 ∧ (s.access 0 (s.g 12) 8 8 .atomic needRWA).1 = .ok sl) ∧
    (let s := up fun t => { t with cpErr := ⟨[(3, some ⟨0x60, 0x1000⟩)]⟩ }
     s.th.mxErr = none ∧ (∀ j, j < 3 → s.th.cpErr.get none j = none) ∧ s.th.cpErr.get none 3 = some ⟨0x60, 0x1000⟩) := by
  decide +kernel

/-- Barrier b of core 0, and thread i that has arrived at it. -/
def bar (b : Nat) (x : Bar) (s : State := s0) : State := core (fun k => { k with bars := k.bars.set Bar.init b x }) s

theorem witness_BarriersReleaseTogether :
    (s0.bar 0 0).need = 0 ∧ ((bar 3 ⟨2, 0, false⟩).bar 0 3 = ⟨2, 0, false⟩ ∧ (0 : Nat) + 1 < 2) ∧
    (∀ r ∈ s0.net, r.tid? ≠ some s0.cur) ∧ (∃ r ∈ busy.net, r.tid? = some busy.cur) ∧
    (let s := act 17 (.bar (ibits (.bark 15)) true 15 ) (.gen true) (bar 19 ⟨2, 1, true⟩)
     s.bar 0 19 = ⟨2, 1, true⟩ ∧ 2 ≤ 1 + 1 ∧ (s.thread 0).atBar true 15 = false ∧ (s.thread 17).atBar true 15 = true) ∧
    (let s := act 1 (.bar (ibits (.barc 3)) false 3) .performed (bar 3 ⟨2, 0, false⟩ { s0 with arg := Arg.num 1 })
     s.arg.n / 16 = s.cur / 16 ∧ (s.thread 1).wait = some ⟨.bar (ibits (.barc 3)) false 3, .performed, 4, [], [], none⟩) := by
  decide +kernel

theorem witness_DequesFeedIdleThreads :
    let idle (s : State) (t : Nat) : Bool := decide (t / 16 = 0 ∧ (s.thread t).st = .idle ∧ (s.thread t).idleSince ≤ s.now)
    let a := { s0 with arg := Arg.num 0 }
    let two : State := { a with threads := a.threads.set Thread.init 2 { Thread.init with st := .idle, winSize := 4, idleSince := 3 } }
    (idle two 1 = true ∧ ∀ u, u < 16 → idle two u = true →
      (two.thread 1).idleSince < (two.thread u).idleSince ∨ ((two.thread 1).idleSince = (two.thread u).idleSince ∧ 1 ≤ u)) ∧
    ((core (fun k => { k with landing := some rec1 }) two).core 0).landing = some rec1 ∧
    (((core (fun k => { k with deque := [rec0, rec1] }) two).core 0).deque = [rec0] ++ [rec1] ∧ (two.core 0).dqUsed ≠ some two.now) ∧
    (let s := core (fun k => { k with victim := some 1 }) two
     (s.core 0).deque = [] ∧ (s.core 0).landing = none ∧ (s.core 0).stealOut = false ∧ (s.core 0).backUntil ≤ s.now ∧
      s.isSuspended 0 = false ∧ (s.core 0).victim = some 1 ∧ 1 ∈ s.domain 0) ∧
    (let s := { a with steals := [(0, 1, none), (1, 0, none)] }
     s.steals = (0, 1, none) :: [(1, 0, none)] ∧ s.isSuspended 1 = false ∧ (s.core 1).dqUsed ≠ some s.now ∧ (s.core 1).deque = []) ∧
    (let s := { a with cores := a.cores.set Core.init 1 { k0 with deque := [rec0, rec1] } }
     (s.core 1).deque = rec0 :: [rec1] ∧ (s.threads.entries.all fun x => x.2.wait.isNone) = true) ∧
    (let s := core (fun k => { k with backoff := 4096 }) { a with steals := [(0, 1, some none)] }
     s.steals = (0, 1, some none) :: [] ∧ min 4096 (2 * (s.core 0).backoff) = 4096) ∧
    (a.core 0).backUntil ≤ a.now := by
  decide +kernel

/-- Thread 1 is idle, and the deque of its core holds a record. -/
theorem witness_DequesAreScanned : let y := (core fun k => { k with deque := [rec0] }).endCycle
    (y.idles 0).isEmpty = false ∧ (y.core 0).deque.isEmpty = false ∧ y.isSuspended 0 = false := by decide +kernel

/-- A step entry of component 0 whose first slot lies at 10 ns, 10 ns after the epoch. -/
def ent : StepEntry := ⟨0, true, 0, 0, 0, 1000, 0x900, 5, 6, 0, false, false⟩
def slot (e : StepEntry) (f : Core → Core := id) : State :=
  core f { s0 with arg := Arg.num 2, steps := ⟨[(2, e)]⟩, clock := { Clock.init with base := 10 * nsUnit } }

theorem witness_StepsStartTheirTasks :
    (let s := slot ent
     s.slotCame 2 = true ∧ (∀ f, f < 2 → s.slotCame f = false) ∧ s.slotReached 2 = some (s.nextSlotNo 2) ∧
      s.isSuspended (s.comp 0).lead.toNat = false ∧ (s.entry 2).run = false ∧ (s.core 0).deque.length + (s.core 0).reserved < 64 ∧
      (s.core 0).dqUsed ≠ some s.now) ∧
    (¬ ((slot ent full).core 0).deque.length + ((slot ent full).core 0).reserved < 64) ∧
    ((slot { ent with run := true }).entry 2).run = true ∧ ((slot { ent with run := true, ovr := 1 }).entry 2).ovr = 1 ∧
    ((slot { ent with run := true, ovr := 1 }).entry 2).pend = false ∧
    (let s := up (fun t => { t with st := .parked, root := some 2 }) (slot { ent with run := true, ovr := 2 })
     (s.thread 0).root = some 2 ∧ (s.thread 0).st = .parked ∧ (s.thread 1).root ≠ some 2 ∧ ((slot ent).thread 0).root ≠ some 2) ∧
    ({ slot ent with suspended := [⟨0, true⟩] } : State).isSuspended 0 = true ∧
    (let s := { slot ent with held := [⟨0x900, 5, 6, 0, some 2, false⟩] }
     s.held.find? (fun r => r.root == some 2) = some ⟨0x900, 5, 6, 0, some 2, false⟩) := by
  decide +kernel

/-- One request is under way, and the home's number comes with the event. -/
def home (op : ROp) (loc : Nat) (ph : Phase) : State := { s0 with arg := Arg.num 7, net := [rq op loc ph] }

theorem witness_HomesApplyRequests :
    let r := rq (.read 4) sl .sent
    let s := home (.read 4) sl .sent
    let far := { rq (.read 4) sl .sent with num := some 3, die := 1, stamp := some [0, 5, 0, 0, 0, 0, 0, 0, 0, 0] }
    let own := rq (.read 4) (ls + 0x1008) .sent
    let fe := rq (.fe .synld 0 2) (ls + 0x1008) .queued
    let svc (m : Svc) (l : State) : State := core (fun k => { k with svc := [m] }) { l with arg := Arg.num 0 }
    (s.req? 7 = some r ∧ s.placeOf sl = some (.slice 0 0) ∧ s.arrivesNext r = true ∧ s.arg.yes = false ∧ r.open? s 0 = true ∧
      s.poisonedIn sl 4 = false) ∧
    inMemory s sl ∧
    ({ s with net := [far] }.req? 7 = some far ∧ { s with net := [far] }.arrivesNext far = true ∧ far.open? { s with net := [far] } 0 = false) ∧
    ((home (.read 4) (ls + 0x1008) .sent).placeOf (ls + 0x1008) = some (.core 0 0x1008) ∧ own.open? s 0 = true ∧
      s.isSuspended 0 = false ∧ own.inCluster = false) ∧
    (let img := { rq (.write (bytesOf 8 77)) (ls + 0x500008) .sent with src := .copy 0 7 0 0 }
     let z := { home (.read 4) sl .sent with net := [img] }
     z.req? 7 = some img ∧ z.placeOf (ls + 0x500008) = some (.core 0 0x500008) ∧ z.arrivesNext img = true ∧ img.open? z 0 = true ∧
      z.isSuspended 0 = false ∧ img.inCluster = false ∧ (z.thread 0).late < z.now ∧ (1 : Reg).val = 0x500008 % 256 / 8) ∧
    ((rq (.read 4) sl .gated).open? (home (.read 4) sl .gated) 0 = true) ∧
    (let l := svc (.msg 7) (home (.fe .synld 0 2) (ls + 0x1008) .queued)
     l.req? 7 = some fe ∧ (l.core 0).svc = .msg 7 :: [] ∧ (ls + 0x1008) % 8 = 0 ∧ inLs 0 (ls + 0x1008) = true ∧
      feStep .synld (l.fe.get false ((ls + 0x1008) / 8)) (BitVec.ofNat 64 (leNat (readMem l.mem (ls + 0x1008) 8))) 0 = none ∧
      (l.asideOf 0).length < 32 ∧ (feStep .synld true 5 0).isSome = true) ∧
    (let l := svc (.exam 7) (home (.fe .synld 0 2) (ls + 0x1008) (.aside 1 4))
     l.req? 7 = some (rq (.fe .synld 0 2) (ls + 0x1008) (.aside 1 4)) ∧ (l.core 0).svc = .exam 7 :: [] ∧ 1 < 2) ∧
    (let l := svc (.exam 7) (home (.fe .synld 0 2) (ls + 0x1008) (.aside 2 4))
     l.req? 7 = some (rq (.fe .synld 0 2) (ls + 0x1008) (.aside 2 4)) ∧ ¬ 2 < 2) := by
  exact ⟨by decide +kernel, .inl ⟨0, 0, by decide +kernel⟩, by decide +kernel, by decide +kernel, by decide +kernel, by decide +kernel, by decide +kernel,
    by decide +kernel, by decide +kernel⟩

theorem witness_AnswersReachTheirThreads :
    let ld : Act := .load 3 4 true 0x2000000000001000 .o
    let w : Wait := ⟨ld, .replies, 4, [7], [], none⟩
    let s (op : ROp) (ph : Phase) (tries : Nat) : State :=
      parks ld .replies [7] { s0 with arg := Arg.num 7, net := [rq op sl ph tries] }
    let st (ph : Phase) : State := { s0 with arg := Arg.num 7, net := [rq (.write [1]) sl ph] }
    let rp : Replica := ⟨1, 9, List.replicate 64 7, none, [(9 * 64 + 3, [1, 2], some [1], 4)]⟩
    ((s (.read 4) (.answered (.bytes [1, 2, 3, 0xF4])) 0).req? 7 = some (rq (.read 4) sl (.answered (.bytes [1, 2, 3, 0xF4]))) ∧
      ((s (.read 4) .sent 0).thread 0).wait = some w ∧ (rq (.read 4) sl .sent).isWrite = false ∧
      (s (.read 4) (.answered (.bytes [1, 2, 3, 0xF4])) 0).replicasDue 7 = false ∧ (s (.read 4) .sent 0).arg.yes = false) ∧
    (s (.read 4) (.answered (.cause 0x91)) 0).req? 7 = some (rq (.read 4) sl (.answered (.cause 0x91))) ∧
    ((s (.read 4) .refused 13).req? 7 = some (rq (.read 4) sl .refused 13) ∧ ((s0.core 0).regAt 10 kRNRCTL).toNat % 256 < 13) ∧
    ((s (.read 4) .refused 12).req? 7 = some (rq (.read 4) sl .refused 12) ∧ 12 ≤ ((s0.core 0).regAt 10 kRNRCTL).toNat % 256) ∧
    ((st (.answered (.bytes []))).req? 7 = some (rq (.write [1]) sl (.answered (.bytes []))) ∧
      (rq (.write [1]) sl (.answered (.bytes []))).isWrite = true ∧ ((st .sent).thread 0).wait = none ∧ (st .sent).replicasDue 7 = false) ∧
    ((st (.answered (.cause 0x39))).req? 7 = some (rq (.write [1]) sl (.answered (.cause 0x39))) ∧
      ((st .sent).core 0).comp = some 0 ∧ (st .sent).ended.contains 0 = false) ∧
    (let sto : Act := .store 1 0x2000000000001000 1 .o
     let f := parks sto .accepts [7] (st .fresh)
     f.req? 7 = some (rq (.write [1]) sl .fresh) ∧ (f.thread 0).wait = some ⟨sto, .accepts, 4, [7], [], none⟩) ∧
    (let f := { s0 with arg := Arg.num2 1 9, replicas := [{ rp with die := 2 }, rp] }
     f.replicas = [{ rp with die := 2 }] ++ rp :: [] ∧ rp.die = f.arg.n ∧ rp.line = f.arg.k ∧
      rp.updates = (9 * 64 + 3, [1, 2], some [1], 4) :: []) ∧
    (let f := up (fun t => { t with st := .ready }) { s0 with arg := Arg.num 0 }
     (f.thread 0).st = .ready ∧ f.isSuspended 0 = false ∧ (f.thread 0).pc.getLsbD 0 = false ∧ (f.thread 0).fetched = [] ∧
      (f.fetchAt 0 0x400).1 = .parcel 0) := by
  refine ⟨?_, ?_, ?_, ?_, ?_, ?_, ?_, ?_, ?_⟩ <;> decide +kernel

/-- A JOIN whose counter, in a slice, is not zero: the reading is its first, or one for a counter that an answer brought elsewhere. -/
theorem witness_AnswersReachTheirThreads_join :
    let s (again : Bool) : State := parks (.join .o 0x2000000000001000 sl again) .replies [7]
      { s0 with arg := Arg.num 7, net := [rq (.read 8) sl (.answered (.bytes (bytesOf 8 2)))] }
    (∀ again, ((s again).thread 0).wait = some ⟨.join .o 0x2000000000001000 sl again, .replies, 4, [7], [], none⟩) ∧
    leNat (bytesOf 8 2) ≠ 0 ∧ (∀ p, (s false).placeOf sl ≠ some (.far p)) ∧ untimed (s false) ∧
    (s true).access 0 0x2000000000001000 8 8 .block needR = (.ok sl, s true) ∧ inLs 0 sl = false ∧
    ∀ q ∈ (s true).net, q.tid? = some 0 → q.isWrite = false := by
  have h : ({ s0 with arg := Arg.num 7 } : State).placeOf sl = some (.slice 0 0) := by decide +kernel
  refine ⟨fun again => by cases again <;> rfl, by decide +kernel, fun p hp => ?_, (fun _ h => by cases h), by decide +kernel, by decide +kernel,
    by decide +kernel⟩
  exact absurd (h.symm.trans hp) (by simp)

/-- The acts that wait for an answer, each parked on request 7, which has its answer; and SEGLD with one half of its image come. -/
theorem witness_AnswersOfOtherInstructions :
    let acts : List Act := [.amo .add 3 4 0x1000 5 0 .o, .amo .fadd 3 4 0x1000 5 0 .a, .fe .synld 3 0x1000 0 50 .o, .fe .feset 0 0x1000 0 50 .o,
      .fork 7 .o 0x1000 (some rec1) true, .fork 7 .o 0x1000 (some rec1) false, .join .o 0x1000 (ls + 0x1000) true, .tend .o, .btag 7 .n 3 0x1000]
    let s (a : Act) (got : List (Nat × List Byte)) : State :=
      up (fun t => { t with wait := some ⟨a, .replies, 4, [7], got, none⟩ }) { s0 with arg := Arg.num 7, net := [rq (.read 8) sl (.answered (.bytes (bytesOf 8 0)))] }
    let hi := bytesOf 8 0x100000
    (∀ a ∈ acts, ((s a []).thread 0).wait = some ⟨a, .replies, 4, [7], [], none⟩ ∧
      (s a []).req? 7 = some (rq (.read 8) sl (.answered (.bytes (bytesOf 8 0)))) ∧ (s a []).arg.yes = false ∧ (s a []).replicasDue 7 = false) ∧
    (rq (.read 8) sl (.answered (.bytes []))).isWrite = false ∧ (s0.core 0).dqUsed ≠ some s0.now ∧
    (((s (.segld 0 0x1000) [(8, hi)]).thread 0).wait = some ⟨.segld 0 0x1000, .replies, 4, [7], [(8, hi)], none⟩ ∧
      segCause (s0.th.seg.get 0 (selOf 0x1000)) (selOf 0x1000) (offOf 0x1000) 16 needR = none ∧ offOf 0x1000 % 16 = 0 ∧
      segOk (BitVec.ofNat 128 (leNat (bytesOf 8 0 ++ hi))) = true ∧ segOk (BitVec.ofNat 128 (leNat (bytesOf 8 (2 ^ 61) ++ hi))) = false) := by
  refine ⟨?_, ?_, ?_, ?_⟩ <;> decide +kernel

/-- A page fault of thread 1 of component 3, and the fault ring of that component, posted and freed so far. -/
def pf : PFault := ⟨0, 0, 3, 0x12340000, 1, 5, 0x1234, 0, none⟩
def faults (posted freed : Nat) (l : List PFault) : State :=
  put pd (bytesOf 8 posted) (put (pd + 8) (bytesOf 8 freed) { s0 with
    arg := Arg.num 3, pfaults := l, faultsvcs := ⟨[(3, ⟨BitVec.ofNat 57 pd, true, 3, 17, 100, 0, 0⟩)]⟩,
    tags := ⟨(List.range 8).map fun i => (pd / 64 + i, 0)⟩ })
def onPage (s : State) : State := act 0 .ifence .page { s with arg := Arg.num 0 }

theorem witness_FaultServiceAndWatchdog :
    ((faults 4 2 [pf]).pfaults = pf :: [] ∧ pf.comp = (faults 4 2 [pf]).arg.n ∧ pf.written = none ∧
      ringRoom (faults 4 2 [pf]) pd 3) ∧
    (let s := onPage { faults 4 2 [{ pf with written := some 3 }] with fwakes := [0] }
     0 ∈ s.fwakes ∧ (∃ g ∈ s.pfaults, g.tid = 0) ∧ (s.thread 0).wait = some ⟨.ifence, .page, 4, [], [], none⟩) ∧
    (let s := onPage { faults 4 2 [{ pf with written := some 3 }] with now := 104 }
     s.pfaults = { pf with written := some 3 } :: [] ∧ pf.tid = 0 ∧ pf.src = 0 ∧ 3 + (s.faultService 3).fsbound.toNat < s.now) ∧
    (let s := act 0 (.waite 5) .cond { s0 with arg := Arg.num 0, now := 0x100000 * 1024 + 11 }
     (s.thread 0).wait = some ⟨.waite 5, .cond, 4, [], [], none⟩ ∧
      (⟨.waite 5, .cond, 4, [], [], none⟩ : Wait).unbounded = true ∧
      ((s.core 0).regAt s.now kWDCTL).toNat % 2 ^ 32 = 0x100000 ∧ (s.thread 0).issuedAt + 1024 * 0x100000 < s.now) := by
  have h : ringRoom (faults 4 2 [pf]) pd 3 := by unfold ringRoom ringIsFull; decide +kernel
  exact ⟨⟨by decide +kernel, by decide +kernel, by decide +kernel, h⟩, by decide +kernel, by decide +kernel, by decide +kernel⟩

/-- No thread of the small state waits, in a JOIN or otherwise. -/
theorem witness_ControlWindowAndScrubber_noJoin : ∀ u x k a l y, (s0.thread u).wait = some x → x.act ≠ .join k a l y := by
  intro u x k a l y h
  have hw : (s0.thread u).wait = none := by
    by_cases h0 : u = 0
    · subst h0; rfl
    · by_cases h1 : u = 1
      · subst h1; rfl
      · simp [State.thread, s0, Sp.get, Sp.getL, Ne.symm h0, Ne.symm h1]; rfl
  rw [hw] at h; cases h

/-- A shoot-down of core 0 that waits for the requests to two dies, and its acknowledgements. -/
theorem witness_ControlWindowAndScrubber_shootdowns :
    (let f : State := core (fun k => { k with sdBusy := true, sdDies := [2, 3] }) { s0 with arg := Arg.num2 0 4 }
     f.arg.k = 3 + 1 ∧ 3 ∈ (f.core 0).sdDies ∧ (f.core 0).sdDies.Nodup) ∧
    let f (l : List Nat) (x : Nat := 3) (y : Bool := false) : State :=
      core (fun k => { k with sdBusy := true, sdWait := l, sdBack := if y then [x] else [] }) { s0 with arg := { Arg.num2 0 x with yes := y } }
    ((f [3]).core 0).sdBusy = true ∧ ((f [3]).core 0).sdWait = [3] ∧ 3 ∈ ((f [3, 4]).core 0).sdWait ∧ 4 ∈ ((f [3, 4]).core 0).sdWait ∧
      3 ∉ ((f [3]).core 0).sdBack ∧ 3 / 64 ∉ ((f [3]).core 0).sdDies ∧ 3 / 64 = 0 / 1024 ∧
      200 ∈ ((f [200] 200).core 0).sdWait ∧ 200 ∉ ((f [200] 200).core 0).sdBack ∧ 200 / 64 ∉ ((f [200] 200).core 0).sdDies ∧ 200 / 64 ≠ 0 / 1024 ∧
      (f [200] 200 true).arg.yes = true ∧ 200 ∈ ((f [200] 200 true).core 0).sdBack ∧
      ∀ r ∈ (f [3]).net, ¬ (r.id ∈ ((f [3]).core 0).sdReqs ∧ r.cluster = 3) := by
  decide +kernel

theorem witness_ControlWindowAndScrubber :
    let w (off : Nat) : CwWrite := ⟨0, off, 7, false, 5, 1⟩
    let s (off : Nat) : State := { s0 with arg := Arg.num 0, cwWrites := [w off] }
    ((s 0x610348).cwWrites = w 0x610348 :: [] ∧ ((s 0x610348).core 0).sdBusy = false ∧ (s 0x610348).arg.k = 0) ∧
    ((s 0x610220).cwWrites = w (0x610200 + 16 * 2) :: [] ∧ ((s 0x610220).core 0).needs = []) ∧
    ((s 0x610038).cwWrites = w (0x610000 + 8 * 7) :: [] ∧ (s (0x600000 + 0x1000 * 15 + 64 * 7 + 8 * 7)).cwWrites = w 0x60F1F8 :: []) ∧
    ((s (0x601000 + 0x310)).cwWrites = w (0x600000 + 0x1000 * 1 + 0x310 + 0x18 * 0) :: [] ∧ (16 * 0 + 1 = (w 0).tid) ∧
      (s0.thread 0).st ≠ .halted ∧ (s0.thread 0).st ≠ .parked) ∧
    (decodeWin (ls + 0x400008) = some (.core 0 0x400008) ∧ ((s0.core 0).comp = some 0) ∧ decodeWin sl = some (.slice 0 0) ∧ s0.tagAt sl = 5 ∧
      (s0.comp 0).valid = true ∧ (s0.comp 0).asid = 5) ∧
    (decodeWin 0x100000 = none ∧ (∃ p ∈ s0.asids.entries, p.2.live = true ∧ p.2.base ≤ 0x100000 ∧ 0x100000 < p.2.base + p.2.size) ∧
      (2 ^ 57 + 64) / 2 ^ 57 = 1) := by
  decide +kernel

/-- A flit with a header word and a second word, and a CRC that differs by e from the right one. -/
def flit (h n e : Nat) : List Byte :=
  let b := bytesOf 8 h ++ bytesOf 8 n ++ List.replicate 236 3
  b ++ bytesOf 4 ((crc32 b).toNat + e)

theorem leNat_bytesOf (n w : Nat) : leNat (bytesOf n w) = w % 256 ^ n := by
  induction n generalizing w with
  | zero => simp [bytesOf, leNat, Nat.mod_one]
  | succ n ih =>
    have h := Nat.mod_mul (x := w) (a := 256) (b := 256 ^ n)
    rw [bytesOf, leNat, ih, BitVec.toNat_ofNat, show 256 ^ (n + 1) = 256 * 256 ^ n from Nat.pow_succ', h]

def crcOk (b : List Byte) : Prop := crc32 (b.take 252) = BitVec.ofNat 32 (leNat (b.drop 252))

theorem flit_crc (h n e : Nat) (he : e < 2) : crcOk (flit h n e) ↔ e = 0 := by
  have hl : (bytesOf 8 h ++ bytesOf 8 n ++ List.replicate 236 (3 : Byte)).length = 252 := by
    simp only [List.length_append, List.length_replicate]; rfl
  have hc := (crc32 (bytesOf 8 h ++ bytesOf 8 n ++ List.replicate 236 3)).isLt
  rw [crcOk, flit, List.take_left' hl, List.drop_left' hl, leNat_bytesOf, ← BitVec.toNat_inj, BitVec.toNat_ofNat]
  omega

def boxes (posted freed : Nat) (f : Mgmt → Mgmt := fun m => { m with owner := some 2, lease := 10 ^ 15 }) : State :=
  put pd (bytesOf 8 posted) (put (pd + 8) (bytesOf 8 freed) { s0 with
    arg := { Arg.num2 1 2 with bytes := (List.range 64).map (BitVec.ofNat 8), nums := [1, 2] }, mgmt := f s0.mgmt,
    mailboxes := ⟨[(1, ⟨BitVec.ofNat 57 pd, true, 3, 17, 0⟩)]⟩, tags := ⟨(List.range 8).map fun i => (pd / 64 + i, 0)⟩ })
def gate (g : Gateway) : State :=
  { s0 with
    arg := Arg.num2 1 2, gws := ⟨[(1, g)]⟩, net := [rq (.read 4) sl .sent]
    rx := ⟨[(118, ⟨List.replicate 16 0, (List.replicate 16 0).set 0 1, List.replicate 16 2⟩)]⟩ }

/-- The header check of a packet is in its last 16 bits, whatever the check computes: here the first 240 bits h. -/
def checked (h : Nat) : BitVec 256 := BitVec.ofNat 256 (h + (Config.headerCrc h).toNat * 2 ^ 240)

theorem checked_nat (h : Nat) (hh : h < 2 ^ 240) : (checked h).toNat = h + (Config.headerCrc h).toNat * 2 ^ 240 := by
  have hc := (Config.headerCrc h).isLt
  rw [checked, BitVec.toNat_ofNat, Nat.mod_eq_of_lt]
  have : (Config.headerCrc h).toNat * 2 ^ 240 ≤ (2 ^ 16 - 1) * 2 ^ 240 := Nat.mul_le_mul_right _ (by omega)
  have : (2 : Nat) ^ 240 + (2 ^ 16 - 1) * 2 ^ 240 = 2 ^ 256 := by decide
  omega

theorem checked_field (h lo n : Nat) (hh : h < 2 ^ 240) (hn : lo + n ≤ 240) (d : List Byte) (t : Word) :
    (⟨checked h, d, t⟩ : Packet).f lo n = bitsOf h lo n := by
  obtain ⟨k, hk⟩ : ∃ k, 240 = lo + n + k := ⟨240 - (lo + n), by omega⟩
  have e := checked_nat h hh
  have p : (2 : Nat) ^ 240 = 2 ^ lo * (2 ^ n * 2 ^ k) := by rw [hk, Nat.pow_add, Nat.pow_add, Nat.mul_assoc]
  simp only [Packet.f, bitsOf, e, p]
  rw [show h + (Config.headerCrc h).toNat * (2 ^ lo * (2 ^ n * 2 ^ k)) = h + 2 ^ lo * (2 ^ n * ((Config.headerCrc h).toNat * 2 ^ k)) by ring,
    Nat.add_mul_div_left _ _ (Nat.two_pow_pos _), Nat.add_mul_mod_self_left]

theorem checked_sound (h : Nat) (d : List Byte) (t : Word) (hh : h < 2 ^ 240) (hl : (d.length == 8 * bitsOf h 12 9) = true)
    (hp : ((crc32 d).toNat == t.toNat % 2 ^ 32) = true) (h5 : (t.toNat / 2 ^ 32 % 256 == 0x5A) = true) (ht : bitsOf h 0 4 < 7) (hc : bitsOf h 4 2 ≠ 3) :
    (⟨checked h, d, t⟩ : Packet).sound = true := by
  have e := checked_nat h hh
  have e1 : (checked h).toNat % 2 ^ 240 = h := by rw [e, Nat.add_mul_mod_self_right, Nat.mod_eq_of_lt hh]
  have e2 : (⟨checked h, d, t⟩ : Packet).f 240 16 = (Config.headerCrc h).toNat := by
    simp only [Packet.f, bitsOf, e]
    rw [Nat.add_mul_div_right _ _ (Nat.two_pow_pos _), Nat.div_eq_of_lt hh, Nat.zero_add, Nat.mod_eq_of_lt (Config.headerCrc h).isLt]
  have e3 : (⟨checked h, d, t⟩ : Packet).f 12 9 = bitsOf h 12 9 := checked_field h 12 9 hh (by omega) d t
  have e4 : (⟨checked h, d, t⟩ : Packet).cls = bitsOf h 4 2 := checked_field h 4 2 hh (by omega) d t
  have e5 : (⟨checked h, d, t⟩ : Packet).typ = bitsOf h 0 4 := checked_field h 0 4 hh (by omega) d t
  simp only [Packet.sound, Packet.headOk, Packet.dataOk, e1, e2, e3, e4, e5, hl, hp, h5, ht, bne_iff_ne.mpr hc, BitVec.ofNat_toNat,
    BitVec.setWidth_eq, beq_self_eq_true, decide_true, Bool.and_true, Bool.true_or]

/-- A flit on its way from die 1, with a message and a stamp for die dst. -/
def fl (dst due : Nat) : Flit := ⟨dst, 1, 3, some 5, some ⟨4, .homeApply, Arg.num 7⟩, some (7, ⟨true, 1, [9]⟩), due⟩
/-- The link from die 1 to die 2 with flits on their way, and an entry of its receive buffer kept for the group of `fl`. -/
def wire (l : List Flit) (b : List Byte := []) (kept : Nat := 1) (ask : Bool := false) : State :=
  { s0 with
    arg := { Arg.num2 1 2 with bytes := b }, dies := ⟨[(1, { Die.init with p := [0, 5, 0, 0, 0, 0, 0, 0, 0, 0] })]⟩,
    net := [rq (.write [1]) sl .sent], rx := ⟨[(12, ⟨List.replicate 16 0, (List.replicate 16 0).set 3 kept, List.replicate 16 2⟩)]⟩,
    links := ⟨[(12, { Link.init with beacon := 5, flying := l, replay := l, ask := ask })]⟩ }
/-- The same with every entry of the buffer taken. -/
def full12 : State :=
  { wire [fl 2 10] with rx := ⟨[(12, ⟨bufEntries 12 :: List.replicate 15 0, List.replicate 16 0, List.replicate 16 0⟩)]⟩ }

theorem full12_room : full12.rxRoom 12 3 = false := by
  have hr : List.range 16 = [0, 1, 2, 3, 4, 5, 6, 7, 8, 9, 10, 11, 12, 13, 14, 15] := by decide
  have hb : full12.rxBuf 12 = ⟨bufEntries 12 :: List.replicate 15 0, List.replicate 16 0, List.replicate 16 0⟩ := rfl
  have hf : (full12.rxBuf 12).taken = bufEntries 12 := by simp [RxBuf.taken, RxBuf.held, hr, hb, List.replicate_succ]
  have hk : (full12.rxBuf 12).kept.getD 3 0 = 0 := rfl
  have he : (full12.rxBuf 12).eff.getD 3 0 = 0 := rfl
  unfold State.rxRoom
  simp only [hf, hk, he, Nat.lt_irrefl, Nat.not_lt_zero, decide_false, Bool.or_false]

/-- Packets of 32 bytes of 4: a read request with tag 9 from package 3, and a reply with tag 2 from package 7. -/
def pk (h : Nat) : Packet := ⟨checked h, List.replicate 32 4, BitVec.ofNat 64 ((crc32 (List.replicate 32 4)).toNat + 0x5A * 2 ^ 32)⟩
theorem trailer_nat (c : Nat) (h : c < 2 ^ 32) : (BitVec.ofNat 64 (c + 0x5A * 2 ^ 32)).toNat = c + 0x5A * 2 ^ 32 :=
  (BitVec.toNat_ofNat _ _).trans (Nat.mod_eq_of_lt (by omega))

theorem trailer_poison (h : BitVec 256) (d : List Byte) (c : Nat) (hc : c < 2 ^ 32) :
    (⟨h, d, BitVec.ofNat 64 (c + 0x5A * 2 ^ 32)⟩ : Packet).poison = false := by
  simp only [Packet.poison, trailer_nat c hc, beq_eq_false_iff_ne]; omega

theorem pk_poison (h : Nat) : (pk h).poison = false := trailer_poison _ _ _ (BitVec.isLt _)

theorem trailer_sound (h c : Nat) (d : List Byte) (hh : h < 2 ^ 240) (hl : (d.length == 8 * bitsOf h 12 9) = true) (hd : (crc32 d).toNat = c)
    (ht : bitsOf h 0 4 < 7) (hc : bitsOf h 4 2 ≠ 3) : (⟨checked h, d, BitVec.ofNat 64 (c + 0x5A * 2 ^ 32)⟩ : Packet).sound = true := by
  have hb : c < 2 ^ 32 := hd ▸ (crc32 d).isLt
  have hw := trailer_nat c hb
  exact checked_sound h d _ hh hl (beq_iff_eq.mpr (by omega)) (beq_iff_eq.mpr (by omega)) ht hc

theorem pk_sound (h : Nat) (hh : h < 2 ^ 240) (hl : bitsOf h 12 9 = 4) (ht : bitsOf h 0 4 < 7) (hc : bitsOf h 4 2 ≠ 3) : (pk h).sound = true :=
  trailer_sound h _ _ hh (by rw [hl]; decide) rfl ht hc

theorem pk_head (h : Nat) (hh : h < 2 ^ 240) : (pk h).headOk = true := by
  have e : (checked h).toNat = h + (Config.headerCrc h).toNat * 2 ^ 240 := checked_nat h hh
  have e1 : (checked h).toNat % 2 ^ 240 = h := by rw [e, Nat.add_mul_mod_self_right, Nat.mod_eq_of_lt hh]
  have e2 : (pk h).f 240 16 = (Config.headerCrc h).toNat := by
    simp only [pk, Packet.f, bitsOf, e]
    rw [Nat.add_mul_div_right _ _ (Nat.two_pow_pos _), Nat.div_eq_of_lt hh, Nat.zero_add, Nat.mod_eq_of_lt (Config.headerCrc h).isLt]
  unfold Packet.headOk
  rw [e2]
  simp only [pk, e1, BitVec.ofNat_toNat, BitVec.setWidth_eq, beq_self_eq_true]

theorem pk_short (h : Nat) (hh : h < 2 ^ 240) (hl : bitsOf h 12 9 = 4) : ({ pk h with payload := [] } : Packet).sound = false := by
  have e : ({ pk h with payload := [] } : Packet).f 12 9 = 4 := (checked_field h 12 9 hh (by omega) [] _).trans hl
  simp only [Packet.sound, Packet.dataOk, e, List.length_nil, show ((0 : Nat) == 8 * 4) = false from rfl, Bool.and_false, Bool.false_and]

/-- A packet with another payload: a mailbox write of 64 bytes of class A from package 3. -/
def pkOf (h : Nat) (d : List Byte) : Packet := ⟨checked h, d, BitVec.ofNat 64 ((crc32 d).toNat + 0x5A * 2 ^ 32)⟩
def mailH : Nat := 6 + 2 ^ 4 + 8 * 2 ^ 12 + 3 * 2 ^ 44 + 2 ^ 160

theorem mail_good : let p := pkOf mailH (List.replicate 64 4)
    p.sound = true ∧ p.typ = 6 ∧ p.cls = 1 ∧ p.spkg = 3 ∧ p.addr % 64 = 1 ∧ p.data.length = 64 ∧ p.f 32 12 = 0 := by
  have f (lo n : Nat) (hn : lo + n ≤ 240) : (pkOf mailH (List.replicate 64 4)).f lo n = bitsOf mailH lo n := checked_field mailH lo n (by decide) hn _ _
  refine ⟨trailer_sound mailH _ _ (by decide) (by decide) rfl (by decide) (by decide), (f 0 4 (by omega)).trans (by decide),
    (f 4 2 (by omega)).trans (by decide), (f 44 12 (by omega)).trans (by decide), ?_, ?_, (f 32 12 (by omega)).trans (by decide)⟩
  · rw [show (pkOf mailH (List.replicate 64 4)).addr = bitsOf mailH 160 64 from f 160 64 (by omega)]; decide
  · rw [Packet.data, if_pos ((f 6 1 (by omega)).trans (by decide))]; rfl

/-- A posted write of class A to HBM of this package, and a packet for package 9. -/
def putH : Nat := 2 + 2 ^ 4 + 4 * 2 ^ 12 + 3 * 2 ^ 44 + 9 * 2 ^ 128 + 2 ^ 38 * 2 ^ 160
def farH : Nat := 4 * 2 ^ 12 + 9 * 2 ^ 32
def askH : Nat := 4 * 2 ^ 12 + 3 * 2 ^ 44 + 9 * 2 ^ 128
def repH : Nat := 1 + 4 * 2 ^ 12 + 7 * 2 ^ 44 + 2 * 2 ^ 128
def outH : Nat := 4 * 2 ^ 12 + 7 * 2 ^ 32 + 2 * 2 ^ 128
/-- An acknowledgement and a receiver-not-ready with tag 2 from package 7, and a posted write to it. -/
def ackH : Nat := 3 + repH - 1
def rnrH : Nat := 4 + repH - 1
def putoutH : Nat := 2 + outH

/-- A mailbox write of class A to mailbox 2, a management packet, and one of a reserved TYPE. -/
def mail2H : Nat := mailH + 2 ^ 160
def mgmtH : Nat := 5 + 2 ^ 4 + 4 * 2 ^ 12 + 3 * 2 ^ 44
def oddH : Nat := 7 + 4 * 2 ^ 12

/-- At gateway 1: the first two are served by gateway 0, the third nowhere; a mailbox write is denied to a package that is not the owner, and
a packet that the other gateway has passed on arrives. -/
theorem witness_LinksAndGateways_passed :
    let m := pkOf mail2H (List.replicate 64 4)
    (m.sound = true ∧ m.f 32 12 = 0 ∧ m.typ = 6 ∧ m.addr % 64 % 2 ≠ 1) ∧
    ((pk mgmtH).sound = true ∧ (pk mgmtH).f 32 12 = 0 ∧ (pk mgmtH).typ = 5) ∧
    ((pk oddH).headOk = true ∧ 7 ≤ (pk oddH).typ) ∧ (boxes 4 2).owns 3 = false ∧
    (let s := { gate Gateway.init with arg := { Arg.num2 1 2 with yes := true, pkt := pk askH } }
     s.arg.yes = true ∧ s.mgmt.recovery = false) := by
  have f (lo n : Nat) (hn : lo + n ≤ 240) : (pkOf mail2H (List.replicate 64 4)).f lo n = bitsOf mail2H lo n := checked_field mail2H lo n (by decide) hn _ _
  have g (h lo n v : Nat) (hh : h < 2 ^ 240) (hn : lo + n ≤ 240) (hv : bitsOf h lo n = v) : (pk h).f lo n = v := (checked_field h lo n hh hn _ _).trans hv
  refine ⟨⟨trailer_sound mail2H _ _ (by decide) (by decide) rfl (by decide) (by decide), (f 32 12 (by omega)).trans (by decide),
      (f 0 4 (by omega)).trans (by decide), ?_⟩,
    ⟨pk_sound mgmtH (by decide) (by decide) (by decide) (by decide), g mgmtH 32 12 _ (by decide) (by omega) (by decide),
      g mgmtH 0 4 _ (by decide) (by omega) (by decide)⟩,
    ⟨pk_head _ (by decide), Nat.le_of_eq (g oddH 0 4 7 (by decide) (by omega) (by decide)).symm⟩, by decide +kernel, rfl, rfl⟩
  rw [show (pkOf mail2H (List.replicate 64 4)).addr = bitsOf mail2H 160 64 from f 160 64 (by omega)]; decide

/-- The flits of `LinksAndGateways`. -/
theorem witness_LinksAndGateways_flits :
    (({ wire [] with links := .empty } : State).link 12).beacon ≠ ((wire []).die 1).p.getD 1 0 ∧
    ((wire []).link 12).beacon = ((wire []).die 1).p.getD 1 0 ∧
    (((wire [fl 2 10]).link 12).flying = fl 2 10 :: [] ∧ ((wire [fl 2 10]).link 12).ask = false ∧ (fl 2 10).due ≤ (wire []).now ∧
      (wire [fl 2 10]).rxRoom 12 3 = true ∧ (wire []).arg.bytes = [] ∧ (fl 2 10).beacon = some 5 ∧
      5 ≤ ((wire []).die 1).p.getD 1 0 ∧ 1 < ((wire []).die 2).p.length ∧ (wire []).req? 7 = some (rq (.write [1]) sl .sent)) ∧
    (wire []).now < (fl 2 11).due ∧ (full12.rxRoom 12 3 = false ∧ (full12.link 12).flying = fl 2 10 :: []) ∧
    (¬ crcOk (flit 0 0 1) ∧ crcOk (flit 0x2000 0 0) ∧ leNat ((flit 0x2000 0 0).take 8) / 2 ^ 13 ≠ 0 ∧ flit 0 0 1 ≠ []) ∧
    (let F := flit 0x314 0 0
     crcOk F ∧ leNat (F.take 8) / 2 ^ 13 = 0 ∧ leNat (F.take 8) / 2 ^ 8 % 16 = 3 ∧ leNat (F.take 8) % 16 = 4) ∧
    (((wire [fl 2 10] [] 1 true).link 12).ask = true ∧ ((wire [fl 2 10] [] 1 true).link 12).replay ≠ []) := by
  have hk (h n : Nat) : crcOk (flit h n 0) := (flit_crc h n 0 (by decide)).mpr rfl
  exact ⟨by decide +kernel, by decide +kernel, by decide +kernel, by decide +kernel, ⟨full12_room, rfl⟩,
    ⟨fun x => absurd ((flit_crc 0 0 1 (by decide)).mp x) (by decide), hk _ _, by decide +kernel, by decide +kernel⟩,
    ⟨hk _ _, by decide +kernel⟩, by decide +kernel⟩

def op (n : Nat) (h : Nat := outH) : OutPkt := ⟨2, 7, pk h, n⟩

theorem witness_LinksAndGateways :
    ((boxes 4 2).owns 2 = true ∧ ((boxes 4 2).mailboxes.get noMailbox 1).valid = true ∧ ringRoom (boxes 4 2) pd 3 ∧
      ringIsFull (boxes 5 2) pd 3 ∧ (boxes 4 2).arg.bytes.length = 64 ∧ (boxes 4 2).owns 1 = false ∧ (boxes 4 2).resident = true) ∧
    (((gate { Gateway.init with out := [op 6] }).gw 1).out = op 6 :: [] ∧ (op 6).resends < 7 ∧
      ((gate { Gateway.init with out := [op 7] }).gw 1).out = op 7 :: [] ∧ 7 ≤ (op 7).resends ∧
      (gate Gateway.init).req? (op 7).req = some (rq (.read 4) sl .sent) ∧
      ((gate { Gateway.init with out := [op 6] }).gw 1).waiting = [] ∧
      (((gate { Gateway.init with out := [op 6] }).gw 1).buckets.get Bucket.init (op 6).pkt.asid.toNat).rate = 0xFFFF) ∧
    (let k := ((gate { Gateway.init with buckets := ⟨[((op 6).pkt.asid.toNat, ⟨3, 20, 0, 5⟩)]⟩ }).gw 1).buckets.get Bucket.init (op 6).pkt.asid.toNat
     k.rate ≠ 0xFFFF ∧ k.tokens < 1 + ((op 6).pkt.payload.length + 63) / 64) ∧
    (let s := gate { Gateway.init with buckets := ⟨[(2, ⟨3, 20, 18, 5⟩)]⟩ }
     ((s.gw 1).buckets.get Bucket.init 2).rate ≠ 0xFFFF ∧ ((s.gw 1).buckets.get Bucket.init 2).due ≤ s.now ∧ (s.gw 1).waiting = []) ∧
    (let s := { boxes 4 2 with arg := { Arg.num2 2 1 with nums := List.replicate 16 2 } }
     s.owns s.arg.n = true ∧ 2 * s.arg.nums.sum ≤ bufEntries 1 ∧ (s.rxBuf 1).eff.length = 16 ∧ s.arg.nums.length = 16) := by
  have hr : ringRoom (boxes 4 2) pd 3 := by unfold ringRoom ringIsFull; decide +kernel
  have hfu : ringIsFull (boxes 5 2) pd 3 := by unfold ringIsFull; decide +kernel
  have hb : ((gate { Gateway.init with buckets := ⟨[((op 6).pkt.asid.toNat, ⟨3, 20, 0, 5⟩)]⟩ }).gw 1).buckets.get Bucket.init (op 6).pkt.asid.toNat
      = ⟨3, 20, 0, 5⟩ := by
    simp [gate, State.gw, Sp.get, Sp.getL]
  refine ⟨⟨by decide +kernel, by decide +kernel, hr, hfu, by decide +kernel⟩, ⟨rfl, by decide, rfl, by decide, rfl, rfl, rfl⟩, ?_, by decide +kernel,
    ⟨by decide +kernel, Nat.le_max_left _ _, by decide +kernel, by decide +kernel⟩⟩
  rw [hb]; exact ⟨by decide, by decide⟩

/-- The packets of `LinksAndGateways`, each at a gateway that has an entry for its group. -/
theorem witness_LinksAndGateways_packets :
    let room (s : State) : Prop := s.arg.yes = false ∧ s.rxRoom 118 0 = true
    let dest (h : Nat) : Prop := (pk h).f 32 12 = (gate Gateway.init).pkgId.toNat ∧ (pk h).f 8 4 = 0
    let done (h : Nat) (r : Option Packet) : Applied := ⟨(pk h).spkg, (pk h).tag, none, r⟩
    let find (s : State) (p : Packet) : Option Applied := (s.gw 1).replies.find? fun e => e.pkg == p.spkg && e.tag == p.tag
    (room (gate Gateway.init) ∧ ((gate Gateway.init).mgmt.recovery = false ∧ ((gate Gateway.init).gw 1).replies = [] ∧
      ((gate Gateway.init).gw 1).early = [] ∧ ((gate Gateway.init).gw 0).early = []) ∧ ({ gate Gateway.init with mgmt := { s0.mgmt with recovery := true } } : State).mgmt.recovery = true) ∧
    ((pk askH).sound = true ∧ dest askH ∧ (pk askH).typ = 0 ∧ (pk askH).cls = 0 ∧ (pk askH).spkg = 3 ∧ (pk askH).tag = 9 ∧ (pk askH).seq = 0 ∧
      ((gate Gateway.init).gw 1).seqIn.get 0 3 = 0 ∧ ((gate { Gateway.init with seqIn := ⟨[(3, 1)]⟩ }).gw 1).seqIn.get 0 3 ≠ 0) ∧
    ((pk askH).addr / 2 ^ 40 = (gate Gateway.init).pkgId.toNat ∧ (pk askH).addr / 2 ^ 39 % 2 = 0) ∧
    (find (gate { Gateway.init with replies := [done askH none] }) (pk askH) = some (done askH none) ∧
      find (gate { Gateway.init with replies := [done askH (some (pk repH))] }) (pk askH) = some (done askH (some (pk repH)))) ∧
    ((pk repH).sound = true ∧ dest repH ∧ (pk repH).typ = 1 ∧ (pk repH).poison = false ∧ (op 0).tag = (pk repH).tag ∧
      (op 0).pkt.f 32 12 = (pk repH).spkg ∧ ((gate { Gateway.init with out := [op 0] }).gw 1).out = [op 0]) ∧
    ((pk ackH).sound = true ∧ dest ackH ∧ (pk ackH).typ = 3 ∧ (op 0 putoutH).pkt.typ = 2 ∧ (op 0 putoutH).tag = (pk ackH).tag ∧
      (op 0 putoutH).pkt.f 32 12 = (pk ackH).spkg) ∧
    ((pk rnrH).sound = true ∧ dest rnrH ∧ (pk rnrH).typ = 4 ∧ (op 0).tag = (pk rnrH).tag ∧ (op 0).pkt.f 32 12 = (pk rnrH).spkg ∧
      (rq (.read 4) sl .sent).once = false) ∧
    ({ pk askH with payload := [] } : Packet).sound = false ∧
    ({ pk farH with payload := [] } : Packet).dataOk = false ∧
    (let p := pkOf mailH (List.replicate 64 4)
     let s := boxes 4 2 fun m => { m with owner := some 3, lease := 10 ^ 15 }
     p.sound = true ∧ p.typ = 6 ∧ p.cls = 1 ∧ p.spkg = 3 ∧ p.addr % 64 = 1 ∧ p.data.length = 64 ∧ p.f 32 12 = 0 ∧ s.owns 3 = true) ∧
    ((pk putH).sound = true ∧ (pk putH).typ = 2 ∧ (pk putH).cls = 1 ∧ (pk putH).addr = 2 ^ 38) ∧
    ((pk farH).headOk = true ∧ (pk farH).f 32 12 ≠ (gate Gateway.init).pkgId.toNat ∧ (pk farH).dataOk = true) := by
  have hf (h lo n : Nat) (hh : h < 2 ^ 240) (hn : lo + n ≤ 240) : (pk h).f lo n = bitsOf h lo n := checked_field h lo n hh hn _ _
  have hs (h : Nat) (hh : h < 2 ^ 240) (hl : bitsOf h 12 9 = 4) (ht : bitsOf h 0 4 < 7) (hc : bitsOf h 4 2 ≠ 3) : (pk h).sound = true := pk_sound h hh hl ht hc
  have f (h lo n v : Nat) (hh : h < 2 ^ 240) (hn : lo + n ≤ 240) (hv : bitsOf h lo n = v) : (pk h).f lo n = v := (hf h lo n hh hn).trans hv
  have hd (h : Nat) (hh : h < 2 ^ 240) (h1 : bitsOf h 32 12 = 0) (h2 : bitsOf h 8 4 = 0) : (pk h).f 32 12 = (gate Gateway.init).pkgId.toNat ∧ (pk h).f 8 4 = 0 :=
    ⟨f h 32 12 0 hh (by omega) h1, f h 8 4 0 hh (by omega) h2⟩
  have hm := mail_good
  refine ⟨⟨⟨rfl, rfl⟩, by decide +kernel, rfl⟩,
    ⟨hs _ (by decide) (by decide) (by decide) (by decide), hd _ (by decide) (by decide) (by decide), f askH 0 4 _ (by decide) (by omega) (by decide),
      f askH 4 2 _ (by decide) (by omega) (by decide), f askH 44 12 _ (by decide) (by omega) (by decide),
      f askH 128 32 _ (by decide) (by omega) (by decide), f askH 96 32 _ (by decide) (by omega) (by decide), by decide +kernel, by decide +kernel⟩,
    ⟨?_, ?_⟩, ⟨by simp [gate, State.gw, Sp.get, Sp.getL], by simp [gate, State.gw, Sp.get, Sp.getL]⟩,
    ⟨hs _ (by decide) (by decide) (by decide) (by decide), hd _ (by decide) (by decide) (by decide), f repH 0 4 _ (by decide) (by omega) (by decide),
      pk_poison repH, (f repH 128 32 2 (by decide) (by omega) (by decide)).symm,
      (f outH 32 12 7 (by decide) (by omega) (by decide)).trans (f repH 44 12 7 (by decide) (by omega) (by decide)).symm, rfl⟩,
    ⟨hs _ (by decide) (by decide) (by decide) (by decide), hd _ (by decide) (by decide) (by decide), f ackH 0 4 _ (by decide) (by omega) (by decide),
      f putoutH 0 4 _ (by decide) (by omega) (by decide), (f ackH 128 32 2 (by decide) (by omega) (by decide)).symm,
      (f putoutH 32 12 7 (by decide) (by omega) (by decide)).trans (f ackH 44 12 7 (by decide) (by omega) (by decide)).symm⟩,
    ⟨hs _ (by decide) (by decide) (by decide) (by decide), hd _ (by decide) (by decide) (by decide), f rnrH 0 4 _ (by decide) (by omega) (by decide),
      (f rnrH 128 32 2 (by decide) (by omega) (by decide)).symm,
      (f outH 32 12 7 (by decide) (by omega) (by decide)).trans (f rnrH 44 12 7 (by decide) (by omega) (by decide)).symm, rfl⟩,
    pk_short askH (by decide) (by decide), ?_, ⟨hm.1, hm.2.1, hm.2.2.1, hm.2.2.2.1, hm.2.2.2.2.1, hm.2.2.2.2.2.1, hm.2.2.2.2.2.2, by decide +kernel⟩,
    ⟨hs _ (by decide) (by decide) (by decide) (by decide), f putH 0 4 _ (by decide) (by omega) (by decide),
      f putH 4 2 _ (by decide) (by omega) (by decide), f putH 160 64 _ (by decide) (by omega) (by decide)⟩, pk_head _ (by decide), ?_, ?_⟩
  · rw [show (pk askH).addr = 0 from f askH 160 64 _ (by decide) (by omega) (by decide)]; decide +kernel
  · rw [show (pk askH).addr = 0 from f askH 160 64 _ (by decide) (by omega) (by decide)]; decide
  · have e : ({ pk farH with payload := [] } : Packet).f 12 9 = 4 := (checked_field farH 12 9 (by decide) (by omega) [] _).trans (by decide)
    simp only [Packet.dataOk, e, List.length_nil, show ((0 : Nat) == 8 * 4) = false from rfl, Bool.false_and]
  · rw [hf farH 32 12 (by decide) (by omega)]; decide
  · have e : (pk farH).f 12 9 = 4 := f farH 12 9 4 (by decide) (by omega) (by decide)
    simp only [Packet.dataOk, e]; decide +kernel

/-- The package with another state of its management. -/
def mg (f : Mgmt → Mgmt) : State := { s0 with arg := Arg.num2 2 3, mgmt := f s0.mgmt }
def ck (f : Clock → Clock) : State := { s0 with arg := Arg.num2 2 3, clock := f s0.clock }

theorem witness_DeviceMessages :
    (let s := mg id
     s.mgmt.recovery = false ∧ s.owner = none) ∧
    (let s := mg fun m => { m with owner := some 2, lease := 10 ^ 15, nominee := some 2 }
     s.owner = some 2 ∧ s.mgmt.nominee = some s.arg.n) ∧
    (let s := mg fun m => { m with owner := some 3, lease := 10 ^ 15 }
     s.owner ≠ some 2 ∧ s.mgmt.nominee ≠ some s.arg.n) ∧
    (let s := mg fun m => { m with owner := some 3, lease := s0.time }
     (s.mgmt.lease - s.time).toInt ≤ 0) ∧
    ((mg fun m => { m with recovery := true }).mgmt.recovery = true ∧ (mg fun m => { m with owner := some 2, lease := 10 ^ 15 }).mgmt.recovery = false) ∧
    ((ck fun c => { c with master := some 4 }).clock.master = some 4 ∧ (ck id).clock.master = none) ∧
    (({ s0 with arg := { Arg.num 2 with item := .stepEntry 4 } } : State).arg.item = .stepEntry 4) ∧
    ((ck fun c => { c with delayReq := some (2, 5) }).clock.delayReq = some ((ck id).arg.n, 5) ∧ (ck fun c => { c with domain := 2 }).clock.domain = 2) ∧
    (let s := { ck fun c => { c with domain := 6, master := some 4, sync := some (2, 5), delayReq := some (2, 5) } with arg := { Arg.num2 2 3 with q := 6, r := 4 } }
     s.arg.q = s.clock.domain ∧ s.clock.master = some s.arg.r ∧ s.clock.sync = some (s.arg.n, 5) ∧ s.clock.delayReq = some (s.arg.n, 5) ∧
      (ck fun c => { c with domain := 6 }).arg.q ≠ (ck fun c => { c with domain := 6 }).clock.domain) ∧
    (let s := ck fun c => { c with sync := some (2, 65536 * 1000003) }
     let t2 : Time := 65536 * 1000003
     (s.clock.sync = some (s.arg.n, t2) ∧ ((t2 - BitVec.ofNat 80 (65536 * s.arg.k + s.arg.p)).toInt - s.clock.delay).natAbs ≤ 65536 * 1000000)) ∧
    (let s := ck fun c => { c with sync := some (2, 65536 * 1000003 + 1) }
     let t2 : Time := 65536 * 1000003 + 1
     (s.clock.sync = some (s.arg.n, t2) ∧ 65536 * 1000000 < ((t2 - BitVec.ofNat 80 (65536 * s.arg.k + s.arg.p)).toInt - s.clock.delay).natAbs)) := by
  decide +kernel

/-- A program with one component on cluster 0, threads 0 and 2 of each core with 32 registers, and one ASID. -/
def comp1 : Component := { noComponent with
  clmask := [1], asid := 5, valid := true, win := 0x55E5, trapvec := 0x880, segimg := [sgi ls 0x100000 15, 0, 0, 0, 0, 0, 0, 0] }
def prog : Program := ⟨[(0, comp1)], [], [], [], [(0, ⟨5, ⟨true, 0x100000, 0, 0x10000000⟩, 0, []⟩)], [], [], [], [(ls + 5, 7)], [99]⟩
def owned (f : State → State := id) : State :=
  f { s0 with arg := { Arg.num2 2 0 with prog := prog }, mgmt := { s0.mgmt with owner := some 2, lease := 10 ^ 15 } }

theorem witness_ProgramsComeAndGo :
    (let s := owned fun s => { s with resident := false }
     s.owns 2 = true ∧ s.resident = false ∧ (((s.bare.tables prog).place prog.bytes).windows prog).programOk prog = true) ∧
    ((owned).owns 2 = true ∧ (owned).resident = true ∧ (mg id).owns 2 = false) ∧
    ((owned).comp 0 = c0 ∧ c0.valid = true ∧ (owned).ended.contains 0 = false ∧ (owned).suspended = [] ∧ (owned).damaged = []) ∧
    (∃ v ∈ (owned fun s => { s with suspended := [⟨0, true⟩] }).suspended, v.comp = 0) ∧
    (owned fun s => { s with damaged := [(0, 5)] }).damaged = (0, 5) :: [] ∧
    ((s0.thread 0).winSize ≠ 0 ∧ (s0.thread 0).st ≠ .halted ∧ ((up fun t => { t with st := .halted }).thread 0).st = .halted ∧
      (s0.core 0).comp = some 0) := by
  decide +kernel

theorem witness_DecodeOfEncode : (Instr.div 31 4 0).wf = true ∧ encode (.div 31 4 0) = some [0x83, 0x4F, 0x00, 0x31] := by decide +kernel

theorem witness_EncodeOfDecode : decode [0x83, 0x41, 0x0A, 0x31, 5] = .instr (.div 3 4 5) 4 [5] := by decide +kernel

/-- The first step after reset with a word placed: two words, of a DIV and of no instruction. -/
theorem witness_StepRunsDecoded :
    let s (w : Nat) : State := State.reset.withFetchWord 32 w
    let z (w : Nat) : State := ({ s w with slot := 1 } : State).startIssue 0
    let b (w : Nat) : Option (List Byte) := match (z w).fetchInstr 0 with | (.bytes b, _) => some b | _ => none
    (s 0x310A4183).power = true ∧ (s 0x310A4183).agenda = [] ∧ (s 0x310A4183).takeDue (some 2) = none ∧
    (s 0x310A4183).nextSlot = some (0, .thread 0) ∧ ((z 0x310A4183).thread 0).deferred = none ∧ ((z 0x310A4183).thread 0).async = none ∧
    b 0x310A4183 = some [0x83, 0x41, 0x0A, 0x31] ∧ decode [0x83, 0x41, 0x0A, 0x31] = .instr (.div 3 4 5) 4 [] ∧
    b 0xFFFFFFFF = some [0xFF, 0xFF, 0xFF, 0xFF] ∧ ∃ why bits n, decode [0xFF, 0xFF, 0xFF, 0xFF] = .reject why bits n := by
  refine ⟨by decide +kernel, by decide +kernel, by decide +kernel, by decide +kernel, by decide +kernel, by decide +kernel, by decide +kernel,
    by decide +kernel, by decide +kernel, _, _, _, rfl⟩

theorem witness_StepsGoOnWithPower : State.reset.power = true ∧ ({ State.reset with power := false } : State).agenda = [] := by decide +kernel

theorem witness_StepKeepsMemoryForm : State.reset.memOk ∧ (∀ u, (State.reset.thread u).vl.toNat ≤ (State.reset.thread u).vlmax) ∧
    ∃ t, step (State.reset.withFetchWord 32 0x310A4183) = .next t :=
  ⟨by unfold State.memOk; decide +kernel, fun _ => (by decide : Thread.init.vl.toNat ≤ Thread.init.vlmax), _, rfl⟩

/-! ### Results worked out by hand from the rules; one step each -/

def after? (i : Instr) (s : State) : State := match exec i s with | .next t => t | _ => s
def regsAre (a b : Word) : State := up fun t => { t with g := ⟨[(3, a), (4, b)]⟩ }

/-- 07 R93: division truncates, a remainder has the dividend's sign, and the most negative number by -1 wraps. -/
theorem test_div_truncates : (after? (.div 5 3 4) (regsAre (-7) 2)).g 5 = -3 ∧ (after? (.rem 5 3 4) (regsAre (-7) 2)).g 5 = -1 := by decide +kernel
theorem test_div_overflow : (after? (.div 5 3 4) (regsAre 0x8000000000000000 (-1))).g 5 = 0x8000000000000000 ∧
    (after? (.rem 5 3 4) (regsAre 0x8000000000000000 (-1))).g 5 = 0 := by decide +kernel
/-- 07 R93: the upper halves of products, and a shift by the low six bits. -/
theorem test_mulh_signs : (after? (.mulh 5 3 4) (regsAre (-1) (-1))).g 5 = 0 ∧ (after? (.mulhu 5 3 4) (regsAre (-1) (-1))).g 5 = -2 := by decide +kernel
theorem test_sra_shift : (after? (.sra 5 3 4) (regsAre 0x8000000000000000 65)).g 5 = 0xC000000000000000 := by decide +kernel
theorem test_g0_reads_zero : (after? (.addi 0 3 5) (regsAre 1 1)).g 0 = 0 := by decide +kernel
/-- A link register that is also the base: the target is the old value. -/
theorem test_jalr_link_is_base : (after? (.jalr 3 3 4) (regsAre 0x5000 0)).th.pc = 0x5004 ∧ (after? (.jalr 3 3 4) (regsAre 0x5000 0)).g 3 = 0x404 := by
  decide +kernel
/-- An untaken branch goes on, and a taken one adds twice its offset (07 R101). -/
theorem test_beq : (after? (.beq 3 4 0xFFC) (regsAre 1 1)).th.pc = 0x400 - 8 ∧ (after? (.beq 3 4 0xFFC) (regsAre 1 2)).th.pc = 0x404 := by decide +kernel
/-- A byte load that extends its sign from the byte at ls + 0x1004, and a byte store beside it. -/
theorem test_lb_sign : (after? (.lb .o 5 3 4) (regsAre 0x1000 0)).g 5 = 0xFFFFFFFFFFFFFF83 := by decide +kernel
theorem test_sb_byte : (after? (.sb .o 4 3 4) (regsAre 0x1000 0x1AB)).mem.get 0 (ls + 0x1004) = 0xAB ∧
    (after? (.sb .o 4 3 4) (regsAre 0x1000 0x1AB)).mem.get 0 (ls + 0x1005) = 0 := by decide +kernel
/-- 1.0 + 2^-24 in FP32 is a tie: to even, and it raises NX. -/
theorem test_fadd_tie : (after? (.fadd .s .rne 5 3 4) (regsAre 0x3F800000 0x33800000)).g 5 = 0x3F800000 ∧
    (after? (.fadd .s .rne 5 3 4) (regsAre 0x3F800000 0x33800000)).th.fcsr = 1 := by decide +kernel
theorem test_fadd_up : (after? (.fadd .s .rup 5 3 4) (regsAre 0x3F800000 0x33800000)).g 5 = 0x3F800001 := by decide +kernel
/-- A trap saves the PC and the cause, and enters at the trap vector. -/
theorem test_div_by_zero : (after? (.div 5 3 4) (regsAre 7 0)).th.pc = 0x800 ∧ (after? (.div 5 3 4) (regsAre 7 0)).th.epc = 0x400 ∧
    (after? (.div 5 3 4) (regsAre 7 0)).g 5 = 0 := by decide +kernel
/-- A lane-wise sum of four words wraps in each lane; the lanes past VL keep their values. -/
theorem test_vadd_lanes :
    let s := core fun k => { k with vf := ⟨[(0, BitVec.ofNat 512 (0xFFFFFFFF + 2 * 2 ^ 32)), (1, BitVec.ofNat 512 (1 + 2 ^ 32 + 9 * 2 ^ 128)), (2, 7 <<< 128)]⟩ }
    (after? (.vadd .vv 0 2 0 1) s).vreg 0 2 = BitVec.ofNat 512 (0 + 3 * 2 ^ 32 + 7 * 2 ^ 128) := by decide +kernel
/-- The check value of the CRC-32 of flits and payloads: "123456789". -/
theorem test_crc32_check : crc32 [0x31, 0x32, 0x33, 0x34, 0x35, 0x36, 0x37, 0x38, 0x39] = 0xCBF43926 := by decide +kernel

end Sys2Proof.Tests
end

section
/-!
Tasks, deques and steals (01 R18 to R22; 13 R198; 15 R208).
-/

namespace Sys2Proof.Proofs
open Sys2Proof.Machine Sys2Proof.Spec

/-- What an instruction answers is the state that `exec` gives it. -/
theorem answers_next {i : Instr} {s t : State} {P : State → Prop} (h : exec i s = .next t) (ha : Answers i s P) : P t := by
  obtain ⟨u, hu, hP⟩ := ha
  cases h.symm.trans hu
  exact hP

/-! ### Messages to a die that is none -/

/-- A link is numbered by its two dies, of which there are ten (29 R282): no flit brings a message to a die past the last one. -/
theorem carry_past_dies (s : State) {src dst : Nat} (group cycles : Nat) {i : Instr} (a : Arg) (stamp : Option (Nat × Stamp))
    (hd : 10 ≤ dst) (hs : src ≠ dst) (hi : i ≠ .flitReceive)
    (hp : ∀ d ∈ s.pending, d.ev ≠ ⟨i, a⟩ ∧ d.ev.what ≠ .flitReceive) :
    ¬ comes (s.carry src dst group cycles i a stamp) i a := by
  have hpend : ∀ d ∈ (s.carry src dst group cycles i a stamp).pending,
      d ∈ s.pending ∨ d.ev = ⟨.flitReceive, Arg.num2 src dst⟩ := by
    intro d h
    unfold State.carry at h
    rw [if_neg hs] at h
    rcases List.mem_append.1 h with h | h
    · exact .inl h
    · rw [List.mem_singleton.1 h]; exact .inr rfl
  rintro (⟨due, h⟩ | ⟨l, f, -, -, h⟩) <;> rcases hpend _ h with h | h
  · exact (hp _ h).1 rfl
  · exact hi (congrArg Event.what h)
  · exact (hp _ h).2 rfl
  · have : l % 10 = dst := congrArg (fun e : Event => e.arg.k) h
    omega

/-! ### A JOIN of a thread past the last die -/

/-- Thread 163,840, which would stand on die 10, waits in a JOIN whose counter, at the first word of slice 0 of die 0, is 0; its
home is to read it now, and owes the next reading already. -/
def joinFromDie10 : State :=
  { State.reset.setThread 163840 { Thread.init with wait := some ⟨.join .o 0 (sliceBase 0 0) false, .counter, 0, [], [], none⟩ } with
    arg := Arg.num2 163840 0
    pending := [⟨1024, ⟨.joinPoll, Arg.num2 163840 0⟩⟩] }

/-- The home sends its zero from die 0 to die 10. -/
theorem joinFromDie10_exec : exec .joinPoll joinFromDie10 = .next
    ({ joinFromDie10 with joins := [⟨163840, 0, none, none⟩] }.carry 0 10 replyGroup 38 .joinPoll
      { Arg.num2 163840 0 with yes := true } none) :=
  congrArg Host.Outcome.next (by decide +kernel : joinFromDie10.joinAgain 163840 0 = _)

/-- Refutes O43: the statement lets any number stand for a thread. The zero that the home has read for a JOIN of thread 163,840 leaves for
die 10, and no flit brings it there. -/
theorem not_tasksForkJoinAndEnd : ¬ Obligations.TasksForkJoinAndEnd := by
  unfold Obligations.TasksForkJoinAndEnd
  intro h
  obtain ⟨-, -, -, hpoll, -⟩ := h .o 0 joinFromDie10
  obtain ⟨hcounter, -⟩ := hpoll _ (sliceBase 0 0) false rfl rfl (by decide +kernel)
  obtain ⟨hzero, -⟩ := hcounter rfl rfl rfl (.inl ⟨0, 0, by decide +kernel⟩) (by decide +kernel)
  obtain ⟨⟨-, hcomes⟩, -⟩ := answers_next joinFromDie10_exec (hzero (by decide +kernel))
  refine carry_past_dies _ _ _ _ _ (Nat.le_refl 10) (by decide) (by decide) (fun d hd => ?_) hcomes
  rw [List.mem_singleton.1 hd]
  decide

/-! ### A steal from past the last die -/

/-- Core 10,240, which would stand on die 10, has asked core 0 for a task; the deque of core 0 is empty. -/
def stealFromDie10 : State := { State.reset with arg := Arg.num 10240, steals := [(10240, 0, none)] }

/-- Core 0 sends its "empty" from die 0 to die 10. -/
theorem stealFromDie10_exec : exec .stealService stealFromDie10 = .next
    ({ stealFromDie10.modCore 0 fun k => { k with dqUsed := some 0 } with steals := [(10240, 0, some none)] }.carry 0 10 replyGroup
      59 .stealReply (Arg.num 10240) none) :=
  congrArg Host.Outcome.next (by decide +kernel : stealFromDie10.stealService 10240 = _)

/-- Refutes O45: the statement lets any number stand for a core. What core 0 answers to a steal of core 10,240 leaves for die 10, and no
flit brings it there. -/
theorem not_dequesFeedIdleThreads : ¬ Obligations.DequesFeedIdleThreads := by
  unfold Obligations.DequesFeedIdleThreads
  intro h
  obtain ⟨-, -, -, hserve, -⟩ := h stealFromDie10
  have hwaits : ¬ pushWaits stealFromDie10 0 := by
    rintro ⟨u, w, ib, k, a, r, -, hw, -⟩
    exact absurd hw (by simp [stealFromDie10, State.thread, State.reset, Thread.init])
  obtain ⟨hempty, -⟩ := hserve 0 [] rfl rfl (by decide) hwaits
  obtain ⟨-, -, hcomes, -⟩ := answers_next stealFromDie10_exec (hempty rfl)
  exact carry_past_dies _ _ _ _ _ (Nat.le_refl 10) (by decide) (by decide) (fun d hd => absurd hd (List.not_mem_nil)) hcomes

end Sys2Proof.Proofs
end

section
/-! What leaves the suspended components as they are: the operations of the state. -/

namespace Sys2Proof.Machine

/-- A fold keeps what each of its steps keeps. -/
theorem foldl_keeps {α β σ : Type} (p : σ → β) {f : σ → α → σ} (h : ∀ x a, p (f x a) = p x) (l : List α) (x : σ) :
    p (l.foldl f x) = p x := by
  induction l generalizing x with
  | nil => rfl
  | cons a r ih => rw [List.foldl_cons, ih, h]

/-- What both branches keep, a conditional keeps. -/
theorem ite_keeps {α β : Type} (p : α → β) {c : Prop} [Decidable c] {a b : α} {y : β} (ha : p a = y) (hb : p b = y) :
    p (if c then a else b) = y := by
  split
  · exact ha
  · exact hb

/-- The suspended components, read by a definition that a check of two states need not unfold. (Under a projection the kernel
evaluates the states it compares.) -/
def State.kept (s : State) : List Saved := s.suspended

namespace State

theorem kept_eq (s : State) : s.kept = s.suspended := rfl

@[simp] theorem setThread_kept (s : State) (t : Nat) (th : Thread) : (s.setThread t th).kept = s.kept := rfl
@[simp] theorem modThread_kept (s : State) (t : Nat) (f : Thread → Thread) : (s.modThread t f).kept = s.kept := rfl
@[simp] theorem modCore_kept (s : State) (c : Nat) (f : Core → Core) : (s.modCore c f).kept = s.kept := rfl
@[simp] theorem modCluster_kept (s : State) (c : Nat) (f : Cluster → Cluster) : (s.modCluster c f).kept = s.kept := rfl
@[simp] theorem modPort_kept (s : State) (p : Nat) (f : Port → Port) : (s.modPort p f).kept = s.kept := rfl
@[simp] theorem owe_kept (s : State) (due : Nat) (i : Instr) (a : Arg) : (s.owe due i a).kept = s.kept := rfl

theorem withNet_kept (s : State) (x) : { s with net := x }.kept = s.kept := rfl
theorem withReplicas_kept (s : State) (x) : { s with replicas := x }.kept = s.kept := rfl
theorem withPfaults_kept (s : State) (x) : { s with pfaults := x }.kept = s.kept := rfl
theorem withCwWrites_kept (s : State) (x) : { s with cwWrites := x }.kept = s.kept := rfl
theorem withTransit_kept (s : State) (x) : { s with transit := x }.kept = s.kept := rfl
theorem withCreditsBack_kept (s : State) (x) : { s with creditsBack := x }.kept = s.kept := rfl
theorem withHeld_kept (s : State) (x) : { s with held := x }.kept = s.kept := rfl
theorem withStepsOver_kept (s : State) (x) : { s with stepsOver := x }.kept = s.kept := rfl

/-! ### Completing, waiting, trapping -/

@[simp] theorem finish_kept (s : State) (t : Nat) (len : Word) (dist : Nat) : (s.finish t len dist).kept = s.kept := rfl
@[simp] theorem jump_kept (s : State) (t : Nat) (target : Word) (call : Bool) (dist : Nat) :
    (s.jump t target call dist).kept = s.kept := rfl
@[simp] theorem trap_kept (s : State) (t : Nat) (c : Cause) (tv : Word) : (s.trap t c tv).kept = s.kept := rfl
@[simp] theorem waitFor_kept (s : State) (t : Nat) (a : Act) (why : Why) (reqs : List Nat) (got : List (Nat × List Byte)) :
    (s.waitFor t a why reqs got).kept = s.kept := rfl
@[simp] theorem parkOn_kept (s : State) (t : Nat) (a : Act) (why : Why) : (s.parkOn t a why).kept = s.kept := rfl

/-! ### Registers -/

@[simp] theorem cbPost_kept (s : State) (c b n : Nat) : (s.cbPost c b n).kept = s.kept := rfl
@[simp] theorem setVreg_kept (s : State) (t n : Nat) (v mask : Vec) : (s.setVreg t n v mask).kept = s.kept := rfl
@[simp] theorem setBar_kept (s : State) (c i : Nat) (b : Bar) : (s.setBar c i b).kept = s.kept := rfl
@[simp] theorem refetch_kept (s : State) (t : Nat) : (s.refetch t).kept = s.kept := rfl

@[simp] theorem putElems_kept (s : State) (t base w n : Nat) (l : List (Nat × Nat)) :
    (s.putElems t base w n l).kept = s.kept := by
  refine foldl_keeps State.kept (fun x a => ?_) _ s
  dsimp only
  split <;> rfl

@[simp] theorem putImgByte_kept (s : State) (c off : Nat) (b : Byte) : (s.putImgByte c off b).kept = s.kept := by
  unfold putImgByte putImgV
  split
  · dsimp only
    split
    · exact modCore_kept ..
    · split
      · exact setThread_kept ..
      · exact modCore_kept ..
  · split
    · exact modThread_kept ..
    · exact modThread_kept ..

/-! ### Memory -/

@[simp] theorem coverWindow_kept (s : State) (loc off c n grp : Nat) : (s.coverWindow loc off c n grp).kept = s.kept := by
  unfold coverWindow
  split <;> rfl


@[simp] theorem writeLoc_kept (s : State) (loc : Nat) (b : List Byte) (priv : Bool) (asid : BitVec 12) (tid : Nat)
    (st : Option Stamp) (req grp : Nat) : (s.writeLoc loc b priv asid tid st req grp).kept = s.kept := by
  unfold writeLoc
  dsimp only
  split
  · split
    · rfl
    · split
      · rw [foldl_keeps State.kept fun x a => putImgByte_kept ..]; simp
      · split
        · exact coverWindow_kept ..
        · rw [owe_kept, withCwWrites_kept, coverWindow_kept]
        · exact coverWindow_kept ..
  · rfl

@[simp] theorem putBytes_kept (s : State) (loc : Nat) (b : List Byte) (priv : Bool) (asid : BitVec 12) (tid : Nat)
    (st : Option Stamp) : (s.putBytes loc b priv asid tid st).kept = s.kept := by
  unfold putBytes
  exact (writeLoc_kept ..).trans (withReplicas_kept ..)

@[simp] theorem keepPast_kept (s : State) (c loc n t : Nat) (k : RClass) : (s.keepPast c loc n t k).kept = s.kept := rfl
@[simp] theorem settlePast_kept (s : State) (t : Nat) (classes paths : BitVec 3) :
    (s.settlePast t classes paths).kept = s.kept := rfl

@[simp] theorem touchPoison_kept (s : State) (loc : Nat) (a : BitVec 12) : (s.touchPoison loc a).kept = s.kept := by
  unfold touchPoison
  repeat' split
  all_goals rfl
@[simp] theorem touchLines_kept (s : State) (loc n : Nat) (a : BitVec 12) : (s.touchLines loc n a).kept = s.kept :=
  foldl_keeps State.kept (fun _ _ => touchPoison_kept ..) _ s
@[simp] theorem touchRing_kept (s : State) (ring : Nat) (asid : BitVec 12) : (s.touchRing ring asid).kept = s.kept :=
  touchLines_kept ..

/-! ### Requests -/

@[simp] theorem mergeStamp_kept (s : State) (d : Nat) (v : Option Stamp) : (s.mergeStamp d v).kept = s.kept := by
  unfold mergeStamp
  split <;> rfl
@[simp] theorem carry_kept (s : State) (src dst group cycles : Nat) (i : Instr) (a : Arg) (stamp : Option (Nat × Stamp)) :
    (s.carry src dst group cycles i a stamp).kept = s.kept := by
  unfold carry
  split <;> rfl
@[simp] theorem send_kept (s : State) (r : Req) : (s.send r).kept = s.kept := by
  unfold send
  split
  · exact carry_kept ..
  · rfl
@[simp] theorem inject_kept (s : State) (r : Req) : (s.inject r).kept = s.kept := by
  unfold inject number
  dsimp only
  rw [send_kept]
  split <;> rfl
@[simp] theorem post_kept (s : State) (r : Req) : (s.post r).kept = s.kept := rfl

@[simp] theorem ask_kept (s : State) (t : Nat) (act : Act) (k : RClass) (got : List (Nat × List Byte)) (once : Nat → Bool)
    (l : List Want) : (s.ask t act k got once l).kept = s.kept :=
  foldl_keeps (fun p : State × List Nat => p.1.kept) (fun _ _ => inject_kept ..) l (s, [])
@[simp] theorem postAll_kept (s : State) (t : Nat) (act : Act) (k : RClass) (why : Why) (l : List Want) :
    (s.postAll t act k why l).kept = s.kept := by
  unfold postAll
  dsimp only
  rw [waitFor_kept]
  refine foldl_keeps (fun p : State × List Nat => p.1.kept) (fun p w => ?_) l (s, [])
  exact post_kept ..

end State
end Sys2Proof.Machine

end

section
/-! What leaves the suspended components as they are: page faults and accesses. -/

namespace Sys2Proof.Machine
namespace State

@[simp] theorem ringPut_kept (s : State) (cl : Nat) (asid : BitVec 12) (ring slots wake : Nat) (msg : List Byte) :
    (s.ringPut cl asid ring slots wake msg).kept = s.kept := by
  simp only [ringPut, inject_kept, putBytes_kept, touchLines_kept, touchRing_kept]


@[simp] theorem writeFault_kept (s : State) (f : PFault) : (s.writeFault f).kept = s.kept := by
  rw [writeFault]
  generalize s.faultService f.comp = v
  refine ite_keeps State.kept ?_ ?_
  · refine (owe_kept ..).trans ?_
    rw [withPfaults_kept, ringPut_kept]
  · exact (owe_kept ..).trans (touchRing_kept ..)

theorem pageFault_kept {s x : State} {t src gva : Nat} {need : Need} {tv : Word} {copy : Nat}
    (h : s.pageFault t src gva need tv copy = some x) : x.kept = s.kept := by
  unfold pageFault at h
  split at h
  · cases h
  · split at h
    · rw [← Option.some.inj h, writeFault_kept]
    · cases h

@[simp] theorem pageAbsent_kept (s : State) (t src gva : Nat) (need : Need) (tv : Word) (a : Act) :
    (s.pageAbsent t src gva need tv a).kept = s.kept := by
  unfold pageAbsent
  split
  next x hx =>
    rw [parkOn_kept, ← pageFault_kept hx]
    split <;> rfl
  next => rfl

theorem sameButTlb.kept {s t : State} (h : s.sameButTlb t) : t.kept = s.kept := by
  have e := congrArg State.kept h; exact e

/-- What an access leaves, by its answer. -/
theorem access_kept {s x : State} {t : Nat} {a : Word} {z al : Nat} {kind : AKind} {n : Need} {r : Xl}
    (h : s.access t a z al kind n = (r, x)) : x.kept = s.kept := by
  have := (s.access_frame t a z al kind n).kept
  rwa [h] at this
theorem locate_kept {s x : State} {cl : Nat} {asid : BitVec 12} {priv : Bool} {gva z : Nat} {k : AKind} {n : Need} {r : Xl}
    (h : s.locate cl asid priv gva z k n = (r, x)) : x.kept = s.kept := by
  have := (s.locate_frame cl asid priv gva z k n).kept
  rwa [h] at this

/-- An access that is placed goes on; refused, it traps or parks. -/
theorem reach_kept {s : State} {t : Nat} {a : Word} {z al : Nat} {kind : AKind} {n : Need} {act : Act}
    {go : Nat → State → State} (hgo : ∀ loc x, (go loc x).kept = x.kept) :
    (s.reach t a z al kind n act go).kept = s.kept := by
  unfold reach
  split <;> rename_i h <;> rw [← access_kept h]
  · exact trap_kept ..
  · exact pageAbsent_kept ..
  · exact hgo ..

@[simp] theorem bankUse_kept (s : State) (t loc : Nat) : (s.bankUse t loc).kept = s.kept := by
  unfold bankUse
  dsimp only
  split
  · split
    · exact modCore_kept ..
    · rfl
  · rfl
@[simp] theorem bankUses_kept (s : State) (t : Nat) (locs : List Nat) : (s.bankUses t locs).kept = s.kept :=
  foldl_keeps State.kept (fun _ _ => bankUse_kept ..) _ s
@[simp] theorem readOwn_kept (s : State) (t loc n : Nat) : (s.readOwn t loc n).kept = s.kept := by simp [readOwn]
@[simp] theorem readOwns_kept (s : State) (t n : Nat) (locs : List Nat) : (s.readOwns t n locs).kept = s.kept := by
  unfold readOwns
  rw [foldl_keeps State.kept fun _ _ => mergeStamp_kept .., bankUses_kept]
@[simp] theorem writeOwn_kept (s : State) (t loc : Nat) (b : List Byte) (k : RClass) :
    (s.writeOwn t loc b k).kept = s.kept := by simp [writeOwn]

end State
end Sys2Proof.Machine

end

section
/-! What leaves the suspended components as they are: loads, stores, atomics and circular buffers. -/

namespace Sys2Proof.Machine

/-- The state in which a block's reading ends, at hand or not. -/
def endState {α : Type} (f : α → State) : Except State α → State
  | .error x => x
  | .ok r => f r

theorem endState_error {α : Type} (f : α → State) (x : State) : endState f (.error x) = x := rfl
theorem endState_ok {α : Type} (f : α → State) (r : α) : endState f (.ok r) = f r := rfl

theorem endState_ite_kept {α : Type} {f : α → State} {c : Prop} [Decidable c] {a b : Except State α} {y : List Saved}
    (ha : (endState f a).kept = y) (hb : (endState f b).kept = y) : (endState f (if c then a else b)).kept = y :=
  ite_keeps (fun r => (endState f r).kept) ha hb

/-- A function defined by recursion on a list: what holds of the value at the empty list, and passes from the value at the tail to
that at the list, holds of every value. (The kernel cannot compare the two sides of an equation of `gather`: it evaluates `locate`.) -/
theorem brecOn_induct {α : Type} {motive : List α → Type} (P : ∀ l, motive l → Prop)
    {F : (l : List α) → List.below (motive := motive) l → motive l} (nil : ∀ b, P [] (F [] b))
    (cons : ∀ a r (b : List.below (motive := motive) r) m, P r m → P (a :: r) (F (a :: r) ⟨m, b⟩)) (l : List α) :
    P l (List.brecOn l F) := by
  induction l with
  | nil => exact nil _
  | cons a r ih => exact cons _ _ _ _ ih

namespace State

theorem gather_kept (s : State) (t : Nat) (act : Act) (a : Word) (need : Need) (offs : List Nat)
    (got : List (Nat × List Byte)) (wants : List Want) :
    (endState (·.2.2) (s.gather t act a need offs got wants)).kept = s.kept := by
  delta gather
  refine brecOn_induct (motive := fun _ => State → List (Nat × List Byte) → List Want →
    Except State (List (Nat × List Byte) × List Want × State))
    (fun l g => ∀ s got wants, (endState (·.2.2) (g s got wants)).kept = s.kept) ?_ ?_ offs s got wants
  · intro _ _ _ _
    rfl
  · intro o rest b m ih s got wants
    delta gather._f
    refine endState_ite_kept (ih ..) ?_
    extract_lets w th
    generalize hx : s.locate (clusterOf (coreOf t)) _ _ _ _ _ _ = r
    obtain ⟨loc | c | gva, x⟩ := r <;> rw [← locate_kept hx]
    · refine endState_ite_kept (endState_ite_kept ?_ ?_) (endState_ite_kept ?_ ?_)
      · exact (trap_kept ..).trans (touchLines_kept ..)
      · exact (ih ..).trans (readOwn_kept ..)
      · exact waitFor_kept ..
      · exact ih ..
    · exact trap_kept ..
    · exact pageAbsent_kept ..

theorem readBlock_kept (s : State) (t : Nat) (act : Act) (a : Word) (n al : Nat) (k : RClass) (got : List (Nat × List Byte)) :
    (endState (·.2) (s.readBlock t act a n al k got)).kept = s.kept := by
  rw [readBlock]
  extract_lets offs
  generalize segCause _ (selOf a) (offOf a) n needR = c
  cases c with
  | some c => exact trap_kept ..
  | none =>
    refine endState_ite_kept ?_ ?_
    · exact trap_kept ..
    have hg := s.gather_kept t act a needR offs got []
    revert hg
    generalize s.gather t act a needR offs got [] = r
    intro hg
    obtain x | ⟨got, _ | ⟨w, ws⟩, x⟩ := r
    · exact hg
    · exact hg
    · change (x.ask t act k got (fun _ => false) (w :: ws)).kept = s.kept
      exact (ask_kept ..).trans hg

theorem readBlock_error_kept {s x : State} {t : Nat} {act : Act} {a : Word} {n al : Nat} {k : RClass}
    {got : List (Nat × List Byte)} (h : s.readBlock t act a n al k got = .error x) : x.kept = s.kept := by
  have := s.readBlock_kept t act a n al k got
  rwa [h] at this

theorem readBlock_ok_kept {s x : State} {t : Nat} {act : Act} {a : Word} {n al : Nat} {k : RClass}
    {got : List (Nat × List Byte)} {b : List Byte} (h : s.readBlock t act a n al k got = .ok (b, x)) :
    x.kept = s.kept := by
  have := s.readBlock_kept t act a n al k got
  rwa [h] at this

@[simp] theorem loadEnd_kept (s : State) (t : Nat) (d : Reg) (v : Word) (dist : Nat) :
    (s.loadEnd t d v dist).kept = s.kept :=
  (finish_kept ..).trans (modThread_kept ..)

@[simp] theorem load_kept (s : State) (t : Nat) (d : Reg) (z : Nat) (sg : Bool) (a : Word) (k : RClass)
    (got : List (Nat × List Byte)) : (s.load t d z sg a k got).kept = s.kept := by
  unfold load
  split
  · exact loadEnd_kept ..
  · refine reach_kept fun loc x => ?_
    split
    · split
      · exact (trap_kept ..).trans (touchLines_kept ..)
      · exact (loadEnd_kept ..).trans (readOwn_kept ..)
    · split
      · exact parkOn_kept ..
      · exact ask_kept ..

@[simp] theorem store_kept (s : State) (t z : Nat) (a v : Word) (k : RClass) : (s.store t z a v k).kept = s.kept := by
  unfold store
  refine reach_kept fun loc x => ?_
  dsimp only
  split
  · exact trap_kept ..
  · split
    · simp only [finish_kept, writeOwn_kept, bankUse_kept]
    · split
      · exact parkOn_kept ..
      · exact postAll_kept ..

@[simp] theorem segld_kept (s : State) (t : Nat) (n : Fin 8) (a : Word) (got : List (Nat × List Byte)) :
    (s.segld t n a got).kept = s.kept := by
  rw [segld]
  generalize h : s.readBlock t (.segld n a) a 16 16 .o got = r
  obtain x | ⟨b, x⟩ := r
  · exact readBlock_error_kept h
  · rw [← readBlock_ok_kept h]
    exact ite_keeps State.kept ((finish_kept ..).trans (modThread_kept ..)) (trap_kept ..)

@[simp] theorem segst_kept (s : State) (t : Nat) (a : Word) (img : BitVec 128) : (s.segst t a img).kept = s.kept := by
  unfold segst
  refine reach_kept fun loc x => ?_
  dsimp only
  split
  · simp only [finish_kept, writeOwn_kept, bankUse_kept]
  · split
    · exact parkOn_kept ..
    · exact postAll_kept ..

@[simp] theorem amo_kept (s : State) (t : Nat) (op : AmoOp) (d : Reg) (z : Nat) (a x cmp : Word) (k : RClass)
    (got : List (Nat × List Byte)) : (s.amo t op d z a x cmp k got).kept = s.kept := by
  unfold amo
  split
  · exact loadEnd_kept ..
  · refine reach_kept fun loc x => ?_
    split
    · exact parkOn_kept ..
    · exact ask_kept ..

@[simp] theorem fullEmpty_kept (s : State) (t : Nat) (op : FeOp) (d : Reg) (a x : Word) (lim : Nat) (k : RClass)
    (got : List (Nat × List Byte)) : (s.fullEmpty t op d a x lim k got).kept = s.kept := by
  unfold fullEmpty
  split
  · split
    · exact finish_kept ..
    · exact loadEnd_kept ..
  · refine reach_kept fun loc x => ?_
    split
    · exact parkOn_kept ..
    · split
      · exact parkOn_kept ..
      · exact ask_kept ..

@[simp] theorem cbwait_kept (s : State) (t : Nat) (ib : Word) (b : Nat) (n : Word) : (s.cbwait t ib b n).kept = s.kept := by
  unfold cbwait
  dsimp only
  split
  · exact trap_kept ..
  · split
    · exact parkOn_kept ..
    · exact finish_kept ..

@[simp] theorem cbpost_kept (s : State) (t : Nat) (ib : Word) (b : Nat) (n : Word) : (s.cbpost t ib b n).kept = s.kept := by
  unfold cbpost
  dsimp only
  split
  · exact trap_kept ..
  · split
    · exact parkOn_kept ..
    · split
      · exact trap_kept ..
      · exact (finish_kept ..).trans (cbPost_kept ..)

end State
end Sys2Proof.Machine

end

section
/-! What leaves the suspended components as they are: neighbour ports, copies and fences. -/

namespace Sys2Proof.Machine
namespace State

/-! ### Neighbour ports -/

@[simp] theorem freeWord_kept (s : State) : s.freeWord.2.kept = s.kept := rfl

@[simp] theorem npush_kept (s : State) (t : Nat) (ib : Word) (rl : Bool) (d : Dir) (data : Vec) (vec : Bool) (tag : BitVec 8) :
    (s.npush t ib rl d data vec tag).kept = s.kept := by
  unfold npush
  dsimp only
  split
  · exact trap_kept ..
  · split
    · exact parkOn_kept ..
    · split
      · exact parkOn_kept ..
      · refine (finish_kept ..).trans ((carry_kept ..).trans ((withTransit_kept ..).trans ((modThread_kept ..).trans ?_)))
        exact ite_keeps kept (settlePast_kept ..) rfl

@[simp] theorem npop_kept (s : State) (t : Nat) (ib : Word) (d : Dir) (r c : Reg) (vec peek aq : Bool) :
    (s.npop t ib d r c vec peek aq).kept = s.kept := by
  unfold npop
  split
  · exact trap_kept ..
  · split
    · exact parkOn_kept ..
    · extract_lets tag s1 clash x s2 s2' s3 s4
      have h1 : s1.kept = s.kept := ite_keeps kept (setVreg_kept ..) (modThread_kept ..)
      have hx : x.2.kept = s1.kept := ite_keeps (fun x : Word × State => x.2.kept) (freeWord_kept ..) rfl
      have h2 : s2.kept = x.2.kept := ite_keeps kept (modThread_kept ..) rfl
      have h3 : s3.kept = s2.kept := by
        refine ite_keeps kept rfl ((carry_kept ..).trans ?_)
        rw [withCreditsBack_kept]
        exact modThread_kept ..
      have h4 : s4.kept = s3.kept := ite_keeps kept (mergeStamp_kept ..) rfl
      calc (s4.finish t 4 _).kept = s4.kept := finish_kept ..
        _ = s.kept := by rw [h4, h3, h2, hx, h1]

@[simp] theorem btag_kept (s : State) (t : Nat) (ib : Word) (d : Dir) (n : Nat) (a : Word) (got : List (Nat × List Byte)) :
    (s.btag t ib d n a got).kept = s.kept := by
  unfold btag
  split
  · exact jump_kept ..
  · dsimp only
    split
    · exact trap_kept ..
    · split
      · exact parkOn_kept ..
      · refine reach_kept fun loc x => ?_
        split
        · split
          · exact (trap_kept ..).trans (touchLines_kept ..)
          · exact (jump_kept ..).trans (readOwn_kept ..)
        · split
          · exact parkOn_kept ..
          · exact ask_kept ..

@[simp] theorem waite_kept (s : State) (t : Nat) (sel : Word) : (s.waite t sel).kept = s.kept := by
  unfold waite
  dsimp only
  split
  · exact (finish_kept ..).trans (ite_keeps kept ((mergeStamp_kept ..).trans (modThread_kept ..)) rfl)
  · exact parkOn_kept ..

/-! ### Copies and fences -/

@[simp] theorem copyGone_kept (s : State) (k : Nat) (id : Option Nat) : (s.copyGone k id).kept = s.kept := by
  unfold copyGone
  split <;> rfl

@[simp] theorem enqueue_kept (s : State) (c : MCmd) : (s.enqueue c).kept = s.kept := by
  unfold enqueue
  dsimp only
  split
  · exact copyGone_kept ..
  · exact (owe_kept ..).trans (modCore_kept ..)

@[simp] theorem matrix_kept (s : State) (t : Nat) (c : MCmd) (dist : Nat) : (s.matrix t c dist).kept = s.kept := by
  unfold matrix
  split
  · exact (finish_kept ..).trans (enqueue_kept ..)
  · exact parkOn_kept ..

@[simp] theorem copyIn_kept (s : State) (c : Copy) : (s.copyIn c).kept = s.kept := rfl

@[simp] theorem cpy_kept (s : State) (t : Nat) (m : Bool) (k : RClass) (tag : Nat) (dst src a : Word) (sn : Option Snap)
    (got : List (Nat × List Byte)) : (s.cpy t m k tag dst src a sn got).kept = s.kept := by
  unfold cpy
  dsimp only
  split <;> rename_i h
  · exact readBlock_error_kept h
  · rw [← readBlock_ok_kept h]
    repeat' split
    all_goals simp only [trap_kept, waitFor_kept, copyIn_kept]

@[simp] theorem reportCopy_kept (s : State) (t tag : Nat) (e : Err) : (s.reportCopy t tag e).kept = s.kept := rfl

@[simp] theorem cwait_kept (s : State) (t tag : Nat) : (s.cwait t tag).kept = s.kept := by
  unfold cwait
  split
  · exact parkOn_kept ..
  · split
    · exact reportCopy_kept ..
    · exact finish_kept ..

@[simp] theorem fence_kept (s : State) (t : Nat) (paths : BitVec 6) (classes : BitVec 3) :
    (s.fence t paths classes).kept = s.kept := by
  unfold fence
  split
  · exact parkOn_kept ..
  · have hs : (if paths.getLsbD 0 then s.settlePast t classes 7 else s).kept = s.kept := ite_keeps kept (settlePast_kept ..) rfl
    exact (finish_kept ..).trans (ite_keeps kept ((refetch_kept ..).trans hs) hs)

@[simp] theorem ifence_kept (s : State) (t : Nat) : (s.ifence t).kept = s.kept := by
  unfold ifence
  split
  · exact (finish_kept ..).trans (refetch_kept ..)
  · exact parkOn_kept ..

end State
end Sys2Proof.Machine

end

section
/-! What leaves the suspended components as they are: Prism ports, tasks and barriers. -/

namespace Sys2Proof.Machine
namespace State

/-! ### Prisms -/

@[simp] theorem leavePort_kept (s : State) (t : Nat) : (s.leavePort t).kept = s.kept := rfl

@[simp] theorem portStat_kept (s : State) (t code reason : Nat) (counted closed : Bool) (idx : Option Nat) :
    (s.portStat t code reason counted closed idx).kept = s.kept := by
  unfold portStat
  split
  · exact modThread_kept ..
  · exact (modThread_kept ..).trans (freeWord_kept ..)

@[simp] theorem portRaise_kept (s : State) (t : Nat) (ib : Word) (c : Cause) : (s.portRaise t ib c).kept = s.kept :=
  (trap_kept ..).trans (portStat_kept ..)

@[simp] theorem prismNext_kept (s : State) (cl : Nat) : (s.prismNext cl).kept = s.kept := by
  unfold prismNext
  split
  · split
    · rfl
    · exact (owe_kept ..).trans (modCluster_kept ..)
  · rfl

@[simp] theorem prismAsk_kept (s : State) (r : PReq) : (s.prismAsk r).kept = s.kept :=
  (prismNext_kept ..).trans (modCluster_kept ..)

@[simp] theorem psend_kept (s : State) (t : Nat) (ib : Word) (port : Nat) (a : Word) (got : List (Nat × List Byte)) :
    (s.psend t ib port a got).kept = s.kept := by
  unfold psend
  dsimp only
  split
  · exact portRaise_kept ..
  · split <;> rename_i h
    · exact readBlock_error_kept h
    · rw [← readBlock_ok_kept h]
      split
      · exact trap_kept ..
      · split
        · exact waitFor_kept ..
        · exact (waitFor_kept ..).trans ((prismAsk_kept ..).trans (settlePast_kept ..))

@[simp] theorem precv_kept (s : State) (t : Nat) (ib : Word) (port : Nat) (a : Word) (got : List (Nat × List Byte)) :
    (s.precv t ib port a got).kept = s.kept := by
  unfold precv
  dsimp only
  split
  · exact portRaise_kept ..
  · split <;> rename_i h
    · exact readBlock_error_kept h
    · rw [← readBlock_ok_kept h]
      split
      · exact trap_kept ..
      · exact (waitFor_kept ..).trans (prismAsk_kept ..)

@[simp] theorem portGoOn_kept (s : State) (p : Nat) : (s.portGoOn p).kept = s.kept := by
  unfold portGoOn
  split <;> rfl

@[simp] theorem withdraw_kept (s : State) (t p : Nat) : (s.withdraw t p).kept = s.kept :=
  (prismNext_kept ..).trans ((portGoOn_kept ..).trans ((modPort_kept ..).trans ((modCluster_kept ..).trans (leavePort_kept ..))))

/-! ### Tasks -/

@[simp] theorem unreserve_kept (s : State) (t : Nat) (room : Bool) : (s.unreserve t room).kept = s.kept :=
  ite_keeps kept (modCore_kept ..) rfl

@[simp] theorem pushRec_kept (s : State) (c : Nat) (r : Rec) : (s.pushRec c r).kept = s.kept := rfl

@[simp] theorem forkEnd_kept (s : State) (t : Nat) (act : Act) (r : Rec) (room : Bool) (got : List (Nat × List Byte)) (dist : Nat) :
    (s.forkEnd t act r room got dist).kept = s.kept := by
  unfold forkEnd
  split
  · split
    · exact waitFor_kept ..
    · exact (finish_kept ..).trans ((pushRec_kept ..).trans (unreserve_kept ..))
  · exact (jump_kept ..).trans (modThread_kept ..)

@[simp] theorem fork_kept (s : State) (t : Nat) (ib : Word) (k : RClass) (a : Word) (rec : Option Rec) (room : Bool)
    (got : List (Nat × List Byte)) : (s.fork t ib k a rec room got).kept = s.kept := by
  unfold fork
  extract_lets count
  have hc : ∀ x r room, (count x r room).kept = x.kept := by
    intro x r room
    refine ite_keeps kept (forkEnd_kept ..) ?_
    split <;> rename_i h <;> rw [← access_kept h]
    · exact (trap_kept ..).trans (unreserve_kept ..)
    · exact (pageAbsent_kept ..).trans (unreserve_kept ..)
    · split
      · exact parkOn_kept ..
      · exact ask_kept ..
  clear_value count
  split
  · split
    · exact hc ..
    · exact forkEnd_kept ..
  · split <;> rename_i h
    · exact readBlock_error_kept h
    · rw [← readBlock_ok_kept h]
      dsimp only
      split
      · exact trap_kept ..
      · split
        · exact (forkEnd_kept ..).trans (ite_keeps kept (modCore_kept ..) rfl)
        · exact (hc ..).trans (ite_keeps kept (modCore_kept ..) rfl)

@[simp] theorem joinTimer_kept (s : State) (t due : Nat) : (s.joinTimer t due).kept = s.kept := by
  unfold joinTimer
  dsimp only
  split <;> rfl

@[simp] theorem join_kept (s : State) (t : Nat) (k : RClass) (a : Word) (loc : Nat) (again : Bool) (got : List (Nat × List Byte)) :
    (s.join t k a loc again got).kept = s.kept := by
  unfold join
  extract_lets wait read
  have hw : ∀ x loc, (wait x loc).kept = x.kept := fun x loc => (joinTimer_kept ..).trans (parkOn_kept ..)
  clear_value wait
  have hr : ∀ x, (read x).kept = x.kept := by
    intro x
    refine reach_kept fun loc x => ?_
    split
    · split
      · exact (trap_kept ..).trans (touchLines_kept ..)
      · split
        · exact (finish_kept ..).trans (readOwn_kept ..)
        · exact (hw ..).trans (readOwn_kept ..)
    · split
      · exact parkOn_kept ..
      · exact ask_kept ..
  clear_value read
  split
  · split
    · exact finish_kept ..
    · split
      · exact hr _
      · exact hw ..
  · exact hr _

@[simp] theorem modEntry_kept (s : State) (e : Nat) (f : StepEntry → StepEntry) : (s.modEntry e f).kept = s.kept := rfl

@[simp] theorem pushRoot_kept (s : State) (e : Nat) : (s.pushRoot e).kept = s.kept :=
  (carry_kept ..).trans (withHeld_kept ..)

@[simp] theorem stepEnd_kept (s : State) (e : Nat) : (s.stepEnd e).kept = s.kept := by
  unfold stepEnd
  split
  · rfl
  · split
    · exact (pushRoot_kept ..).trans (modEntry_kept ..)
    · exact modEntry_kept ..

@[simp] theorem taskEnd_kept (s : State) (t : Nat) : (s.taskEnd t).kept = s.kept := by
  unfold taskEnd
  dsimp only
  split
  · split
    · exact (stepEnd_kept ..).trans (modThread_kept ..)
    · exact modThread_kept ..
  · exact (jump_kept ..).trans (modThread_kept ..)

@[simp] theorem tend_kept (s : State) (t : Nat) (k : RClass) (got : List (Nat × List Byte)) : (s.tend t k got).kept = s.kept := by
  unfold tend
  dsimp only
  split
  · exact taskEnd_kept ..
  · split
    · exact parkOn_kept ..
    · split
      · exact taskEnd_kept ..
      · exact reach_kept fun loc x => ask_kept ..

/-! ### Barriers -/

@[simp] theorem leaveBar_kept (s : State) (t at' : Nat) : (s.leaveBar t at').kept = s.kept := rfl

@[simp] theorem countArrival_kept (s : State) (t : Nat) (ib : Word) (cl : Bool) (b : Nat) :
    (s.countArrival t ib cl b).kept = s.kept := by
  unfold countArrival
  dsimp only
  split
  · refine (leaveBar_kept ..).trans ((foldl_keeps kept (fun x u => ?_) _ _).trans (setBar_kept ..))
    exact leaveBar_kept ..
  · exact (parkOn_kept ..).trans (setBar_kept ..)

@[simp] theorem arrive_kept (s : State) (t : Nat) (ib : Word) (cl : Bool) (b : Nat) : (s.arrive t ib cl b).kept = s.kept := by
  unfold arrive
  dsimp only
  split
  · exact trap_kept ..
  · split
    · exact parkOn_kept ..
    · exact countArrival_kept ..

end State
end Sys2Proof.Machine

end

section
/-! What leaves the suspended components as they are: vector memory instructions and compressed records. -/

namespace Sys2Proof.Machine
namespace State

/-! ### Vector memory instructions -/

theorem scan_kept (s : State) (t : Nat) (kind : AKind) (n : Need) (z : Nat) (l : List VElem) (acc : List (VElem × Nat)) :
    (s.scan t kind n z l acc).2.2.kept = s.kept := by
  induction l generalizing s acc with
  | nil => rfl
  | cons e rest ih =>
    rw [scan]
    split <;> rename_i h <;> rw [← access_kept h]
    · split
      · exact touchLines_kept ..
      · split
        · rfl
        · exact ih ..

/-- The state in which a walk over bytes ends. -/
def scanned (r : List (Nat × Nat) × Option VStop × State) : State := r.2.2

theorem scanBytes_kept (s : State) (t : Nat) (a : Word) (l : List Nat) (acc : List (Nat × Nat)) :
    (scanned (s.scanBytes t a l acc)).kept = s.kept := by
  delta scanBytes
  refine brecOn_induct (motive := fun _ => State → List (Nat × Nat) → List (Nat × Nat) × Option VStop × State)
    (fun _ g => ∀ (x : State) acc, (scanned (g x acc)).kept = x.kept) (fun _ _ _ => rfl) (fun i rest b m ih x acc => ?_) l s acc
  -- `access` is made opaque before its answer is split: the kernel would evaluate it.
  obtain ⟨f, hf⟩ : ∃ f, f = @scanBytes._f := ⟨_, rfl⟩
  rw [← hf]
  delta scanBytes._f at hf
  rw [hf]
  obtain ⟨access, ha⟩ : ∃ g, g = @State.access := ⟨_, rfl⟩
  have hk := @access_kept
  rw [← ha] at hk ⊢
  clear hf ha
  dsimp only
  split <;> rename_i h <;> rw [← hk h]
  · rfl
  · rfl
  · exact ih ..

@[simp] theorem stopAt_kept (s : State) (t : Nat) (act : Act) (n : Need) (st : VStop) : (s.stopAt t act n st).kept = s.kept := by
  unfold stopAt
  dsimp only
  split
  · exact (trap_kept ..).trans (modThread_kept ..)
  · exact (pageAbsent_kept ..).trans (modThread_kept ..)

@[simp] theorem vloadEnd_kept (s : State) (t : Nat) (ff : Bool) (d : Reg) (c : VCtx) (got : List (Nat × List Byte))
    (stop : Option VStop) (dist : Nat) : (s.vloadEnd t ff d c got stop dist).kept = s.kept := by
  unfold vloadEnd
  dsimp only
  split
  · exact (finish_kept ..).trans ((modThread_kept ..).trans (putElems_kept ..))
  · split
    · exact (finish_kept ..).trans ((modThread_kept ..).trans (putElems_kept ..))
    · exact (stopAt_kept ..).trans (putElems_kept ..)

@[simp] theorem vload_kept (s : State) (t : Nat) (ff : Bool) (d : Reg) (c : VCtx) (elems : List VElem) (stop : Option VStop)
    (k : RClass) (got : List (Nat × List Byte)) : (s.vload t ff d c elems stop k got).kept = s.kept := by
  unfold vload
  rw [← s.scan_kept t .load needR c.eb elems []]
  generalize s.scan t .load needR c.eb elems [] = r
  dsimp only
  split
  · exact (vloadEnd_kept ..).trans (readOwns_kept ..)
  · split
    · exact (ask_kept ..).trans (readOwns_kept ..)
    · exact (waitFor_kept ..).trans (readOwns_kept ..)

@[simp] theorem vstoreEnd_kept (s : State) (t : Nat) (stop : Option VStop) (dist : Nat) :
    (s.vstoreEnd t stop dist).kept = s.kept := by
  unfold vstoreEnd
  split
  · exact (finish_kept ..).trans (modThread_kept ..)
  · exact stopAt_kept ..

theorem writeOwns_kept {α : Type} (s : State) (t : Nat) (f : α → Nat) (b : α → List Byte) (k : RClass) (locs : List Nat)
    (l : List α) :
    (l.foldl (fun s e => s.writeOwn t (f e) (b e) k) (s.bankUses t locs)).kept = s.kept :=
  (foldl_keeps kept (fun _ _ => writeOwn_kept ..) ..).trans (bankUses_kept ..)

@[simp] theorem vstore_kept (s : State) (t : Nat) (whole : Bool) (elems : List VElem) (stop : Option VStop) (k : RClass) :
    (s.vstore t whole elems stop k).kept = s.kept := by
  unfold vstore
  extract_lets z r s1
  have h1 : s1.kept = s.kept := scan_kept ..
  rw [← h1]
  clear_value s1 r
  split
  · exact trap_kept ..
  · exact pageAbsent_kept ..
  · split
    · exact (vstoreEnd_kept ..).trans (writeOwns_kept ..)
    · split
      · exact (parkOn_kept ..).trans (writeOwns_kept ..)
      · exact (postAll_kept ..).trans (writeOwns_kept ..)

@[simp] theorem vstz_kept (s : State) (t : Nat) (a : Word) (bytes : List Byte) (k : RClass) :
    (s.vstz t a bytes k).kept = s.kept := by
  unfold vstz
  extract_lets act r s1 far own s2 wants s3
  have h1 : s1.kept = s.kept := scanBytes_kept ..
  have h2 : s2.kept = s1.kept := ite_keeps kept rfl (writeOwns_kept ..)
  have h3 : s3.kept = s2.kept := ite_keeps kept rfl (postAll_kept ..)
  rw [← h1, ← h2]
  clear_value s3
  split
  · exact parkOn_kept ..
  · rw [← h3]
    split
    · exact trap_kept ..
    · exact pageAbsent_kept ..
    · split
      · exact (finish_kept ..).trans (modThread_kept ..)
      · rfl

theorem scanRegion_kept (s : State) (t : Nat) (act : Act) (a : Word) (got : List (Nat × List Byte)) (l : List Nat)
    (own far : List (Nat × Nat)) : (endState (·.2.2) (s.scanRegion t act a got l own far)).kept = s.kept := by
  delta scanRegion
  refine brecOn_induct (motive := fun _ => State → List (Nat × Nat) → List (Nat × Nat) →
      Except State (List (Nat × Nat) × List (Nat × Nat) × State))
    (fun _ g => ∀ (x : State) own far, (endState (·.2.2) (g x own far)).kept = x.kept) (fun _ _ _ _ => rfl)
    (fun i rest b m ih x own far => ?_) l s own far
  delta scanRegion._f
  refine endState_ite_kept (ih ..) ?_
  extract_lets w th
  generalize h : x.locate (clusterOf (coreOf t)) _ _ _ _ _ _ = r
  obtain ⟨loc | c | gva, y⟩ := r <;> rw [← locate_kept h]
  · refine endState_ite_kept ?_ (ih ..)
    refine endState_ite_kept ?_ (ih ..)
    exact (trap_kept ..).trans (touchPoison_kept ..)
  · exact trap_kept ..
  · exact pageAbsent_kept ..

theorem readRegion_kept (s : State) (t : Nat) (act : Act) (a : Word) (n : Nat) (k : RClass) (got : List (Nat × List Byte)) :
    (endState (·.2) (s.readRegion t act a n k got)).kept = s.kept := by
  rw [readRegion]
  generalize List.find? _ _ = i
  obtain _ | i := i
  · refine endState_ite_kept (trap_kept ..) ?_
    have hg := s.scanRegion_kept t act a got (List.range n) [] []
    revert hg
    generalize s.scanRegion t act a got (List.range n) [] [] = r
    intro hg
    obtain x | ⟨own, far, x⟩ := r
    · exact hg
    · rw [endState_ok] at hg
      rw [← hg]
      refine endState_ite_kept ?_ ?_
      · rw [endState_ok]
        exact readOwns_kept ..
      · refine endState_ite_kept ?_ ?_
        · rw [endState_error]
          exact (waitFor_kept ..).trans (readOwns_kept ..)
        · rw [endState_error]
          exact (ask_kept ..).trans (readOwns_kept ..)
  · exact trap_kept ..

theorem readRegion_error_kept {s x : State} {t : Nat} {act : Act} {a : Word} {n : Nat} {k : RClass}
    {got : List (Nat × List Byte)} (h : s.readRegion t act a n k got = .error x) : x.kept = s.kept := by
  have := s.readRegion_kept t act a n k got
  rwa [h] at this

theorem readRegion_ok_kept {s x : State} {t : Nat} {act : Act} {a : Word} {n : Nat} {k : RClass}
    {got : List (Nat × List Byte)} {b : List Byte} (h : s.readRegion t act a n k got = .ok (b, x)) : x.kept = s.kept := by
  have := s.readRegion_kept t act a n k got
  rwa [h] at this

@[simp] theorem vldz_kept (s : State) (t : Nat) (d : Reg) (c : VCtx) (a size : Word) (k : RClass) (got : List (Nat × List Byte)) :
    (s.vldz t d c a size k got).kept = s.kept := by
  -- `readRegion` is made opaque before its answers are split: the kernel would evaluate it.
  obtain ⟨f, hf⟩ : ∃ f, f = @vldz := ⟨_, rfl⟩
  rw [← hf]
  delta vldz at hf
  rw [hf]
  obtain ⟨read, hr⟩ : ∃ g, g = @State.readRegion := ⟨_, rfl⟩
  have he := @readRegion_error_kept
  have ho := @readRegion_ok_kept
  rw [← hr] at he ho ⊢
  clear hf hr
  dsimp only
  split <;> rename_i h
  · exact he h
  · rw [← ho h]
    split
    · exact trap_kept ..
    · split <;> rename_i h
      · exact he h
      · rw [← ho h]
        split
        · exact trap_kept ..
        · split <;> rename_i h
          · exact he h
          · rw [← ho h]
            split
            · exact trap_kept ..
            · exact (finish_kept ..).trans ((modThread_kept ..).trans (putElems_kept ..))

end State
end Sys2Proof.Machine

end

section
/-! What leaves the suspended components as they are: an instruction that goes on, and a thread that is resumed. -/

namespace Sys2Proof.Machine
namespace State

/-! ### Going on -/

theorem run_kept (s : State) (t : Nat) (a : Act) (got : List (Nat × List Byte)) : (s.run t a got).kept = s.kept := by
  cases a with
  | vload => exact ite_keeps kept (vloadEnd_kept ..) (vload_kept ..)
  | vstore => exact ite_keeps kept (vstoreEnd_kept ..) (vstore_kept ..)
  | vstz => exact ite_keeps kept (vstz_kept ..) ((finish_kept ..).trans (modThread_kept ..))
  | load | store | amo | fe | segld | segst | btag | vldz | fence | ifence | fetch | waite | matrix | cpy | cwait | cbwait | cbpost
  | npush | npop | pbind | psend | precv | pstat | fork | join | tend | bar => simp [run]

@[simp] theorem abandon_kept (s : State) (t : Nat) : (s.abandon t).kept = s.kept := by
  unfold abandon
  split
  · exact unreserve_kept ..
  · rfl

@[simp] theorem trapParked_kept (s : State) (t : Nat) (e : Err) : (s.trapParked t e).kept = s.kept :=
  (trap_kept ..).trans (abandon_kept ..)

@[simp] theorem reissue_kept (s : State) (t : Nat) : (s.reissue t).kept = s.kept :=
  (modThread_kept ..).trans (abandon_kept ..)

@[simp] theorem raiseDeferred_kept (s : State) (t : Nat) : (s.raiseDeferred t).kept = s.kept := by
  unfold raiseDeferred
  split
  · exact (trapParked_kept ..).trans (modThread_kept ..)
  · rfl

@[simp] theorem poke_kept (s : State) (t : Nat) : (s.poke t).kept = s.kept := by
  unfold poke
  repeat' split
  all_goals simp only [owe_kept, run_kept]

@[simp] theorem resetCredits_kept (s : State) (t : Nat) : (s.resetCredits t).kept = s.kept := by
  refine foldl_keeps kept (fun x d => ?_) _ s
  split
  · exact (modThread_kept ..).trans (withCreditsBack_kept ..)
  · rfl

@[simp] theorem resumeThread_kept (s : State) (t : Nat) : (s.resumeThread t).kept = s.kept := by
  unfold resumeThread
  rw [← s.resetCredits_kept t]
  generalize s.resetCredits t = x
  dsimp only
  split
  · rfl
  · split
    · exact (reissue_kept ..).trans (withPfaults_kept ..)
    · split
      · exact reissue_kept ..
      · exact reissue_kept ..
      · exact reissue_kept ..
      · split
        · exact raiseDeferred_kept ..
        · exact poke_kept ..

end State
end Sys2Proof.Machine

end

section
/-! A component is resumed (27 R279). -/

namespace Sys2Proof.Proofs
open Sys2Proof.Machine Sys2Proof.Spec Sys2Proof.Machine.State

theorem oweCopySpace_kept (s : State) (c : Nat) (l : List Copy) :
    (l.foldl (fun s x => if x.buffer.isSome && x.started && !x.landed then s.owe (s.now + 1) .cbCopySpace (Arg.num2 c x.id) else s)
      s).kept = s.kept :=
  foldl_keeps kept (fun x _ => ite_keeps kept (owe_kept x _ _ _) rfl) l s

/-- A component that is resumed is no longer suspended; nothing that its threads do as they go on suspends another. -/
theorem componentResume_suspended (s : State) (ho : s.owns s.arg.n = true) (hv : ∃ v ∈ s.suspended, v.comp = s.arg.k) :
    Answers .componentResume s fun t => t.suspended = s.suspended.filter fun v => v.comp != s.arg.k := by
  refine ⟨_, rfl, ?_⟩
  have hs : (s.suspended.any fun v => v.comp == s.arg.k) = true := by simpa using hv
  rw [ho, hs]
  rw [← State.kept_eq]
  refine Eq.trans (congrArg State.kept (if_neg Bool.noConfusion)) ?_
  extract_lets s1 s2 s3 s4 done s5
  have h2 : s2.kept = s1.kept := foldl_keeps State.kept (fun _ _ => State.resumeThread_kept ..) _ s1
  have h3 : s3.kept = s2.kept := foldl_keeps State.kept (fun _ _ => oweCopySpace_kept ..) _ s2
  have h4 : s4.kept = s3.kept := foldl_keeps State.kept (fun _ _ => ite_keeps State.kept (State.owe_kept ..) rfl) _ s3
  have h5 : s5.kept = s4.kept :=
    (foldl_keeps State.kept (fun _ _ => State.stepEnd_kept ..) _ _).trans (State.withStepsOver_kept ..)
  refine Eq.trans (foldl_keeps State.kept (fun x r => ?_) _ s5) (by rw [h5, h4, h3, h2]; rfl)
  split
  · exact ite_keeps State.kept (State.owe_kept ..) rfl
  · rfl
end Sys2Proof.Proofs

end

section
/-! A component ends (27 R281). -/

namespace Sys2Proof.Machine

/-- What a lookup finds and is not the default stands in the map. -/
theorem Sp.mem_entries_of_get_ne {α : Type} {d : α} {m : Sp α} {k : Nat} (h : m.get d k ≠ d) : (k, m.get d k) ∈ m.entries := by
  obtain ⟨l⟩ := m
  change Sp.getL d l k ≠ d at h
  change (k, Sp.getL d l k) ∈ l
  induction l with
  | nil => exact absurd rfl h
  | cons e r ih =>
    obtain ⟨j, a⟩ := e
    rw [Sp.getL] at h ⊢
    split at h <;> rename_i hj
    · subst hj
      rw [if_pos rfl]
      exact List.mem_cons_self
    · rw [if_neg hj]
      exact List.mem_cons_of_mem _ (ih h)

namespace State

/-! ### The threads of a component -/

theorem mem_coresIn {s : State} {k c : Nat} (h : (s.core c).comp = some k) : c ∈ s.coresIn k := by
  have hc : s.core c ≠ Core.init := fun e => by rw [e] at h; cases h
  exact List.mem_map.2 ⟨_, List.mem_filter.2 ⟨Sp.mem_entries_of_get_ne hc, beq_iff_eq.2 h⟩, rfl⟩

theorem mem_threadsIn {s : State} {k u : Nat} (h : (s.core (u / 16)).comp = some k) : u ∈ s.threadsIn k :=
  List.mem_flatMap.2
    ⟨u / 16, mem_coresIn h, List.mem_map.2 ⟨u % 16, List.mem_range.2 (Nat.mod_lt _ (by decide)), Nat.div_add_mod u 16⟩⟩

/-- One change made to each thread of a list: what it makes hold, of whatever thread, holds of each of the list afterwards. -/
theorem thread_foldl_modThread {f : Thread → Thread} {Q : Thread → Prop} (hf : ∀ th, Q (f th)) {u : Nat} (l : List Nat) (s : State)
    (h : u ∈ l ∨ Q (s.thread u)) : Q ((l.foldl (fun s t => s.modThread t f) s).thread u) := by
  induction l generalizing s with
  | nil => exact h.resolve_left List.not_mem_nil
  | cons t r ih =>
    refine ih _ ?_
    rw [thread_modThread]
    by_cases e : u = t
    · exact .inr (by rw [if_pos e]; exact hf _)
    · rw [if_neg e]
      exact h.imp_left fun h => (List.mem_cons.1 h).resolve_left e

/-! ### Components that have ended, damaged lines, and the owner -/

/-- The components that have ended, the damaged lines and the owner. -/
def standing (s : State) : List Nat × List (Nat × Nat) × Option Nat := (s.ended, s.damaged, s.owner)

theorem ended_of_standing {x y : State} (h : x.standing = y.standing) : x.ended = y.ended := congrArg Prod.fst h
theorem damaged_of_standing {x y : State} (h : x.standing = y.standing) : x.damaged = y.damaged := congrArg (·.2.1) h
theorem owner_of_standing {x y : State} (h : x.standing = y.standing) : x.owner = y.owner := congrArg (·.2.2) h

theorem modThread_standing (s : State) (t : Nat) (f : Thread → Thread) : (s.modThread t f).standing = s.standing := rfl
theorem modCore_standing (s : State) (c : Nat) (f : Core → Core) : (s.modCore c f).standing = s.standing := rfl
theorem modCluster_standing (s : State) (c : Nat) (f : Cluster → Cluster) : (s.modCluster c f).standing = s.standing := rfl
theorem modPort_standing (s : State) (p : Nat) (f : Port → Port) : (s.modPort p f).standing = s.standing := rfl
theorem owe_standing (s : State) (due : Nat) (i : Instr) (a : Arg) : (s.owe due i a).standing = s.standing := rfl
theorem leavePort_standing (s : State) (t : Nat) : (s.leavePort t).standing = s.standing := rfl
theorem dropStatus_standing (s : State) (d : Nat) : (s.dropStatus d).standing = s.standing := rfl
theorem trap_standing (s : State) (t : Nat) (c : Cause) (tv : Word) : (s.trap t c tv).standing = s.standing := rfl
theorem freeWord_standing (s : State) : s.freeWord.2.standing = s.standing := rfl

theorem portStat_standing (s : State) (t code reason : Nat) (counted closed : Bool) (idx : Option Nat) :
    (s.portStat t code reason counted closed idx).standing = s.standing := by
  unfold portStat
  split
  · exact modThread_standing ..
  · exact (modThread_standing ..).trans (freeWord_standing ..)

theorem prismNext_standing (s : State) (cl : Nat) : (s.prismNext cl).standing = s.standing := by
  unfold prismNext
  split
  · split
    · rfl
    · exact (owe_standing ..).trans (modCluster_standing ..)
  · rfl

theorem carry_standing (s : State) (src dst group cycles : Nat) (i : Instr) (a : Arg) (stamp : Option (Nat × Stamp)) :
    (s.carry src dst group cycles i a stamp).standing = s.standing := by
  unfold carry
  split <;> rfl

theorem send_standing (s : State) (r : Req) : (s.send r).standing = s.standing := by
  unfold send
  split
  · exact carry_standing ..
  · rfl

theorem inject_standing (s : State) (r : Req) : (s.inject r).standing = s.standing := by
  unfold inject number
  dsimp only
  refine (send_standing ..).trans ?_
  split <;> rfl

theorem prismPut_standing (s : State) (r : PReq) (idx loc : Nat) (b : List Byte) : (s.prismPut r idx loc b).standing = s.standing :=
  foldl_keeps standing (fun x _ => inject_standing x _) _ s

theorem portEject_standing (s : State) (p : Nat) (c : Cause) (reason t : Nat) : (s.portEject p c reason t).standing = s.standing := by
  unfold portEject
  split
  · split
    · split
      · exact (trap_standing ..).trans ((portStat_standing ..).trans (leavePort_standing ..))
      · rfl
    · rfl
  · rfl

theorem unbindPort_standing (s : State) (p : Nat) : (s.unbindPort p).standing = s.standing := by
  unfold unbindPort
  split
  · rfl
  · exact (prismNext_standing ..).trans ((prismPut_standing ..).trans ((dropStatus_standing ..).trans ((modPort_standing ..).trans
      ((modCluster_standing ..).trans (foldl_keeps standing (fun x e => portEject_standing x _ _ _ _) _ s)))))

theorem dropPrism_standing (s : State) (k : Nat) : (s.dropPrism k).standing = s.standing := by
  refine foldl_keeps standing (fun x e => ?_) _ s
  exact (prismNext_standing ..).trans (modCluster_standing ..)

/-! ### A thread that waits for nothing, as ports are unbound -/

theorem prismNext_thread (s : State) (cl u : Nat) : (s.prismNext cl).thread u = s.thread u := by
  unfold prismNext
  split
  · split
    · rfl
    · exact (owe_at_thread ..).trans (modCluster_at_thread ..)
  · rfl

theorem inject_thread (s : State) (r : Req) (u : Nat) : (s.inject r).thread u = s.thread u := by
  obtain ⟨-, -, -, h, -⟩ := Spec.inject_frame s r
  rw [thread, h, thread]

theorem prismPut_thread (s : State) (r : PReq) (idx loc : Nat) (b : List Byte) (u : Nat) :
    (s.prismPut r idx loc b).thread u = s.thread u :=
  foldl_keeps (State.thread · u) (fun x _ => inject_thread x _ u) _ s

theorem portStat_thread_of_ne (s : State) {t u : Nat} (h : u ≠ t) (code reason : Nat) (counted closed : Bool) (idx : Option Nat) :
    (s.portStat t code reason counted closed idx).thread u = s.thread u := by
  unfold portStat
  split <;> exact (thread_modThread ..).trans (if_neg h)

/-- A thread that waits for nothing is not turned away from a port. -/
theorem portEject_thread (s : State) (p : Nat) (c : Cause) (reason t : Nat) {u : Nat} (h : (s.thread u).wait = none) :
    (s.portEject p c reason t).thread u = s.thread u := by
  by_cases e : u = t
  · subst e
    unfold portEject
    rw [h]
  · unfold portEject
    split
    · split
      · split
        · exact ((thread_modThread ..).trans (if_neg e)).trans (portStat_thread_of_ne _ e ..)
        · rfl
      · rfl
    · rfl

theorem unbindPort_thread (s : State) (p : Nat) {u : Nat} (h : (s.thread u).wait = none) :
    (s.unbindPort p).thread u = s.thread u := by
  unfold unbindPort
  split
  · rfl
  · have he : ∀ (l : List (Nat × Thread)) (x : State), (x.thread u).wait = none →
        (l.foldl (fun s e => s.portEject p 0x84 0 e.1) x).thread u = x.thread u := by
      intro l
      induction l with
      | nil => exact fun _ _ => rfl
      | cons e r ih =>
        intro x hx
        have hu := portEject_thread x p 0x84 0 e.1 hx
        exact (ih _ (by rw [hu]; exact hx)).trans hu
    exact (prismNext_thread ..).trans ((prismPut_thread ..).trans (he _ s h))

theorem unbindPorts_thread (l : List (Nat × Port)) (s : State) {u : Nat} (h : (s.thread u).wait = none) :
    (l.foldl (fun s e => s.unbindPort e.1) s).thread u = s.thread u := by
  induction l generalizing s with
  | nil => rfl
  | cons e r ih =>
    have hu := s.unbindPort_thread e.1 h
    exact (ih _ (by rw [hu]; exact h)).trans hu

/-! ### A component ends -/

/-- A component ends: it is marked as ended, its threads are halted and wait for nothing, and the owner is told the cause. -/
theorem endComp_spec (s : State) (k : Nat) (c : Cause) (line : Nat) :
    (s.endComp k c line).ended = s.ended ++ [k] ∧ (s.endComp k c line).damaged = s.damaged ∧
    .ended s.owner k c line ∈ (s.endComp k c line).out ∧
    ∀ u, (s.core (u / 16)).comp = some k →
      ((s.endComp k c line).thread u).st = .halted ∧ ((s.endComp k c line).thread u).wait = none := by
  obtain ⟨t, ht⟩ : ∃ t, t = s.endComp k c line := ⟨_, rfl⟩
  rw [← ht]
  unfold endComp at ht
  extract_lets ts ks s1 s2 s3 aside s4 ports at ht
  have h3 : s3.standing = s.standing :=
    ((foldl_keeps standing (fun x _ => modCore_standing x _ _) _ s2).trans
      (foldl_keeps standing (fun x _ => modThread_standing x _ _) _ s1)).trans (dropPrism_standing ..)
  have h4 : ∀ u, (s.core (u / 16)).comp = some k → (s4.thread u).st = .halted ∧ (s4.thread u).wait = none := by
    intro u hu
    have h2 : (s2.thread u).st = .halted ∧ (s2.thread u).wait = none :=
      thread_foldl_modThread (Q := fun th => th.st = .halted ∧ th.wait = none) (fun _ => ⟨rfl, rfl⟩) ts s1 (.inl (mem_threadsIn hu))
    have h : s4.thread u = s2.thread u := foldl_keeps (State.thread · u) (fun x _ => modCore_at_thread x _ _ u) ks s2
    rwa [h]
  have he : s4.ended = s.ended ++ [k] := congrArg (· ++ [k]) (ended_of_standing h3)
  have hd : s4.damaged = s.damaged := show s3.damaged = s.damaged from damaged_of_standing h3
  have ho : s4.owner = s.owner := show s3.owner = s.owner from owner_of_standing h3
  clear_value s4 ports
  have h5 : (ports.foldl (fun s e => s.unbindPort e.1) s4).standing = s4.standing :=
    foldl_keeps standing (fun x e => unbindPort_standing x e.1) ports s4
  have h5t := fun u (h : (s4.thread u).wait = none) => unbindPorts_thread ports s4 h
  subst ht
  refine ⟨(ended_of_standing h5).trans he, (damaged_of_standing h5).trans hd, ?_, fun u hu => ?_⟩
  · rw [tell_out, ← ho]
    exact List.mem_append_right _ List.mem_cons_self
  · rw [tell_at_thread, h5t u (h4 u hu).2]
    exact h4 u hu

end State
end Sys2Proof.Machine

end

section
/-! A program starts: its threads and cores (01 R12, R14; 13 R200). -/

namespace Sys2Proof.Machine

/-! ### Writing many keys of a map -/

/-- A map after some keys have been written, each with the value of a function at it. -/
theorem Sp.get_foldl_set {α : Type} [DecidableEq α] (d : α) (g : Nat → α) (l : List Nat) (m : Sp α) (k : Nat) :
    (l.foldl (fun m j => m.set d j (g j)) m).get d k = if k ∈ l then g k else m.get d k := by
  induction l generalizing m with
  | nil => rfl
  | cons j r ih =>
    rw [List.foldl_cons, ih, Sp.get_set]
    by_cases hr : k ∈ r
    · rw [if_pos hr, if_pos (List.mem_cons_of_mem _ hr)]
    · rw [if_neg hr]
      by_cases hj : k = j
      · rw [if_pos hj, if_pos (by rw [hj]; exact List.mem_cons_self), hj]
      · rw [if_neg hj, if_neg fun h => (List.mem_cons.1 h).elim hj hr]

/-! ### The cores and threads of a component's clusters -/

theorem mem_lanes {l : List Nat} {n : Nat} : n ∈ l.flatMap (fun x => (List.range 16).map (16 * x + ·)) ↔ n / 16 ∈ l := by
  simp only [List.mem_flatMap, List.mem_map, List.mem_range]
  constructor
  · rintro ⟨x, hx, i, hi, rfl⟩
    rwa [show (16 * x + i) / 16 = x by omega]
  · exact fun h => ⟨_, h, n % 16, Nat.mod_lt _ (by decide), Nat.div_add_mod n 16⟩

theorem mem_coresOf {c : Component} {k : Nat} : k ∈ coresOf c ↔ clusterOf k ∈ c.clusters := mem_lanes

namespace State

theorem thread_setUp (s : State) (i : Nat) (c : Component) (u : Nat) :
    (s.setUp i c).thread u = if clusterOf (u / 16) ∈ c.clusters then threadAt c u s.now else s.thread u := by
  unfold setUp thread
  dsimp only
  rw [Sp.get_foldl_set Thread.init (threadAt c · s.now)]
  simp only [mem_lanes, mem_coresOf]

theorem core_setUp (s : State) (i : Nat) (c : Component) (k : Nat) :
    (s.setUp i c).core k = if clusterOf k ∈ c.clusters then coreFor i c k else s.core k := by
  unfold setUp core
  dsimp only
  rw [Sp.get_foldl_set Core.init (coreFor i c)]
  simp only [mem_coresOf]

/-- The cycle and the clock. -/
def clockwork (s : State) : Nat × Clock := (s.now, s.clock)

theorem now_of_clockwork {x y : State} (h : x.clockwork = y.clockwork) : x.now = y.now := congrArg Prod.fst h
theorem timeNs_of_clockwork {x y : State} (h : x.clockwork = y.clockwork) : x.timeNs = y.timeNs := by
  have hn : x.now = y.now := now_of_clockwork h
  have hc : x.clock = y.clock := congrArg Prod.snd h
  have ht : x.time = y.time := by
    unfold time slewed
    rw [hn, hc]
  rw [timeNs, ht, timeNs]

theorem setUp_clockwork (s : State) (i : Nat) (c : Component) : (s.setUp i c).clockwork = s.clockwork := by
  unfold setUp clockwork
  dsimp only

theorem setUps_clockwork (l : List (Nat × Component)) (s : State) :
    (l.foldl (fun s e => s.setUp e.1 e.2) s).clockwork = s.clockwork := by
  refine foldl_keeps clockwork (fun x e => ?_) l s
  exact setUp_clockwork x e.1 e.2

/-- A thread and its core in a cluster that no component of a list has are as before. -/
theorem setUps_other {l : List (Nat × Component)} {u : Nat} (h : ∀ e ∈ l, clusterOf (u / 16) ∉ e.2.clusters) (s : State) :
    (l.foldl (fun s e => s.setUp e.1 e.2) s).thread u = s.thread u ∧
    (l.foldl (fun s e => s.setUp e.1 e.2) s).core (u / 16) = s.core (u / 16) := by
  induction l generalizing s with
  | nil => exact ⟨rfl, rfl⟩
  | cons e r ih =>
    have he := h e List.mem_cons_self
    obtain ⟨ht, hc⟩ := ih (fun f hf => h f (List.mem_cons_of_mem _ hf)) (s.setUp e.1 e.2)
    rw [List.foldl_cons, ht, hc, thread_setUp, if_neg he, core_setUp, if_neg he]
    exact ⟨rfl, rfl⟩

/-- Components that share no cluster are set up each as its descriptor says. -/
theorem setUps_own {l : List (Nat × Component)} (ha : apart l = true) {i : Nat} {c : Component} (hm : (i, c) ∈ l) {u : Nat}
    (hu : clusterOf (u / 16) ∈ c.clusters) (s : State) :
    (l.foldl (fun s e => s.setUp e.1 e.2) s).thread u = threadAt c u s.now ∧
    (l.foldl (fun s e => s.setUp e.1 e.2) s).core (u / 16) = coreFor i c (u / 16) := by
  induction l generalizing s with
  | nil => exact absurd hm List.not_mem_nil
  | cons e r ih =>
    rw [apart, Bool.and_eq_true, List.all_eq_true] at ha
    obtain ⟨hd, ha⟩ := ha
    rcases List.mem_cons.1 hm with rfl | hr
    · have ho : ∀ f ∈ r, clusterOf (u / 16) ∉ f.2.clusters := by
        intro f hf hc
        have := hd f hf
        rw [Bool.not_eq_true', List.any_eq_false] at this
        exact this _ hu (List.contains_iff_mem.2 hc)
      obtain ⟨ht, hc⟩ := setUps_other ho (s.setUp i c)
      rw [List.foldl_cons, ht, hc, thread_setUp, if_pos hu, core_setUp, if_pos hu]
      exact ⟨rfl, rfl⟩
    · obtain ⟨ht, hc⟩ := ih ha hr (s.setUp e.1 e.2)
      rw [List.foldl_cons, ht, hc, now_of_clockwork (setUp_clockwork ..)]
      exact ⟨rfl, rfl⟩

/-! ### A program starts -/

/-- What a core is part of, and its barriers. -/
def setting (s : State) (k : Nat) : Option Nat × Sp Bar := ((s.core k).comp, (s.core k).bars)

/-- Residency, EPOCH and the cycle in which the program came. -/
def residency (s : State) : Bool × BitVec 64 × Nat := (s.resident, s.epoch, s.residentAt)

theorem comp_of_setting {x : State} {k : Nat} {i : Option Nat} {m : Sp Bar} (h : x.setting k = (i, m)) :
    (x.core k).comp = i ∧ (x.core k).bars = m := Prod.mk.inj h
theorem resident_of_residency {x : State} {b : Bool} {e : BitVec 64} {n : Nat} (h : x.residency = (b, e, n)) :
    x.resident = b ∧ x.epoch = e ∧ x.residentAt = n := by
  obtain ⟨h1, h2⟩ := Prod.mk.inj h
  exact ⟨h1, Prod.mk.inj h2⟩

theorem pushRec_setting (s : State) (c : Nat) (r : Rec) (k : Nat) : (s.pushRec c r).setting k = s.setting k := by
  unfold setting pushRec
  rw [core_modCore]
  split <;> rename_i h
  · rw [h]
  · rfl

/-- The initial tasks, and the slots of the entries. -/
def startTasks (s : State) (l : List (Nat × Component)) : State :=
  let s := l.foldl (fun s e =>
    if e.2.initv then s.pushRec e.2.lead.toNat ⟨e.2.initpc, e.2.inita0, e.2.inita1, 0, none, false⟩ else s) s
  s.steps.entries.foldl (fun s e => if e.2.valid then s.owe s.now .stepSlot (Arg.num e.1) else s) s

/-- What neither an initial task nor a slot changes. -/
theorem startTasks_keeps {β : Type} (q : State → β) (hp : ∀ s c r, q (pushRec s c r) = q s) (ho : ∀ s d i a, q (owe s d i a) = q s)
    (s : State) (l : List (Nat × Component)) : q (startTasks s l) = q s := by
  refine (foldl_keeps q (fun x e => ?_) _ _).trans (foldl_keeps q (fun x e => ?_) l s)
  · exact ite_keeps q (ho ..) rfl
  · exact ite_keeps q (hp ..) rfl

theorem startTasks_residency (s : State) (l : List (Nat × Component)) : (startTasks s l).residency = s.residency :=
  startTasks_keeps residency (fun _ _ _ => rfl) (fun _ _ _ _ => rfl) s l
theorem startTasks_thread (s : State) (l : List (Nat × Component)) (u : Nat) : (startTasks s l).thread u = s.thread u :=
  startTasks_keeps (fun x => x.thread u) (fun _ _ _ => rfl) (fun _ _ _ _ => rfl) s l
theorem startTasks_setting (s : State) (l : List (Nat × Component)) (k : Nat) : (startTasks s l).setting k = s.setting k :=
  startTasks_keeps (fun x => x.setting k) (fun x c r => pushRec_setting x c r k) (fun _ _ _ _ => rfl) s l

/-- A program that starts is resident, and each of its cores and threads as its descriptor says. -/
theorem start_spec (s : State) (p : Program) (ha : apart (validComps s.comps) = true) :
    (s.start p).resident = true ∧ (s.start p).epoch = s.timeNs ∧ (s.start p).residentAt = s.now ∧
    ∀ i c, (i, c) ∈ validComps s.comps → ∀ u, clusterOf (u / 16) ∈ c.clusters →
      (s.start p).thread u = threadAt c u s.now ∧ ((s.start p).core (u / 16)).comp = some i ∧
      ((s.start p).core (u / 16)).bars = (coreFor i c (u / 16)).bars := by
  obtain ⟨t, ht⟩ : ∃ t, t = s.start p := ⟨_, rfl⟩
  rw [← ht]
  unfold start at ht
  extract_lets l owned s1 gated s2 s3 at ht
  have h1 : s1.clockwork = s.clockwork := setUps_clockwork l s
  have hown : ∀ i c, (i, c) ∈ l → ∀ u, clusterOf (u / 16) ∈ c.clusters →
      s1.thread u = threadAt c u s.now ∧ s1.core (u / 16) = coreFor i c (u / 16) :=
    fun i c hm u hu => setUps_own ha hm hu s
  clear_value s1 owned
  replace ht : t = startTasks s2 l := ht
  have hr : t.residency = s2.residency := ht ▸ startTasks_residency s2 l
  have hs : s2.threads = s1.threads := by dsimp only [s2]
  have hk : s2.cores = s1.cores := by dsimp only [s2]
  have hth : ∀ u, t.thread u = s1.thread u := fun u => by
    rw [ht, startTasks_thread, thread, hs, thread]
  have hco : ∀ k, t.setting k = s1.setting k := fun k => by
    rw [ht, startTasks_setting, setting, core, hk, setting, core]
  have h2 : s2.residency = (true, s.timeNs, s.now) := by
    rw [← timeNs_of_clockwork h1, ← now_of_clockwork h1]
    rfl
  obtain ⟨h3, h4, h5⟩ := resident_of_residency (hr.trans h2)
  refine ⟨h3, h4, h5, fun i c hm u hu => ?_⟩
  obtain ⟨hown, hcore⟩ := hown i c hm u hu
  have hset : s1.setting (u / 16) = (some i, (coreFor i c (u / 16)).bars) := by
    rw [setting, hcore]
    rfl
  obtain ⟨hc, hb⟩ := comp_of_setting ((hco _).trans hset)
  exact ⟨(hth u).trans hown, hc, hb⟩

end State
end Sys2Proof.Machine

end

section
/-! The state in which a program is checked and started. -/

namespace Sys2Proof.Machine.State

/-! ### Rambeod's preparations take no time -/

theorem bare_clockwork (s : State) : s.bare.clockwork = s.clockwork := by
  unfold bare clockwork
  dsimp only

theorem tables_clockwork (s : State) (p : Program) : (s.tables p).clockwork = s.clockwork := by
  unfold tables clockwork
  dsimp only

theorem place_clockwork (s : State) (l : List (Nat × Byte)) : (s.place l).clockwork = s.clockwork := by
  refine (foldl_keeps clockwork (fun x e => ?_) l _).trans ?_ <;> rfl

theorem mapPage_clockwork (s : State) (gva leaf l node : Nat) (free : List Nat) :
    (s.mapPage gva leaf l node free).1.clockwork = s.clockwork := by
  induction l generalizing s node free with
  | zero => rfl
  | succ l ih =>
    unfold mapPage
    extract_lets at' put e
    have hp : ∀ x v, (put x v).clockwork = x.clockwork := fun x v => place_clockwork ..
    clear_value put e
    split
    · exact hp ..
    · split
      · exact ih ..
      · split
        · rfl
        · split
          · exact (ih ..).trans ((hp ..).trans (place_clockwork ..))
          · rfl

theorem windows_clockwork (s : State) (p : Program) : (s.windows p).clockwork = s.clockwork := by
  refine foldl_keeps clockwork (fun x e => ?_) _ s
  refine ite_keeps clockwork rfl ?_
  exact foldl_keeps (fun y : State × List Nat => y.1.clockwork) (fun y i => mapPage_clockwork ..) _ _

/-- The state in which a program is checked: its tables, bytes and table windows stand. -/
def prepared (s : State) (p : Program) : State := ((s.bare.tables p).place p.bytes).windows p

theorem prepared_clockwork (s : State) (p : Program) : (s.prepared p).clockwork = s.clockwork :=
  (windows_clockwork ..).trans ((place_clockwork ..).trans ((tables_clockwork ..).trans (bare_clockwork s)))

theorem apart_of_programOk {s : State} {p : Program} (h : s.programOk p = true) : apart (validComps s.comps) = true := by
  unfold programOk at h
  simp only [Bool.and_eq_true] at h
  obtain ⟨⟨⟨⟨⟨-, h⟩, -⟩, -⟩, -⟩, -⟩ := h
  exact h

/-! ### The threads and barriers of a resident program -/

theorem threadAt_seg (c : Component) (t now : Nat) {i : Nat} (h : i < 8) : (threadAt c t now).seg.get 0 i = c.segimg.getD i 0 := by
  refine (Sp.get_foldl_set 0 (fun i => c.segimg.getD i 0) (List.range 8) .empty i).trans ?_
  rw [if_pos (List.mem_range.2 h)]

theorem coreFor_need (i : Nat) (c : Component) (k : Nat) {b : Nat} (h : b < 4) :
    ((coreFor i c k).bars.get Bar.init b).need = c.windowed := by
  have h4 : ((List.range 4).foldl (fun m b => m.set Bar.init b ⟨c.windowed, 0, false⟩) Sp.empty).get Bar.init b =
      ⟨c.windowed, 0, false⟩ := by
    rw [Sp.get_foldl_set Bar.init (fun _ => ⟨c.windowed, 0, false⟩), if_pos (List.mem_range.2 h)]
  have h16 : ∀ (l : List Nat) (m : Sp Bar), (l.foldl (fun m j => m.set Bar.init (4 + j) ⟨16 * c.windowed, 0, false⟩) m).get Bar.init b
      = m.get Bar.init b := fun l m =>
    foldl_keeps (fun m : Sp Bar => m.get Bar.init b) (fun m j => Sp.get_set_ne _ _ _ (by omega)) l m
  unfold coreFor
  dsimp only
  split
  · rw [h16, h4]
  · rw [h4]

end Sys2Proof.Machine.State

end

section
/-! Programs made resident and removed, components ended, threads resumed. -/

namespace Sys2Proof.Proofs
open Sys2Proof.Machine Sys2Proof.Spec Sys2Proof.Machine.State

/-! ### Programs made resident and removed (01 R10 to R14; 13 R200) -/

/-- A program that Rambeod accepts is resident, each of its threads and cores as its component's descriptor says. -/
theorem programResident_accepted {s : State} (ho : s.owns s.arg.n = true) (hr : s.resident = false)
    (hp : (s.prepared s.arg.prog).programOk s.arg.prog = true) :
    Answers .programResident s fun t =>
      t.resident = true ∧ t.epoch = (s.time >>> 16).truncate 64 ∧ t.residentAt = s.now ∧
      ∀ i c, (i, c) ∈ validComps (s.prepared s.arg.prog).comps → ∀ u, clusterOf (u / 16) ∈ c.clusters →
        t.thread u = threadAt c u s.now ∧ (t.core (u / 16)).comp = some i ∧
        (t.core (u / 16)).bars = (coreFor i c (u / 16)).bars := by
  have hm : s.mgmt.recovery = false := by
    unfold State.owns State.serves at ho
    rw [Bool.and_eq_true, Bool.not_eq_true'] at ho
    exact ho.2
  have hrun : exec .programResident s = .next ((s.prepared s.arg.prog).start s.arg.prog) := by
    have hc : (s.owns s.arg.n && !s.resident && (s.prepared s.arg.prog).programOk s.arg.prog) = true := by
      rw [ho, hr, hp]
      rfl
    exact congrArg Host.Outcome.next ((if_neg (by rw [hm]; exact Bool.noConfusion)).trans (if_pos hc))
  obtain ⟨h1, h2, h3, h4⟩ := start_spec (s.prepared s.arg.prog) s.arg.prog (apart_of_programOk hp)
  rw [now_of_clockwork (prepared_clockwork ..)] at h3 h4
  rw [timeNs_of_clockwork (prepared_clockwork ..)] at h2
  exact ⟨_, hrun, h1, h2, h3, h4⟩

/-- A program is refused: its sender is told. -/
theorem programResident_refused {s : State} (hm : s.mgmt.recovery = false)
    (h : s.owns s.arg.n = false ∨ s.resident = true ∨ (s.prepared s.arg.prog).programOk s.arg.prog = false) :
    Answers .programResident s fun t => t = { s with out := s.out ++ [.refusedProgram s.arg.n] } := by
  have hc : ¬ (s.owns s.arg.n && !s.resident && (s.prepared s.arg.prog).programOk s.arg.prog) = true := by
    rcases h with h | h | h <;> simp [h]
  refine ⟨s.tell (.refusedProgram s.arg.n), ?_, rfl⟩
  exact congrArg Host.Outcome.next ((if_neg (by rw [hm]; exact Bool.noConfusion)).trans (if_neg hc))

theorem programRemove_removed {s : State} (ho : s.owns s.arg.n = true) (hr : s.resident = true) :
    Answers .programRemove s fun t =>
      t.resident = false ∧ (∀ u, t.thread u = Thread.init) ∧ (∀ c, t.core c = Core.init) ∧ sameMemory s t := by
  refine ⟨s.bare, ?_, rfl, fun _ => rfl, fun _ => rfl, fun _ => rfl⟩
  change execProgramRemove s = _
  unfold execProgramRemove
  rw [ho, hr]
  rfl

theorem programRemove_refused {s : State} (h : s.owns s.arg.n = false ∨ s.resident = false) :
    Answers .programRemove s fun t => t = { s with out := s.out ++ [.refusedProgram s.arg.n] } := by
  refine ⟨s.tell (.refusedProgram s.arg.n), ?_, rfl⟩
  have hc : ¬ (s.owns s.arg.n && s.resident) = true := by
    rw [Bool.and_eq_true, not_and_or, Bool.not_eq_true, Bool.not_eq_true]
    exact h
  exact congrArg Host.Outcome.next (if_neg hc)

/-! ### Components end (27 R281) -/

/-- A component that no damaged line ends is ended at its owner's request. -/
theorem componentEnd_asked {s : State} (hd : ∀ e ∈ s.damaged, e.1 ≠ s.arg.k) (ho : s.owns s.arg.n = true) (hr : s.resident = true)
    (hv : (s.comp s.arg.k).valid = true) (he : s.ended.contains s.arg.k = false) :
    exec .componentEnd s = .next (s.endComp s.arg.k 0 0) := by
  have hf : (s.damaged.find? fun x => x.1 == s.arg.k) = none := List.find?_eq_none.2 fun e h => by simpa using hd e h
  change execComponentEnd s = _
  unfold execComponentEnd
  simp only [hf]
  rw [ho, hr, hv, he]
  rfl

/-- A damaged line ends the component that owns it, whoever asks. -/
theorem componentEnd_damaged {s : State} {l : Nat} {rest : List (Nat × Nat)} (hd : s.damaged = (s.arg.k, l) :: rest)
    (hr : s.resident = true) (he : s.ended.contains s.arg.k = false) :
    exec .componentEnd s = .next ({ s with damaged := rest }.endComp s.arg.k 0xA0 (64 * l)) := by
  have hf : (s.damaged.find? fun x => x.1 == s.arg.k) = some (s.arg.k, l) := 
    (congrArg (List.find? _) hd).trans
      (List.find?_cons_of_pos (p := fun x : Nat × Nat => x.1 == s.arg.k) (beq_self_eq_true s.arg.k))
  have hx : s.damaged.erase (s.arg.k, l) = rest := by rw [hd, List.erase_cons_head]
  change execComponentEnd s = _
  unfold execComponentEnd
  simp only [hf, hx]
  rw [hr, he]
  rfl

/-! ### A debugger resumes a thread (01 R15) -/

theorem debugResume_resumed {s : State} {i : Nat} (hw : (s.thread s.arg.n).winSize ≠ 0) (hst : (s.thread s.arg.n).st = .halted)
    (hc : (s.core (s.arg.n / 16)).comp = some i) (he : s.ended.contains i = false) : Answers .debugResume s fun t =>
      t.thread s.arg.n = { s.thread s.arg.n with st := .ready, readyAt := max (s.thread s.arg.n).readyAt (s.now + 1) } ∧
      elsewhere s t s.arg.n := by
  have hn : ¬ ((s.thread s.arg.n).winSize = 0 ∨ (s.thread s.arg.n).st ≠ .halted ∨
      (match (s.core (coreOf s.arg.n)).comp with | some k => s.ended.contains k | none => true) = true) := by
    rintro (h | h | h)
    · exact hw h
    · exact h hst
    · rw [show (s.core (coreOf s.arg.n)).comp = some i from hc] at h
      exact Bool.noConfusion (h.symm.trans he)
  refine ⟨s.modThread s.arg.n fun th => { th with st := .ready, readyAt := max th.readyAt (s.now + 1) },
    congrArg Host.Outcome.next (if_neg hn), ?_, fun v hv => ?_, rfl, fun _ => rfl⟩
  · rw [thread_modThread, if_pos rfl]
  · rw [thread_modThread, if_neg hv]

end Sys2Proof.Proofs

end

section
/-! A component is suspended and a thread halted. -/

namespace Sys2Proof.Machine

/-- A thread but for its state, its wait and the cycle in which it is ready. -/
def Thread.atRest (th : Thread) : Thread := { th with st := .halted, wait := none, readyAt := 0 }

theorem Thread.g_of_atRest {x y : Thread} (h : x.atRest = y.atRest) : x.g = y.g :=
  show x.atRest.g = y.atRest.g by rw [h]
theorem Thread.pc_of_atRest {x y : Thread} (h : x.atRest = y.atRest) : x.pc = y.pc :=
  show x.atRest.pc = y.atRest.pc by rw [h]

namespace State

/-! ### Threads, cores and memory as a thread's request is withdrawn -/

/-- The threads, the cores, and memory with what the step in progress names. -/
def site (s : State) : Sp Thread × Sp Core × Sp Byte × Arg := (s.threads, s.cores, s.mem, s.arg)

theorem threads_of_site {x y : State} (h : x.site = y.site) (u : Nat) : x.thread u = y.thread u :=
  congrArg (fun p : Sp Thread × Sp Core × Sp Byte × Arg => p.1.get Thread.init u) h
theorem cores_of_site {x y : State} (h : x.site = y.site) (c : Nat) : x.core c = y.core c :=
  congrArg (fun p : Sp Thread × Sp Core × Sp Byte × Arg => p.2.1.get Core.init c) h

/-- Memory, with what the step in progress names. -/
def memAndArg (s : State) : Sp Byte × Arg := (s.mem, s.arg)

theorem memAndArg_of_site {x y : State} (h : x.site = y.site) : x.memAndArg = y.memAndArg := congrArg (·.2.2) h

theorem modCluster_site (s : State) (c : Nat) (f : Cluster → Cluster) : (s.modCluster c f).site = s.site := rfl
theorem modPort_site (s : State) (p : Nat) (f : Port → Port) : (s.modPort p f).site = s.site := rfl
theorem owe_site (s : State) (due : Nat) (i : Instr) (a : Arg) : (s.owe due i a).site = s.site := rfl
theorem leavePort_site (s : State) (t : Nat) : (s.leavePort t).site = s.site := rfl

theorem portGoOn_site (s : State) (p : Nat) : (s.portGoOn p).site = s.site := by
  unfold portGoOn
  split
  · rfl
  · exact owe_site ..

theorem prismNext_site (s : State) (cl : Nat) : (s.prismNext cl).site = s.site := by
  unfold prismNext
  split
  · split
    · rfl
    · exact (owe_site ..).trans (modCluster_site ..)
  · rfl

theorem withdraw_site (s : State) (t p : Nat) : (s.withdraw t p).site = s.site :=
  (prismNext_site ..).trans ((portGoOn_site ..).trans ((modPort_site ..).trans ((modCluster_site ..).trans (leavePort_site ..))))

/-- A thread whose wait is withdrawn is issued again, from a state with the same threads, cores and memory. -/
theorem withdrawThread_cases (s : State) (t : Nat) : s.withdrawThread t = s ∨
    ∃ y : State, y.site = s.site ∧ y.kept = s.kept ∧ s.withdrawThread t = y.reissue t := by
  unfold withdrawThread
  split
  · exact .inl rfl
  · split
    · split
      · refine .inr ⟨_, ?_, ?_, rfl⟩
        · rfl
        · exact withNet_kept ..
      · exact .inl rfl
    · split
      · exact .inr ⟨s, rfl, rfl, rfl⟩
      · exact .inl rfl
    · dsimp only
      split
      · split
        · exact .inl rfl
        · exact .inr ⟨_, (withdraw_site ..).trans (modCluster_site ..), (withdraw_kept ..).trans (modCluster_kept ..), rfl⟩
      · exact .inl rfl

theorem unreserve_thread (s : State) (t : Nat) (room : Bool) (u : Nat) : (s.unreserve t room).thread u = s.thread u :=
  ite_keeps (State.thread · u) (modCore_at_thread ..) rfl

theorem abandon_thread (s : State) (t u : Nat) : (s.abandon t).thread u = s.thread u := by
  unfold abandon
  split
  · exact unreserve_thread ..
  · rfl

/-- The component of a core. -/
def compAt (s : State) (c : Nat) : Option Nat := (s.core c).comp

theorem unreserve_compAt (s : State) (t : Nat) (room : Bool) (c : Nat) : (s.unreserve t room).compAt c = s.compAt c := by
  refine ite_keeps (compAt · c) ?_ rfl
  rw [compAt, core_modCore]
  split <;> rename_i h
  · rw [h, compAt]
  · rfl

theorem abandon_compAt (s : State) (t c : Nat) : (s.abandon t).compAt c = s.compAt c := by
  unfold abandon
  split
  · exact unreserve_compAt ..
  · rfl

theorem abandon_memAndArg (s : State) (t : Nat) : (s.abandon t).memAndArg = s.memAndArg := by
  unfold abandon
  split
  · exact ite_keeps memAndArg rfl rfl
  · rfl

theorem reissue_thread_of_ne (s : State) {t u : Nat} (h : u ≠ t) : (s.reissue t).thread u = s.thread u := by
  unfold reissue
  rw [thread_modThread, if_neg h, abandon_thread]

theorem reissue_atRest (s : State) (t u : Nat) : ((s.reissue t).thread u).atRest = (s.thread u).atRest := by
  unfold reissue
  rw [thread_modThread, abandon_thread]
  split <;> rename_i h
  · rw [h]
    rfl
  · rw [abandon_thread]

theorem reissue_compAt (s : State) (t c : Nat) : (s.reissue t).compAt c = s.compAt c := abandon_compAt ..
theorem reissue_memAndArg (s : State) (t : Nat) : (s.reissue t).memAndArg = s.memAndArg := abandon_memAndArg ..

theorem withdrawThread_thread_of_ne (s : State) {t u : Nat} (h : u ≠ t) : (s.withdrawThread t).thread u = s.thread u := by
  rcases s.withdrawThread_cases t with e | ⟨y, hy, -, e⟩ <;> rw [e]
  rw [reissue_thread_of_ne y h, threads_of_site hy]

theorem withdrawThread_atRest (s : State) (t u : Nat) : ((s.withdrawThread t).thread u).atRest = (s.thread u).atRest := by
  rcases s.withdrawThread_cases t with e | ⟨y, hy, -, e⟩ <;> rw [e]
  rw [reissue_atRest, threads_of_site hy]

theorem withdrawThread_compAt (s : State) (t c : Nat) : (s.withdrawThread t).compAt c = s.compAt c := by
  rcases s.withdrawThread_cases t with e | ⟨y, hy, -, e⟩ <;> rw [e]
  rw [reissue_compAt, compAt, cores_of_site hy, compAt]

theorem withdrawThread_memAndArg (s : State) (t : Nat) : (s.withdrawThread t).memAndArg = s.memAndArg := by
  rcases s.withdrawThread_cases t with e | ⟨y, hy, -, e⟩ <;> rw [e]
  rw [reissue_memAndArg, memAndArg_of_site hy]

theorem withdrawThread_kept (s : State) (t : Nat) : (s.withdrawThread t).kept = s.kept := by
  rcases s.withdrawThread_cases t with e | ⟨y, -, hy, e⟩ <;> rw [e]
  rw [reissue_kept, hy]

theorem not_eligible_of_suspended {s : State} {k u : Nat} (hc : (s.core (u / 16)).comp = some k)
    (hs : ∃ v ∈ s.suspended, v.comp = k) : s.eligible u = false := by
  have h : s.isSuspended (coreOf u) = true := by
    unfold isSuspended coreOf
    rw [hc]
    obtain ⟨v, hv, rfl⟩ := hs
    exact List.any_eq_true.2 ⟨v, hv, beq_self_eq_true _⟩
  unfold eligible
  rw [h]
  exact Bool.and_false _

end State
end Sys2Proof.Machine

namespace Sys2Proof.Proofs
open Sys2Proof.Machine Sys2Proof.Spec Sys2Proof.Machine.State

/-! ### Suspension (27 R279) and a debugger's halt (01 R15) -/

/-- A suspended component issues nothing; its threads' registers and PCs are as they were. -/
theorem componentSuspend_suspended {s : State} (ho : s.owns s.arg.n = true) (hr : s.resident = true)
    (hv : (s.comp s.arg.k).valid = true) (he : s.ended.contains s.arg.k = false) (hs : ∀ v ∈ s.suspended, v.comp ≠ s.arg.k) :
    Answers .componentSuspend s fun t =>
      t.suspended = s.suspended ++ [⟨s.arg.k, s.arg.yes⟩] ∧
      (∀ u, (s.core (u / 16)).comp = some s.arg.k → t.eligible u = false) ∧
      ∀ u, (t.thread u).g = (s.thread u).g ∧ (t.thread u).pc = (s.thread u).pc := by
  obtain ⟨x, hx⟩ : ∃ x, x = (s.threadsIn s.arg.k).foldl withdrawThread s := ⟨_, rfl⟩
  have hk : x.suspended = s.suspended := by
    rw [hx]; exact foldl_keeps kept withdrawThread_kept _ s
  have hc : ∀ c, (x.core c).comp = (s.core c).comp := fun c => by
    rw [hx]; exact foldl_keeps (fun y : State => y.compAt c) (fun y t => withdrawThread_compAt y t c) _ s
  have ha : ∀ u, (x.thread u).atRest = (s.thread u).atRest := fun u => by
    rw [hx]; exact foldl_keeps (fun y : State => (y.thread u).atRest) (fun y t => withdrawThread_atRest y t u) _ s
  have hy : x.arg = s.arg := by
    rw [hx]; exact congrArg Prod.snd (foldl_keeps State.memAndArg withdrawThread_memAndArg _ s)
  have hn : (s.suspended.any fun v => v.comp == s.arg.k) = false := by simpa using hs
  have hrun : exec .componentSuspend s = .next { x with suspended := x.suspended ++ [⟨s.arg.k, x.arg.yes⟩] } := by
    rw [hx]
    refine congrArg Host.Outcome.next (if_neg ?_)
    rw [ho, hr, hv, he, hn]
    exact Bool.noConfusion
  refine ⟨_, hrun, ?_, fun u hu => ?_, fun u => ?_⟩
  · change x.suspended ++ [⟨s.arg.k, x.arg.yes⟩] = _
    rw [hk, hy]
  · exact not_eligible_of_suspended (k := s.arg.k) ((hc _).trans hu) ⟨_, List.mem_append_right _ List.mem_cons_self, rfl⟩
  · exact ⟨Thread.g_of_atRest (ha u), Thread.pc_of_atRest (ha u)⟩

/-- A debugger halts a thread, which waits for nothing from then on; it is otherwise as it was, and so is every other thread. -/
theorem debugHalt_halted {s : State} (hw : (s.thread s.arg.n).winSize ≠ 0) (hst : (s.thread s.arg.n).st ≠ .halted) :
    Answers .debugHalt s fun t =>
      { t.thread s.arg.n with readyAt := 0 } = { s.thread s.arg.n with st := .halted, wait := none, readyAt := 0 } ∧
      (∀ u, u ≠ s.arg.n → t.thread u = s.thread u) ∧ sameMemory s t := by
  obtain ⟨x, hx⟩ : ∃ x, x = (s.withdrawThread s.arg.n).abandon s.arg.n := ⟨_, rfl⟩
  have hrun : exec .debugHalt s = .next (x.modThread s.arg.n fun th => { th with st := .halted, wait := none }) := by
    rw [hx]
    exact congrArg Host.Outcome.next (if_neg (not_or.2 ⟨hw, hst⟩))
  have ha : (x.thread s.arg.n).atRest = (s.thread s.arg.n).atRest := by
    rw [hx, abandon_thread, withdrawThread_atRest]
  have hm : x.memAndArg = s.memAndArg := by
    rw [hx, abandon_memAndArg, withdrawThread_memAndArg]
  refine ⟨_, hrun, ?_, fun u hu => ?_, fun a => ?_⟩
  · rw [thread_modThread, if_pos rfl]
    exact ha
  · rw [thread_modThread, if_neg hu, hx, abandon_thread, withdrawThread_thread_of_ne _ hu]
  · exact congrArg (fun m : Sp Byte × Arg => m.1.get 0 a) hm

end Sys2Proof.Proofs

end

section
/-! Programs come and go. -/

namespace Sys2Proof.Proofs
open Sys2Proof.Machine Sys2Proof.Spec Sys2Proof.Machine.State

/-- Settles O53: each clause is a rule above; the long ones are resumption, where every instruction that a thread goes on with leaves
the suspended components as they are, and the end of a component, whose halted threads no port turns away. -/
theorem programsComeAndGo : Obligations.ProgramsComeAndGo := by
  unfold Obligations.ProgramsComeAndGo
  intro s h k p x
  refine ⟨fun ho hr hp => ?_, programResident_refused, programRemove_removed, programRemove_refused,
    componentSuspend_suspended, componentResume_suspended s, fun hd ho hr hv he => ?_, fun l rest hd hr he => ?_,
    debugHalt_halted, fun i => debugResume_resumed⟩
  · obtain ⟨t, ht, hres, hep, hat, hown⟩ := programResident_accepted ho hr hp
    refine ⟨t, ht, hres, hep, hat, fun i c hm u hu => ?_⟩
    obtain ⟨hth, hc, hb⟩ := hown i c hm u hu
    have hst : (t.thread u).st = if c.winOf (u % 16) = 0 then .halted else .idle := by
      rw [hth]
      rfl
    refine ⟨hc, fun b hb4 => ?_, by rw [hth]; rfl, fun h0 => by rw [hst, if_pos h0], fun h0 => by rw [hst, if_neg h0],
      by rw [hth]; rfl, by rw [hth]; rfl, by rw [hth]; rfl, by rw [hth]; rfl, fun r => ?_, fun i hi => ?_⟩
    · rw [bar, hb]
      exact coreFor_need _ _ _ hb4
    · rw [hth, Thread.rd]
      exact ite_self 0
    · rw [hth]
      exact threadAt_seg _ _ _ hi
  · obtain ⟨hen, -, hout, hth⟩ := endComp_spec s k 0 0
    exact ⟨_, componentEnd_asked hd ho hr hv he, hen, hout, hth⟩
  · obtain ⟨hen, hdm, hout, hth⟩ := endComp_spec { s with damaged := rest } k 0xA0 (64 * l)
    exact ⟨_, componentEnd_damaged hd hr he, hen, hdm, hout, hth⟩

end Sys2Proof.Proofs

end

section
/-!
Memory stays canonical and every VL at most VLMAX (11 R151; 03 R31): the predicate, and what it takes of a thread.
-/

-- One proof at a time: the many short proofs of these sections, elaborated together, would hold a thread each.
set_option Elab.async false

namespace Sys2Proof.Machine

/-- VL is at most VLMAX (03 R31). -/
def Thread.vlFits (th : Thread) : Prop := th.vl.toNat ≤ th.vlmax

/-- What VL and VLMAX are read from. -/
def Thread.vset (th : Thread) : Word × Word := (th.vl, th.vtype)

theorem Thread.vlFits_of_vset {x y : Thread} (h : y.vset = x.vset) (hx : x.vlFits) : y.vlFits := by
  obtain ⟨hl, ht⟩ := Prod.mk.inj h
  unfold vlFits vlmax grp sew at hx ⊢
  rwa [hl, ht]

theorem Thread.init_vlFits : Thread.init.vlFits := by unfold vlFits; decide

namespace Thread

theorem wr_vset (th : Thread) (d : Reg) (v : Word) : (th.wr d v).vset = th.vset := by
  unfold wr; split <;> rfl
theorem wrM_vset (th : Thread) (r : MReg) (v : Vec) : (th.wrM r v).vset = th.vset := by
  unfold wrM; split <;> rfl
theorem loopEnd_vset (p : Word) (th : Thread) : (loopEnd p th).vset = th.vset :=
  loopEnd_keeps vset (fun _ _ _ => rfl) p th
theorem putImgG_vset (th : Thread) (now n i : Nat) (b : Byte) : (th.putImgG now n i b).vset = th.vset := by
  unfold putImgG; split
  · rfl
  · split <;> rfl

end Thread

/-- If `m`, memory is in canonical form; if `v`, every VL is at most VLMAX. Both premises ride along, so that each operation has one law
for the two. (A structure: no proof unfolds it by accident, and no check evaluates the states it speaks of.) -/
structure State.Formed (m v : Prop) (s : State) : Prop where
  mem : m → s.memOk
  vl : v → ∀ u, (s.thread u).vlFits

/-- What an instruction answers is formed. -/
def Formed1 (m v : Prop) (o : Out1) : Prop := ∀ t, o = .next t → t.Formed m v

namespace State.Formed

variable {m v : Prop} {s t : State}

/-- Other fields do not matter. -/
theorem same (h : s.Formed m v) (ht : t.threads = s.threads := by rfl) (hm : t.mem = s.mem := by rfl) : t.Formed m v where
  mem hm' := by unfold memOk; rw [hm]; exact h.mem hm'
  vl hv u := by unfold thread; rw [ht]; exact h.vl hv u

theorem withNet (h : s.Formed m v) {x : List Req} : { s with net := x }.Formed m v := h.same
theorem withPfaults (h : s.Formed m v) {x : List PFault} : { s with pfaults := x }.Formed m v := h.same
theorem withTransit (h : s.Formed m v) {x : List (Nat × Dir × Entry)} : { s with transit := x }.Formed m v := h.same
theorem withCreditsBack (h : s.Formed m v) {x : List (Nat × Dir)} : { s with creditsBack := x }.Formed m v := h.same

theorem sameButTlb (h : s.Formed m v) (e : s.sameButTlb t) : t.Formed m v := h.same e.threads e.mem

/-- Memory is written. -/
theorem written (h : s.Formed m v) (loc : Nat) (b : List Byte) (ht : t.threads = s.threads := by rfl)
    (hm : t.mem = writeMem s.mem loc b := by rfl) : t.Formed m v where
  mem hm' := by unfold memOk; rw [hm]; exact writeMem_wf b _ loc (h.mem hm')
  vl hv u := by unfold thread; rw [ht]; exact h.vl hv u

/-- A fold keeps what each of its steps keeps. -/
theorem foldl {α : Type} {f : State → α → State} (h : s.Formed m v)
    (hf : ∀ {x : State} {a : α}, x.Formed m v → (f x a).Formed m v) (l : List α) : (l.foldl f s).Formed m v := by
  induction l generalizing s with
  | nil => exact h
  | cons a r ih => exact ih (hf h)

/-- A fold that carries a state beside something else. -/
theorem foldl_of {σ α : Type} (p : σ → State) {f : σ → α → σ} {x : σ} (h : (p x).Formed m v)
    (hf : ∀ {x : σ} {a : α}, (p x).Formed m v → (p (f x a)).Formed m v) (l : List α) : (p (l.foldl f x)).Formed m v := by
  induction l generalizing x with
  | nil => exact h
  | cons a r ih => exact ih (hf h)

theorem ite {c : Prop} [Decidable c] (hs : s.Formed m v) (ht : t.Formed m v) : (if c then s else t).Formed m v := by
  split
  · exact hs
  · exact ht

/-! ### Agents that are written -/

theorem setThreadFit (h : s.Formed m v) {t : Nat} {th : Thread} (ht : v → th.vlFits) : (s.setThread t th).Formed m v where
  mem hm := h.mem hm
  vl hv u := by
    rw [thread_setThread]
    split
    · exact ht hv
    · exact h.vl hv u

theorem modThreadFit (h : s.Formed m v) {t : Nat} {f : Thread → Thread} (hf : (s.thread t).vlFits → (f (s.thread t)).vlFits) :
    (s.modThread t f).Formed m v :=
  h.setThreadFit fun hv => hf (h.vl hv t)

theorem modThread (h : s.Formed m v) {t : Nat} {f : Thread → Thread} (hf : ∀ th, (f th).vset = th.vset := by intro; rfl) :
    (s.modThread t f).Formed m v :=
  h.modThreadFit (Thread.vlFits_of_vset (hf _))

theorem setThread (h : s.Formed m v) {t : Nat} {th : Thread} (ht : th.vset = (s.thread t).vset := by rfl) :
    (s.setThread t th).Formed m v :=
  h.setThreadFit fun hv => Thread.vlFits_of_vset ht (h.vl hv t)

theorem modTh (h : s.Formed m v) {f : Thread → Thread} (hf : ∀ th, (f th).vset = th.vset := by intro; rfl) : (s.modTh f).Formed m v :=
  h.modThread hf

theorem modCore (h : s.Formed m v) {c : Nat} {f : Core → Core} : (s.modCore c f).Formed m v := h.same
theorem modCluster (h : s.Formed m v) {c : Nat} {f : Cluster → Cluster} : (s.modCluster c f).Formed m v := h.same
theorem modPort (h : s.Formed m v) {p : Nat} {f : Port → Port} : (s.modPort p f).Formed m v := h.same
theorem modDie (h : s.Formed m v) {d : Nat} {f : Die → Die} : (s.modDie d f).Formed m v := h.same
theorem modGw (h : s.Formed m v) {g : Nat} {f : Gateway → Gateway} : (s.modGw g f).Formed m v := h.same
theorem modLink (h : s.Formed m v) {l : Nat} {f : Link → Link} : (s.modLink l f).Formed m v := h.same
theorem owe (h : s.Formed m v) {due : Nat} {i : Instr} {a : Arg} : (s.owe due i a).Formed m v := h.same
theorem tell (h : s.Formed m v) {o : Out} : (s.tell o).Formed m v := h.same
theorem freeWord (h : s.Formed m v) : s.freeWord.2.Formed m v := h.same

/-! ### Registers -/

theorem setG (h : s.Formed m v) {r : Reg} {x : Word} : (s.setG r x).Formed m v := h.modTh fun th => th.wr_vset r x
theorem setM (h : s.Formed m v) {r : MReg} {x : Vec} : (s.setM r x).Formed m v :=
  h.ite (h.modTh fun th => th.wrM_vset r x).modCore
theorem setVreg (h : s.Formed m v) {t n : Nat} {x mask : Vec} : (s.setVreg t n x mask).Formed m v := by
  unfold State.setVreg
  exact h.setThread.modCore
theorem writeReg (h : s.Formed m v) {c k : Nat} {x : Word} : (s.writeReg c k x).Formed m v := h.modCore
theorem cbPost (h : s.Formed m v) {c b n : Nat} : (s.cbPost c b n).Formed m v := h.writeReg
theorem cbFree (h : s.Formed m v) {c b n : Nat} : (s.cbFree c b n).Formed m v := h.writeReg

/-! ### Completing, trapping, waiting -/

theorem finishAt (h : s.Formed m v) {t : Nat} {n : Word} {dist : Nat} : (s.finishAt t n dist).Formed m v :=
  h.modThread fun th => Thread.loopEnd_vset th.pc { th with pc := n }
theorem finish (h : s.Formed m v) {t : Nat} {len : Word} {dist : Nat} : (s.finish t len dist).Formed m v := h.finishAt
theorem done (h : s.Formed m v) {dist : Nat} : (s.done dist).Formed m v := h.finish
theorem jump (h : s.Formed m v) {t : Nat} {target : Word} {call : Bool} {dist : Nat} : (s.jump t target call dist).Formed m v :=
  h.modThread fun th => by cases call <;> rfl
theorem trap (h : s.Formed m v) {t : Nat} {c : Cause} {tv : Word} : (s.trap t c tv).Formed m v := h.modThread
theorem doubleTrap (h : s.Formed m v) {t : Nat} {c : Cause} {tv : Word} : (s.doubleTrap t c tv).Formed m v := h.modThread.tell
theorem fetchTrap (h : s.Formed m v) {t : Nat} {c : Cause} {tv : Word} : (s.fetchTrap t c tv).Formed m v := h.doubleTrap.ite h.trap
theorem eret (h : s.Formed m v) {t dist : Nat} : (s.eret t dist).Formed m v := h.modThread.jump
theorem park (h : s.Formed m v) {t : Nat} {w : Wait} : (s.park t w).Formed m v := h.modThread
theorem waitFor (h : s.Formed m v) {t : Nat} {a : Act} {why : Why} {reqs : List Nat} {got : List (Nat × List Byte)} :
    (s.waitFor t a why reqs got).Formed m v := h.park
theorem parkOn (h : s.Formed m v) {t : Nat} {a : Act} {why : Why} : (s.parkOn t a why).Formed m v := h.waitFor

/-! ### System registers and register images -/

theorem sysWrite (h : s.Formed m v) {t n : Nat} {x : Word} : (s.sysWrite t n x).Formed m v := by
  unfold State.sysWrite
  split
  · exact h.modCore.ite h.writeReg
  · exact h.modThread fun th => by split <;> rfl

theorem putImgV (h : s.Formed m v) {c p i : Nat} {b : Byte} : (s.putImgV c p i b).Formed m v := by
  unfold State.putImgV
  dsimp only
  split
  · exact h.modCore
  · exact h.setThread.ite h.modCore

theorem putImgByte (h : s.Formed m v) {c off : Nat} {b : Byte} : (s.putImgByte c off b).Formed m v :=
  h.putImgV.ite ((h.modThread fun th => th.putImgG_vset ..).ite h.modThread)

theorem cwWrite (h : s.Formed m v) {c : Nat} {r : CReg} {x : Word} {tid : Nat} : (s.cwWrite c r x tid).Formed m v := by
  cases r with
  | mask t n w => exact h.modThread fun th => th.wrM_vset ..
  | sys t n => exact h.sysWrite
  | ls | le | lc | lp | pc | depth => exact h.modThread.ite h
  | perCore n =>
    unfold State.cwWrite
    dsimp only
    split
    · exact h.writeReg
    · exact h
  | ctl k => exact h.writeReg
  | bar i =>
    unfold State.cwWrite
    exact h.modCore
  | state | wake | pkgid | sdreq | sdstat => exact h

/-! ### Memory and poison -/

theorem coverWindow (h : s.Formed m v) {loc off c n grp : Nat} : (s.coverWindow loc off c n grp).Formed m v := by
  unfold State.coverWindow
  split <;> exact h.same

theorem endPoison (h : s.Formed m v) {loc n : Nat} : (s.endPoison loc n).Formed m v := h.same

theorem addPoison (h : s.Formed m v) {loc : Nat} : (s.addPoison loc).Formed m v := by
  unfold State.addPoison
  dsimp only
  split
  · split <;> exact h.same
  · exact h.same

theorem wakeFlag (h : s.Formed m v) {t : Nat} : (s.wakeFlag t).Formed m v := h.same
theorem wakeWrite (h : s.Formed m v) {t : Nat} : (s.wakeWrite t).Formed m v := h.same

theorem writeLoc (h : s.Formed m v) {loc : Nat} {b : List Byte} {priv : Bool} {asid : BitVec 12} {tid : Nat}
    {st : Option Stamp} {req grp : Nat} : (s.writeLoc loc b priv asid tid st req grp).Formed m v := by
  unfold State.writeLoc
  dsimp only
  split
  · split
    · exact h.written loc b
    · split
      · exact h.coverWindow.foldl (fun h => h.putImgByte) _
      · split
        · exact h.coverWindow.wakeWrite
        · exact h.coverWindow.same
        · exact h.coverWindow.same
  · exact h.written loc b

theorem putBytes (h : s.Formed m v) {loc : Nat} {b : List Byte} {priv : Bool} {asid : BitVec 12} {tid : Nat} {st : Option Stamp} :
    (s.putBytes loc b priv asid tid st).Formed m v := writeLoc (h.same)

theorem dropPast (h : s.Formed m v) {c loc n : Nat} : (s.dropPast c loc n).Formed m v := h.ite h.modCore

theorem engineElem (h : s.Formed m v) {c path loc n : Nat} : (s.engineElem c path loc n).2.Formed m v := by
  unfold State.engineElem
  split
  · exact h
  · dsimp only
    exact h.freeWord.modCore

theorem engineRead (h : s.Formed m v) {c path loc n : Nat} : (s.engineRead c path loc n).2.Formed m v := by
  unfold State.engineRead
  split
  · exact h
  · refine foldl_of Prod.snd (x := ([], s)) h (fun h => ?_) _
    exact h.engineElem

theorem settlePast (h : s.Formed m v) {t : Nat} {classes paths : BitVec 3} : (s.settlePast t classes paths).Formed m v := h.modCore

/-- What translation and an access leave. -/
theorem locate (h : s.Formed m v) {cl : Nat} {asid : BitVec 12} {priv : Bool} {gva z : Nat} {k : AKind} {n : Need} :
    (s.locate cl asid priv gva z k n).2.Formed m v := h.sameButTlb (locate_frame ..)
theorem of_locate (h : s.Formed m v) {x : State} {cl : Nat} {asid : BitVec 12} {priv : Bool} {gva z : Nat} {k : AKind} {n : Need}
    {r : Xl} (e : s.locate cl asid priv gva z k n = (r, x)) : x.Formed m v := by
  have := h.locate (cl := cl) (asid := asid) (priv := priv) (gva := gva) (z := z) (k := k) (n := n)
  rwa [e] at this
theorem of_access (h : s.Formed m v) {x : State} {t : Nat} {a : Word} {z al : Nat} {k : AKind} {n : Need}
    {r : Xl} (e : s.access t a z al k n = (r, x)) : x.Formed m v := by
  have := h.sameButTlb (s.access_frame t a z al k n)
  rwa [e] at this

end State.Formed
end Sys2Proof.Machine
end

section
/-!
Memory stays canonical and every VL at most VLMAX: requests, homes, page faults and fetches.
-/

set_option Elab.async false

namespace Sys2Proof.Machine.State.Formed

variable {m v : Prop} {s t : State}

/-! ### Numbers and gates -/

theorem modReq (h : s.Formed m v) {id : Nat} {f : Req → Req} : (s.modReq id f).Formed m v := h.same
theorem dropReq (h : s.Formed m v) {id : Nat} : (s.dropReq id).Formed m v := h.same
theorem takeNumber (h : s.Formed m v) {d : Nat} : (s.takeNumber d).2.2.Formed m v := h.same

theorem number (h : s.Formed m v) {r : Req} : (s.number r).2.Formed m v := by
  unfold State.number
  split
  · exact h.takeNumber
  · exact h

theorem mergeStamp (h : s.Formed m v) {d : Nat} {x : Option Stamp} : (s.mergeStamp d x).Formed m v := by
  cases x
  · exact h
  · exact h.same

theorem openGates (h : s.Formed m v) {d : Nat} : (s.openGates d).Formed m v := h.foldl (fun h => h.owe.ite h) _

theorem advancePrefix (h : s.Formed m v) {d : Nat} : (s.advancePrefix d).Formed m v := by
  unfold State.advancePrefix
  refine h.ite (openGates (foldl h.modDie (fun h => ?_) _))
  exact h.ite h.owe

theorem numberDone (h : s.Formed m v) {d : Nat} {n : Option Nat} : (s.numberDone d n).Formed m v := by
  cases n
  · exact h
  · exact h.modDie.advancePrefix

/-! ### Sending -/

theorem flitOut (h : s.Formed m v) {src dst group : Nat} {msg : Option Due} {stamp : Option (Nat × Stamp)} :
    (s.flitOut src dst group msg stamp).Formed m v := h.same

theorem carry (h : s.Formed m v) {src dst group cycles : Nat} {i : Instr} {a : Arg} {stamp : Option (Nat × Stamp)} :
    (s.carry src dst group cycles i a stamp).Formed m v := h.owe.ite h.flitOut

theorem launch (h : s.Formed m v) {r : Req} : (s.launch r).Formed m v := carry h.same

theorem send (h : s.Formed m v) {r : Req} : (s.send r).Formed m v := h.launch.ite h.same

theorem grantCredits (h : s.Formed m v) : s.grantCredits.Formed m v := h.foldl (fun h => h.send.ite h) _

theorem inject (h : s.Formed m v) {r : Req} : (s.inject r).Formed m v := send (number h.same)

theorem post (h : s.Formed m v) {r : Req} : (s.post r).Formed m v := h.same

theorem acceptStore (h : s.Formed m v) {r : Req} : (s.acceptStore r).Formed m v := h.number.same.ite h.number.send

theorem releaseHeld (h : s.Formed m v) {r : Req} : (s.releaseHeld r).Formed m v := h.foldl (fun h => h.ite h.send) _

theorem touchPoison (h : s.Formed m v) {loc : Nat} {a : BitVec 12} : (s.touchPoison loc a).Formed m v := by
  unfold State.touchPoison
  split
  · exact h.ite h.same
  · exact h

theorem touchLines (h : s.Formed m v) {loc n : Nat} {a : BitVec 12} : (s.touchLines loc n a).Formed m v :=
  h.foldl (fun h => h.touchPoison) _

/-! ### At the home -/

theorem sendBack (h : s.Formed m v) {r : Req} {wait : Nat} {i : Instr} : (s.sendBack r wait i).Formed m v := h.carry

theorem answer (h : s.Formed m v) {r : Req} {a : Answer} {got : Option Stamp} : (s.answer r a got).Formed m v := h.modReq.sendBack

theorem stampLine (h : s.Formed m v) {r : Req} : (s.stampLine r).Formed m v := by
  unfold State.stampLine
  split <;> exact h.same

theorem oweReplicas (h : s.Formed m v) {loc n : Nat} : (s.oweReplicas loc n).Formed m v := by
  refine h.foldl (fun h => ite ?_ h) _
  split
  · exact h.carry
  · exact h

theorem applyWrite (h : s.Formed m v) {r : Req} {b : List Byte} : (s.applyWrite r b).Formed m v := by
  unfold State.applyWrite
  refine oweReplicas (stampLine (writeLoc ?_))
  split
  · exact h.ite (ite h.same h.dropPast)
  · exact h.dropPast.ite h
  · exact h

theorem joinTimer (h : s.Formed m v) {t due : Nat} : (s.joinTimer t due).Formed m v := h.ite h.owe

theorem joinRead (h : s.Formed m v) {t loc : Nat} : (s.joinRead t loc).Formed m v := h.touchLines.ite (carry h.touchLines.same)

theorem oweJoins (h : s.Formed m v) {loc : Nat} : (s.oweJoins loc).Formed m v := h.foldl (fun h => h.joinRead.ite h) _

theorem joinWatch (h : s.Formed m v) {r : Req} : (s.joinWatch r).Formed m v := by
  unfold State.joinWatch
  split
  · exact h.joinTimer
  · exact h

theorem readHome (h : s.Formed m v) {r : Req} {z : Nat} : (s.readHome r z).2.Formed m v := by
  unfold State.readHome
  split
  · split
    · exact h.engineRead
    · exact h
  · exact h

theorem dropReplica (h : s.Formed m v) {d loc n : Nat} : (s.dropReplica d loc n).Formed m v := h.same

theorem serve (h : s.Formed m v) {r : Req} {atReplica : Bool} : (s.serve r atReplica).Formed m v := by
  unfold State.serve
  have h := h.touchLines (loc := r.loc) (n := r.len) (a := r.asid)
  dsimp only
  split
  · split
    · exact h.answer.joinWatch
    · exact h.answer.ite h.readHome.dropReplica.answer.joinWatch
  · split
    · exact h.answer
    · exact h.applyWrite.answer
  · exact h.answer.ite (answer (ite h.applyWrite.oweJoins h.applyWrite))
  · split
    · exact h.cbPost.answer
    · exact h
  · exact h.wakeFlag.answer
  · exact h

/-! ### Full/empty operations -/

theorem tryFe (h : s.Formed m v) {x : State} {c : Nat} {r : Req} (e : s.tryFe c r = some x) : x.Formed m v := by
  unfold State.tryFe at e
  split at e
  · dsimp only at e
    split at e
    · cases e
    · cases e
      refine ite (answer ?_) (modCore (answer ?_)) <;> split
      · exact applyWrite h.same
      · exact stampLine h.same
      · exact applyWrite h.same
      · exact stampLine h.same
  · cases e

theorem refuse (h : s.Formed m v) {r : Req} : (s.refuse r).Formed m v := h.answer.ite h.modReq.sendBack

theorem feArrive (h : s.Formed m v) {c : Nat} {r : Req} : (s.feArrive c r).Formed m v := by
  unfold State.feArrive
  refine h.touchLines.answer.ite ?_
  split
  next e => exact h.touchLines.tryFe e
  next => exact h.touchLines.refuse.ite h.touchLines.modReq.numberDone.owe

theorem feFail (h : s.Formed m v) {r : Req} : (s.feFail r).Formed m v := by
  unfold State.feFail
  split
  · exact h.answer.ite h.modReq
  · exact h

theorem examine (h : s.Formed m v) {c : Nat} {l : List Req} : (s.examine c l).Formed m v := by
  induction l generalizing s with
  | nil => exact h
  | cons r rest ih =>
    unfold State.examine
    split
    next e => exact h.tryFe e
    next => exact ih h.feFail

theorem serviceSlot (h : s.Formed m v) {c : Nat} {w : Svc} : (s.serviceSlot c w).Formed m v := by
  unfold State.serviceSlot
  have h := h.modCore (c := c) (f := fun x => { x with svc := x.svc.tail })
  dsimp only
  split
  · split
    · split
      · exact h.feArrive
      · exact h.serve
    · exact h
  · exact h.examine
  · split
    · exact h.examine.ite h
    · exact h

theorem applyHome (h : s.Formed m v) {r : Req} {p : Place} {atReplica : Bool} : (s.applyHome r p atReplica).Formed m v := by
  cases p with
  | core => exact h.refuse.ite (h.serve.ite h.modReq.modCore)
  | slice | hbm | far => exact h.serve

/-! ### Page faults -/

theorem touchRing (h : s.Formed m v) {ring : Nat} {asid : BitVec 12} : (s.touchRing ring asid).Formed m v := h.touchLines

theorem ringPut (h : s.Formed m v) {cl : Nat} {asid : BitVec 12} {ring slots wake : Nat} {msg : List Byte} :
    (s.ringPut cl asid ring slots wake msg).Formed m v := by
  unfold State.ringPut
  exact h.touchRing.touchLines.putBytes.putBytes.inject

theorem writeFault (h : s.Formed m v) {f : PFault} : (s.writeFault f).Formed m v := by
  unfold State.writeFault
  exact h.ringPut.withPfaults.owe.ite h.withPfaults.touchRing.owe

theorem pageFault (h : s.Formed m v) {x : State} {t src gva : Nat} {need : Need} {tv : Word} {copy : Nat}
    (e : s.pageFault t src gva need tv copy = some x) : x.Formed m v := by
  unfold State.pageFault at e
  split at e
  · cases e
  · split at e
    · rw [← Option.some.inj e]
      exact h.writeFault
    · cases e

theorem fetchPark (h : s.Formed m v) {t : Nat} : (s.fetchPark t).Formed m v := h.modThread

theorem pageAbsent (h : s.Formed m v) {t src gva : Nat} {need : Need} {tv : Word} {a : Act} :
    (s.pageAbsent t src gva need tv a).Formed m v := by
  unfold State.pageAbsent
  split
  next e => exact parkOn (ite (h.pageFault e).fetchPark (h.pageFault e))
  next => exact h.trap

/-! ### Fetch -/

theorem fetchAt (h : s.Formed m v) {t : Nat} {off : Word} : (s.fetchAt t off).2.Formed m v := by
  unfold State.fetchAt
  dsimp only
  split
  · exact h
  · split
    next e => exact h.of_locate e
    next e => exact h.of_locate e
    next e =>
      split
      · exact (h.of_locate e).touchLines
      · exact h.of_locate e

theorem parcelAt (h : s.Formed m v) {t : Nat} {off : Word} : (s.parcelAt t off).2.Formed m v := by
  unfold State.parcelAt
  split
  · exact h
  · exact h.fetchAt

theorem of_parcelAt (h : s.Formed m v) {x : State} {t : Nat} {off : Word} {r : Fetched} (e : s.parcelAt t off = (r, x)) :
    x.Formed m v := by
  have := h.parcelAt (t := t) (off := off)
  rwa [e] at this

theorem fetchInstr (h : s.Formed m v) {t : Nat} : (s.fetchInstr t).2.Formed m v := by
  unfold State.fetchInstr
  dsimp only
  split
  · exact h
  · split <;> rename_i e
    · exact h.of_parcelAt e
    · exact h.of_parcelAt e
    · split
      · split <;> rename_i e'
        · exact (h.of_parcelAt e).of_parcelAt e'
        · exact (h.of_parcelAt e).of_parcelAt e'
        · exact (h.of_parcelAt e).of_parcelAt e'
      · exact h.of_parcelAt e

theorem fetchFail (h : s.Formed m v) {t : Nat} {r : FetchRes} : (s.fetchFail t r).Formed m v := by
  cases r with
  | bytes => exact h
  | bad => exact h.fetchTrap
  | absent =>
    unfold State.fetchFail
    dsimp only
    split
    next e => exact (h.pageFault e).fetchPark.parkOn
    next => exact h.fetchTrap

theorem useFetched (h : s.Formed m v) {t : Nat} : (s.useFetched t).Formed m v := h.modThread
theorem startIssue (h : s.Formed m v) {t : Nat} : (s.startIssue t).Formed m v := modCore (modThread h.same)

end Sys2Proof.Machine.State.Formed
end

section
/-!
Memory stays canonical and every VL at most VLMAX: accesses, buffers, control, neighbour ports and the matrix unit.
-/

set_option Elab.async false

namespace Sys2Proof.Machine.State.Formed

variable {m v : Prop} {s t : State}

/-! ### Accesses -/

/-- An access that is placed goes on; refused, it traps or parks. -/
theorem reach (h : s.Formed m v) {t : Nat} {a : Word} {z al : Nat} {kind : AKind} {n : Need} {act : Act} {go : Nat → State → State}
    (hgo : ∀ {loc : Nat} {x : State}, x.Formed m v → (go loc x).Formed m v) : (s.reach t a z al kind n act go).Formed m v := by
  unfold State.reach
  split <;> rename_i e
  · exact (h.of_access e).trap
  · exact (h.of_access e).pageAbsent
  · exact hgo (h.of_access e)

theorem ask (h : s.Formed m v) {t : Nat} {act : Act} {k : RClass} {got : List (Nat × List Byte)} {once : Nat → Bool}
    {l : List Want} : (s.ask t act k got once l).Formed m v := by
  unfold State.ask
  refine waitFor (foldl_of Prod.fst (x := (s, [])) h (fun h => ?_) _)
  exact h.inject

theorem postAll (h : s.Formed m v) {t : Nat} {act : Act} {k : RClass} {why : Why} {l : List Want} :
    (s.postAll t act k why l).Formed m v := by
  unfold State.postAll
  refine waitFor (foldl_of Prod.fst (x := (s, [])) h (fun h => ?_) _)
  exact h.post

theorem bankUse (h : s.Formed m v) {t loc : Nat} : (s.bankUse t loc).Formed m v := by
  unfold State.bankUse
  dsimp only
  split
  · exact h.modCore.ite h
  · exact h
theorem bankUses (h : s.Formed m v) {t : Nat} {locs : List Nat} : (s.bankUses t locs).Formed m v := h.foldl (fun h => h.bankUse) _
theorem readOwn (h : s.Formed m v) {t loc n : Nat} : (s.readOwn t loc n).Formed m v := h.bankUse.mergeStamp
theorem readOwns (h : s.Formed m v) {t n : Nat} {locs : List Nat} : (s.readOwns t n locs).Formed m v :=
  h.bankUses.foldl (fun h => h.mergeStamp) _
theorem keepPast (h : s.Formed m v) {c loc n t : Nat} {k : RClass} : (s.keepPast c loc n t k).Formed m v := h.same
theorem writeOwn (h : s.Formed m v) {t loc : Nat} {b : List Byte} {k : RClass} : (s.writeOwn t loc b k).Formed m v :=
  h.touchLines.keepPast.writeLoc

/-! ### Blocks -/

theorem endState_ite {α : Type} {f : α → State} {c : Prop} [Decidable c] {a b : Except State α}
    (ha : (endState f a).Formed m v) (hb : (endState f b).Formed m v) : (endState f (if c then a else b)).Formed m v := by
  split
  · exact ha
  · exact hb

theorem gather (h : s.Formed m v) (t : Nat) (act : Act) (a : Word) (need : Need) (offs : List Nat) (got : List (Nat × List Byte))
    (wants : List Want) : (endState (·.2.2) (s.gather t act a need offs got wants)).Formed m v := by
  delta State.gather
  refine brecOn_induct (motive := fun _ => State → List (Nat × List Byte) → List Want →
    Except State (List (Nat × List Byte) × List Want × State))
    (fun l g => ∀ s got wants, s.Formed m v → (endState (·.2.2) (g s got wants)).Formed m v) ?_ ?_ offs s got wants h
  · intro _ _ _ _ h
    exact h
  · intro o rest b n ih s got wants h
    delta State.gather._f
    refine endState_ite (ih _ _ _ h) ?_
    extract_lets w th
    generalize hx : s.locate (clusterOf (coreOf t)) _ _ _ _ _ _ = r
    obtain ⟨loc | c | gva, x⟩ := r <;> have hl := h.of_locate hx
    · refine endState_ite (endState_ite ?_ ?_) (endState_ite ?_ ?_)
      · exact hl.touchLines.trap
      · exact ih _ _ _ hl.readOwn
      · exact hl.waitFor
      · exact ih _ _ _ hl
    · exact hl.trap
    · exact hl.pageAbsent

theorem readBlock (h : s.Formed m v) (t : Nat) (act : Act) (a : Word) (n al : Nat) (k : RClass) (got : List (Nat × List Byte)) :
    (endState (·.2) (s.readBlock t act a n al k got)).Formed m v := by
  rw [State.readBlock]
  extract_lets offs
  generalize segCause _ (selOf a) (offOf a) n needR = c
  cases c with
  | some c => exact h.trap
  | none =>
    refine endState_ite h.trap ?_
    have hg := h.gather t act a needR offs got []
    revert hg
    generalize s.gather t act a needR offs got [] = r
    intro hg
    obtain x | ⟨got, _ | ⟨w, ws⟩, x⟩ := r
    · exact hg
    · exact hg
    · change (x.ask t act k got (fun _ => false) (w :: ws)).Formed m v
      exact ask hg

theorem of_readBlock_error (h : s.Formed m v) {x : State} {t : Nat} {act : Act} {a : Word} {n al : Nat} {k : RClass}
    {got : List (Nat × List Byte)} (e : s.readBlock t act a n al k got = .error x) : x.Formed m v := by
  have := h.readBlock t act a n al k got
  rwa [e] at this

theorem of_readBlock_ok (h : s.Formed m v) {x : State} {t : Nat} {act : Act} {a : Word} {n al : Nat} {k : RClass}
    {got : List (Nat × List Byte)} {b : List Byte} (e : s.readBlock t act a n al k got = .ok (b, x)) : x.Formed m v := by
  have := h.readBlock t act a n al k got
  rwa [e] at this

/-! ### Loads, stores, atomics -/

theorem loadEnd (h : s.Formed m v) {t : Nat} {d : Reg} {x : Word} {dist : Nat} : (s.loadEnd t d x dist).Formed m v :=
  finish (h.modThread fun th => th.wr_vset d x)

theorem load (h : s.Formed m v) {t : Nat} {d : Reg} {z : Nat} {sg : Bool} {a : Word} {k : RClass} {got : List (Nat × List Byte)} :
    (s.load t d z sg a k got).Formed m v := by
  unfold State.load
  split
  · exact h.loadEnd
  · exact h.reach fun h => (h.touchLines.trap.ite h.readOwn.loadEnd).ite (h.parkOn.ite h.ask)

theorem store (h : s.Formed m v) {t z : Nat} {a x : Word} {k : RClass} : (s.store t z a x k).Formed m v := by
  refine h.reach fun h => ?_
  dsimp only
  split
  · exact h.trap
  · exact h.bankUse.writeOwn.finish.ite (h.parkOn.ite h.postAll)

theorem segld (h : s.Formed m v) {t : Nat} {n : Fin 8} {a : Word} {got : List (Nat × List Byte)} : (s.segld t n a got).Formed m v := by
  rw [State.segld]
  generalize e : s.readBlock t (.segld n a) a 16 16 .o got = r
  obtain x | ⟨b, x⟩ := r
  · exact h.of_readBlock_error e
  · exact (h.of_readBlock_ok e).modThread.finish.ite (h.of_readBlock_ok e).trap

theorem segst (h : s.Formed m v) {t : Nat} {a : Word} {img : BitVec 128} : (s.segst t a img).Formed m v :=
  h.reach fun h => h.bankUse.writeOwn.finish.ite (h.parkOn.ite h.postAll)

theorem amo (h : s.Formed m v) {t : Nat} {op : AmoOp} {d : Reg} {z : Nat} {a x cmp : Word} {k : RClass}
    {got : List (Nat × List Byte)} : (s.amo t op d z a x cmp k got).Formed m v := by
  cases got with
  | cons => exact h.loadEnd
  | nil => exact h.reach fun h => h.parkOn.ite h.ask

theorem fullEmpty (h : s.Formed m v) {t : Nat} {op : FeOp} {d : Reg} {a x : Word} {lim : Nat} {k : RClass}
    {got : List (Nat × List Byte)} : (s.fullEmpty t op d a x lim k got).Formed m v := by
  cases got with
  | cons => exact h.finish.ite h.loadEnd
  | nil => exact h.reach fun h => h.parkOn.ite (h.parkOn.ite h.ask)

theorem cbwait (h : s.Formed m v) {t : Nat} {ib : Word} {b : Nat} {n : Word} : (s.cbwait t ib b n).Formed m v :=
  h.trap.ite (h.parkOn.ite h.finish)
theorem cbpost (h : s.Formed m v) {t : Nat} {ib : Word} {b : Nat} {n : Word} : (s.cbpost t ib b n).Formed m v :=
  h.trap.ite (h.parkOn.ite (h.trap.ite h.cbPost.finish))

theorem youngest (h : s.Formed m v) {t : Nat} : (s.youngest t).Formed m v := h.modCore

/-! ### Neighbour ports -/

theorem npush (h : s.Formed m v) {t : Nat} {ib : Word} {rl : Bool} {d : Dir} {data : Vec} {vec : Bool} {tag : BitVec 8} :
    (s.npush t ib rl d data vec tag).Formed m v := by
  unfold State.npush
  dsimp only
  split
  · exact h.trap
  · exact h.parkOn.ite (h.parkOn.ite (finish (carry (withTransit (modThread (h.settlePast.ite h))))))

theorem npop (h : s.Formed m v) {t : Nat} {ib : Word} {d : Dir} {r c : Reg} {vec peek aq : Bool} :
    (s.npop t ib d r c vec peek aq).Formed m v := by
  unfold State.npop
  split
  · exact h.trap
  · split
    · exact h.parkOn
    · extract_lets tag s1 clash x s2 s2' s3 s4
      have h1 : s1.Formed m v := h.setVreg.ite (h.modThread fun th => th.wr_vset ..)
      have hx : x.2.Formed m v := by
        unfold x
        split
        · exact h1.freeWord
        · exact h1
      have h2 : s2.Formed m v := ite (hx.modThread fun th => th.wr_vset ..) hx
      have h3 : s3.Formed m v := h2.ite (carry h2.modThread.withCreditsBack)
      exact finish (h3.mergeStamp.ite h3)

theorem btag (h : s.Formed m v) {t : Nat} {ib : Word} {d : Dir} {n : Nat} {a : Word} {got : List (Nat × List Byte)} :
    (s.btag t ib d n a got).Formed m v := by
  cases got with
  | cons => exact h.jump
  | nil =>
    refine h.trap.ite ?_
    split
    · exact h.parkOn
    · exact h.reach fun h => (h.touchLines.trap.ite h.readOwn.jump).ite (h.parkOn.ite h.ask)

theorem waite (h : s.Formed m v) {t : Nat} {sel : Word} : (s.waite t sel).Formed m v :=
  ite (finish (ite h.modThread.mergeStamp h)) h.parkOn

/-! ### The matrix unit -/

theorem copyGone (h : s.Formed m v) {k : Nat} {id : Option Nat} : (s.copyGone k id).Formed m v := by
  cases id
  · exact h
  · exact h.same

theorem enqueue (h : s.Formed m v) {c : MCmd} : (s.enqueue c).Formed m v := h.copyGone.ite h.modCore.owe
theorem matrix (h : s.Formed m v) {t : Nat} {c : MCmd} {dist : Nat} : (s.matrix t c dist).Formed m v := h.enqueue.finish.ite h.parkOn
theorem reportMatrix (h : s.Formed m v) {t : Nat} {e : Err} : (s.reportMatrix t e).Formed m v := h.modThread.trap

theorem readRow (h : s.Formed m v) {k loc n : Nat} : (s.readRow k loc n).2.Formed m v := by
  rw [State.readRow]
  exact h.mergeStamp.engineRead

/-- The rows in order. (No lambda stands in the proof: compared with one under the projection, the kernel would evaluate `readRow`.) -/
theorem foldl_readRow (h : s.Formed m v) {k n : Nat} {b : List (List Byte)} (offs : List Nat) :
    (offs.foldl (fun (r : List (List Byte) × State) o =>
      let x := r.2.readRow k (coreBase k + o) n
      (r.1 ++ [x.1], x.2)) (b, s)).2.Formed m v := by
  induction offs generalizing s b with
  | nil => exact h
  | cons o rest ih => exact ih h.readRow

theorem readRows (h : s.Formed m v) {k : Nat} {io : Bool} {o : MOperand} : (s.readRows k io o).2.Formed m v := by
  cases o with
  | none | regs => exact h
  | rows offs => exact h.foldl_readRow offs

theorem setAcc (h : s.Formed m v) {t n : Nat} {l : List (BitVec 32)} : (s.setAcc t n l).Formed m v := h.endPoison.modThread
theorem unitFree (h : s.Formed m v) {k : Nat} {c : MCmd} : (s.unitFree k c).Formed m v := h.modCore.copyGone.owe
theorem matrixFail (h : s.Formed m v) {k : Nat} {c : MCmd} {e : Cause} : (s.matrixFail k c e).Formed m v :=
  unitFree (foldl h.modThread.modCore (fun h => h.copyGone) _)
theorem oweTile (h : s.Formed m v) {k : Nat} {isB : Bool} {n : Nat} : (s.oweTile k isB n).Formed m v := h.ite h.owe

theorem matrixStart (h : s.Formed m v) {k : Nat} : (s.matrixStart k).Formed m v := by
  unfold State.matrixStart
  extract_lets x
  split
  next c rest _ _ =>
    extract_lets s0
    have h : s0.Formed m v := h.modCore
    refine h.unitFree.ite ?_
    split
    · exact h.touchPoison.matrixFail
    · rename_i io kk e rot ra rb rm s1 run s2 s3 _ _
      have ha : ra.2.Formed m v := by
        unfold ra
        split
        · exact h
        · exact h.readRows
      have hm : s1.Formed m v := by
        unfold s1 rm
        split
        · exact ha.readRows.readRow
        · exact ha.readRows
      exact hm.modCore.owe.oweTile.oweTile.ite hm.modCore.owe
  next => exact h

theorem writeRows (h : s.Formed m v) {k t grp : Nat} {l : List (Nat × List Byte)} : (s.writeRows k t grp l).Formed m v :=
  h.foldl (fun h => h.dropPast.writeLoc) _

theorem writeTile (h : s.Formed m v) {k t grp : Nat} {o : MOperand} {tile : List (List Byte)} :
    (s.writeTile k t grp o tile).Formed m v := by
  cases o with
  | none => exact h
  | rows => exact h.writeRows
  | regs base f bits =>
    refine h.foldl (fun h => ?_) _
    exact foldl (same h) (fun h => h.putImgV) _

theorem mmarTry (h : s.Formed m v) {k : Nat} : (s.mmarTry k).Formed m v := by
  unfold State.mmarTry
  dsimp only
  split
  · split
    · exact ite (unitFree (setAcc (writeTile (writeTile h.same)))) h
    · exact h
  · exact h

theorem matrixEnd (h : s.Formed m v) {k : Nat} : (s.matrixEnd k).Formed m v := by
  unfold State.matrixEnd
  split
  · exact h
  · refine h.owe.ite ?_
    split
    · exact h.ite (mmarTry (owe (owe (owe h.modCore))))
    · split
      · exact unitFree (writeRows h.same)
      · exact h.unitFree
    · split
      · exact h.setAcc.unitFree
      · exact h.matrixFail

theorem tileArrive (h : s.Formed m v) {k : Nat} {isB : Bool} : (s.tileArrive k isB).Formed m v := by
  unfold State.tileArrive
  dsimp only
  split
  · exact h
  · exact ite (mmarTry (mmarTry (modCore h.modCore))) (ite (mmarTry (modCore h.modCore)) h)

theorem rotationTimeout (h : s.Formed m v) {k : Nat} : (s.rotationTimeout k).Formed m v := by
  unfold State.rotationTimeout
  split
  · exact h
  · split
    · exact h
    · exact h.ite (h.owe.ite h.matrixFail)

end Sys2Proof.Machine.State.Formed
end

section
/-!
Memory stays canonical and every VL at most VLMAX: copies, fences and field ports.
-/

set_option Elab.async false

namespace Sys2Proof.Machine.State.Formed

variable {m v : Prop} {s t : State}

/-! ### Copies -/

theorem copyIn (h : s.Formed m v) {c : Copy} : (s.copyIn c).Formed m v := finish (owe (modCore h.same))

theorem cpy (h : s.Formed m v) {t : Nat} {y : Bool} {k : RClass} {tag : Nat} {dst src a : Word} {sn : Option Snap}
    {got : List (Nat × List Byte)} : (s.cpy t y k tag dst src a sn got).Formed m v := by
  rw [State.cpy]
  generalize sn.getD (s.snap t) = snap
  generalize e : s.readBlock t (.cpy y k tag dst src a (some snap)) a 64 8 k got = r
  obtain x | ⟨b, x⟩ := r
  · exact h.of_readBlock_error e
  have h := h.of_readBlock_ok e
  have enter {c : Copy} : (if x.tagBusy t tag || decide (16 ≤ (x.core (coreOf t)).copies.length)
      then x.waitFor t (.cpy y k tag dst src a (some snap)) .cond [] (descWords b) else x.copyIn c).Formed m v := h.waitFor.ite h.copyIn
  dsimp only
  refine h.trap.ite (h.trap.ite ?_)
  split
  · exact h.trap
  refine enter.ite ?_
  split
  · exact h.trap
  · exact h.trap
  · exact h.trap
  · split
    · exact h.trap
    · split
      · exact h.trap
      · exact enter

theorem modCopy (h : s.Formed m v) {k id : Nat} {f : Copy → Copy} : (s.modCopy k id f).Formed m v := h.modCore
theorem copyFail (h : s.Formed m v) {k : Nat} {c : Copy} {e : Err} : (s.copyFail k c e).Formed m v := h.modThread.copyGone
theorem copySend (h : s.Formed m v) {c : Copy} {u i : Nat} {op : ROp} {a : Word} {gva loc : Nat} :
    (s.copySend c u i op a gva loc).Formed m v := h.inject

theorem of_copyPlace (h : s.Formed m v) {x : State} {c : Copy} {gva : Nat} {a : Word} {z : Nat} {k : AKind} {n : Need}
    {r : Except CStop Nat} (e : s.copyPlace c gva a z k n = (r, x)) : x.Formed m v := by
  unfold State.copyPlace at e
  split at e <;> rename_i hl <;> cases e <;> exact h.of_locate hl

theorem of_copyRead (h : s.Formed m v) {x : State} {c c' : Copy} {u i : Nat} {y : Word × Nat × Nat} {r : Option CStop}
    (e : s.copyRead c u i y = (c', r, x)) : x.Formed m v := by
  unfold State.copyRead at e
  dsimp only at e
  split at e <;> rename_i hp <;> have h := h.of_copyPlace hp
  · cases e
    exact h
  · split at e
    · cases e
      exact h.copySend
    · split at e
      · cases e
        exact h.touchLines
      · cases e
        exact h.mergeStamp.engineRead

theorem of_copyReads (h : s.Formed m v) {x : State} {c c' : Copy} {u : Nat} {l : List ((Word × Nat × Nat) × Nat)} {r : Option CStop}
    (e : s.copyReads c u l = (c', r, x)) : x.Formed m v := by
  induction l generalizing s c with
  | nil =>
    cases e
    exact h
  | cons y rest ih =>
    rw [State.copyReads] at e
    split at e
    · exact ih h e
    · split at e
      next hr => exact ih (h.of_copyRead hr) e
      next hr _ => exact h.of_copyRead e

theorem of_copyWrite (h : s.Formed m v) {x : State} {c : Copy} {u i gva : Nat} {a : Word} {b : List Byte} {r : Option CStop}
    (e : s.copyWrite c u i gva a b = (r, x)) : x.Formed m v := by
  unfold State.copyWrite at e
  split at e <;> rename_i hp <;> have h := h.of_copyPlace hp
  · cases e
    exact h
  · split at e
    · cases e
      exact h.touchLines.dropPast.writeLoc
    · cases e
      exact h.copySend

theorem of_copyPuts (h : s.Formed m v) {x : State} {c c' : Copy} {u : Nat} {l : List ((Nat × Word × List Byte) × Nat)}
    {r : Option CStop} (e : s.copyPuts c u l = (c', r, x)) : x.Formed m v := by
  induction l generalizing s c with
  | nil =>
    cases e
    exact h
  | cons y rest ih =>
    rw [State.copyPuts] at e
    split at e
    · exact ih h e
    · split at e
      next hw => exact ih (h.of_copyWrite hw) e
      next hw =>
        cases e
        exact h.of_copyWrite hw

theorem of_copyUnit (h : s.Formed m v) {x : State} {c c' : Copy} {u : Nat} {readOnly : Bool} {r : Option CStop}
    (e : s.copyUnit c u readOnly = (c', r, x)) : x.Formed m v := by
  unfold State.copyUnit at e
  have hr {c' : Copy} {r : Option CStop} {x : State}
      (e : (if c.reads.any fun p => p.1 == u then (c, none, s) else s.copyReads c u (c.unitSrc u).zipIdx) = (c', r, x)) :
      x.Formed m v := by
    split at e
    · cases e
      exact h
    · exact h.of_copyReads e
  dsimp only at e
  split at e <;> rename_i hx <;> have h := hr hx
  · cases e
    exact h
  · split at e
    · cases e
      exact h
    · split at e
      · cases e
        exact h
      · split at e
        next hp =>
          split at e <;> cases e <;> exact h.of_copyPuts hp
        next => exact h.of_copyPuts e

theorem of_copyUnits (h : s.Formed m v) {x : State} {c c' : Copy} {readOnly : Bool} {l : List Nat} {r : Option CStop}
    (e : s.copyUnits c readOnly l = (c', r, x)) : x.Formed m v := by
  induction l generalizing s c with
  | nil =>
    cases e
    exact h
  | cons u rest ih =>
    rw [State.copyUnits] at e
    split at e
    next hu => exact ih (h.of_copyUnit hu) e
    next => exact h.of_copyUnit e

theorem copyStop (h : s.Formed m v) {k : Nat} {c : Copy} {e : CStop} : (s.copyStop k c e).Formed m v := by
  cases e with
  | fail => exact h.modCopy.copyFail
  | page =>
    unfold State.copyStop
    dsimp only
    split
    next e => exact (h.modCopy.pageFault e).modCopy
    next => exact h.modCopy.copyFail

theorem copyLanded (h : s.Formed m v) {k : Nat} {c : Copy} : (s.copyLanded k c).Formed m v := by
  unfold State.copyLanded
  split
  · exact h.modCopy.copyGone
  · exact h.modCopy.owe

theorem copyStart (h : s.Formed m v) {k id : Nat} : (s.copyStart k id).Formed m v := by
  unfold State.copyStart
  split
  · exact h
  · refine h.ite (h.owe.ite ?_)
    dsimp only
    split
    · exact h.modCopy.copyFail
    · split
      · exact h.modCopy.owe
      · exact h.modCopy.copyFail.ite h.modCopy.owe

theorem copyWork (h : s.Formed m v) {k : Nat} {c : Copy} {readOnly : Bool} {nums : List Nat} :
    (s.copyWork k c readOnly nums).Formed m v := by
  unfold State.copyWork
  dsimp only
  split <;> rename_i e <;> have h := h.of_copyUnits e
  · exact h.copyStop
  · exact h.copyLanded.ite h.modCopy

theorem copyComplete (h : s.Formed m v) {k id : Nat} {arg : Arg} : (s.copyComplete k id arg).Formed m v := by
  unfold State.copyComplete
  split
  · exact h
  · exact h.ite h.copyWork

theorem cbCopy (h : s.Formed m v) {k id : Nat} : (s.cbCopy k id).Formed m v := by
  unfold State.cbCopy
  split
  · exact h
  · split
    · exact h
    · dsimp only
      refine h.ite ?_
      split
      · exact h.ite h.owe
      · split <;> rename_i e <;> have h := h.of_copyUnits e
        · exact h.copyStop
        · refine h.modCopy.ite ?_
          split <;> rename_i e <;> have h := h.of_copyPuts e
          · exact h.copyStop
          · exact h.modCopy.ite h.modCopy.copySend

theorem copyAnswer (h : s.Formed m v) {t id u i : Nat} {r : Req} {a : Answer} : (s.copyAnswer t id u i r a).Formed m v := by
  unfold State.copyAnswer
  dsimp only
  split
  · exact h
  · split
    · exact h.copyFail
    · exact h.modCopy.copyLanded.ite (h.modCopy.ite (h.modCopy.owe.ite h.modCopy.copyWork))

theorem followOn (h : s.Formed m v) {k id : Nat} : (s.followOn k id).Formed m v := by
  unfold State.followOn
  split
  · exact h
  · refine h.ite ?_
    split
    · refine h.ite ?_
      split
      · exact h.ite h.copyGone
      · exact h.copyGone
    · exact h.modCopy.enqueue.ite h.owe

theorem reportCopy (h : s.Formed m v) {t tag : Nat} {e : Err} : (s.reportCopy t tag e).Formed m v := h.modThread.trap

theorem cwait (h : s.Formed m v) {t tag : Nat} : (s.cwait t tag).Formed m v := by
  unfold State.cwait
  refine h.parkOn.ite ?_
  split
  · exact h.reportCopy
  · exact h.finish

/-! ### Fences -/

theorem refetch (h : s.Formed m v) {t : Nat} : (s.refetch t).Formed m v := h.modThread
theorem fence (h : s.Formed m v) {t : Nat} {paths : BitVec 6} {classes : BitVec 3} : (s.fence t paths classes).Formed m v := by
  have hs : (if paths.getLsbD 0 then s.settlePast t classes 7 else s).Formed m v := h.settlePast.ite h
  exact h.parkOn.ite (finish (hs.refetch.ite hs))
theorem ifence (h : s.Formed m v) {t : Nat} : (s.ifence t).Formed m v := h.refetch.finish.ite h.parkOn

/-! ### Field ports -/

theorem prismPut (h : s.Formed m v) {r : PReq} {idx loc : Nat} {b : List Byte} : (s.prismPut r idx loc b).Formed m v :=
  h.foldl (fun h => h.inject) _
theorem prismLines (h : s.Formed m v) {r : PReq} {loc n : Nat} : (s.prismLines r loc n).Formed m v :=
  h.foldl (fun h => h.touchPoison.mergeStamp) _
theorem dropStatus (h : s.Formed m v) {d : Nat} : (s.dropStatus d).Formed m v := h.same

theorem showStatus (h : s.Formed m v) {p : Nat} : (s.showStatus p).Formed m v := by
  unfold State.showStatus
  split
  · exact h
  · exact h.ite h.modPort.dropStatus.post
theorem showStatuses (h : s.Formed m v) : s.showStatuses.Formed m v := h.foldl (fun h => h.showStatus) _

theorem portStat (h : s.Formed m v) {t code reason : Nat} {counted closed : Bool} {idx : Option Nat} :
    (s.portStat t code reason counted closed idx).Formed m v := by
  cases idx with
  | none =>
    unfold State.portStat
    exact h.freeWord.modThread
  | some =>
    unfold State.portStat
    exact h.modThread

theorem leavePort (h : s.Formed m v) {t : Nat} : (s.leavePort t).Formed m v := h.same
theorem portDone (h : s.Formed m v) {r : PReq} {counted closed : Bool} {idx : Option Nat} :
    (s.portDone r counted closed idx).Formed m v := h.leavePort.portStat.finish.ite h
theorem portFail (h : s.Formed m v) {r : PReq} {c : Cause} {reason : Nat} {idx : Option Nat} :
    (s.portFail r c reason idx).Formed m v := h.leavePort.portStat.trap.ite h
theorem portTrap (h : s.Formed m v) {r : PReq} {e : Err} : (s.portTrap r e).Formed m v := h.leavePort.trap.ite h
theorem portRaise (h : s.Formed m v) {t : Nat} {ib : Word} {c : Cause} : (s.portRaise t ib c).Formed m v := h.portStat.trap

theorem prismNext (h : s.Formed m v) {cl : Nat} : (s.prismNext cl).Formed m v := by
  unfold State.prismNext
  split
  · exact h.ite h.modCluster.owe
  · exact h
theorem prismAsk (h : s.Formed m v) {r : PReq} : (s.prismAsk r).Formed m v := h.modCluster.prismNext
theorem prismResume (h : s.Formed m v) {r : PReq} : (s.prismResume r).Formed m v := h.modCluster.prismNext
theorem prismDrop (h : s.Formed m v) {cl : Nat} : (s.prismDrop cl).Formed m v := h.modCluster
theorem prismSet (h : s.Formed m v) {cl : Nat} {f : PReq → PReq} : (s.prismSet cl f).Formed m v := h.modCluster
theorem prismBegin (h : s.Formed m v) {r : PReq} {n : Nat} : (s.prismBegin r n).Formed m v := h.prismSet.owe
theorem portGoOn (h : s.Formed m v) {p : Nat} : (s.portGoOn p).Formed m v := h.ite h.owe
theorem prismLeave (h : s.Formed m v) {r : PReq} : (s.prismLeave r).Formed m v := h.portGoOn.prismNext

theorem prismAnswer (h : s.Formed m v) {q : Req} {cl idx : Nat} {a : Answer} : (s.prismAnswer q cl idx a).Formed m v := by
  unfold State.prismAnswer
  refine h.prismSet.ite ?_
  split
  · exact h.prismSet.owe.ite h.prismSet.prismNext
  · exact h.prismSet

theorem pbind (h : s.Formed m v) {t : Nat} {ib : Word} {port : Nat} {a : Word} : (s.pbind t ib port a).Formed m v := by
  refine h.portRaise.ite (h.prismAsk.parkOn.ite (h.reach fun h => ?_))
  split
  · exact h.prismAsk.parkOn
  · exact h.trap

theorem psend (h : s.Formed m v) {t : Nat} {ib : Word} {port : Nat} {a : Word} {got : List (Nat × List Byte)} :
    (s.psend t ib port a got).Formed m v := by
  rw [State.psend]
  refine h.portRaise.ite ?_
  generalize e : s.readBlock t (.psend ib port a) a 32 8 .o got = r
  obtain x | ⟨b, x⟩ := r
  · exact h.of_readBlock_error e
  have h := h.of_readBlock_ok e
  dsimp only
  split
  · exact h.trap
  · exact h.waitFor.ite h.settlePast.prismAsk.waitFor

theorem precv (h : s.Formed m v) {t : Nat} {ib : Word} {port : Nat} {a : Word} {got : List (Nat × List Byte)} :
    (s.precv t ib port a got).Formed m v := by
  rw [State.precv]
  refine h.portRaise.ite ?_
  generalize e : s.readBlock t (.precv ib port a) a 32 8 .o got = r
  obtain x | ⟨b, x⟩ := r
  · exact h.of_readBlock_error e
  have h := h.of_readBlock_ok e
  dsimp only
  split
  · exact h.trap
  · exact h.prismAsk.waitFor

theorem pstat (h : s.Formed m v) {t : Nat} {ib : Word} {d : Reg} {port : Nat} : (s.pstat t ib d port).Formed m v :=
  h.portRaise.ite h.prismAsk.parkOn

/-! ### Binding -/

theorem prismTables (h : s.Formed m v) {r : PReq} {p : PDesc} {d : Nat} : (s.prismTables r p d).Formed m v :=
  h.prismLines.prismLines.prismLines
theorem prismChecked (h : s.Formed m v) {r : PReq} {p : PDesc} {d k : Nat} : (s.prismChecked r p d k).Formed m v :=
  h.prismLines.prismLines
theorem putHeld (h : s.Formed m v) {r : PReq} {d e : Nat} : (s.putHeld r d e).Formed m v := h.modPort.dropStatus.prismPut

theorem bind (h : s.Formed m v) {r : PReq} {d : Nat} : (s.bind r d).Formed m v := by
  unfold State.bind
  dsimp only
  split
  · exact h.portFail
  · exact h.prismChecked.portFail
  · exact h.prismTables.prismPut.modPort.putHeld.portDone

theorem serveBind (h : s.Formed m v) {r : PReq} {d : Nat} : (s.serveBind r d).Formed m v :=
  h.prismDrop.bind.prismLeave.ite h.prismBegin

theorem portEject (h : s.Formed m v) {p : Nat} {c : Cause} {reason t : Nat} : (s.portEject p c reason t).Formed m v := by
  unfold State.portEject
  split
  · split
    · exact h.leavePort.portStat.trap.ite h
    · exact h
  · exact h

theorem unbindPort (h : s.Formed m v) {p : Nat} : (s.unbindPort p).Formed m v := by
  unfold State.unbindPort
  split
  · exact h
  · exact (h.foldl (fun h => h.portEject) _).modCluster.modPort.dropStatus.prismPut.prismNext

theorem unbind (h : s.Formed m v) {r : PReq} : (s.unbind r).Formed m v := by
  unfold State.unbind
  split
  · exact h.portDone
  · exact h.portFail.ite h.unbindPort.portDone

theorem prismOpen (h : s.Formed m v) {r : PReq} {go : State → State} (hgo : ∀ {x : State}, x.Formed m v → (go x).Formed m v) :
    (s.prismOpen r go).Formed m v := by
  unfold State.prismOpen
  split
  · exact hgo h
  · exact ite (hgo h.prismLines) h.prismDrop.portTrap.prismLeave

theorem serveUnbind (h : s.Formed m v) {r : PReq} : (s.serveUnbind r).Formed m v :=
  h.prismOpen fun h => h.prismDrop.unbind.prismLeave

/-! ### BUF -/

/-- The state in which the walk over the elements of BUF ends. -/
def bufEnd (r : Except BufStop (List (Word × Nat × Nat)) × State) : State := r.2

theorem bufLocs (h : s.Formed m v) (r : PReq) (buf : Word) (z : Nat) (n : Need) (l : List Nat) (acc : List (Word × Nat × Nat)) :
    (bufEnd (s.bufLocs r buf z n l acc)).Formed m v := by
  delta State.bufLocs
  refine brecOn_induct (motive := fun _ => State → List (Word × Nat × Nat) → Except BufStop (List (Word × Nat × Nat)) × State)
    (fun _ g => ∀ x acc, x.Formed m v → (bufEnd (g x acc)).Formed m v) (fun _ _ _ h => h) (fun i rest b w ih x acc h => ?_) l s acc h
  -- `locate` is made opaque before its answer is split: the kernel would evaluate it.
  obtain ⟨f, hf⟩ : ∃ f, f = @State.bufLocs._f := ⟨_, rfl⟩
  rw [← hf]
  delta State.bufLocs._f at hf
  rw [hf]
  obtain ⟨locate, hl⟩ : ∃ g, g = @State.locate := ⟨_, rfl⟩
  have hk := @of_locate m v
  rw [← hl] at hk ⊢
  clear hf hl
  dsimp only
  split <;> rename_i e
  · exact hk h e
  · exact hk h e
  · exact ih _ _ (hk h e)

theorem of_bufLocs (h : s.Formed m v) {x : State} {r : PReq} {buf : Word} {z : Nat} {n : Need} {l : List Nat}
    {acc : List (Word × Nat × Nat)} {b : Except BufStop (List (Word × Nat × Nat))} (e : s.bufLocs r buf z n l acc = (b, x)) :
    x.Formed m v := by
  have := h.bufLocs r buf z n l acc
  rwa [e] at this

theorem reachBuf (h : s.Formed m v) {r : PReq} {buf : Word} {n z : Nat} {need : Need}
    {go : List (Word × Nat × Nat) → State → State}
    (hgo : ∀ {l : List (Word × Nat × Nat)} {x : State}, x.Formed m v → (go l x).Formed m v) :
    (s.reachBuf r buf n z need go).Formed m v := by
  unfold State.reachBuf
  dsimp only
  split
  · exact h.prismDrop.portTrap.prismLeave
  · split <;> rename_i e <;> have h := h.of_bufLocs e
    · exact h.prismDrop.portTrap.prismLeave
    · split
      next e => exact (h.pageFault e).prismSet
      next => exact h.prismDrop.portTrap.prismLeave
    · exact hgo h

theorem oweClose (h : s.Formed m v) {r : PReq} : (s.oweClose r).Formed m v := h.prismResume.ite h

theorem accumulate (h : s.Formed m v) {r : PReq} {d : Nat} {t0 dt : Word} : (s.accumulate r d t0 dt).Formed m v := by
  unfold State.accumulate
  exact h.prismLines.prismPut.prismPut.modPort.portDone.oweClose

theorem serveSend (h : s.Formed m v) {r : PReq} {buf t0 dt ctl : Word} : (s.serveSend r buf t0 dt ctl).Formed m v := by
  refine ite (h.ite (prismLeave ?_)) (h.prismOpen fun h => ?_)
  · split
    · exact h.prismDrop.portTrap
    · exact h.prismDrop.accumulate
    · exact h.prismDrop.portFail
  · split
    · exact h.prismDrop.portFail.prismLeave
    · exact h.prismDrop.modPort.prismLeave
    · exact h.reachBuf fun h => (h.foldl (fun h => h.inject) _).prismBegin

theorem portFree (h : s.Formed m v) {r : PReq} : (s.portFree r).Formed m v := h.modPort.oweClose

theorem serveRecv (h : s.Formed m v) {r : PReq} {buf k : Word} {res : Bool} : (s.serveRecv r buf k res).Formed m v := by
  refine ite (h.ite (prismLeave ?_)) (h.prismOpen fun h => ?_)
  · split
    · exact h.prismDrop.portTrap
    · exact h.prismDrop.portDone.portFree
  · split
    · exact h.prismDrop.portFail.prismLeave
    · exact h.prismDrop.modPort.portFree.prismLeave
    · exact h.reachBuf fun h => (h.prismLines.foldl (fun h => h.inject) _).prismBegin

theorem serveStat (h : s.Formed m v) {r : PReq} : (s.serveStat r).Formed m v := by
  refine h.prismOpen fun h => prismLeave ?_
  split
  · exact h.prismDrop.portFail
  · exact ite (portDone (h.prismDrop.modThread fun th => th.wr_vset ..)) h.prismDrop

/-! ### Closing, and the wait bound -/

theorem portBreak (h : s.Formed m v) {port : Nat} : (s.portBreak port).Formed m v := h.modPort.foldl (fun h => h.portFail) _

theorem closeNow (h : s.Formed m v) {r : PReq} {p : PDesc} {d : Nat} : (s.closeNow r p d).Formed m v := by
  exact h.prismTables.prismPut.prismPut.modPort.putHeld.owe.ite h.prismTables.prismPut.prismPut.modPort.putHeld

theorem closeInterval (h : s.Formed m v) {r : PReq} : (s.closeInterval r).Formed m v := by
  unfold State.closeInterval
  dsimp only
  split
  · exact h.prismDrop.prismLeave
  · exact h.prismDrop.prismLeave.ite (h.prismBegin.ite (h.prismDrop.prismChecked.portBreak.prismLeave.ite
      h.prismDrop.closeNow.prismLeave))

theorem withdraw (h : s.Formed m v) {t p : Nat} : (s.withdraw t p).Formed m v := h.leavePort.modCluster.modPort.portGoOn.prismNext

end Sys2Proof.Machine.State.Formed
end

section
/-!
Memory stays canonical and every VL at most VLMAX: tasks and barriers.
-/

set_option Elab.async false

namespace Sys2Proof.Machine.State.Formed

variable {m v : Prop} {s t : State}

theorem withJoins (h : s.Formed m v) {x : List JoinReply} : { s with joins := x }.Formed m v := h.same
theorem withHeld (h : s.Formed m v) {x : List Rec} : { s with held := x }.Formed m v := h.same
theorem withSteals (h : s.Formed m v) {x : List (Nat × Nat × Option (Option Rec))} : { s with steals := x }.Formed m v := h.same

/-! ### FORK and JOIN -/

theorem pushRec (h : s.Formed m v) {c : Nat} {r : Rec} : (s.pushRec c r).Formed m v := h.modCore
theorem unreserve (h : s.Formed m v) {t : Nat} {room : Bool} : (s.unreserve t room).Formed m v := h.modCore.ite h

theorem forkEnd (h : s.Formed m v) {t : Nat} {act : Act} {r : Rec} {room : Bool} {got : List (Nat × List Byte)} {dist : Nat} :
    (s.forkEnd t act r room got dist).Formed m v := by
  refine ite (h.waitFor.ite h.unreserve.pushRec.finish) (jump (h.modThread fun th => ?_))
  change ((((th.wr 1 (th.pc + 4)).wr 10 r.a0).wr 11 r.a1).wr 12 r.jc).vset = th.vset
  simp only [Thread.wr_vset]

theorem fork (h : s.Formed m v) {t : Nat} {ib : Word} {k : RClass} {a : Word} {rec : Option Rec} {room : Bool}
    {got : List (Nat × List Byte)} : (s.fork t ib k a rec room got).Formed m v := by
  unfold State.fork
  extract_lets count
  have hc {x : State} {r : Rec} {room : Bool} (h : x.Formed m v) : (count x r room).Formed m v := by
    unfold count
    refine h.forkEnd.ite ?_
    split <;> rename_i e <;> have h := h.of_access e
    · exact h.unreserve.trap
    · exact h.unreserve.pageAbsent
    · exact h.parkOn.ite h.ask
  clear_value count
  cases rec with
  | some r => exact (hc h).ite h.forkEnd
  | none =>
    dsimp only
    generalize e : s.readBlock t (.fork ib k a none false) a 32 8 .o got = r
    obtain x | ⟨b, x⟩ := r
    · exact h.of_readBlock_error e
    have h := h.of_readBlock_ok e
    dsimp only
    refine h.trap.ite ?_
    have hs : (if (!x.dequeFull (coreOf t)) = true then
        x.modCore (coreOf t) fun c => { c with reserved := c.reserved + 1 } else x).Formed m v := h.modCore.ite h
    exact hs.forkEnd.ite (hc hs)

theorem join (h : s.Formed m v) {t : Nat} {k : RClass} {a : Word} {loc : Nat} {again : Bool} {got : List (Nat × List Byte)} :
    (s.join t k a loc again got).Formed m v := by
  unfold State.join
  extract_lets wait read
  have hw {x : State} {loc : Nat} (h : x.Formed m v) : (wait x loc).Formed m v := h.parkOn.joinTimer
  clear_value wait
  have hr {x : State} (h : x.Formed m v) : (read x).Formed m v :=
    h.reach fun h => ite (h.touchLines.trap.ite (h.readOwn.finish.ite (hw h.readOwn))) (h.parkOn.ite h.ask)
  clear_value read
  cases got with
  | nil => exact hr h
  | cons => exact h.finish.ite ((hr h).ite (hw h))

theorem joinEnd (h : s.Formed m v) {t : Nat} : (s.joinEnd t).Formed m v := by
  unfold State.joinEnd
  split
  · exact h
  · dsimp only
    split
    · refine h.withJoins.ite ?_
      split
      · exact h.withJoins.trap
      · exact h.withJoins.mergeStamp.finish
    · exact h.withJoins

theorem joinAgain (h : s.Formed m v) {t issued : Nat} : (s.joinAgain t issued).Formed m v := by
  unfold State.joinAgain
  split
  · exact h.ite (h.join.ite h.joinRead.joinTimer)
  · exact h

/-! ### Steps and TEND -/

theorem modEntry (h : s.Formed m v) {e : Nat} {f : StepEntry → StepEntry} : (s.modEntry e f).Formed m v := h.same
theorem pushOrHold (h : s.Formed m v) {c e : Nat} {r : Rec} : (s.pushOrHold c e r).Formed m v := h.withHeld.owe.ite h.pushRec
theorem pushRoot (h : s.Formed m v) {e : Nat} : (s.pushRoot e).Formed m v := h.withHeld.carry
theorem stepEnd (h : s.Formed m v) {e : Nat} : (s.stepEnd e).Formed m v :=
  ite h.same (h.modEntry.pushRoot.ite h.modEntry)

theorem taskEnd (h : s.Formed m v) {t : Nat} : (s.taskEnd t).Formed m v := by
  unfold State.taskEnd
  dsimp only
  refine ite ?_ h.modThread.jump
  split
  · exact h.modThread.stepEnd
  · exact h.modThread

theorem tend (h : s.Formed m v) {t : Nat} {k : RClass} {got : List (Nat × List Byte)} : (s.tend t k got).Formed m v :=
  h.taskEnd.ite (h.parkOn.ite (h.taskEnd.ite (h.reach fun h => h.ask)))

/-! ### Takes and steals -/

theorem takeRec (h : s.Formed m v) {t : Nat} {r : Rec} : (s.takeRec t r).Formed m v := h.modThread.youngest

theorem taskTake (h : s.Formed m v) {c : Nat} : (s.taskTake c).Formed m v := by
  unfold State.taskTake
  split
  · exact h
  · refine h.ite ?_
    split
    · exact h.modCore.takeRec.owe
    · exact h.modCore.takeRec
    · exact h.ite h.modCore.takeRec
    · exact h

theorem seekWork (h : s.Formed m v) {c : Nat} : (s.seekWork c).Formed m v :=
  h.ite (ite (h.ite h.owe) (h.owe.ite h))

theorem stealRequest (h : s.Formed m v) {c : Nat} : (s.stealRequest c).Formed m v := by
  unfold State.stealRequest
  dsimp only
  refine h.ite ?_
  split
  · exact h
  · exact h.modCore.withSteals.carry

theorem stealService (h : s.Formed m v) {c : Nat} : (s.stealService c).Formed m v := by
  unfold State.stealService
  split
  · exact h
  · refine h.withSteals.carry.ite (h.owe.ite ?_)
    split
    · exact h.modCore.withSteals.carry
    · exact h.modCore.withSteals.carry

theorem stealReply (h : s.Formed m v) {c : Nat} : (s.stealReply c).Formed m v := by
  unfold State.stealReply
  split
  · exact h
  · dsimp only
    split
    · exact h.withSteals.modCore.owe
    · exact h.withSteals.modCore.owe

/-! ### Barriers -/

theorem setBar (h : s.Formed m v) {c i : Nat} {b : Bar} : (s.setBar c i b).Formed m v := h.modCore
theorem leaveBar (h : s.Formed m v) {t at' : Nat} : (s.leaveBar t at').Formed m v := h.finish.modThread

theorem countArrival (h : s.Formed m v) {t : Nat} {ib : Word} {cl : Bool} {b : Nat} : (s.countArrival t ib cl b).Formed m v :=
  ite (leaveBar (h.setBar.foldl (fun h => h.leaveBar) _)) h.setBar.parkOn

theorem arrive (h : s.Formed m v) {t : Nat} {ib : Word} {cl : Bool} {b : Nat} : (s.arrive t ib cl b).Formed m v :=
  h.trap.ite (h.parkOn.ite h.countArrival)

end Sys2Proof.Machine.State.Formed
end

section
/-!
Memory stays canonical and every VL at most VLMAX: vector memory instructions and compressed records.
-/

set_option Elab.async false

namespace Sys2Proof.Machine.State.Formed

variable {m v : Prop} {s t : State}

theorem putElems (h : s.Formed m v) {t base w n : Nat} {l : List (Nat × Nat)} : (s.putElems t base w n l).Formed m v :=
  h.foldl (fun h => h.ite h.setVreg) _

theorem scan (h : s.Formed m v) {t : Nat} {kind : AKind} {n : Need} {z : Nat} {l : List VElem} {acc : List (VElem × Nat)} :
    (s.scan t kind n z l acc).2.2.Formed m v := by
  induction l generalizing s acc with
  | nil => exact h
  | cons e rest ih =>
    rw [State.scan]
    split <;> rename_i hl <;> have h := h.of_access hl
    · exact h
    · exact h
    · split
      · exact h.touchLines
      · split
        · exact h
        · exact ih h

theorem scanBytes (h : s.Formed m v) (t : Nat) (a : Word) (l : List Nat) (acc : List (Nat × Nat)) :
    (scanned (s.scanBytes t a l acc)).Formed m v := by
  delta State.scanBytes
  refine brecOn_induct (motive := fun _ => State → List (Nat × Nat) → List (Nat × Nat) × Option VStop × State)
    (fun _ g => ∀ x acc, x.Formed m v → (scanned (g x acc)).Formed m v) (fun _ _ _ h => h) (fun i rest b w ih x acc h => ?_) l s acc h
  -- `access` is made opaque before its answer is split: the kernel would evaluate it.
  obtain ⟨f, hf⟩ : ∃ f, f = @State.scanBytes._f := ⟨_, rfl⟩
  rw [← hf]
  delta State.scanBytes._f at hf
  rw [hf]
  obtain ⟨access, ha⟩ : ∃ g, g = @State.access := ⟨_, rfl⟩
  have hk := @of_access m v
  rw [← ha] at hk ⊢
  clear hf ha
  dsimp only
  split <;> rename_i e
  · exact hk h e
  · exact hk h e
  · exact ih _ _ (hk h e)

theorem stopAt (h : s.Formed m v) {t : Nat} {act : Act} {n : Need} {st : VStop} : (s.stopAt t act n st).Formed m v := by
  cases st with
  | trap => exact h.modThread.trap
  | page => exact h.modThread.pageAbsent

/-! ### Loads and stores -/

/-- VLDFF never raises VL. -/
theorem trimVl (h : s.Formed m v) {t n : Nat} :
    (s.modThread t fun th => { th with vstart := 0, vl := BitVec.ofNat 64 (min n th.vl.toNat) }).Formed m v := by
  refine h.modThreadFit fun hf => ?_
  refine Nat.le_trans ?_ hf
  exact Nat.le_trans (BitVec.toNat_ofNat .. ▸ Nat.mod_le ..) (Nat.min_le_right ..)

theorem vloadEnd (h : s.Formed m v) {t : Nat} {ff : Bool} {d : Reg} {c : VCtx} {got : List (Nat × List Byte)} {stop : Option VStop}
    {dist : Nat} : (s.vloadEnd t ff d c got stop dist).Formed m v := by
  cases stop with
  | none => exact h.putElems.modThread.finish
  | some => exact h.putElems.trimVl.finish.ite h.putElems.stopAt

theorem vload (h : s.Formed m v) {t : Nat} {ff : Bool} {d : Reg} {c : VCtx} {elems : List VElem} {stop : Option VStop} {k : RClass}
    {got : List (Nat × List Byte)} : (s.vload t ff d c elems stop k got).Formed m v := by
  unfold State.vload
  have h := h.scan (t := t) (kind := .load) (n := needR) (z := c.eb) (l := elems) (acc := [])
  revert h
  generalize s.scan t .load needR c.eb elems [] = r
  intro h
  exact h.readOwns.vloadEnd.ite (h.readOwns.ask.ite h.readOwns.waitFor)

theorem vstoreEnd (h : s.Formed m v) {t : Nat} {stop : Option VStop} {dist : Nat} : (s.vstoreEnd t stop dist).Formed m v := by
  cases stop with
  | none => exact h.modThread.finish
  | some => exact h.stopAt

theorem writeOwns {α : Type} (h : s.Formed m v) {t : Nat} {f : α → Nat} {b : α → List Byte} {k : RClass} {locs : List Nat}
    {l : List α} : (l.foldl (fun s e => s.writeOwn t (f e) (b e) k) (s.bankUses t locs)).Formed m v :=
  h.bankUses.foldl (fun h => h.writeOwn) _

theorem vstore (h : s.Formed m v) {t : Nat} {whole : Bool} {elems : List VElem} {stop : Option VStop} {k : RClass} :
    (s.vstore t whole elems stop k).Formed m v := by
  unfold State.vstore
  extract_lets z r s1
  have h1 : s1.Formed m v := h.scan
  clear_value s1 r
  split
  · exact h1.trap
  · exact h1.pageAbsent
  · exact h1.writeOwns.vstoreEnd.ite (h1.writeOwns.parkOn.ite h1.writeOwns.postAll)

/-! ### Compressed records -/

theorem vstz (h : s.Formed m v) {t : Nat} {a : Word} {bytes : List Byte} {k : RClass} : (s.vstz t a bytes k).Formed m v := by
  unfold State.vstz
  extract_lets act r s1 far own s2 wants s3
  have h1 : s1.Formed m v := h.scanBytes t a (List.range bytes.length) []
  have h2 : s2.Formed m v := h1.ite h1.writeOwns
  have h3 : s3.Formed m v := h2.ite h2.postAll
  clear_value s3
  refine h2.parkOn.ite ?_
  split
  · exact h3.trap
  · exact h3.pageAbsent
  · exact h3.modThread.finish.ite h3

theorem scanRegion (h : s.Formed m v) (t : Nat) (act : Act) (a : Word) (got : List (Nat × List Byte)) (l : List Nat)
    (own far : List (Nat × Nat)) : (endState (·.2.2) (s.scanRegion t act a got l own far)).Formed m v := by
  delta State.scanRegion
  refine brecOn_induct (motive := fun _ => State → List (Nat × Nat) → List (Nat × Nat) →
      Except State (List (Nat × Nat) × List (Nat × Nat) × State))
    (fun _ g => ∀ x own far, x.Formed m v → (endState (·.2.2) (g x own far)).Formed m v) ?_ ?_ l s own far h
  · intro _ _ _ _ h
    exact h
  intro i rest b w ih x own far h
  delta State.scanRegion._f
  refine endState_ite (ih _ _ _ h) ?_
  extract_lets w th
  generalize hx : x.locate (clusterOf (coreOf t)) _ _ _ _ _ _ = r
  obtain ⟨loc | c | gva, y⟩ := r <;> have hl := h.of_locate hx
  · refine endState_ite (endState_ite ?_ (ih _ _ _ hl)) (ih _ _ _ hl)
    exact hl.touchPoison.trap
  · exact hl.trap
  · exact hl.pageAbsent

theorem readRegion (h : s.Formed m v) (t : Nat) (act : Act) (a : Word) (n : Nat) (k : RClass) (got : List (Nat × List Byte)) :
    (endState (·.2) (s.readRegion t act a n k got)).Formed m v := by
  rw [State.readRegion]
  generalize List.find? _ _ = i
  obtain _ | i := i
  · refine endState_ite h.trap ?_
    have hg := h.scanRegion t act a got (List.range n) [] []
    revert hg
    generalize s.scanRegion t act a got (List.range n) [] [] = r
    intro hg
    obtain x | ⟨own, far, x⟩ := r
    · exact hg
    · rw [endState_ok] at hg
      refine endState_ite ?_ (endState_ite ?_ ?_)
      · rw [endState_ok]
        exact hg.readOwns
      · rw [endState_error]
        exact hg.readOwns.waitFor
      · rw [endState_error]
        exact hg.readOwns.ask
  · exact h.trap

theorem of_readRegion_error (h : s.Formed m v) {x : State} {t : Nat} {act : Act} {a : Word} {n : Nat} {k : RClass}
    {got : List (Nat × List Byte)} (e : s.readRegion t act a n k got = .error x) : x.Formed m v := by
  have := h.readRegion t act a n k got
  rwa [e] at this

theorem of_readRegion_ok (h : s.Formed m v) {x : State} {t : Nat} {act : Act} {a : Word} {n : Nat} {k : RClass}
    {got : List (Nat × List Byte)} {b : List Byte} (e : s.readRegion t act a n k got = .ok (b, x)) : x.Formed m v := by
  have := h.readRegion t act a n k got
  rwa [e] at this

theorem vldz (h : s.Formed m v) {t : Nat} {d : Reg} {c : VCtx} {a size : Word} {k : RClass} {got : List (Nat × List Byte)} :
    (s.vldz t d c a size k got).Formed m v := by
  -- `readRegion` is made opaque before its answers are split: the kernel would evaluate it.
  obtain ⟨f, hf⟩ : ∃ f, f = @State.vldz := ⟨_, rfl⟩
  rw [← hf]
  delta State.vldz at hf
  rw [hf]
  obtain ⟨read, hr⟩ : ∃ g, g = @State.readRegion := ⟨_, rfl⟩
  have he := @of_readRegion_error m v
  have ho := @of_readRegion_ok m v
  rw [← hr] at he ho ⊢
  clear hf hr
  dsimp only
  split <;> rename_i e
  · exact he h e
  · have h := ho h e
    refine h.trap.ite ?_
    split <;> rename_i e
    · exact he h e
    · have h := ho h e
      refine h.trap.ite ?_
      split <;> rename_i e
      · exact he h e
      · have h := ho h e
        exact h.trap.ite h.putElems.modThread.finish

end Sys2Proof.Machine.State.Formed
end

section
/-!
Memory stays canonical and every VL at most VLMAX: receive buffers, links and gateways.
-/

set_option Elab.async false

namespace Sys2Proof.Machine.State.Formed

variable {m v : Prop} {s t : State}

theorem withClock (h : s.Formed m v) {x : Clock} : { s with clock := x }.Formed m v := h.same
theorem withMgmt (h : s.Formed m v) {x : Mgmt} : { s with mgmt := x }.Formed m v := h.same

theorem of_mailboxPut (h : s.Formed m v) {x : State} {k host : Nat} {msg : List Byte} {r : MailAnswer}
    (e : s.mailboxPut k host msg = (r, x)) : x.Formed m v := by
  unfold State.mailboxPut at e
  dsimp only at e
  split at e
  · cases e
    exact h
  · split at e
    · cases e
      exact h
    · cases e
      exact h.ringPut

theorem mailboxWrite (h : s.Formed m v) {k host : Nat} {msg : List Byte} : (s.mailboxWrite k host msg).Formed m v := by
  unfold State.mailboxWrite
  split <;> rename_i e <;> exact (h.of_mailboxPut e).tell

/-! ### Receive buffers and flits -/

theorem modRx (h : s.Formed m v) {buf : Nat} {f : RxBuf → RxBuf} : (s.modRx buf f).Formed m v := h.same
theorem rxGrow (h : s.Formed m v) {buf : Nat} : (s.rxGrow buf).Formed m v := h.modRx
theorem rxServed (h : s.Formed m v) : s.rxServed.Formed m v := h.foldl (fun h => h.modRx.rxGrow) _

theorem takeBeacon (h : s.Formed m v) {src dst n : Nat} : (s.takeBeacon src dst n).Formed m v := h.modDie.openGates

theorem takeMessage (h : s.Formed m v) {l : Nat} {f : Flit} : (s.takeMessage l f).Formed m v := by
  unfold State.takeMessage
  extract_lets s1
  have h1 : s1.Formed m v := by
    unfold s1
    split
    · exact h.modReq.modLink
    · exact h
  clear_value s1
  split
  · exact h1.owe
  · exact h1

theorem flitDeliver (h : s.Formed m v) {src dst : Nat} {f : Flit} : (s.flitDeliver src dst f).Formed m v := by
  unfold State.flitDeliver
  extract_lets l s1
  have h1 : s1.Formed m v := h.modRx.modLink
  clear_value s1
  refine ite (h1.modLink.owe.ite h1) (takeMessage ?_)
  split
  · exact h1.takeBeacon.ite h1
  · exact h1

theorem flitArrive (h : s.Formed m v) {src dst : Nat} {b : List Byte} {i : Instr} : (s.flitArrive src dst b i).Formed m v := by
  unfold State.flitArrive
  dsimp only
  split
  · exact h
  · exact ite (h.modLink.ite h) (h.modRx.modLink.owe.ite (h.modLink.ite (h.ite (h.owe.ite h.modLink.flitDeliver))))

/-! ### Links -/

theorem modErg (h : s.Formed m v) {n : Nat} {f : Erg → Erg} : (s.modErg n f).Formed m v := h.same

theorem ergDrain (h : s.Formed m v) {n : Nat} : (s.ergDrain n).Formed m v := by
  unfold State.ergDrain
  split
  · refine ite ?_ h
    split
    · exact h.withClock.modErg.tell
    · exact h.modErg.tell
  · exact h

theorem ergDrains (h : s.Formed m v) : s.ergDrains.Formed m v := h.foldl (fun h => h.ergDrain) _
theorem ergSend (h : s.Formed m v) {g : Nat} {p : Packet} {mark : Option Nat} : (s.ergSend g p mark).Formed m v := h.modErg.ergDrain

theorem gwPut (h : s.Formed m v) {g : Nat} {k : Head} {data : List Byte} {poison : Bool} {mark : Option Nat} :
    (s.gwPut g k data poison mark).2.Formed m v := by
  unfold State.gwPut
  exact (h.modGw.ite h).ergSend

theorem mgmtPacket (h : s.Formed m v) {g dpkg : Nat} {data : List Byte} {mark : Option Nat} :
    (s.mgmtPacket g dpkg data mark).Formed m v := h.gwPut

/-! ### Requests to other packages -/

theorem gwLaunch (h : s.Formed m v) {g : Nat} {r : Req} : (s.gwLaunch g r).Formed m v := by
  unfold State.gwLaunch
  exact h.gwPut.modGw.owe

theorem gwAgain (h : s.Formed m v) {g : Nat} {o : OutPkt} : (s.gwAgain g o).Formed m v := h.modGw.ergSend.owe

theorem of_tollOf (h : s.Formed m v) {x : State} {g cost : Nat} {w : Toll} {go : State → State} (e : x.tollOf g w = some (cost, go)) :
    (go s).Formed m v := by
  cases w with
  | request a id =>
    obtain ⟨r, -, hr⟩ := Option.map_eq_some_iff.mp e
    cases hr
    exact h.gwLaunch
  | resend a tag =>
    obtain ⟨o, -, ho⟩ := Option.map_eq_some_iff.mp e
    cases ho
    exact h.gwAgain

theorem gwDrain (h : s.Formed m v) {g asid fuel : Nat} : (s.gwDrain g asid fuel).Formed m v := by
  induction fuel generalizing s with
  | zero => exact h
  | succ fuel ih =>
    unfold State.gwDrain
    split
    · exact h
    · dsimp only
      split
      · exact ih h.modGw
      next e =>
        split
        · exact h
        · exact ih (h.modGw.modGw.of_tollOf e)

theorem gwQueue (h : s.Formed m v) {g : Nat} {w : Toll} : (s.gwQueue g w).Formed m v := h.modGw.gwDrain
theorem gwSend (h : s.Formed m v) {r : Req} : (s.gwSend r).Formed m v := h.modReq.gwQueue

theorem gwResend (h : s.Formed m v) {g tag : Nat} : (s.gwResend g tag).Formed m v := by
  unfold State.gwResend
  split
  · exact h
  · refine h.gwQueue.ite ?_
    dsimp only
    split
    · exact h.modGw.answer
    · exact h.modGw

theorem tokenAdd (h : s.Formed m v) {g asid : Nat} : (s.tokenAdd g asid).Formed m v := h.ite h.modGw.owe.gwDrain

/-! ### Packets that arrive -/

theorem gwAnswer (h : s.Formed m v) {g typ pkg tag cls asid addr : Nat} {data : List Byte} {poison cache : Bool} :
    (s.gwAnswer g typ pkg tag cls asid addr data poison cache).Formed m v := h.gwPut.modGw.ite h.gwPut

theorem gwForget (h : s.Formed m v) {g pkg tag : Nat} : (s.gwForget g pkg tag).Formed m v := h.modGw

theorem gwReply (h : s.Formed m v) {r : Req} {a : Answer} : (s.gwReply r a).Formed m v := by
  unfold State.gwReply
  split
  · refine h.ite ?_
    dsimp only
    split
    · exact h.gwForget.gwAnswer
    · exact h.gwAnswer
    · exact h.gwAnswer
    · exact h.gwAnswer
    · exact h.gwAnswer
    · exact h.gwAnswer
  · exact h

theorem gwInject (h : s.Formed m v) {g : Nat} {p : Packet} {op : ROp} {loc : Nat} : (s.gwInject g p op loc).Formed m v := h.inject

theorem gwMailbox (h : s.Formed m v) {g : Nat} {p : Packet} : (s.gwMailbox g p).Formed m v := by
  unfold State.gwMailbox
  split <;> rename_i e <;> have h := h.of_mailboxPut e
  · exact h.gwForget.mgmtPacket
  · exact h.gwForget.gwAnswer
  · exact h.gwAnswer

theorem gwApply (h : s.Formed m v) {g : Nat} {p : Packet} : (s.gwApply g p).Formed m v := by
  unfold State.gwApply
  extract_lets s1 here
  have h1 : s1.Formed m v := h.modGw
  clear_value s1
  refine h1.gwMailbox.ite (h1.ite ?_)
  split
  · exact h1.gwAnswer.ite (h1.foldl (fun h => h.gwInject) _)
  · exact h1.gwInject

theorem gwAnswered (h : s.Formed m v) {g : Nat} {p : Packet} {a : Req → State → State}
    (ha : ∀ {r : Req} {x : State}, x.Formed m v → (a r x).Formed m v) : (s.gwAnswered g p a).Formed m v := by
  unfold State.gwAnswered
  split
  · exact h
  · dsimp only
    split
    · exact ha h.modGw
    · exact h.modGw

theorem mgmtReceive (h : s.Formed m v) {p : Packet} {at' : List Nat} : (s.mgmtReceive p at').Formed m v := by
  unfold State.mgmtReceive
  dsimp only
  split
  case h_5 => exact h.withClock.ite h.tell
  case h_10 => exact h
  all_goals exact h.owe

theorem gwServe (h : s.Formed m v) {g : Nat} {p : Packet} {at' : List Nat} : (s.gwServe g p at').Formed m v :=
  ite (gwAnswer (h.gwAnswered fun h => h.answer))
    (ite (ite (h.gwAnswered fun h => h.answer) h.modGw) (ite (h.gwAnswered fun h => h.refuse) (h.mgmtReceive.ite h.gwApply)))

theorem seqNext (h : s.Formed m v) {pkg n : Nat} : (s.seqNext pkg n).Formed m v := h.foldl (fun h => h.modGw) _

theorem gwEarly (h : s.Formed m v) {pkg fuel : Nat} : (s.gwEarly pkg fuel).Formed m v := by
  induction fuel generalizing s with
  | zero => exact h
  | succ fuel ih =>
    unfold State.gwEarly
    dsimp only
    split
    · exact h
    · exact ih h.modGw.seqNext.gwServe

theorem gwOrder (h : s.Formed m v) {g : Nat} {p : Packet} {at' : List Nat} : (s.gwOrder g p at').Formed m v := by
  unfold State.gwOrder
  refine h.ite ?_
  dsimp only
  split
  · split
    · exact h.ergSend
    · exact h
  · exact h.gwServe.ite (h.modGw.gwServe.ite (h.seqNext.gwServe.gwEarly.ite (h.modGw.ite h)))

theorem ergServe (h : s.Formed m v) {g : Nat} {p : Packet} : (s.ergServe g p).Formed m v := h.gwOrder.ite h.carry

theorem ergReceive (h : s.Formed m v) {g l : Nat} {p : Packet} : (s.ergReceive g l p).Formed m v :=
  h.ite (h.modRx.ite (h.ite (h.modRx.ergSend.ite (ite (h.ite h.modRx) h.modRx.ergServe))))

end Sys2Proof.Machine.State.Formed
end

section
/-!
Memory stays canonical and every VL at most VLMAX: waiting instructions that go on, faults, and the end of a cycle.
-/

set_option Elab.async false

namespace Sys2Proof.Machine.State.Formed

variable {m v : Prop} {s t : State}

theorem next (h : s.Formed m v) : Formed1 m v (.next s) := fun _ e => by
  cases e
  exact h

/-! ### Going on -/

theorem run (h : s.Formed m v) {t : Nat} {a : Act} {got : List (Nat × List Byte)} : (s.run t a got).Formed m v := by
  cases a with
  | load => exact h.load
  | store => exact h.store
  | amo => exact h.amo
  | fe => exact h.fullEmpty
  | segld => exact h.segld
  | segst => exact h.segst
  | btag => exact h.btag
  | vload => exact h.vloadEnd.ite h.vload
  | vstore => exact h.vstoreEnd.ite h.vstore
  | vstz => exact h.vstz.ite h.modThread.finish
  | vldz => exact h.vldz
  | fence => exact h.fence
  | ifence => exact h.ifence
  | fetch => exact h
  | waite => exact h.waite
  | matrix => exact h.matrix
  | cpy => exact h.cpy
  | cwait => exact h.cwait
  | cbwait => exact h.cbwait
  | cbpost => exact h.cbpost
  | npush => exact h.npush
  | npop => exact h.npop
  | pbind => exact h
  | psend => exact h.psend
  | precv => exact h.precv
  | pstat => exact h
  | fork => exact h.fork
  | join => exact h.join
  | tend => exact h.tend
  | bar => exact h.arrive

theorem abandon (h : s.Formed m v) {t : Nat} : (s.abandon t).Formed m v := by
  unfold State.abandon
  split
  · exact h.unreserve
  · exact h

theorem trapParked (h : s.Formed m v) {t : Nat} {e : Err} : (s.trapParked t e).Formed m v := h.abandon.trap
theorem reissue (h : s.Formed m v) {t : Nat} : (s.reissue t).Formed m v := h.abandon.modThread

theorem resume (h : s.Formed m v) {t : Nat} {w : Wait} : (s.resume t w).Formed m v := by
  unfold State.resume
  split
  · exact h.run
  · split
    · split
      · exact h.vloadEnd
      · exact h
    · exact h.trapParked

theorem poke (h : s.Formed m v) {t : Nat} : (s.poke t).Formed m v := by
  unfold State.poke
  split
  · exact h
  · refine h.ite ?_
    split
    case h_1 => exact h.owe.ite h
    case h_6 => exact h
    all_goals exact h.run

theorem takeAnswer (h : s.Formed m v) {t elem : Nat} {r : Req} {a : Answer} : (s.takeAnswer t elem r a).Formed m v := by
  unfold State.takeAnswer
  split
  · exact h
  · exact h.poke.ite (h.ite (h.resume.ite h.park))

/-! ### Answers and acknowledgements -/

theorem raiseDeferred (h : s.Formed m v) {t : Nat} : (s.raiseDeferred t).Formed m v := by
  unfold State.raiseDeferred
  split
  · exact h.modThread.trapParked
  · exact h

theorem defer_vset (th : Thread) (no : Nat) (e : Err) : (th.defer no e).vset = th.vset := by
  unfold Thread.defer
  split <;> rfl

theorem deferCause (h : s.Formed m v) {t : Nat} {r : Req} {e : Err} : (s.deferCause t r e).Formed m v := by
  unfold State.deferCause
  split
  · exact h
  · have h' {x : Nat} := h.modThread (t := t) (f := fun th => th.defer x e) fun th => defer_vset ..
    exact h.ite (h'.raiseDeferred.ite h')

theorem keepReplica (h : s.Formed m v) {r : Req} : (s.keepReplica r).Formed m v := ite h.same h

theorem replyArrive (h : s.Formed m v) {r : Req} {a : Answer} {keep : Bool} : (s.replyArrive r a keep).Formed m v := by
  unfold State.replyArrive
  extract_lets s1 s2
  have h1 : s1.Formed m v := h.dropReq.mergeStamp.numberDone
  have h2 : s2.Formed m v := h1.keepReplica.ite h1
  clear_value s2
  split
  · exact h2.takeAnswer
  · exact h2.gwReply
  · exact h2.copyAnswer
  · exact h2.prismAnswer
  · exact h2

theorem ackArrive (h : s.Formed m v) {r : Req} {a : Answer} : (s.ackArrive r a).Formed m v := by
  unfold State.ackArrive
  extract_lets s1
  have h1 : s1.Formed m v := h.dropReq.numberDone.releaseHeld
  clear_value s1
  split
  · exact h1.gwReply
  · exact h1.copyAnswer
  · exact h1.prismAnswer
  · exact h1
  · refine h1.takeAnswer.ite ?_
    split
    · exact h1.deferCause.poke
    · exact h1.poke

theorem endReq (h : s.Formed m v) {r : Req} {c : Cause} : (s.endReq r c).Formed m v := h.ackArrive.ite h.replyArrive

theorem sendAgain (h : s.Formed m v) {r : Req} : (s.sendAgain r).Formed m v := by
  have hp {x : State} {y : Xl} (e : s.pageXl r.cluster r.asid r.priv r.gva r.op.need = (y, x)) : x.Formed m v := by
    have := h.sameButTlb (s.pageXl_frame r.cluster r.asid r.priv r.gva r.op.need)
    rwa [e] at this
  unfold State.sendAgain
  refine ite ?_ h.launch
  split <;> rename_i e
  · exact (hp e).launch
  · exact (hp e).endReq
  · exact (hp e).endReq

/-! ### Fetch and engine errors -/

theorem bring (h : s.Formed m v) {t : Nat} {o : Word} : (s.bring t o).Formed m v := by
  have hf {x : State} {y : Fetched} (e : s.fetchAt t o = (y, x)) : x.Formed m v := by
    have := h.fetchAt (t := t) (off := o)
    rwa [e] at this
  unfold State.bring
  refine h.ite ?_
  split
  next e => exact (hf e).modThread
  next => exact h

theorem parcelFetch (h : s.Formed m v) {t : Nat} {far : Bool} {o : Word} : (s.parcelFetch t far o).Formed m v := by
  unfold State.parcelFetch
  refine h.ite (ite (h.bring.ite h) (h.ite ?_))
  split
  · exact h.bring
  · exact h.bring.ite h

/-- A recorded engine error that is reported. -/
theorem of_reported {x : State} {e : Option Err} {f : Err → State} (hf : ∀ {e : Err}, (f e).Formed m v)
    (he : e.map f = some x) : x.Formed m v := by
  obtain ⟨e, -, rfl⟩ := Option.map_eq_some_iff.mp he
  exact hf

theorem of_engineWord (h : s.Formed m v) {x : State} {t w : Nat} {whole : Bool} (e : s.engineWord t w whole = some x) :
    x.Formed m v := by
  unfold State.engineWord at e
  extract_lets f mx cp at e
  have hm {x : State} (e : mx = some x) : x.Formed m v := of_reported h.reportMatrix e
  have hc {n : Nat} {x : State} (e : cp n = some x) : x.Formed m v := of_reported h.reportCopy e
  clear_value mx cp
  split at e
  · exact hm e
  · split at e
    · cases e
    · split at e
      · exact hm e
      · split at e
        · exact hm e
        · split at e
          · cases mx with
            | some y => exact hm e
            | none =>
              obtain ⟨n, -, hn⟩ := List.exists_of_findSome?_eq_some e
              exact hc hn
          · split at e
            · split at e
              · cases e
              · exact hc e
            · cases e

theorem of_engineDue (h : s.Formed m v) {x : State} {t : Nat} {r : FetchRes} (e : s.engineDue t r = some x) : x.Formed m v := by
  cases r with
  | bytes b =>
    unfold State.engineDue at e
    dsimp only at e
    split at e
    · exact h.of_engineWord e
    · cases e
  | bad _ _ p | absent _ _ p =>
    obtain ⟨p, -, hp⟩ := Option.bind_eq_some_iff.mp e
    exact h.of_engineWord hp

/-! ### Page faults and bounds -/

theorem wakePrism (h : s.Formed m v) {t : Nat} : (s.wakePrism t).Formed m v := h.foldl (fun h => h.modCluster.prismNext.ite h) _
theorem wakeCopies (h : s.Formed m v) {t : Nat} : (s.wakeCopies t).Formed m v := h.foldl (fun h => h.modCopy.owe.ite h) _

theorem faultWake (h : s.Formed m v) {t : Nat} : (s.faultWake t).Formed m v :=
  h.ite (h.withPfaults.reissue.ite h.withPfaults).wakeCopies.wakePrism

theorem faultLate (h : s.Formed m v) {f : PFault} : (s.faultLate f).Formed m v := by
  unfold State.faultLate
  extract_lets t s1
  have h1 : s1.Formed m v := h.withPfaults
  clear_value s1
  split
  · exact h1.trapParked.ite h1
  · exact h1.fetchTrap.ite h1
  · split
    · exact h1.copyFail
    · exact h1
  · split
    · split
      · exact h1.withdraw.trapParked
      · exact h1
    · exact h1

theorem oweOnce (h : s.Formed m v) {i : Instr} {t : Nat} : (s.oweOnce i t).Formed m v := h.ite h.owe
theorem oweLate (h : s.Formed m v) {t : Nat} : (s.oweLate t).Formed m v := by
  unfold State.oweLate
  extract_lets s1 s2
  have h1 : s1.Formed m v := h.oweOnce.ite h
  have h2 : s2.Formed m v := h1.oweOnce.ite h1
  exact h.ite (h2.oweOnce.ite h2)

/-! ### Suspension, and the end of a cycle -/

theorem withdrawThread (h : s.Formed m v) {t : Nat} : (s.withdrawThread t).Formed m v := by
  unfold State.withdrawThread
  split
  · exact h
  · split
    · exact h.withNet.reissue.ite h
    · exact h.reissue.ite h
    · split
      · exact h.ite h.modCluster.withdraw.reissue
      · exact h

theorem withdrawAll (h : s.Formed m v) : s.withdrawAll.Formed m v := h.foldl (fun h => h.foldl (fun h => h.withdrawThread) _) _

theorem withNow (h : s.Formed m v) {n k : Nat} : { s with now := n, slot := k }.Formed m v := h.same

theorem endCycle (h : s.Formed m v) : s.endCycle.Formed m v := by
  unfold State.endCycle
  extract_lets s1 s2 s3 s4
  have h1 : s1.Formed m v := h.foldl (fun h => h.poke.ite h) _
  have h2 : s2.Formed m v := h1.withdrawAll.grantCredits.rxServed.ergDrains.showStatuses
  have h4 : s4.Formed m v := h2.withNow.foldl (fun h => h.oweLate.ite h) _
  exact h4.foldl (fun h => h.seekWork) _

end Sys2Proof.Machine.State.Formed
end

section
/-!
Memory stays canonical and every VL at most VLMAX: the sequencer, programs, components and the device.
-/

set_option Elab.async false

namespace Sys2Proof

/-- A map in canonical form stays so when entries are left out. -/
theorem Sp.wfL_filter {α : Type} [DecidableEq α] {d : α} {p : Nat × α → Bool} {lo : Option Nat} {l : List (Nat × α)}
    (h : wfL d lo l = true) : wfL d lo (l.filter p) = true := by
  induction l generalizing lo with
  | nil => rfl
  | cons e r ih =>
    obtain ⟨j, a⟩ := e
    have h' := h
    simp only [wfL, Bool.and_eq_true] at h
    obtain ⟨⟨hlo, hd⟩, hr⟩ := h
    rw [List.filter_cons]
    split
    · simp only [wfL, Bool.and_eq_true]
      exact ⟨⟨hlo, hd⟩, ih hr⟩
    · refine ih (wfL_lower hr ?_)
      rintro x rfl
      exact ⟨j, rfl, Nat.le_of_lt (of_decide_eq_true hlo)⟩

end Sys2Proof

namespace Sys2Proof.Machine

theorem hbmOnly_wf {x : Memory} (h : Memory.wf x = true) : Memory.wf (hbmOnly x) = true := Sp.wfL_filter h

theorem threadAt_vlFits (c : Component) (t now : Nat) : (threadAt c t now).vlFits := Thread.vlFits_of_vset rfl Thread.init_vlFits

namespace State.Formed

variable {m v : Prop} {s t : State}

theorem withSlots (h : s.Formed m v) {x : Sp Int} : { s with slots := x }.Formed m v := h.same
theorem withStepsOver (h : s.Formed m v) {x : List Nat} : { s with stepsOver := x }.Formed m v := h.same
theorem withDamaged (h : s.Formed m v) {x : List (Nat × Nat)} : { s with damaged := x }.Formed m v := h.same
theorem withCwWrites (h : s.Formed m v) {x : List CwWrite} : { s with cwWrites := x }.Formed m v := h.same

/-! ### Slots -/

theorem oweSlot (h : s.Formed m v) {e : Nat} : (s.oweSlot e).Formed m v := h.ite h.owe
theorem overrun (h : s.Formed m v) {e n : Nat} : (s.overrun e n).Formed m v := h.modEntry

theorem overrunFault (h : s.Formed m v) {e : Nat} : (s.overrunFault e).Formed m v := by
  unfold State.overrunFault
  extract_lets err
  split
  · exact h.trapParked.ite h.modThread
  · rename_i x _ _
    have hx : x.Formed m v := h.foldl (fun h => h.modCore) _
    exact hx.same

theorem slotAct (h : s.Formed m v) {e : Nat} : (s.slotAct e).Formed m v := by
  unfold State.slotAct
  refine h.modEntry.pushRoot.ite ?_
  split
  · exact h.overrun.ite h.modEntry
  · exact h.overrun.overrunFault
  · exact h.overrun

theorem stepSlot (h : s.Formed m v) {e : Nat} : (s.stepSlot e).Formed m v := by
  unfold State.stepSlot
  refine ite (h.oweSlot.ite h) ?_
  split
  · exact h.owe.owe
  · split
    · exact h
    · exact oweSlot (h.overrun.withSlots.overrun.ite h.overrun.withSlots.slotAct)

/-! ### Programs -/

theorem tables (h : s.Formed m v) {p : Program} : (s.tables p).Formed m v := h.same

theorem setUp (h : s.Formed m v) {i : Nat} {c : Component} : (s.setUp i c).Formed m v where
  mem hm := by
    unfold memOk State.setUp
    exact h.mem hm
  vl hv u := by
    rw [thread_setUp]
    split
    · exact threadAt_vlFits ..
    · exact h.vl hv u

theorem noThreads (h : s.Formed m v) : { s with threads := .empty }.Formed m v where
  mem := h.mem
  vl _ _ := Thread.init_vlFits

theorem bare (h : s.Formed m v) : s.bare.Formed m v := by
  unfold State.bare
  exact h.noThreads.same

theorem putByte (h : s.Formed m v) {a : Nat} {b : Byte} {x : Sp (Option Poison)} :
    { s with mem := s.mem.set 0 a b, poison := x }.Formed m v where
  mem hm := Sp.wf_set (h.mem hm) a b
  vl := h.vl

theorem place (h : s.Formed m v) {l : List (Nat × Byte)} : (s.place l).Formed m v := foldl h.same (fun h => h.putByte) l

theorem mapPage (h : s.Formed m v) {gva leaf l node : Nat} {free : List Nat} : (s.mapPage gva leaf l node free).1.Formed m v := by
  induction l generalizing s node free with
  | zero => exact h
  | succ l ih =>
    unfold State.mapPage
    dsimp only
    split
    · exact h.place
    · split
      · exact ih h
      · split
        · exact h
        · split
          · exact ih h.place.place
          · exact h

theorem windows (h : s.Formed m v) {p : Program} : (s.windows p).Formed m v := by
  refine h.foldl (fun {x e} h => h.ite ?_) _
  refine foldl_of Prod.fst (x := (x, (placingOf p e.1).nodes)) h (fun h => ?_) _
  exact h.mapPage

theorem start (h : s.Formed m v) {p : Program} : (s.start p).Formed m v := by
  unfold State.start
  extract_lets l owned s1 k s2 s3
  have h1 : s1.Formed m v := h.foldl (fun h => h.setUp) _
  have h2 : s2.Formed m v := h1.same
  have h3 : s3.Formed m v := h2.foldl (fun h => h.pushRec.ite h) _
  exact h3.foldl (fun h => h.owe.ite h) _

/-! ### Components -/

theorem resetCredits (h : s.Formed m v) {t : Nat} : (s.resetCredits t).Formed m v := by
  refine h.foldl (fun h => ?_) _
  split
  · exact h.withCreditsBack.modThread
  · exact h

theorem resumeThread (h : s.Formed m v) {t : Nat} : (s.resumeThread t).Formed m v := by
  unfold State.resumeThread
  have h := h.resetCredits (t := t)
  dsimp only
  split
  · exact h
  · refine h.withPfaults.reissue.ite ?_
    split
    · exact h.reissue
    · exact h.reissue
    · exact h.reissue
    · exact h.raiseDeferred.ite h.poke

theorem dropPrism (h : s.Formed m v) {k : Nat} : (s.dropPrism k).Formed m v := h.foldl (fun h => h.modCluster.prismNext) _

theorem endComp (h : s.Formed m v) {k : Nat} {c : Cause} {line : Nat} : (s.endComp k c line).Formed m v := by
  unfold State.endComp
  extract_lets ts ks s1 s2 s3 aside s4 ports
  have h2 : s2.Formed m v := h.dropPrism.foldl (fun h => h.modThread) _
  have h3 : s3.Formed m v := h2.foldl (fun h => h.modCore) _
  have h4 : s4.Formed m v := h3.same
  exact (h4.foldl (fun h => h.unbindPort) _).tell

theorem scrub (h : s.Formed m v) {loc : Nat} {e : EccError} : (s.scrub loc e).Formed m v := by
  unfold State.scrub
  refine h.ite ?_
  split
  · exact h
  · exact h.same
  · extract_lets s1
    have h1 : s1.Formed m v := h.ite h.addPoison
    clear_value s1
    split
    · exact h1.withDamaged.owe
    · exact h1

/-! ### Shoot-downs -/

theorem sdJoin (h : s.Formed m v) {t : Nat} : (s.sdJoin t).Formed m v := by
  unfold State.sdJoin
  split
  · exact h.join.ite (h.park.ite h)
  · exact h

theorem sdReach (h : s.Formed m v) {c d : Nat} : (s.sdReach c d).Formed m v := by
  unfold State.sdReach
  extract_lets hit busy joins s1 s2
  have h1 : s1.Formed m v := h.modCore.modDie
  have h2 : s2.Formed m v := h1.same
  exact h2.foldl (fun h => h.sdJoin) _

theorem sdStart (h : s.Formed m v) {c : Nat} {w : CwWrite} : (s.sdStart c w).Formed m v := by
  unfold State.sdStart
  exact h.modCore.sdReach.foldl (fun h => h.carry) _

theorem sdDone (h : s.Formed m v) {c x : Nat} : (s.sdDone c x).Formed m v := h.modCore

/-! ### The device -/

theorem clockMoved (h : s.Formed m v) : s.clockMoved.Formed m v := by
  unfold State.clockMoved
  extract_lets s1
  have h1 : s1.Formed m v := h.foldl (fun h => h.owe.ite h) _
  exact h1.owe.ite h1

theorem oweLease (h : s.Formed m v) : s.oweLease.Formed m v := h.owe

theorem restart {image firmware : Nat} {x : Mgmt} {mem : Memory} (hm : m → Memory.wf mem = true) :
    (s.restart image firmware x mem).Formed m v where
  mem := hm
  vl _ _ := Thread.init_vlFits

end State.Formed
end Sys2Proof.Machine
end

section
/-!
Memory stays canonical and every VL at most VLMAX: what instructions answer.
-/

set_option Elab.async false

namespace Sys2Proof.Machine

/-- A requested length that is cut to a bound is at most the bound. -/
theorem cutLength_le (avl : Word) (n : Nat) : (if avl.toNat ≤ n then avl else BitVec.ofNat 64 n).toNat ≤ n := by
  split
  next h => exact h
  next => exact (BitVec.toNat_ofNat n 64).symm ▸ Nat.mod_le n _

/-- VL as VSETL sets it is at most the VLMAX of the type it sets (09 R122). -/
theorem setType_vlFits (th : Thread) (avl t : Word) (bad : Bool) :
    Thread.vlFits { th with
      vtype := if bad then 0x8000000000000000 else t
      vl := if bad then 0
        else if avl.toNat ≤ 512 * 2 ^ (t.toNat / 8 % 4) / (8 * 2 ^ (t.toNat % 8)) then avl
        else BitVec.ofNat 64 (512 * 2 ^ (t.toNat / 8 % 4) / (8 * 2 ^ (t.toNat % 8))) } := by
  cases bad
  · exact cutLength_le ..
  · exact Nat.zero_le _

theorem Thread.raiseFlags_vset (th : Thread) (f : Flags) : (th.raiseFlags f).vset = th.vset := rfl

theorem Thread.wr_raiseFlags_vset (th : Thread) (d : Reg) (x : Word) (f : Flags) : ((th.wr d x).raiseFlags f).vset = th.vset :=
  ((th.wr d x).raiseFlags_vset f).trans (th.wr_vset d x)

theorem Formed1.ite {m v : Prop} {c : Prop} [Decidable c] {x y : Out1} (hx : Formed1 m v x) (hy : Formed1 m v y) :
    Formed1 m v (if c then x else y) := by
  split
  · exact hx
  · exact hy

namespace State.Formed

variable {m v : Prop} {s t : State}

/-! ### Scalar instructions -/

theorem raise (h : s.Formed m v) {c : Cause} {tv : Word} : Formed1 m v (s.raise c tv) := h.trap.next
theorem put (h : s.Formed m v) {d : Reg} {x : Word} {dist : Nat} : Formed1 m v (s.put d x dist) := h.setG.done.next
theorem divide (h : s.Formed m v) {i : Instr} {d c : Reg} {x : Word} : Formed1 m v (s.divide i d c x) := h.raise.ite h.put
theorem branch (h : s.Formed m v) {taken : Bool} {i : BitVec 12} : Formed1 m v (s.branch taken i) := (h.jump.ite h.done).next
theorem jumpLink (h : s.Formed m v) {d : Reg} {target : Word} : Formed1 m v (s.jumpLink d target) := h.setG.jump.next

theorem setLoop (h : s.Formed m v) {lvl : Fin 2} {n : Word} {i : BitVec 12} : Formed1 m v (s.setLoop lvl n i) := by
  have hf {le : Word} {x : State} {y : Fetched} (e : s.fetchAt s.cur le = (y, x)) : x.Formed m v := by
    have := h.fetchAt (t := s.cur) (off := le)
    rwa [e] at this
  unfold State.setLoop
  refine h.modTh.done.next.ite ?_
  dsimp only
  split <;> rename_i e <;> have h := hf e
  · exact h.trap.next
  · exact h.pageAbsent.next
  · exact h.modTh.finishAt.next

theorem fpFinish (h : s.Formed m v) {i : Word} {d : Reg} {x : Word} {f : Flags} {dist : Nat} :
    Formed1 m v (s.fpFinish i d x f dist) := by
  unfold State.fpFinish
  split
  · exact h.raise
  · exact (h.modTh fun th => th.wr_raiseFlags_vset ..).done.next

theorem fpPut (h : s.Formed m v) {i : Instr} {d : Reg} {r : Nat × Flags} {dist : Nat} : Formed1 m v (s.fpPut i d r dist) := h.fpFinish
theorem fpTest (h : s.Formed m v) {i : Instr} {d : Reg} {r : Bool × Flags} : Formed1 m v (s.fpTest i d r) := h.fpFinish

theorem execAmo (h : s.Formed m v) {op : AmoOp} {k : RClass} {dbl : Bool} {d b c : Reg} :
    Formed1 m v (s.execAmo op k dbl d b c) := h.amo.next

theorem execMatrix (h : s.Formed m v) {i : Instr} {c : MSpec} : Formed1 m v (s.execMatrix i c) := by
  unfold State.execMatrix
  split
  · exact h.reportMatrix.next
  · split
    · exact h.raise
    · exact h.matrix.next

/-! ### Vector instructions -/

theorem vDone (h : s.Formed m v) {len : Word} {dist : Nat} : (s.vDone len dist).Formed m v := h.modTh.finish

theorem setType (h : s.Formed m v) {d : Reg} {avl t : Word} : Formed1 m v (s.setType d avl t) := by
  refine next (vDone (h.modThreadFit fun _ => ?_))
  exact Thread.vlFits_of_vset (Thread.wr_vset ..) (setType_vlFits ..)

theorem vRun (h : s.Formed m v) {i : Instr} {sewOk : Bool} {gs : List Group} {ovl : Bool} {c : VCtx} {dist : Nat} {body : Out1}
    (hb : Formed1 m v body) : Formed1 m v (s.vRun i sewOk gs ovl c dist body) := by
  unfold State.vRun
  split
  · exact h.raise
  · exact h.vDone.next.ite hb

theorem vInt (h : s.Formed m v) {i : Instr} {f : VForm} {k : MReg} {d c b : Reg} {uns : Bool} {dist : Nat}
    {op : Nat → Nat → Nat → Nat → Nat} : Formed1 m v (s.vInt i f k d c b uns dist op) := h.vRun h.putElems.vDone.next
theorem vCmp (h : s.Formed m v) {i : Instr} {f : VForm} {k d : MReg} {c b : Reg} {op : Nat → Nat → Nat → Bool} :
    Formed1 m v (s.vCmp i f k d c b op) := h.vRun h.setM.vDone.next
theorem vMove (h : s.Formed m v) {i : Instr} {f : VForm} {d b : Reg} {dist : Nat} : Formed1 m v (s.vMove i f d b dist) :=
  h.vRun h.putElems.vDone.next

theorem vFpEnd (h : s.Formed m v) {fl : List (Nat × Flags)} {i : Instr} {dist : Nat} {write : State → State}
    (hw : (write s).Formed m v) : Formed1 m v (s.vFpEnd fl i dist write) := by
  unfold State.vFpEnd
  split
  · exact h.raise
  · exact (hw.modTh fun th => th.raiseFlags_vset _).vDone.next

theorem vFp (h : s.Formed m v) {i : Instr} {bf : Bool} {f : VForm} {k : MReg} {d c b : Reg} {una acc fpDest : Bool} {dist : Nat}
    {op : Fmt → Nat → Nat → Nat → Nat × Flags} : Formed1 m v (s.vFp i bf f k d c b una acc fpDest dist op) :=
  h.vRun (h.vFpEnd h.putElems)
theorem vFpCmp (h : s.Formed m v) {i : Instr} {bf : Bool} {f : VForm} {k d : MReg} {c b : Reg}
    {op : Fmt → Nat → Nat → Bool × Flags} : Formed1 m v (s.vFpCmp i bf f k d c b op) := h.vRun (h.vFpEnd h.setM)
theorem vBlock (h : s.Formed m v) {i : Instr} {gs : List Group} {ovl : Bool} {dist : Nat} {write : State → State}
    (hw : (write s).Formed m v) : Formed1 m v (s.vBlock i gs ovl dist write) := by
  unfold State.vBlock
  split
  · exact h.raise
  · exact hw.vDone.next
theorem vRed (h : s.Formed m v) {i : Instr} {k : MReg} {d c b : Reg} {op : Nat → Nat → Nat → Nat} :
    Formed1 m v (s.vRed i k d c b op) := h.vRun h.putElems.vDone.next
theorem vFpRed (h : s.Formed m v) {i : Instr} {k : MReg} {d c b : Reg} {fold : Fmt → VCtx → Nat → (Nat → Nat) → Folded} :
    Formed1 m v (s.vFpRed i k d c b fold) := h.vRun (h.vFpEnd h.putElems)
theorem vPerm (h : s.Formed m v) {i : Instr} {k : MReg} {d : Reg} {srcs : List Group} {keep : Nat → Bool} {op : Nat → Nat} :
    Formed1 m v (s.vPerm i k d srcs keep op) := h.vRun h.putElems.vDone.next
theorem execVslideup (h : s.Formed m v) {f : VForm} {k : MReg} {d c b : Reg} : Formed1 m v (Machine.execVslideup f k d c b s) := by
  unfold Machine.execVslideup
  exact h.vPerm
theorem execVslidedn (h : s.Formed m v) {f : VForm} {k : MReg} {d c b : Reg} : Formed1 m v (Machine.execVslidedn f k d c b s) := by
  unfold Machine.execVslidedn
  exact h.vPerm
theorem mLogic (h : s.Formed m v) {i : Instr} {d : MReg} {op : Nat → Bool} : Formed1 m v (s.mLogic i d op) :=
  h.vRun h.setM.vDone.next
theorem mScalar (h : s.Formed m v) {i : Instr} {d : Reg} {x : Word} : Formed1 m v (s.mScalar i d x) := by
  unfold State.mScalar
  split
  · exact h.raise
  · exact h.setG.vDone.next

theorem execVdxbpack (h : s.Formed m v) {w4 : Bool} {sh : Fin 16} {d c : Reg} : Formed1 m v (Machine.execVdxbpack w4 sh d c s) := by
  unfold Machine.execVdxbpack
  exact h.vBlock h.putElems
theorem execVdxbunpack (h : s.Formed m v) {w4 : Bool} {d c : Reg} : Formed1 m v (Machine.execVdxbunpack w4 d c s) := by
  unfold Machine.execVdxbunpack
  exact h.vBlock h.putElems

theorem execVload (h : s.Formed m v) {i : Instr} {ff : Bool} {md : VMode} {ew : Ew} {k : RClass} {mk : MReg} {x b : Reg} :
    Formed1 m v (s.execVload i ff md ew k mk x b) := h.vRun h.vload.next
theorem execVstore (h : s.Formed m v) {i : Instr} {md : VMode} {ew : Ew} {k : RClass} {mk : MReg} {x b : Reg} :
    Formed1 m v (s.execVstore i md ew k mk x b) := h.vRun h.vstore.next

theorem execVextract (h : s.Formed m v) {f : VForm} {d c b : Reg} : Formed1 m v (Machine.execVextract f d c b s) := by
  unfold Machine.execVextract
  split
  · exact h.raise
  · exact h.setG.vDone.next

theorem execVinsert (h : s.Formed m v) {d c b : Reg} : Formed1 m v (Machine.execVinsert d c b s) := by
  unfold Machine.execVinsert
  dsimp only
  split
  · exact h.raise
  · exact (h.putElems.ite h).vDone.next

/-! ### Instructions that act on state of their own -/

theorem execSysw (h : s.Formed m v) {n : BitVec 12} {b : Reg} : Formed1 m v (Machine.execSysw n b s) := by
  unfold Machine.execSysw
  split
  · exact h.raise
  · exact h.sysWrite.done.next

theorem execCpym (h : s.Formed m v) {k : RClass} {tag : Fin 8} {d b e : Reg} : Formed1 m v (Machine.execCpym k tag d b e s) := by
  unfold Machine.execCpym
  split
  · exact h.reportMatrix.next
  · exact h.cpy.next

theorem execFence (h : s.Formed m v) {paths : BitVec 6} (scope : Scope) {classes : BitVec 3} :
    Formed1 m v (Machine.execFence paths scope classes s) := by
  unfold Machine.execFence
  split
  · exact h.reportMatrix.next
  · exact h.fence.next

theorem execTend (h : s.Formed m v) {k : RClass} : Formed1 m v (Machine.execTend k s) := by
  refine next ?_
  split
  · exact h.reportMatrix
  · split
    · split
      · exact h.reportCopy
      · exact h
    · exact h.tend

end State.Formed
end Sys2Proof.Machine
end

section
/-!
Memory stays canonical and every VL at most VLMAX: events, and one step.
-/

set_option Elab.async false

namespace Sys2Proof.Machine.State.Formed

variable {m v : Prop} {s t : State}

theorem withArg (h : s.Formed m v) {a : Arg} : { s with arg := a }.Formed m v := h.same
theorem withAgenda (h : s.Formed m v) {l : List Event} : { s with agenda := l }.Formed m v := h.same
theorem withPending (h : s.Formed m v) {l : List Due} : { s with pending := l }.Formed m v := h.same
theorem withSlot (h : s.Formed m v) {n : Nat} : { s with slot := n }.Formed m v := h.same
theorem withSuspended (h : s.Formed m v) {l : List Saved} : { s with suspended := l }.Formed m v := h.same
theorem withWakes (h : s.Formed m v) {l : List Nat} : { s with wakes := l }.Formed m v := h.same
theorem withFwakes (h : s.Formed m v) {l : List Nat} : { s with fwakes := l }.Formed m v := h.same
theorem withMins (h : s.Formed m v) {x : Sp (List Nat)} : { s with mins := x }.Formed m v := h.same
theorem withReplicas (h : s.Formed m v) {l : List Replica} : { s with replicas := l }.Formed m v := h.same

/-! ### Requests, homes and waiting threads -/

theorem execRemoteReply (h : s.Formed m v) : Formed1 m v (Machine.execRemoteReply s) := by
  refine next ?_
  split
  · split
    · exact h.ite (h.owe.ite h.replyArrive)
    · exact h
  · exact h

theorem execStoreAcknowledge (h : s.Formed m v) : Formed1 m v (Machine.execStoreAcknowledge s) := by
  refine next ?_
  split
  · split
    · exact h.ite (h.owe.ite h.ackArrive)
    · exact h
  · exact h

theorem execPostedStoreAcceptance (h : s.Formed m v) : Formed1 m v (Machine.execPostedStoreAcceptance s) := by
  refine next ?_
  split
  · refine h.ite ?_
    dsimp only
    split
    · exact h.acceptStore
    · split
      · refine h.acceptStore.ite (h.acceptStore.park.ite ?_)
        split
        · exact h.acceptStore.vstoreEnd
        · exact h.acceptStore.finish
      · exact h.acceptStore
  · exact h

theorem execHomeApply (h : s.Formed m v) : Formed1 m v (Machine.execHomeApply s) := by
  refine next ?_
  split
  · refine h.ite ?_
    split
    · exact h.answer
    · exact h.gwSend
    · exact h.owe.ite (h.modReq.ite h.applyHome)
  · exact h

theorem execGateApply (h : s.Formed m v) : Formed1 m v (Machine.execGateApply s) := by
  refine next ?_
  split
  · split
    · exact h.applyHome.ite h
    · exact h
  · exact h

theorem execRnrRetry (h : s.Formed m v) : Formed1 m v (Machine.execRnrRetry s) := by
  refine next ?_
  split
  · exact h.ite (h.sendAgain.ite h.endReq)
  · exact h

theorem execServiceMessage (h : s.Formed m v) : Formed1 m v (Machine.execServiceMessage s) := by
  refine next ?_
  split
  · exact h.serviceSlot
  · exact h

theorem execFeExamination (h : s.Formed m v) : Formed1 m v (Machine.execFeExamination s) := by
  refine next ?_
  split
  · exact h.serviceSlot
  · exact h.serviceSlot
  · exact h

theorem execFePeriodicExamination (h : s.Formed m v) : Formed1 m v (Machine.execFePeriodicExamination s) := by
  refine next ?_
  split
  · exact h.modCore.owe.ite h
  · exact h

theorem execNeighbourEntryLand (h : s.Formed m v) : Formed1 m v (Machine.execNeighbourEntryLand s) := by
  refine next ?_
  split
  · exact h.withTransit.modThread
  · exact h

theorem execNeighbourTimeout (h : s.Formed m v) : Formed1 m v (Machine.execNeighbourTimeout s) := by
  refine next ?_
  split
  · exact h.trapParked
  · exact h

theorem execJoinPoll (h : s.Formed m v) : Formed1 m v (Machine.execJoinPoll s) := (h.joinEnd.ite h.joinAgain).next

theorem execBarrierArrivalCount (h : s.Formed m v) : Formed1 m v (Machine.execBarrierArrivalCount s) := by
  refine next ?_
  split
  · exact h.arrive
  · exact h

theorem execFaultRecordRelease (h : s.Formed m v) : Formed1 m v (Machine.execFaultRecordRelease s) := by
  refine next ?_
  split
  · exact h
  · exact ite (h.withPfaults.writeFault.owe.ite h.withPfaults.writeFault) h.touchRing.owe

theorem execFaultServiceTimeout (h : s.Formed m v) : Formed1 m v (Machine.execFaultServiceTimeout s) := by
  refine next ?_
  split
  · exact h.faultLate
  · exact h

/-! ### Prisms -/

theorem execPrismBind (h : s.Formed m v) : Formed1 m v (Machine.execPrismBind s) := by
  refine next ?_
  split
  · split
    · exact h.serveBind
    · exact h
  · exact h

theorem execPrismUnbind (h : s.Formed m v) : Formed1 m v (Machine.execPrismUnbind s) := by
  refine next ?_
  split
  · split
    · exact h.serveUnbind
    · exact h
  · exact h

theorem execPrismSend (h : s.Formed m v) : Formed1 m v (Machine.execPrismSend s) := by
  refine next ?_
  split
  · split
    · exact h.serveSend
    · exact h
  · exact h

theorem execPrismReceive (h : s.Formed m v) : Formed1 m v (Machine.execPrismReceive s) := by
  refine next ?_
  split
  · split
    · exact h.serveRecv
    · exact h
  · exact h

theorem execPrismStatus (h : s.Formed m v) : Formed1 m v (Machine.execPrismStatus s) := by
  refine next ?_
  split
  · split
    · exact h.serveStat
    · exact h
  · exact h

theorem execPrismSendResume (h : s.Formed m v) : Formed1 m v (Machine.execPrismSendResume s) := by
  refine next ?_
  split
  · exact h.ite h.modPort.prismResume
  · exact h

theorem execPrismReceiveResume (h : s.Formed m v) : Formed1 m v (Machine.execPrismReceiveResume s) := by
  refine next ?_
  split
  · exact h.modPort.foldl (fun h => h.prismResume) _
  · exact h

theorem execIntervalClose (h : s.Formed m v) : Formed1 m v (Machine.execIntervalClose s) := by
  refine next ?_
  split
  · split
    · exact h.closeInterval.ite h
    · exact h
  · exact h

theorem execPortWaitTimeout (h : s.Formed m v) : Formed1 m v (Machine.execPortWaitTimeout s) := by
  refine next ?_
  split
  · exact h.withdraw.portStat.trap
  · exact h

/-! ### The sequencer, components and cores -/

theorem execSequencerRootPush (h : s.Formed m v) : Formed1 m v (Machine.execSequencerRootPush s) := by
  refine next ?_
  split
  · exact h
  · exact h.ite h.withHeld.pushOrHold

theorem execComponentSuspend (h : s.Formed m v) : Formed1 m v (Machine.execComponentSuspend s) := by
  refine next (h.ite ?_)
  extract_lets x
  have hx : x.Formed m v := h.foldl (fun h => h.withdrawThread) _
  exact hx.same

theorem execComponentResume (h : s.Formed m v) : Formed1 m v (Machine.execComponentResume s) := by
  refine next (h.ite ?_)
  extract_lets s1 s2 s3 s4 done s5
  have h2 : s2.Formed m v := h.withSuspended.foldl (fun h => h.resumeThread) _
  have h3 : s3.Formed m v := h2.foldl (fun h => h.foldl (fun h => h.owe.ite h) _) _
  have h4 : s4.Formed m v := h3.foldl (fun h => h.owe.ite h) _
  have h5 : s5.Formed m v := h4.withStepsOver.foldl (fun h => h.stepEnd) _
  refine h5.foldl (fun h => ?_) _
  split
  · exact h.owe.ite h
  · exact h

theorem execComponentEnd (h : s.Formed m v) : Formed1 m v (Machine.execComponentEnd s) := by
  refine next ?_
  split
  · exact h.withDamaged.ite h.withDamaged.endComp
  · exact h.endComp.ite h

theorem execShootdownRequest (h : s.Formed m v) : Formed1 m v (Machine.execShootdownRequest s) := by
  refine next (ite (h.sdReach.ite h) ?_)
  split
  · exact h.withCwWrites.ite h.withCwWrites.sdStart
  · exact h

theorem execShootdownAck (h : s.Formed m v) : Formed1 m v (Machine.execShootdownAck s) :=
  (ite (h.sdDone.ite h) (h.ite (h.modCore.owe.ite (h.sdDone.ite h.modCore.carry)))).next

theorem execControlWindowWrite (h : s.Formed m v) : Formed1 m v (Machine.execControlWindowWrite s) := by
  refine next ?_
  split
  · dsimp only
    split
    · exact h.withCwWrites.cwWrite
    · exact h.withCwWrites
  · exact h

/-! ### The device -/

theorem execFlitReplay (h : s.Formed m v) : Formed1 m v (Machine.execFlitReplay s) :=
  (h.ite (h.modLink.foldl (fun h => h.owe) _)).next

theorem execTokenBucketSet (h : s.Formed m v) : Formed1 m v (Machine.execTokenBucketSet s) :=
  (h.tell.ite (gwDrain (h.modGw.ite h.modGw.owe))).next

theorem execTrafficMinSet (h : s.Formed m v) : Formed1 m v (Machine.execTrafficMinSet s) := (h.tell.ite h.withMins.modRx.rxGrow).next

theorem execPtpFollowUp (h : s.Formed m v) : Formed1 m v (Machine.execPtpFollowUp s) := by
  refine next ?_
  split
  · exact h.ite h.withClock.clockMoved
  · exact h

theorem execPtpDelayReq (h : s.Formed m v) : Formed1 m v (Machine.execPtpDelayReq s) := by
  refine next ?_
  split
  · exact h.mgmtPacket.ite h
  · exact h

theorem execPtpDelayResp (h : s.Formed m v) : Formed1 m v (Machine.execPtpDelayResp s) := by
  refine next ?_
  split
  · exact h.ite h.withClock
  · exact h

theorem execClaim (h : s.Formed m v) : Formed1 m v (Machine.execClaim s) := by
  refine next (h.ite ?_)
  split
  · exact h.tell
  · exact h.withMgmt.tell.oweLease

theorem execLeaseExpiry (h : s.Formed m v) : Formed1 m v (Machine.execLeaseExpiry s) :=
  (h.ite (ite (h.ite h.oweLease) h.withMgmt)).next

theorem execAttestQuote (h : s.Formed m v) : Formed1 m v (Machine.execAttestQuote s) := by
  have hf {n : Nat} : { s with free := n }.Formed m v := h.same
  exact (hf.tell.ite h).next

theorem execWarmStart (h : s.Formed m v) : Formed1 m v (Machine.execWarmStart s) := by
  refine next (h.ite (oweLease (restart fun hm => ?_)))
  split
  · exact hbmOnly_wf (h.mem hm)
  · exact Sp.wf_empty _

end Sys2Proof.Machine.State.Formed
end

section
/-!
Memory stays canonical and every VL at most VLMAX (11 R151; 03 R31; 09 R122): one step.
-/

set_option Elab.async false

namespace Sys2Proof.Machine.State.Formed

variable {m v : Prop} {s t : State}

theorem exec (h : s.Formed m v) {i : Instr} : Formed1 m v (Machine.exec i s) := by
  unfold Machine.exec
  cases i with
  | add | sub | and | or | xor | andn | slt | sltu | sll | srl | sra | fshl | fshr | min | minu | max | maxu | mul | mulh | mulhu
  | clz | ctz | popc | sextw | zextw | bswap | addi | slti | sltiu | xori | ori | andi | slli | srli | srai | lui | auipc
  | fclass | fsgnj | sysr | cbstat | nstat => exact h.put
  | div | divu | rem | remu => exact h.divide
  | beq | bne | blt | bge | bltu | bgeu => exact h.branch
  | jal | jalr => exact h.jumpLink
  | loop | loopi => exact h.setLoop
  | fadd | fsub | fmul | fdiv | fsqrt | fmin | fmax | fcvtToFp | fcvtSat | fma => exact h.fpPut
  | feq | flt | fle => exact h.fpTest
  | fcvtToInt => exact h.fpFinish
  | trap | zeroParcel | invalidInstruction => exact h.raise
  | eret => exact h.eret.next.ite h.raise
  | halt => exact h.modTh.next
  | yield => exact h.youngest.done.next
  | waite => exact h.waite.next
  | sysw => exact h.execSysw
  | segld => exact h.segld.next.ite h.raise
  | segst => exact h.segst.next
  | lb | lh | lw | ld | lbz | lhz | lwz => exact h.load.next
  | sb | sh | sw | sd => exact h.store.next
  | amoadd | amoand | amoor | amoxor | amoswap | amomin | amomax | amominu | amomaxu | amocas | amofadd | amofmaxa => exact h.execAmo
  | synld | synst | feread | feset => exact h.fullEmpty.next
  | fence _ scope => exact h.execFence scope
  | ifence => exact h.ifence.next
  | vld | vlds | vldx | vldff => exact h.execVload
  | vldz => exact h.vRun h.vldz.next
  | vst | vsts | vstx => exact h.execVstore
  | vstb => exact h.vRun h.vstore.next
  | vstz => exact h.vRun (h.raise.ite h.vstz.next)
  | vsetl | vsetli => exact h.setType
  | vadd | vsub | vrsub | vmul | vmulh | vmulhu | vmacc | vnmsac | vand | vor | vxor | vsll | vsrl | vsra | vmin | vmax | vminu | vmaxu
  | vfshl | vfshr | vclz | vpopc | vaddParcel | vsubParcel | vmulParcel | vandParcel | vorParcel | vxorParcel | vsllParcel | vsrlParcel
  | vminParcel | vmaxParcel => exact h.vInt
  | vseq | vsne | vslt | vsltu | vsle | vsleu => exact h.vCmp
  | vmerge => exact h.vRun h.putElems.vDone.next
  | vmv | vmvParcel => exact h.vMove
  | vfaddParcel | vfsubParcel | vfmulParcel | vfmaxParcel | vfminParcel | vfadd | vfsub | vfmul | vfdiv | vfsqrt | vfmacc | vfnmacc
  | vfmin | vfmax | vfsgnj | vfclass => exact h.vFp
  | vfeq | vflt | vfle => exact h.vFpCmp
  | vredsum | vredmax | vredmaxu | vredmin | vredminu | vredand | vredor => exact h.vRed
  | vfredosum | vfredtsum | vfredmax | vfredmin => exact h.vFpRed
  | vid | vslide1up | vslide1dn | vgather => exact h.vPerm
  | vslideup => exact h.execVslideup
  | vslidedn => exact h.execVslidedn
  | vcompress => exact h.vRun h.putElems.vDone.next
  | vextract => exact h.execVextract
  | vinsert => exact h.execVinsert
  | mand | mor | mxor | mandn | msbf => exact h.mLogic
  | mpopc | mfirst => exact h.mScalar
  | vcvt => exact h.vRun (h.vFpEnd h.putElems)
  | vqscale => exact h.vRun h.putElems.putElems.vDone.next
  | vdxbpack => exact h.execVdxbpack
  | vdxbunpack => exact h.execVdxbunpack
  | mzero | mma | mmar | mlda | msta | mmasN1 | mmasN2 | mmasN4 => exact h.execMatrix
  | cpy => exact h.cpy.next
  | cpym => exact h.execCpym
  | cwait => exact h.cwait.next
  | cpoll => exact h.modTh.put
  | cbwait => exact h.cbwait.next
  | cbpost => exact h.cbpost.next
  | cbfree => exact h.raise.ite h.cbFree.done.next
  | npush => exact h.npush.next
  | npushv => exact h.npush.next.ite h.raise
  | npop | npeek => exact h.npop.next
  | npopv => exact h.npop.next.ite h.raise
  | btag => exact h.btag.next
  | pbind => exact h.pbind.next
  | psend => exact h.psend.next
  | precv => exact h.precv.next
  | pstat => exact h.pstat.next
  | fork => exact h.fork.next
  | join => exact h.join.next
  | tend => exact h.execTend
  | barc | bark => exact h.arrive.next
  | matrixCommandStart => exact h.matrixStart.next
  | matrixCommandEnd => exact h.matrixEnd.next
  | mmarTileArrival => exact h.tileArrive.next
  | mmarRotationTimeout => exact h.rotationTimeout.next
  | copyStart => exact h.copyStart.next
  | copyComplete => exact h.copyComplete.next
  | cbCopySpace => exact h.cbCopy.next
  | followOnEnqueue => exact h.followOn.next
  | neighbourEntryLand => exact h.execNeighbourEntryLand
  | neighbourCreditReturn => exact (h.withCreditsBack.modThread.ite h).next
  | neighbourTimeout => exact h.execNeighbourTimeout
  | prismBind => exact h.execPrismBind
  | prismUnbind => exact h.execPrismUnbind
  | prismSend => exact h.execPrismSend
  | prismSendResume => exact h.execPrismSendResume
  | prismReceive => exact h.execPrismReceive
  | prismReceiveResume => exact h.execPrismReceiveResume
  | prismStatus => exact h.execPrismStatus
  | intervalClose => exact h.execIntervalClose
  | portWaitTimeout => exact h.execPortWaitTimeout
  | joinPoll => exact h.execJoinPoll
  | barrierArrivalCount => exact h.execBarrierArrivalCount
  | parcelFetch => exact h.parcelFetch.next
  | serviceMessage => exact h.execServiceMessage
  | feExamination => exact h.execFeExamination
  | fePeriodicExamination => exact h.execFePeriodicExamination
  | remoteReply => exact h.execRemoteReply
  | storeAcknowledge => exact h.execStoreAcknowledge
  | postedStoreAcceptance => exact h.execPostedStoreAcceptance
  | rnrRetry => exact h.execRnrRetry
  | homeApply => exact h.execHomeApply
  | gateApply => exact h.execGateApply
  | beaconReceive | flitReceive => exact h.flitArrive.next
  | beaconTimer => exact (h.ite h.flitOut).next
  | replicaUpdate | replicaDrop => exact h.withReplicas.next
  | faultRecordRelease => exact h.execFaultRecordRelease
  | faultWake => exact (h.withFwakes.faultWake.ite h).next
  | faultServiceTimeout => exact h.execFaultServiceTimeout
  | watchdog => exact (h.trapParked.ite h).next
  | wakeWordWrite => exact (h.withWakes.modThread.ite h).next
  | shootdownRequest => exact h.execShootdownRequest
  | shootdownAck => exact h.execShootdownAck
  | controlWindowWrite => exact h.execControlWindowWrite
  | taskTake => exact h.taskTake.next
  | stealRequest => exact h.stealRequest.next
  | stealService => exact h.stealService.next
  | stealReply => exact h.stealReply.next
  | stealBackoffExpiry => exact (h.ite h.modCore.seekWork).next
  | stepSlot => exact h.stepSlot.next
  | sequencerRootPush => exact h.execSequencerRootPush
  | mailboxWrite => exact h.mailboxWrite.next
  | programResident => exact (h.ite (h.bare.tables.place.windows.start.ite h.tell)).next
  | programRemove => exact (h.bare.ite h.tell).next
  | componentSuspend => exact h.execComponentSuspend
  | componentResume => exact h.execComponentResume
  | componentEnd => exact h.execComponentEnd
  | scrubRead => exact h.scrub.next
  | debugHalt => exact (h.ite h.withdrawThread.abandon.modThread).next
  | debugResume => exact (h.ite h.modThread).next
  | flitReplay => exact h.execFlitReplay
  | ergPacketReceive => exact (h.gwOrder.ite h.ergReceive).next
  | gatewayResendTimeout => exact h.gwResend.next
  | tokenAdd => exact h.tokenAdd.next
  | tokenBucketSet => exact h.execTokenBucketSet
  | trafficMinSet => exact h.execTrafficMinSet
  | ptpSync | ptpAnnounce => exact (h.withClock.ite h).next
  | ptpFollowUp => exact h.execPtpFollowUp
  | ptpDelayReq => exact h.execPtpDelayReq
  | ptpDelayResp => exact h.execPtpDelayResp
  | claim => exact h.execClaim
  | renew => exact (h.withMgmt.oweLease.ite h).next
  | handover | accept | recoveryImage => exact (h.withMgmt.ite h).next
  | leaseExpiry => exact h.execLeaseExpiry
  | attestQuote => exact h.execAttestQuote
  | managementRead => exact (h.tell.ite h).next
  | coldStart => exact (restart fun _ => Sp.wf_empty _).next
  | warmStart => exact h.execWarmStart
  | thermalAlarm => exact h.tell.next
  | thermalTrip => exact h.same.next

theorem event (h : s.Formed m v) {e : Event} : Formed1 m v (s.event e) := h.withArg.exec.ite h.next

theorem issue (h : s.Formed m v) {t : Nat} : Formed1 m v (s.issue t) := by
  unfold State.issue
  have h := h.startIssue (t := t)
  dsimp only
  split
  · exact h.modThread.trap.next
  · split
    · exact h.modThread.trap.next
    · have hf := h.fetchInstr (t := t)
      split
      next e => exact (hf.of_engineDue e).next
      next =>
        split
        · split
          · exact hf.useFetched.exec
          · exact hf.useFetched.exec
          · exact hf.useFetched.next
        · exact hf.fetchFail.next

theorem step (h : s.Formed m v) : Formed1 m v (Machine.step s) := by
  have hn {f : Fault} : Formed1 m v (.fault f) := fun _ e => by cases e
  unfold Machine.step
  split
  · exact hn.ite h.withAgenda.event
  · refine hn.ite ?_
    dsimp only
    split
    · exact h.withPending.event
    · split
      · exact h.withSlot.issue
      · split
        · exact h.withSlot.event
        · exact h.withSlot.event
      · exact h.endCycle.next

end Sys2Proof.Machine.State.Formed

namespace Sys2Proof.Proofs
open Sys2Proof.Machine

/-- Settles O59: every operation of the model keeps `State.Formed`, memory in canonical form and VL at most VLMAX. -/
theorem stepKeepsMemoryForm : Obligations.StepKeepsMemoryForm := by
  unfold Obligations.StepKeepsMemoryForm
  intro s t hst
  have h : s.Formed s.memOk (∀ u, (s.thread u).vlFits) := ⟨id, id⟩
  exact ⟨(h.step t hst).mem, (h.step t hst).vl⟩

end Sys2Proof.Proofs
end

section
/-! What reset leaves (03 R24, R27, R29; log entry 3): every thread is `Thread.init` and every core `Core.init`. -/

namespace Sys2Proof.Machine

theorem reset_thread (t : Nat) : State.reset.thread t = Thread.init := rfl

/-- No write of a per-core register is recent. -/
theorem reset_regAt (c k : Nat) : State.reset.regAt c k = Core.init.regs.get 0 k := rfl

theorem Thread.init_rd (r : Reg) : Thread.init.rd r = 0 := by
  unfold Thread.rd
  split <;> rfl

theorem Thread.init_rdM {r : MReg} (h : r ≠ 0) : Thread.init.rdM r = 0 := by
  rw [Thread.rdM, if_neg h]
  rfl

/-- BFMT b is register 16 + b. -/
theorem Core.init_bfmt : ∀ b, b < 16 → Core.init.regs.get 0 (16 + b) = 0x7F00 := by decide

/-- Registers 0 to 7 come before those of BFMT. -/
theorem Core.init_percore : ∀ i, i < 8 → Core.init.regs.get 0 i = 0 := by decide

end Sys2Proof.Machine

namespace Sys2Proof.Proofs
open Sys2Proof.Machine

/-- Settles O60: the maps of `State.reset` list nothing, so each read answers the reset value of its kind. -/
theorem resetValues : Obligations.ResetValues := by
  unfold Obligations.ResetValues
  refine ⟨rfl, rfl, rfl, rfl, fun _ => rfl, fun _ => rfl, fun _ => rfl, fun t => ?_, fun c => ?_⟩
  · rw [reset_thread]
    exact ⟨rfl, rfl, Thread.init_rd, fun _ => Thread.init_rdM, rfl, rfl, rfl, rfl, rfl, fun _ => ⟨rfl, rfl⟩⟩
  · simp only [reset_regAt]
    exact ⟨Core.init_bfmt, Core.init_percore, rfl, rfl, rfl, rfl, rfl⟩

end Sys2Proof.Proofs
end

section
/-! SYSW refuses (03 R30; 07 R113). -/

namespace Sys2Proof.Machine

/-- A word without any bit of a mask is at most what the mask leaves. -/
theorem toNat_le_of_and_eq_zero {v k : Word} (h : v &&& k = 0) : v.toNat ≤ (~~~k).toNat := by
  have hv : v = v &&& ~~~k := by
    calc v = v &&& (k ||| ~~~k) := by rw [BitVec.or_not_self, BitVec.and_allOnes]
      _ = (v &&& k) ||| (v &&& ~~~k) := BitVec.and_or_distrib_left ..
      _ = v &&& ~~~k := by
        rw [h]
        exact BitVec.zero_or
  rw [hv, BitVec.toNat_and]
  exact Nat.and_le_right

theorem and_ne_zero_of_lt {v k : Word} (h : (~~~k).toNat < v.toNat) : v &&& k ≠ 0 :=
  fun e => Nat.not_le.2 h (toNat_le_of_and_eq_zero e)

theorem and_one_ne_zero {v : Word} (h : v.getLsbD 0 = true) : v &&& 1 ≠ 0 := by
  intro e
  have hb : (v &&& 1).getLsbD 0 = false := by rw [e]; rfl
  rw [BitVec.getLsbD_and, h] at hb
  exact absurd hb (by decide)

/-! ### The cause of a SYSW, case by case -/

theorem sysWriteCause_readOnly {n : Nat} (v : Word) (p : Bool) (hn : sysAcc n = .ro) : sysWriteCause n v p = some 0x07 := if_pos (.inl hn)

theorem sysWriteCause_unprivileged {n : Nat} (v : Word) (hn : sysAcc n = .priv) : sysWriteCause n v false = some 0x07 :=
  if_pos (.inr ⟨hn, rfl⟩)

/-- The access of a register permits a write. -/
def sysMayWrite (n : Nat) (p : Bool) : Prop := sysAcc n = .rw ∨ (sysAcc n = .priv ∧ p = true)

theorem sysMayWrite_of_le {n : Nat} {p : Bool} (h : 0x100 ≤ n) : sysMayWrite n p := .inl (if_pos (.inr (.inr h)))

theorem sysReserved_bfmt : ∀ i, i < 16 → sysReserved (0x110 + i) = 0xFFFFFFFFFFFF00F0 := by decide
theorem sysReserved_cbLow : ∀ i, i < 16 → sysReserved (0x120 + 2 * i) = 0xFFFFFFFFFE000000 := by decide

theorem sysWriteCause_value {n : Nat} (v : Word) {p : Bool} (hn : sysMayWrite n p) : sysWriteCause n v p = sysValueCause n v := by
  obtain h | ⟨h, rfl⟩ := hn <;> simp [sysWriteCause, h]

theorem sysWriteCause_reserved {n : Nat} {v : Word} {p : Bool} (hn : sysMayWrite n p) (hv : v &&& sysReserved n ≠ 0) :
    sysWriteCause n v p = some 0x03 := (sysWriteCause_value v hn).trans (if_pos hv)

/-- A BFMT register with a reserved format code. -/
theorem sysWriteCause_format {i : Nat} {v : Word} {p : Bool} (hi : i < 16) (hv : v &&& sysReserved (0x110 + i) = 0)
    (hf : 9 < v.toNat % 16) : sysWriteCause (0x110 + i) v p = some 0x0A := by
  rw [sysWriteCause_value v (sysMayWrite_of_le (by omega)), sysValueCause, if_neg (not_not.2 hv), if_neg (by omega),
    if_pos ⟨by omega, by omega, hf⟩]

/-- SYSW raises the cause of its value and register, and does nothing else. -/
theorem sysw_refuses {b : Reg} {n : Nat} {s : State} {c : Cause} (hn : n < 2 ^ 12)
    (hc : sysWriteCause n (s.g b) s.th.privileged = some c) :
    Spec.Answers (.sysw (BitVec.ofNat 12 n) b) s (Spec.trapped s c (ibits (.sysw (BitVec.ofNat 12 n) b))) := by
  have he : exec (.sysw (BitVec.ofNat 12 n) b) s = s.raise c (ibits (.sysw (BitVec.ofNat 12 n) b)) := by
    unfold exec execSysw
    simp only [BitVec.toNat_ofNat, Nat.mod_eq_of_lt hn, hc]
  rw [Spec.Answers, he]
  exact Spec.raise_trapped ..

end Sys2Proof.Machine

namespace Sys2Proof.Proofs
open Sys2Proof.Machine

/-- Settles O13: each case is a branch of `sysWriteCause`, which `sysw_refuses` turns into the trap. -/
theorem syswRefuses : Obligations.SyswRefuses := by
  unfold Obligations.SyswRefuses
  intro b n s v priv refuses
  have hr {n : Nat} {c : Cause} (hn : n < 2 ^ 12) (hc : sysWriteCause n v s.th.privileged = some c) : refuses n c := sysw_refuses hn hc
  have hreserved {n : Nat} (hn : n < 2 ^ 12) (hw : sysMayWrite n s.th.privileged) (hv : v &&& sysReserved n ≠ 0) : refuses n 0x03 :=
    hr hn (sysWriteCause_reserved hw hv)
  refine ⟨?_, fun h => ?_, fun h => ?_, fun hp h => ?_, fun hp h => ⟨?_, ?_⟩, fun hp h => ?_, fun hp h => ?_, fun i hi h => ?_,
    fun i hi h hf => ?_, fun i hi h => ?_⟩
  · rintro (hn | ⟨hn, hp⟩)
    · have hro : n < 2 ^ 12 ∧ sysAcc n = .ro := by revert n; decide
      exact hr hro.1 (sysWriteCause_readOnly v _ hro.2)
    · have hpr : n < 2 ^ 12 ∧ sysAcc n = .priv := by revert n; decide
      have hf : s.th.privileged = false := Bool.eq_false_iff.2 hp
      exact hr hpr.1 (hf ▸ sysWriteCause_unprivileged v hpr.2)
  · exact hreserved (by decide) (.inl rfl) (and_ne_zero_of_lt h)
  · exact hreserved (by decide) (.inl rfl) h
  · exact hreserved (by decide) (.inr ⟨rfl, hp⟩) (and_ne_zero_of_lt h)
  · exact hreserved (by decide) (.inr ⟨rfl, hp⟩) (and_one_ne_zero h)
  · exact hreserved (by decide) (.inr ⟨rfl, hp⟩) (and_one_ne_zero h)
  · exact hreserved (by decide) (.inr ⟨rfl, hp⟩) (and_ne_zero_of_lt h)
  · exact hreserved (by decide) (.inr ⟨rfl, hp⟩) (and_ne_zero_of_lt h)
  · exact hreserved (by omega) (sysMayWrite_of_le (by omega)) ((sysReserved_bfmt i hi).symm ▸ h)
  · exact hr (by omega) (sysWriteCause_format hi ((sysReserved_bfmt i hi).symm ▸ h) hf)
  · exact hreserved (by omega) (sysMayWrite_of_le (by omega)) ((sysReserved_cbLow i hi).symm ▸ and_ne_zero_of_lt h)

end Sys2Proof.Proofs
end

section
/-! Special results of floating point (03 R38; 07 R97). -/

namespace Sys2Proof.Machine

/-! ### A code and its fields -/

/-- The exponent field and the fraction field of a code. -/
def Fmt.expOf (f : Fmt) (c : Nat) : Nat := c / 2 ^ f.fb % 2 ^ f.eb
def Fmt.fracOf (f : Fmt) (c : Nat) : Nat := c % 2 ^ f.fb

theorem Fmt.fracOf_lt (f : Fmt) (c : Nat) : f.fracOf c < 2 ^ f.fb := Nat.mod_lt _ (Nat.two_pow_pos _)
theorem Fmt.expOf_lt (f : Fmt) (c : Nat) : f.expOf c < 2 ^ f.eb := Nat.mod_lt _ (Nat.two_pow_pos _)

/-- A code is put together again from its fields. -/
theorem Fmt.sign_fields (f : Fmt) {c : Nat} (h : c < 2 ^ f.width) :
    f.sign (c / 2 ^ (f.eb + f.fb) % 2 == 1) (f.expOf c * 2 ^ f.fb + f.fracOf c) = c := by
  have hmag : f.expOf c * 2 ^ f.fb + f.fracOf c = c % 2 ^ (f.eb + f.fb) := by
    rw [Fmt.expOf, Fmt.fracOf, Nat.add_comm f.eb, Nat.pow_add, Nat.mod_mul, Nat.mul_comm, Nat.add_comm]
  have htop : c / 2 ^ (f.eb + f.fb) < 2 := by
    rw [Nat.div_lt_iff_lt_mul (Nat.two_pow_pos _)]
    rwa [Fmt.width, Nat.add_assoc, Nat.pow_add, Nat.pow_one] at h
  have hc := Nat.div_add_mod c (2 ^ (f.eb + f.fb))
  rw [hmag, Nat.mod_eq_of_lt htop]
  obtain h0 | h1 := Nat.le_one_iff_eq_zero_or_eq_one.1 (Nat.le_of_lt_succ htop)
  · rw [h0] at hc ⊢
    simpa [Fmt.sign] using hc
  · rw [h1] at hc ⊢
    simpa [Fmt.sign] using hc

/-- What a finite value says of its code: zero or subnormal, or normal and below what stands for NaN and infinity. -/
theorem decodeF_fin {f : Fmt} {c : Nat} {n : Bool} {m : Nat} {e : Int} (h : decodeF f c = .fin n m e) :
    n = (c / 2 ^ (f.eb + f.fb) % 2 == 1) ∧
    ((f.expOf c = 0 ∧ m = f.fracOf c ∧ e = f.emin - f.fb) ∨
     (f.expOf c ≠ 0 ∧ m = f.fracOf c + 2 ^ f.fb ∧ e = (f.expOf c : Int) - f.bias - f.fb ∧
       (f.expOf c = 2 ^ f.eb - 1 → f.e4m3 = true ∧ f.fracOf c ≠ 2 ^ f.fb - 1))) := by
  unfold decodeF at h
  dsimp only at h
  split at h
  · cases h
  next h8 =>
    split at h
    · split at h <;> cases h
    next hi =>
      split at h
      next h0 =>
        cases h
        exact ⟨rfl, .inl ⟨h0, rfl, rfl⟩⟩
      next h0 =>
        cases h
        refine ⟨rfl, .inr ⟨h0, rfl, rfl, fun ht => ?_⟩⟩
        rw [Fmt.expOf] at ht
        simp only [ht, beq_self_eq_true, Bool.and_true, Bool.not_eq_true', Bool.and_eq_true, beq_iff_eq] at h8 hi
        rw [Bool.not_eq_false] at hi
        exact ⟨hi, fun hf => h8 ⟨hi, hf⟩⟩

/-! ### Rounding a value that the format holds -/

theorem log2Rat_one {m : Nat} (h : m ≠ 0) : log2Rat m 1 = Nat.log2 m := by
  have := Nat.log2_self_le h
  simp [log2Rat, this, show Nat.log2 1 = 0 from rfl]

theorem divPow_zero (m : Nat) : divPow m 1 0 = (m, 0, 1) := by simp [divPow, Nat.mod_one]

theorem roundMag_exact (rm : RMode) (neg : Bool) (q : Nat) : roundMag rm neg q 0 1 = q := by cases rm <;> simp [roundMag]

/-- A magnitude whose last place is the format's at the exponent `ex` at which it is rounded is its own code. -/
theorem roundRat_exact {f : Fmt} {rm : RMode} {sat neg : Bool} {m : Nat} {e ex : Int} (hm : m ≠ 0)
    (hex : max ((Nat.log2 m : Int) + e) f.emin = ex) (hk : e - ex + f.fb = 0) (hlow : ex ≤ f.emax) (hmax : ex = f.emax → m ≤ f.mmax) :
    roundRat f rm sat neg m 1 e = (f.sign neg ((ex - f.emin).toNat * 2 ^ f.fb + m), 0) := by
  have hover : ¬ ((decide (f.emax < ex) || (ex == f.emax && decide (f.mmax < m))) = true) := by
    simp only [Bool.or_eq_true, Bool.and_eq_true, decide_eq_true_eq, beq_iff_eq]
    omega
  unfold roundRat
  rw [if_neg hm, log2Rat_one hm]
  dsimp only
  rw [hex, hk, divPow_zero]
  dsimp only
  rw [roundMag_exact, if_neg hover]
  simp

theorem Fmt.emax_eq {f : Fmt} (hf : 2 ≤ f.eb) : f.emax = ((2 ^ f.eb - (if f.e4m3 then 1 else 2) : Nat) : Int) - f.bias := by
  have h4 : 2 ^ 2 ≤ 2 ^ f.eb := Nat.pow_le_pow_right (by decide) hf
  have hcast : (2 : Int) ^ f.eb = ((2 ^ f.eb : Nat) : Int) := (Int.natCast_pow 2 f.eb).symm
  unfold Fmt.emax
  split <;> omega

/-- A subnormal or zero rounds to its own code. -/
theorem roundRat_subnormal {f : Fmt} (hf : 2 ≤ f.eb) {rm : RMode} {sat n : Bool} {m : Nat} (hm : m < 2 ^ f.fb) :
    roundRat f rm sat n m 1 (f.emin - f.fb) = (f.sign n m, 0) := by
  by_cases h0 : m = 0
  · rw [h0, roundRat, if_pos rfl]
  have h4 : 2 ^ 2 ≤ 2 ^ f.eb := Nat.pow_le_pow_right (by decide) hf
  have hlog := (Nat.log2_lt h0).2 hm
  have hlow : f.emin < f.emax := by
    rw [Fmt.emax_eq hf, Fmt.emin]
    split <;> omega
  rw [roundRat_exact (ex := f.emin) h0 (by omega) (by omega) (Int.le_of_lt hlow) (by omega), Int.sub_self, Int.toNat_zero, Nat.zero_mul,
    Nat.zero_add]

/-- A normal value that is neither an infinity's nor a NaN's rounds to its own code. -/
theorem roundRat_normal {f : Fmt} (hf : 2 ≤ f.eb) {rm : RMode} {sat n : Bool} {x m : Nat} (hm : m < 2 ^ f.fb) (h0 : x ≠ 0)
    (hx : x < 2 ^ f.eb) (htop : x = 2 ^ f.eb - 1 → f.e4m3 = true ∧ m ≠ 2 ^ f.fb - 1) :
    roundRat f rm sat n (m + 2 ^ f.fb) 1 ((x : Int) - f.bias - f.fb) = (f.sign n (x * 2 ^ f.fb + m), 0) := by
  have h4 : 2 ^ 2 ≤ 2 ^ f.eb := Nat.pow_le_pow_right (by decide) hf
  have hm0 : m + 2 ^ f.fb ≠ 0 := by have := Nat.two_pow_pos f.fb; omega
  have hpow : 2 ^ (f.fb + 1) = 2 * 2 ^ f.fb := Nat.pow_succ'
  have hlog : Nat.log2 (m + 2 ^ f.fb) = f.fb := (Nat.log2_eq_iff hm0).2 ⟨by omega, by omega⟩
  obtain ⟨hlow, hmax⟩ : (x : Int) - f.bias ≤ f.emax ∧ ((x : Int) - f.bias = f.emax → m + 2 ^ f.fb ≤ f.mmax) := by
    rw [Fmt.emax_eq hf, Fmt.mmax]
    cases h8 : f.e4m3
    · have hx2 : x ≠ 2 ^ f.eb - 1 := fun h => Bool.noConfusion ((htop h).1.symm.trans h8)
      simp only [Bool.false_eq_true, if_false]
      exact ⟨by omega, fun _ => by omega⟩
    · simp only [if_true]
      refine ⟨by omega, fun h => ?_⟩
      have := (htop (by omega)).2
      omega
  rw [roundRat_exact hm0 (ex := (x : Int) - f.bias) (by rw [hlog, Fmt.emin]; omega) (by omega) hlow hmax]
  have hunits : ((x : Int) - f.bias - f.emin).toNat = x - 1 := by rw [Fmt.emin]; omega
  rw [hunits]
  obtain ⟨y, rfl⟩ := Nat.exists_eq_succ_of_ne_zero h0
  rw [Nat.succ_sub_one, Nat.succ_mul, Nat.add_assoc, Nat.add_comm m]

theorem two_le_eb : ∀ f ∈ [FP64, FP32, FP16, BF16, E4M3, E5M2], 2 ≤ f.eb := by decide

/-- A finite value rounds to its own code. -/
theorem roundRat_decodeF {f : Fmt} (hf : 2 ≤ f.eb) {rm : RMode} {sat : Bool} {c : Nat} (hc : c < 2 ^ f.width) {n : Bool} {m : Nat}
    {e : Int} (h : decodeF f c = .fin n m e) : roundRat f rm sat n m 1 e = (c, 0) := by
  have hcode := f.sign_fields hc
  obtain ⟨rfl, ⟨h0, rfl, rfl⟩ | ⟨h0, rfl, rfl, htop⟩⟩ := decodeF_fin h
  · rw [h0, Nat.zero_mul, Nat.zero_add] at hcode
    rw [roundRat_subnormal hf (f.fracOf_lt c), hcode]
  · rw [roundRat_normal hf (f.fracOf_lt c) h0 (f.expOf_lt c) htop, hcode]

/-- A zero's code is its sign. -/
theorem sign_of_zero {f : Fmt} {c : Nat} (hc : c < 2 ^ f.width) {n : Bool} {e : Int} (h : decodeF f c = .fin n 0 e) : f.sign n 0 = c := by
  have hcode := f.sign_fields hc
  obtain ⟨rfl, ⟨h0, hm, -⟩ | ⟨-, hm, -⟩⟩ := decodeF_fin h
  · rwa [h0, ← hm, Nat.zero_mul] at hcode
  · have := Nat.two_pow_pos f.fb
    omega

theorem roundOp_zero (f : Fmt) (rm : RMode) (n : Bool) (e : Int) : roundOp f rm (.fin n 0 e, 0) = (f.sign n 0, 0) := by
  simp [roundOp, roundTo, roundRat]

/-! ### The operations at their special operands -/

theorem addDy_neg (n : Bool) (m : Nat) (e : Int) : (addDy (toDy n m e) (toDy (!n) m e)).1 = 0 := by
  cases n <;> simp [addDy, toDy]

/-- The sum of exact opposites. -/
theorem addV_opposite (rm : RMode) (n : Bool) (m : Nat) (e : Int) :
    addV rm (.fin n m e) (.fin (!n) m e) = (.fin (rm == .rdn) 0 0, 0) := by
  have hne : n ≠ !n := by cases n <;> decide
  unfold addV
  dsimp only
  rw [if_pos (addDy_neg n m e), if_neg hne]

end Sys2Proof.Machine

namespace Sys2Proof.Proofs
open Sys2Proof.Machine

/-- Settles O5: a held value is rounded at its own last place (`roundRat_decodeF`); the special results are branches of the operations. -/
theorem floatSpecialResults : Obligations.FloatSpecialResults := by
  unfold Obligations.FloatSpecialResults
  refine ⟨fun f hf rm sat c hc n m e h => ?_, fun k rm a b ha hb => ⟨?_, ?_, ?_, ?_, ?_, ?_⟩⟩
  · rw [h]
    exact roundRat_decodeF (two_le_eb f hf) hc h
  · intro n m e p q hx hm hy
    simp [fDiv, hx, hy, hm]
  · intro n e p q hx hy
    simp [fDiv, hx, hy]
  · intro n p hx hy
    simp [fDiv, hx, hy]
  · intro m e hx hm
    simp [fSqrt, hx, hm]
  · intro n e hx
    simp [fSqrt, hx, sign_of_zero ha hx]
  · intro n m e hx _ hy
    rw [fAdd, hy, hx, FVal.neg, addV_opposite, roundOp_zero]

end Sys2Proof.Proofs
end

section
/-!
05: the codes of operands and the formats of words, each read back from what the encoder puts together.
-/

namespace Sys2Proof

/-! ### Codes of operands (05 R50, R51, R58, R61, R62, R66, R70, R73) -/

@[simp] theorem rg_val (r : Reg) : rg r.val = r := Fin.ofNat_val_eq_self r
@[simp] theorem mr_val (r : MReg) : mr r.val = r := Fin.ofNat_val_eq_self r
@[simp] theorem val_rg (n : Nat) : (rg n).val = n % 32 := rfl
@[simp] theorem val_mr (n : Nat) : (mr n).val = n % 8 := rfl

@[simp] theorem withCls_code (k : RClass) (g : RClass → Dec) : withCls k.code g = g k := by cases k <;> rfl
@[simp] theorem withRnd_code (r : Rnd) (g : Rnd → Dec) : withRnd r.code g = g r := by cases r <;> rfl
@[simp] theorem withCvt_code (t : CvtTy) (g : CvtTy → Dec) : withCvt t.code g = g t := by cases t <;> rfl
@[simp] theorem withVty_code (t : VTy) (g : VTy → Dec) : withVty t.code g = g t := by cases t <;> rfl
@[simp] theorem withDir_code (d : Dir) (g : Dir → Dec) : withDir d.code g = g d := by cases d <;> rfl
@[simp] theorem scopeOf_code (s : Scope) : scopeOf s.code = some s := by cases s <;> rfl
@[simp] theorem fmtOf_code (f : FFmt) : fmtOf f.code = f := by cases f <;> rfl
@[simp] theorem formOf_code (f : VForm) : formOf f.code = f := by cases f <;> rfl
@[simp] theorem ewOf_code (e : Ew) : ewOf e.code = e := by cases e <;> rfl
@[simp] theorem bool1_bit (b : Bool) : bool1 (bit b) = b := by cases b <;> rfl

@[simp] theorem RClass.code_lt {n : Nat} (h : 3 ≤ n) (k : RClass) : k.code < n := Nat.lt_of_lt_of_le (by cases k <;> decide) h
@[simp] theorem Rnd.code_lt {n : Nat} (h : 5 ≤ n) (r : Rnd) : r.code < n := Nat.lt_of_lt_of_le (by cases r <;> decide) h
@[simp] theorem FFmt.code_lt {n : Nat} (h : 4 ≤ n) (f : FFmt) : f.code < n := Nat.lt_of_lt_of_le (by cases f <;> decide) h
@[simp] theorem CvtTy.code_lt {n : Nat} (h : 8 ≤ n) (t : CvtTy) : t.code < n := Nat.lt_of_lt_of_le (by cases t <;> decide) h
@[simp] theorem VTy.code_lt {n : Nat} (h : 11 ≤ n) (t : VTy) : t.code < n := Nat.lt_of_lt_of_le (by cases t <;> decide) h
@[simp] theorem VForm.code_lt {n : Nat} (h : 4 ≤ n) (f : VForm) : f.code < n := Nat.lt_of_lt_of_le (by cases f <;> decide) h
@[simp] theorem Ew.code_lt {n : Nat} (h : 4 ≤ n) (e : Ew) : e.code < n := Nat.lt_of_lt_of_le (by cases e <;> decide) h
@[simp] theorem Dir.code_lt {n : Nat} (h : 5 ≤ n) (d : Dir) : d.code < n := Nat.lt_of_lt_of_le (by cases d <;> decide) h
@[simp] theorem Scope.code_lt {n : Nat} (h : 5 ≤ n) (s : Scope) : s.code < n := Nat.lt_of_lt_of_le (by cases s <;> decide) h
@[simp] theorem bit_lt {n : Nat} (h : 2 ≤ n) (b : Bool) : bit b < n := Nat.lt_of_lt_of_le (by cases b <;> decide) h

@[simp] theorem need3_eq_ok {ok : Bool} {x : Dec} {i : Instr} : need3 ok x = .ok i ↔ ok = true ∧ x = .ok i := by
  cases ok <;> simp [need3]

theorem bit_lt_two (b : Bool) : bit b < 2 := bit_lt (Nat.le_refl 2) b

/-! A code that stands for something is the code of that. -/

theorem clsOf_eq_some {n : Nat} {k : RClass} : clsOf n = some k ↔ n = k.code := by
  constructor
  · unfold clsOf
    split <;> intro h <;> cases h <;> rfl
  · rintro rfl
    cases k <;> rfl

theorem rndOf_eq_some {n : Nat} {r : Rnd} : rndOf n = some r ↔ n = r.code := by
  constructor
  · unfold rndOf
    split <;> intro h <;> cases h <;> rfl
  · rintro rfl
    cases r <;> rfl

theorem cvtOf_eq_some {n : Nat} {t : CvtTy} : cvtOf n = some t ↔ n = t.code := by
  constructor
  · unfold cvtOf
    split <;> intro h <;> cases h <;> rfl
  · rintro rfl
    cases t <;> rfl

theorem vtyOf_eq_some {n : Nat} {t : VTy} : vtyOf n = some t ↔ n = t.code := by
  constructor
  · unfold vtyOf
    split <;> intro h <;> cases h <;> rfl
  · rintro rfl
    cases t <;> rfl

theorem dirOf_eq_some {n : Nat} {d : Dir} : dirOf n = some d ↔ n = d.code := by
  constructor
  · unfold dirOf
    split <;> intro h <;> cases h <;> rfl
  · rintro rfl
    cases d <;> rfl

theorem scopeOf_eq_some {n : Nat} {s : Scope} : scopeOf n = some s ↔ n = s.code := by
  constructor
  · unfold scopeOf
    split <;> intro h <;> cases h <;> rfl
  · rintro rfl
    cases s <;> rfl

theorem formOf_eq_iff {n : Nat} {v : VForm} (h : n < 4) : formOf n = v ↔ n = v.code := by
  constructor
  · rintro rfl
    interval_cases n <;> rfl
  · rintro rfl
    cases v <;> rfl

theorem code_formOf {n : Nat} (h : n < 4) : (formOf n).code = n := ((formOf_eq_iff h).1 rfl).symm
theorem code_fmtOf {n : Nat} (h : n < 4) : (fmtOf n).code = n := by interval_cases n <;> rfl
theorem code_ewOf {n : Nat} (h : n < 4) : (ewOf n).code = n := by interval_cases n <;> rfl
theorem bit_bool1 (n : Nat) : bit (bool1 n) = n % 2 := by
  obtain h | h := Nat.mod_two_eq_zero_or_one n <;> simp [bool1, bit, h]
theorem bit_beq_one_of_le {n : Nat} (h : n ≤ 1) : bit (n == 1) = n := by interval_cases n <;> rfl
theorem bool1_eq_false {n : Nat} : bool1 n = false ↔ n % 2 = 0 := by simp [bool1]

/-! ### Formats (05 R48): the fields that the encoder puts together are read back -/

section
variable {M a b c f7 f3 imm cond k width f5 two three ew mode m : Nat}

@[simp] theorem encR_major : (encR M a b c f7 f3).major = M := rfl
@[simp] theorem encR_a : (encR M a b c f7 f3).a = a := rfl
@[simp] theorem encR_b : (encR M a b c f7 f3).b = b := rfl
@[simp] theorem encR_c : (encR M a b c f7 f3).c = c := rfl
@[simp] theorem encR_hi : (encR M a b c f7 f3).hi = 8 * f7 + f3 := rfl

@[simp] theorem encI_major : (encI M a b f3 imm).major = M := rfl
@[simp] theorem encI_a : (encI M a b f3 imm).a = a := rfl
@[simp] theorem encI_b : (encI M a b f3 imm).b = b := rfl
theorem encI_ifmt : (encI M a b f3 imm).ifmt = 8 * imm + f3 := Nat.mod_add_div ..
@[simp] theorem encI_f3 (h : f3 < 8) : (encI M a b f3 imm).ifmt % 8 = f3 := by rw [encI_ifmt]; omega
@[simp] theorem encI_imm (h : f3 < 8) : (encI M a b f3 imm).ifmt / 8 = imm := by rw [encI_ifmt]; omega
@[simp] theorem encI_top (h : f3 < 8) : (encI M a b f3 imm).ifmt / 512 = imm / 64 := by rw [encI_ifmt]; omega

@[simp] theorem encU_major : (encU M a imm).major = M := rfl
@[simp] theorem encU_a : (encU M a imm).a = a := rfl
@[simp] theorem encU_uimm (i : BitVec 20) : (encU M a i.toNat).uimm = i := by
  have h : i.toNat % 32 + 32 * (i.toNat / 32 % 32) + 1024 * (i.toNat / 1024) = i.toNat := by omega
  rw [Fields.uimm, encU, h, BitVec.ofNat_toNat, BitVec.setWidth_eq]

@[simp] theorem encB_major : (encB M b c cond imm).major = M := rfl
@[simp] theorem encB_b : (encB M b c cond imm).b = b := rfl
@[simp] theorem encB_c : (encB M b c cond imm).c = c := rfl
@[simp] theorem encB_cond (h : cond < 8) : (encB M b c cond imm).hi % 8 = cond := by dsimp only [encB]; omega
@[simp] theorem encB_bimm {i : BitVec 12} (h : cond < 8) : (encB M b c cond i.toNat).bimm = i := by
  have h : i.toNat % 32 + 32 * ((8 * (i.toNat / 32) + cond) / 8) = i.toNat := by omega
  rw [Fields.bimm, encB, h, BitVec.ofNat_toNat, BitVec.setWidth_eq]

@[simp] theorem encL_major : (encL M a b k width imm).major = M := rfl
@[simp] theorem encL_a : (encL M a b k width imm).a = a := rfl
@[simp] theorem encL_b : (encL M a b k width imm).b = b := rfl
@[simp] theorem encL_class (hk : k < 4) (hw : width < 8) : (encL M a b k width imm).hi / 8 % 4 = k := by dsimp only [encL]; omega
@[simp] theorem encL_width (hw : width < 8) : (encL M a b k width imm).hi % 8 = width := by dsimp only [encL]; omega
@[simp] theorem encL_imm (hk : k < 4) (hw : width < 8) :
    (encL M a b k width imm).c + 32 * ((encL M a b k width imm).hi / 32) = imm := by dsimp only [encL]; omega

@[simp] theorem encS_major : (encS M b c k width imm).major = M := rfl
@[simp] theorem encS_b : (encS M b c k width imm).b = b := rfl
@[simp] theorem encS_c : (encS M b c k width imm).c = c := rfl
@[simp] theorem encS_class (hk : k < 4) (hw : width < 8) : (encS M b c k width imm).hi / 8 % 4 = k := by dsimp only [encS]; omega
@[simp] theorem encS_width (hw : width < 8) : (encS M b c k width imm).hi % 8 = width := by dsimp only [encS]; omega
@[simp] theorem encS_imm (hk : k < 4) (hw : width < 8) :
    (encS M b c k width imm).a + 32 * ((encS M b c k width imm).hi / 32) = imm := by dsimp only [encS]; omega

@[simp] theorem encV_major : (encV M a b c f5 two three).major = M := rfl
@[simp] theorem encV_a : (encV M a b c f5 two three).a = a := rfl
@[simp] theorem encV_b : (encV M a b c f5 two three).b = b := rfl
@[simp] theorem encV_c : (encV M a b c f5 two three).c = c := rfl
@[simp] theorem encV_f5 (h2 : two < 4) (h3 : three < 8) : (encV M a b c f5 two three).hi / 32 = f5 := by dsimp only [encV]; omega
@[simp] theorem encV_div64 (h2 : two < 4) (h3 : three < 8) :
    (encV M a b c f5 two three).hi / 64 = f5 / 2 := by dsimp only [encV]; omega
@[simp] theorem encV_div128 (h2 : two < 4) (h3 : three < 8) :
    (encV M a b c f5 two three).hi / 128 = f5 / 4 := by dsimp only [encV]; omega
@[simp] theorem encV_div512 (h2 : two < 4) (h3 : three < 8) :
    (encV M a b c f5 two three).hi / 512 = f5 / 16 := by dsimp only [encV]; omega
@[simp] theorem encV_two (h2 : two < 4) (h3 : three < 8) : (encV M a b c f5 two three).hi / 8 % 4 = two := by
  dsimp only [encV]; omega
@[simp] theorem encV_three (h3 : three < 8) : (encV M a b c f5 two three).hi % 8 = three := by dsimp only [encV]; omega

@[simp] theorem encV_low (h2 : two < 4) (h3 : three < 8) : (encV M a b c f5 two three).hi % 32 = 8 * two + three := by
  dsimp only [encV]; omega
@[simp] theorem encV_bit26 (h2 : two < 2) (h3 : three < 8) : (encV M a b c f5 two three).hi / 16 % 2 = 0 := by
  dsimp only [encV]; omega
@[simp] theorem encV_bit25 (h3 : three < 8) : bool1 ((encV M a b c f5 two three).hi / 8) = bool1 two := by
  have h : (encV M a b c f5 two three).hi / 8 % 2 = two % 2 := by dsimp only [encV]; omega
  rw [bool1, h, bool1]

@[simp] theorem encVM_major : (encVM M a b c ew mode k m).major = M := rfl
@[simp] theorem encVM_a : (encVM M a b c ew mode k m).a = a := rfl
@[simp] theorem encVM_b : (encVM M a b c ew mode k m).b = b := rfl
@[simp] theorem encVM_c : (encVM M a b c ew mode k m).c = c := rfl
@[simp] theorem encVM_ew (hd : mode < 8) (hk : k < 4) (hm : m < 8) : (encVM M a b c ew mode k m).hi / 256 = ew := by
  dsimp only [encVM]; omega
@[simp] theorem encVM_mode (hd : mode < 8) (hk : k < 4) (hm : m < 8) : (encVM M a b c ew mode k m).hi / 32 % 8 = mode := by
  dsimp only [encVM]; omega
@[simp] theorem encVM_class (hk : k < 4) (hm : m < 8) : (encVM M a b c ew mode k m).hi / 8 % 4 = k := by dsimp only [encVM]; omega
@[simp] theorem encVM_mask (hm : m < 8) : (encVM M a b c ew mode k m).hi % 8 = m := by dsimp only [encVM]; omega
end

/-- Each field fits in its bits of the word (05 R48). -/
structure Fields.Fit (f : Fields) : Prop where
  major : f.major < 64
  a : f.a < 32
  b : f.b < 32
  c : f.c < 32
  hi : f.hi < 1024

theorem Fields.eq_iff {f g : Fields} : f = g ↔ f.major = g.major ∧ f.a = g.a ∧ f.b = g.b ∧ f.c = g.c ∧ f.hi = g.hi := by
  cases f
  cases g
  simp

end Sys2Proof
end

section
/-!
05 R44 to R88: the decoder reads from the encoder's fields the instruction that they were put together from.
-/

namespace Sys2Proof

/-! ### What the encoder puts together fits its bits -/

section
variable {M a b c f7 f3 imm cond k width f5 two three ew mode m : Nat}
@[simp] theorem encR_fit (hM : M < 64) (ha : a < 32) (hb : b < 32) (hc : c < 32) (h7 : f7 < 128) (h3 : f3 < 8) :
    (encR M a b c f7 f3).Fit := by
  constructor <;> dsimp only [encR] <;> omega
@[simp] theorem encI_fit (hM : M < 64) (ha : a < 32) (hb : b < 32) (h3 : f3 < 8) (hi : imm < 4096) : (encI M a b f3 imm).Fit := by
  constructor <;> dsimp only [encI] <;> omega
@[simp] theorem encU_fit (hM : M < 64) (ha : a < 32) (hi : imm < 1048576) : (encU M a imm).Fit := by
  constructor <;> dsimp only [encU] <;> omega
@[simp] theorem encB_fit (hM : M < 64) (hb : b < 32) (hc : c < 32) (hd : cond < 8) (hi : imm < 4096) : (encB M b c cond imm).Fit := by
  constructor <;> dsimp only [encB] <;> omega
@[simp] theorem encL_fit (hM : M < 64) (ha : a < 32) (hb : b < 32) (hk : k < 4) (hw : width < 8) (hi : imm < 1024) :
    (encL M a b k width imm).Fit := by
  constructor <;> dsimp only [encL] <;> omega
@[simp] theorem encS_fit (hM : M < 64) (hb : b < 32) (hc : c < 32) (hk : k < 4) (hw : width < 8) (hi : imm < 1024) :
    (encS M b c k width imm).Fit := by
  constructor <;> dsimp only [encS] <;> omega
@[simp] theorem encV_fit (hM : M < 64) (ha : a < 32) (hb : b < 32) (hc : c < 32) (h5 : f5 < 32) (h2 : two < 4) (h3 : three < 8) :
    (encV M a b c f5 two three).Fit := by
  constructor <;> dsimp only [encV] <;> omega
@[simp] theorem encVM_fit (hM : M < 64) (ha : a < 32) (hb : b < 32) (hc : c < 32) (he : ew < 4) (hd : mode < 8) (hk : k < 4) (hm : m < 8) :
    (encVM M a b c ew mode k m).Fit := by
  constructor <;> dsimp only [encVM] <;> omega
end

@[simp] theorem need2_true (x : Dec) : need2 true x = x := rfl
@[simp] theorem need3_true (x : Dec) : need3 true x = x := rfl
@[simp] theorem bit_le_one (b : Bool) : bit b ≤ 1 := Nat.le_of_lt_succ (bit_lt_two b)
@[simp] theorem bit_beq_one (b : Bool) : (bit b == 1) = b := by cases b <;> rfl
@[simp] theorem bool1_zero : bool1 0 = false := rfl
@[simp] theorem formOf_zero : formOf 0 = .vv := rfl
@[simp] theorem formOf_one : formOf 1 = .vx := rfl
@[simp] theorem imm10_lt (i : BitVec 10) : i.toNat < 1024 := i.isLt
@[simp] theorem imm12_lt (i : BitVec 12) : i.toNat < 4096 := i.isLt
@[simp] theorem imm20_lt (i : BitVec 20) : i.toNat < 1048576 := i.isLt
@[simp] theorem val_lt_of_le {n k : Nat} (h : n ≤ k) (x : Fin n) : x.val < k := Nat.lt_of_lt_of_le x.isLt h
@[simp] theorem bf_lt {k : Nat} (h : k < 16) (x : Bool) : k + 16 * bit x < 32 := by have := bit_lt_two x; omega
@[simp] theorem bf_zero_lt (x : Bool) : 16 * bit x < 32 := by have := bit_lt_two x; omega

/-! ### Words with a layout of their own -/

theorem bool1_of_mod {n : Nat} {b : Bool} (h : n % 2 = bit b) : bool1 n = b := by
  cases b <;> simp [bool1, h, bit]

theorem fin_ofNat_of_mod {n k : Nat} [NeZero n] {x : Fin n} (h : k % n = x.val) : Fin.ofNat n k = x := Fin.ext h

@[simp] theorem encV_acc {M a b c f5 three : Nat} (n : Fin 4) (h3 : three < 8) :
    Fin.ofNat 4 ((encV M a b c f5 n.val three).hi / 8) = n := by
  refine fin_ofNat_of_mod ?_
  dsimp only [encV]
  omega

/-! A bit beside the operation (05 R67), and two (05 R71). -/

@[simp] theorem bool1_bf {k : Nat} (h : k < 16) (x : Bool) : bool1 ((k + 16 * bit x) / 16) = x :=
  bool1_of_mod (by have := bit_lt_two x; omega)

section
variable {k : Nat} (x y : Bool)
@[simp] theorem sources_lt (h : k ≤ 28) : k + 2 * bit x + bit y < 32 := by have := bit_lt_two x; have := bit_lt_two y; omega
@[simp] theorem sources_div (h : k % 4 = 0) : (k + 2 * bit x + bit y) / 4 = k / 4 := by have := bit_lt_two x; have := bit_lt_two y; omega
@[simp] theorem bool1_sources_div (h : k % 4 = 0) : bool1 ((k + 2 * bit x + bit y) / 2) = x :=
  bool1_of_mod (by have := bit_lt_two x; have := bit_lt_two y; omega)
@[simp] theorem bool1_sources (h : k % 4 = 0) : bool1 (k + 2 * bit x + bit y) = y := bool1_of_mod (by have := bit_lt_two y; omega)
end

theorem Fields.fit_mk {M a b c hi : Nat} (hM : M < 64) (ha : a < 32) (hb : b < 32) (hc : c < 32) (hh : hi < 1024) :
    Fields.Fit ⟨M, a, b, c, hi⟩ := ⟨hM, ha, hb, hc, hh⟩

theorem decOpi_shift (d b : Reg) (n : Fin 64) :
    decOpi (encI 2 d b 6 n.val) = .ok (.slli d b n) ∧ decOpi (encI 2 d b 6 (64 + n.val)) = .ok (.srli d b n) ∧
    decOpi (encI 2 d b 6 (128 + n.val)) = .ok (.srai d b n) := by
  have h0 : n.val / 64 = 0 := by omega
  have h1 : (64 + n.val) / 64 = 1 := by omega
  have h2 : (128 + n.val) / 64 = 2 := by omega
  have e1 : Fin.ofNat 64 (64 + n.val) = n := fin_ofNat_of_mod (by omega)
  have e2 : Fin.ofNat 64 (128 + n.val) = n := fin_ofNat_of_mod (by omega)
  refine ⟨by simp [decOpi, h0], ?_, ?_⟩
  · simp only [decOpi, encI_f3, encI_top, encI_imm, h1, e1, encI_a, encI_b, rg_val, Nat.reduceLT]
  · simp only [decOpi, encI_f3, encI_top, encI_imm, h2, e2, encI_a, encI_b, rg_val, Nat.reduceLT]

theorem decJalr_btag (r : Dir) (n : Fin 16) (b : Reg) (i : BitVec 12) :
    (encI 10 n.val b (r.code + 1) i.toNat).Fit ∧ decJalr (encI 10 n.val b (r.code + 1) i.toNat) = .ok (.btag r n b i) := by
  cases r <;> simp [decJalr, Dir.code, withDir, dirOf]

theorem decLoop_loop (l : Fin 2) (b : Reg) {i : BitVec 12} (h : 2 ≤ i.toNat) :
    (encI 11 0 b l.val i.toNat).Fit ∧ decLoop (encI 11 0 b l.val i.toNat) = .ok (.loop l b i) := by
  fin_cases l <;> simp [decLoop, h]

theorem decLoop_loopi (l : Fin 2) (n : Fin 1024) {i : BitVec 12} (h : 2 ≤ i.toNat) :
    (encI 11 (n.val / 32) (n.val % 32) (2 + l.val) i.toNat).Fit ∧
    decLoop (encI 11 (n.val / 32) (n.val % 32) (2 + l.val) i.toNat) = .ok (.loopi l n i) := by
  refine ⟨encI_fit (by decide) (by omega) (by omega) (by omega) i.isLt, ?_⟩
  fin_cases l <;> simp [decLoop, h, Nat.div_add_mod]

theorem decFma_fma (f : FFmt) (r : Rnd) (d b c e : Reg) :
    Fields.Fit ⟨13, d, b, c, 256 * f.code + 8 * e.val + r.code⟩ ∧
    decFma ⟨13, d, b, c, 256 * f.code + 8 * e.val + r.code⟩ = .ok (.fma f r d b c e) := by
  have hf := f.code_lt (Nat.le_refl 4)
  have hr := r.code_lt (by decide : 5 ≤ 8)
  have h8 : (256 * f.code + 8 * e.val + r.code) % 8 = r.code := by omega
  have h256 : (256 * f.code + 8 * e.val + r.code) / 256 = f.code := by omega
  have he : rg ((256 * f.code + 8 * e.val + r.code) / 8) = e := fin_ofNat_of_mod (by omega)
  exact ⟨Fields.fit_mk (by decide) d.isLt b.isLt c.isLt (by omega), by simp [decFma, h8, h256, he]⟩

theorem decFence_fence (p : BitVec 6) (s : Scope) (k : BitVec 3) :
    Fields.Fit ⟨14, 0, 0, k.toNat, 16 * p.toNat + s.code⟩ ∧
    decFence ⟨14, 0, 0, k.toNat, 16 * p.toNat + s.code⟩ = .ok (.fence p s k) := by
  have hs := s.code_lt (by decide : 5 ≤ 8)
  have h8 : (16 * p.toNat + s.code) % 8 = s.code := by omega
  have h2 : (16 * p.toNat + s.code) / 8 % 2 = 0 := by omega
  have h16 : (16 * p.toNat + s.code) / 16 = p.toNat := by omega
  have hk : k.toNat < 8 := k.isLt
  exact ⟨Fields.fit_mk (by decide) (by decide) (by decide) (by omega) (by omega), by simp [decFence, h8, h2, h16, hk]⟩

theorem decVset_vsetli (s : Fin 8) (g : Fin 4) (t m : Bool) (d b : Reg) :
    (encR 16 d b 0 (s.val + 8 * g.val + 32 * bit t + 64 * bit m) 1).Fit ∧
    decVset (encR 16 d b 0 (s.val + 8 * g.val + 32 * bit t + 64 * bit m) 1) = .ok (.vsetli s g t m d b) := by
  have ht := bit_lt_two t
  have hm := bit_lt_two m
  have h8 : (8 * (s.val + 8 * g.val + 32 * bit t + 64 * bit m) + 1) % 8 = 1 := by omega
  have hs : Fin.ofNat 8 ((8 * (s.val + 8 * g.val + 32 * bit t + 64 * bit m) + 1) / 8) = s := fin_ofNat_of_mod (by omega)
  have hg : Fin.ofNat 4 ((8 * (s.val + 8 * g.val + 32 * bit t + 64 * bit m) + 1) / 64) = g := fin_ofNat_of_mod (by omega)
  have htb : bool1 ((8 * (s.val + 8 * g.val + 32 * bit t + 64 * bit m) + 1) / 256) = t := bool1_of_mod (by omega)
  have hmb : bool1 ((8 * (s.val + 8 * g.val + 32 * bit t + 64 * bit m) + 1) / 512) = m := bool1_of_mod (by omega)
  refine ⟨encR_fit (by decide) d.isLt b.isLt (by decide) (by omega) (by decide), ?_⟩
  simp only [decVset, encR_a, encR_b, encR_c, encR_hi, rg_val, h8, hs, hg, htb, hmb]
  rfl

theorem decVcvt_vcvt {s t : VTy} (h : s ≠ t) (x : Bool) (m : MReg) (d c : Reg) :
    Fields.Fit ⟨23, d, t.code, c, 16 * s.code + 8 * bit x + m.val⟩ ∧
    decVcvt ⟨23, d, t.code, c, 16 * s.code + 8 * bit x + m.val⟩ = .ok (.vcvt s t x m d c) := by
  have hs := s.code_lt (by decide : 11 ≤ 16)
  have ht := t.code_lt (by decide : 11 ≤ 16)
  have hx := bit_lt_two x
  have h256 : (16 * s.code + 8 * bit x + m.val) / 256 = 0 := by omega
  have h16 : (16 * s.code + 8 * bit x + m.val) / 16 % 16 = s.code := by omega
  have hb : bool1 ((16 * s.code + 8 * bit x + m.val) / 8) = x := bool1_of_mod (by omega)
  have hm : mr ((16 * s.code + 8 * bit x + m.val) % 8) = m := fin_ofNat_of_mod (by omega)
  exact ⟨Fields.fit_mk (by decide) d.isLt (by omega) c.isLt (by omega), by simp [decVcvt, h256, h16, hb, hm, Nat.mod_eq_of_lt ht, ht, h]⟩

theorem decVcvt_vqscale {t : VTy} (h : t.isScaleTarget = true) (d c b : Reg) :
    Fields.Fit ⟨23, d, b, c, 256 + 16 * t.code⟩ ∧ decVcvt ⟨23, d, b, c, 256 + 16 * t.code⟩ = .ok (.vqscale t d c b) := by
  have ht := t.code_lt (by decide : 11 ≤ 16)
  have h256 : (256 + 16 * t.code) / 256 = 1 := by omega
  have h16 : (256 + 16 * t.code) / 16 % 16 = t.code := by omega
  have h8 : (256 + 16 * t.code) % 8 = 0 := by omega
  have h2 : (256 + 16 * t.code) / 8 % 2 = 0 := by omega
  refine ⟨Fields.fit_mk (by decide) d.isLt b.isLt c.isLt (by omega), ?_⟩
  simp only [decVcvt, h256, h16, h8, h2, withVty_code, h, rg_val]
  rfl

/-- The shift stands in the word with its top bit below the others. -/
theorem decVcvt_vdxbpack (w : Bool) {n : Fin 16} (h : n ≠ 0) (d c : Reg) :
    Fields.Fit ⟨23, d, 0, c, 512 + 128 * bit w + 16 * (n.val % 8) + 8 * (n.val / 8)⟩ ∧
    decVcvt ⟨23, d, 0, c, 512 + 128 * bit w + 16 * (n.val % 8) + 8 * (n.val / 8)⟩ = .ok (.vdxbpack w n d c) := by
  have hw := bit_lt_two w
  have h0 : n.val ≠ 0 := fun e => h (Fin.ext e)
  have h256 : (512 + 128 * bit w + 16 * (n.val % 8) + 8 * (n.val / 8)) / 256 = 2 := by omega
  have h128 : (512 + 128 * bit w + 16 * (n.val % 8) + 8 * (n.val / 8)) / 128 = 4 + bit w := by omega
  have h16 : (512 + 128 * bit w + 16 * (n.val % 8) + 8 * (n.val / 8)) / 16 = 32 + 8 * bit w + n.val % 8 := by omega
  have h8 : (512 + 128 * bit w + 16 * (n.val % 8) + 8 * (n.val / 8)) / 8 = 64 + 16 * bit w + 2 * (n.val % 8) + n.val / 8 := by omega
  have hm : (512 + 128 * bit w + 16 * (n.val % 8) + 8 * (n.val / 8)) % 8 = 0 := by omega
  have hlow : (32 + 8 * bit w + n.val % 8) % 8 = n.val % 8 := by omega
  have htop : (64 + 16 * bit w + 2 * (n.val % 8) + n.val / 8) % 2 = n.val / 8 := by omega
  have hb : bool1 (4 + bit w) = w := bool1_of_mod (by omega)
  have hn : Fin.ofNat 16 n.val = n := fin_ofNat_of_mod (Nat.mod_eq_of_lt n.isLt)
  refine ⟨Fields.fit_mk (by decide) d.isLt (by decide) c.isLt (by omega), ?_⟩
  simp only [decVcvt, h256, h128, h16, h8, hm, hlow, htop, Nat.mod_add_div, hb, hn, rg_val, bne_iff_ne.2 h0]
  rfl

theorem decVcvt_vdxbunpack (w : Bool) (d c : Reg) :
    Fields.Fit ⟨23, d, 0, c, 768 + 128 * bit w⟩ ∧ decVcvt ⟨23, d, 0, c, 768 + 128 * bit w⟩ = .ok (.vdxbunpack w d c) := by
  have hw := bit_lt_two w
  refine ⟨Fields.fit_mk (by decide) d.isLt (by decide) c.isLt (by omega), ?_⟩
  cases w <;> simp [decVcvt, bit, bool1]

section
variable {f : Fields} {i : Instr}

/-! ### The group of a major opcode (05 R45) -/

theorem decFields_op (h : f.major = 1) : decFields f = decOp f := by simp only [decFields, h]
theorem decFields_opi (h : f.major = 2) : decFields f = decOpi f := by simp only [decFields, h]
theorem decFields_load (h : f.major = 5) : decFields f = decLoad f := by simp only [decFields, h]
theorem decFields_store (h : f.major = 6) : decFields f = decStore f := by simp only [decFields, h]
theorem decFields_amo (h : f.major = 7) : decFields f = decAmo f := by simp only [decFields, h]
theorem decFields_branch (h : f.major = 8) : decFields f = decBranch f := by simp only [decFields, h]
theorem decFields_jalr (h : f.major = 10) : decFields f = decJalr f := by simp only [decFields, h]
theorem decFields_loop (h : f.major = 11) : decFields f = decLoop f := by simp only [decFields, h]
theorem decFields_fp (h : f.major = 12) : decFields f = decFp f := by simp only [decFields, h]
theorem decFields_fma (h : f.major = 13) : decFields f = decFma f := by simp only [decFields, h]
theorem decFields_fence (h : f.major = 14) : decFields f = decFence f := by simp only [decFields, h]
theorem decFields_system (h : f.major = 15) : decFields f = decSystem f := by simp only [decFields, h]
theorem decFields_vset (h : f.major = 16) : decFields f = decVset f := by simp only [decFields, h]
theorem decFields_vint (h : f.major = 17) : decFields f = decVint f := by simp only [decFields, h]
theorem decFields_vfp (h : f.major = 18) : decFields f = decVfp f := by simp only [decFields, h]
theorem decFields_vred (h : f.major = 19) : decFields f = decVred f := by simp only [decFields, h]
theorem decFields_vmask (h : f.major = 20) : decFields f = decVmask f := by simp only [decFields, h]
theorem decFields_vload (h : f.major = 21) : decFields f = decVload f := by simp only [decFields, h]
theorem decFields_vstore (h : f.major = 22) : decFields f = decVstore f := by simp only [decFields, h]
theorem decFields_vcvt (h : f.major = 23) : decFields f = decVcvt f := by simp only [decFields, h]
theorem decFields_matrix (h : f.major = 24) : decFields f = decMatrix f := by simp only [decFields, h]
theorem decFields_copy (h : f.major = 25) : decFields f = decCopy f := by simp only [decFields, h]
theorem decFields_cbuf (h : f.major = 26) : decFields f = decCbuf f := by simp only [decFields, h]
theorem decFields_nport (h : f.major = 27) : decFields f = decNport f := by simp only [decFields, h]
theorem decFields_fport (h : f.major = 28) : decFields f = decFport f := by simp only [decFields, h]
theorem decFields_task (h : f.major = 29) : decFields f = decTask f := by simp only [decFields, h]
theorem decFields_barrier (h : f.major = 30) : decFields f = decBarrier f := by simp only [decFields, h]

/-! ### An instruction's fields decode to it, group by group -/

theorem decFields_encFields_scalar (hw : i.wf = true) (h : encFields i = some f) (hm : f.major < 16) :
    f.Fit ∧ decFields f = .ok i := by
  cases i with
  | lui | auipc | jal =>
    cases h
    refine ⟨by simp, ?_⟩
    simp [decFields]
  | add | sub | and | or | xor | andn | slt | sltu | sll | srl | sra | fshl | fshr | min | minu | max | maxu | mul | mulh | mulhu
  | div | divu | rem | remu | clz | ctz | popc | sextw | zextw | bswap =>
    cases h
    refine ⟨by simp, ?_⟩
    rw [decFields_op rfl]
    simp [decOp]
  | addi | slti | sltiu | xori | ori | andi =>
    cases h
    refine ⟨by simp, ?_⟩
    rw [decFields_opi rfl]
    simp [decOpi]
  | slli d b n =>
    cases h
    exact ⟨by simp, (decFields_opi rfl).trans (decOpi_shift d b n).1⟩
  | srli d b n =>
    cases h
    exact ⟨encI_fit (by decide) d.isLt b.isLt (by decide) (by omega), (decFields_opi rfl).trans (decOpi_shift d b n).2.1⟩
  | srai d b n =>
    cases h
    exact ⟨encI_fit (by decide) d.isLt b.isLt (by decide) (by omega), (decFields_opi rfl).trans (decOpi_shift d b n).2.2⟩
  | lb | lh | lw | ld | lbz | lhz | lwz =>
    cases h
    refine ⟨by simp, ?_⟩
    rw [decFields_load rfl]
    simp [decLoad]
  | sb | sh | sw | sd =>
    cases h
    refine ⟨by simp, ?_⟩
    rw [decFields_store rfl]
    simp [decStore]
  | amoadd | amoand | amoor | amoxor | amoswap | amomin | amomax | amominu | amomaxu | amocas | amofadd | amofmaxa | synld | synst
  | feread | feset =>
    cases h
    refine ⟨by simp, ?_⟩
    rw [decFields_amo rfl]
    simp [decAmo]
  | beq | bne | blt | bge | bltu | bgeu =>
    cases h
    refine ⟨by simp, ?_⟩
    rw [decFields_branch rfl]
    simp [decBranch]
  | jalr =>
    cases h
    refine ⟨by simp, ?_⟩
    rw [decFields_jalr rfl]
    simp [decJalr]
  | btag r n b i =>
    cases h
    exact (decJalr_btag r n b i).imp_right (decFields_jalr rfl).trans
  | loop l b i =>
    cases h
    exact (decLoop_loop l b (of_decide_eq_true hw)).imp_right (decFields_loop rfl).trans
  | loopi l n i =>
    cases h
    exact (decLoop_loopi l n (of_decide_eq_true hw)).imp_right (decFields_loop rfl).trans
  | fadd | fsub | fmul | fdiv | fsqrt | fmin | fmax | feq | flt | fle | fclass | fsgnj | fcvtToFp | fcvtSat | fcvtToInt =>
    cases h
    refine ⟨by simp, ?_⟩
    rw [decFields_fp rfl]
    simp_all [decFp, Instr.wf]
  | fma f r d b c e =>
    cases h
    exact (decFma_fma f r d b c e).imp_right (decFields_fma rfl).trans
  | ifence =>
    cases h
    exact ⟨by constructor <;> decide, rfl⟩
  | fence p s k =>
    cases h
    exact (decFence_fence p s k).imp_right (decFields_fence rfl).trans
  | trap | eret | halt | yield | waite | sysr | sysw | segld | segst =>
    cases h
    refine ⟨by simp, ?_⟩
    rw [decFields_system rfl]
    simp_all [decSystem, Instr.wf]
  | _ => cases h <;> exact absurd hm (by simp)

theorem decFields_encFields_vector (hw : i.wf = true) (h : encFields i = some f) (hm : 16 ≤ f.major ∧ f.major < 24) :
    f.Fit ∧ decFields f = .ok i := by
  cases i with
  | vsetl =>
    cases h
    refine ⟨by simp, ?_⟩
    rw [decFields_vset rfl]
    simp [decVset]
  | vsetli s g t m d b =>
    cases h
    exact (decVset_vsetli s g t m d b).imp_right (decFields_vset rfl).trans
  | vadd | vsub | vrsub | vmul | vmulh | vmulhu | vmacc | vnmsac | vand | vor | vxor | vsll | vsrl | vsra | vmin | vmax | vminu
  | vmaxu | vfshl | vfshr | vclz | vpopc | vseq | vsne | vslt | vsltu | vsle | vsleu | vmerge | vmv =>
    cases h
    refine ⟨by simp, ?_⟩
    rw [decFields_vint rfl]
    simp_all [decVint, Instr.wf]
  | vfadd | vfsub | vfmul | vfdiv | vfsqrt | vfmacc | vfnmacc | vfmin | vfmax | vfsgnj | vfeq | vflt | vfle | vfclass =>
    cases h
    refine ⟨by simp, ?_⟩
    rw [decFields_vfp rfl]
    simp_all [decVfp, Instr.wf]
  | vredsum | vredmax | vredmaxu | vredmin | vredminu | vredand | vredor | vfredosum | vfredtsum | vfredmax | vfredmin | vid
  | vslideup | vslidedn | vslide1up | vslide1dn | vgather | vcompress | vextract | vinsert =>
    cases h
    refine ⟨by simp, ?_⟩
    rw [decFields_vred rfl]
    simp_all [decVred, Instr.wf]
  | mand | mor | mxor | mandn | mpopc | mfirst | msbf =>
    cases h
    refine ⟨by simp, ?_⟩
    rw [decFields_vmask rfl]
    simp [decVmask]
  | vld | vlds | vldx | vldff | vldz =>
    cases h
    refine ⟨by simp, ?_⟩
    rw [decFields_vload rfl]
    simp [decVload]
  | vst | vsts | vstx | vstb | vstz =>
    cases h
    refine ⟨by simp, ?_⟩
    rw [decFields_vstore rfl]
    simp [decVstore]
  | vcvt s t x m d c =>
    cases h
    exact (decVcvt_vcvt (of_decide_eq_true hw) x m d c).imp_right (decFields_vcvt rfl).trans
  | vqscale t d c b =>
    cases h
    exact (decVcvt_vqscale hw d c b).imp_right (decFields_vcvt rfl).trans
  | vdxbpack w h d c =>
    cases h
    exact (decVcvt_vdxbpack w (of_decide_eq_true hw) d c).imp_right (decFields_vcvt rfl).trans
  | vdxbunpack w d c =>
    cases h
    exact (decVcvt_vdxbunpack w d c).imp_right (decFields_vcvt rfl).trans
  | _ => cases h <;> exact absurd hm (by simp)

theorem decFields_encFields_engine (hw : i.wf = true) (h : encFields i = some f) (hm : 24 ≤ f.major) :
    f.Fit ∧ decFields f = .ok i := by
  cases i with
  | mzero | mlda | msta =>
    cases h
    refine ⟨by simp, ?_⟩
    rw [decFields_matrix rfl]
    simp [decMatrix, bool1, -Fin.ofNat_eq_cast]
  | mma | mmar | mmasN1 | mmasN2 | mmasN4 =>
    cases h
    refine ⟨by simp, ?_⟩
    rw [decFields_matrix rfl]
    simp_all [decMatrix, Instr.wf, -Fin.ofNat_eq_cast]
  | cpy | cpym | cwait | cpoll =>
    cases h
    refine ⟨by simp, ?_⟩
    rw [decFields_copy rfl]
    simp [decCopy]
  | cbwait | cbpost | cbfree | cbstat =>
    cases h
    refine ⟨by simp, ?_⟩
    rw [decFields_cbuf rfl]
    simp [decCbuf]
  | npush | npushv | npop | npopv | npeek | nstat =>
    cases h
    refine ⟨by simp, ?_⟩
    rw [decFields_nport rfl]
    simp [decNport]
  | pbind | psend | precv | pstat =>
    cases h
    refine ⟨by simp, ?_⟩
    rw [decFields_fport rfl]
    simp [decFport]
  | fork | join | tend =>
    cases h
    refine ⟨by simp, ?_⟩
    rw [decFields_task rfl]
    simp [decTask]
  | barc | bark =>
    cases h
    refine ⟨by simp, ?_⟩
    rw [decFields_barrier rfl]
    simp [decBarrier]
  | _ => cases h <;> exact absurd hm (by simp)

end

/-- What a well-formed instruction encodes to fits a word and decodes to it. -/
theorem decFields_encFields {i : Instr} {f : Fields} (hw : i.wf = true) (h : encFields i = some f) : f.Fit ∧ decFields f = .ok i := by
  rcases Nat.lt_or_ge f.major 16 with hs | hs
  · exact decFields_encFields_scalar hw h hs
  · rcases Nat.lt_or_ge f.major 24 with hv | hv
    · exact decFields_encFields_vector hw h ⟨hs, hv⟩
    · exact decFields_encFields_engine hw h hv

end Sys2Proof
end

section
/-!
05 R44 to R88: what the decoder reads from the fields of a word is well-formed and encodes to those fields.
-/

namespace Sys2Proof

/-- Every instruction that a decoder answers is well-formed, and its fields are `f`. -/
def Dec.Reads (x : Dec) (f : Fields) : Prop := ∀ i, x = .ok i → i.wf = true ∧ encFields i = some f

namespace Dec
variable {f : Fields} {x : Dec} {n : Nat}

@[simp] theorem reads_ok {i : Instr} : Reads (.ok i) f ↔ i.wf = true ∧ encFields i = some f := by simp [Reads]
@[simp] theorem reads_error {e : Reject} : Reads (.error e) f ↔ True := by simp [Reads]
@[simp] theorem reads_need2 {ok : Bool} : (need2 ok x).Reads f ↔ (ok = true → x.Reads f) := by cases ok <;> simp [need2]
@[simp] theorem reads_need3 {ok : Bool} : (need3 ok x).Reads f ↔ (ok = true → x.Reads f) := by cases ok <;> simp [need3]

@[simp] theorem reads_withCls {g : RClass → Dec} : (withCls n g).Reads f ↔ ∀ k : RClass, n = k.code → (g k).Reads f := by
  unfold withCls
  cases h : clsOf n <;> simp [← clsOf_eq_some, h]
@[simp] theorem reads_withRnd {g : Rnd → Dec} : (withRnd n g).Reads f ↔ ∀ r : Rnd, n = r.code → (g r).Reads f := by
  unfold withRnd
  cases h : rndOf n <;> simp [← rndOf_eq_some, h]
@[simp] theorem reads_withCvt {g : CvtTy → Dec} : (withCvt n g).Reads f ↔ ∀ t : CvtTy, n = t.code → (g t).Reads f := by
  unfold withCvt
  cases h : cvtOf n <;> simp [← cvtOf_eq_some, h]
@[simp] theorem reads_withVty {g : VTy → Dec} : (withVty n g).Reads f ↔ ∀ t : VTy, n = t.code → (g t).Reads f := by
  unfold withVty
  cases h : vtyOf n <;> simp [← vtyOf_eq_some, h]
@[simp] theorem reads_withDir {g : Dir → Dec} : (withDir n g).Reads f ↔ ∀ d : Dir, n = d.code → (g d).Reads f := by
  unfold withDir
  cases h : dirOf n <;> simp [← dirOf_eq_some, h]

end Dec

/-! ### Formats: the word that the fields read put together again -/

section
variable {f : Fields} {M a b c f3 imm cond k width f5 two three ew mode m : Nat}

theorem encI_eq_iff (hc : f.c < 32) (h3 : f3 < 8) :
    encI M a b f3 imm = f ↔ M = f.major ∧ a = f.a ∧ b = f.b ∧ f3 = f.ifmt % 8 ∧ imm = f.ifmt / 8 := by
  rw [Fields.eq_iff]
  dsimp only [encI, Fields.ifmt]
  omega

theorem encB_eq_iff (ha : f.a < 32) (h : cond < 8) :
    encB M b c cond imm = f ↔ M = f.major ∧ b = f.b ∧ c = f.c ∧ cond = f.hi % 8 ∧ imm = f.a + 32 * (f.hi / 8) := by
  rw [Fields.eq_iff]
  dsimp only [encB]
  omega

theorem encL_eq_iff (hc : f.c < 32) (hk : k < 4) (hw : width < 8) :
    encL M a b k width imm = f ↔
      M = f.major ∧ a = f.a ∧ b = f.b ∧ k = f.hi / 8 % 4 ∧ width = f.hi % 8 ∧ imm = f.c + 32 * (f.hi / 32) := by
  rw [Fields.eq_iff]
  dsimp only [encL]
  omega

theorem encS_eq_iff (ha : f.a < 32) (hk : k < 4) (hw : width < 8) :
    encS M b c k width imm = f ↔
      M = f.major ∧ b = f.b ∧ c = f.c ∧ k = f.hi / 8 % 4 ∧ width = f.hi % 8 ∧ imm = f.a + 32 * (f.hi / 32) := by
  rw [Fields.eq_iff]
  dsimp only [encS]
  omega

theorem encV_eq_iff (h2 : two < 4) (h3 : three < 8) :
    encV M a b c f5 two three = f ↔
      M = f.major ∧ a = f.a ∧ b = f.b ∧ c = f.c ∧ f5 = f.hi / 32 ∧ two = f.hi / 8 % 4 ∧ three = f.hi % 8 := by
  rw [Fields.eq_iff]
  dsimp only [encV]
  omega

theorem encVM_eq_iff (hd : mode < 8) (hk : k < 4) (hm : m < 8) :
    encVM M a b c ew mode k m = f ↔
      M = f.major ∧ a = f.a ∧ b = f.b ∧ c = f.c ∧ ew = f.hi / 256 ∧ mode = f.hi / 32 % 8 ∧ k = f.hi / 8 % 4 ∧ m = f.hi % 8 := by
  rw [Fields.eq_iff]
  dsimp only [encVM]
  omega

end

@[simp] theorem code_formOf_mod (n : Nat) : (formOf (n % 4)).code = n % 4 := code_formOf (Nat.mod_lt n (by decide))
@[simp] theorem code_fmtOf_mod (n : Nat) : (fmtOf (n % 4)).code = n % 4 := code_fmtOf (Nat.mod_lt n (by decide))
@[simp] theorem mod_eight_lt (n : Nat) : n % 8 < 8 := Nat.mod_lt n (by decide)
@[simp] theorem mod_four_lt (n : Nat) : n % 4 < 4 := Nat.mod_lt n (by decide)

theorem Fields.Fit.ifmt_lt {f : Fields} (h : f.Fit) : f.ifmt / 8 < 4096 := by
  have := h.c
  have := h.hi
  unfold Fields.ifmt
  omega

theorem Fields.form_lt (f : Fields) : f.hi / 8 % 4 < 4 := Nat.mod_lt _ (by decide)

/-! ### The groups (05 R45) -/

section
variable {f : Fields}

theorem decOp_reads (hf : f.Fit) (hm : f.major = 1) : (decOp f).Reads f := by
  obtain ⟨-, ha, hb, hc, -⟩ := hf
  unfold decOp
  dsimp only
  split
  all_goals simp only [Dec.reads_ok, Dec.reads_need3, Dec.reads_error, beq_iff_eq]
  all_goals
    intros
    refine ⟨rfl, congrArg some (Fields.eq_iff.2 ?_)⟩
    simp [Nat.mod_eq_of_lt, *]

theorem decOpi_reads (hf : f.Fit) (hm : f.major = 2) : (decOpi f).Reads f := by
  have hi := hf.ifmt_lt
  obtain ⟨-, ha, hb, hc, -⟩ := hf
  unfold decOpi
  dsimp only
  repeat' split
  all_goals simp only [Dec.reads_ok, Dec.reads_error]
  all_goals
    refine ⟨rfl, congrArg some ((encI_eq_iff hc (by decide)).2 ?_)⟩
    simp [Nat.mod_eq_of_lt, *]
  all_goals omega

theorem decLoad_reads (hf : f.Fit) (hm : f.major = 5) : (decLoad f).Reads f := by
  obtain ⟨-, ha, hb, hc, hh⟩ := hf
  have hi : f.c + 32 * (f.hi / 32) < 1024 := by omega
  unfold decLoad
  simp only [Dec.reads_need2, Dec.reads_withCls, bne_iff_ne]
  intro hw k hk
  split
  all_goals simp only [imp_false, Dec.reads_ok] at *
  all_goals
    refine ⟨rfl, congrArg some ((encL_eq_iff hc (k.code_lt (by decide)) (by decide)).2 ?_)⟩
    simp [Nat.mod_eq_of_lt, *]
  omega

theorem decStore_reads (hf : f.Fit) (hm : f.major = 6) : (decStore f).Reads f := by
  obtain ⟨-, ha, hb, hc, hh⟩ := hf
  have hi : f.a + 32 * (f.hi / 32) < 1024 := by omega
  unfold decStore
  simp only [Dec.reads_withCls]
  intro k hk
  split
  all_goals simp only [Dec.reads_ok, Dec.reads_error]
  all_goals
    refine ⟨rfl, congrArg some ((encS_eq_iff ha (k.code_lt (by decide)) (by decide)).2 ?_)⟩
    simp [Nat.mod_eq_of_lt, *]

theorem decAmo_reads (hf : f.Fit) (hm : f.major = 7) : (decAmo f).Reads f := by
  obtain ⟨-, ha, hb, hc, -⟩ := hf
  unfold decAmo
  simp only [Dec.reads_withCls, Dec.reads_need2, decide_eq_true_eq]
  intro k hk hw
  split
  all_goals simp only [Dec.reads_ok, Dec.reads_need2, Dec.reads_need3, Dec.reads_error, beq_iff_eq]
  all_goals
    intros
    refine ⟨rfl, congrArg some ((encV_eq_iff (k.code_lt (by decide)) (by simp)).2 ?_)⟩
    simp [bit_beq_one_of_le, Nat.mod_eq_of_lt, *]

theorem decBranch_reads (hf : f.Fit) (hm : f.major = 8) : (decBranch f).Reads f := by
  obtain ⟨-, ha, hb, hc, hh⟩ := hf
  have hi : f.a + 32 * (f.hi / 8) < 4096 := by omega
  unfold decBranch Fields.bimm
  dsimp only
  split
  all_goals simp only [Dec.reads_ok, Dec.reads_error]
  all_goals
    refine ⟨rfl, congrArg some ((encB_eq_iff ha (by decide)).2 ?_)⟩
    simp [Nat.mod_eq_of_lt, *]

theorem decJalr_reads (hf : f.Fit) (hm : f.major = 10) : (decJalr f).Reads f := by
  have hi := hf.ifmt_lt
  obtain ⟨-, ha, hb, hc, -⟩ := hf
  unfold decJalr
  dsimp only
  split
  all_goals simp only [imp_false, Dec.reads_ok, Dec.reads_withDir, Dec.reads_need3, Dec.reads_error, decide_eq_true_eq] at *
  · refine ⟨rfl, congrArg some ((encI_eq_iff hc (by decide)).2 ?_)⟩
    simp [Nat.mod_eq_of_lt, *]
  · intro d hd h16
    have := d.code_lt (Nat.le_refl 5)
    refine ⟨rfl, congrArg some ((encI_eq_iff hc (by omega)).2 ?_)⟩
    simp [Nat.mod_eq_of_lt, *]
    omega

theorem decLoop_reads (hf : f.Fit) (hm : f.major = 11) : (decLoop f).Reads f := by
  have hi := hf.ifmt_lt
  obtain ⟨-, ha, hb, hc, hh⟩ := hf
  unfold decLoop
  dsimp only
  simp only [Dec.reads_need2, decide_eq_true_eq]
  intro h2
  split
  all_goals simp only [Dec.reads_ok, Dec.reads_need3, Dec.reads_error, beq_iff_eq]
  all_goals
    intros
    refine ⟨by simp [Instr.wf, Nat.mod_eq_of_lt, *], congrArg some ((encI_eq_iff hc (by decide)).2 ?_)⟩
    simp [Nat.mod_eq_of_lt, *]
  all_goals omega

theorem decFp_reads (hf : f.Fit) (hm : f.major = 12) : (decFp f).Reads f := by
  obtain ⟨-, ha, hb, hc, -⟩ := hf
  unfold decFp
  dsimp only
  repeat' split
  all_goals simp only [Dec.reads_ok, Dec.reads_withRnd, Dec.reads_withCvt, Dec.reads_need2, Dec.reads_need3, Dec.reads_error, beq_iff_eq]
  all_goals
    intros
    refine ⟨by simp [Instr.wf, *], congrArg some ((encV_eq_iff (by simp) (by simp)).2 ?_)⟩
    simp [Nat.mod_eq_of_lt, *]

theorem decFma_reads (hf : f.Fit) (hm : f.major = 13) : (decFma f).Reads f := by
  obtain ⟨-, ha, hb, hc, hh⟩ := hf
  unfold decFma
  rw [Dec.reads_withRnd]
  intro r hr
  have hfmt : (fmtOf (f.hi / 256)).code = f.hi / 256 := code_fmtOf (by omega)
  refine Dec.reads_ok.2 ⟨rfl, congrArg some (Fields.eq_iff.2 ?_)⟩
  simp [Nat.mod_eq_of_lt, *]
  omega

theorem decFence_reads (hf : f.Fit) (hm : f.major = 14) : (decFence f).Reads f := by
  obtain ⟨-, ha, hb, hc, hh⟩ := hf
  unfold decFence
  repeat' split
  all_goals simp only [Dec.reads_ok, Dec.reads_need3, Dec.reads_error, Bool.and_eq_true, beq_iff_eq, decide_eq_true_eq]
  · rintro ⟨h0, h8⟩
    have hs := scopeOf_eq_some.1 ‹_›
    refine ⟨rfl, congrArg some (Fields.eq_iff.2 ?_)⟩
    simp [Nat.mod_eq_of_lt, *]
    omega
  · intro h0
    refine ⟨rfl, congrArg some (Fields.eq_iff.2 ?_)⟩
    simp [*]

theorem decSystem_reads (hf : f.Fit) (hm : f.major = 15) : (decSystem f).Reads f := by
  have hi := hf.ifmt_lt
  obtain ⟨-, ha, hb, hc, -⟩ := hf
  unfold decSystem
  dsimp only
  repeat' split
  all_goals simp only [Dec.reads_ok, Dec.reads_need2, Dec.reads_need3, Dec.reads_error, Bool.and_eq_true, beq_iff_eq, decide_eq_true_eq]
  all_goals
    intros
    refine ⟨by simp [Instr.wf, Nat.mod_eq_of_lt, *], congrArg some ((encI_eq_iff hc (by decide)).2 ?_)⟩
    simp [Nat.mod_eq_of_lt, *]

theorem decVset_reads (hf : f.Fit) (hm : f.major = 16) : (decVset f).Reads f := by
  obtain ⟨-, ha, hb, hc, hh⟩ := hf
  unfold decVset
  dsimp only
  split
  all_goals simp only [Dec.reads_ok, Dec.reads_need3, Dec.reads_error, beq_iff_eq]
  all_goals
    intros
    refine ⟨rfl, congrArg some (Fields.eq_iff.2 ?_)⟩
    simp [bit_bool1, Nat.mod_eq_of_lt, *]
    omega

theorem decVint_reads (hf : f.Fit) (hm : f.major = 17) : (decVint f).Reads f := by
  obtain ⟨-, ha, hb, hc, -⟩ := hf
  unfold decVint
  dsimp only
  split
  all_goals simp only [Dec.reads_ok, Dec.reads_need2, Dec.reads_need3, Dec.reads_error, Bool.and_eq_true, beq_iff_eq,
    decide_eq_true_eq, formOf_eq_iff f.form_lt, VForm.code]
  all_goals
    intros
    refine ⟨by simp [Instr.wf, *], congrArg some ((encV_eq_iff (by simp) (by simp)).2 ?_)⟩
    simp [Nat.mod_eq_of_lt, *]

theorem decVfp_reads (hf : f.Fit) (hm : f.major = 18) : (decVfp f).Reads f := by
  obtain ⟨-, ha, hb, hc, hh⟩ := hf
  unfold decVfp
  dsimp only
  split
  all_goals simp only [Dec.reads_ok, Dec.reads_need2, Dec.reads_need3, Dec.reads_error, beq_iff_eq, decide_eq_true_eq,
    formOf_eq_iff f.form_lt, VForm.code]
  all_goals
    intros
    refine ⟨by simp [Instr.wf, *], congrArg some ((encV_eq_iff (by simp) (by simp)).2 ?_)⟩
    simp [bit_bool1, Nat.mod_eq_of_lt, *]
  all_goals omega

theorem decVred_reads (hf : f.Fit) (hm : f.major = 19) : (decVred f).Reads f := by
  obtain ⟨-, ha, hb, hc, -⟩ := hf
  unfold decVred
  dsimp only
  split
  all_goals simp only [Dec.reads_ok, Dec.reads_need2, Dec.reads_need3, Dec.reads_error, Bool.and_eq_true, beq_iff_eq,
    decide_eq_true_eq, formOf_eq_iff f.form_lt, VForm.code]
  all_goals
    intros
    refine ⟨by simp [Instr.wf, *], congrArg some ((encV_eq_iff (by simp) (by simp)).2 ?_)⟩
    simp [Nat.mod_eq_of_lt, *]

theorem decVmask_reads (hf : f.Fit) (hm : f.major = 20) : (decVmask f).Reads f := by
  obtain ⟨-, ha, hb, hc, -⟩ := hf
  unfold decVmask
  dsimp only
  split
  all_goals simp only [Dec.reads_ok, Dec.reads_need2, Dec.reads_need3, Dec.reads_error, Bool.and_eq_true, beq_iff_eq,
    decide_eq_true_eq, formOf_eq_iff f.form_lt, VForm.code]
  all_goals
    intros
    refine ⟨rfl, congrArg some ((encV_eq_iff (by simp) (by simp)).2 ?_)⟩
    simp_all [Nat.mod_eq_of_lt]
  all_goals omega

theorem decVload_reads (hf : f.Fit) (hm : f.major = 21) : (decVload f).Reads f := by
  obtain ⟨-, ha, hb, hc, hh⟩ := hf
  have hew := code_ewOf (n := f.hi / 256) (by omega)
  unfold decVload
  simp only [Dec.reads_withCls]
  intro k hk
  split
  all_goals simp only [Dec.reads_ok, Dec.reads_need3, Dec.reads_error, beq_iff_eq]
  all_goals
    intros
    refine ⟨rfl, congrArg some ((encVM_eq_iff (by simp) (k.code_lt (by decide)) (by simp)).2 ?_)⟩
    simp [Nat.mod_eq_of_lt, *]

theorem decVstore_reads (hf : f.Fit) (hm : f.major = 22) : (decVstore f).Reads f := by
  obtain ⟨-, ha, hb, hc, hh⟩ := hf
  have hew := code_ewOf (n := f.hi / 256) (by omega)
  unfold decVstore
  simp only [Dec.reads_withCls]
  intro k hk
  split
  all_goals simp only [Dec.reads_ok, Dec.reads_need3, Dec.reads_error, beq_iff_eq]
  all_goals
    intros
    refine ⟨rfl, congrArg some ((encVM_eq_iff (by simp) (k.code_lt (by decide)) (by simp)).2 ?_)⟩
    simp [Nat.mod_eq_of_lt, *]

theorem decMatrix_reads (hf : f.Fit) (hm : f.major = 24) : (decMatrix f).Reads f := by
  obtain ⟨-, ha, hb, hc, hh⟩ := hf
  have hreg : decide (mr (f.hi % 8) = 0) = (f.hi % 8 == 0) := by
    rw [Bool.eq_iff_iff]
    simp [← Fin.val_inj]
  unfold decMatrix
  dsimp only
  split
  all_goals simp only [imp_false, Dec.reads_ok, Dec.reads_need2, Dec.reads_need3, Bool.and_eq_true, Bool.not_eq_true', bool1_eq_false,
    beq_iff_eq] at *
  all_goals
    intros
    refine ⟨by simp_all [Instr.wf], congrArg some ((encV_eq_iff (by simp) (by simp)).2 ?_)⟩
    simp_all [bit_bool1, Nat.mod_eq_of_lt]
  all_goals omega

theorem decCopy_reads (hf : f.Fit) (hm : f.major = 25) : (decCopy f).Reads f := by
  obtain ⟨-, ha, hb, hc, -⟩ := hf
  unfold decCopy
  dsimp only
  split
  all_goals simp only [Dec.reads_ok, Dec.reads_need3, Dec.reads_withCls, Dec.reads_error, Bool.and_eq_true, beq_iff_eq]
  all_goals
    intros
    refine ⟨rfl, congrArg some ((encV_eq_iff (by simp) (by simp)).2 ?_)⟩
    simp_all [Nat.mod_eq_of_lt]
  all_goals omega

theorem decCbuf_reads (hf : f.Fit) (hm : f.major = 26) : (decCbuf f).Reads f := by
  obtain ⟨-, ha, hb, hc, -⟩ := hf
  unfold decCbuf
  dsimp only
  split
  all_goals simp only [Dec.reads_ok, Dec.reads_need3, Dec.reads_error, Bool.and_eq_true, beq_iff_eq, decide_eq_true_eq]
  all_goals
    intros
    refine ⟨rfl, congrArg some ((encV_eq_iff (by simp) (by simp)).2 ?_)⟩
    simp_all [Nat.mod_eq_of_lt]
  all_goals omega

theorem decNport_reads (hf : f.Fit) (hm : f.major = 27) : (decNport f).Reads f := by
  obtain ⟨-, ha, hb, hc, -⟩ := hf
  unfold decNport
  simp only [Dec.reads_need2, Dec.reads_withDir, decide_eq_true_eq]
  intro h5 r hr
  split
  all_goals simp only [imp_false, Dec.reads_ok, Dec.reads_need3, Bool.and_eq_true, Bool.not_eq_true', bool1_eq_false, beq_iff_eq] at *
  all_goals
    intros
    refine ⟨rfl, congrArg some ((encV_eq_iff (by simp) (by simp)).2 ?_)⟩
    simp_all [bit_bool1, Nat.mod_eq_of_lt]
  all_goals omega

theorem decFport_reads (hf : f.Fit) (hm : f.major = 28) : (decFport f).Reads f := by
  obtain ⟨-, ha, hb, hc, -⟩ := hf
  unfold decFport
  dsimp only
  split
  all_goals simp only [Dec.reads_ok, Dec.reads_need3, Dec.reads_error, Bool.and_eq_true, beq_iff_eq]
  all_goals
    intros
    refine ⟨rfl, congrArg some ((encV_eq_iff (by simp) (by simp)).2 ?_)⟩
    simp_all [Nat.mod_eq_of_lt]
  all_goals omega

theorem decTask_reads (hf : f.Fit) (hm : f.major = 29) : (decTask f).Reads f := by
  obtain ⟨-, ha, hb, hc, -⟩ := hf
  unfold decTask
  simp only [Dec.reads_need2, Dec.reads_withCls, decide_eq_true_eq]
  intro h5 k hk
  split
  all_goals simp only [imp_false, Dec.reads_ok, Dec.reads_need3, Bool.and_eq_true, beq_iff_eq] at *
  all_goals
    intros
    refine ⟨rfl, congrArg some ((encV_eq_iff (k.code_lt (by decide)) (by simp)).2 ?_)⟩
    simp_all [Nat.mod_eq_of_lt]
  all_goals omega

theorem decBarrier_reads (hf : f.Fit) (hm : f.major = 30) : (decBarrier f).Reads f := by
  obtain ⟨-, ha, hb, hc, -⟩ := hf
  unfold decBarrier
  dsimp only
  split
  all_goals simp only [Dec.reads_ok, Dec.reads_need3, Dec.reads_error, Bool.and_eq_true, beq_iff_eq, decide_eq_true_eq]
  all_goals
    intros
    refine ⟨rfl, congrArg some ((encV_eq_iff (by simp) (by simp)).2 ?_)⟩
    simp_all [Nat.mod_eq_of_lt]
  all_goals omega

/-- The fields of VDXBPACK's top bits put together again: the shift's low three bits stand above its high one. -/
theorem vdxbpack_bits {h : Nat} (h8 : h % 8 = 0) (h2 : h / 256 = 2) :
    512 + 128 * (h / 128 % 2) + 16 * (h / 16 % 8) + 8 * ((h / 16 % 8 + 8 * (h / 8 % 2)) / 8) = h := by
  have h16 := Nat.div_div_eq_div_mul h 16 8
  have h128 := Nat.div_div_eq_div_mul h 128 2
  have hhigh : (h / 16 % 8 + 8 * (h / 8 % 2)) / 8 = h / 8 % 2 := by omega
  rw [hhigh]
  omega

theorem decVcvt_reads (hf : f.Fit) (hm : f.major = 23) : (decVcvt f).Reads f := by
  obtain ⟨-, ha, hb, hc, hh⟩ := hf
  unfold decVcvt
  dsimp only
  split
  all_goals simp only [imp_false, Dec.reads_ok, Dec.reads_need2, Dec.reads_need3, Dec.reads_withVty, Bool.and_eq_true, beq_iff_eq,
    decide_eq_true_eq, bne_iff_ne] at *
  · intro s hs t ht hst h16
    refine ⟨decide_eq_true hst, congrArg some (Fields.eq_iff.2 ?_)⟩
    simp [bit_bool1]
    omega
  · intro t ht hw h0
    refine ⟨hw, congrArg some (Fields.eq_iff.2 ?_)⟩
    simp
    omega
  · rintro hn ⟨hu, h0⟩
    have hlt := Nat.mod_eq_of_lt (show f.hi / 16 % 8 + 8 * (f.hi / 8 % 2) < 16 by omega)
    refine ⟨decide_eq_true (Fin.ne_of_val_ne (hlt.trans_ne hn)), congrArg some (Fields.eq_iff.2 ?_)⟩
    simp [Nat.mod_eq_of_lt, bit_bool1, vdxbpack_bits, *]
  · intro h0
    refine ⟨rfl, congrArg some (Fields.eq_iff.2 ?_)⟩
    simp [bit_bool1]
    omega

end

theorem Fields.Fit.uimm_toNat {f : Fields} (hf : f.Fit) : f.uimm.toNat = f.b + 32 * f.c + 1024 * f.hi := by
  obtain ⟨-, -, hb, hc, hh⟩ := hf
  exact Nat.mod_eq_of_lt (by omega)

theorem Fields.Fit.encU_eq {f : Fields} (hf : f.Fit) : encU f.major f.a f.uimm.toNat = f := by
  have hi := hf.uimm_toNat
  obtain ⟨-, -, hb, hc, -⟩ := hf
  rw [Fields.eq_iff]
  dsimp only [encU]
  omega

/-- What the fields decode to is well-formed, and its encoding is the fields. -/
theorem decFields_reads {f : Fields} (hf : f.Fit) : (decFields f).Reads f := by
  have hU := hf.encU_eq
  have hrd : (rg f.a).val = f.a := Nat.mod_eq_of_lt hf.a
  unfold decFields
  split
  next hm => exact decOp_reads hf hm
  next hm => exact decOpi_reads hf hm
  next hm =>
    rw [← hrd, hm] at hU
    exact Dec.reads_ok.2 ⟨rfl, congrArg some hU⟩
  next hm =>
    rw [← hrd, hm] at hU
    exact Dec.reads_ok.2 ⟨rfl, congrArg some hU⟩
  next hm => exact decLoad_reads hf hm
  next hm => exact decStore_reads hf hm
  next hm => exact decAmo_reads hf hm
  next hm => exact decBranch_reads hf hm
  next hm =>
    rw [← hrd, hm] at hU
    exact Dec.reads_ok.2 ⟨rfl, congrArg some hU⟩
  next hm => exact decJalr_reads hf hm
  next hm => exact decLoop_reads hf hm
  next hm => exact decFp_reads hf hm
  next hm => exact decFma_reads hf hm
  next hm => exact decFence_reads hf hm
  next hm => exact decSystem_reads hf hm
  next hm => exact decVset_reads hf hm
  next hm => exact decVint_reads hf hm
  next hm => exact decVfp_reads hf hm
  next hm => exact decVred_reads hf hm
  next hm => exact decVmask_reads hf hm
  next hm => exact decVload_reads hf hm
  next hm => exact decVstore_reads hf hm
  next hm => exact decVcvt_reads hf hm
  next hm => exact decMatrix_reads hf hm
  next hm => exact decCopy_reads hf hm
  next hm => exact decCbuf_reads hf hm
  next hm => exact decNport_reads hf hm
  next hm => exact decFport_reads hf hm
  next hm => exact decTask_reads hf hm
  next hm => exact decBarrier_reads hf hm
  next => exact Dec.reads_error.2 trivial

end Sys2Proof
end

section
/-!
05 R44 to R88: parcels, the bytes of a word, and the two directions between bytes and instructions.
-/

namespace Sys2Proof

/-! ### Parcels (05 R46, R47) -/

theorem encP_lt {op : Nat} (hop : op < 16) (x : Bool) (d s : Reg) : encP op x d s < 2 ^ 16 := by
  have := bit_le_one x
  unfold encP
  omega

/-- A parcel's bits: bit 0 is 0, as bit 0 of a parcel of 16 bits is (05 R44). -/
theorem encP_even (op : Nat) (x : Bool) (d s : Reg) : encP op x d s % 2 = 0 := by
  unfold encP
  omega

theorem encP_op {op : Nat} (hop : op < 16) (x : Bool) (d s : Reg) : encP op x d s / 4 % 16 = op := by
  have := bit_le_one x
  unfold encP
  omega

theorem encP_bit {op : Nat} (x : Bool) (d s : Reg) : bool1 (encP op x d s / 2) = x := by
  have hb : encP op x d s / 2 = bit x + 2 * (512 * d.val + 16 * s.val + op) := by unfold encP; omega
  rw [hb, bool1, Nat.add_mul_mod_self_left]
  cases x <;> rfl

theorem encP_dst {op : Nat} (hop : op < 16) (x : Bool) (d s : Reg) : rg (encP op x d s / 2048) = d := by
  have := bit_le_one x
  have hd : encP op x d s / 2048 = d.val := by unfold encP; omega
  rw [hd, rg_val]

theorem encP_src {op : Nat} (hop : op < 16) (x : Bool) (d s : Reg) : rg (encP op x d s / 64) = s := by
  have := bit_le_one x
  have hs : encP op x d s / 64 % 32 = s.val := by unfold encP; omega
  exact Fin.ext hs

/-- The parcel 0x0000 is no instruction (05 R46): it would be VMV of vector register 0 to itself. -/
theorem encP_eq_zero {op : Nat} {x : Bool} {d s : Reg} : encP op x d s = 0 ↔ op = 0 ∧ x = false ∧ d = 0 ∧ s = 0 := by
  have hx : bit x = 0 ↔ x = false := by cases x <;> decide
  rw [← hx, Fin.ext_iff, Fin.ext_iff, Fin.val_zero]
  unfold encP
  omega

theorem wf_vmvParcel {x : Bool} {d s : Reg} : (Instr.vmvParcel x d s).wf = true ↔ encP 0 x d s ≠ 0 := by
  rw [Ne, encP_eq_zero]
  cases x <;> simp [Instr.wf, imp_iff_not_or]

theorem encP_mod {op : Nat} (hop : op < 16) (x : Bool) (d s : Reg) : encP op x d s % 65536 = encP op x d s :=
  Nat.mod_eq_of_lt (encP_lt hop x d s)

/-- The fields of a parcel put together again. -/
theorem encP_fields {op w : Nat} (hw : w < 2 ^ 16) (he : w % 2 = 0) (hop : w / 4 % 16 = op) :
    encP op (bool1 (w / 2)) (rg (w / 2048)) (rg (w / 64)) = w := by
  have hx : bit (bool1 (w / 2)) = w / 2 % 2 := bit_bool1 _
  simp only [encP, hx, rg, Fin.val_ofNat]
  omega

/-- The value of a well-formed parcel instruction fits a parcel, has bit 0 clear and decodes to the instruction. -/
theorem decodeParcel_encParcel {i : Instr} {w : Nat} (hi : i.wf = true) (h : encParcel i = some w) :
    w < 2 ^ 16 ∧ w % 2 = 0 ∧ decodeParcel (BitVec.ofNat 16 w) = i := by
  cases i with
  | zeroParcel =>
    cases h
    decide
  | vmvParcel x d s =>
    cases h
    have h0 := wf_vmvParcel.1 hi
    refine ⟨encP_lt (by decide) x d s, encP_even 0 x d s, ?_⟩
    simp [decodeParcel, encP_mod, encP_op, encP_bit, encP_dst, encP_src, h0]
  | vaddParcel x d s | vsubParcel x d s | vmulParcel x d s | vandParcel x d s | vorParcel x d s | vxorParcel x d s
  | vsllParcel x d s | vsrlParcel x d s | vminParcel x d s | vmaxParcel x d s | vfaddParcel x d s | vfsubParcel x d s
  | vfmulParcel x d s | vfmaxParcel x d s | vfminParcel x d s =>
    cases h
    refine ⟨encP_lt (by decide) x d s, encP_even _ x d s, ?_⟩
    simp [decodeParcel, encP_mod, encP_op, encP_bit, encP_dst, encP_src, encP_eq_zero]
  | _ => cases h

/-- What a parcel decodes to is well-formed and no 32-bit instruction, and its encoding is the parcel. -/
theorem encParcel_decodeParcel {p : BitVec 16} (he : p.toNat % 2 = 0) :
    (decodeParcel p).wf = true ∧ encFields (decodeParcel p) = none ∧ encParcel (decodeParcel p) = some p.toNat := by
  unfold decodeParcel
  dsimp only
  split
  next h0 => exact ⟨rfl, rfl, congrArg some h0.symm⟩
  next h0 =>
    split
    next hop =>
      have hp := encP_fields p.isLt he hop
      exact ⟨wf_vmvParcel.2 (hp.trans_ne h0), rfl, congrArg some hp⟩
    case h_16 =>
      simp only [imp_false] at *
      exact ⟨rfl, rfl, congrArg some (encP_fields p.isLt he (by omega))⟩
    all_goals exact ⟨rfl, rfl, congrArg some (encP_fields p.isLt he (by assumption))⟩

/-! ### Bytes of a word -/

theorem toNat_append_byte {n : Nat} (x : BitVec n) (b : Byte) : (x ++ b).toNat = 256 * x.toNat + b.toNat := by
  rw [BitVec.toNat_append, ← Nat.shiftLeft_add_eq_or_of_lt b.isLt, Nat.shiftLeft_eq, Nat.mul_comm]

/-- A byte is the lowest one of a number, the rest of which is the number without it. -/
theorem bytesOf_succ_append (k : Nat) {n : Nat} (x : BitVec n) (b : Byte) :
    bytesOf (k + 1) (x ++ b).toNat = b :: bytesOf k x.toNat := by
  have hlow : BitVec.ofNat 8 (256 * x.toNat + b.toNat) = b := BitVec.eq_of_toNat_eq (by simp; omega)
  have hrest : (256 * x.toNat + b.toNat) / 256 = x.toNat := by omega
  rw [bytesOf, toNat_append_byte, hlow, hrest]

theorem bytesOf_one (b : Byte) : bytesOf 1 b.toNat = [b] := by simp [bytesOf]

theorem bytesOf_four (b0 b1 b2 b3 : Byte) : bytesOf 4 (b3 ++ b2 ++ b1 ++ b0 : BitVec 32).toNat = [b0, b1, b2, b3] := by
  rw [bytesOf_succ_append, bytesOf_succ_append, bytesOf_succ_append, bytesOf_one]

theorem bytesOf_two (b0 b1 : Byte) : bytesOf 2 (b1 ++ b0 : BitVec 16).toNat = [b0, b1] := by
  rw [bytesOf_succ_append, bytesOf_one]

theorem length_bytesOf (n w : Nat) : (bytesOf n w).length = n := by
  induction n generalizing w with
  | zero => rfl
  | succ n ih => rw [bytesOf, List.length_cons, ih]

/-- The number that the bytes of a word stand for. -/
theorem toNat_append_bytes {w : Nat} (h : w < 2 ^ 32) :
    (BitVec.ofNat 8 (w / 256 / 256 / 256) ++ BitVec.ofNat 8 (w / 256 / 256) ++ BitVec.ofNat 8 (w / 256) ++
      BitVec.ofNat 8 w : BitVec 32).toNat = w := by
  simp only [toNat_append_byte, BitVec.toNat_ofNat]
  omega

theorem getLsbD_zero {n : Nat} (b : BitVec n) : b.getLsbD 0 = decide (b.toNat % 2 = 1) := by
  rw [BitVec.getLsbD, Nat.testBit_zero]

theorem ofNat_getLsbD_zero (w : Nat) : (BitVec.ofNat 8 w).getLsbD 0 = decide (w % 2 = 1) := by
  have hb : w % 2 ^ 8 % 2 = w % 2 := by omega
  rw [getLsbD_zero, BitVec.toNat_ofNat, hb]

/-- The bytes of a word decode to what its fields do, whatever bytes follow. -/
theorem decode_word {w : Nat} {i : Instr} (hw : w < 2 ^ 32) (ho : w % 2 = 1) (hi : decFields (unpack w) = .ok i) (rest : List Byte) :
    decode (bytesOf 4 w ++ rest) = .instr i 4 rest := by
  simp only [bytesOf, List.cons_append, List.nil_append, decode, ofNat_getLsbD_zero, ho, decide_true, if_true, decodeWord,
    toNat_append_bytes hw, hi]

/-- The bytes of a parcel decode to the parcel's instruction, whatever bytes follow. -/
theorem decode_parcel {w : Nat} (hw : w < 2 ^ 16) (ho : w % 2 = 0) (rest : List Byte) :
    decode (bytesOf 2 w ++ rest) = .instr (decodeParcel (BitVec.ofNat 16 w)) 2 rest := by
  have hp : BitVec.ofNat 8 (w / 256) ++ BitVec.ofNat 8 w = BitVec.ofNat 16 w := by
    apply BitVec.eq_of_toNat_eq
    simp only [toNat_append_byte, BitVec.toNat_ofNat]
    omega
  simp only [bytesOf, List.cons_append, List.nil_append, decode, ofNat_getLsbD_zero, ho]
  simp [hp]

/-- Bytes that decode to an instruction are those of a word or of a parcel (05 R44). -/
theorem decode_cases {b rest : List Byte} {i : Instr} {n : Nat} (h : decode b = .instr i n rest) :
    (∃ w, w < 2 ^ 32 ∧ w % 2 = 1 ∧ b = bytesOf 4 w ++ rest ∧ n = 4 ∧ decFields (unpack w) = .ok i) ∨
    (∃ p : BitVec 16, p.toNat % 2 = 0 ∧ b = bytesOf 2 p.toNat ++ rest ∧ n = 2 ∧ decodeParcel p = i) := by
  unfold decode at h
  split at h
  next b0 b1 r =>
    split at h
    next ho =>
      split at h
      next b2 b3 r =>
        dsimp only at h
        split at h <;> cases h
        next hd =>
          refine .inl ⟨_, BitVec.isLt _, ?_, by rw [bytesOf_four]; rfl, rfl, hd⟩
          have := (getLsbD_zero b0).symm.trans ho
          rw [decide_eq_true_eq] at this
          simp only [toNat_append_byte]
          omega
      next => cases h
    next ho =>
      cases h
      refine .inr ⟨_, ?_, by rw [bytesOf_two]; rfl, rfl, rfl⟩
      rw [getLsbD_zero, decide_eq_true_eq] at ho
      simp only [toNat_append_byte]
      omega
  next => cases h

theorem unpack_fit (w : Nat) : (unpack w).Fit := by
  constructor <;> exact Nat.mod_lt _ (by decide)

theorem pack_lt {f : Fields} (h : f.Fit) : pack f < 2 ^ 32 := by
  obtain ⟨hm, ha, hb, hc, hh⟩ := h
  unfold pack
  omega

theorem pack_odd (f : Fields) : pack f % 2 = 1 := by
  unfold pack
  omega

theorem unpack_pack {f : Fields} (h : f.Fit) : unpack (pack f) = f := by
  obtain ⟨hm, ha, hb, hc, hh⟩ := h
  rw [Fields.eq_iff]
  dsimp only [unpack, pack]
  omega

theorem pack_unpack {w : Nat} (h : w < 2 ^ 32) (ho : w % 2 = 1) : pack (unpack w) = w := by
  dsimp only [unpack, pack]
  omega

/-! ### The encoder's bytes -/

theorem encode_of_encFields {i : Instr} {f : Fields} (h : encFields i = some f) : encode i = some (bytesOf 4 (pack f)) := by
  rw [encode, h]

theorem encode_of_encParcel {i : Instr} {w : Nat} (h : encFields i = none) (hp : encParcel i = some w) :
    encode i = some (bytesOf 2 w) := by
  rw [encode, h, hp, Option.map_some]

theorem encode_cases {i : Instr} {bytes : List Byte} (h : encode i = some bytes) :
    (∃ f, encFields i = some f ∧ bytes = bytesOf 4 (pack f)) ∨ ∃ w, encParcel i = some w ∧ bytes = bytesOf 2 w := by
  unfold encode at h
  split at h
  next f hf => exact .inl ⟨f, hf, (Option.some.inj h).symm⟩
  next =>
    obtain ⟨w, hw, rfl⟩ := Option.map_eq_some_iff.1 h
    exact .inr ⟨w, hw, rfl⟩

end Sys2Proof

namespace Sys2Proof.Proofs

/-- Settles O54: group by group (`decFields_encFields`), the parcels by their bits (`decodeParcel_encParcel`). -/
theorem decodeOfEncode : Obligations.DecodeOfEncode := by
  unfold Obligations.DecodeOfEncode
  intro i bytes rest hi h
  obtain ⟨f, hf, rfl⟩ | ⟨w, hw, rfl⟩ := encode_cases h
  · obtain ⟨hfit, hd⟩ := decFields_encFields hi hf
    rw [length_bytesOf]
    exact decode_word (pack_lt hfit) (pack_odd f) (by rw [unpack_pack hfit, hd]) rest
  · obtain ⟨hlt, heven, hd⟩ := decodeParcel_encParcel hi hw
    rw [length_bytesOf, decode_parcel hlt heven rest, hd]

/-- Settles O55: the bytes are a word or a parcel (`decode_cases`), and what its fields decode to encodes to them
(`decFields_reads`). -/
theorem encodeOfDecode : Obligations.EncodeOfDecode := by
  unfold Obligations.EncodeOfDecode
  intro b rest i n h
  obtain ⟨w, hw, hodd, rfl, rfl, hd⟩ | ⟨p, heven, rfl, rfl, rfl⟩ := decode_cases h
  · obtain ⟨hwf, henc⟩ := decFields_reads (unpack_fit w) i hd
    refine ⟨hwf, _, encode_of_encFields henc, ?_, length_bytesOf 4 _⟩
    rw [pack_unpack hw hodd]
  · obtain ⟨hwf, hnone, henc⟩ := encParcel_decodeParcel heven
    exact ⟨hwf, _, encode_of_encParcel hnone henc, rfl, length_bytesOf 2 _⟩

/-- Settles O56: the decoder, run on each word. -/
theorem wordsOfTheSpec : Obligations.WordsOfTheSpec := by
  unfold Obligations.WordsOfTheSpec
  refine ⟨?_, ?_, ?_, ?_, ?_, ?_, ?_⟩ <;> exact fun _ => rfl

end Sys2Proof.Proofs
end

section
/-!
05 R44, 15 R205, 27 R269, R270: what the fetch of an instruction leaves unchanged, and what a core's issue slot does, case by case.
-/

namespace Sys2Proof.Machine
open Sys2Proof.Spec

/-! ### The fetch changes no thread -/

namespace State
section
variable {α : Type} {p : State → α}

/-- What translation and the end of a component at a poisoned line keep, the fetch of a parcel keeps. -/
theorem fetchAt_keeps (hx : ∀ {s t : State}, s.sameButTlb t → p t = p s) (hp : ∀ s loc n a, p (touchLines s loc n a) = p s)
    (s : State) (t : Nat) (off : Word) : p (s.fetchAt t off).2 = p s := by
  unfold fetchAt
  dsimp only
  split
  · rfl
  · have hl := hx (s.locate_frame (clusterOf (coreOf t)) (s.thread t).asid (s.thread t).privileged
      (gvaOf ((s.thread t).seg.get 0 0) off.toNat) 2 .load needX)
    split <;> rename_i h <;> rw [h] at hl
    · exact hl
    · exact hl
    · split
      · exact (hp ..).trans hl
      · exact hl

theorem parcelAt_keeps (hx : ∀ {s t : State}, s.sameButTlb t → p t = p s) (hp : ∀ s loc n a, p (touchLines s loc n a) = p s)
    (s : State) (t : Nat) (off : Word) : p (s.parcelAt t off).2 = p s := by
  unfold parcelAt
  split
  · rfl
  · exact fetchAt_keeps hx hp s t off

theorem fetchInstr_keeps (hx : ∀ {s t : State}, s.sameButTlb t → p t = p s) (hp : ∀ s loc n a, p (touchLines s loc n a) = p s)
    (s : State) (t : Nat) : p (s.fetchInstr t).2 = p s := by
  have hk := parcelAt_keeps hx hp
  unfold fetchInstr
  dsimp only
  split
  · rfl
  · have h1 := hk s t (s.thread t).pc
    split <;> rename_i e1 <;> rw [e1] at h1
    · exact h1
    · exact h1
    · split
      · rename_i s1 _
        have h2 := hk s1 t ((s.thread t).pc + 2)
        split <;> rename_i e2 <;> rw [e2] at h2 <;> exact h2.trans h1
      · exact h1

/-- A poisoned line that is met changes its poison, the damaged components and what the hardware owes. -/
theorem touchLines_keeps (h : ∀ (s : State) m d q, p { s with poison := m, damaged := d, pending := q } = p s) (s : State)
    (loc n : Nat) (a : BitVec 12) : p (s.touchLines loc n a) = p s := by
  refine foldl_keeps p (fun s l => ?_) _ s
  unfold touchPoison
  split
  · exact ite_keeps p rfl (h s _ _ _)
  · rfl

end

theorem fetchInstr_thread (s : State) (t u : Nat) : (s.fetchInstr t).2.thread u = s.thread u := by
  have h : (s.fetchInstr t).2.threads = s.threads := fetchInstr_keeps sameButTlb.threads (touchLines_keeps fun _ _ _ _ => rfl) s t
  rw [thread, h, thread]

theorem fetchInstr_out (s : State) (t : Nat) : (s.fetchInstr t).2.out = s.out :=
  fetchInstr_keeps (p := State.out) (congrArg State.out) (touchLines_keeps fun _ _ _ _ => rfl) s t

theorem fetchInstr_mgmt (s : State) (t : Nat) : (s.fetchInstr t).2.mgmt = s.mgmt :=
  fetchInstr_keeps (p := State.mgmt) (congrArg State.mgmt) (touchLines_keeps fun _ _ _ _ => rfl) s t

end State

/-! ### Traps of a given thread -/

/-- A trap of a thread, its deferred and held causes being whatever they are (27 R269). -/
theorem trapsAt_trap {s s' : State} {u : Nat} (c : Cause) (tv : Word) (d a : Option Err)
    (hu : s'.thread u = { s.thread u with deferred := d, async := a }) (ho : ∀ v, v ≠ u → s'.thread v = s.thread v) :
    trapsAt s u c tv (s'.trap u c tv) := by
  have hy : (s'.trap u c tv).thread u = ({ s.thread u with deferred := d, async := a } : Thread).trap s'.now c tv := by
    rw [State.trap, State.thread_modThread, if_pos rfl, hu]
  unfold trapsAt
  rw [hy]
  refine ⟨rfl, rfl, rfl, rfl, privTrap _, rfl, rfl, rfl, rfl, rfl, rfl, rfl, rfl, rfl, rfl, rfl, fun v hv => ?_⟩
  rw [State.trap, State.thread_modThread, if_neg hv, ho v hv]

theorem State.doubleTrap_thread (s : State) (t : Nat) (c : Cause) (tv : Word) : (s.doubleTrap t c tv).thread t =
    { s.thread t with
      cause := c.zeroExtend 64, epc := (s.thread t).pc, tval := tv, fetched := [], st := .halted, wait := none } := by
  rw [State.doubleTrap, State.thread, State.tell_threads, ← State.thread, State.thread_modThread, if_pos rfl]

theorem State.doubleTrap_out (s : State) (t : Nat) (c : Cause) (tv : Word) :
    (s.doubleTrap t c tv).out = s.out ++ [.doubleTrap s.mgmt.owner t c] := by
  rw [State.doubleTrap, State.tell_out, State.modThread_out]

/-! ### The issue slot, case by case -/

theorem step_issue {s : State} {c t : Nat} (hp : s.power = true) (ha : s.agenda = []) (hd : s.takeDue (some (4 * c + 2)) = none)
    (hn : s.nextSlot = some (c, .thread t)) : step s = ({ s with slot := c + 1 } : State).issue t := by
  unfold step
  simp only [ha, hp, hn, Option.map_some, hd]
  rfl

namespace State
variable {s s' : State} {t : Nat}

theorem issue_deferred {e : Err} (h : ((s.startIssue t).thread t).deferred = some e) :
    s.issue t = .next (((s.startIssue t).modThread t fun x => { x with deferred := none }).trap t e.cause e.tval) := by
  unfold issue
  simp only [h]

theorem issue_async {e : Err} (hd : ((s.startIssue t).thread t).deferred = none)
    (h : ((s.startIssue t).thread t).async = some e) :
    s.issue t = .next (((s.startIssue t).modThread t fun x => { x with async := none }).trap t e.cause e.tval) := by
  unfold issue
  simp only [hd, h]

section
variable (hd : ((s.startIssue t).thread t).deferred = none) (ha : ((s.startIssue t).thread t).async = none)
include hd ha

theorem issue_engineDue {r : FetchRes} {y : State} (hf : (s.startIssue t).fetchInstr t = (r, s')) (h : s'.engineDue t r = some y) :
    s.issue t = .next y := by
  unfold issue
  simp only [hd, ha, hf, h]

theorem issue_instr {b rest : List Byte} {i : Instr} {n : Nat} (hf : (s.startIssue t).fetchInstr t = (.bytes b, s'))
    (h : decode b = .instr i n rest) : s.issue t = exec i (s'.useFetched t) := by
  unfold issue
  simp only [hd, ha, hf, engineDue, h]

theorem issue_reject {b rest : List Byte} {why : Reject} {w : BitVec 32} (hf : (s.startIssue t).fetchInstr t = (.bytes b, s'))
    (h : decode b = .reject why w rest) (he : s'.engineDue t (.bytes b) = none) :
    s.issue t = exec (.invalidInstruction why w) (s'.useFetched t) := by
  unfold issue
  simp only [hd, ha, hf, he, h]

theorem issue_bad {k : Cause} {off : Word} {p : Option (BitVec 16)} (hf : (s.startIssue t).fetchInstr t = (.bad k off p, s'))
    (he : s'.engineDue t (.bad k off p) = none) : s.issue t = .next (s'.fetchTrap t k off) := by
  unfold issue
  simp only [hd, ha, hf, he]
  rfl

end
end State

end Sys2Proof.Machine

namespace Sys2Proof.Proofs
open Sys2Proof.Machine Sys2Proof.Spec

/-- Settles O57: case by case (`State.issue_deferred` and those after it); a fetch changes no thread (`State.fetchInstr_thread`). -/
theorem stepRunsDecoded : Obligations.StepRunsDecoded := by
  unfold Obligations.StepRunsDecoded
  intro s c t hp ha hd hn
  rw [step_issue hp ha hd hn]
  generalize hs1 : ({ s with slot := c + 1 } : State) = s1
  dsimp only
  refine ⟨fun e h => ⟨_, State.issue_deferred h, ?_, ?_⟩, fun e h0 h => ⟨_, State.issue_async h0 h, ?_, ?_⟩,
    fun h0 h1 => ⟨fun b s' hf => ⟨fun i n rest hi => State.issue_instr h0 h1 hf hi,
      fun why bits n hr => ⟨State.issue_reject h0 h1 hf hr, fun s2 => State.issue_engineDue h0 h1 hf⟩⟩,
    fun k off p s' hf he => ?_⟩⟩
  · exact trapsAt_trap _ _ none ((s1.startIssue t).thread t).async (by simp) fun v hv => by simp [hv]
  · simp [State.trap, Thread.trap]
  · exact trapsAt_trap _ _ ((s1.startIssue t).thread t).deferred none (by simp) fun v hv => by simp [hv]
  · simp [State.trap, Thread.trap]
  · have hth := State.fetchInstr_thread (s1.startIssue t) t
    have hout := State.fetchInstr_out (s1.startIssue t) t
    have hmgmt := State.fetchInstr_mgmt (s1.startIssue t) t
    rw [hf] at hth hout hmgmt
    rw [State.issue_bad h0 h1 hf he, State.fetchTrap, hth t]
    constructor
    · intro hafter
      rw [hafter]
      exact ⟨_, rfl, trapsAt_trap k off _ _ (hth t) fun v _ => hth v⟩
    · intro hafter
      refine ⟨_, by rw [if_pos hafter], ?_⟩
      rw [State.doubleTrap_thread, State.doubleTrap_out, hth, hout, hmgmt, ← hs1]
      exact ⟨rfl, rfl, rfl, rfl, rfl, rfl⟩

end Sys2Proof.Proofs
end

section
/-!
09 R116 to R119, R141: what a vector instruction that writes every element of a group leaves, and the integer lane parcels.
-/

namespace Sys2Proof.Machine
open Sys2Proof.Spec

/-! ### The checks pass -/

theorem goodWidth_sew {x : Thread} (h : vtypeOk x) : goodWidth x.sew := by
  obtain ⟨-, h3⟩ := h
  unfold goodWidth Thread.sew
  interval_cases x.vtype.toNat % 8 <;> decide

/-- A legal type and groups inside the window at their multiples pass the checks (09 R119). -/
theorem vCause_eq_none {x : Thread} {gs : List Group} (hv : vtypeOk x)
    (hg : ∀ g ∈ gs, g.base + g.count ≤ x.winSize ∧ g.base % g.align = 0) : x.vCause true gs false = none := by
  have hwin : gs.any (fun g => decide (x.winSize < g.base + g.count)) = false := by
    rw [List.any_eq_false]
    intro g h
    have := (hg g h).1
    simpa using this
  have halign : gs.any (fun g => g.base % g.align != 0) = false := by
    rw [List.any_eq_false]
    intro g h
    simp [(hg g h).2]
  have hvill : x.vill = false := hv.1
  simp [Thread.vCause, hvill, hwin, halign]

/-- An element below VLMAX lies in its group. -/
theorem register_lt_grp {x : Thread} (hv : vtypeOk x) {i : Nat} (hi : i < x.vlmax) : i * x.sew / 512 < x.grp := by
  unfold Thread.vlmax at hi
  have hs : 0 < x.sew := by obtain h | h | h | h := goodWidth_sew hv <;> omega
  rw [Nat.div_lt_iff_lt_mul (by decide), Nat.mul_comm x.grp]
  exact Nat.lt_of_lt_of_le (Nat.mul_lt_mul_of_pos_right hi hs) (Nat.div_mul_le_self ..)

/-! ### The end of a vector instruction -/

theorem putElems_succ (s : State) (t base w n : Nat) (l : List (Nat × Nat)) :
    s.putElems t base w (n + 1) l =
      if (regBits w n l).2 = 0 then s.putElems t base w n l
      else (s.putElems t base w n l).setVreg t (base + n) (regBits w n l).1 (regBits w n l).2 := by
  simp only [State.putElems, List.range_succ, List.foldl_append, List.foldl_cons, List.foldl_nil]

theorem putElems_winBase (s : State) (t base w n : Nat) (l : List (Nat × Nat)) :
    ((s.putElems t base w n l).thread t).winBase = (s.thread t).winBase := by
  have h := congrArg Thread.winBase ((s.putElems_frame t base w n l).1 t)
  exact h

/-- A physical register outside the group that a write of elements names stays. -/
theorem putElems_vf (s : State) (t base w n : Nat) (l : List (Nat × Nat)) {p : Nat}
    (hp : p < (s.thread t).winBase + base ∨ (s.thread t).winBase + base + n ≤ p) :
    ((s.putElems t base w n l).core (coreOf t)).vf.get 0 p = (s.core (coreOf t)).vf.get 0 p := by
  induction n with
  | zero => rfl
  | succ n ih =>
    rw [putElems_succ]
    have ih := ih (by omega)
    have hw := putElems_winBase s t base w n l
    split
    · exact ih
    · rw [← ih]
      simp only [State.setVreg, State.core_modCore, if_true, State.setThread_at_core, hw]
      rw [Sp.get_set_ne]
      omega

theorem completed_congr {s y t : State} {next : Word} {dist : Nat} (h : sameFlow s.th y.th) (hc : completed y t next dist) :
    completed s t next dist := by
  obtain ⟨hpc, hst, hwait, hready⟩ := hc
  have hflow := h
  obtain ⟨-, -, -, -, -, -, h7, h8⟩ := hflow
  exact ⟨pcRule_congr h hpc, hst, hwait, fun hw => h8 ▸ hready (h7.trans hw)⟩

theorem vDone_completed (s : State) (len : Word) (dist : Nat) : completed s (s.vDone len dist) (s.th.pc + len) dist := by
  rw [vDone_eq]
  exact finishAt_completed s _ _ _ ⟨rfl, rfl, rfl, rfl, rfl, rfl, rfl, rfl⟩

theorem vDone_still (s : State) (len : Word) (dist : Nat) :
    still (s.vDone len dist).th = { still s.th with vstart := 0 } := by
  rw [vDone_eq]
  exact finishAt_still s _ _ _

theorem vDone_only (s : State) (len : Word) (dist : Nat) : onlyOwnThread s (s.vDone len dist) := by
  rw [vDone_eq]
  exact finishAt_only s _ _ _

theorem vDone_core (s : State) (len : Word) (dist c : Nat) : (s.vDone len dist).core c = s.core c := by
  have h := congrArg (State.core · c) (vDone_only s len dist).1
  exact h

/-- The end of a vector instruction after a state that differs in the vector file of the own core and the image record of the own
thread (09 R118). -/
theorem vDone_vcompleted {s y : State} {r n : Nat} (len : Word) (dist : Nat)
    (hown : { y.th with oldV := s.th.oldV } = s.th) (hother : ∀ u, u ≠ s.cur → y.thread u = s.thread u)
    (hvf : ∀ p, p < s.th.winBase + r ∨ s.th.winBase + r + n ≤ p →
      (y.core (s.cur / 16)).vf.get 0 p = (s.core (s.cur / 16)).vf.get 0 p)
    (hvbad : ∀ e, (e.1 < s.th.winBase + r ∨ s.th.winBase + r + n ≤ e.1) →
      (e ∈ (y.core (s.cur / 16)).vbad ↔ e ∈ (s.core (s.cur / 16)).vbad))
    (hcore : ∀ c, { y.core c with vf := (s.core c).vf, vbad := (s.core c).vbad } = s.core c)
    (hcores : ∀ c, c ≠ s.cur / 16 → y.core c = s.core c) (hrest : { y with threads := s.threads, cores := s.cores } = s) :
    vcompleted s (y.vDone len dist) r n len plain := by
  have hcur : y.cur = s.cur := by
    have h := congrArg State.cur hrest
    exact h
  have hth : y.th = { s.th with oldV := y.th.oldV } := by rw [← hown]
  have hstill := vDone_still y len dist
  have hdone := vDone_completed y len dist
  obtain ⟨honly, -, hothers, hmem⟩ := vDone_only y len dist
  rw [hth] at hstill hdone
  have hcores' := fun c => vDone_core y len dist c
  generalize y.vDone len dist = t at *
  refine ⟨⟨dist, completed_congr ?_ hdone⟩, ?_, ?_, fun p hp => ?_, fun e he => ?_, fun c => ?_, fun c hc => ?_, ?_, fun u hu => ?_,
    fun a => ?_⟩
  · rw [hth]
    exact ⟨rfl, rfl, rfl, rfl, rfl, rfl, rfl, rfl⟩
  · have h := congrArg Thread.vstart hstill
    exact h
  · rw [plain, plain, hstill]
    rfl
  · rw [hcores', hvf p hp]
  · rw [hcores', hvbad e he]
  · rw [hcores', hcore]
  · rw [hcores', hcores c hc]
  · have h := congrArg (fun z : State => { z with threads := s.threads, cores := s.cores }) honly
    exact h.trans hrest
  · rw [hothers u (hcur ▸ hu), hother u hu]
  · have h := congrArg State.mem hrest
    rw [hmem a, ← h]

theorem putElems_vDone (s : State) (r w n : Nat) (l : List (Nat × Nat)) (len : Word) (dist : Nat) :
    vcompleted s ((s.putElems s.cur r w n l).vDone len dist) r n len plain := by
  obtain ⟨hth, hother, hcore, hcores, hrest⟩ := s.putElems_frame s.cur r w n l
  have hcur : (s.putElems s.cur r w n l).cur = s.cur := by
    have h := congrArg State.cur hrest
    exact h
  have hown := hth s.cur
  exact vDone_vcompleted len dist (by rw [State.th, hcur]; exact hown) hother (fun p hp => putElems_vf s s.cur r w n l hp)
    (fun e he => s.putElems_vbad s.cur r w n l e he) hcore hcores hrest

theorem vDone_nothing (s : State) (r n : Nat) (len : Word) (dist : Nat) : vcompleted s (s.vDone len dist) r n len plain :=
  vDone_vcompleted len dist rfl (fun _ _ => rfl) (fun _ _ => rfl) (fun _ _ => Iff.rfl) (fun _ => rfl) (fun _ _ => rfl) rfl

/-! ### An instruction that writes every element -/

theorem vRun_of_passes {s : State} {i : Instr} {gs : List Group} {x : VCtx} {dist : Nat} {body : Out1}
    (h : s.th.vCause true gs false = none) :
    s.vRun i true gs false x dist body = if x.empty then .next (s.vDone (lenOf i) dist) else body := by
  rw [State.vRun, h]

theorem vctx_empty (x : Thread) (m : MReg) (honour : Bool) : (x.vctx m honour).empty = true ↔ vnone x honour := by
  simp [VCtx.empty, Thread.vctx, vnone]

/-- Checks that pass and elements written by their class (09 R116, R117). -/
theorem vRun_writesV {s : State} {i : Instr} {gs : List Group} {m : MReg} {dist r : Nat} {op : Nat → Nat}
    {new : Nat → BitVec s.th.sew} (hv : vtypeOk s.th) (h : s.th.vCause true gs false = none)
    (hop : ∀ j, op j % 2 ^ s.th.sew = (new j).toNat) :
    ∃ t, s.vRun i true gs false (s.th.vctx m true) dist
        (.next ((s.putElems s.cur r s.th.sew s.th.grp ((s.th.vctx m true).written s.th.sew op)).vDone (lenOf i) dist)) = .next t ∧
      writesV s true m r s.th.grp s.th.sew s.th.vlmax (fun _ => False) (lenOf i) plain new t := by
  rw [vRun_of_passes h]
  by_cases he : vnone s.th true
  · rw [if_pos ((vctx_empty s.th m true).2 he)]
    refine ⟨_, rfl, fun j _ => ?_, vDone_nothing ..⟩
    rw [vDone_velem, if_pos (.inl he)]
  · rw [if_neg (mt (vctx_empty s.th m true).1 he)]
    refine ⟨_, rfl, fun j hj => ?_, putElems_vDone ..⟩
    rw [vDone_velem, if_neg (by simpa using he)]
    apply BitVec.eq_of_toNat_eq
    have hcur : (s.putElems s.cur r s.th.sew s.th.grp ((s.th.vctx m true).written s.th.sew op)).cur = s.cur := by
      have h := congrArg State.cur (s.putElems_frame s.cur r s.th.sew s.th.grp ((s.th.vctx m true).written s.th.sew op)).2.2.2.2
      exact h
    rw [velem_toNat, hcur, elem_written s r s.th.grp s.th.sew (s.th.vctx m true) op (goodWidth_sew hv) j hj (register_lt_grp hv hj)]
    simp only [classRule, apply_ite BitVec.toNat, velem_toNat, BitVec.toNat_allOnes, ← hop j]
    rfl

/-- An ordinary group inside the window at its multiple. -/
theorem group_passes {x : Thread} {r : Reg} (h : groupOk x r.val x.grp x.grp) :
    (x.group r).base + (x.group r).count ≤ x.winSize ∧ (x.group r).base % (x.group r).align = 0 := h

theorem groupB_passes {x : Thread} {f : VForm} {b : Reg} (h : f = .vv → groupOk x b.val x.grp x.grp) :
    ∀ g ∈ x.groupB f b, g.base + g.count ≤ x.winSize ∧ g.base % g.align = 0 := by
  cases f with
  | vv => simpa [Thread.groupB] using group_passes (h rfl)
  | vx | vf | vi => simp [Thread.groupB]

/-- An integer element-wise instruction (09 R117, R123). -/
theorem vInt_writesV {s : State} {i : Instr} {f : VForm} {m : MReg} {d c b : Reg} {uns : Bool} {dist : Nat}
    {op : Nat → Nat → Nat → Nat → Nat} {new : Nat → BitVec s.th.sew} (he : exec i s = s.vInt i f m d c b uns dist op)
    (hv : vtypeOk s.th) (hd : groupOk s.th d.val s.th.grp s.th.grp) (hc : groupOk s.th c.val s.th.grp s.th.grp)
    (hb : f = .vv → groupOk s.th b.val s.th.grp s.th.grp)
    (hop : ∀ j, op s.th.sew (s.elem s.cur c.val s.th.sew j) (s.opB f b s.th.sew uns j) (s.elem s.cur d.val s.th.sew j) % 2 ^ s.th.sew =
      (new j).toNat) :
    Answers i s (writesV s true m d.val s.th.grp s.th.sew s.th.vlmax (fun _ => False) (lenOf i) plain new) := by
  have hpass : s.th.vCause true (s.th.group d :: s.th.group c :: s.th.groupB f b) false = none :=
    vCause_eq_none hv (List.forall_mem_cons.2 ⟨group_passes hd, List.forall_mem_cons.2 ⟨group_passes hc, groupB_passes hb⟩⟩)
  unfold Answers
  rw [he]
  exact vRun_writesV hv hpass hop

/-- Operand b written into every body element (09 R125). -/
theorem vMove_writesV {s : State} {i : Instr} {f : VForm} {d b : Reg} {dist : Nat} {new : Nat → BitVec s.th.sew}
    (he : exec i s = s.vMove i f d b dist) (hv : vtypeOk s.th) (hd : groupOk s.th d.val s.th.grp s.th.grp)
    (hb : f = .vv → groupOk s.th b.val s.th.grp s.th.grp)
    (hop : ∀ j, s.opB f b s.th.sew false j % 2 ^ s.th.sew = (new j).toNat) :
    Answers i s (writesV s true 0 d.val s.th.grp s.th.sew s.th.vlmax (fun _ => False) (lenOf i) plain new) := by
  have hpass : s.th.vCause true (s.th.group d :: s.th.groupB f b) false = none :=
    vCause_eq_none hv (List.forall_mem_cons.2 ⟨group_passes hd, groupB_passes hb⟩)
  unfold Answers
  rw [he]
  exact vRun_writesV hv hpass hop

/-! ### Element operations on bit vectors -/

section
variable {w : Nat} (x y : BitVec w) (d : Nat)

theorem eAdd_toNat : eAdd w x.toNat y.toNat d % 2 ^ w = (x + y).toNat := (BitVec.toNat_add x y).symm

theorem eSub_toNat : eSub w x.toNat y.toNat d % 2 ^ w = (x - y).toNat := by
  have h : ((x.toNat : Int) - y.toNat) % 2 ^ w = ((x.toNat + (2 ^ w - y.toNat)) % 2 ^ w : Nat) := by
    have hshift : (x.toNat : Int) + (2 ^ w - y.toNat) = x.toNat - y.toNat + 2 ^ w := by ring
    push_cast [Nat.cast_sub y.isLt.le]
    rw [hshift, Int.add_emod_right]
  rw [eSub, wrapI, h, Int.toNat_natCast, Nat.mod_mod, BitVec.toNat_sub']

theorem eMul_toNat : eMul w x.toNat y.toNat d % 2 ^ w = (x * y).toNat := (BitVec.toNat_mul x y).symm

theorem eAnd_toNat : eAnd w x.toNat y.toNat d % 2 ^ w = (x &&& y).toNat := by
  rw [eAnd, ← BitVec.toNat_and, Nat.mod_eq_of_lt (BitVec.isLt _)]

theorem eOr_toNat : eOr w x.toNat y.toNat d % 2 ^ w = (x ||| y).toNat := by
  rw [eOr, ← BitVec.toNat_or, Nat.mod_eq_of_lt (BitVec.isLt _)]

theorem eXor_toNat : eXor w x.toNat y.toNat d % 2 ^ w = (x ^^^ y).toNat := by
  rw [eXor, ← BitVec.toNat_xor, Nat.mod_eq_of_lt (BitVec.isLt _)]

theorem eSll_toNat : eSll w x.toNat y.toNat d % 2 ^ w = (x <<< (y.toNat % w)).toNat := by
  rw [eSll, BitVec.toNat_shiftLeft, Nat.shiftLeft_eq]

theorem eSrl_toNat : eSrl w x.toNat y.toNat d % 2 ^ w = (x >>> (y.toNat % w)).toNat := by
  rw [eSrl, ← Nat.shiftRight_eq_div_pow, ← BitVec.toNat_ushiftRight, Nat.mod_eq_of_lt (BitVec.isLt _)]

theorem sgn_toNat : sgn w x.toNat = x.toInt := by rw [sgn, BitVec.ofNat_toNat, BitVec.setWidth_eq]

theorem eMin_toNat : eMin w x.toNat y.toNat d % 2 ^ w = (if y.toInt < x.toInt then y else x).toNat := by
  rw [eMin, sgn_toNat, sgn_toNat]
  by_cases h : x.toInt ≤ y.toInt
  · rw [if_pos h, if_neg (not_lt.2 h), Nat.mod_eq_of_lt x.isLt]
  · rw [if_neg h, if_pos (not_le.1 h), Nat.mod_eq_of_lt y.isLt]

theorem eMax_toNat : eMax w x.toNat y.toNat d % 2 ^ w = (if x.toInt < y.toInt then y else x).toNat := by
  rw [eMax, sgn_toNat, sgn_toNat]
  obtain h | h | h := lt_trichotomy x.toInt y.toInt
  · rw [if_pos h.le, if_pos h, Nat.mod_eq_of_lt y.isLt]
  · rw [if_pos h.le, if_neg h.not_lt, BitVec.eq_of_toInt_eq h, Nat.mod_eq_of_lt y.isLt]
  · rw [if_neg h.not_ge, if_neg h.not_gt, Nat.mod_eq_of_lt x.isLt]

end

/-! ### Operand b of a lane parcel -/

theorem opB_parcelForm (s : State) (x : Bool) (b : Reg) (w : Nat) (uns : Bool) (j : Nat) :
    s.opB (parcelForm x) b w uns j = (vop s (parcelForm x) b false w j).toNat := by
  cases x with
  | false => exact (velem_toNat s b.val w j).symm
  | true => exact (BitVec.toNat_setWidth w (s.g b)).symm

/-- An element-wise lane parcel (05 R46, 09 R141): unmasked, with vA also as operand a. -/
theorem vInt_parcel {s : State} {i : Instr} {x : Bool} {d b : Reg} {uns : Bool} {op : Nat → Nat → Nat → Nat → Nat}
    {g : BitVec s.th.sew → BitVec s.th.sew → BitVec s.th.sew} (he : exec i s = s.vInt i (parcelForm x) 0 d d b uns class1 op)
    (hv : vtypeOk s.th) (hd : groupOk s.th d.val s.th.grp s.th.grp)
    (hb : parcelForm x = .vv → groupOk s.th b.val s.th.grp s.th.grp)
    (hop : ∀ (a y : BitVec s.th.sew) k, op s.th.sew a.toNat y.toNat k % 2 ^ s.th.sew = (g a y).toNat) :
    Answers i s (writesV s true 0 d.val s.th.grp s.th.sew s.th.vlmax (fun _ => False) (lenOf i) plain fun j =>
      g (velem s d.val s.th.sew j) (vop s (parcelForm x) b false s.th.sew j)) := by
  refine vInt_writesV he hv hd hd hb fun j => ?_
  rw [opB_parcelForm, ← velem_toNat]
  exact hop ..

end Sys2Proof.Machine

namespace Sys2Proof.Proofs
open Sys2Proof.Machine Sys2Proof.Spec

/-- Settles O22: each parcel runs as its 32-bit equivalent (`vInt_parcel`, `vMove_writesV`), and each element operation is the one on
bit vectors. -/
theorem laneParcelResults : Obligations.LaneParcelResults := by
  unfold Obligations.LaneParcelResults
  intro x d b s hv w n f hd hb _ op
  refine ⟨?_, vInt_parcel rfl hv hd hb eAdd_toNat, vInt_parcel rfl hv hd hb eSub_toNat, vInt_parcel rfl hv hd hb eMul_toNat,
    vInt_parcel rfl hv hd hb eAnd_toNat, vInt_parcel rfl hv hd hb eOr_toNat, vInt_parcel rfl hv hd hb eXor_toNat,
    vInt_parcel rfl hv hd hb eSll_toNat, vInt_parcel rfl hv hd hb eSrl_toNat, vInt_parcel rfl hv hd hb eMin_toNat,
    vInt_parcel rfl hv hd hb eMax_toNat⟩
  refine vMove_writesV (f := parcelForm x) rfl hv hd hb fun j => ?_
  rw [opB_parcelForm]
  exact Nat.mod_eq_of_lt (BitVec.isLt _)

end Sys2Proof.Proofs
end

section
/-! Integer instructions (07 R93 to R96): the values of their tables as operations on bit vectors. -/

namespace Sys2Proof.Machine
open Sys2Proof.Spec

/-- An instruction whose whole effect is a value for a general register. -/
theorem answers_put {i : Instr} {s : State} {d : Reg} {v w : Word} {dist : Nat} (he : exec i s = s.put d v dist) (hv : v = w) :
    Answers i s (writesG s d w dist) := by
  rw [Answers, he, hv]
  exact put_writesG ..

/-! ### Comparisons -/

theorem flag_slt (a b : Word) : flag (a.slt b) = if a.toInt < b.toInt then 1 else 0 := by simp [flag, BitVec.slt]
theorem flag_ult (a b : Word) : flag (a.ult b) = if a.toNat < b.toNat then 1 else 0 := by simp [flag, BitVec.ult]

/-- The lesser of two words, and the greater: a tie may take either. -/
theorem ite_slt_left (a b : Word) : (if a.slt b then a else b) = if b.toInt < a.toInt then b else a := by
  obtain h | h | h := lt_trichotomy a.toInt b.toInt
  · simp [BitVec.slt, h, h.not_gt]
  · simp [BitVec.eq_of_toInt_eq h]
  · simp [BitVec.slt, h, h.not_gt]
theorem ite_ult_left (a b : Word) : (if a.ult b then a else b) = if b.toNat < a.toNat then b else a := by
  obtain h | h | h := lt_trichotomy a.toNat b.toNat
  · simp [BitVec.ult, h, h.not_gt]
  · simp [BitVec.eq_of_toNat_eq h]
  · simp [BitVec.ult, h, h.not_gt]
theorem ite_slt_right (a b : Word) : (if a.slt b then b else a) = if a.toInt < b.toInt then b else a := by simp [BitVec.slt]
theorem ite_ult_right (a b : Word) : (if a.ult b then b else a) = if a.toNat < b.toNat then b else a := by simp [BitVec.ult]

/-! ### Shifts of a pair, and high words -/

theorem toNat_append_words (a b : Word) : (a ++ b).toNat = a.toNat * 2 ^ 64 + b.toNat := by
  rw [BitVec.toNat_append, ← Nat.shiftLeft_add_eq_or_of_lt b.isLt, Nat.shiftLeft_eq]

theorem funnelR_eq (a b : Word) (n : Nat) : funnelR a b n = ((a ++ b) >>> n : BitVec 128).truncate 64 := by
  apply BitVec.eq_of_toNat_eq
  rw [funnelR, BitVec.toNat_ofNat, BitVec.truncate_eq_setWidth, BitVec.toNat_setWidth, BitVec.toNat_ushiftRight, toNat_append_words,
    Nat.shiftRight_eq_div_pow]

/-- The high word of a number of two words. -/
theorem high_word (n : Nat) : BitVec.ofNat 64 (n / 2 ^ 64) = (BitVec.ofNat 128 n >>> 64).truncate 64 := by
  apply BitVec.eq_of_toNat_eq
  simp only [BitVec.toNat_ofNat, BitVec.truncate_eq_setWidth, BitVec.toNat_setWidth, BitVec.toNat_ushiftRight, Nat.shiftRight_eq_div_pow]
  omega

theorem funnelL_eq (a b : Word) (n : Nat) : funnelL a b n = (((a ++ b) <<< n : BitVec 128) >>> 64).truncate 64 := by
  have hpair : BitVec.ofNat 128 ((a.toNat * 2 ^ 64 + b.toNat) * 2 ^ n) = (a ++ b) <<< n := by
    apply BitVec.eq_of_toNat_eq
    rw [BitVec.toNat_ofNat, BitVec.toNat_shiftLeft, toNat_append_words, Nat.shiftLeft_eq]
  rw [funnelL, high_word, hpair]

theorem mulHighU_eq (a b : Word) : mulHighU a b = ((a.zeroExtend 128 * b.zeroExtend 128) >>> 64).truncate 64 := by
  have hprod : BitVec.ofNat 128 (a.toNat * b.toNat) = a.zeroExtend 128 * b.zeroExtend 128 := by
    rw [BitVec.ofNat_mul, BitVec.ofNat_toNat, BitVec.ofNat_toNat]
  rw [mulHighU, high_word, hprod]

theorem mulHigh_eq (a b : Word) : mulHigh a b = ((a.signExtend 128 * b.signExtend 128) >>> 64).truncate 64 := by
  have hprod : BitVec.ofInt 128 (a.toInt * b.toInt) = a.signExtend 128 * b.signExtend 128 := BitVec.ofInt_mul ..
  rw [mulHigh, ← hprod]
  generalize a.toInt * b.toInt = p
  apply BitVec.eq_of_toNat_eq
  simp only [BitVec.toNat_ofInt, BitVec.truncate_eq_setWidth, BitVec.toNat_setWidth, BitVec.toNat_ushiftRight, Nat.shiftRight_eq_div_pow]
  omega

/-! ### Counting bits -/

theorem clzBits_eq (x : Word) : BitVec.ofNat 64 (clzBits 64 x.toNat) = x.clz := by
  by_cases hx : x = 0
  · rw [hx]; decide +kernel
  · have hlo := BitVec.two_pow_sub_clz_le_toNat_of_ne_zero (by decide) hx
    have hhi := BitVec.toNat_lt_two_pow_sub_clz (x := x)
    have hlt : x.clz.toNat < 64 := BitVec.lt_def.1 (BitVec.clz_lt_iff_ne_zero.2 hx)
    have h0 : x.toNat ≠ 0 := fun h => hx (BitVec.eq_of_toNat_eq h)
    have hlog : Nat.log2 x.toNat = 63 - x.clz.toNat := by
      rw [Nat.log2_eq_iff h0]
      exact ⟨hlo, by rwa [show 63 - x.clz.toNat + 1 = 64 - x.clz.toNat by omega]⟩
    rw [clzBits, if_neg h0, hlog, show 64 - 1 - (63 - x.clz.toNat) = x.clz.toNat by omega, BitVec.ofNat_toNat, BitVec.setWidth_eq]

theorem ctzBits_eq (x : Word) : BitVec.ofNat 64 (ctzBits 64 x.toNat) = x.ctz := by
  by_cases hx : x = 0
  · rw [hx]; decide +kernel
  · have hlt : x.ctz.toNat < 64 := BitVec.lt_def.1 (BitVec.ctz_lt_iff_ne_zero.2 hx)
    have hfind : (List.range 64).find? x.toNat.testBit = some x.ctz.toNat := by
      rw [List.find?_range_eq_some]
      exact ⟨BitVec.getLsbD_true_ctz_of_ne_zero hx, List.mem_range.2 hlt, fun j hj => by
        rw [BitVec.testBit_toNat, BitVec.getLsbD_false_of_lt_ctz hj]; rfl⟩
    rw [ctzBits, hfind, Option.getD_some, BitVec.ofNat_toNat, BitVec.setWidth_eq]

/-- The one bits among the low n of a word. -/
theorem popBits_toNat {w : Nat} (x : BitVec w) (n : Nat) : popBits n x.toNat = x.cpopNatRec n 0 := by
  induction n with
  | zero => rfl
  | succ n ih =>
    rw [BitVec.cpopNatRec_succ, BitVec.cpopNatRec_eq, ← ih, popBits, popBits, List.range_succ, List.filter_append, List.length_append,
      Nat.zero_add]
    cases h : x.getLsbD n <;> simp [BitVec.testBit_toNat, h]

theorem popBits_eq (x : Word) : BitVec.ofNat 64 (popBits 64 x.toNat) = x.cpop := by rw [popBits_toNat, BitVec.cpop]

/-! ### Bytes -/

theorem leNat_lt (l : List Byte) : leNat l < 256 ^ l.length := by
  induction l with
  | nil => decide
  | cons b r ih => rw [leNat, List.length_cons, Nat.pow_succ]; omega

/-- Byte i of the number that a list of bytes holds. -/
theorem leNat_byte (l : List Byte) {i : Nat} (h : i < l.length) : BitVec.ofNat 8 (leNat l / 256 ^ i) = l[i] := by
  induction l generalizing i with
  | nil => exact absurd h (Nat.not_lt_zero i)
  | cons b r ih =>
    cases i with
    | zero => exact BitVec.eq_of_toNat_eq (by simp [leNat, Nat.mod_eq_of_lt b.isLt])
    | succ i =>
      have hrest : (b.toNat + 256 * leNat r) / 256 = leNat r := by omega
      rw [leNat, Nat.pow_succ', ← Nat.div_div_eq_div_mul, hrest, ih (Nat.lt_of_succ_lt_succ h)]
      rfl

theorem getElem_bytesOf (n w : Nat) {i : Nat} (h : i < (bytesOf n w).length) : (bytesOf n w)[i] = BitVec.ofNat 8 (w / 256 ^ i) := by
  induction n generalizing w i with
  | zero => exact absurd h (Nat.not_lt_zero i)
  | succ n ih =>
    cases i with
    | zero => simp [bytesOf]
    | succ i => simp [bytesOf, ih, Nat.pow_succ', Nat.div_div_eq_div_mul]

theorem truncate_shift_byte (x : Word) (i : Nat) : (x >>> (8 * i)).truncate 8 = BitVec.ofNat 8 (x.toNat / 256 ^ i) := by
  apply BitVec.eq_of_toNat_eq
  rw [BitVec.truncate_eq_setWidth, BitVec.toNat_setWidth, BitVec.toNat_ushiftRight, Nat.shiftRight_eq_div_pow, Nat.pow_mul,
    BitVec.toNat_ofNat]

/-- Byte i of BSWAP's result is byte 7 − i (07 R95). -/
theorem bswap_byte (x : Word) {i : Nat} (hi : i < 8) :
    (bswap x >>> (8 * i)).truncate 8 = ((x >>> (8 * (7 - i))).truncate 8 : Byte) := by
  have hlen : (bytesOf 8 x.toNat).reverse.length = 8 := by rw [List.length_reverse, length_bytesOf]
  have hlt : leNat (bytesOf 8 x.toNat).reverse < 2 ^ 64 := (leNat_lt _).trans_eq (by rw [hlen]; rfl)
  rw [truncate_shift_byte, truncate_shift_byte, bswap, BitVec.toNat_ofNat, Nat.mod_eq_of_lt hlt, leNat_byte _ (hlen.symm ▸ hi),
    List.getElem_reverse, getElem_bytesOf, length_bytesOf]

/-! ### Immediates (05 R49) -/

theorem toInt_simm {n : Nat} (i : BitVec n) (h : n ≤ 64) : (simm i).toInt = i.toInt := BitVec.toInt_signExtend_of_le h

/-- The upper immediate of LUI and AUIPC (07 R96). -/
theorem simm_shift (i : BitVec 20) : simm i <<< 12 = BitVec.ofInt 64 (i.toInt * 4096) := by
  rw [simm, BitVec.signExtend, BitVec.shiftLeft_eq_mul_twoPow, BitVec.ofInt_mul]
  rfl

end Sys2Proof.Machine

namespace Sys2Proof.Proofs
open Sys2Proof.Machine

/-- Settles O1: each instruction is one `put`; where its table's value is not the model's own term, a lemma above says that they agree. -/
theorem integerResults : Obligations.IntegerResults := by
  unfold Obligations.IntegerResults
  refine ⟨fun d b c s => ?_, fun d b i n j s => ?_⟩
  · exact ⟨answers_put rfl rfl, answers_put rfl rfl, answers_put rfl rfl, answers_put rfl rfl, answers_put rfl rfl, answers_put rfl rfl,
      answers_put rfl (flag_slt ..), answers_put rfl (flag_ult ..),
      answers_put rfl rfl, answers_put rfl rfl, answers_put rfl rfl,
      answers_put rfl (funnelL_eq ..), answers_put rfl (funnelR_eq ..),
      answers_put rfl (ite_slt_left ..), answers_put rfl (ite_ult_left ..), answers_put rfl (ite_slt_right ..),
      answers_put rfl (ite_ult_right ..),
      answers_put rfl rfl, answers_put rfl (mulHigh_eq ..), answers_put rfl (mulHighU_eq ..),
      answers_put rfl (clzBits_eq _), answers_put rfl (ctzBits_eq _), answers_put rfl (popBits_eq _),
      answers_put rfl rfl, answers_put rfl rfl, _, answers_put rfl rfl, fun i hi => bswap_byte _ hi⟩
  · have hlt : flag ((s.g b).slt (simm i)) = if (s.g b).toInt < i.toInt then 1 else 0 := by
      rw [flag_slt, toInt_simm i (by decide)]
    exact ⟨answers_put rfl rfl, answers_put rfl hlt, answers_put rfl (flag_ult ..),
      answers_put rfl rfl, answers_put rfl rfl, answers_put rfl rfl, answers_put rfl rfl, answers_put rfl rfl, answers_put rfl rfl,
      answers_put rfl (simm_shift j), answers_put rfl (congrArg _ (simm_shift j))⟩

end Sys2Proof.Proofs
end

section
/-! Division and remainder (07 R92, R93). -/

namespace Sys2Proof.Machine
open Sys2Proof.Spec

section
variable {i : Instr} {s : State} {d c : Reg} {v w : Word}

/-- A division or remainder by a divisor that is not zero. -/
theorem answers_divide (he : exec i s = s.divide i d c v) (hc : s.g c ≠ 0) (hv : v = w) : Answers i s (writesG s d w 24) :=
  answers_put (he.trans (if_neg hc)) hv

/-- Division by zero (07 R92). -/
theorem divide_traps (he : exec i s = s.divide i d c v) (hc : s.g c = 0) : Answers i s (trapped s 0x5F (ibits i)) := by
  rw [Answers, he, State.divide, if_pos hc]
  exact raise_trapped ..
end

theorem sdiv_eq (a b : Word) : a.sdiv b = BitVec.ofInt 64 (a.toInt.tdiv b.toInt) := by
  apply BitVec.eq_of_toInt_eq
  rw [BitVec.toInt_sdiv, BitVec.toInt_ofInt]

theorem srem_eq (a b : Word) : a.srem b = BitVec.ofInt 64 (a.toInt.tmod b.toInt) := by
  rw [← BitVec.toInt_srem, BitVec.ofInt_toInt]

theorem udiv_eq (a b : Word) : a / b = BitVec.ofNat 64 (a.toNat / b.toNat) := by
  rw [← BitVec.toNat_udiv, BitVec.ofNat_toNat, BitVec.setWidth_eq]

theorem umod_eq (a b : Word) : a % b = BitVec.ofNat 64 (a.toNat % b.toNat) := by
  rw [← BitVec.toNat_umod, BitVec.ofNat_toNat, BitVec.setWidth_eq]

end Sys2Proof.Machine

namespace Sys2Proof.Proofs
open Sys2Proof.Machine

/-- Settles O2: each of the four is one `divide`, whose divisor alone decides whether it traps. -/
theorem divisionsAndTheirTrap : Obligations.DivisionsAndTheirTrap := by
  unfold Obligations.DivisionsAndTheirTrap
  refine ⟨fun d b c s h => ?_, fun d b c s h => ?_⟩
  · exact ⟨answers_divide rfl h (sdiv_eq ..), answers_divide rfl h (udiv_eq ..), answers_divide rfl h (srem_eq ..),
      answers_divide rfl h (umod_eq ..)⟩
  · exact ⟨divide_traps rfl h, divide_traps rfl h, divide_traps rfl h, divide_traps rfl h⟩

end Sys2Proof.Proofs
end

section
/-! Scalar floating point (07 R97 to R99): each instruction ends by `fpFinish_ends`. -/

namespace Sys2Proof.Proofs
open Sys2Proof.Machine Sys2Proof.Spec

/-- Settles O3: every instruction that can raise a flag is one `fpFinish`, FCLASS and FSGNJ are one `put`, and the values are those of
the exact operations rounded by `roundOp`. -/
theorem scalarFloatResults : Obligations.ScalarFloatResults := by
  unfold Obligations.ScalarFloatResults
  intro f r d b c e s x y z rm two one
  exact ⟨fpFinish_ends (he := rfl) .., fpFinish_ends (he := rfl) .., fpFinish_ends (he := rfl) ..,
    fpFinish_ends (he := rfl) .., fpFinish_ends (he := rfl) .., fpFinish_ends (he := rfl) .., fpFinish_ends (he := rfl) ..,
    fpFinish_ends (he := rfl) .., fpFinish_ends (he := rfl) .., fpFinish_ends (he := rfl) ..,
    fpFinish_ends (he := rfl) .., answers_put rfl rfl, answers_put rfl rfl⟩

/-- Settles O4: a conversion is one `fpFinish` of the rounded source; an integer target's type gives the range it is clamped to. -/
theorem scalarConversionResults : Obligations.ScalarConversionResults := by
  unfold Obligations.ScalarConversionResults
  intro f r ty d b s v rm src two int
  have hsrc : src = cvtSource ty v := by cases ty <;> rfl
  refine ⟨?_, ?_, ?_, ?_, ?_, ?_⟩
  · rw [hsrc]; exact fpFinish_ends (he := rfl) ..
  · rw [hsrc]; exact fpFinish_ends (he := rfl) ..
  all_goals rintro rfl; exact fpFinish_ends (he := rfl) ..

end Sys2Proof.Proofs
end

section
/-! Control transfer (07 R100 to R111): branches, jumps, YIELD, HALT, ERET and traps. -/

namespace Sys2Proof.Machine
open Sys2Proof.Spec

/-! ### An instruction that edits its own thread, or nothing, and completes -/

theorem sameFlow_refl (x : Thread) : sameFlow x x := ⟨rfl, rfl, rfl, rfl, rfl, rfl, rfl, rfl⟩

theorem edit_done_eq {s : State} {f : Thread → Thread} (dist : Nat) (hpc : (f s.th).pc = s.th.pc) :
    (s.modTh f).done dist = (s.modTh f).finishAt s.cur (s.th.pc + 4) dist := by
  simp [State.done, State.finish, hpc]

/-- An instruction of four bytes that edits its own thread, keeping its flow, and completes. -/
theorem edit_done (s : State) (f : Thread → Thread) (dist : Nat) (hf : sameFlow s.th (f s.th)) :
    completed s ((s.modTh f).done dist) (s.th.pc + 4) dist ∧ still ((s.modTh f).done dist).th = still (f s.th) ∧
    onlyOwnThread s ((s.modTh f).done dist) := by
  obtain ⟨hpc, -⟩ := id hf
  rw [edit_done_eq dist hpc]
  exact ⟨finishAt_completed s f _ _ hf, finishAt_still .., finishAt_only ..⟩

/-- One that changes nothing else. -/
theorem done_own (s : State) (dist : Nat) :
    completed s (s.done dist) (s.th.pc + 4) dist ∧ still (s.done dist).th = still s.th ∧ onlyOwnThread s (s.done dist) := by
  have e : (s.modTh id).finishAt s.cur (s.th.pc + 4) dist = s.done dist := State.modThread_modThread ..
  rw [← e]
  exact ⟨finishAt_completed s id _ _ (sameFlow_refl _), finishAt_still .., finishAt_only ..⟩

/-- A transfer that is no call and edits nothing else. -/
theorem jump_own (s : State) (target : Word) (dist : Nat) :
    transferred s (s.jump s.cur target false dist) target False dist ∧
    { still (s.jump s.cur target false dist).th with fetched := [] } = { still s.th with fetched := [] } ∧
    onlyOwnThread s (s.jump s.cur target false dist) := by
  have e : (s.modTh id).jump s.cur target false dist = s.jump s.cur target false dist := State.modThread_modThread ..
  obtain ⟨ht, hs, -, ho⟩ := jump_transferred s id target false dist (sameFlow_refl _)
  rw [e] at ht hs ho
  rw [Bool.false_eq_true] at ht
  exact ⟨ht, hs, ho⟩

/-! ### Branches and jumps (07 R101, R102) -/

/-- A displacement counts parcels of two bytes (05 R49). -/
theorem two_mul_signExtend {n : Nat} (i : BitVec n) : (2 * i.signExtend 64 : Word) = BitVec.ofInt 64 (2 * i.toInt) := by
  rw [BitVec.ofInt_mul]
  rfl

/-- A branch whose condition is P. -/
theorem answers_branch {s : State} {i : Instr} {d : BitVec 12} {taken : Bool} {P : Prop} (he : exec i s = s.branch taken d)
    (hp : taken = true ↔ P) : Answers i s (branches s P d) := by
  rw [Answers, he, ← propext hp]
  refine ⟨_, rfl, ?_⟩
  cases taken with
  | true =>
    obtain ⟨ht, hs, ho⟩ := jump_own s (s.th.pc + 2 * d.signExtend 64) 4
    exact ⟨fun _ => ⟨two_mul_signExtend d ▸ ht, hs⟩, fun h => absurd rfl h, ho⟩
  | false =>
    obtain ⟨hc, hs, ho⟩ := done_own s 4
    exact ⟨fun h => absurd h Bool.false_ne_true, fun _ => ⟨hc, hs⟩, ho⟩

theorem jumpLink_links (s : State) (d : Reg) (target : Word) : ∃ t, s.jumpLink d target = .next t ∧ links s d target t := by
  obtain ⟨ht, hs, hg, ho⟩ := jump_transferred s (fun x => x.wr d (s.th.pc + 4)) target (decide (d ≠ 0)) 4 (sameFlow_wr ..)
  rw [decide_eq_true_eq] at ht
  refine ⟨_, rfl, fun r => ?_, ht, ?_, ho⟩
  · have hr : ((s.setG d (s.th.pc + 4)).jump s.cur target (decide (d ≠ 0)) class1).g r = (s.th.wr d (s.th.pc + 4)).rd r :=
      congrArg (fun g : Sp Word => if r = 0 then 0 else g.get 0 r.val) hg
    exact hr.trans (Thread.rd_wr ..)
  · have hfetched := congrArg (fun x : Thread => { x with g := .empty, oldG := [] }) hs
    have hlink := congrArg (fun x : Thread => { x with fetched := [] }) (stillG_wr s.th d (s.th.pc + 4))
    exact hfetched.trans hlink

/-! ### YIELD and HALT (07 R107, R109) -/

theorem modCore_frame (s : State) (c : Nat) (f : Core → Core) : { s.modCore c f with cores := s.cores } = s := rfl

theorem core_youngest (s : State) (t c : Nat) : (s.youngest t).core c = if c = coreOf t then
    { s.core (coreOf t) with age := (s.core (coreOf t)).age.filter (· ≠ laneOf t) ++ [laneOf t] } else s.core c :=
  State.core_modCore ..

/-! ### Trap entry and ERET (27 R269; 07 R111) -/

theorem trap_th (s : State) (c : Cause) (tv : Word) : (s.trap s.cur c tv).th = s.th.trap s.now c tv := by simp [State.trap, State.th]

/-- Trap entry sets PRIV bit 0 and keeps the old one in bit 1. -/
theorem trap_priv (x : Thread) (now : Nat) (c : Cause) (tv : Word) :
    (x.trap now c tv).priv.getLsbD 0 = true ∧ (x.trap now c tv).priv.getLsbD 1 = x.priv.getLsbD 0 := by
  constructor <;> simp [Thread.trap]

/-- What ERET writes. -/
def Thread.returned (x : Thread) : Thread := { x with priv := (x.priv >>> 1) &&& 1, pc := x.epc, fetched := [] }

theorem Thread.returned_priv (x : Thread) :
    x.returned.priv.getLsbD 0 = x.priv.getLsbD 1 ∧ x.returned.priv.getLsbD 1 = false := by
  constructor <;> simp [Thread.returned]

theorem eret_eq (s : State) (dist : Nat) : s.eret s.cur dist = s.setThread s.cur (s.th.returned.settle s.now dist) := by
  rw [State.eret, State.jump, State.modThread_modThread]
  rfl

theorem eret_th (s : State) (dist : Nat) : (s.eret s.cur dist).th = s.th.returned.settle s.now dist := by
  simp [eret_eq, State.th]

theorem eret_transferred (s : State) (dist : Nat) : transferred s (s.eret s.cur dist) s.th.epc True dist := by
  unfold transferred
  rw [eret_th]
  exact ⟨rfl, rfl, rfl, rfl, fun hw => nextReady_none (th := s.th.returned) hw ..,
    fun l hl => ⟨fun h => absurd trivial h.1, fun _ => rfl⟩⟩

theorem exec_eret {s : State} (h : s.th.priv.getLsbD 0 = true) : exec .eret s = .next (s.eret s.cur 4) := if_pos h

end Sys2Proof.Machine

namespace Sys2Proof.Proofs
open Sys2Proof.Machine Sys2Proof.Spec

/-- Settles O6: a branch is one `branch` on its comparison, a jump one `jumpLink`. -/
theorem branchesAndJumps : Obligations.BranchesAndJumps := by
  unfold Obligations.BranchesAndJumps
  refine ⟨fun b c i s => ?_, fun d b i j s => ?_⟩
  · have hlt : (s.g b).slt (s.g c) = true ↔ (s.g b).toInt < (s.g c).toInt := decide_eq_true_iff
    have hltu : (s.g b).ult (s.g c) = true ↔ (s.g b).toNat < (s.g c).toNat := decide_eq_true_iff
    have hge : (!(s.g b).slt (s.g c)) = true ↔ (s.g c).toInt ≤ (s.g b).toInt := by
      rw [Bool.not_eq_true', ← Bool.not_eq_true, hlt, not_lt]
    have hgeu : (!(s.g b).ult (s.g c)) = true ↔ (s.g c).toNat ≤ (s.g b).toNat := by
      rw [Bool.not_eq_true', ← Bool.not_eq_true, hltu, not_lt]
    exact ⟨answers_branch rfl beq_iff_eq, answers_branch rfl bne_iff_ne, answers_branch rfl hlt, answers_branch rfl hge,
      answers_branch rfl hltu, answers_branch rfl hgeu⟩
  · rw [← two_mul_signExtend]
    exact ⟨jumpLink_links .., jumpLink_links ..⟩

/-- Settles O8: YIELD completes in a state that differs in its core's age list alone; HALT completes by `settle`, and halts. -/
theorem yieldAndHalt : Obligations.YieldAndHalt := by
  unfold Obligations.YieldAndHalt
  intro s
  constructor
  · obtain ⟨hc, hs, ho⟩ := done_own (s.youngest s.cur) 4
    obtain ⟨hframe, -, hothers, -⟩ := ho
    refine ⟨_, rfl, hc, hs, (core_youngest ..).trans (if_pos rfl), fun c h => (core_youngest ..).trans (if_neg h), hothers, ?_⟩
    exact (congrArg (fun x : State => { x with cores := s.cores }) hframe).trans (modCore_frame ..)
  · have hth : (s.modTh fun th => { (({ th with pc := th.pc + 4 } : Thread).settle s.now class1) with st := .halted }).th =
        { ({ s.th with pc := s.th.pc + 4 } : Thread).settle s.now class1 with st := .halted } := by simp [State.th]
    refine ⟨_, rfl, ?_, ?_, ?_, ?_, setThread_only ..⟩ <;> rw [hth] <;> rfl

/-- Settles O9: each raises its cause, and TRAP's TVAL is its encoding. -/
theorem trapsTakeTheirCauses : Obligations.TrapsTakeTheirCauses := by
  unfold Obligations.TrapsTakeTheirCauses
  refine ⟨fun n s => ?_, fun bits s => ⟨raise_trapped .., raise_trapped .., raise_trapped .., raise_trapped ..⟩⟩
  have hbits : ibits (.trap n) = BitVec.ofNat 64 (n.val * 2 ^ 20 + 0x1F) := by
    revert n; decide +kernel
  rw [← hbits]
  exact raise_trapped ..

/-- Settles O10: a privileged ERET leaves `Thread.returned`, which undoes what trap entry did to PC and PRIV (`trap_priv`). -/
theorem eretReturns : Obligations.EretReturns := by
  unfold Obligations.EretReturns
  refine ⟨fun s => ⟨fun hp => ?_, fun hp => ?_⟩, fun s t u c tv ht hu => ?_⟩
  · rw [Answers, exec_eret hp]
    obtain ⟨h0, h1⟩ := s.th.returned_priv
    refine ⟨_, rfl, eret_transferred s 4, ?_⟩
    rw [eret_th, eret_eq]
    exact ⟨h0, h1, rfl, setThread_only ..⟩
  · have he : exec .eret s = s.raise 0x07 (ibits .eret) := if_neg (Bool.eq_false_iff.1 hp)
    rw [Answers, he]
    exact raise_trapped ..
  · cases ht
    obtain ⟨hp0, hp1⟩ := trap_priv s.th s.now c tv
    have hth := trap_th s c tv
    rw [exec_eret (hth ▸ hp0)] at hu
    cases hu
    rw [eret_th, hth]
    exact ⟨rfl, (Thread.returned_priv _).1.trans hp1, rfl, rfl, rfl, rfl⟩

end Sys2Proof.Proofs
end

section
/-! LOOP and LOOPI at count 0 whose end lies on an absent page (07 R103; 27 R275, R278). -/

namespace Sys2Proof.Machine

/-- The page of the end is absent: the thread waits to fetch, as an instruction that has issued. -/
theorem setLoop_absent {s s' : State} {i : BitVec 12} {gva : Nat} (lvl : Fin 2)
    (h : s.fetchAt s.cur (s.th.pc + 2 * i.zeroExtend 64) = (.absent gva, s')) :
    s.setLoop lvl 0 i = .next (s'.pageAbsent s'.cur 1 gva needX (s.th.pc + 2 * i.zeroExtend 64) (.fetch true)) := by
  unfold State.setLoop
  simp only [ne_eq, not_true_eq_false, if_false, h]

end Sys2Proof.Machine

namespace Sys2Proof.Proofs
open Sys2Proof.Machine

/-- Thread 0, of ASID 1, stands at offset 0 of a segment of 4 KiB, readable and executable, from GVA 0 on. The root node of its tables, in
HBM from 0 on, holds no entry, and its component has a fault service whose ring lies at 0x10000. -/
def absentCode : State :=
  { State.reset.setThread 0 { Thread.init with
      seg := ⟨[(0, BitVec.ofNat 128 (2 ^ 57 + 2 ^ 59 + 2 ^ 76))]⟩, asid := 1, st := .inflight } with
    cores := ⟨[(0, { Core.init with comp := some 0 })]⟩
    asids := ⟨[(1, ⟨true, 0, 0, 0x100000⟩)]⟩
    faultsvcs := ⟨[(0, ⟨0x10000, true, 4, 1, 100, 0, 0⟩)]⟩ }

theorem absentCode_fetch : absentCode.fetchAt 0 4 = (.absent 4, absentCode) := by decide +kernel

/-- Whatever the thread is told to do when the page has come, that is what it waits to do. -/
theorem absentCode_waits : ∀ a ∈ [Act.fetch true, .ifence],
    ((absentCode.pageAbsent 0 1 4 needX 4 a).thread 0).wait.map (·.act) = some a := by decide +kernel

/-- Refutes O7: the statement has a thread that meets an absent page at its loop's end wait with the operation of IFENCE, where the model,
as for any fetch, has it wait with that of a fetch. LOOPI 0, 0 with its end 4 bytes on, in `absentCode`, comes out differently. -/
theorem not_loopsSetUpTheirLevel : ¬ Obligations.LoopsSetUpTheirLevel := by
  unfold Obligations.LoopsSetUpTheirLevel
  intro h
  obtain ⟨-, -, -, -, habsent⟩ := h 0 0 0 2 absentCode (by decide)
  have hstated : exec (.loopi 0 0 2) absentCode = .next (absentCode.pageAbsent 0 1 4 needX 4 .ifence) :=
    habsent 4 absentCode rfl absentCode_fetch
  have hmodel : exec (.loopi 0 0 2) absentCode = .next (absentCode.pageAbsent 0 1 4 needX 4 (.fetch true)) :=
    setLoop_absent (s := absentCode) (i := 2) 0 absentCode_fetch
  have hnext := Host.Outcome.next.inj (hmodel.symm.trans hstated)
  have hact := congrArg (fun t : State => (t.thread 0).wait.map (·.act)) hnext
  rw [absentCode_waits _ (by simp), absentCode_waits _ (by simp)] at hact
  exact absurd hact (by decide)

end Sys2Proof.Proofs
end

section
/-! System registers: SYSR, and a SYSW that is accepted (07 R112, R113; 03 R27 to R29). -/

namespace Sys2Proof.Machine
open Sys2Proof.Spec

/-! ### Numbers of per-core registers (05 R64) -/

theorem sysPerCore_low : ∀ i, i < 8 → sysPerCore (0x100 + i) = some i := by decide
theorem sysPerCore_high : ∀ i, i < 64 → 16 ≤ i → sysPerCore (0x100 + i) = some i := by decide

theorem sysRead_perCore (s : State) (t : Nat) {n k : Nat} (h : sysPerCore n = some k) : s.sysRead t n = s.regAt (coreOf t) k := by
  simp only [State.sysRead, h]

theorem toNat_sysNumber {n : Nat} (h : n < 2 ^ 12) : (BitVec.ofNat 12 n).toNat = n := by
  rw [BitVec.toNat_ofNat, Nat.mod_eq_of_lt h]

/-! ### The four cycles of a per-core register (03 R28) -/

namespace Core

/-- A write of register j that cycle n sees. -/
def seen (n j : Nat) (e : Nat × Nat × Word) : Bool := e.2.1 == j && decide (e.1 + 4 ≤ n)
/-- A write that every cycle from `now` on sees. -/
def old (now : Nat) (e : Nat × Nat × Word) : Bool := decide (e.1 + 4 ≤ now)
/-- The value of the first write of a list that passes a test, or else d. -/
def firstOf (p : Nat × Nat × Word → Bool) (l : List (Nat × Nat × Word)) (d : Word) : Word := ((l.find? p).map (·.2.2)).getD d

theorem firstOf_cons (p : Nat × Nat × Word → Bool) (e : Nat × Nat × Word) (l : List (Nat × Nat × Word)) (d : Word) :
    firstOf p (e :: l) d = if p e then e.2.2 else firstOf p l d := by
  unfold firstOf
  rw [List.find?_cons]
  cases p e <;> rfl

theorem regAt_eq (c : Core) (n j : Nat) : c.regAt n j = firstOf (seen n j) c.recent (c.regs.get 0 j) := by
  unfold regAt firstOf seen
  split <;> rename_i h <;> rw [h] <;> rfl

/-- Writes listed newest first, folded into a map. -/
theorem get_fold (l : List (Nat × Nat × Word)) (m : Sp Word) (j : Nat) :
    (l.reverse.foldl (fun m e => m.set 0 e.2.1 e.2.2) m).get 0 j = firstOf (·.2.1 == j) l (m.get 0 j) := by
  rw [List.foldl_reverse]
  induction l with
  | nil => rfl
  | cons e r ih =>
    rw [List.foldr_cons, Sp.get_set, firstOf_cons, ih]
    simp only [beq_iff_eq, eq_comm (a := j)]

/-- Of writes listed newest first, the newest that cycle n sees is among the young ones, or else the newest of the old ones, which n
sees all. -/
theorem firstOf_young_or_old {now n : Nat} (hn : now ≤ n) (j : Nat) (d : Word) {l : List (Nat × Nat × Word)}
    (hl : l.Pairwise fun x y => y.1 ≤ x.1) :
    firstOf (seen n j) (l.filter fun e => !old now e) (firstOf (·.2.1 == j) (l.filter (old now)) d) = firstOf (seen n j) l d := by
  induction l with
  | nil => rfl
  | cons e r ih =>
    obtain ⟨hhead, htail⟩ := List.pairwise_cons.1 hl
    cases hold : old now e with
    | true =>
      have he : e.1 + 4 ≤ now := of_decide_eq_true hold
      have hall : ∀ x ∈ e :: r, x.1 + 4 ≤ now := List.forall_mem_cons.2 ⟨he, fun x hx => by have := hhead x hx; omega⟩
      have hyoung : (e :: r).filter (fun e => !old now e) = [] :=
        List.filter_eq_nil_iff.2 fun x hx => by simp [old, hall x hx]
      have holds : (e :: r).filter (old now) = e :: r := List.filter_eq_self.2 fun x hx => decide_eq_true (hall x hx)
      have hseen : (e :: r).find? (seen n j) = (e :: r).find? (·.2.1 == j) :=
        List.find?_congr fun x hx => by rw [seen, decide_eq_true ((hall x hx).trans hn), Bool.and_true]
      rw [hyoung, holds, firstOf, firstOf, firstOf, hseen]
      rfl
    | false =>
      rw [List.filter_cons_of_pos (by simp [hold]), List.filter_cons_of_neg (by simp [hold]), firstOf_cons, firstOf_cons, ih htail]

/-- A write is seen from the fourth cycle on, and until then and of any other register what was seen before. -/
theorem regAt_writeReg (c : Core) {now n : Nat} (k : Nat) (v : Word) (j : Nat) (hn : now ≤ n)
    (hl : c.recent.Pairwise fun x y => y.1 ≤ x.1) :
    (c.writeReg now k v).regAt n j = if j = k ∧ now + 4 ≤ n then v else c.regAt n j := by
  have hregs : (c.writeReg now k v).regs.get 0 j = firstOf (·.2.1 == j) (c.recent.filter (old now)) (c.regs.get 0 j) := get_fold ..
  have hrecent : (c.writeReg now k v).recent = (now, k, v) :: c.recent.filter fun e => !old now e := rfl
  rw [regAt_eq, regAt_eq, hrecent, firstOf_cons, hregs, firstOf_young_or_old hn j _ hl]
  simp only [seen, Bool.and_eq_true, beq_iff_eq, decide_eq_true_eq, eq_comm (a := k)]

/-- A write of a high half that no update of this cycle precedes (17 R220). -/
theorem writeHigh_eq (c : Core) {now k : Nat} (v : Word) (h : ∀ e ∈ c.recent, ¬ (e.1 = now ∧ e.2.1 = k)) :
    c.writeHigh now k v = c.writeReg now k v := by
  have hany : (c.recent.any fun e => e.1 == now && e.2.1 == k) = false :=
    List.any_eq_false.2 fun e he => by simpa using h e he
  rw [writeHigh, hany]
  rfl

end Core

/-! ### A value that is accepted -/

theorem and_eq_zero_of_lt {v k : Word} {m : Nat} (h : v.toNat < 2 ^ m) (hk : k.toNat % 2 ^ m = 0) : v &&& k = 0 := by
  apply BitVec.eq_of_toNat_eq
  rw [BitVec.toNat_and, ← Nat.div_add_mod k.toNat (2 ^ m), hk, Nat.add_zero]
  apply Nat.eq_of_testBit_eq
  intro i
  rw [Nat.testBit_and, Nat.testBit_two_pow_mul]
  by_cases hi : m ≤ i
  · rw [Nat.testBit_lt_two_pow (h.trans_le (Nat.pow_le_pow_right (by decide) hi))]
    simp
  · simp [hi]

theorem and_one_eq_zero {v : Word} (h : v.getLsbD 0 = false) : v &&& 1 = 0 := by
  have := BitVec.and_one_eq_setWidth_ofBool_getLsbD (x := v)
  rw [h] at this
  exact this

/-- A register below those of BFMT refuses reserved bits only. -/
theorem sysWriteCause_none {n : Nat} {v : Word} {p : Bool} (hn : sysMayWrite n p) (hlow : n < 0x110) (hv : v &&& sysReserved n = 0) :
    sysWriteCause n v p = none := by
  rw [sysWriteCause_value v hn, sysValueCause, if_neg (not_not.2 hv), if_neg (by omega), if_neg (by omega)]

theorem sysReserved_low : ∀ i, i < 8 → sysReserved (0x100 + i) = 0 := by decide
theorem sysWriteCause_low {i : Nat} (v : Word) {p : Bool} (hi : i < 8) : sysWriteCause (0x100 + i) v p = none :=
  sysWriteCause_none (sysMayWrite_of_le (by omega)) (by omega) (by rw [sysReserved_low i hi]; exact BitVec.and_zero)

/-- A BFMT register takes a format code up to 9. -/
theorem sysWriteCause_bfmt {i : Nat} {v : Word} {p : Bool} (hi : i < 16) (hv : v &&& 0xFFFFFFFFFFFF00F0 = 0) (hf : v.toNat % 16 ≤ 9) :
    sysWriteCause (0x110 + i) v p = none := by
  rw [sysWriteCause_value v (sysMayWrite_of_le (by omega)), sysValueCause, if_neg (not_not.2 ((sysReserved_bfmt i hi).symm ▸ hv)),
    if_neg (by omega), if_neg (by omega)]

/-- A buffer's low half takes a legal size and a base that is a multiple of it. -/
theorem sysWriteCause_cbLow {i z : Nat} {v : Word} {p : Bool} (hi : i < 16) (hv : v.toNat < 2 ^ 25) (hz : z = v.toNat / 2 ^ 20)
    (hsz : z = 0 ∨ (6 ≤ z ∧ z ≤ 20)) (hbase : v.toNat % 2 ^ 20 % 2 ^ z = 0) : sysWriteCause (0x120 + 2 * i) v p = none := by
  have hfield : v.toNat / 2 ^ 20 % 32 = z := by omega
  have hok : cbLowOk v = true := by
    unfold cbLowOk
    dsimp only
    rw [hfield, hbase]
    simpa using hsz
  rw [sysWriteCause_value v (sysMayWrite_of_le (by omega)), sysValueCause,
    if_neg (not_not.2 ((sysReserved_cbLow i hi).symm ▸ and_eq_zero_of_lt hv rfl)), if_neg (by simp [hok]), if_neg (by omega)]

/-- The counts of a buffer take any value. -/
theorem sysReserved_cbHigh : ∀ i, i < 16 → sysReserved (0x121 + 2 * i) = 0 := by decide
theorem sysWriteCause_cbHigh {i : Nat} (v : Word) {p : Bool} (hi : i < 16) : sysWriteCause (0x121 + 2 * i) v p = none := by
  rw [sysWriteCause_value v (sysMayWrite_of_le (by omega)), sysValueCause, sysReserved_cbHigh i hi, if_neg (by simp), if_neg (by omega),
    if_neg (by omega)]

/-! ### A SYSW that is accepted -/

theorem exec_sysw {s : State} {b : Reg} {n : BitVec 12} (hc : sysWriteCause n.toNat (s.g b) s.th.privileged = none) :
    exec (.sysw n b) s = .next ((s.sysWrite s.cur n.toNat (s.g b)).done 4) := by
  unfold exec execSysw
  simp only [hc]
  rfl

theorem sysWrite_perCore (s : State) (t : Nat) {n k : Nat} (v : Word) (h : sysPerCore n = some k) (hn : ¬ (0x120 ≤ n ∧ n % 2 = 1)) :
    s.sysWrite t n v = s.writeReg (coreOf t) k v := by
  simp only [State.sysWrite, h, if_neg hn]


theorem modCore_congr (s : State) (c : Nat) {f g : Core → Core} (h : f (s.core c) = g (s.core c)) : s.modCore c f = s.modCore c g :=
  congrArg (s.setCore c) h

/-- The counts of a buffer, where no update of this cycle precedes. -/
theorem sysWrite_cbHigh (s : State) {n k : Nat} (v : Word) (h : sysPerCore n = some k) (hn : 0x120 ≤ n) (h1 : n % 2 = 1)
    (hfirst : ∀ e ∈ (s.core (s.cur / 16)).recent, ¬ (e.1 = s.now ∧ e.2.1 = k)) :
    s.sysWrite s.cur n v = s.writeReg (coreOf s.cur) k v := by
  simp only [State.sysWrite, h, if_pos (And.intro hn h1)]
  exact modCore_congr s _ (Core.writeHigh_eq _ v hfirst)

/-- A register of the thread itself. -/
theorem answers_sysw_own {s : State} {b : Reg} {n : BitVec 12} {edit : Thread → Thread}
    (hc : sysWriteCause n.toNat (s.g b) s.th.privileged = none) (hw : s.sysWrite s.cur n.toNat (s.g b) = s.modTh edit)
    (hf : sameFlow s.th (edit s.th)) : Answers (.sysw n b) s fun t =>
      completed s t (s.th.pc + 4) 4 ∧ still t.th = still (edit s.th) ∧ onlyOwnThread s t := by
  rw [Answers, exec_sysw hc, hw]
  exact ⟨_, rfl, edit_done s edit 4 hf⟩

/-- What a write of per-core register k leaves: the register as written from the fourth cycle on, and nothing else changed. -/
def writesCore (s : State) (k : Nat) (v : Word) (t : State) : Prop :=
  let own := s.core (s.cur / 16)
  let own' := t.core (s.cur / 16)
  completed s t (s.th.pc + 4) 4 ∧ still t.th = still s.th ∧ (∀ c, c ≠ s.cur / 16 → t.core c = s.core c) ∧
  (∀ i, own'.regAt (s.now + 4 + i) k = v) ∧ (∀ i, i < 4 → own'.regAt (s.now + i) k = own.regAt (s.now + i) k) ∧
  (∀ j i, j ≠ k → own'.regAt (s.now + i) j = own.regAt (s.now + i) j) ∧
  { own' with regs := .empty, recent := [] } = { own with regs := .empty, recent := [] } ∧
  { t with threads := s.threads, cores := s.cores } = s ∧ (∀ u, u ≠ s.cur → t.thread u = s.thread u)

theorem core_writeReg (s : State) (c k : Nat) (v : Word) (i : Nat) :
    (s.writeReg c k v).core i = if i = c then (s.core c).writeReg s.now k v else s.core i := State.core_modCore ..

theorem writeReg_done (s : State) (k : Nat) (v : Word) (hl : (s.core (s.cur / 16)).recent.Pairwise fun x y => y.1 ≤ x.1) :
    writesCore s k v ((s.writeReg (coreOf s.cur) k v).done 4) := by
  obtain ⟨hc, hs, hframe, -, hothers, -⟩ := done_own (s.writeReg (coreOf s.cur) k v) 4
  have hcore (c : Nat) : ((s.writeReg (coreOf s.cur) k v).done 4).core c =
      if c = s.cur / 16 then (s.core (s.cur / 16)).writeReg s.now k v else s.core c := core_writeReg ..
  have hreg (i j : Nat) := Core.regAt_writeReg (s.core (s.cur / 16)) k v j (Nat.le_add_right s.now i) hl
  unfold writesCore
  dsimp only
  rw [hcore, if_pos rfl]
  refine ⟨hc, hs, fun c h => (hcore c).trans (if_neg h), fun i => ?_, fun i hi => ?_, fun j i hj => ?_, rfl, ?_, hothers⟩
  · rw [Nat.add_assoc, hreg, if_pos ⟨rfl, by omega⟩]
  · rw [hreg, if_neg (by omega)]
  · rw [hreg, if_neg fun h => hj h.1]
  · exact (congrArg (fun x : State => { x with cores := s.cores }) hframe).trans (modCore_frame ..)

/-- A per-core register. -/
theorem answers_sysw_core {s : State} {b : Reg} {n k : Nat} (hn : n < 2 ^ 12) (hc : sysWriteCause n (s.g b) s.th.privileged = none)
    (hw : s.sysWrite s.cur n (s.g b) = s.writeReg (coreOf s.cur) k (s.g b))
    (hl : (s.core (s.cur / 16)).recent.Pairwise fun x y => y.1 ≤ x.1) :
    Answers (.sysw (BitVec.ofNat 12 n) b) s (writesCore s k (s.g b)) := by
  rw [Answers, exec_sysw ((toNat_sysNumber hn).symm ▸ hc), toNat_sysNumber hn, hw]
  exact ⟨_, rfl, writeReg_done s k _ hl⟩

/-- PRIV, which the loop-end check of its own completion sees as written (07 R104). -/
theorem edit_priv_done (s : State) (v : Word) (t : State) (ht : t = (s.modTh fun x => { x with priv := v }).done 4) :
    t.th.priv = v ∧ pcRule { s.th with priv := v } t.th (s.th.pc + 4) ∧ t.th.st = .ready ∧ t.th.wait = none ∧
    (s.th.wait = none → t.th.readyAt = s.th.issuedAt + 4) ∧ { still t.th with priv := 0 } = { still s.th with priv := 0 } ∧
    onlyOwnThread s t := by
  have hth : (s.modTh fun x => { x with priv := v }).th = { s.th with priv := v } := by simp [State.th]
  obtain ⟨⟨hpc, hst, hwait, hready⟩, hs, -⟩ := done_own (s.modTh fun x => { x with priv := v }) 4
  rw [hth, ← ht] at hpc hready hs
  rw [← ht] at hst hwait
  refine ⟨congrArg Thread.priv hs, hpc, hst, hwait, hready, congrArg (fun x : Thread => { x with priv := 0 }) hs, ?_⟩
  rw [ht]
  rw [edit_done_eq 4 rfl]
  exact finishAt_only ..

end Sys2Proof.Machine

namespace Sys2Proof.Proofs
open Sys2Proof.Machine Sys2Proof.Spec

/-- Settles O11: SYSR is one `put` of `sysRead`, whose branches are the registers. -/
theorem sysrReads : Obligations.SysrReads := by
  unfold Obligations.SysrReads
  intro d s reads k comp
  have hcore {i : Nat} (hi : i < 64) (h : sysPerCore (0x100 + i) = some i) : reads (BitVec.ofNat 12 (0x100 + i)) (k.regAt s.now i) := by
    refine answers_put rfl ?_
    rw [toNat_sysNumber (by omega), sysRead_perCore s _ h]
    rfl
  exact ⟨answers_put rfl rfl, answers_put rfl rfl, answers_put rfl rfl, answers_put rfl rfl, answers_put rfl rfl, answers_put rfl rfl,
    answers_put rfl rfl, answers_put rfl rfl, answers_put rfl rfl, answers_put rfl rfl, answers_put rfl rfl, answers_put rfl rfl,
    answers_put rfl rfl, answers_put rfl rfl, answers_put rfl rfl, answers_put rfl rfl, answers_put rfl rfl,
    fun i hi => hcore (by omega) (sysPerCore_low i hi), fun i h16 hi => hcore hi (sysPerCore_high i hi h16)⟩

/-- Settles O12: a value that `sysValueCause` accepts is written by `sysWrite`; `Core.regAt_writeReg` gives the four cycles. -/
theorem syswWrites : Obligations.SyswWrites := by
  unfold Obligations.SyswWrites
  intro b s v writes own percore priv
  have hown {n : BitVec 12} {edit : Thread → Thread} (hm : sysMayWrite n.toNat s.th.privileged) (hn : n.toNat < 0x110)
      (hv : v &&& sysReserved n.toNat = 0) (hw : s.sysWrite s.cur n.toNat v = s.modTh edit)
      (hf : sameFlow s.th (edit s.th) := by exact ⟨rfl, rfl, rfl, rfl, rfl, rfl, rfl, rfl⟩) :
      writes n edit := answers_sysw_own (sysWriteCause_none hm hn hv) hw hf
  refine ⟨fun h => ?_, fun h => ?_, fun hp h => ?_, fun hp h => ?_, fun hp => ?_, fun hp h => ?_, fun hp h => ?_, fun hl =>
    ⟨fun hp h => ?_, fun i hi => ?_, fun i hi h hf => ?_, fun i z hi h hz hsz hbase => ?_, fun i hi h => ?_⟩⟩
  · exact hown (n := 2) (.inl rfl) (by decide) (and_eq_zero_of_lt h rfl) rfl
  · exact hown (n := 3) (.inl rfl) (by decide) h rfl
  · exact hown (n := 4) (.inr ⟨rfl, hp⟩) (by decide) (and_eq_zero_of_lt h rfl) rfl
  · exact hown (n := 5) (.inr ⟨rfl, hp⟩) (by decide) (and_one_eq_zero h) rfl
  · exact hown (n := 6) (.inr ⟨rfl, hp⟩) (by decide) BitVec.and_zero rfl
  · exact hown (n := 14) (.inr ⟨rfl, hp⟩) (by decide) (and_one_eq_zero h) rfl
  · rw [Answers, exec_sysw (sysWriteCause_none (.inr ⟨rfl, hp⟩) (by decide) (and_eq_zero_of_lt (m := 2) h rfl))]
    exact ⟨_, rfl, edit_priv_done s v _ rfl⟩
  · exact answers_sysw_core (n := 11) (by decide)
      (sysWriteCause_none (.inr ⟨rfl, hp⟩) (by decide) (and_eq_zero_of_lt (m := 1) h rfl)) rfl hl
  · exact answers_sysw_core (by omega) (sysWriteCause_low v hi)
      (sysWrite_perCore s _ v (sysPerCore_low i hi) (by omega)) hl
  · have hk := sysPerCore_high (16 + i) (by omega) (by omega)
    rw [show 0x100 + (16 + i) = 0x110 + i by omega] at hk
    exact answers_sysw_core (by omega) (sysWriteCause_bfmt hi h hf) (sysWrite_perCore s _ v hk (by omega)) hl
  · have hk := sysPerCore_high (32 + 2 * i) (by omega) (by omega)
    rw [show 0x100 + (32 + 2 * i) = 0x120 + 2 * i by omega] at hk
    exact answers_sysw_core (by omega) (sysWriteCause_cbLow hi h hz hsz hbase) (sysWrite_perCore s _ v hk (by omega)) hl
  · have hk := sysPerCore_high (33 + 2 * i) (by omega) (by omega)
    rw [show 0x100 + (33 + 2 * i) = 0x121 + 2 * i by omega] at hk
    exact answers_sysw_core (by omega) (sysWriteCause_cbHigh v hi) (sysWrite_cbHigh s v hk (by omega) (by omega) h) hl

end Sys2Proof.Proofs
end

section
/-! SEGLD (07 R114): a block that is at hand, and the image in it. -/

namespace Sys2Proof.Machine
open Sys2Proof.Spec

/-! ### Segmented addresses (11 R143) -/

theorem and_selector (a : Word) : (a &&& 0xE000000000000000).toNat = selOf a * 2 ^ 61 := by
  rw [selOf, BitVec.toNat_and, show (0xE000000000000000 : Word).toNat = (2 ^ 3 - 1) * 2 ^ 61 by decide]
  apply Nat.eq_of_testBit_eq
  intro i
  rw [Nat.testBit_and, Nat.testBit_mul_two_pow, Nat.testBit_mul_two_pow, Nat.testBit_two_pow_sub_one, Nat.testBit_div_two_pow]
  by_cases hi : 61 ≤ i
  · by_cases h64 : i < 64
    · simp [hi, show i - 61 < 3 by omega, Nat.sub_add_cancel hi]
    · simp [hi, Nat.sub_add_cancel hi, Nat.testBit_lt_two_pow (a.isLt.trans_le (Nat.pow_le_pow_right (by decide) (not_lt.1 h64)))]
  · simp [hi]

theorem and_offset (a : Word) : (a &&& 0x1FFFFFFFFFFFFFFF).toNat = a.toNat % 2 ^ 61 := by
  rw [BitVec.toNat_and, show (0x1FFFFFFFFFFFFFFF : Word).toNat = 2 ^ 61 - 1 by decide, Nat.and_two_pow_sub_one_eq_mod]

/-- The selector stays and the offset moves modulo 2^61. -/
theorem moveOff_eq_addOff (a : Word) (k : Int) : moveOff a k = addOff a k := by
  apply BitVec.eq_of_toNat_eq
  have ha := a.isLt
  have hsel : selOf a * 2 ^ 61 < 2 ^ 64 := by unfold selOf; omega
  have hoff : (a + BitVec.ofInt 64 k).toNat % 2 ^ 61 = ((offOf a + k) % 2 ^ 61).toNat := by
    rw [BitVec.toNat_add, BitVec.toNat_ofInt, offOf]
    omega
  have hsum : (addOff a k).toNat = selOf a * 2 ^ 61 + ((offOf a + k) % 2 ^ 61).toNat := by
    rw [addOff, BitVec.toNat_or, and_selector, and_offset, hoff, Nat.mul_comm, ← Nat.two_pow_add_eq_or_of_lt]
    omega
  rw [moveOff, BitVec.toNat_ofNat, hsum]
  unfold selOf at hsel ⊢
  omega

/-! ### A block that is at hand -/

/-- Two states that differ at most in what reading changes: the banks and stamps that it takes, what translation caches, and the counter
of free values. -/
def State.sameButRead (s t : State) : Prop :=
  { t with cores := s.cores, clusters := s.clusters, dies := s.dies, free := s.free } = s

namespace State.sameButRead

variable {s t u : State}

theorem refl (s : State) : s.sameButRead s := rfl
theorem trans (h : s.sameButRead t) (h' : t.sameButRead u) : s.sameButRead u := by
  have e := congrArg (fun x : State => { x with cores := s.cores, clusters := s.clusters, dies := s.dies, free := s.free }) h'
  exact Eq.trans e h
theorem of_tlb (h : s.sameButTlb t) : s.sameButRead t := by
  have e := congrArg (fun x : State => { x with cores := s.cores }) h
  exact e

theorem cur (h : s.sameButRead t) : t.cur = s.cur := by have e := congrArg State.cur h; exact e
theorem threads (h : s.sameButRead t) : t.threads = s.threads := by have e := congrArg State.threads h; exact e
theorem mem (h : s.sameButRead t) : t.mem = s.mem := by have e := congrArg State.mem h; exact e
theorem th (h : s.sameButRead t) : t.th = s.th := by rw [State.th, State.th, State.thread, State.thread, h.cur, h.threads]

theorem locate {cl : Nat} {asid : BitVec 12} {priv : Bool} {gva z : Nat} {k : AKind} {n : Need} {r : Xl}
    (e : s.locate cl asid priv gva z k n = (r, t)) : s.sameButRead t := by
  have h := s.locate_frame cl asid priv gva z k n
  rw [e] at h
  exact of_tlb h

theorem bankUse (s : State) (t loc : Nat) : s.sameButRead (s.bankUse t loc) := by
  unfold State.bankUse
  dsimp only
  split
  · split <;> rfl
  · rfl
theorem mergeStamp (s : State) (d : Nat) (v : Option Stamp) : s.sameButRead (s.mergeStamp d v) := by
  cases v <;> rfl
theorem readOwn (s : State) (t loc n : Nat) : s.sameButRead (s.readOwn t loc n) := (bankUse ..).trans (mergeStamp ..)

/-- Where a reading ends with the bytes at hand, it has changed nothing else. -/
def Ends {α : Type} (s : State) (f : α → State) (e : Except State α) : Prop := ∀ r, e = .ok r → s.sameButRead (f r)

theorem ends_error {α : Type} (s : State) (f : α → State) (x : State) : Ends s f (.error x) := fun _ h => by cases h
theorem ends_ite {α : Type} {f : α → State} {c : Prop} [Decidable c] {a b : Except State α} (ha : Ends s f a) (hb : Ends s f b) :
    Ends s f (if c then a else b) := by
  split
  · exact ha
  · exact hb
theorem ends_of {α : Type} {f : α → State} {e : Except State α} (h : s.sameButRead t) (he : Ends t f e) : Ends s f e :=
  fun r hr => h.trans (he r hr)

theorem gather (s : State) (t : Nat) (act : Act) (a : Word) (need : Need) (offs : List Nat) (got : List (Nat × List Byte))
    (wants : List Want) : Ends s (·.2.2) (s.gather t act a need offs got wants) := by
  delta State.gather
  refine brecOn_induct (motive := fun _ => State → List (Nat × List Byte) → List Want →
    Except State (List (Nat × List Byte) × List Want × State))
    (fun l g => ∀ s got wants, Ends s (·.2.2) (g s got wants)) ?_ ?_ offs s got wants
  · intro _ s got wants r hr
    cases hr
    exact refl s
  · intro o rest b m ih s got wants
    delta State.gather._f
    refine ends_ite (ih _ _ _) ?_
    extract_lets w th
    generalize hx : s.locate (clusterOf (coreOf t)) _ _ _ _ _ _ = r
    obtain ⟨loc | c | gva, x⟩ := r
    · refine ends_of (locate hx) (ends_ite (ends_ite (ends_error _ _ _) ?_) (ends_ite (ends_error _ _ _) (ih _ _ _)))
      exact ends_of (readOwn x t loc 8) (ih _ _ _)
    · exact ends_error _ _ _
    · exact ends_error _ _ _

theorem readBlock (s : State) (t : Nat) (act : Act) (a : Word) (n al : Nat) (k : RClass) (got : List (Nat × List Byte)) :
    Ends s (·.2) (s.readBlock t act a n al k got) := by
  rw [State.readBlock]
  extract_lets offs
  generalize segCause _ (selOf a) (offOf a) n needR = c
  cases c with
  | some c => exact ends_error _ _ _
  | none =>
    refine ends_ite (ends_error _ _ _) ?_
    have hg := gather s t act a needR offs got []
    revert hg
    generalize s.gather t act a needR offs got [] = r
    intro hg
    obtain x | ⟨got, _ | ⟨w, ws⟩, x⟩ := r
    · exact ends_error _ _ _
    · intro r hr
      cases hr
      exact hg _ rfl
    · exact ends_error _ _ _

end State.sameButRead

/-! ### SEGLD -/

/-- A thread with a segment register loaded: of seg0 the fetched parcels are discarded. -/
def Thread.loadSeg (x : Thread) (n : Fin 8) (g : BitVec 128) : Thread :=
  { x with seg := x.seg.set 0 n.val g, fetched := if n = 0 then [] else x.fetched }

theorem sameFlow_loadSeg (x : Thread) (n : Fin 8) (g : BitVec 128) : sameFlow x (x.loadSeg n g) :=
  ⟨rfl, rfl, rfl, rfl, rfl, rfl, rfl, rfl⟩

/-- SEGLD with its image at hand. -/
theorem segld_of_ok {s x : State} {t : Nat} {n : Fin 8} {a : Word} {got : List (Nat × List Byte)} {b : List Byte}
    (h : s.readBlock t (.segld n a) a 16 16 .o got = .ok (b, x)) : s.segld t n a got =
      if segOk (BitVec.ofNat 128 (leNat b)) then (x.modThread t (·.loadSeg n (BitVec.ofNat 128 (leNat b)))).finish t 4 8
      else x.trap t 0x03 a := by
  unfold State.segld
  rw [h]
  rfl

theorem exec_segld {n : Fin 8} {b : Reg} {i : BitVec 12} {s : State} (h : s.th.priv.getLsbD 0 = true) :
    exec (.segld n b i) s = .next (s.segld s.cur n (addOff (s.g b) (i.toInt * 16)) []) := by
  rw [← moveOff_eq_addOff]
  exact if_pos h

end Sys2Proof.Machine

namespace Sys2Proof.Proofs
open Sys2Proof.Machine Sys2Proof.Spec

/-- Settles O19: reading the block changes no thread and no byte (`State.sameButRead`); what it holds is loaded or refused by `segOk`. -/
theorem segldLoadsAnImage : Obligations.SegldLoadsAnImage := by
  unfold Obligations.SegldLoadsAnImage
  intro n b i s a
  refine ⟨fun hp => ?_, fun bytes s' hp hr => ?_, fun s' hp hr => ?_⟩
  · have he : exec (.segld n b i) s = s.raise 0x07 (ibits (.segld n b i)) := if_neg (Bool.eq_false_iff.1 hp)
    rw [Answers, he]
    exact raise_trapped ..
  · have hread : s.sameButRead s' := State.sameButRead.readBlock _ _ _ _ _ _ _ _ _ hr
    have hcur := hread.cur
    intro g
    refine ⟨fun hg => ?_, fun hg => ?_⟩
    · have he : exec (.segld n b i) s = .next ((s'.modTh (·.loadSeg n g)).done 8) := by
        rw [exec_segld hp, segld_of_ok hr, if_pos hg, State.modTh, State.done, State.modThread_cur, hcur]
      have hd := edit_done s' (·.loadSeg n g) 8 (sameFlow_loadSeg ..)
      rw [Answers, he]
      generalize (s'.modTh (·.loadSeg n g)).done 8 = t at hd
      obtain ⟨hc, hs, -, -, -, hmem⟩ := hd
      rw [hread.th] at hc hs
      exact ⟨t, rfl, ⟨8, hc⟩, congrArg Thread.seg hs, congrArg Thread.fetched hs,
        congrArg (fun x : Thread => { x with seg := .empty, fetched := [] }) hs, fun x => (hmem x).trans (by rw [hread.mem])⟩
    · have he : exec (.segld n b i) s = s'.raise 0x03 a := by
        rw [exec_segld hp, segld_of_ok hr, if_neg (Bool.eq_false_iff.1 hg), State.raise, hcur]
      rw [Answers, he]
      exact raise_trapped ..
  · rw [exec_segld hp, State.segld, hr]

end Sys2Proof.Proofs
end

section
/-! Mask registers as destinations (09 R116, R124, R134): what the frame of a mask instruction leaves out. -/

namespace Sys2Proof.Machine
open Sys2Proof.Spec

/-- The line of a mask register that an instruction has written is poisoned no more (17 R222). -/
theorem setM_vDone_vbad (s : State) {r : MReg} (v : Vec) (len : Word) (dist : Nat) (hr : r ≠ 0) {e : Nat × Poison}
    (he : e.1 = maskLine (laneOf s.cur) r.val) : e ∉ (((s.setM r v).vDone len dist).core (coreOf s.cur)).vbad := by
  rw [vDone_core, State.setM, if_neg hr, State.core_modCore, if_pos rfl]
  simp [he]

end Sys2Proof.Machine

namespace Sys2Proof.Proofs
open Sys2Proof.Machine Sys2Proof.Spec

/-- The poison of mask register 1 of thread 0. -/
def maskPoison : Nat × Poison := (maskLine 0 1, ⟨false, 0, 0⟩)

/-- Thread 0 with one byte element in a window of one register; the line of its mask register 1 is poisoned. -/
def poisonedMask : State :=
  (State.reset.setThread 0 { Thread.init with vtype := 0, vl := 1, winSize := 1 }).modCore 0 fun c => { c with vbad := [maskPoison] }

/-- An instruction that writes mask register 1 ends the poison of its line, which `vcompleted` of no registers says stays. -/
theorem mask_write_not_vcompleted (v : Vec) (len : Word) (dist : Nat) (n : Word) (more : Thread → Thread) :
    ¬ vcompleted poisonedMask ((poisonedMask.setM 1 v).vDone len dist) 0 0 n more := by
  rintro ⟨-, -, -, -, hvbad, -⟩
  have hstays := (hvbad maskPoison (Nat.lt_or_ge ..)).2 (by decide +kernel)
  exact setM_vDone_vbad poisonedMask v len dist (by decide) rfl hstays

/-- Refutes O23: VSEQ writes the 64 bytes of its mask register and so ends the poison of that line (17 R222), which the statement's frame
says stays. -/
theorem not_vectorCompareResults : ¬ Obligations.VectorCompareResults := by
  unfold Obligations.VectorCompareResults
  intro h
  obtain ⟨heq, -⟩ := h.1 .vi 0 1 0 0 poisonedMask (by decide) (by decide +kernel) (by decide +kernel) (by decide)
  obtain ⟨-, -, hdone⟩ := answers_next (i := .vseq .vi 0 1 0 0) rfl heq
  exact mask_write_not_vcompleted _ _ _ _ _ hdone

/-- Refutes O28: MAND, as every mask instruction, ends the poison of the line it writes (17 R222), which the statement's frame says
stays. -/
theorem not_maskInstructionResults : ¬ Obligations.MaskInstructionResults := by
  unfold Obligations.MaskInstructionResults
  intro h
  obtain ⟨hand, -⟩ := h 1 0 0 0 poisonedMask (by decide +kernel)
  obtain ⟨-, -, hdone⟩ := answers_next (i := .mand 1 0 0) rfl hand
  exact mask_write_not_vcompleted _ _ _ _ _ hdone

end Sys2Proof.Proofs
end

section
/-!
09 R116 to R121, R135: the checks and the end of a vector instruction whatever its destination, and what its elements read after it.
-/

namespace Sys2Proof.Machine
open Sys2Proof.Spec

/-! ### The checks (09 R119) -/

theorem meets_iff (a b : Group) : a.meets b = true ↔ ¬ Spec.apart a.base a.count b.base b.count := by
  simp only [Group.meets, Bool.and_eq_true, decide_eq_true_eq]
  omega

theorem meets_of_apart {a b : Group} (h : Spec.apart a.base a.count b.base b.count) : a.meets b = false :=
  Bool.eq_false_iff.2 fun hm => (meets_iff a b).1 hm h

/-- A legal type of a width that is taken, and groups in their places that overlap as they may, pass the checks. -/
theorem vCause_passes {x : Thread} {sewOk ovl : Bool} {gs : List Group} (hv : vtypeOk x) (hs : sewOk = true)
    (hg : ∀ g ∈ gs, groupOk x g.base g.count g.align) (ho : ovl = false) : x.vCause sewOk gs ovl = none := by
  subst hs ho
  exact vCause_eq_none hv hg

theorem vRun_passes {s : State} {i : Instr} {sewOk ovl : Bool} {gs : List Group} {x : VCtx} {dist : Nat} {body : Out1}
    (h : s.th.vCause sewOk gs ovl = none) :
    s.vRun i sewOk gs ovl x dist body = if x.empty then .next (s.vDone (lenOf i) dist) else body := by
  rw [State.vRun, h]

/-! ### Elements and their registers -/

/-- SEW is a width times a power of two where the width is no wider. -/
theorem goodWidth.sew_eq {x : Thread} {w : Nat} (hw : goodWidth w) (hle : w ≤ x.sew) : ∃ b, x.sew = w * 2 ^ b := by
  obtain ⟨a, rfl⟩ : ∃ a, w = 8 * 2 ^ a := by
    obtain rfl | rfl | rfl | rfl := hw
    exacts [⟨0, rfl⟩, ⟨1, rfl⟩, ⟨2, rfl⟩, ⟨3, rfl⟩]
  have hpow : a ≤ x.vtype.toNat % 8 := (Nat.pow_le_pow_iff_right (by decide)).1 (Nat.le_of_mul_le_mul_left hle (by decide))
  exact ⟨x.vtype.toNat % 8 - a, by rw [Nat.mul_assoc, ← Nat.pow_add, Nat.add_sub_cancel' hpow, Thread.sew]⟩

/-- An element of w bits, no wider than SEW and below VLMAX, lies in its group of G·w/SEW registers (09 R135). -/
theorem register_lt_sized {x : Thread} {w : Nat} (hw : goodWidth w) (hle : w ≤ x.sew) {i : Nat} (hi : i < x.vlmax) :
    i * w / 512 < max 1 (x.grp * w / x.sew) := by
  have hw0 : 0 < w := by obtain h | h | h | h := hw <;> omega
  obtain ⟨b, hb⟩ := hw.sew_eq hle
  have hb0 : 0 < 2 ^ b := Nat.two_pow_pos b
  have hwide : i * w * 2 ^ b < 512 * x.grp := by
    rw [Nat.mul_assoc, ← hb]
    have hs : 0 < x.sew := hb ▸ Nat.mul_pos hw0 hb0
    exact Nat.lt_of_lt_of_le (Nat.mul_lt_mul_of_pos_right hi hs) (Nat.div_mul_le_self ..)
  have hcount : x.grp * w / x.sew = x.grp / 2 ^ b := by rw [hb, Nat.mul_comm x.grp, Nat.mul_div_mul_left _ _ hw0]
  rw [hcount, Nat.div_lt_iff_lt_mul (by decide), Nat.mul_comm _ 512]
  unfold Thread.grp at *
  obtain hle | hle := Nat.le_total b (x.vtype.toNat / 8 % 4)
  · have hexact := Nat.div_mul_cancel (Nat.pow_dvd_pow 2 hle)
    rw [← hexact, ← Nat.mul_assoc] at hwide
    exact Nat.lt_of_lt_of_le (Nat.lt_of_mul_lt_mul_right hwide) (Nat.mul_le_mul_left _ (Nat.le_max_right ..))
  · have hsmall : i * w * 2 ^ b < 512 * 2 ^ b := Nat.lt_of_lt_of_le hwide (Nat.mul_le_mul_left _ (Nat.pow_le_pow_right (by decide) hle))
    have hone := Nat.le_max_left 1 (2 ^ (x.vtype.toNat / 8 % 4) / 2 ^ b)
    have := Nat.lt_of_mul_lt_mul_right hsmall
    omega

theorem putElems_cur (s : State) (t base w n : Nat) (l : List (Nat × Nat)) : (s.putElems t base w n l).cur = s.cur := by
  obtain ⟨-, -, -, -, hrest⟩ := s.putElems_frame t base w n l
  have h := congrArg State.cur hrest
  exact h

/-- A write of elements changes nothing of its own thread but the image record. -/
theorem putElems_th (s : State) (base w n : Nat) (l : List (Nat × Nat)) :
    (s.putElems s.cur base w n l).th = { s.th with oldV := (s.putElems s.cur base w n l).th.oldV } := by
  have h := (s.putElems_frame s.cur base w n l).1 s.cur
  rw [State.th, putElems_cur, State.th, ← h]

/-- An element reads as the number that `State.elem` gives after a write of elements. -/
theorem velem_putElems (s : State) (base w n : Nat) (l : List (Nat × Nat)) (r v i : Nat) :
    velem (s.putElems s.cur base w n l) r v i = BitVec.ofNat v ((s.putElems s.cur base w n l).elem s.cur r v i) := by
  rw [velem_eq, putElems_cur]

theorem elem_filter_putElems (s : State) (t base w n : Nat) (l : List (Nat × Nat)) (hw : goodWidth w) (hl : (l.map (·.1)).Nodup)
    (p : Nat → Bool) {j : Nat} (hn : j * w / 512 < n) :
    (s.putElems t base w n (l.filter fun e => p e.1)).elem t base w j =
      if p j then (s.putElems t base w n l).elem t base w j else s.elem t base w j := by
  have hsub : ((l.filter fun e => p e.1).map (·.1)).Nodup := hl.sublist (List.filter_sublist.map _)
  by_cases hp : p j = true
  · rw [if_pos hp]
    by_cases hm : ∃ v, (j, v) ∈ l
    · obtain ⟨v, hv⟩ := hm
      rw [State.elem_putElems_mem s t base w n l hw hl hv hn,
        State.elem_putElems_mem s t base w n _ hw hsub (List.mem_filter.2 ⟨hv, hp⟩) hn]
    · have habsent : ∀ e ∈ l, e.1 ≠ j := fun e he hj => hm ⟨e.2, hj ▸ he⟩
      rw [State.elem_putElems_ne s t base w n l hw habsent,
        State.elem_putElems_ne s t base w n _ hw fun e he => habsent e (List.mem_filter.1 he).1]
  · rw [if_neg hp]
    exact State.elem_putElems_ne s t base w n _ hw fun e he hj => hp (hj ▸ (List.mem_filter.1 he).2)

/-- An element reads as its class says after the elements of a context are written (09 R116). -/
theorem velem_written {s : State} {honour : Bool} {m : MReg} {r n w : Nat} {op : Nat → Nat} {new : Nat → BitVec w} (hw : goodWidth w)
    (hop : ∀ j, op j % 2 ^ w = (new j).toNat) {i : Nat} (hi : i < s.th.vlmax) (hn : i * w / 512 < n) :
    velem (s.putElems s.cur r w n ((s.th.vctx m honour).written w op)) r w i =
      classRule s.th honour m i (velem s r w i) (BitVec.allOnes w) (new i) := by
  apply BitVec.eq_of_toNat_eq
  rw [velem_toNat, putElems_cur, elem_written s r n w (s.th.vctx m honour) op hw i hi hn]
  simp only [classRule, apply_ite BitVec.toNat, velem_toNat, BitVec.toNat_allOnes, ← hop i]
  rfl

/-! ### Elements at the front, and the tail after them (09 R116, R127, R132, R137 to R140) -/

/-- The first n elements, and the tail after them up to an end. -/
def frontTail (w n stop : Nat) (ta : Bool) (val : Nat → Nat) : List (Nat × Nat) :=
  ((List.range n).map fun j => (j, val j)) ++
    if ta then ((List.range stop).filter fun j => decide (n ≤ j)).map fun j => (j, ones w) else []

theorem mem_frontTail {w n stop : Nat} {ta : Bool} {val : Nat → Nat} {j v : Nat} :
    (j, v) ∈ frontTail w n stop ta val ↔ (j < n ∧ v = val j) ∨ (ta = true ∧ n ≤ j ∧ j < stop ∧ v = ones w) := by
  cases ta <;> simp [frontTail] <;> grind

theorem frontTail_nodup (w n stop : Nat) (ta : Bool) (val : Nat → Nat) : ((frontTail w n stop ta val).map (·.1)).Nodup := by
  have hkeys (l : List Nat) (g : Nat → Nat) : (l.map fun j => (j, g j)).map (·.1) = l := by
    rw [List.map_map]
    exact List.map_id l
  rw [frontTail, List.map_append, hkeys, List.nodup_append]
  cases ta with
  | false => simp [List.nodup_range]
  | true =>
    rw [if_pos rfl, hkeys _ fun _ => ones w]
    refine ⟨List.nodup_range, List.nodup_range.filter _, ?_⟩
    simp
    omega

theorem zip_range (l : List Nat) : (List.range l.length).zip l = (List.range l.length).map fun j => (j, l.getD j 0) := by
  apply List.ext_getElem
  · simp
  · intro i _ h
    have hi : i < l.length := by simpa using h
    simp [List.getElem?_eq_getElem hi]

/-- What an element reads after a front and a tail are written. -/
theorem velem_frontTail {s : State} {r w n k stop : Nat} {ta : Bool} {val : Nat → Nat} (hw : goodWidth w) {j : Nat} (hj : j < stop)
    (hn : j * w / 512 < n) :
    velem (s.putElems s.cur r w n (frontTail w k stop ta val)) r w j =
      if j < k then BitVec.ofNat w (val j) else if ta then BitVec.allOnes w else velem s r w j := by
  have hin {v : Nat} (h : (j, v) ∈ frontTail w k stop ta val) :
      velem (s.putElems s.cur r w n (frontTail w k stop ta val)) r w j = BitVec.ofNat w v := by
    rw [velem_putElems, State.elem_putElems_mem _ _ _ _ _ _ hw (frontTail_nodup ..) h hn]
    exact BitVec.eq_of_toNat_eq (by simp)
  by_cases hk : j < k
  · rw [if_pos hk]
    exact hin (mem_frontTail.2 (.inl ⟨hk, rfl⟩))
  · rw [if_neg hk]
    cases hta : ta with
    | true =>
      rw [if_pos rfl, ← hta, hin (mem_frontTail.2 (.inr ⟨hta, Nat.not_lt.1 hk, hj, rfl⟩))]
      exact BitVec.eq_of_toNat_eq (by simp [ones])
    | false =>
      rw [if_neg Bool.false_ne_true, velem_putElems, State.elem_putElems_ne _ _ _ _ _ _ hw, ← velem_eq]
      intro e he hej
      obtain h | h := mem_frontTail.1 he
      · exact hk (hej ▸ h.1)
      · exact Bool.false_ne_true h.1

/-! ### The end (09 R118) -/

/-- The end of a vector instruction after a state that differs in the vector file of the own core and, in the own thread, in what `more`
forgets. -/
theorem vDone_vcompleted_more {s y : State} {r n : Nat} {more : Thread → Thread} (len : Word) (dist : Nat)
    (hflow : sameFlow s.th y.th)
    (hown : more { still y.th with vstart := 0, oldV := [] } = more { still s.th with vstart := 0, oldV := [] })
    (hother : ∀ u, u ≠ s.cur → y.thread u = s.thread u)
    (hvf : ∀ p, p < s.th.winBase + r ∨ s.th.winBase + r + n ≤ p →
      (y.core (s.cur / 16)).vf.get 0 p = (s.core (s.cur / 16)).vf.get 0 p)
    (hvbad : ∀ e, (e.1 < s.th.winBase + r ∨ s.th.winBase + r + n ≤ e.1) →
      (e ∈ (y.core (s.cur / 16)).vbad ↔ e ∈ (s.core (s.cur / 16)).vbad))
    (hcore : ∀ c, { y.core c with vf := (s.core c).vf, vbad := (s.core c).vbad } = s.core c)
    (hcores : ∀ c, c ≠ s.cur / 16 → y.core c = s.core c) (hrest : { y with threads := s.threads, cores := s.cores } = s) :
    vcompleted s (y.vDone len dist) r n len more := by
  have hcur : y.cur = s.cur := by
    have h := congrArg State.cur hrest
    exact h
  have hpc : y.th.pc = s.th.pc := hflow.1
  have hstill := vDone_still y len dist
  have hdone := vDone_completed y len dist
  obtain ⟨honly, -, hothers, hmem⟩ := vDone_only y len dist
  rw [hpc] at hdone
  have hcores' := vDone_core y len dist
  generalize y.vDone len dist = t at *
  refine ⟨⟨dist, completed_congr hflow hdone⟩, ?_, ?_, fun p hp => ?_, fun e he => ?_, fun c => ?_, fun c hc => ?_, ?_, fun u hu => ?_,
    fun a => ?_⟩
  · have h := congrArg Thread.vstart hstill
    exact h
  · rw [hstill]
    exact hown
  · rw [hcores', hvf p hp]
  · rw [hcores', hvbad e he]
  · rw [hcores', hcore]
  · rw [hcores', hcores c hc]
  · have h := congrArg (fun z : State => { z with threads := s.threads, cores := s.cores }) honly
    exact h.trans hrest
  · rw [hothers u (hcur ▸ hu), hother u hu]
  · have h := congrArg State.mem hrest
    rw [hmem a, ← h]

/-- An edit of the own thread that keeps its window leaves the elements. -/
theorem modTh_vDone_velem (y : State) {f : Thread → Thread} (hf : ∀ x, (f x).winBase = x.winBase) (len : Word) (dist r w i : Nat) :
    velem ((y.modTh f).vDone len dist) r w i = velem y r w i := by
  rw [vDone_velem]
  simp [velem, State.vreg, hf]

/-- Elements written and then a register of the own thread: all that `more` does not forget is as before. -/
theorem putElems_modTh_vDone (s : State) (r w n : Nat) (l : List (Nat × Nat)) {f more : Thread → Thread} (len : Word) (dist : Nat)
    (hflow : ∀ x, sameFlow x (f x))
    (hmore : ∀ x, more { still (f x) with vstart := 0, oldV := [] } = more { still x with vstart := 0, oldV := [] }) :
    vcompleted s (((s.putElems s.cur r w n l).modTh f).vDone len dist) r n len more := by
  obtain ⟨-, hother, hcore, hcores, hrest⟩ := s.putElems_frame s.cur r w n l
  have hcur := putElems_cur s s.cur r w n l
  have hth : ((s.putElems s.cur r w n l).modTh f).th = f { s.th with oldV := (s.putElems s.cur r w n l).th.oldV } := by
    rw [← putElems_th]
    simp [State.th]
  refine vDone_vcompleted_more len dist (hth ▸ ?_) (hth ▸ ?_) (fun u hu => ?_) (fun p hp => putElems_vf s s.cur r w n l hp)
    (fun e he => s.putElems_vbad s.cur r w n l e he) hcore hcores ?_
  · exact hflow { s.th with oldV := _ }
  · rw [hmore]
    rfl
  · rw [State.thread_modTh, hcur, if_neg hu, hother u hu]
  · have h := congrArg (fun z : State => { z with threads := s.threads, cores := s.cores }) hrest
    exact h

/-- The same of an instruction that writes no elements. -/
theorem modTh_vDone (s : State) {f more : Thread → Thread} (len : Word) (dist r n : Nat) (hflow : ∀ x, sameFlow x (f x))
    (hmore : ∀ x, more { still (f x) with vstart := 0, oldV := [] } = more { still x with vstart := 0, oldV := [] }) :
    vcompleted s ((s.modTh f).vDone len dist) r n len more := by
  have hth : (s.modTh f).th = f s.th := by simp [State.th]
  refine vDone_vcompleted_more len dist (hth ▸ hflow _) (hth ▸ hmore _) (fun u hu => ?_) (fun _ _ => rfl) (fun _ _ => Iff.rfl)
    (fun _ => rfl) (fun _ _ => rfl) rfl
  rw [State.thread_modTh, if_neg hu]

end Sys2Proof.Machine
end

section
/-! VSETL and VSETLI (09 R122). -/

namespace Sys2Proof.Machine
open Sys2Proof.Spec

/-- VTYPE's bits above the policies are zero when it is below 2^7. -/
theorem ushiftRight_seven_ne_zero (t : Word) : (t >>> 7 != 0) = decide (2 ^ 7 ≤ t.toNat) := by
  have h : t >>> 7 = 0 ↔ t.toNat < 2 ^ 7 := by
    rw [← BitVec.toNat_inj, BitVec.toNat_ushiftRight, Nat.shiftRight_eq_div_pow]
    simp
  rw [Bool.eq_iff_iff, bne_iff_ne, decide_eq_true_eq, Ne, h, Nat.not_lt]

/-- The types that set VILL (03 R31). -/
abbrev badType (t : Word) : Prop := 3 < t.toNat % 8 ∨ 2 ^ 7 ≤ t.toNat

/-- VTYPE and VL that a type and a requested length set (09 R122). -/
def typeSet (avl t : Word) : Word × Word :=
  if badType t then (0x8000000000000000, 0)
  else (t, if avl.toNat ≤ 512 * 2 ^ (t.toNat / 8 % 4) / (8 * 2 ^ (t.toNat % 8)) then avl
    else BitVec.ofNat 64 (512 * 2 ^ (t.toNat / 8 % 4) / (8 * 2 ^ (t.toNat % 8))))

/-- A thread whose type and length are set, the length also in a general register. -/
def Thread.withType (x : Thread) (d : Reg) (avl t : Word) : Thread :=
  { x with vtype := (typeSet avl t).1, vl := (typeSet avl t).2 }.wr d (typeSet avl t).2

theorem setType_eq (s : State) (d : Reg) (avl t : Word) :
    s.setType d avl t = .next ((s.modTh (·.withType d avl t)).vDone 4 class1) := by
  unfold State.setType Thread.withType typeSet
  rw [ushiftRight_seven_ne_zero, ← Bool.decide_or]
  by_cases h : badType t
  · simp only [if_pos h, decide_eq_true h, if_true]
  · simp only [if_neg h, decide_eq_false h, Bool.false_eq_true, if_false]

theorem typeSet_bad {avl t : Word} (h : badType t) : typeSet avl t = (0x8000000000000000, 0) := if_pos h

theorem typeSet_good {avl t : Word} (h : ¬ badType t) :
    (typeSet avl t).1 = t ∧ (typeSet avl t).2.toNat = min avl.toNat (512 * 2 ^ (t.toNat / 8 % 4) / (8 * 2 ^ (t.toNat % 8))) := by
  have hmax : 512 * 2 ^ (t.toNat / 8 % 4) / (8 * 2 ^ (t.toNat % 8)) < 2 ^ 64 := by
    have h8 : 2 ^ (t.toNat / 8 % 4) ≤ 2 ^ 3 := Nat.pow_le_pow_right (by decide) (by omega)
    exact Nat.lt_of_le_of_lt (Nat.div_le_self ..) (by omega)
  rw [typeSet, if_neg h]
  generalize 512 * 2 ^ (t.toNat / 8 % 4) / (8 * 2 ^ (t.toNat % 8)) = vlmax at hmax ⊢
  refine ⟨rfl, ?_⟩
  dsimp only
  split
  · omega
  · rw [BitVec.toNat_ofNat, Nat.mod_eq_of_lt hmax]
    omega

/-- An edit of the own thread and the end of a vector instruction (09 R118). -/
theorem modTh_vDone_eq (s : State) (f : Thread → Thread) (len : Word) (dist : Nat) (hpc : (f s.th).pc = s.th.pc) :
    (s.modTh f).vDone len dist = (s.modTh fun x => { f x with vstart := 0 }).finishAt s.cur (s.th.pc + len) dist := by
  have hth : (s.modTh f).th.pc = s.th.pc := by simpa [State.th] using hpc
  rw [vDone_eq, hth]
  exact congrArg (State.finishAt · s.cur (s.th.pc + len) dist) (State.modThread_modThread s s.cur f fun th => { th with vstart := 0 })

/-- What `still` keeps says what a register reads. -/
theorem rd_of_still {x y : Thread} (h : still x = still y) (r : Reg) : x.rd r = y.rd r := by
  have hg := congrArg Thread.g h
  exact congrArg (fun g : Sp Word => if r = 0 then 0 else g.get 0 r.val) hg

/-- The thread after its type and length are set, in all that its next instruction does not change. -/
theorem withType_vDone (s : State) (d : Reg) (avl t : Word) :
    let u := (s.modTh (·.withType d avl t)).vDone 4 class1
    still u.th = still { s.th.withType d avl t with vstart := 0 } ∧ completed s u (s.th.pc + 4) class1 ∧ onlyOwnThread s u := by
  have hpc : (s.th.withType d avl t).pc = s.th.pc := Thread.wr_pc ..
  rw [modTh_vDone_eq s _ 4 class1 hpc]
  exact ⟨finishAt_still s .., finishAt_completed s _ _ _ (sameFlow_wr { s.th with vtype := _, vl := _ } ..), finishAt_only s ..⟩

theorem withType_fields (x : Thread) (d : Reg) (avl t : Word) :
    (x.withType d avl t).vtype = (typeSet avl t).1 ∧ (x.withType d avl t).vl = (typeSet avl t).2 ∧
    { stillG { x.withType d avl t with vstart := 0 } with vtype := 0, vl := 0 } = { stillG x with vtype := 0, vl := 0, vstart := 0 } := by
  unfold Thread.withType Thread.wr
  split <;> exact ⟨rfl, rfl, rfl⟩

end Sys2Proof.Machine

namespace Sys2Proof.Proofs
open Sys2Proof.Machine Sys2Proof.Spec

/-- Settles O20: both are one `setType`, which sets what `typeSet` gives. -/
theorem vsetSetsTypeAndLength : Obligations.VsetSetsTypeAndLength := by
  unfold Obligations.VsetSetsTypeAndLength
  intro d b c sew grp ta ma s sets
  have key {i : Instr} {avl ty : Word} (he : exec i s = s.setType d avl ty) : sets i avl ty := by
    obtain ⟨hstill, hdone, honly⟩ := withType_vDone s d avl ty
    obtain ⟨hvtype, hvl, hframe⟩ := withType_fields s.th d avl ty
    refine ⟨_, he.trans (setType_eq ..), ?_⟩
    generalize (s.modTh (·.withType d avl ty)).vDone 4 class1 = u at *
    have hty : u.th.vtype = (typeSet avl ty).1 := (congrArg Thread.vtype hstill :).trans hvtype
    have hlen : u.th.vl = (typeSet avl ty).2 := (congrArg Thread.vl hstill :).trans hvl
    refine ⟨fun hbad => ?_, fun hgood => ?_, fun r => ?_, ⟨_, hdone⟩, (congrArg Thread.vstart hstill :), ?_, honly⟩
    · rw [hty, hlen, typeSet_bad hbad]
      exact ⟨rfl, rfl⟩
    · rw [hty, hlen]
      exact typeSet_good hgood
    · rw [hlen]
      exact (rd_of_still hstill r).trans (Thread.rd_wr ..)
    · have h := congrArg (fun x : Thread => { x with g := .empty, oldG := [], vtype := 0, vl := 0, vstart := 0 }) hstill
      exact h.trans (congrArg (fun x : Thread => { x with vstart := 0 }) hframe)
  refine ⟨key rfl, key ?_⟩
  have hty : BitVec.ofNat 64 (sew.val + 8 * grp.val + (if ta then 32 else 0) + (if ma then 64 else 0)) =
      BitVec.ofNat 64 (sew.val + 8 * grp.val + 32 * bit ta + 64 * bit ma) := by cases ta <;> cases ma <;> rfl
  rw [hty]
  rfl

end Sys2Proof.Proofs
end

section
/-! Element-wise vector integer instructions (09 R123, R125): their operations on bit vectors, and their results in every form. -/

namespace Sys2Proof.Machine
open Sys2Proof.Spec

/-! ### Element operations on bit vectors -/

theorem wrapI_mod (w : Nat) (z : Int) : wrapI w z % 2 ^ w = (BitVec.ofInt w z).toNat := by
  have hcast : ((2 ^ w : Nat) : Int) = 2 ^ w := Int.natCast_pow 2 w
  have hlt : wrapI w z < 2 ^ w := by
    have h0 : (0 : Int) < 2 ^ w := Int.pow_pos (by decide)
    have := Int.emod_lt_of_pos z h0
    unfold wrapI
    omega
  rw [Nat.mod_eq_of_lt hlt, wrapI, BitVec.toNat_ofInt, hcast]

theorem ofInt_sub (w : Nat) (x y : Int) : BitVec.ofInt w (x - y) = BitVec.ofInt w x - BitVec.ofInt w y := by
  rw [Int.sub_eq_add_neg, BitVec.ofInt_add, BitVec.ofInt_neg, BitVec.sub_eq_add_neg]

/-- The high half of a number of two widths. -/
theorem high_half {w : Nat} (n : Nat) : n / 2 ^ w % 2 ^ w = ((BitVec.ofNat (2 * w) n >>> w).truncate w).toNat := by
  rw [BitVec.truncate_eq_setWidth, BitVec.toNat_setWidth, BitVec.toNat_ushiftRight, Nat.shiftRight_eq_div_pow, BitVec.toNat_ofNat,
    Nat.two_mul, Nat.pow_add, Nat.mod_mul_right_div_self, Nat.mod_mod]

/-- The quotient of an integer by 2^w, modulo 2^w, from the integer modulo 2^(2w). -/
theorem emod_two_pow_ediv (w : Nat) (z : Int) : z / 2 ^ w % 2 ^ w = z % 2 ^ (2 * w) / 2 ^ w := by
  have h0 : (2 : Int) ^ w ≠ 0 := pow_ne_zero w (by decide)
  have hsq : (2 : Int) ^ (2 * w) = 2 ^ w * 2 ^ w := by rw [Nat.two_mul, pow_add]
  have hnn : (0 : Int) ≤ 2 ^ w := by positivity
  have hquot : z / 2 ^ (2 * w) = z / 2 ^ w / 2 ^ w := by rw [hsq, Int.ediv_ediv_of_nonneg hnn]
  rw [Int.emod_def z, hquot, hsq, Int.mul_assoc, Int.sub_mul_ediv_left _ _ h0, Int.emod_def]

section
variable {w : Nat} (x y z : BitVec w) (d : Nat)

theorem eRsub_toNat : eRsub w x.toNat y.toNat d % 2 ^ w = (y - x).toNat := eSub_toNat y x d

theorem eMulhu_toNat : eMulhu w x.toNat y.toNat d % 2 ^ w =
    (((x.zeroExtend (2 * w) * y.zeroExtend (2 * w)) >>> w).truncate w).toNat := by
  have hprod : BitVec.ofNat (2 * w) (x.toNat * y.toNat) = x.zeroExtend (2 * w) * y.zeroExtend (2 * w) := by
    rw [BitVec.ofNat_mul, BitVec.ofNat_toNat, BitVec.ofNat_toNat]
  rw [eMulhu, high_half, hprod]

theorem eMulh_toNat : eMulh w x.toNat y.toNat d % 2 ^ w =
    (((x.signExtend (2 * w) * y.signExtend (2 * w)) >>> w).truncate w).toNat := by
  have hprod : BitVec.ofInt (2 * w) (x.toInt * y.toInt) = x.signExtend (2 * w) * y.signExtend (2 * w) := BitVec.ofInt_mul ..
  rw [eMulh, sgn_toNat, sgn_toNat, ← hprod]
  generalize x.toInt * y.toInt = p
  have hnat : p % 2 ^ (2 * w) = ((BitVec.ofInt (2 * w) p).toNat : Int) := by
    rw [BitVec.toNat_ofInt, Int.natCast_pow, Int.toNat_of_nonneg (Int.emod_nonneg _ (pow_ne_zero _ (by decide)))]
    rfl
  have hquot (n : Nat) : ((n : Int) / 2 ^ w).toNat = n / 2 ^ w := by norm_cast
  rw [wrapI, emod_two_pow_ediv, hnat, hquot, high_half, BitVec.ofNat_toNat, BitVec.setWidth_eq]

theorem eMacc_toNat : eMacc w x.toNat y.toNat z.toNat % 2 ^ w = (z + x * y).toNat := by
  rw [eMacc, BitVec.toNat_add, BitVec.toNat_mul, Nat.add_mod_mod]

theorem eNmsac_toNat : eNmsac w x.toNat y.toNat z.toNat % 2 ^ w = (z - x * y).toNat := by
  rw [eNmsac, wrapI_mod, ofInt_sub, BitVec.ofInt_mul]
  simp only [BitVec.ofInt_natCast, BitVec.ofNat_toNat, BitVec.setWidth_eq]

theorem eSra_toNat : eSra w x.toNat y.toNat d % 2 ^ w = (x.sshiftRight (y.toNat % w)).toNat := by
  rw [eSra, sgn_toNat, wrapI_mod, BitVec.sshiftRight, Int.shiftRight_eq_div_pow]
  norm_cast

theorem eMinu_toNat : eMinu w x.toNat y.toNat d % 2 ^ w = (if y.toNat < x.toNat then y else x).toNat := by
  rw [eMinu]
  split
  · rw [Nat.min_eq_right (by omega), Nat.mod_eq_of_lt y.isLt]
  · rw [Nat.min_eq_left (by omega), Nat.mod_eq_of_lt x.isLt]

theorem eMaxu_toNat : eMaxu w x.toNat y.toNat d % 2 ^ w = (if x.toNat < y.toNat then y else x).toNat := by
  rw [eMaxu]
  split
  · rw [Nat.max_eq_right (by omega), Nat.mod_eq_of_lt y.isLt]
  · rw [Nat.max_eq_left (by omega), Nat.mod_eq_of_lt x.isLt]

theorem append_toNat : (x ++ y).toNat = x.toNat * 2 ^ w + y.toNat := by
  rw [BitVec.toNat_append, ← Nat.shiftLeft_add_eq_or_of_lt y.isLt, Nat.shiftLeft_eq]

theorem eFshl_toNat : eFshl w x.toNat y.toNat z.toNat % 2 ^ w = (((z ++ x) <<< (y.toNat % w) >>> w).truncate w).toNat := by
  rw [BitVec.truncate_eq_setWidth, BitVec.toNat_setWidth, BitVec.toNat_ushiftRight, BitVec.toNat_shiftLeft, append_toNat,
    Nat.shiftRight_eq_div_pow, Nat.shiftLeft_eq, Nat.pow_add, Nat.mod_mul_right_div_self, Nat.mod_mod]
  rfl

theorem eFshr_toNat : eFshr w x.toNat y.toNat z.toNat % 2 ^ w = (((z ++ x) >>> (y.toNat % w)).truncate w).toNat := by
  rw [BitVec.truncate_eq_setWidth, BitVec.toNat_setWidth, BitVec.toNat_ushiftRight, append_toNat, Nat.shiftRight_eq_div_pow]
  rfl

theorem popBits_mod : popBits w x.toNat % 2 ^ w = x.cpop.toNat := by
  rw [popBits_toNat, BitVec.cpop, BitVec.toNat_ofNat]

theorem clzBits_mod (hw : 0 < w) : clzBits w x.toNat % 2 ^ w = x.clz.toNat := by
  have hclz : clzBits w x.toNat = x.clz.toNat := by
    by_cases hx : x = 0
    · subst hx
      have hzero : (0 : BitVec w).clz = w := BitVec.clz_eq_iff_eq_zero.2 rfl
      have hlt : w < 2 ^ w := Nat.lt_two_pow_self
      rw [hzero, clzBits]
      simp [Nat.mod_eq_of_lt hlt]
    · have hlo := BitVec.two_pow_sub_clz_le_toNat_of_ne_zero hw hx
      have hhi := BitVec.toNat_lt_two_pow_sub_clz (x := x)
      have hlt : x.clz.toNat < w := by
        have h := BitVec.lt_def.1 (BitVec.clz_lt_iff_ne_zero.2 hx)
        simpa [Nat.mod_eq_of_lt (Nat.lt_two_pow_self (n := w))] using h
      have h0 : x.toNat ≠ 0 := fun h => hx (BitVec.eq_of_toNat_eq (by simpa using h))
      have hlog : Nat.log2 x.toNat = w - 1 - x.clz.toNat := by
        rw [Nat.log2_eq_iff h0]
        exact ⟨hlo, by rwa [show w - 1 - x.clz.toNat + 1 = w - x.clz.toNat by omega]⟩
      rw [clzBits, if_neg h0, hlog]
      omega
  rw [hclz, Nat.mod_eq_of_lt x.clz.isLt]

end

/-! ### Results -/

/-- Operand b of an element as its bits (09 R116). -/
theorem opB_toNat (s : State) (f : VForm) (b : Reg) {w : Nat} (uns : Bool) (j : Nat) (hw : goodWidth w) :
    s.opB f b w uns j = (vop s f b uns w j).toNat := by
  cases f with
  | vv => exact (velem_toNat s b.val w j).symm
  | vx | vf => exact (BitVec.toNat_setWidth w (s.g b)).symm
  | vi =>
    cases uns with
    | false => rfl
    | true =>
      have hle : 2 ^ 8 ≤ 2 ^ w := Nat.pow_le_pow_right (by decide) (by obtain h | h | h | h := hw <;> omega)
      have hlt : b.val < 2 ^ w := by have := b.isLt; omega
      exact (Nat.mod_eq_of_lt hlt).symm

/-- An element-wise instruction whose operation on numbers is one on bit vectors. -/
theorem vInt_results {s : State} {i : Instr} {f : VForm} {m : MReg} {d c b : Reg} {uns : Bool}
    {op : Nat → Nat → Nat → Nat → Nat} {g : BitVec s.th.sew → BitVec s.th.sew → BitVec s.th.sew → BitVec s.th.sew}
    (he : exec i s = s.vInt i f m d c b uns class2 op) (hv : vtypeOk s.th) (hd : groupOk s.th d.val s.th.grp s.th.grp)
    (hc : groupOk s.th c.val s.th.grp s.th.grp) (hb : f = .vv → groupOk s.th b.val s.th.grp s.th.grp)
    (hlen : lenOf i = 4)
    (hop : ∀ x y z : BitVec s.th.sew, op s.th.sew x.toNat y.toNat z.toNat % 2 ^ s.th.sew = (g x y z).toNat) :
    Answers i s (writesV s true m d.val s.th.grp s.th.sew s.th.vlmax (fun _ => False) 4 plain fun j =>
      g (velem s c.val s.th.sew j) (vop s f b uns s.th.sew j) (velem s d.val s.th.sew j)) := by
  rw [← hlen]
  refine vInt_writesV he hv hd hc hb fun j => ?_
  rw [opB_toNat s f b uns j (goodWidth_sew hv), ← velem_toNat, ← velem_toNat]
  exact hop ..

end Sys2Proof.Machine

namespace Sys2Proof.Proofs
open Sys2Proof.Machine Sys2Proof.Spec

/-- Settles O21: each instruction is one `vInt` or writes operand b or an element by the mask, and each element operation is the one on
bit vectors. -/
theorem vectorIntegerResults : Obligations.VectorIntegerResults := by
  unfold Obligations.VectorIntegerResults
  intro f m d c b s _ hv w n hd hc hb op
  have hw := goodWidth_sew hv
  have hw0 : 0 < s.th.sew := by obtain h | h | h | h := hw <;> omega
  have run {i : Instr} {uns : Bool} {e : Nat → Nat → Nat → Nat → Nat} {g : BitVec w → BitVec w → BitVec w → BitVec w}
      (he : exec i s = s.vInt i f m d c b uns class2 e) (hlen : lenOf i = 4)
      (hg : ∀ x y z : BitVec w, e w x.toNat y.toNat z.toNat % 2 ^ w = (g x y z).toNat) : op i uns g :=
    vInt_results he hv hd hc hb hlen hg
  have one {i : Instr} {e : Nat → Nat → Nat → Nat → Nat} {g : BitVec w → BitVec w}
      (he : exec i s = s.vInt i .vx m d c 0 false class2 e) (hlen : lenOf i = 4)
      (hg : ∀ x y z : BitVec w, e w x.toNat y.toNat z.toNat % 2 ^ w = (g x).toNat) : op i false fun a _ _ => g a :=
    vInt_results (f := .vx) (b := 0) (g := fun a _ _ => g a) he hv hd hc (nomatch ·) hlen hg
  clear_value op
  refine ⟨run rfl rfl (fun x y z => eAdd_toNat x y _), run rfl rfl (fun x y z => eSub_toNat x y _),
    run rfl rfl (fun x y z => eRsub_toNat x y _), run rfl rfl (fun x y z => eMul_toNat x y _),
    run rfl rfl (fun x y z => eMulh_toNat x y _), run rfl rfl (fun x y z => eMulhu_toNat x y _),
    run rfl rfl eMacc_toNat, run rfl rfl eNmsac_toNat,
    run rfl rfl (fun x y z => eAnd_toNat x y _), run rfl rfl (fun x y z => eOr_toNat x y _),
    run rfl rfl (fun x y z => eXor_toNat x y _), run rfl rfl (fun x y z => eSll_toNat x y _),
    run rfl rfl (fun x y z => eSrl_toNat x y _), run rfl rfl (fun x y z => eSra_toNat x y _),
    run rfl rfl (fun x y z => eMin_toNat x y _), run rfl rfl (fun x y z => eMax_toNat x y _),
    run rfl rfl (fun x y z => eMinu_toNat x y _), run rfl rfl (fun x y z => eMaxu_toNat x y _),
    run rfl rfl eFshl_toNat, run rfl rfl eFshr_toNat,
    one (e := fun w a _ _ => clzBits w a) rfl rfl (fun x _ _ => clzBits_mod x hw0),
    one (e := fun w a _ _ => popBits w a) rfl rfl (fun x _ _ => popBits_mod x), ?_, ?_⟩
  · have hpass : s.th.vCause true (s.th.group d :: s.th.group c :: s.th.groupB f b) false = none :=
      vCause_eq_none hv (List.forall_mem_cons.2 ⟨group_passes hd, List.forall_mem_cons.2 ⟨group_passes hc, groupB_passes hb⟩⟩)
    refine vRun_writesV (i := .vmerge f m d c b) (m := 0) hv hpass fun j => ?_
    rw [opB_toNat s f b false j hw, ← velem_toNat, ← apply_ite BitVec.toNat, Nat.mod_eq_of_lt (BitVec.isLt _)]
  · refine vMove_writesV (i := .vmv f d b) rfl hv hd hb fun j => ?_
    rw [opB_toNat s f b false j hw, Nat.mod_eq_of_lt (BitVec.isLt _)]

end Sys2Proof.Proofs
end

section
/-! The checks of the vector instructions (09 R119; 05 R45): each instruction makes them by `vCause`, and each way they fail is a trap. -/

namespace Sys2Proof.Machine
open Sys2Proof.Spec

/-- A group as `vchecks` names it: its base, its number of registers and the multiple its base must be. -/
def Group.parts (g : Group) : Nat × Nat × Nat := (g.base, g.count, g.align)

/-! ### The three ways the checks fail -/

section
variable {x : Thread} {sewOk ovl : Bool} {gs : List Group}

theorem vCause_illegal (h : ¬ (x.vtype.getLsbD 63 = false ∧ sewOk = true)) : x.vCause sewOk gs ovl = some 0x09 := by
  rw [Thread.vCause, if_pos]
  rw [Thread.vill, Bool.or_eq_true, Bool.not_eq_true']
  rwa [not_and_or, Bool.not_eq_false, Bool.not_eq_true] at h

theorem vCause_outside (h : x.vtype.getLsbD 63 = false ∧ sewOk = true) (hg : ¬ ∀ g ∈ gs, g.base + g.count ≤ x.winSize) :
    x.vCause sewOk gs ovl = some 0x08 := by
  have hok : ¬ (x.vill || !sewOk) = true := by rw [Thread.vill, h.1, h.2]; decide
  rw [Thread.vCause, if_neg hok, if_pos]
  simpa using hg

theorem vCause_unclean (h : x.vtype.getLsbD 63 = false ∧ sewOk = true) (hin : ∀ g ∈ gs, g.base + g.count ≤ x.winSize)
    (hg : ¬ ((∀ g ∈ gs, g.base % g.align = 0) ∧ ovl = false)) : x.vCause sewOk gs ovl = some 0x04 := by
  have hok : ¬ (x.vill || !sewOk) = true := by rw [Thread.vill, h.1, h.2]; decide
  have hwin : ¬ (gs.any fun g => decide (x.winSize < g.base + g.count)) = true := by simpa using hin
  rw [Thread.vCause, if_neg hok, if_neg hwin, if_pos]
  rw [Bool.or_eq_true, List.any_eq_true]
  rw [not_and_or, Bool.not_eq_false] at hg
  obtain hg | hg := hg
  · left
    simpa using hg
  · exact .inr hg

end

section
variable {s : State} {i : Instr} {sewOk ovl : Bool} {gs : List Group} {takes overlap : Prop} {groups : List (Nat × Nat × Nat)}

/-- An instruction that raises what `vCause` finds makes the checks of 09 R119 in their order. -/
theorem vchecks_of_raises (he : ∀ k, s.th.vCause sewOk gs ovl = some k → exec i s = s.raise k (ibits i))
    (hg : ∀ p, p ∈ groups ↔ p ∈ gs.map Group.parts) (ht : sewOk = true ↔ takes) (ho : ovl = true ↔ overlap) :
    vchecks s takes groups overlap i := by
  have hin : (∀ g ∈ groups, g.1 + g.2.1 ≤ s.th.winSize) ↔ ∀ g ∈ gs, g.base + g.count ≤ s.th.winSize := by
    simp only [hg, List.forall_mem_map]
    rfl
  have hal : (∀ g ∈ groups, g.1 % g.2.2 = 0) ↔ ∀ g ∈ gs, g.base % g.align = 0 := by
    simp only [hg, List.forall_mem_map]
    rfl
  have htrap {k : Cause} (h : s.th.vCause sewOk gs ovl = some k) : Answers i s (trapped s k (ibits i)) := by
    rw [Answers, he k h]
    exact raise_trapped ..
  unfold vchecks
  dsimp only
  rw [← ht, hin, hal, ← ho, Bool.not_eq_true]
  exact ⟨fun h => htrap (vCause_illegal h), fun h hout => htrap (vCause_outside h hout),
    fun h hin hunclean => htrap (vCause_unclean h hin hunclean)⟩

theorem vchecks_of_vRun {x : VCtx} {dist : Nat} {body : Out1} (he : exec i s = s.vRun i sewOk gs ovl x dist body)
    (hg : ∀ p, p ∈ groups ↔ p ∈ gs.map Group.parts) (ht : sewOk = true ↔ takes) (ho : ovl = true ↔ overlap) :
    vchecks s takes groups overlap i :=
  vchecks_of_raises (fun k hk => by rw [he, State.vRun, hk]) hg ht ho

end

/-! ### Instructions that are no `vRun` -/

section
variable {s : State} {i : Instr} {k : Cause}

theorem vchecks_of_mScalar {d : Reg} {v : Word} (he : exec i s = s.mScalar i d v) : vchecks s True [] False i :=
  vchecks_of_raises (gs := []) (fun k hk => by rw [he, State.mScalar, hk]) (fun _ => Iff.rfl) (iff_of_true rfl trivial)
    Bool.false_eq_true.to_iff

theorem vdxbpack_raises {w4 : Bool} {sh : Fin 16} {d c : Reg}
    (hk : s.th.vCause (blockSource s.th.sew).isSome [streamGroup w4 s.th.vlmax d, s.th.group c]
      ((streamGroup w4 s.th.vlmax d).meets (s.th.group c)) = some k) :
    exec (.vdxbpack w4 sh d c) s = s.raise k (ibits (.vdxbpack w4 sh d c)) := by
  have he : exec (.vdxbpack w4 sh d c) s = execVdxbpack w4 sh d c s := rfl
  rw [he, execVdxbpack, State.vBlock, hk]

theorem vdxbunpack_raises {w4 : Bool} {d c : Reg}
    (hk : s.th.vCause (blockSource s.th.sew).isSome [s.th.group d, streamGroup w4 s.th.vlmax c]
      ((s.th.group d).meets (streamGroup w4 s.th.vlmax c)) = some k) :
    exec (.vdxbunpack w4 d c) s = s.raise k (ibits (.vdxbunpack w4 d c)) := by
  have he : exec (.vdxbunpack w4 d c) s = execVdxbunpack w4 d c s := rfl
  rw [he, execVdxbunpack, State.vBlock, hk]

theorem vextract_raises {f : VForm} {d c b : Reg} (hk : s.th.vCause true [s.th.group c] false = some k) :
    exec (.vextract f d c b) s = s.raise k (ibits (.vextract f d c b)) := by
  have he : exec (.vextract f d c b) s = execVextract f d c b s := rfl
  rw [he, execVextract, hk]

theorem vinsert_raises {d c b : Reg} (hk : s.th.vCause true [s.th.group d] false = some k) :
    exec (.vinsert d c b) s = s.raise k (ibits (.vinsert d c b)) := by
  have he : exec (.vinsert d c b) s = execVinsert d c b s := rfl
  rw [he, execVinsert, hk]

end

/-! ### The instructions, family by family -/

/-- The group that operand b names in the vv form. -/
theorem groupB_parts (x : Thread) (f : VForm) (b : Reg) [Decidable (f = .vv)] :
    (x.groupB f b).map Group.parts = if f = .vv then [(b.val, x.grp, x.grp)] else [] := by
  cases f <;> simp [Thread.groupB, Group.parts, Thread.group]

theorem vfFormat_isSome (bf : Bool) (w : Nat) :
    (vfFormat bf w).isSome = true ↔ if bf then w = 16 else w = 16 ∨ w = 32 ∨ w = 64 := by
  unfold vfFormat
  cases bf <;> grind

theorem blockSource_isSome (w : Nat) : (blockSource w).isSome = true ↔ w = 16 ∨ w = 32 ∨ w = 64 := by
  unfold blockSource
  grind

end Sys2Proof.Machine

namespace Sys2Proof.Proofs
open Sys2Proof.Machine Sys2Proof.Spec

/-- Settles O24: every vector instruction is a `vRun`, a `vBlock` or a match on `vCause`, over the groups that its family names. -/
theorem vectorChecksTrap : Obligations.VectorChecksTrap := by
  unfold Obligations.VectorChecksTrap
  intro bf x w4 sat f m md d c b sh src tgt ew k s n sew g one sized ks stream bs meet fp block
  have never : false = true ↔ False := by decide
  have always : true = true ↔ True := by decide
  have bs_eq (f : VForm) : bs (f = .vv) = (s.th.groupB f b).map Group.parts :=
    (@groupB_parts s.th f b (Classical.propDecidable _)).symm
  have bs_parcel : bs (x = false) = (s.th.groupB (parcelForm x) b).map Group.parts := by
    rw [← bs_eq]; cases x <;> simp [bs, parcelForm]
  have meet_iff (p q : Group) : p.meets q = true ↔ meet p.parts q.parts := meets_iff p q
  have meet_one (p q : Group) : [q].any p.meets = true ↔ meet p.parts q.parts := by
    rw [List.any_cons, List.any_nil, Bool.or_false, meet_iff]
  have fp_iff (bf : Bool) : (vfFormat bf s.th.sew).isSome = true ↔ fp bf := vfFormat_isSome bf s.th.sew
  have block_iff : (blockSource s.th.sew).isSome = true ↔ block := blockSource_isSome s.th.sew
  have binary (p : Nat × Nat × Nat) :
      p ∈ [g d, g c] ++ bs (f = .vv) ↔ p ∈ (s.th.group d :: s.th.group c :: s.th.groupB f b).map Group.parts := by
    rw [bs_eq]; rfl
  have unary (r : Reg) (p : Nat × Nat × Nat) :
      p ∈ g r :: bs (f = .vv) ↔ p ∈ (s.th.group r :: s.th.groupB f b).map Group.parts := by
    rw [bs_eq]; rfl
  have parcel (p : Nat × Nat × Nat) :
      p ∈ g d :: bs (x = false) ↔ p ∈ (s.th.group d :: s.th.groupB (parcelForm x) b).map Group.parts := by
    rw [bs_parcel]; rfl
  have parcels (p : Nat × Nat × Nat) :
      p ∈ g d :: bs (x = false) ↔ p ∈ (s.th.group d :: s.th.group d :: s.th.groupB (parcelForm x) b).map Group.parts := by
    rw [parcel]; simp
  have fpparcels (p : Nat × Nat × Nat) :
      p ∈ g d :: bs (x = false) ↔ p ∈ (s.th.group d :: s.th.group d :: s.th.groupB (parcelFp x) b).map Group.parts := by
    rw [parcels]; cases x <;> rfl
  clear_value bs
  refine ⟨?int, ?one, ?mv, ?parcels, ?compares, ?fp, ?fpone, ?fpcompares, ?fpparcels, ?red, ?fpred, ?perm, ?gather, ?vid, ?insert,
    ?extract, ?masks, ?cvt, ?qscale, ?pack, ?unpack, ?mem, ?ldx, ?stx⟩
  case int =>
    intro i hi
    fin_cases hi <;> exact vchecks_of_vRun rfl binary always never
  case one =>
    intro i hi
    fin_cases hi <;> exact vchecks_of_vRun rfl (fun _ => Iff.rfl) always never
  case mv =>
    intro i hi
    fin_cases hi
    exact vchecks_of_vRun rfl (unary d) always never
  case parcels =>
    refine List.forall_mem_cons.2 ⟨vchecks_of_vRun rfl parcel always never, fun i hi => ?_⟩
    fin_cases hi <;> exact vchecks_of_vRun rfl parcels always never
  case compares =>
    intro i hi
    fin_cases hi <;> exact vchecks_of_vRun rfl (unary c) always never
  case fp =>
    intro i hi
    fin_cases hi <;> exact vchecks_of_vRun rfl binary (fp_iff bf) never
  case fpone =>
    intro i hi
    fin_cases hi <;> exact vchecks_of_vRun rfl (fun _ => Iff.rfl) (fp_iff bf) never
  case fpcompares =>
    intro i hi
    fin_cases hi <;> exact vchecks_of_vRun rfl (unary c) (fp_iff bf) never
  case fpparcels =>
    intro i hi
    fin_cases hi <;> exact vchecks_of_vRun rfl fpparcels (fp_iff false) never
  case red =>
    intro i hi
    fin_cases hi <;> exact vchecks_of_vRun rfl (fun _ => Iff.rfl) always never
  case fpred =>
    intro i hi
    fin_cases hi <;> exact vchecks_of_vRun rfl (fun _ => Iff.rfl) (fp_iff false) never
  case perm =>
    have slide : [s.th.group c].any (s.th.group d).meets = true ↔ meet (g d) (g c) := meet_one (s.th.group d) (s.th.group c)
    intro i hi
    fin_cases hi
    · exact vchecks_of_vRun rfl (fun _ => Iff.rfl) always slide
    · exact vchecks_of_vRun rfl (fun _ => Iff.rfl) always slide
    · exact vchecks_of_vRun rfl (fun _ => Iff.rfl) always slide
    · exact vchecks_of_vRun rfl (fun _ => Iff.rfl) always slide
    · exact vchecks_of_vRun rfl (fun _ => Iff.rfl) always (meet_iff (s.th.group d) (s.th.group c))
  case gather =>
    refine vchecks_of_vRun rfl binary always ?_
    have hb : (s.th.groupB f b).any (s.th.group d).meets = true ↔ f = .vv ∧ meet (g d) (g b) := by
      cases f with
      | vv => exact (meet_one (s.th.group d) (s.th.group b)).trans ⟨fun h => ⟨rfl, h⟩, And.right⟩
      | vx | vi | vf => simp [Thread.groupB]
    rw [List.any_cons, Bool.or_eq_true, hb, meet_iff]
    rfl
  case vid => exact vchecks_of_vRun rfl (fun _ => Iff.rfl) always never
  case insert => exact vchecks_of_raises (fun k hk => vinsert_raises hk) (fun _ => Iff.rfl) always never
  case extract => exact vchecks_of_raises (fun k hk => vextract_raises hk) (fun _ => Iff.rfl) always never
  case masks =>
    intro i hi
    fin_cases hi
    · exact vchecks_of_vRun rfl (fun _ => Iff.rfl) always never
    · exact vchecks_of_vRun rfl (fun _ => Iff.rfl) always never
    · exact vchecks_of_vRun rfl (fun _ => Iff.rfl) always never
    · exact vchecks_of_vRun rfl (fun _ => Iff.rfl) always never
    · exact vchecks_of_vRun rfl (fun _ => Iff.rfl) always never
    · exact vchecks_of_mScalar rfl
    · exact vchecks_of_mScalar rfl
  case cvt =>
    refine vchecks_of_vRun rfl (fun _ => Iff.rfl) beq_iff_eq ?_
    rw [Bool.and_eq_true, bne_iff_ne, meet_iff]
    rfl
  case qscale =>
    refine vchecks_of_vRun rfl (fun _ => Iff.rfl) block_iff ?_
    rw [Bool.or_eq_true, Bool.or_eq_true, meet_iff, meet_iff, meet_iff, or_assoc]
    rfl
  case pack =>
    exact vchecks_of_raises (fun k hk => vdxbpack_raises hk) (fun _ => Iff.rfl) block_iff
      (meet_iff (streamGroup w4 s.th.vlmax d) (s.th.group c))
  case unpack =>
    exact vchecks_of_raises (fun k hk => vdxbunpack_raises hk) (fun _ => Iff.rfl) block_iff
      (meet_iff (s.th.group d) (streamGroup w4 s.th.vlmax c))
  case mem =>
    intro i hi
    fin_cases hi <;> exact vchecks_of_vRun rfl (fun _ => Iff.rfl) beq_iff_eq never
  case ldx => exact vchecks_of_vRun rfl (fun _ => Iff.rfl) always (meet_one (s.th.group d) (s.th.sized c (ewBits ew)))
  case stx => exact vchecks_of_vRun rfl (fun _ => Iff.rfl) always never

end Sys2Proof.Proofs
end

section
/-! Vector floating point with a group as destination (09 R126; 05 R46), and how an instruction with flags ends (09 R121). -/

namespace Sys2Proof.Machine
open Sys2Proof.Spec

/-! ### Flags of many elements -/

theorem unionFlags_getLsbD (l : List (Nat × Flags)) (k : Nat) :
    (unionFlags l).getLsbD k = true ↔ ∃ p ∈ l, p.2.getLsbD k = true := by
  induction l using List.reverseRecOn with
  | nil => simp [unionFlags]
  | append_singleton l p ih =>
    have hsnoc : unionFlags (l ++ [p]) = unionFlags l ||| p.2 := by simp [unionFlags, List.foldl_append]
    rw [hsnoc, BitVec.getLsbD_or, Bool.or_eq_true, ih]
    simp only [List.mem_append, List.mem_singleton]
    constructor
    · rintro (⟨q, hq, h⟩ | h)
      · exact ⟨q, .inl hq, h⟩
      · exact ⟨p, .inr rfl, h⟩
    · rintro ⟨q, hq | rfl, h⟩
      · exact .inl ⟨q, hq, h⟩
      · exact .inr h

theorem mem_actives (x : Thread) (m : MReg) (honour : Bool) (j : Nat) : j ∈ (x.vctx m honour).actives ↔ vactive x honour m j := by
  simp only [VCtx.actives, List.mem_filter, List.mem_range, Bool.and_eq_true, decide_eq_true_eq, vactive]
  exact ⟨fun ⟨h1, h2, h3⟩ => ⟨h2, h1, h3⟩, fun ⟨h1, h2, h3⟩ => ⟨h2, h1, h3⟩⟩

/-- The flags that the active elements raise. -/
theorem activeFlags_getLsbD (x : Thread) (m : MReg) (honour : Bool) (fl : Nat → Flags) (k : Nat) :
    (unionFlags ((x.vctx m honour).actives.map fun j => (j, fl j))).getLsbD k = true ↔ raised (vactive x honour m) fl k := by
  rw [unionFlags_getLsbD, raised]
  simp [mem_actives]

/-- The lowest active element that raised a flag. -/
theorem lowestWith_actives {x : Thread} {m : MReg} {honour : Bool} {fl : Nat → Flags} {k e : Nat} (he : vactive x honour m e)
    (hk : (fl e).getLsbD k = true) (hlow : ∀ e', e' < e → vactive x honour m e' → (fl e').getLsbD k = false) :
    lowestWith k ((x.vctx m honour).actives.map fun j => (j, fl j)) = e := by
  have hfind : (x.vctx m honour).actives.find? (fun j => (fl j).getLsbD k) = some e := by
    have hmem := (mem_actives x m honour e).2 he
    unfold VCtx.actives at hmem ⊢
    rw [List.mem_filter] at hmem
    rw [List.find?_filter, List.find?_range_eq_some]
    refine ⟨by simp [hmem.2, hk], hmem.1, fun j hj => ?_⟩
    rw [Bool.not_eq_true', decide_eq_false_iff_not]
    rintro ⟨hact, hraised⟩
    have hin : j ∈ (x.vctx m honour).actives := List.mem_filter.2 ⟨List.mem_range.2 (Nat.lt_trans hj (List.mem_range.1 hmem.1)), hact⟩
    rw [hlow j hj ((mem_actives x m honour j).1 hin)] at hraised
    exact Bool.false_ne_true hraised
  rw [lowestWith, List.find?_map, Function.comp_def]
  simp [hfind]

/-- Sticky flags and what else FCSR holds, after flags are set (03 R37). -/
theorem or_flags_getLsbD (fcsr : Word) (f : Flags) {k : Nat} (hk : k < 5) :
    (fcsr ||| f.zeroExtend 64).getLsbD k = true ↔ fcsr.getLsbD k = true ∨ f.getLsbD k = true := by
  rw [BitVec.getLsbD_or, Bool.or_eq_true, BitVec.getLsbD_setWidth]
  simp [show k < 64 by omega]

theorem or_flags_shift (fcsr : Word) (f : Flags) : (fcsr ||| f.zeroExtend 64) >>> 5 = fcsr >>> 5 := by
  apply BitVec.eq_of_getLsbD_eq
  intro i hi
  simp

/-! ### The end of an instruction with flags -/

theorem modTh_th (s : State) (f : Thread → Thread) : (s.modTh f).th = f s.th := by simp [State.th]

theorem vDone_fcsr (s : State) (len : Word) (dist : Nat) : (s.vDone len dist).th.fcsr = s.th.fcsr := by
  have hstill := vDone_still s len dist
  generalize (s.vDone len dist).th = x at *
  have h := congrArg Thread.fcsr hstill
  exact h

theorem putElems_fcsr (s : State) (r w n : Nat) (l : List (Nat × Nat)) : (s.putElems s.cur r w n l).th.fcsr = s.th.fcsr := by
  have h := congrArg Thread.fcsr ((s.putElems_frame s.cur r w n l).1 s.cur)
  rw [State.th, putElems_cur]
  exact h

/-- Setting flags keeps the flow of a thread, its window, and all but FCSR. -/
theorem sameFlow_raiseFlags (f : Flags) (x : Thread) : sameFlow x (x.raiseFlags f) := ⟨rfl, rfl, rfl, rfl, rfl, rfl, rfl, rfl⟩

/-- Elements written and flags set: what FCSR and the elements read, and that nothing else changed. -/
theorem putElems_flags_vDone (s : State) (r w n : Nat) (l : List (Nat × Nat)) (f : Flags) (len : Word) (dist : Nat) :
    (((s.putElems s.cur r w n l).modTh (·.raiseFlags f)).vDone len dist).th.fcsr = s.th.fcsr ||| f.zeroExtend 64 ∧
    (∀ q v i, velem (((s.putElems s.cur r w n l).modTh (·.raiseFlags f)).vDone len dist) q v i =
      velem (s.putElems s.cur r w n l) q v i) ∧
    vcompleted s (((s.putElems s.cur r w n l).modTh (·.raiseFlags f)).vDone len dist) r n len butFlags := by
  refine ⟨?_, fun q v i => modTh_vDone_velem (s.putElems s.cur r w n l) (f := (·.raiseFlags f)) (fun _ => rfl) len dist q v i,
    putElems_modTh_vDone s r w n l len dist (sameFlow_raiseFlags f) fun _ => rfl⟩
  rw [vDone_fcsr, modTh_th, Thread.raiseFlags, putElems_fcsr]

theorem vFpEnd_quiet {s : State} {fl : List (Nat × Flags)} {i : Instr} {dist : Nat} {write : State → State}
    (h : trapFlag s.th.fcsr (unionFlags fl) = none) :
    s.vFpEnd fl i dist write = .next (((write s).modTh fun th => th.raiseFlags (unionFlags fl)).vDone (lenOf i) dist) := by
  rw [State.vFpEnd, h]

theorem vFpEnd_traps {s : State} {fl : List (Nat × Flags)} {i : Instr} {dist k : Nat} {write : State → State}
    (h : trapFlag s.th.fcsr (unionFlags fl) = some k) :
    s.vFpEnd fl i dist write = s.raise (vectorCause k) (BitVec.ofNat 64 (lowestWith k fl)) := by
  rw [State.vFpEnd, h]

theorem vcompleted_butFlags {s t : State} {r n : Nat} {len : Word} (h : vcompleted s t r n len plain) :
    vcompleted s t r n len butFlags := by
  obtain ⟨hdone, hvstart, hstill, hrest⟩ := h
  exact ⟨hdone, hvstart, congrArg butFlags hstill, hrest⟩

/-- An instruction whose active elements each have a value and flags, in a group of elements of w bits (09 R116, R121). -/
theorem vFpRun_ends {s : State} {i : Instr} {sewOk ovl : Bool} {gs : List Group} {m : MReg} {q dist d n w : Nat} {r : Nat → Nat × Flags}
    (he : exec i s = s.vRun i sewOk gs ovl (s.th.vctx m true) q
      (s.vFpEnd ((s.th.vctx m true).actives.map fun j => (j, (r j).2)) i dist fun z =>
        z.putElems s.cur d w n ((s.th.vctx m true).written w fun j => (r j).1)))
    (hpass : s.th.vCause sewOk gs ovl = none) (hw : goodWidth w) (hin : ∀ j, j < s.th.vlmax → j * w / 512 < n) :
    vfpEnds i s (vactive s.th true m) (fun j => (r j).2)
      (writesV s true m d n w s.th.vlmax (fun _ => False) (lenOf i) butFlags fun j => BitVec.ofNat w (r j).1) := by
  rw [vRun_passes hpass] at he
  have hflags (k : Nat) := activeFlags_getLsbD s.th m true (fun j => (r j).2) k
  unfold vfpEnds Answers
  by_cases hnone : vnone s.th true
  · have hidle (e : Nat) : ¬ vactive s.th true m e := by
      rintro ⟨hlo, hhi, -⟩
      obtain h | h := hnone <;> omega
    rw [if_pos ((vctx_empty s.th m true).2 hnone)] at he
    refine ⟨fun _ => ⟨_, he, fun k _ => ?_, ?_, fun j _ => ?_, ?_⟩, fun k e _ _ hact => absurd hact (hidle e)⟩
    · rw [vDone_fcsr]
      exact ⟨.inl, fun h => h.elim id fun ⟨e, hact, _⟩ => absurd hact (hidle e)⟩
    · rw [vDone_fcsr]
    · rw [vDone_velem, if_pos (.inl hnone)]
    · exact vcompleted_butFlags (vDone_nothing ..)
  · rw [if_neg (mt (vctx_empty s.th m true).1 hnone)] at he
    refine ⟨fun hquiet => ?_, fun k e hk hon hact hraised hlow hfirst => ?_⟩
    · have htrap := trapFlag_none s.th.fcsr (unionFlags ((s.th.vctx m true).actives.map fun j => (j, (r j).2))) fun k hk hon =>
        hquiet k hk ⟨(hflags k).1 hon.1, hon.2⟩
      obtain ⟨hfcsr, helem, hdone⟩ := putElems_flags_vDone s d w n ((s.th.vctx m true).written w fun j => (r j).1)
        (unionFlags ((s.th.vctx m true).actives.map fun j => (j, (r j).2))) (lenOf i) dist
      refine ⟨_, he.trans (vFpEnd_quiet htrap), fun k hk => ?_, ?_, fun j hj => ?_, hdone⟩
      · rw [hfcsr, or_flags_getLsbD _ _ hk, hflags]
      · rw [hfcsr, or_flags_shift]
      · rw [helem, if_neg (by simpa using hnone), velem_written hw (fun _ => (BitVec.toNat_ofNat ..).symm) hj (hin j hj)]
    · have htrap := trapFlag_some s.th.fcsr (unionFlags ((s.th.vctx m true).actives.map fun j => (j, (r j).2))) k
        ⟨hk, ⟨(hflags k).2 ⟨e, hact, hraised⟩, hon⟩, fun j hkj hj hon => hfirst j hkj hj ⟨(hflags j).1 hon.1, hon.2⟩⟩
      rw [he, vFpEnd_traps htrap, lowestWith_actives hact hraised hlow]
      exact raise_trapped ..

/-- A vector floating-point instruction of a format that its width has, with a group as destination (09 R126). -/
theorem vFp_ends {s : State} {i : Instr} {bf : Bool} {f : VForm} {m : MReg} {d c b : Reg} {una acc fpDest : Bool} {dist : Nat}
    {op : Fmt → Nat → Nat → Nat → Nat × Flags} {k : Fmt} {r : Nat → Nat × Flags}
    (he : exec i s = s.vFp i bf f m d c b una acc fpDest dist op) (hv : vtypeOk s.th) (hk : vfFormat bf s.th.sew = some k)
    (hd : groupOk s.th d.val s.th.grp s.th.grp) (hc : groupOk s.th c.val s.th.grp s.th.grp)
    (hb : una = false → f = .vv → groupOk s.th b.val s.th.grp s.th.grp)
    (hr : ∀ j, op k (velem s c.val s.th.sew j).toNat (if una then 0 else (vop s f b false s.th.sew j).toNat)
      (velem s d.val s.th.sew j).toNat = r j) :
    vfpEnds i s (vactive s.th true m) (fun j => (r j).2)
      (writesV s true m d.val s.th.grp s.th.sew s.th.vlmax (fun _ => False) (lenOf i) butFlags fun j =>
        BitVec.ofNat s.th.sew (r j).1) := by
  have hgroups : ∀ g ∈ s.th.group d :: s.th.group c :: (if una then [] else s.th.groupB f b), groupOk s.th g.base g.count g.align := by
    refine List.forall_mem_cons.2 ⟨hd, List.forall_mem_cons.2 ⟨hc, ?_⟩⟩
    cases una with
    | true => simp
    | false => exact groupB_passes (hb rfl)
  have hpass := vCause_passes (sewOk := true) (ovl := false) hv rfl hgroups rfl
  have hw := goodWidth_sew hv
  have hr' (j : Nat) : op k (s.elem s.cur c.val s.th.sew j) (if una then 0 else s.opB f b s.th.sew false j)
      (s.elem s.cur d.val s.th.sew j) = r j := by
    rw [← hr j, opB_toNat s f b false j hw, velem_toNat, velem_toNat]
  obtain rfl := funext hr'
  unfold State.vFp at he
  dsimp only at he
  rw [hk] at he
  exact vFpRun_ends he hpass hw fun j hj => register_lt_grp hv hj

end Sys2Proof.Machine

namespace Sys2Proof.Proofs
open Sys2Proof.Machine Sys2Proof.Spec

/-- Settles O25: each instruction is one `vFp` of its operation on codes; a parcel is its 32-bit equivalent with vA as operand a. -/
theorem vectorFloatResults : Obligations.VectorFloatResults := by
  unfold Obligations.VectorFloatResults
  intro bf f m d c b k s hf hv w n rm hk hd hc hb x y z op
  have run {j : Instr} {acc fpDest : Bool} {dist : Nat} {e : Fmt → Nat → Nat → Nat → Nat × Flags} {r : Nat → Nat × Flags}
      (he : exec j s = s.vFp j bf f m d c b false acc fpDest dist e) (hlen : lenOf j = 4) (hr : ∀ i, e k (x i) (y i) (z i) = r i) :
      op j m 4 r := by
    have h := vFp_ends he hv hk hd hc (fun _ => hb) hr
    rwa [hlen] at h
  have one {j : Instr} {acc fpDest : Bool} {dist : Nat} {e : Fmt → Nat → Nat → Nat → Nat × Flags} {r : Nat → Nat × Flags}
      (he : exec j s = s.vFp j bf .vv m d c 0 true acc fpDest dist e) (hlen : lenOf j = 4) (hr : ∀ i, e k (x i) 0 (z i) = r i) :
      op j m 4 r := by
    have h := vFp_ends he hv hk hd hc nofun hr
    rwa [hlen] at h
  have hform : parcelFp (f == .vf) = f := by obtain rfl | rfl := hf <;> rfl
  have parcel {j : Instr} {acc fpDest : Bool} {dist : Nat} {e : Fmt → Nat → Nat → Nat → Nat × Flags} {r : Nat → Nat × Flags}
      (hbf : bf = false) (he : exec j s = s.vFp j false (parcelFp (f == .vf)) 0 d d b false acc fpDest dist e) (hlen : lenOf j = 2)
      (hr : ∀ i, e k (z i) (y i) (z i) = r i) : op j 0 2 r := by
    rw [hform] at he
    have h := vFp_ends he hv (hbf ▸ hk) hd hd (fun _ => hb) hr
    rwa [hlen] at h
  clear_value op
  exact ⟨run (e := fun k x y _ => fAdd k rm x y) rfl rfl fun _ => rfl, run (e := fun k x y _ => fSub k rm x y) rfl rfl fun _ => rfl,
    run (e := fun k x y _ => fMul k rm x y) rfl rfl fun _ => rfl, run (e := fun k x y _ => fDiv k rm x y) rfl rfl fun _ => rfl,
    one (e := fun k x _ _ => fSqrt k rm x) rfl rfl fun _ => rfl, run (e := fun k x y z => fFma k rm x y z) rfl rfl fun _ => rfl,
    run (e := fun k x y z => fNma k rm x y z) rfl rfl fun _ => rfl, run (e := fun k x y _ => fMinMax k false x y) rfl rfl fun _ => rfl,
    run (e := fun k x y _ => fMinMax k true x y) rfl rfl fun _ => rfl, run (e := fun k x y _ => (fSgnj k x y, 0)) rfl rfl fun _ => rfl,
    one (e := fun k x _ _ => (fClass k x, 0)) rfl rfl fun _ => rfl,
    fun h => ⟨parcel (e := fun k x y _ => fAdd k rm x y) h rfl rfl fun _ => rfl,
      parcel (e := fun k x y _ => fSub k rm x y) h rfl rfl fun _ => rfl,
      parcel (e := fun k x y _ => fMul k rm x y) h rfl rfl fun _ => rfl,
      parcel (e := fun k x y _ => fMinMax k true x y) h rfl rfl fun _ => rfl,
      parcel (e := fun k x y _ => fMinMax k false x y) h rfl rfl fun _ => rfl⟩⟩

end Sys2Proof.Proofs
end

section
/-! Reductions (09 R127, R128, R121): one element of one register, and the rest of it as tail. -/

namespace Sys2Proof.Machine
open Sys2Proof.Spec

theorem actives_eq (x : Thread) (m : MReg) :
    (x.vctx m false).actives = (List.range x.vl.toNat).filter fun i => (x.rdM m).getLsbD i := by
  simp [VCtx.actives, Thread.vctx]

/-- What a reduction writes: a front of one element and its tail. -/
theorem redWrite_eq (x : VCtx) (w v : Nat) : redWrite x w v = frontTail w 1 (512 / w) x.ta fun _ => v := by
  have hrest : (List.range (512 / w)).filter (fun j => decide (j ≠ 0)) = (List.range (512 / w)).filter fun j => decide (1 ≤ j) := by
    congr 1
    funext j
    rw [decide_eq_decide]
    omega
  rw [redWrite, frontTail, hrest]
  rfl

theorem register_one {w : Nat} (hw : goodWidth w) {j : Nat} (hj : j < 512 / w) : j * w / 512 < 1 := by
  obtain rfl | rfl | rfl | rfl := hw <;> omega

/-- What the elements of the destination read after a reduction. -/
theorem velem_redWrite {s : State} {r w : Nat} (x : VCtx) (v : Nat) (hw : goodWidth w) {j : Nat} (hj : j < 512 / w) :
    velem (s.putElems s.cur r w 1 (redWrite x w v)) r w j =
      if j = 0 then BitVec.ofNat w v else if x.ta then BitVec.allOnes w else velem s r w j := by
  rw [redWrite_eq, velem_frontTail hw hj (register_one hw hj)]
  simp only [Nat.lt_one_iff]

/-- The groups of a reduction are in their places. -/
theorem reduction_passes {x : Thread} {d c b : Reg} (hv : vtypeOk x) (hd : groupOk x d.val 1 1) (hc : groupOk x c.val x.grp x.grp)
    (hb : groupOk x b.val 1 1) : x.vCause true [single d, x.group c, single b] false = none :=
  vCause_passes hv rfl
    (List.forall_mem_cons.2 ⟨hd, List.forall_mem_cons.2 ⟨hc, List.forall_mem_cons.2 ⟨hb, fun _ h => absurd h List.not_mem_nil⟩⟩⟩) rfl

/-! ### Integer reductions -/

/-- What element j of the destination of an integer reduction reads after it (09 R127). -/
def reduced (s : State) (m : MReg) (d c b : Reg) (g : BitVec s.th.sew → BitVec s.th.sew → BitVec s.th.sew) (j : Nat) : BitVec s.th.sew :=
  if s.th.vl.toNat = 0 then velem s d.val s.th.sew j
  else if j = 0 then ((List.range s.th.vl.toNat).filter fun i => (s.th.rdM m).getLsbD i).foldl
    (fun v j => g v (velem s c.val s.th.sew j)) (velem s b.val s.th.sew 0)
  else if s.th.vtype.getLsbD 5 then BitVec.allOnes s.th.sew else velem s d.val s.th.sew j

theorem vRed_results {s : State} {i : Instr} {m : MReg} {d c b : Reg} {op : Nat → Nat → Nat → Nat}
    {g : BitVec s.th.sew → BitVec s.th.sew → BitVec s.th.sew} (he : exec i s = s.vRed i m d c b op) (hlen : lenOf i = 4)
    (hv : vtypeOk s.th) (hd : groupOk s.th d.val 1 1) (hc : groupOk s.th c.val s.th.grp s.th.grp) (hb : groupOk s.th b.val 1 1)
    (hop : ∀ x y : BitVec s.th.sew, op s.th.sew x.toNat y.toNat = (g x y).toNat) :
    Answers i s fun t => (∀ j, j < 512 / s.th.sew → velem t d.val s.th.sew j = reduced s m d c b g j) ∧
      vcompleted s t d.val 1 4 plain := by
  have hw := goodWidth_sew hv
  unfold Answers
  rw [he, State.vRed, vRun_passes (reduction_passes hv hd hc hb), hlen]
  by_cases hnone : s.th.vl.toNat = 0
  · rw [if_pos ((vctx_empty s.th m false).2 (.inl hnone))]
    refine ⟨_, rfl, fun j _ => ?_, vDone_nothing ..⟩
    rw [vDone_velem, reduced, if_pos hnone]
  · have hsome : ¬ vnone s.th false := fun h => hnone (h.elim id Nat.le_zero.1)
    rw [if_neg (mt (vctx_empty s.th m false).1 hsome)]
    refine ⟨_, rfl, fun j hj => ?_, putElems_vDone ..⟩
    have hfold : ((s.th.vctx m false).actives.foldl (fun v j => op s.th.sew v (s.elem s.cur c.val s.th.sew j))
        (s.elem s.cur b.val s.th.sew 0)) =
        (((List.range s.th.vl.toNat).filter fun i => (s.th.rdM m).getLsbD i).foldl
          (fun v j => g v (velem s c.val s.th.sew j)) (velem s b.val s.th.sew 0)).toNat := by
      rw [actives_eq, ← velem_toNat]
      exact List.foldl_hom BitVec.toNat fun v j => by rw [← velem_toNat, hop]
    rw [vDone_velem, velem_redWrite _ _ hw hj, hfold, BitVec.ofNat_toNat, BitVec.setWidth_eq, reduced, if_neg hnone]
    rfl

theorem eMax_lt {w : Nat} (x y : BitVec w) (d : Nat) : eMax w x.toNat y.toNat d < 2 ^ w := by
  rw [eMax]
  split <;> exact BitVec.isLt _

theorem eMin_lt {w : Nat} (x y : BitVec w) (d : Nat) : eMin w x.toNat y.toNat d < 2 ^ w := by
  rw [eMin]
  split <;> exact BitVec.isLt _

/-! ### Floating-point reductions -/

/-- How a floating-point reduction of a value and flags ends (09 R121, R128). -/
theorem vFpRed_ends {s : State} {i : Instr} {m : MReg} {d c b : Reg} {fold : Fmt → VCtx → Nat → (Nat → Nat) → Folded} {k : Fmt} {r : Folded}
    (he : exec i s = s.vFpRed i m d c b fold) (hlen : lenOf i = 4) (hv : vtypeOk s.th) (hk : vfFormat false s.th.sew = some k)
    (hd : groupOk s.th d.val 1 1) (hc : groupOk s.th c.val s.th.grp s.th.grp) (hb : groupOk s.th b.val 1 1) (hvl : s.th.vl.toNat ≠ 0)
    (hr : (if (s.th.vctx m false).actives.isEmpty then (s.elem s.cur b.val s.th.sew 0, [])
      else fold k (s.th.vctx m false) (s.elem s.cur b.val s.th.sew 0) fun j => s.elem s.cur c.val s.th.sew j) = r) :
    (trapFlag s.th.fcsr (unionFlags r.2) = none → Answers i s fun t =>
      (∀ j, j < 512 / s.th.sew → velem t d.val s.th.sew j =
        if j = 0 then BitVec.ofNat s.th.sew r.1
        else if s.th.vtype.getLsbD 5 then BitVec.allOnes s.th.sew else velem s d.val s.th.sew j) ∧
      t.th.fcsr = s.th.fcsr ||| (unionFlags r.2).zeroExtend 64 ∧ vcompleted s t d.val 1 4 butFlags) ∧
    (∀ k, trapFlag s.th.fcsr (unionFlags r.2) = some k →
      Answers i s (trapped s (BitVec.ofNat 8 (0x48 + k)) (BitVec.ofNat 64 (lowestWith k r.2)))) := by
  have hsome : ¬ vnone s.th false := fun h => hvl (h.elim id Nat.le_zero.1)
  unfold State.vFpRed at he
  dsimp only at he
  rw [hk, Option.getD_some, Option.isSome_some, vRun_passes (reduction_passes hv hd hc hb),
    if_neg (mt (vctx_empty s.th m false).1 hsome), hr] at he
  refine ⟨fun h => ?_, fun k h => ?_⟩
  · rw [vFpEnd_quiet h, hlen] at he
    obtain ⟨hfcsr, helem, hdone⟩ := putElems_flags_vDone s d.val s.th.sew 1 (redWrite (s.th.vctx m false) s.th.sew r.1)
      (unionFlags r.2) 4 (class3 + penalty k (s.th.vctx m false).actives [fun j => s.elem s.cur c.val s.th.sew j] none +
        penalty k [0] [fun _ => s.elem s.cur b.val s.th.sew 0] none + penalty k [0] [fun _ => r.1] none)
    refine ⟨_, he, fun j hj => ?_, hfcsr, hdone⟩
    rw [helem, velem_redWrite _ _ (goodWidth_sew hv) hj]
    rfl
  · rw [Answers, he, vFpEnd_traps h]
    exact raise_trapped ..

end Sys2Proof.Machine

namespace Sys2Proof.Proofs
open Sys2Proof.Machine Sys2Proof.Spec

/-- Settles O26: each integer reduction is one `vRed`, whose fold is that of its operation on bit vectors; each floating-point one is one
`vFpRed`. -/
theorem reductionResults : Obligations.ReductionResults := by
  unfold Obligations.ReductionResults
  refine ⟨?_, ?_⟩
  · intro m d c b s hv w hd hc hb act op
    have run {i : Instr} {e : Nat → Nat → Nat → Nat} {g : BitVec w → BitVec w → BitVec w} (he : exec i s = s.vRed i m d c b e)
        (hlen : lenOf i = 4) (hg : ∀ x y : BitVec w, e w x.toNat y.toNat = (g x y).toNat) : op i g :=
      vRed_results he hlen hv hd hc hb hg
    clear_value op
    refine ⟨run (e := fun w x y => (x + y) % 2 ^ w) rfl rfl fun x y => (BitVec.toNat_add x y).symm,
      run (e := fun w x y => eMax w x y 0) rfl rfl fun x y => ?_, run (e := fun _ x y => max x y) rfl rfl fun x y => ?_,
      run (e := fun w x y => eMin w x y 0) rfl rfl fun x y => ?_, run (e := fun _ x y => min x y) rfl rfl fun x y => ?_,
      run (e := fun _ x y => x &&& y) rfl rfl fun x y => (BitVec.toNat_and x y).symm,
      run (e := fun _ x y => x ||| y) rfl rfl fun x y => (BitVec.toNat_or x y).symm⟩
    · rw [← eMax_toNat x y 0, Nat.mod_eq_of_lt (eMax_lt ..)]
    · rw [← eMaxu_toNat x y 0, eMaxu, Nat.mod_eq_of_lt (Nat.max_lt.2 ⟨x.isLt, y.isLt⟩)]
    · rw [← eMin_toNat x y 0, Nat.mod_eq_of_lt (eMin_lt ..)]
    · rw [← eMinu_toNat x y 0, eMinu, Nat.mod_eq_of_lt (Nat.lt_of_le_of_lt (Nat.min_le_left ..) x.isLt)]
  · intro m d c b k s hv w hk hd hc hb hvl rm act x init seq op
    have hinit : s.elem s.cur b.val w 0 = init := (velem_toNat ..).symm
    have hx : (fun j => s.elem s.cur c.val w j) = x := funext fun j => (velem_toNat ..).symm
    have run {i : Instr} {fold : Fmt → VCtx → Nat → (Nat → Nat) → Folded} {r : Folded} (he : exec i s = s.vFpRed i m d c b fold)
        (hlen : lenOf i = 4) (hr : fold k (s.th.vctx m false) init x = r) : op i r := by
      refine vFpRed_ends he hlen hv hk hd hc hb hvl ?_
      rw [hinit, hx, hr, actives_eq]
      by_cases hact : act = []
      · rw [if_pos hact, if_pos (List.isEmpty_iff.2 hact)]
      · rw [if_neg hact, if_neg (mt List.isEmpty_iff.1 hact)]
    clear_value op
    have hseq (g : Nat → Nat → Nat × Flags) : foldSeq g init ((s.th.vctx m false).actives.map fun j => (j, x j)) = seq g := by
      rw [actives_eq]
    exact ⟨run (fold := fun k x init f => foldSeq (fAdd k rm) init (x.actives.map fun j => (j, f j))) rfl rfl (hseq _),
      run (fold := fun k x init f => foldTree (fAdd k rm) x.vlmax init
        fun j => if j < x.vl ∧ x.mask.getLsbD j then some (f j) else none) rfl rfl rfl,
      run (fold := fun k x init f => foldSeq (fMinMax k true) init (x.actives.map fun j => (j, f j))) rfl rfl (hseq _),
      run (fold := fun k x init f => foldSeq (fMinMax k false) init (x.actives.map fun j => (j, f j))) rfl rfl (hseq _)⟩

end Sys2Proof.Proofs
end

section
/-! Permutations (09 R129 to R133): elements moved, packed, read and written one by one. -/

namespace Sys2Proof.Machine
open Sys2Proof.Spec

/-! ### Instructions that move elements by their index -/

/-- Groups that the destination does not meet. -/
theorem any_meets_of_apart {p : Group} {l : List Group} (h : ∀ q ∈ l, Spec.apart p.base p.count q.base q.count) :
    l.any p.meets = false := by
  rw [List.any_eq_false]
  exact fun q hq => Bool.eq_false_iff.1 (meets_of_apart (h q hq))

/-- A permutation (09 R129, R130): elements by their class, and those that it keeps as before. -/
theorem vPerm_writesV {s : State} {i : Instr} {m : MReg} {d : Reg} {srcs : List Group} {keep : Nat → Bool} {kept : Nat → Prop}
    {op : Nat → Nat} {new : Nat → BitVec s.th.sew} (he : exec i s = s.vPerm i m d srcs keep op) (hlen : lenOf i = 4) (hv : vtypeOk s.th)
    (hd : groupOk s.th d.val s.th.grp s.th.grp) (hsrcs : ∀ g ∈ srcs, groupOk s.th g.base g.count g.align)
    (hapart : ∀ g ∈ srcs, Spec.apart d.val s.th.grp g.base g.count) (hkeep : ∀ j, keep j = true ↔ kept j)
    (hop : ∀ j, op j % 2 ^ s.th.sew = (new j).toNat) :
    Answers i s (writesV s false m d.val s.th.grp s.th.sew s.th.vlmax kept 4 plain new) := by
  have hpass := vCause_passes (sewOk := true) (gs := s.th.group d :: srcs) hv rfl
    (List.forall_mem_cons.2 ⟨hd, hsrcs⟩) (any_meets_of_apart (p := s.th.group d) hapart)
  unfold Answers
  rw [he, State.vPerm, vRun_passes hpass, hlen]
  by_cases hnone : vnone s.th false
  · rw [if_pos ((vctx_empty s.th m false).2 hnone)]
    refine ⟨_, rfl, fun j _ => ?_, vDone_nothing ..⟩
    rw [vDone_velem, if_pos (.inl hnone)]
  · rw [if_neg (mt (vctx_empty s.th m false).1 hnone)]
    refine ⟨_, rfl, fun j hj => ?_, putElems_vDone ..⟩
    have hin := register_lt_grp hv hj
    rw [vDone_velem, velem_putElems, elem_filter_putElems s s.cur d.val s.th.sew s.th.grp _ (goodWidth_sew hv) (written_nodup ..)
      (fun j => !(decide (j < (s.th.vctx m false).vl) && keep j)) hin]
    have hvl : (s.th.vctx m false).vl = s.th.vl.toNat := rfl
    rw [hvl]
    by_cases hk : j < s.th.vl.toNat ∧ kept j
    · have hskip : (!(decide (j < s.th.vl.toNat) && keep j)) = false := by simp [hk.1, (hkeep j).2 hk.2]
      rw [hskip, if_neg Bool.false_ne_true, ← velem_eq, if_pos (Or.inr hk)]
    · have hwrite : (!(decide (j < s.th.vl.toNat) && keep j)) = true := by
        rw [Bool.not_eq_true', Bool.eq_false_iff, Ne, Bool.and_eq_true, decide_eq_true_eq, hkeep]
        exact hk
      rw [hwrite, if_pos rfl, ← velem_putElems, velem_written (goodWidth_sew hv) hop hj hin, if_neg (not_or.2 ⟨hnone, hk⟩)]

/-- An element of a source, which reads 0 beyond VLMAX (09 R130). -/
def srcElem (s : State) (c : Reg) (j : Nat) : BitVec s.th.sew := if j < s.th.vlmax then velem s c.val s.th.sew j else 0

theorem src_toNat (s : State) (c : Reg) (j : Nat) : s.src c j = (srcElem s c j).toNat := by
  rw [State.src, srcElem, apply_ite BitVec.toNat, velem_toNat]
  simp

theorem src_mod (s : State) (c : Reg) (j : Nat) : s.src c j % 2 ^ s.th.sew = (srcElem s c j).toNat := by
  rw [src_toNat, Nat.mod_eq_of_lt (BitVec.isLt _)]

/-! ### VCOMPRESS -/

/-- What VCOMPRESS writes: the selected elements as front, and the tail after them (09 R132). -/
theorem compress_eq (x : VCtx) (w : Nat) (sel : List Nat) (val : Nat → Nat) :
    (List.range sel.length).zip (sel.map val) ++ x.tailFrom w sel.length =
      frontTail w sel.length x.vlmax x.ta fun j => (sel.map val).getD j 0 := by
  have hzip := zip_range (sel.map val)
  rw [List.length_map] at hzip
  rw [hzip]
  rfl

theorem vcompress_results {s : State} {d c : Reg} {mk : MReg} (hv : vtypeOk s.th) (hd : groupOk s.th d.val s.th.grp s.th.grp)
    (hc : groupOk s.th c.val s.th.grp s.th.grp) (hapart : Spec.apart d.val s.th.grp c.val s.th.grp) :
    Answers (.vcompress d c mk) s fun t =>
      (∀ i, i < s.th.vlmax → velem t d.val s.th.sew i =
        if s.th.vl.toNat = 0 then velem s d.val s.th.sew i
        else if i < ((List.range s.th.vl.toNat).filter fun i => (s.th.rdM mk).getLsbD i).length then
          velem s c.val s.th.sew (((List.range s.th.vl.toNat).filter fun i => (s.th.rdM mk).getLsbD i).getD i 0)
        else if s.th.vtype.getLsbD 5 then BitVec.allOnes s.th.sew else velem s d.val s.th.sew i) ∧
      vcompleted s t d.val s.th.grp 4 plain := by
  have hpass := vCause_passes (sewOk := true) (gs := [s.th.group d, s.th.group c]) hv rfl
    (List.forall_mem_cons.2 ⟨hd, List.forall_mem_singleton.2 hc⟩) (meets_of_apart (a := s.th.group d) (b := s.th.group c) hapart)
  have he : exec (.vcompress d c mk) s = execVcompress d c mk s := rfl
  unfold Answers
  rw [he, execVcompress, vRun_passes hpass]
  generalize hsel : (List.range s.th.vl.toNat).filter (fun i => (s.th.rdM mk).getLsbD i) = sel
  have hsel' : (List.range (s.th.vctx 0 false).vl).filter (fun i => (s.th.rdM mk).getLsbD i) = sel := hsel
  by_cases hnone : s.th.vl.toNat = 0
  · rw [if_pos ((vctx_empty s.th 0 false).2 (.inl hnone))]
    refine ⟨_, rfl, fun j _ => ?_, vDone_nothing ..⟩
    rw [vDone_velem, if_pos hnone]
  · rw [if_neg (mt (vctx_empty s.th 0 false).1 fun h => hnone (h.elim id Nat.le_zero.1)), hsel', compress_eq]
    refine ⟨_, rfl, fun j hj => ?_, putElems_vDone ..⟩
    have hstop : j < (s.th.vctx 0 false).vlmax := hj
    rw [vDone_velem, velem_frontTail (goodWidth_sew hv) hstop (register_lt_grp hv hj), if_neg hnone]
    by_cases hfront : j < sel.length
    · rw [if_pos hfront, if_pos hfront, List.getD_eq_getElem _ _ (by simpa using hfront), List.getElem_map,
        List.getD_eq_getElem _ _ hfront, velem_eq]
    · rw [if_neg hfront, if_neg hfront]
      rfl

/-! ### VINSERT -/

theorem vinsert_results {s : State} {d c b : Reg} (hv : vtypeOk s.th) (hd : groupOk s.th d.val s.th.grp s.th.grp) :
    Answers (.vinsert d c b) s fun t =>
      (∀ i, i < s.th.vlmax → velem t d.val s.th.sew i =
        if i = (s.g c).toNat ∧ i < s.th.vl.toNat then (s.g b).truncate s.th.sew else velem s d.val s.th.sew i) ∧
      vcompleted s t d.val s.th.grp 4 plain := by
  have hpass := vCause_eq_none (gs := [s.th.group d]) hv (List.forall_mem_singleton.2 hd)
  have he : exec (.vinsert d c b) s = execVinsert d c b s := rfl
  unfold Answers
  rw [he, execVinsert, hpass]
  dsimp only
  by_cases hvl : (s.g c).toNat < s.th.vl.toNat
  · rw [if_pos hvl]
    refine ⟨_, rfl, fun j hj => ?_, putElems_vDone ..⟩
    rw [vDone_velem, velem_putElems]
    by_cases hjc : j = (s.g c).toNat
    · subst hjc
      rw [if_pos ⟨rfl, hvl⟩, State.elem_putElems_mem s s.cur _ _ _ _ (goodWidth_sew hv) (by simp)
        (List.mem_singleton.2 rfl) (register_lt_grp hv hj)]
      exact BitVec.eq_of_toNat_eq (by simp)
    · rw [if_neg fun h : j = (s.g c).toNat ∧ j < s.th.vl.toNat => hjc h.1, State.elem_putElems_ne s s.cur _ _ _ _ (goodWidth_sew hv)
        fun e he hej => hjc (by rw [← hej, List.mem_singleton.1 he]), ← velem_eq]
  · rw [if_neg hvl]
    refine ⟨_, rfl, fun j _ => ?_, vDone_nothing ..⟩
    rw [vDone_velem, if_neg fun h : j = (s.g c).toNat ∧ j < s.th.vl.toNat => hvl (h.1 ▸ h.2)]

/-! ### A general register as destination -/

/-- A register written at the end of a vector instruction (09 R133, R134). -/
theorem setG_vDone (s : State) (d : Reg) (v : Word) (len : Word) (dist : Nat) :
    (∀ r : Reg, ((s.setG d v).vDone len dist).g r = if r = d ∧ d ≠ 0 then v else s.g r) ∧
    vcompleted s ((s.setG d v).vDone len dist) 0 0 len fun x => { x with g := .empty, oldG := [] } := by
  refine ⟨fun r => ?_, modTh_vDone s len dist 0 0 (sameFlow_wr · d v) fun x => ?_⟩
  · have hstill := vDone_still (s.setG d v) len dist
    rw [State.setG, modTh_th] at hstill
    exact (rd_of_still (y := { s.th.wr d v with vstart := 0 }) hstill r).trans (Thread.rd_wr ..)
  · have h := congrArg (fun y : Thread => { still y with vstart := 0, oldV := [], g := .empty, oldG := [] }) (x.wr_frame d v)
    exact h

theorem vextract_value (s : State) (c : Reg) (j : Nat) :
    BitVec.ofInt 64 (sgn s.th.sew (s.src c j)) = if j < s.th.vlmax then (velem s c.val s.th.sew j).signExtend 64 else 0 := by
  rw [src_toNat, sgn_toNat, srcElem]
  split
  · rfl
  · simp

end Sys2Proof.Machine

namespace Sys2Proof.Proofs
open Sys2Proof.Machine Sys2Proof.Spec

/-- Settles O27: VID, the slides and VGATHER are each one `vPerm`; VCOMPRESS writes a front and its tail, VEXTRACT a general register,
VINSERT one element. -/
theorem permutationResults : Obligations.PermutationResults := by
  unfold Obligations.PermutationResults
  refine ⟨?_, ?_⟩
  · intro f m d c b s hv w n vm hd hc hapart src k idx op
    have hk : s.slideBy f b = k := by cases f <;> rfl
    have hidx : s.indexBy f b = idx := by cases f <;> rfl
    have run {i : Instr} {srcs : List Group} {keep : Nat → Bool} {kept : Nat → Prop} {e : Nat → Nat} {new : Nat → BitVec w}
        (he : exec i s = s.vPerm i m d srcs keep e) (hlen : lenOf i = 4)
        (hsrcs : ∀ g ∈ srcs, groupOk s.th g.base g.count g.align ∧ Spec.apart d.val n g.base g.count)
        (hkeep : ∀ j, keep j = true ↔ kept j) (hop : ∀ j, e j % 2 ^ w = (new j).toNat) : op i kept new :=
      vPerm_writesV he hlen hv hd (fun g hg => (hsrcs g hg).1) (fun g hg => (hsrcs g hg).2) hkeep hop
    clear_value op
    have never (j : Nat) : false = true ↔ False := by decide
    have onlyC : ∀ g ∈ [s.th.group c], groupOk s.th g.base g.count g.align ∧ Spec.apart d.val n g.base g.count :=
      List.forall_mem_singleton.2 ⟨hc, hapart⟩
    have hg : (s.g b).toNat % 2 ^ w = ((s.g b).truncate w).toNat := (BitVec.toNat_setWidth ..).symm
    refine ⟨run (keep := fun _ => false) (e := fun i => i) rfl rfl (fun _ h => absurd h List.not_mem_nil) never
        fun j => (BitVec.toNat_ofNat ..).symm,
      run (keep := fun i => decide (i < s.slideBy f b)) (e := fun i => s.src c (i - s.slideBy f b)) rfl rfl onlyC
        (fun j => by rw [hk]; exact decide_eq_true_iff) fun j => by rw [hk]; exact src_mod s c _,
      run (keep := fun _ => false) (e := fun i => s.src c (i + s.slideBy f b)) rfl rfl onlyC never fun j => by rw [hk]; exact src_mod s c _,
      run (keep := fun _ => false) (e := fun i => if i = 0 then (s.g b).toNat else s.src c (i - 1)) rfl rfl onlyC never fun j => ?_,
      run (keep := fun _ => false) (e := fun i => if i + 1 < s.th.vl.toNat then s.src c (i + 1) else (s.g b).toNat) rfl rfl onlyC never
        fun j => ?_, ?_, ?_⟩
    · rw [apply_ite (· % 2 ^ w), hg, src_mod, ← apply_ite BitVec.toNat]
      rfl
    · rw [apply_ite (· % 2 ^ w), hg, src_mod, ← apply_ite BitVec.toNat]
      rfl
    · intro hf
      have he : exec (.vgather f m d c b) s =
          s.vPerm (.vgather f m d c b) m d [s.th.group c] (fun _ => false) fun _ => s.src c (s.indexBy f b) := by
        cases f with
        | vv => exact absurd rfl hf
        | vx | vi | vf => rfl
      exact run he rfl onlyC never fun j => by rw [hidx]; exact src_mod s c _
    · intro hb hbapart
      refine run (keep := fun _ => false) (e := fun i => s.src c (s.elem s.cur b.val w i)) rfl rfl (List.forall_mem_cons.2 ⟨⟨hc, hapart⟩,
        List.forall_mem_singleton.2 ⟨hb, hbapart⟩⟩) never fun j => ?_
      rw [src_mod, ← velem_toNat]
      rfl
  · intro f mk d c b s hv w n vl sel idx
    have hidx : s.indexBy f b = idx := by cases f <;> rfl
    refine ⟨fun hd hc hapart => ?_, fun hc => ?_, fun hd => ?_⟩
    · exact vcompress_results hv hd hc hapart
    · have hpass := vCause_eq_none (gs := [s.th.group c]) hv (List.forall_mem_singleton.2 hc)
      have he : exec (.vextract f d c b) s = .next ((s.setG d (BitVec.ofInt 64 (sgn w (s.src c idx)))).vDone 4 class2) := by
        have h : exec (.vextract f d c b) s = execVextract f d c b s := rfl
        rw [h, execVextract, hpass, hidx]
      obtain ⟨hregs, hdone⟩ := setG_vDone s d (BitVec.ofInt 64 (sgn w (s.src c idx))) 4 class2
      exact ⟨_, he, fun r => by rw [hregs, vextract_value], hdone⟩
    · exact vinsert_results hv hd

end Sys2Proof.Proofs
end

section
/-! Conversions (09 R135, R136; 03 R38, R39): what one element converts to. -/

namespace Sys2Proof.Machine
open Sys2Proof.Spec

/-! ### RoundInt (03 R38) -/

/-- A dyadic magnitude as a fraction, split by division. -/
theorem divPow_one (m : Nat) (e : Int) :
    divPow m 1 e = (m * 2 ^ e.toNat / 2 ^ (-e).toNat, m * 2 ^ e.toNat % 2 ^ (-e).toNat, 2 ^ (-e).toNat) := by
  unfold divPow
  by_cases h : 0 ≤ e
  · rw [if_pos h, Int.toNat_of_nonpos (show -e ≤ 0 by omega)]
    rfl
  · rw [if_neg h, Int.toNat_of_nonpos (show e ≤ 0 by omega), Nat.pow_zero, Nat.mul_one, Nat.one_mul]

/-- Whether a mode rounds a magnitude with quotient q and remainder r up (03 R38). -/
def roundsUp (rm : RMode) (neg : Bool) (q r d : Nat) : Prop :=
  match rm with
  | .rne => d < 2 * r ∨ (2 * r = d ∧ q % 2 = 1)
  | .rtz => False
  | .rdn => neg = true ∧ r ≠ 0
  | .rup => neg = false ∧ r ≠ 0

theorem roundMag_cases (rm : RMode) (neg : Bool) (q r d : Nat) :
    (roundsUp rm neg q r d ∧ roundMag rm neg q r d = q + 1) ∨ (¬ roundsUp rm neg q r d ∧ roundMag rm neg q r d = q) := by
  cases rm with
  | rtz => exact .inr ⟨id, rfl⟩
  | rne | rdn | rup => simp only [roundsUp, roundMag]; split <;> simp_all

/-- What a mode asks of the quotient it takes, by what is left of the fraction. -/
theorem roundsTo_of_gap {rm : RMode} {neg : Bool} {q r d p : Nat} {num z σ : Int} (hσ : σ = if neg then -1 else 1) (hr : r < d)
    (hnum : num = σ * (p + r))
    (h : (roundsUp rm neg q r d ∧ z = σ * (q + 1) ∧ num - d * z = σ * (r - d)) ∨ (¬ roundsUp rm neg q r d ∧ z = σ * q ∧ num - d * z = σ * r)) :
    roundsTo rm num d z ∧ ((r != 0) = true ↔ num ≠ d * z) := by
  rw [← sub_ne_zero (b := (d : Int) * z), bne_iff_ne]
  unfold roundsTo
  dsimp only
  generalize num - (d : Int) * z = gap at h ⊢
  subst hσ
  cases neg <;> cases rm <;>
    simp only [roundsUp, if_true, if_false, Bool.false_eq_true, reduceCtorEq, true_and, false_and, not_false_eq_true, false_or] at h hnum ⊢ <;>
    omega

/-- A signed fraction of quotient q and remainder r is rounded as its mode says. -/
theorem roundMag_roundsTo (rm : RMode) (neg : Bool) (q : Nat) {r d : Nat} (hr : r < d) :
    let σ : Int := if neg then -1 else 1
    roundsTo rm (σ * ((d * q + r : Nat) : Int)) d (σ * roundMag rm neg q r d) ∧
      ((r != 0) = true ↔ σ * ((d * q + r : Nat) : Int) ≠ d * (σ * roundMag rm neg q r d)) := by
  intro σ
  refine roundsTo_of_gap (q := q) (p := d * q) rfl hr (by push_cast; rfl) ?_
  obtain ⟨hup, hK⟩ | ⟨hup, hK⟩ := roundMag_cases rm neg q r d
  · exact .inl ⟨hup, by rw [hK]; push_cast; rfl, by rw [hK]; push_cast; ring⟩
  · exact .inr ⟨hup, by rw [hK], by rw [hK]; push_cast; ring⟩

/-- RoundInt under each mode, and when it is inexact (03 R38). -/
theorem roundInt_roundsTo (rm : RMode) (n : Bool) (m : Nat) (e : Int) :
    let num : Int := (if n then -1 else 1) * (m * 2 ^ e.toNat)
    let den : Nat := 2 ^ (-e).toNat
    roundsTo rm num den (roundInt rm n m e).1 ∧ ((roundInt rm n m e).2 = true ↔ num ≠ den * (roundInt rm n m e).1) := by
  intro num den
  have hden : 0 < den := Nat.two_pow_pos _
  have h := roundMag_roundsTo rm n (m * 2 ^ e.toNat / den) (Nat.mod_lt (m * 2 ^ e.toNat) hden)
  have hval : (roundInt rm n m e).1 =
      (if n then -1 else 1) * (roundMag rm n (m * 2 ^ e.toNat / den) (m * 2 ^ e.toNat % den) den : Int) := by
    rw [roundInt, divPow_one]
    cases n <;> simp [den]
  have hex : (roundInt rm n m e).2 = (m * 2 ^ e.toNat % den != 0) := by rw [roundInt, divPow_one]
  have hnum : num = (if n then -1 else 1) * ((m * 2 ^ e.toNat : Nat) : Int) := by push_cast; rfl
  dsimp only at h
  rw [Nat.div_add_mod] at h
  rw [hval, hex, hnum]
  exact h

/-! ### One element (09 R136; 03 R39) -/

/-- The range of an integer target. -/
theorem vtyRange_eq (t : VTy) : vtyRange t =
    ((if t = .uint8 then 0 else -2 ^ (t.width - 1)), if t = .uint8 then 2 ^ t.width - 1 else 2 ^ (t.width - 1) - 1) := by
  cases t <;> rfl

/-- The value of an integer source. -/
theorem intSource_eq (t : VTy) (v : Nat) :
    (if t.signed then sgn t.width v else v) = if t = .uint8 then (v : Int) else (BitVec.ofNat t.width v).toInt := by
  cases t <;> rfl

theorem satInt_eq_clamped (x lo hi : Int) : satInt x lo hi = clamped lo hi x := rfl

theorem fToInt_fin (rm : RMode) (lo hi : Int) (n : Bool) (m : Nat) (e : Int) :
    fToInt rm lo hi (.fin n m e) = (clamped lo hi (roundInt rm n m e).1,
      if (roundInt rm n m e).1 < lo ∨ hi < (roundInt rm n m e).1 then fNV else if (roundInt rm n m e).2 then fNX else 0) := by
  unfold fToInt
  dsimp only
  by_cases h : (roundInt rm n m e).1 < lo ∨ hi < (roundInt rm n m e).1
  · rw [if_pos (by simpa using h), if_pos h, satInt_eq_clamped]
  · rw [if_neg (by simpa using h), if_neg h, clamped, if_neg (not_or.1 h).1, if_neg (not_or.1 h).2]

theorem convert_float_int {src tgt : VTy} {f : Fmt} (rm : RMode) (sat : Bool) (v : Nat) (hs : src.fp = some f) (ht : tgt.fp = none) :
    convert src tgt rm sat v = (wrapI tgt.width (fToInt rm (vtyRange tgt).1 (vtyRange tgt).2 (decodeF f v)).1,
      (fToInt rm (vtyRange tgt).1 (vtyRange tgt).2 (decodeF f v)).2) := by rw [convert, hs, ht]

theorem convert_float_float {src tgt : VTy} {f k : Fmt} (rm : RMode) (sat : Bool) (v : Nat) (hs : src.fp = some f)
    (ht : tgt.fp = some k) : convert src tgt rm sat v = roundTo k rm sat (decodeF f v) := by rw [convert, hs, ht]

theorem convert_int_float {src tgt : VTy} {k : Fmt} (rm : RMode) (sat : Bool) (v : Nat) (hs : src.fp = none) (ht : tgt.fp = some k) :
    convert src tgt rm sat v = roundTo k rm sat (ofInt (if src.signed then sgn src.width v else v)) := by rw [convert, hs, ht]

theorem convert_int_int {src tgt : VTy} (rm : RMode) (sat : Bool) (v : Nat) (hs : src.fp = none) (ht : tgt.fp = none) :
    convert src tgt rm sat v = (wrapI tgt.width (if tgt.width ≤ src.width ∧ sat = true then
      clamped (vtyRange tgt).1 (vtyRange tgt).2 (if src.signed then sgn src.width v else v)
      else if src.signed then sgn src.width v else v), 0) := by
  rw [convert, hs, ht]
  dsimp only
  split <;> rfl

/-! ### Values beyond the range of a format (03 R38, R39) -/

theorem log2Rat_ge {m k : Nat} (hm : m ≠ 0) (h : 2 ^ k ≤ m) : (k : Int) ≤ log2Rat m 1 := by
  rw [log2Rat_one hm]
  exact Int.ofNat_le.2 ((Nat.le_log2 hm).2 h)

theorem roundRat_beyond {f : Fmt} {rm : RMode} {sat n : Bool} {m : Nat} {e : Int} (hm : m ≠ 0)
    (h : 2 ^ (f.emax + 1 - e).toNat ≤ m) :
    roundRat f rm sat n m 1 e = (if sat || towardsZero rm n then f.sign n f.maxCode
      else if f.e4m3 then f.canonNaN else f.sign n f.infCode, fOF ||| fNX) := by
  have hlog := log2Rat_ge hm h
  have hover : (decide (f.emax < max (log2Rat m 1 + e) f.emin)) = true := by
    rw [decide_eq_true_eq]
    omega
  unfold roundRat
  rw [if_neg hm]
  dsimp only
  rw [hover, Bool.true_or, if_pos rfl]

/-- The modes that round away from zero what lies beyond the range. -/
theorem towardsZero_iff (rm : RMode) (n : Bool) :
    towardsZero rm n = true ↔ ¬ (rm = .rne ∨ (rm = .rup ∧ n = false) ∨ (rm = .rdn ∧ n = true)) := by
  cases rm <;> cases n <;> decide

theorem e4m3_iff : ∀ k ∈ [FP64, FP32, FP16, BF16, E4M3, E5M2], (k.e4m3 = true ↔ k = E4M3) := by decide

/-! ### VCVT -/

theorem goodWidth_vty (t : VTy) : goodWidth t.width := by
  unfold goodWidth
  cases t <;> decide

end Sys2Proof.Machine

namespace Sys2Proof.Proofs
open Sys2Proof.Machine Sys2Proof.Spec

/-- Settles O29: a conversion by the kinds of its types, RoundInt by what division leaves (`roundMag_roundsTo`), a format's overflow by
its greatest exponent, and VCVT as one instruction with flags over the elements of its two widths. -/
theorem vectorConversionResults : Obligations.VectorConversionResults := by
  unfold Obligations.VectorConversionResults
  refine ⟨?_, roundInt_roundsTo, ?_, ?_⟩
  · intro src tgt rm sat v _ w lo hi code x r
    have hrange : vtyRange tgt = (lo, hi) := vtyRange_eq tgt
    have hx : (if src.signed then sgn src.width v else v) = x := intSource_eq src v
    refine ⟨fun f hs ht => ?_, fun f k hs ht => convert_float_float rm sat v hs ht, fun k hs ht => ?_, fun hs ht => ?_⟩
    · have hr : r = (code (fToInt rm lo hi (decodeF f v)).1, (fToInt rm lo hi (decodeF f v)).2) := by
        rw [← show (vtyRange tgt).1 = lo from congrArg Prod.fst hrange, ← show (vtyRange tgt).2 = hi from congrArg Prod.snd hrange]
        exact convert_float_int rm sat v hs ht
      refine ⟨fun q h => ?_, fun n h => ?_, fun n m e h => ?_⟩
      · rw [hr, h]
        rfl
      · rw [hr, h]
        rfl
      · rw [hr, h, fToInt_fin]
    · rw [← hx]
      exact convert_int_float rm sat v hs ht
    · have h := convert_int_int rm sat v hs ht
      rw [hrange, hx] at h
      exact h
  · intro k hk rm sat n
    have h8 := e4m3_iff k hk
    refine ⟨fun _ => rfl, rfl, fun hne => ?_, rfl, fun m e hm hbig => ?_⟩
    · rw [roundTo, if_neg Bool.false_ne_true, if_neg (mt h8.1 hne)]
    · intro away
      have hto (sat : Bool) : roundTo k rm sat (.fin n m e) = _ := roundRat_beyond hm hbig
      refine ⟨fun h => ?_, fun hsat haway => ?_⟩
      · rw [hto, if_pos]
        rw [Bool.or_eq_true, towardsZero_iff]
        exact h
      · have hfalse : (sat || towardsZero rm n) = false := by
          rw [hsat, Bool.false_or, Bool.eq_false_iff, Ne, towardsZero_iff]
          exact not_not_intro haway
        rw [hto, hfalse, if_neg Bool.false_ne_true]
        simp only [h8]
  · intro src tgt sat m d c s _ hv hsew n hd hc hapart r
    have hpass : s.th.vCause (s.th.sew == max src.width tgt.width) [s.th.sized d tgt.width, s.th.sized c src.width]
        (src.width != tgt.width && (s.th.sized d tgt.width).meets (s.th.sized c src.width)) = none := by
      refine vCause_passes hv (beq_iff_eq.2 hsew) (List.forall_mem_cons.2 ⟨hd, List.forall_mem_singleton.2 hc⟩) ?_
      by_cases h : src.width = tgt.width
      · rw [h, bne_self_eq_false, Bool.false_and]
      · rw [meets_of_apart (a := s.th.sized d tgt.width) (b := s.th.sized c src.width) (hapart h), Bool.and_false]
    have helem : r = fun j => convert src tgt (rmOf s.th.fcsr) sat (s.elem s.cur c.val src.width j) :=
      funext fun j => by rw [← velem_toNat]
    rw [helem]
    exact vFpRun_ends rfl hpass (goodWidth_vty tgt) fun j hj =>
      register_lt_sized (goodWidth_vty tgt) (hsew ▸ Nat.le_max_right ..) hj

end Sys2Proof.Proofs
end

section
/-! Block formats (09 R137 to R140; 03 R40, R41): what a block is made of, and the instructions that quantise, pack and unpack blocks. -/

namespace Sys2Proof.Machine
open Sys2Proof.Spec

/-! ### The greatest magnitude (03 R40) -/

/-- The magnitude of a value that is not NaN. -/
def magnitude : FVal → WithTop ℚ
  | .fin _ m e => ((m : ℚ) * 2 ^ e : ℚ)
  | _ => ⊤

/-- A dyadic as a number. -/
def dyadic (x : Int × Int) : ℚ := x.1 * 2 ^ x.2

theorem dyadic_addDy (a b : Int × Int) : dyadic (addDy a b) = dyadic a + dyadic b := by
  have hshift (z e low : Int) (h : low ≤ e) : ((z * 2 ^ (e - low).toNat : Int) : ℚ) * 2 ^ low = z * 2 ^ e := by
    have hnat : ((e - low).toNat : Int) = e - low := Int.toNat_of_nonneg (by omega)
    push_cast
    rw [mul_assoc, ← zpow_natCast (2 : ℚ), hnat, ← zpow_add₀ two_ne_zero, sub_add_cancel]
  unfold dyadic addDy
  dsimp only
  rw [← hshift a.1 a.2 (min a.2 b.2) (min_le_left ..), ← hshift b.1 b.2 (min a.2 b.2) (min_le_right ..), ← add_mul]
  push_cast
  rfl

theorem dyadic_neg_iff (x : Int × Int) : dyadic x < 0 ↔ x.1 < 0 := by
  have hpow : (0 : ℚ) < 2 ^ x.2 := zpow_pos two_pos _
  unfold dyadic
  rw [mul_neg_iff]
  simp [hpow, hpow.not_gt]

/-- The order of magnitudes is that of the numbers. -/
theorem cmpV_abs_neg_iff {x y : FVal} (hx : x.isNaN = false) (hy : y.isNaN = false) :
    cmpV x.abs y.abs < 0 ↔ magnitude x < magnitude y := by
  cases x with
  | nan _ => cases hx
  | inf n =>
    cases y with
    | nan _ => cases hy
    | inf _ | fin _ _ _ => simp [FVal.abs, cmpV, magnitude]
  | fin n m e =>
    cases y with
    | nan _ => cases hy
    | inf _ => exact iff_of_true (by simp [FVal.abs, cmpV]) (WithTop.coe_lt_top _)
    | fin k o h =>
      have hsum := dyadic_addDy (toDy false m e) (toDy true o h)
      have hsign := dyadic_neg_iff (addDy (toDy false m e) (toDy true o h))
      have hleft : dyadic (toDy false m e) = m * 2 ^ e := by simp [dyadic, toDy]
      have hright : dyadic (toDy true o h) = -(o * 2 ^ h) := by simp [dyadic, toDy]
      rw [hsum, hleft, hright, ← sub_eq_add_neg, sub_neg] at hsign
      simp only [FVal.abs, cmpV, magnitude, WithTop.coe_lt_coe, hsign, Bool.not_false]
      split
      · simpa
      · split <;> simp_all

theorem magnitude_abs (x : FVal) : magnitude x.abs = magnitude x := by cases x <;> rfl

theorem isNaN_abs (x : FVal) : x.abs.isNaN = x.isNaN := by cases x <;> rfl

theorem abs_abs (x : FVal) : x.abs.abs = x.abs := by cases x <;> rfl

theorem amaxV_isNaN (l : List FVal) : (amaxV l).isNaN = l.any FVal.isNaN := by
  induction l with
  | nil => rfl
  | cons x l ih =>
    rw [amaxV, List.any_cons, ih]
    by_cases h : (x.isNaN || l.any FVal.isNaN) = true
    · rw [if_pos h, h]
      rfl
    · rw [if_neg h]
      rw [Bool.not_eq_true, Bool.or_eq_false_iff] at h
      rw [h.1, h.2]
      split
      · rw [isNaN_abs, h.1]
        rfl
      · rw [ih, h.2]
        rfl

theorem amaxV_cons {x : FVal} {l : List FVal} (h : ∀ y ∈ x :: l, y.isNaN = false) :
    amaxV (x :: l) = if cmpV (amaxV l) x.abs < 0 then x.abs else amaxV l := by
  obtain ⟨hx, hl⟩ := List.forall_mem_cons.1 h
  have hnone : (x.isNaN || (amaxV l).isNaN) = false := by
    rw [hx, amaxV_isNaN, Bool.false_or, List.any_eq_false]
    exact fun y hy => Bool.eq_false_iff.1 (hl y hy)
  rw [amaxV, hnone, if_neg Bool.false_ne_true]

/-- The greatest magnitude is one of the list's, or zero. -/
theorem amaxV_mem {l : List FVal} (h : ∀ x ∈ l, x.isNaN = false) : (∃ x ∈ l, amaxV l = x.abs) ∨ amaxV l = .fin false 0 0 := by
  induction l with
  | nil => exact .inr rfl
  | cons x l ih =>
    rw [amaxV_cons h]
    by_cases hless : cmpV (amaxV l) x.abs < 0
    · rw [if_pos hless]
      exact .inl ⟨x, List.mem_cons_self, rfl⟩
    · rw [if_neg hless]
      refine (ih (List.forall_mem_cons.1 h).2).imp (fun ⟨y, hy, he⟩ => ⟨y, List.mem_cons_of_mem x hy, he⟩) id

theorem amaxV_abs {l : List FVal} (h : ∀ x ∈ l, x.isNaN = false) : (amaxV l).abs = amaxV l := by
  obtain ⟨x, -, hx⟩ | hx := amaxV_mem h
  · rw [hx, abs_abs]
  · rw [hx]
    rfl

theorem cmpV_amaxV_neg_iff {x : FVal} {l : List FVal} (hx : x.isNaN = false) (h : ∀ y ∈ l, y.isNaN = false) :
    cmpV (amaxV l) x.abs < 0 ↔ magnitude (amaxV l) < magnitude x := by
  have hnone : (amaxV l).isNaN = false := by
    rw [amaxV_isNaN, List.any_eq_false]
    exact fun y hy => Bool.eq_false_iff.1 (h y hy)
  rw [← cmpV_abs_neg_iff hnone hx, amaxV_abs h]

/-- No magnitude of the list is greater. -/
theorem magnitude_le_amaxV {l : List FVal} (h : ∀ x ∈ l, x.isNaN = false) : ∀ x ∈ l, magnitude x ≤ magnitude (amaxV l) := by
  induction l with
  | nil => exact nofun
  | cons y l ih =>
    obtain ⟨hy, hl⟩ := List.forall_mem_cons.1 h
    have hcmp := cmpV_amaxV_neg_iff hy hl
    rw [amaxV_cons h]
    by_cases hless : cmpV (amaxV l) y.abs < 0
    · rw [if_pos hless, magnitude_abs]
      exact List.forall_mem_cons.2 ⟨le_rfl, fun x hx => (ih hl x hx).trans (hcmp.1 hless).le⟩
    · rw [if_neg hless]
      exact List.forall_mem_cons.2 ⟨not_lt.1 (mt hcmp.2 hless), ih hl⟩

/-! ### Scales and elements (03 R40; 09 R137) -/

theorem blockScale_finite {n : Bool} {m j : Nat} {e emax : Int} (hlo : 2 ^ j ≤ m) (hhi : m < 2 ^ (j + 1)) :
    blockScale (.fin n m e) emax = (clamped 0 254 (j + e - emax + 127)).toNat := by
  have hm : m ≠ 0 := (Nat.lt_of_lt_of_le (Nat.two_pow_pos j) hlo).ne'
  have hlog : log2Rat m 1 = j := by rw [log2Rat_one hm, (Nat.log2_eq_iff hm).2 ⟨hlo, hhi⟩]
  rw [blockScale, if_neg hm, hlog, clamped]
  dsimp only
  split
  · rfl
  · split <;> rfl

theorem scaled_eq (n : Bool) (m c : Nat) (e : Int) : (FVal.fin n m e).scale (127 - c) = .fin n m (e + 127 - c) := by
  rw [FVal.scale, add_sub_assoc]

theorem quantise_float {tgt : VTy} {c m : Nat} {n : Bool} {e : Int} {k : Fmt} (hc : c ≠ 0xFF) (hk : tgt.fp = some k) :
    quantise tgt c (.fin n m e) = (roundTo k .rne true (.fin n m (e + 127 - c))).1 := by
  rw [quantise, if_neg hc, hk, scaled_eq]

theorem quantise_int8 {c m : Nat} {n : Bool} {e : Int} (hc : c ≠ 0xFF) :
    quantise .int8 c (.fin n m e) = (clamped (-128) 127 (roundInt .rne n m (e + 127 - c)).1 % 256).toNat := by
  rw [quantise, if_neg hc, scaled_eq]
  rfl

/-! ### DXB blocks (03 R35, R41) -/

theorem dxbEncode_special {w4 : Bool} {shift : Nat} {x : List FVal} (h : ∃ v ∈ x, v.isNaN = true ∨ v.isInf = true) :
    dxbEncode w4 shift x = (0xFF, 0xFF, x.map fun _ => 0) := by
  have hany : x.any (fun v => v.isNaN || v.isInf) = true := by
    rw [List.any_eq_true]
    simpa only [Bool.or_eq_true] using h
  rw [dxbEncode, if_pos hany]

/-- The code of an element under the two exponents of its block. -/
def dxbCode (w4 : Bool) (e0 e1 : Nat) (v : FVal) : Nat :=
  match v with
  | .fin n m e =>
    let m1 := (roundInt .rne false m (e + (if w4 then 1 else 6) - ((e1 : Int) - 127))).1.toNat
    let s := if n then 2 ^ ((if w4 then 2 else 6) + 1) else 0
    if m1 ≤ 2 ^ (if w4 then 2 else 6) - 1 then s + 2 ^ (if w4 then 2 else 6) + m1
    else s + min (roundInt .rne false m (e + (if w4 then 1 else 6) - ((e0 : Int) - 127))).1.toNat (2 ^ (if w4 then 2 else 6) - 1)
  | _ => 0

theorem dxbEncode_finite {w4 : Bool} {shift : Nat} {x : List FVal} (h : ∀ v ∈ x, v.isNaN = false ∧ v.isInf = false) :
    dxbEncode w4 shift x = (blockScale (amaxV x) (if w4 then 0 else -1), blockScale (amaxV x) (if w4 then 0 else -1) - shift,
      x.map (dxbCode w4 (blockScale (amaxV x) (if w4 then 0 else -1)) (blockScale (amaxV x) (if w4 then 0 else -1) - shift))) := by
  have hnone : ¬ x.any (fun v => v.isNaN || v.isInf) = true := by
    rw [Bool.not_eq_true, List.any_eq_false]
    intro v hv
    rw [(h v hv).1, (h v hv).2]
    exact Bool.false_ne_true
  rw [dxbEncode, if_neg hnone]
  rfl

theorem dxbCode_fin (w4 : Bool) (e0 e1 : Nat) (n : Bool) (m : Nat) (e : Int) :
    let bits := if w4 then 2 else 6
    let under (e' : Nat) : Nat := (roundInt .rne false m (e + (if w4 then 1 else 6) + 127 - e')).1.toNat
    dxbCode w4 e0 e1 (.fin n m e) = (if n then 2 ^ (bits + 1) else 0) +
      if under e1 < 2 ^ bits then 2 ^ bits + under e1 else min (under e0) (2 ^ bits - 1) := by
  intro bits under
  have hexp (e' : Nat) : e + (if w4 then 1 else 6) - ((e' : Int) - 127) = e + (if w4 then 1 else 6) + 127 - e' := by ring
  have hfits : under e1 ≤ 2 ^ bits - 1 ↔ under e1 < 2 ^ bits := Nat.le_sub_one_iff_lt (Nat.two_pow_pos _)
  rw [dxbCode, hexp, hexp]
  by_cases h : under e1 < 2 ^ bits
  · rw [if_pos h, if_pos (hfits.2 h), Nat.add_assoc]
  · rw [if_neg h, if_neg (mt hfits.1 h)]

theorem dxbEncode_length (w4 : Bool) (shift : Nat) (x : List FVal) : (dxbEncode w4 shift x).2.2.length = x.length := by
  unfold dxbEncode
  split <;> simp

theorem pairUp_length (l : List Nat) : (pairUp l).length = (l.length + 1) / 2 := by
  induction l using pairUp.induct with
  | case1 a b r ih =>
    rw [pairUp, List.length_cons, ih]
    simp
    omega
  | case2 l h =>
    match l with
    | [] | [_] => simp [pairUp]
    | a :: b :: r => exact absurd rfl (h a b r)

/-- A block of 32 elements has the length of its format. -/
theorem blockBytes_length (w4 : Bool) (shift : Nat) {x : List FVal} (h : x.length = 32) :
    (blockBytes w4 (dxbEncode w4 shift x)).length = blockLen w4 := by
  cases w4 <;> simp [blockBytes, blockLen, pairUp_length, dxbEncode_length, h]

/-! ### A stream of blocks -/

theorem flatMap_range_length {f : Nat → List Nat} {y : Nat} (hf : ∀ k, (f k).length = y) (n : Nat) :
    ((List.range n).flatMap f).length = y * n := by
  simp [List.length_flatMap, hf, Nat.mul_comm]

/-- A byte of a stream is a byte of its block. -/
theorem flatMap_range_getD {f : Nat → List Nat} {y : Nat} (hf : ∀ k, (f k).length = y) {n p : Nat} (hp : p < y * n) :
    ((List.range n).flatMap f).getD p 0 = (f (p / y)).getD (p % y) 0 := by
  induction n with
  | zero => exact absurd hp (Nat.not_lt_zero p)
  | succ n ih =>
    have hlen := flatMap_range_length hf n
    rw [List.range_succ, List.flatMap_append, List.flatMap_singleton]
    by_cases h : p < y * n
    · rw [List.getD_append _ _ _ _ (hlen ▸ h), ih h]
    · rw [List.getD_append_right _ _ _ _ (by omega), hlen]
      rw [Nat.mul_succ] at hp
      have hrest : p = p - y * n + y * n := by omega
      have hy : p - y * n < y := by omega
      generalize p - y * n = r at *
      rw [hrest, Nat.add_mul_div_left _ _ (Nat.lt_of_le_of_lt (Nat.zero_le r) hy), Nat.add_mul_mod_self_left, Nat.div_eq_of_lt hy,
        Nat.zero_add, Nat.mod_eq_of_lt hy]

/-! ### VDXBPACK and VDXBUNPACK -/

theorem vBlock_passes {s : State} {i : Instr} {gs : List Group} {ovl : Bool} {dist : Nat} {write : State → State}
    (h : s.th.vCause (blockSource s.th.sew).isSome gs ovl = none) : s.vBlock i gs ovl dist write = .next ((write s).vDone 4 dist) := by
  rw [State.vBlock, h]

/-- The block of the elements from 32·j on, 0 beyond VL (09 R139). -/
def packedBlock (s : State) (w4 : Bool) (sh : Nat) (k : Fmt) (c : Reg) (j : Nat) : List Nat :=
  blockBytes w4 (dxbEncode w4 sh ((List.range 32).map fun e =>
    if 32 * j + e < s.th.vl.toNat then decodeF k (s.elem s.cur c.val s.th.sew (32 * j + e)) else .fin false 0 0))

theorem packedBlock_length (s : State) (w4 : Bool) (sh : Nat) (k : Fmt) (c : Reg) (j : Nat) :
    (packedBlock s w4 sh k c j).length = blockLen w4 := blockBytes_length w4 sh (by simp)

theorem vdxbpack_exec {s : State} {w4 : Bool} {sh : Fin 16} {d c : Reg} {k : Fmt} (hk : blockSource s.th.sew = some k)
    (hpass : s.th.vCause (blockSource s.th.sew).isSome [streamGroup w4 s.th.vlmax d, s.th.group c]
      ((streamGroup w4 s.th.vlmax d).meets (s.th.group c)) = none) :
    ∃ dist, exec (.vdxbpack w4 sh d c) s = .next ((s.putElems s.cur d.val 8 (streamGroup w4 s.th.vlmax d).count
      (frontTail 8 (blockLen w4 * ((s.th.vl.toNat + 31) / 32)) (64 * (streamGroup w4 s.th.vlmax d).count) (s.th.vtype.getLsbD 5) fun p =>
        ((List.range ((s.th.vl.toNat + 31) / 32)).flatMap (packedBlock s w4 sh.val k c)).getD p 0)).vDone 4 dist) := by
  have he : exec (.vdxbpack w4 sh d c) s = execVdxbpack w4 sh d c s := rfl
  rw [← flatMap_range_length (packedBlock_length s w4 sh.val k c), he, execVdxbpack, vBlock_passes hpass, hk]
  dsimp only
  rw [zip_range]
  exact ⟨_, rfl⟩

theorem vdxbpack_results {s : State} {w4 : Bool} {sh : Fin 16} {d c : Reg} {k : Fmt} (hv : vtypeOk s.th)
    (hk : blockSource s.th.sew = some k) (hd : groupOk s.th d.val (streamGroup w4 s.th.vlmax d).count (streamGroup w4 s.th.vlmax d).align)
    (hc : groupOk s.th c.val s.th.grp s.th.grp) (hapart : Spec.apart d.val (streamGroup w4 s.th.vlmax d).count c.val s.th.grp) :
    Answers (.vdxbpack w4 sh d c) s fun t =>
      (∀ p, p < 64 * (streamGroup w4 s.th.vlmax d).count → velem t d.val 8 p =
        if p < blockLen w4 * ((s.th.vl.toNat + 31) / 32) then
          BitVec.ofNat 8 ((packedBlock s w4 sh.val k c (p / blockLen w4)).getD (p % blockLen w4) 0)
        else if s.th.vtype.getLsbD 5 then 0xFF else velem s d.val 8 p) ∧
      vcompleted s t d.val (streamGroup w4 s.th.vlmax d).count 4 plain := by
  have hpass : s.th.vCause (blockSource s.th.sew).isSome [streamGroup w4 s.th.vlmax d, s.th.group c]
      ((streamGroup w4 s.th.vlmax d).meets (s.th.group c)) = none :=
    vCause_passes hv (by rw [hk]; rfl) (List.forall_mem_cons.2 ⟨hd, List.forall_mem_singleton.2 hc⟩)
      (meets_of_apart (a := streamGroup w4 s.th.vlmax d) (b := s.th.group c) hapart)
  obtain ⟨dist, he⟩ := vdxbpack_exec (sh := sh) hk hpass
  refine ⟨_, he, fun p hp => ?_, putElems_vDone ..⟩
  rw [vDone_velem, velem_frontTail (.inl rfl) hp (by omega)]
  by_cases hfront : p < blockLen w4 * ((s.th.vl.toNat + 31) / 32)
  · rw [if_pos hfront, if_pos hfront, flatMap_range_getD (packedBlock_length s w4 sh.val k c) hfront]
  · rw [if_neg hfront, if_neg hfront]
    rfl

theorem vdxbunpack_results {s : State} {w4 : Bool} {d c : Reg} {k : Fmt} (hv : vtypeOk s.th) (hk : blockSource s.th.sew = some k)
    (hd : groupOk s.th d.val s.th.grp s.th.grp)
    (hc : groupOk s.th c.val (streamGroup w4 s.th.vlmax c).count (streamGroup w4 s.th.vlmax c).align)
    (hapart : Spec.apart d.val s.th.grp c.val (streamGroup w4 s.th.vlmax c).count) :
    Answers (.vdxbunpack w4 d c) s fun t =>
      (∀ i, i < s.th.vlmax → velem t d.val s.th.sew i =
        if i < s.th.vl.toNat then BitVec.ofNat s.th.sew (roundTo k .rne false
          (blockElem w4 (fun p => (velem s c.val 8 (blockLen w4 * (i / 32) + p)).toNat) (i % 32))).1
        else if s.th.vtype.getLsbD 5 then BitVec.allOnes s.th.sew else velem s d.val s.th.sew i) ∧
      vcompleted s t d.val s.th.grp 4 plain := by
  have hpass : s.th.vCause (blockSource s.th.sew).isSome [s.th.group d, streamGroup w4 s.th.vlmax c]
      ((s.th.group d).meets (streamGroup w4 s.th.vlmax c)) = none :=
    vCause_passes hv (by rw [hk]; rfl) (List.forall_mem_cons.2 ⟨hd, List.forall_mem_singleton.2 hc⟩)
      (meets_of_apart (a := s.th.group d) (b := streamGroup w4 s.th.vlmax c) hapart)
  have he : exec (.vdxbunpack w4 d c) s = execVdxbunpack w4 d c s := rfl
  unfold Answers
  rw [he, execVdxbunpack, vBlock_passes hpass, hk]
  refine ⟨_, rfl, fun i hi => ?_, putElems_vDone ..⟩
  simp only [velem_toNat]
  rw [vDone_velem]
  exact velem_frontTail (goodWidth_sew hv) hi (register_lt_grp hv hi)

/-! ### VQSCALE -/

/-- A register outside the group that a write of elements names reads as before. -/
theorem velem_putElems_apart {s : State} {base w n : Nat} {l : List (Nat × Nat)} {r v i m : Nat} (hi : i * v / 512 < m)
    (h : Spec.apart base n r m) : velem (s.putElems s.cur base w n l) r v i = velem s r v i := by
  have hout : ¬ (base ≤ r + i * v / 512 ∧ r + i * v / 512 < base + n) := by
    unfold Spec.apart at h
    omega
  rw [velem, putElems_cur, State.vreg_putElems, if_neg hout, velem]

/-- The second of two writes of elements names the same thread. -/
theorem putElems_again (s : State) (t base w n : Nat) (l : List (Nat × Nat)) (b v m : Nat) (l' : List (Nat × Nat)) :
    (s.putElems t base w n l).putElems s.cur b v m l' =
      (s.putElems t base w n l).putElems (s.putElems t base w n l).cur b v m l' := by rw [putElems_cur]

/-- Two groups written: what else the instruction leaves. -/
theorem putElems_twice_vDone (s : State) (d n w b v m : Nat) (l l' : List (Nat × Nat)) (len : Word) (dist : Nat) :
    let y := (s.putElems s.cur d w n l).putElems s.cur b v m l'
    (∃ r n, vcompleted s (y.vDone len dist) r n len plain) ∧
    ∀ p, p < s.th.winBase + d ∨ s.th.winBase + d + n ≤ p → p < s.th.winBase + b ∨ s.th.winBase + b + m ≤ p →
      ((y.vDone len dist).core (s.cur / 16)).vf.get 0 p = (s.core (s.cur / 16)).vf.get 0 p := by
  intro y
  obtain ⟨hth, hother, hcore, hcores, hrest⟩ := s.putElems_frame s.cur d w n l
  have hwin : ((s.putElems s.cur d w n l).thread s.cur).winBase = s.th.winBase := putElems_winBase s s.cur d w n l
  have hcur : y.cur = s.cur := (putElems_cur ..).trans (putElems_cur ..)
  have hvf := fun p => putElems_vf s s.cur d w n l (p := p)
  have hvbad := s.putElems_vbad s.cur d w n l
  obtain ⟨hth', hother', hcore', hcores', hrest'⟩ := (s.putElems s.cur d w n l).putElems_frame s.cur b v m l'
  have hvf' := fun p => putElems_vf (s.putElems s.cur d w n l) s.cur b v m l' (p := p)
  have hvbad' := (s.putElems s.cur d w n l).putElems_vbad s.cur b v m l'
  rw [hwin] at hvf' hvbad'
  have hfile (p : Nat) (hd : p < s.th.winBase + d ∨ s.th.winBase + d + n ≤ p) (hb : p < s.th.winBase + b ∨ s.th.winBase + b + m ≤ p) :
      (y.core (s.cur / 16)).vf.get 0 p = (s.core (s.cur / 16)).vf.get 0 p := (hvf' p hb).trans (hvf p hd)
  refine ⟨⟨min d b, max (d + n) (b + m), vDone_vcompleted len dist ?_ (fun u hu => (hother' u hu).trans (hother u hu))
    (fun p hp => hfile p (by omega) (by omega)) (fun e he => (hvbad' e (by omega)).trans (hvbad e ?_)) (fun c => ?_)
    (fun c hc => (hcores' c hc).trans (hcores c hc)) ?_⟩, fun p hd hb => ?_⟩
  · have h := congrArg (fun x : Thread => { x with oldV := s.th.oldV }) (hth' s.cur)
    rw [State.th, hcur]
    exact h.trans (hth s.cur)
  · have hleft : e.1 < s.th.winBase + d ∨ s.th.winBase + d + n ≤ e.1 := by omega
    exact hleft
  · have h := congrArg (fun x : Core => { x with vf := (s.core c).vf, vbad := (s.core c).vbad }) (hcore' c)
    exact h.trans (hcore c)
  · have h := congrArg (fun x : State => { x with threads := s.threads, cores := s.cores }) hrest'
    exact h.trans hrest
  · rw [vDone_core, hfile p hd hb]

/-- The scale of a block of the elements below VL (09 R137). -/
def scaleOf (s : State) (tgt : VTy) (k : Fmt) (c : Reg) (j : Nat) : Nat :=
  blockScale (amaxV ((((List.range 32).map (32 * j + ·)).filter (· < s.th.vl.toNat)).map fun i =>
    (decodeF k (s.elem s.cur c.val s.th.sew i)).abs)) (scaleEmax tgt)

/-- VQSCALE: the elements of its target, then a scale for each block (09 R137). -/
theorem vqscale_exec {s : State} {tgt : VTy} {d c b : Reg} {k : Fmt} (hk : blockSource s.th.sew = some k) (hvl : s.th.vl.toNat ≠ 0)
    (hpass : s.th.vCause (blockSource s.th.sew).isSome [s.th.sized d tgt.width, s.th.group c, single b]
      ((s.th.sized d tgt.width).meets (s.th.group c) || (s.th.sized d tgt.width).meets (single b) || (s.th.group c).meets (single b)) =
        none) :
    ∃ dist, exec (.vqscale tgt d c b) s = .next (((s.putElems s.cur d.val tgt.width (s.th.sized d tgt.width).count
      (frontTail tgt.width s.th.vl.toNat s.th.vlmax (s.th.vtype.getLsbD 5) fun j =>
        quantise tgt (scaleOf s tgt k c (j / 32)) (decodeF k (s.elem s.cur c.val s.th.sew j)))).putElems s.cur b.val 8 1
      (frontTail 8 ((s.th.vl.toNat + 31) / 32) 64 false (scaleOf s tgt k c))).vDone 4 dist) := by
  have he : exec (.vqscale tgt d c b) s = execVqscale tgt d c b s := rfl
  have hsome : ¬ (s.th.vctx 0 false).empty = true := mt (vctx_empty s.th 0 false).1 fun h => hvl (h.elim id Nat.le_zero.1)
  have hnotail : frontTail 8 ((s.th.vl.toNat + 31) / 32) 64 false (scaleOf s tgt k c) =
      (List.range ((s.th.vl.toNat + 31) / 32)).map fun j => (j, scaleOf s tgt k c j) := List.append_nil _
  rw [hnotail, he, execVqscale, vRun_passes hpass, if_neg hsome, hk]
  exact ⟨_, rfl⟩

theorem blockSource_sew {w : Nat} {k : Fmt} (h : blockSource w = some k) : w = 16 ∨ w = 32 ∨ w = 64 := by
  unfold blockSource at h
  split_ifs at h with h16 h32 h64
  exacts [.inl h16, .inr (.inl h32), .inr (.inr h64)]

theorem isScaleTarget_width_le {tgt : VTy} {w : Nat} {k : Fmt} (h : tgt.isScaleTarget = true) (hk : blockSource w = some k) :
    tgt.width ≤ w := by
  have hw : tgt.width ≤ 16 := by
    cases tgt with
    | e4m3 | e5m2 | fp16 | int8 => simp [VTy.width]
    | fp64 | fp32 | bf16 | uint8 | int16 | int32 | int64 => cases h
  have := blockSource_sew hk
  omega

theorem vqscale_results {s : State} {tgt : VTy} {d c b : Reg} {k : Fmt} (hv : vtypeOk s.th) (htgt : tgt.isScaleTarget = true)
    (hk : blockSource s.th.sew = some k) (hvl : s.th.vl.toNat ≠ 0)
    (hgroups : ∀ g ∈ [s.th.sized d tgt.width, s.th.group c, single b], groupOk s.th g.base g.count g.align)
    (hdc : Spec.apart d.val (s.th.sized d tgt.width).count c.val s.th.grp) (hdb : Spec.apart d.val (s.th.sized d tgt.width).count b.val 1)
    (hcb : Spec.apart c.val s.th.grp b.val 1) :
    Answers (.vqscale tgt d c b) s fun t =>
      (∀ i, i < s.th.vlmax → velem t d.val tgt.width i =
        if i < s.th.vl.toNat then
          BitVec.ofNat tgt.width (quantise tgt (scaleOf s tgt k c (i / 32)) (decodeF k (s.elem s.cur c.val s.th.sew i)))
        else if s.th.vtype.getLsbD 5 then BitVec.allOnes tgt.width else velem s d.val tgt.width i) ∧
      (∀ j, j < 64 → velem t b.val 8 j =
        if j < (s.th.vl.toNat + 31) / 32 then BitVec.ofNat 8 (scaleOf s tgt k c j) else velem s b.val 8 j) ∧
      (∃ r n, vcompleted s t r n 4 plain) ∧
      ∀ p, p < s.th.winBase + d ∨ s.th.winBase + d + (s.th.sized d tgt.width).count ≤ p →
        p < s.th.winBase + b ∨ s.th.winBase + b + 1 ≤ p →
        (t.core (s.cur / 16)).vf.get 0 p = (s.core (s.cur / 16)).vf.get 0 p := by
  have hmeets : ((s.th.sized d tgt.width).meets (s.th.group c) || (s.th.sized d tgt.width).meets (single b) ||
      (s.th.group c).meets (single b)) = false := by
    rw [meets_of_apart (b := s.th.group c) hdc, meets_of_apart (b := single b) hdb, meets_of_apart (a := s.th.group c) (b := single b) hcb]
    rfl
  obtain ⟨dist, he⟩ := vqscale_exec hk hvl (vCause_passes hv (by rw [hk]; rfl) hgroups hmeets)
  have hwidth := goodWidth_vty tgt
  refine ⟨_, he, fun i hi => ?_, fun j hj => ?_, putElems_twice_vDone ..⟩
  · have hin : i * tgt.width / 512 < (s.th.sized d tgt.width).count := register_lt_sized hwidth (isScaleTarget_width_le htgt hk) hi
    have hbd : Spec.apart b.val 1 d.val (s.th.sized d tgt.width).count := hdb.symm
    rw [vDone_velem, putElems_again, velem_putElems_apart hin hbd, velem_frontTail hwidth hi hin]
  · rw [vDone_velem, putElems_again, velem_frontTail (.inl rfl) hj (by omega), if_neg Bool.false_ne_true,
      velem_putElems_apart (m := 1) (by omega) hdb]

end Sys2Proof.Machine

namespace Sys2Proof.Proofs
open Sys2Proof.Machine Sys2Proof.Spec

/-- Settles O30: the parts of a block by their own lemmas; VQSCALE as two groups written, and the DXB instructions as a front and a tail. -/
theorem blockFormatResults : Obligations.BlockFormatResults := by
  unfold Obligations.BlockFormatResults
  refine ⟨fun l => ⟨?_, fun h => ⟨fun x hx => ?_, amaxV_mem h⟩⟩, fun n q m j e emax => ⟨rfl, rfl, rfl, blockScale_finite⟩,
    fun tgt c m n e x => ⟨rfl, fun k hc hk => quantise_float hc hk, ?_⟩, fun w4 shift x => ⟨dxbEncode_special, fun h => ?_⟩, ?_, ?_⟩
  · intro h
    rw [amaxV_isNaN, List.any_eq_true]
    exact h
  · exact not_lt.1 (mt (cmpV_amaxV_neg_iff (h x hx) h).1 (magnitude_le_amaxV h x hx).not_gt)
  · rintro hc rfl
    exact quantise_int8 hc
  · have hz := dxbEncode_finite (w4 := w4) (shift := shift) h
    refine ⟨congrArg (·.1) hz, congrArg (·.2.1) hz, dxbEncode_length w4 shift x, fun i n m e hi => ?_⟩
    intro bits under
    rw [hz, List.getElem?_map, hi, Option.map_some, dxbCode_fin]
  · intro tgt d c b k s htgt hv w nd vl hk hd hc hb hdc hdb hcb hvl val scale
    have hscale (j : Nat) : scale j = scaleOf s tgt k c j := by
      simp only [scaleOf, ← velem_toNat]
      rfl
    have hgroups : ∀ g ∈ [s.th.sized d tgt.width, s.th.group c, single b], groupOk s.th g.base g.count g.align :=
      List.forall_mem_cons.2 ⟨hd, List.forall_mem_cons.2 ⟨hc, List.forall_mem_singleton.2 hb⟩⟩
    obtain ⟨t, he, helems, hscales, ⟨_, _, hdone, hvstart, hstill, -, -, hcore, hcores, hrest, hthreads, -⟩, hfile⟩ :=
      vqscale_results hv htgt hk hvl hgroups hdc hdb hcb
    refine ⟨t, he, fun i hi => ?_, fun j hj => ?_, hdone, hvstart, hstill, fun p hp hpb => hfile p hp (by omega), hcore, hcores, hrest,
      hthreads⟩
    · rw [helems i hi, hscale, ← velem_toNat]
    · rw [hscales j hj, hscale]
  · intro w4 sh d c k s _ hv w n vl y ks al nb hk
    refine ⟨fun hd hc hapart => ?_, fun hd hc hapart => ?_⟩
    · intro elem block
      have h := vdxbpack_results (sh := sh) hv hk hd hc hapart
      have hb : packedBlock s w4 sh.val k c = block := by
        funext j
        simp only [packedBlock, ← velem_toNat]
        rfl
      rw [hb] at h
      exact h
    · exact vdxbunpack_results hv hk hd hc hapart

end Sys2Proof.Proofs
end

section
/-! What atomics and full/empty operations do at their word (11 R152, R154). -/

namespace Sys2Proof.Machine

section
variable {z : Nat} (o x c : BitVec (8 * z))

/-- The word that an atomic leaves, on words of z bytes. -/
def amoWord (op : AmoOp) : BitVec (8 * z) := BitVec.ofNat (8 * z) (amoNew op z o.toNat x.toNat c.toNat)

theorem ofNat_ite_toNat {w : Nat} {p q : Prop} [Decidable p] [Decidable q] {a b : BitVec w} (h : p ↔ q) :
    BitVec.ofNat w (if p then a.toNat else b.toNat) = if q then a else b := by
  simp only [h]
  split <;> simp

theorem amoWord_add : amoWord o x c .add = o + x := by
  apply BitVec.eq_of_toNat_eq
  simp [amoWord, amoNew, BitVec.toNat_add]

theorem amoWord_and : amoWord o x c .and = o &&& x := by
  rw [amoWord, amoNew, ← BitVec.toNat_and, BitVec.ofNat_toNat, BitVec.setWidth_eq]

theorem amoWord_or : amoWord o x c .or = o ||| x := by
  rw [amoWord, amoNew, ← BitVec.toNat_or, BitVec.ofNat_toNat, BitVec.setWidth_eq]

theorem amoWord_xor : amoWord o x c .xor = o ^^^ x := by
  rw [amoWord, amoNew, ← BitVec.toNat_xor, BitVec.ofNat_toNat, BitVec.setWidth_eq]

theorem amoWord_swap : amoWord o x c .swap = x := by
  rw [amoWord, amoNew, BitVec.ofNat_toNat, BitVec.setWidth_eq]

theorem amoWord_min : amoWord o x c .min = if x.toInt < o.toInt then x else o := by
  simp only [amoWord, amoNew, BitVec.ofNat_toNat, BitVec.setWidth_eq]
  rw [ofNat_ite_toNat not_lt.symm, ite_not]

theorem amoWord_max : amoWord o x c .max = if o.toInt < x.toInt then x else o := by
  simp only [amoWord, amoNew, BitVec.ofNat_toNat, BitVec.setWidth_eq]
  rw [ofNat_ite_toNat Iff.rfl]
  obtain h | h | h := lt_trichotomy o.toInt x.toInt
  · rw [if_pos h.le, if_pos h]
  · rw [if_pos h.le, if_neg h.not_lt, BitVec.eq_of_toInt_eq h]
  · rw [if_neg h.not_ge, if_neg h.not_gt]

theorem amoWord_minu : amoWord o x c .minu = if x.toNat < o.toNat then x else o := by
  rw [amoWord, amoNew, Nat.min_def, ofNat_ite_toNat not_lt.symm, ite_not]

theorem amoWord_maxu : amoWord o x c .maxu = if o.toNat < x.toNat then x else o := by
  rw [amoWord, amoNew, Nat.max_comm, Nat.max_def, ofNat_ite_toNat not_lt.symm, ite_not]

theorem amoWord_cas : amoWord o x c .cas = if o = c then x else o :=
  ofNat_ite_toNat BitVec.toNat_inj

end

end Sys2Proof.Machine

namespace Sys2Proof.Proofs
open Sys2Proof.Machine Sys2Proof.Spec

/-- Settles O18: the operations of the atomics one by one on bit vectors, and those of a full/empty word by its bit. -/
theorem wordOperationResults : Obligations.WordOperationResults := by
  unfold Obligations.WordOperationResults
  refine ⟨fun z _ o x c => ⟨amoWord_add o x c, amoWord_and o x c, amoWord_or o x c, amoWord_xor o x c, amoWord_swap o x c,
    amoWord_min o x c, amoWord_max o x c, amoWord_minu o x c, amoWord_maxu o x c, amoWord_cas o x c⟩, fun full w x => ?_⟩
  cases full with
  | false => exact ⟨rfl, rfl, rfl, rfl⟩
  | true => exact ⟨rfl, rfl, rfl, rfl⟩

end Sys2Proof.Proofs
end

section
/-! Atomics and full/empty operations at issue (11 R152 to R154). -/

namespace Sys2Proof.Machine
open Sys2Proof.Spec

/-- The checks of an access change at most what translation caches. -/
theorem State.sameButTlb.of_access {s s' : State} {t : Nat} {a : Word} {z al : Nat} {kind : AKind} {n : Need} {r : Xl}
    (h : s.access t a z al kind n = (r, s')) : s.sameButTlb s' := by
  have hf := s.access_frame t a z al kind n
  rwa [h] at hf

section
variable {s s' : State} {i : Instr} {a x cmp : Word} {k : RClass} {d : Reg} {loc : Nat}

/-- An atomic that passes its checks is asked of its home where no store of its thread is in flight to its lines. -/
theorem amo_sent {op : AmoOp} {z : Nat} (h : s.access s.cur a z z .atomic needRWA = (.ok loc, s')) (hb : s'.lineBusy s.cur loc z = false) :
    s.amo s.cur op d z a x cmp k [] =
      s'.ask s.cur (.amo op d z a x cmp k) k [] (fun _ => false) [⟨0, .amo op z x cmp, a, loc⟩] :=
  (reach_ok h _ _).trans (if_neg (Bool.eq_false_iff.1 hb))

theorem amo_asks {op : AmoOp} {z : Nat} (he : exec i s = .next (s.amo s.cur op d z a x cmp k []))
    (h : s.access s.cur a z z .atomic needRWA = (.ok loc, s')) (hb : s'.lineBusy s.cur loc z = false) :
    Answers i s (asks s (.amo op d z a x cmp k) .replies (.amo op z x cmp) k a loc) := by
  have hs := State.sameButTlb.of_access h
  rw [amo_sent h hb] at he
  exact ⟨_, he, ask_asks s s' _ k [] _ _ a loc hs.threads hs.mem hs.cur⟩

section
variable {op : FeOp} {lim : Nat} (h : s.access s.cur a 8 8 .fe needRWA = (.ok loc, s'))
include h

/-- A full/empty operation that passes its checks is asked of its home once the accesses that it waits for are performed. -/
theorem fullEmpty_sent (hb : s'.lineBusy s.cur loc 8 = false) (hd : (op.releases && !s'.pathTDone s.cur) = false) :
    s.fullEmpty s.cur op d a x lim k [] =
      s'.ask s.cur (.fe op d a x lim k) k [] (fun _ => false) [⟨0, .fe op x lim, a, loc⟩] :=
  (reach_ok h _ _).trans ((if_neg (Bool.eq_false_iff.1 hd)).trans (if_neg (Bool.eq_false_iff.1 hb)))

theorem fullEmpty_asks (he : exec i s = .next (s.fullEmpty s.cur op d a x lim k [])) (hb : s'.lineBusy s.cur loc 8 = false)
    (hd : (op.releases && !s'.pathTDone s.cur) = false) :
    Answers i s (asks s (.fe op d a x lim k) .replies (.fe op x lim) k a loc) := by
  have hs := State.sameButTlb.of_access h
  rw [fullEmpty_sent h hb hd] at he
  exact ⟨_, he, ask_asks s s' _ k [] _ _ a loc hs.threads hs.mem hs.cur⟩

/-- SYNST and FESET wait for the thread's earlier accesses. -/
theorem fullEmpty_waits (he : exec i s = .next (s.fullEmpty s.cur op d a x lim k []))
    (hd : (op.releases && !s'.pathTDone s.cur) = true) :
    Answers i s (waits s (.fe op d a x lim k) .performed []) := by
  have hs := State.sameButTlb.of_access h
  have hp : s.fullEmpty s.cur op d a x lim k [] = s'.parkOn s.cur (.fe op d a x lim k) .performed :=
    (reach_ok h _ _).trans (if_pos hd)
  rw [hp] at he
  exact ⟨_, he, waitFor_waits s s' _ _ [] [] hs.threads hs.mem hs.cur⟩

end
end

end Sys2Proof.Machine

namespace Sys2Proof.Proofs
open Sys2Proof.Machine Sys2Proof.Spec

/-- Settles O17: every atomic is one `amo`, which asks its home; a full/empty operation is one `fullEmpty`, which asks or first waits. -/
theorem synchronisingOperationsAskTheirHome : Obligations.SynchronisingOperationsAskTheirHome := by
  unfold Obligations.SynchronisingOperationsAskTheirHome
  constructor
  · intro k dbl d b c loc s s' z h hb sends
    have hsends {i : Instr} {op : AmoOp} (he : exec i s = s.execAmo op k dbl d b c) : sends i op := amo_asks he h hb
    exact ⟨hsends rfl, hsends rfl, hsends rfl, hsends rfl, hsends rfl, hsends rfl, hsends rfl, hsends rfl, hsends rfl, hsends rfl,
      hsends rfl, hsends rfl⟩
  · intro k d b c loc s s' h hb lim sends
    refine ⟨fullEmpty_asks h rfl hb rfl, fullEmpty_asks h rfl hb rfl, fun hd => ?_, fun hd => ?_⟩
    · have hw : (true && !s'.pathTDone s.cur) = false := by rw [hd]; rfl
      exact ⟨fullEmpty_asks h rfl hb hw, fullEmpty_asks h rfl hb hw⟩
    · have hw : (true && !s'.pathTDone s.cur) = true := by rw [hd]; rfl
      exact ⟨fullEmpty_waits h rfl hw, fullEmpty_waits h rfl hw⟩

end Sys2Proof.Proofs
end

section
/-! Loads that reach into a poisoned line (17 R222). -/

namespace Sys2Proof.Machine

section
variable {s : State}

/-- A vector instruction that passes its checks and processes something. -/
theorem vRun_passed {i : Instr} {sewOk ovl : Bool} {gs : List Group} {x : VCtx} {dist : Nat} {body : Out1}
    (h : s.th.vCause sewOk gs ovl = none) (hx : x.empty = false) : s.vRun i sewOk gs ovl x dist body = body := by
  rw [State.vRun, h, hx]
  rfl

variable {ew : Ew} {k : RClass} {v b : Reg} (h : s.th.vCause (ewBits ew == s.th.sew) [s.th.group v] false = none)
include h

theorem exec_vld_passed {mk : MReg} (hx : (s.th.vctx mk true).empty = false) :
    exec (.vld ew k mk v b) s = .next (s.vload s.cur false v (s.th.vctx mk true)
      ((s.th.vctx mk true).actives.map fun j => ⟨j, s.elemAddr .unit b j, []⟩) none k []) :=
  vRun_passed h hx

theorem exec_vldz_passed {c : Reg} (hx : (s.th.vctx 0 false).empty = false) :
    exec (.vldz ew k v b c) s = .next (s.vldz s.cur v (s.th.vctx 0 false) (s.g b) (s.g c) k []) :=
  vRun_passed h hx

end

/-- A thread in no loop that completes stands at the next instruction. -/
theorem completed_pc {s t : State} {next : Word} {dist : Nat} (h : Spec.completed s t next dist) (hl : s.th.lc = .empty) :
    t.th.pc = next := by
  obtain ⟨⟨-, -, hpc, -⟩, -⟩ := h
  refine hpc ?_ ?_ <;> simp [Spec.loopRepeats, Spec.loopActs, hl]

/-- Segment 0 of thread 0 allows it to read the two bytes from byte 63 of its local store, and the second of them lies in a poisoned line;
its vector instructions have one element of 16 bits. -/
def poisonAhead : State :=
  { (State.reset.setThread 0 { Thread.init with
      seg := Sp.empty.set 0 0 (BitVec.ofNat 128 (2 ^ 56 + 63 + 2 ^ 57 + 2 * 2 ^ 64)), vtype := 1, vl := 1, winSize := 1 }).modCore 0
      fun c => { c with comp := some 0 } with
    poison := Sp.empty.set none (2 ^ 50 + 1) (some ⟨false, 0, 0⟩) }

theorem poisonAhead_access : poisonAhead.access 0 0 2 2 .load needR = (.ok (2 ^ 56 + 63), poisonAhead) := by decide +kernel

theorem poisonAhead_lh : exec (.lh .o 1 0 0) poisonAhead = .next (poisonAhead.trap 0 0x91 0) :=
  congrArg Host.Outcome.next (by decide +kernel : poisonAhead.load 0 1 2 true 0 .o [] = _)

theorem poisonAhead_vld : exec (.vld .e16 .o 0 0 0) poisonAhead = .next (poisonAhead.trap 0 0x91 0) :=
  (exec_vld_passed (by decide +kernel) (by decide +kernel)).trans (congrArg Host.Outcome.next (by decide +kernel))

end Sys2Proof.Machine

namespace Sys2Proof.Proofs
open Sys2Proof.Machine Sys2Proof.Spec

/-- Refutes O14: the statement asks of the first byte alone that its line is not poisoned. Under a segment whose base is not aligned LH
reads two lines, and the poison of the second raises 0x91. -/
theorem not_loadsReadTheirBytes : ¬ Obligations.LoadsReadTheirBytes := by
  unfold Obligations.LoadsReadTheirBytes
  intro h
  obtain ⟨-, hlh, -⟩ := h .o 1 0 0 poisonAhead
  obtain ⟨hown, -⟩ := hlh _ _ poisonAhead_access
  obtain ⟨-, hc, -⟩ := answers_next poisonAhead_lh (hown (by decide +kernel) (by decide +kernel))
  exact absurd (completed_pc hc (by decide +kernel)) (by decide +kernel)

/-- Refutes O31: the statement asks of each element's first byte alone that its line is not poisoned. Under a segment whose base is not
aligned an element of VLD reads two lines, and the poison of the second raises 0x91. -/
theorem not_vectorLoadsAndStores : ¬ Obligations.VectorLoadsAndStores := by
  unfold Obligations.VectorLoadsAndStores
  intro h
  obtain ⟨hdirect, -⟩ := h .e16 .o 0 0 0 0 poisonAhead (by decide +kernel) (by decide +kernel) (by decide +kernel)
  obtain ⟨⟨hload, -⟩, -⟩ := hdirect (by decide +kernel)
  have hp := hload (fun _ => 2 ^ 56 + 63) fun j hj => ?_
  · obtain ⟨-, ⟨⟨dist, hc⟩, -⟩, -⟩ := answers_next poisonAhead_vld hp
    exact absurd (completed_pc hc (by decide +kernel)) (by decide +kernel)
  · obtain ⟨-, hj, -⟩ := hj
    obtain rfl : j = 0 := Nat.lt_one_iff.1 hj
    exact ⟨by decide +kernel, by decide +kernel, by decide +kernel⟩

end Sys2Proof.Proofs
end

section
/-! An access of ASID 0xFFF to a shared line (17 R221). -/

namespace Sys2Proof.Machine

/-- The first line of slice 0 of die 0 is shared: its owner tag is 0. -/
def sharedLine : State := { State.reset with tags := Sp.empty.set 0xFFF (sliceBase 0 0 / 64) 0 }

theorem sharedLine_firmware : sharedLine.locate 0 0xFFF false (sliceBase 0 0) 1 .load needR = (.bad 0x39, sharedLine) := by
  decide +kernel

end Sys2Proof.Machine

namespace Sys2Proof.Proofs
open Sys2Proof.Machine Sys2Proof.Spec

/-- Refutes O16: the statement lets every ASID access a shared line; the model lets ASID 0xFFF access the lines of owner 0xFFF alone. -/
theorem not_accessChecksTrap : ¬ Obligations.AccessChecksTrap := by
  unfold Obligations.AccessChecksTrap
  intro h
  obtain ⟨-, -, hplace⟩ := h
  obtain ⟨-, -, -, -, hwindow, -⟩ := hplace sharedLine 0 (sliceBase 0 0) 1 0xFFF false .load needR
  obtain ⟨-, -, hok⟩ := hwindow (.slice 0 0) (by decide) (by decide) (by decide +kernel) (.inl ⟨0, 0, rfl⟩)
  have htag : tagged sharedLine (sliceBase 0 0) 1 0xFFF := by
    intro l hlo hhi
    obtain rfl : l = sliceBase 0 0 / 64 := Nat.le_antisymm hhi hlo
    exact .inr (by decide +kernel)
  have hx := hok htag fun h => absurd h (by decide)
  exact absurd (sharedLine_firmware.symm.trans hx) (by decide +kernel)

end Sys2Proof.Proofs
end

section
/-! A compressed record of a thread past the last die (11 R162). -/

namespace Sys2Proof.Machine

/-- The record of no element, a header of eight bytes, lies at the location where the local store of core 8,192 would begin, which would
stand on die 8; segment 0 of its thread 131,072 lies there. -/
def recordPastDies : State :=
  { State.reset.setThread 131072 { Thread.init with
      seg := Sp.empty.set 0 0 (BitVec.ofNat 128 (2 ^ 56 + 2 ^ 55 + 2 ^ 57 + 8 * 2 ^ 64)), g := Sp.empty.set 0 1 8,
      asid := 0xFFF, vtype := 0, vl := 1, winSize := 1 } with
    cur := 131072, mem := Sp.empty.set 0 (2 ^ 56 + 2 ^ 55) 8 }

theorem recordPastDies_vldz : exec (.vldz .e8 .o 0 0 1) recordPastDies = .next (recordPastDies.trap 131072 0x39 0) :=
  (exec_vldz_passed (by decide +kernel) (by decide +kernel)).trans (congrArg Host.Outcome.next (by decide +kernel))

theorem recordPastDies_region : Spec.ownRegion recordPastDies (recordPastDies.g 0) 8 (2 ^ 56 + 2 ^ 55) :=
  ⟨by decide +kernel, by decide +kernel⟩

end Sys2Proof.Machine

namespace Sys2Proof.Proofs
open Sys2Proof.Machine Sys2Proof.Spec

/-- Refutes O32: the statement lets any number stand for a thread. What would be the local store of thread 131,072 lies in no window of
17 R216, so that its VLDZ raises 0x39. -/
theorem not_compressedRecords : ¬ Obligations.CompressedRecords := by
  unfold Obligations.CompressedRecords
  intro h
  obtain ⟨-, -, hload⟩ := h .e8 .o 0 0 1 recordPastDies (by decide +kernel) (by decide +kernel) (by decide +kernel) (by decide +kernel)
  have hp := hload [] (2 ^ 56 + 2 ^ 55) (by simp) (Nat.zero_le _) recordPastDies_region (by decide +kernel) (by decide +kernel)
  obtain ⟨-, ⟨⟨dist, hc⟩, -⟩, -⟩ := answers_next recordPastDies_vldz hp
  exact absurd (completed_pc hc (by decide +kernel)) (by decide +kernel)

end Sys2Proof.Proofs
end

section
/-! A refused write behind one that waits for credit (21 R240, R243). -/

namespace Sys2Proof.Machine

theorem carry_net (s : State) (src dst group cycles : Nat) (i : Instr) (a : Arg) (stamp : Option (Nat × Stamp)) :
    (s.carry src dst group cycles i a stamp).net = s.net :=
  (congrArg State.net (Spec.carry_frame s src dst group cycles i a stamp) :)

/-- A request that is launched is on its way. -/
theorem launch_phase {s : State} {r q : Req} (hq : q ∈ (s.launch r).net) (hid : q.id = r.id) : q.phase = .sent := by
  rw [State.launch, carry_net] at hq
  obtain hq | hq := List.mem_append.1 hq
  · simp [hid] at hq
  · rw [List.mem_singleton.1 hq]

/-- A refused request for an on-chip location is launched after its back-off, whatever credit its die holds. -/
theorem exec_rnrRetry {s : State} {r : Req} {t : Nat} (hr : s.req? s.arg.n = some r) (hp : r.phase = .refused)
    (ho : r.owner? = some t) (hn : r.tries ≤ (s.regAt (coreOf t) kRNRCTL).toNat % 256) (hg : 2 ^ 56 ≤ r.gva) :
    exec .rnrRetry s = .next (s.launch r) := by
  have hspent : ¬ (s.regAt (coreOf t) kRNRCTL).toNat % 256 < r.tries := Nat.not_lt.2 hn
  have hsend : s.sendAgain r = s.launch r := if_neg fun h => absurd h.1 (Nat.not_lt.2 hg)
  change execRnrRetry s = _
  simp [execRnrRetry, hsend, hr, hp, ho, hspent]

/-- A die holds no credit for a write while an earlier one of it to the same home die waits. -/
theorem hasCredit_of_waiting {s : State} {r x : Req} {h : Nat} (hr : s.homeDie r.loc = some h) (hn : r.num.isNone = false)
    (hx : x ∈ s.net) (ho : (x.id != r.id && x.die == r.die && s.homeDie x.loc == some h) = true)
    (hw : (x.waitsHome && decide (x.num.getD 0 < r.num.getD 0)) = true) : s.hasCredit r = false := by
  have hany : ((s.net.filter fun x => x.id != r.id && x.die == r.die && s.homeDie x.loc == some h).any fun x =>
      x.waitsHome && decide (x.num.getD 0 < r.num.getD 0)) = true :=
    List.any_eq_true.2 ⟨x, List.mem_filter.2 ⟨hx, ho⟩, hw⟩
  unfold State.hasCredit
  rw [hr]
  dsimp only
  rw [hany, hn, Bool.not_true, Bool.and_false, Bool.or_false]

/-- A write of thread 0 to slice 0 of die 0, which its home has refused. -/
def refusedWrite : Req :=
  { id := 0, src := .thread 0 0, grp := 0, cls := .o, op := .write [0], loc := sliceBase 0 0, seg := 0, gva := sliceBase 0 0, asid := 0,
    priv := false, die := 0, cluster := 0, inCluster := false, num := some 1, stamp := none, got := none, phase := .refused, tries := 0,
    once := false }

/-- The write before it, which waits at its source. -/
def heldWrite : Req := { refusedWrite with id := 1, num := some 0, phase := .held }

def refusedBehindHeld : State := { State.reset with arg := Arg.num 0, net := [refusedWrite, heldWrite] }

theorem refusedBehindHeld_retry : exec .rnrRetry refusedBehindHeld = .next (refusedBehindHeld.launch refusedWrite) :=
  exec_rnrRetry (t := 0) (by decide +kernel) rfl rfl (by decide +kernel) (by decide +kernel)

theorem refusedBehindHeld_noCredit : refusedBehindHeld.hasCredit refusedWrite = false :=
  hasCredit_of_waiting (h := 0) (x := heldWrite) (by decide +kernel) rfl (.tail _ (.head _)) (by decide +kernel) rfl

end Sys2Proof.Machine

namespace Sys2Proof.Proofs
open Sys2Proof.Machine Sys2Proof.Spec

/-- Refutes O48: the statement has a refused request wait for credit where its die holds none for it. The model sends it again with the
credit of its first sending, here past the write before it. -/
theorem not_answersReachTheirThreads : ¬ Obligations.AnswersReachTheirThreads := by
  unfold Obligations.AnswersReachTheirThreads
  intro h
  obtain ⟨hthread, -⟩ := h refusedWrite 0 refusedBehindHeld
  obtain ⟨-, -, hagain, -⟩ := hthread (by decide +kernel) rfl
  obtain ⟨hslice, -⟩ := hagain rfl (by decide +kernel)
  obtain ⟨⟨q, hq, hid, -, -, hphase⟩, -⟩ := answers_next refusedBehindHeld_retry (hslice (by decide +kernel))
  rw [if_neg (Bool.eq_false_iff.1 refusedBehindHeld_noCredit), launch_phase hq hid] at hphase
  cases hphase

end Sys2Proof.Proofs
end

section
/-! Stores to the own local store and elsewhere (11 R146, R148; 07 R115). -/

namespace Sys2Proof.Machine
open Sys2Proof.Spec

/-- A location of a local store lies below the register images of its core's window (17 R216). -/
theorem inLs_offset {k loc c off : Nat} (hl : inLs k loc = true) (hd : decodeWin loc = some (.core c off)) : off < 0x100000 := by
  obtain ⟨hlo, hhi⟩ : coreBase k ≤ loc ∧ loc < coreBase k + 0x100000 := by simpa [inLs] using hl
  have hoff : off = loc % 2 ^ 23 := by
    unfold decodeWin at hd
    dsimp only at hd
    split_ifs at hd <;> cases hd
    rfl
  unfold coreBase at hlo hhi
  omega

theorem inLs_onChip {k loc : Nat} (hl : inLs k loc = true) : 2 ^ 56 ≤ loc := by
  obtain ⟨hlo, -⟩ : coreBase k ≤ loc ∧ loc < coreBase k + 0x100000 := by simpa [inLs] using hl
  unfold coreBase at hlo
  omega

/-- The parts of a state that a store is stated by: threads, the thread at work, and memory. -/
def State.stage (s : State) : Sp Thread × Nat × Memory := (s.threads, s.cur, s.mem)

theorem State.bankUse_stage (s : State) (t loc : Nat) : (s.bankUse t loc).stage = s.stage := by
  have h := State.sameButRead.bankUse s t loc
  rw [stage, h.threads, h.cur, h.mem, stage]

/-- A write of a thread to its own local store (23 R253). -/
theorem State.writeOwn_stage {s : State} {t loc : Nat} (b : List Byte) (k : RClass) (hl : inLs (coreOf t) loc = true) :
    (s.writeOwn t loc b k).stage = (s.threads, s.cur, writeMem s.mem loc b) := by
  have htouch : (s.touchLines loc b.length (s.thread t).asid).stage = s.stage :=
    touchLines_keeps (p := State.stage) (fun _ _ _ _ => rfl) ..
  unfold writeOwn
  generalize hy : (s.touchLines loc b.length (s.thread t).asid).keepPast (coreOf t) loc b.length t k = y
  have hys : y.stage = s.stage := by rw [← hy, ← htouch]; rfl
  obtain ⟨hth, hcur, hmem⟩ : y.threads = s.threads ∧ y.cur = s.cur ∧ y.mem = s.mem := by simpa [stage] using hys
  have hplace : y.placeOf loc = decodeWin loc := if_pos (inLs_onChip hl)
  have hw : (y.writeLoc loc b (s.thread t).privileged (s.thread t).asid t none 0 (s.slotGrp (coreOf t))).stage =
      (y.threads, y.cur, writeMem y.mem loc b) := by
    unfold writeLoc
    rw [hplace]
    dsimp only
    split
    · rename_i hd
      rw [if_pos (inLs_offset hl hd)]
      rfl
    · rfl
  rw [hw, hth, hcur, hmem]

theorem bytesOf_toNat {w : Nat} (n : Nat) (v : BitVec w) :
    bytesOf n v.toNat = (List.range n).map fun x => (v >>> (8 * x)).truncate 8 := by
  refine List.ext_getElem (by rw [length_bytesOf, List.length_map, List.length_range]) fun i hi _ => ?_
  apply BitVec.eq_of_toNat_eq
  simp [getElem_bytesOf _ _ hi, Nat.shiftRight_eq_div_pow, Nat.pow_mul]

/-- A store to the own local store completes, and memory holds its bytes. -/
theorem writeOwn_stores {s x : State} {loc : Nat} (b : List Byte) (k : RClass) (hs : s.sameButTlb x) (hl : ownLs s loc) :
    let t := ((x.bankUse s.cur loc).writeOwn s.cur loc b k).finish s.cur 4 class1
    stored s t loc b ∧ completed s t (s.th.pc + 4) 4 ∧ still t.th = still s.th ∧ ∀ u, u ≠ s.cur → t.thread u = s.thread u := by
  generalize hy : (x.bankUse s.cur loc).writeOwn s.cur loc b k = y
  have hstage : y.stage = (s.threads, s.cur, writeMem s.mem loc b) := by
    have hx : x.stage = s.stage := by rw [State.stage, hs.threads, hs.cur, hs.mem, State.stage]
    have hbank := (x.bankUse_stage s.cur loc).trans hx
    obtain ⟨hth, hcur, hmem⟩ : _ = s.threads ∧ _ = s.cur ∧ _ = s.mem := by simpa [State.stage] using hbank
    rw [← hy, State.writeOwn_stage b k hl, hth, hcur, hmem]
  obtain ⟨hth, hcur, hmem⟩ : y.threads = s.threads ∧ y.cur = s.cur ∧ y.mem = writeMem s.mem loc b := by
    simpa [State.stage] using hstage
  have hthread (u : Nat) : y.thread u = s.thread u := by simp only [State.thread, hth]
  have hown : y.th = s.th := by rw [State.th, hcur, hthread, State.th]
  rw [← hcur]
  obtain ⟨hc, hst, -, -, hothers, hmemory⟩ := done_own y 4
  rw [hown] at hc hst
  refine ⟨⟨fun i hi => ?_, fun i hi => ?_⟩, completed_congr ?_ hc, hst, fun u hu => (hothers u hu).trans (hthread u)⟩
  · refine (hmemory _).trans ?_
    rw [hmem, writeMem_get, if_pos (by omega), Nat.add_sub_cancel_left]
  · refine (hmemory _).trans ?_
    rw [hmem, writeMem_get, if_neg (by omega)]
  · rw [hown]
    exact sameFlow_refl _

section
variable {s s' : State} {i : Instr} {a : Word} {k : RClass}

/-- A store whose bytes go to its own local store at once, or else are posted. -/
theorem stored_or_posted {act : Act} {b : List Byte} {loc : Nat} (hs : s.sameButTlb s')
    (he : exec i s = .next (
      if inLs (coreOf s.cur) loc then ((s'.bankUse s.cur loc).writeOwn s.cur loc b k).finish s.cur 4 class1
      else if 16 ≤ s'.inFlight s.cur then s'.parkOn s.cur act .room
      else s'.postAll s.cur act k .accepts [⟨0, .write b, a, loc⟩])) :
    (ownLs s loc → Answers i s fun t =>
      stored s t loc b ∧ completed s t (s.th.pc + 4) 4 ∧ still t.th = still s.th ∧
      (∀ u, u ≠ s.cur → t.thread u = s.thread u)) ∧
    (¬ ownLs s loc → s'.inFlight s.cur < 16 → Answers i s (asks s act .accepts (.write b) k a loc)) := by
  refine ⟨fun hl => ?_, fun hl hroom => ?_⟩
  · exact ⟨_, he.trans (congrArg Host.Outcome.next (if_pos hl)), writeOwn_stores b k hs hl⟩
  · exact ⟨_, he.trans (congrArg Host.Outcome.next ((if_neg hl).trans (if_neg (Nat.not_le.2 hroom)))), postAll_asks s s' act k _ a loc hs.threads hs.mem hs.cur⟩

/-- A scalar store of z bytes writes the low bytes of its register. -/
theorem store_stores {v : Word} {z : Nat} (he : exec i s = .next (s.store s.cur z a v k)) :
    stores i s a (lowBytes v z) (.store z a v k) k := by
  intro loc s' h hcw
  have hlen : (lowBytes v z).length = z := by simp [lowBytes]
  rw [hlen] at h
  have hs := State.sameButTlb.of_access h
  have hpriv : (s'.thread s.cur).privileged = s.th.priv.getLsbD 0 := by simp only [State.thread, hs.threads]; rfl
  refine stored_or_posted hs (he.trans (congrArg Host.Outcome.next ((reach_ok h _ _).trans ?_)))
  have hbytes : bytesOf z v.toNat = lowBytes v z := bytesOf_toNat z v
  simp only [hpriv, hbytes, hcw]

/-- SEGST writes the sixteen bytes of the image. -/
theorem segst_stores {img : BitVec 128} (he : exec i s = .next (s.segst s.cur a img)) :
    stores i s a ((List.range 16).map fun x => (img >>> (8 * x)).truncate 8) (.segst a img) .o := by
  intro loc s' h _
  rw [List.length_map, List.length_range] at h
  refine stored_or_posted (State.sameButTlb.of_access h) (he.trans (congrArg Host.Outcome.next ((reach_ok h _ _).trans ?_)))
  rw [bytesOf_toNat]

end

end Sys2Proof.Machine

namespace Sys2Proof.Proofs
open Sys2Proof.Machine Sys2Proof.Spec

/-- Settles O15: each instruction is one `store` or `segst`, whose write the own local store takes at once. -/
theorem storesWriteTheirBytes : Obligations.StoresWriteTheirBytes := by
  unfold Obligations.StoresWriteTheirBytes
  intro k c b i j n s a at' img
  have hat {ins : Instr} {z : Nat} (he : exec ins s = .next (s.store s.cur z (s.ea b i z) (s.g c) k)) : at' ins z := by
    rw [State.ea, moveOff_eq_addOff] at he
    exact store_stores he
  have hseg : exec (.segst n b j) s = .next (s.segst s.cur (s.segAddr b j) img) := rfl
  rw [State.segAddr, moveOff_eq_addOff] at hseg
  exact ⟨hat rfl, hat rfl, hat rfl, hat rfl, segst_stores hseg⟩

end Sys2Proof.Proofs
end

section
/-! FENCE and IFENCE (11 R163, R164; 13 R166). -/

namespace Sys2Proof.Machine
open Sys2Proof.Spec

/-! ### What a fence waits for -/

theorem matrixBusy_iff (s : State) (t : Nat) : s.matrixBusy t = true ↔
    (∃ m ∈ (s.core (t / 16)).mq, m.tid = t) ∨ ∃ r, (s.core (t / 16)).mrun = some r ∧ r.cmd.tid = t := by
  unfold State.matrixBusy coreOf
  dsimp only
  cases (s.core (t / 16)).mrun <;> simp

theorem pushing_iff (s : State) (t : Nat) : s.pushing t = true ↔ ∃ e ∈ s.transit, s.feeder e.1 e.2.1 = some t := by
  simp [State.pushing]

theorem outstanding_iff (s : State) (paths : BitVec 6) (classes : BitVec 3) :
    s.outstanding s.cur paths classes = true ↔ unperformed s paths classes := by
  have hthread : ((s.reqsOf s.cur).any fun r => classes.getLsbD (RClass.bit r.cls)) = true ↔
      ∃ r ∈ s.net, r.tid? = some s.cur ∧ classes.getLsbD (RClass.bit r.cls) = true := by
    simp [State.reqsOf]
  have hcopies : ((s.core (coreOf s.cur)).copies.any fun c => c.tid == s.cur && classes.getLsbD (RClass.bit c.cls)) = true ↔
      ∃ c ∈ (s.core (s.cur / 16)).copies, c.tid = s.cur ∧ classes.getLsbD (RClass.bit c.cls) = true := by
    simp [coreOf]
  unfold State.outstanding unperformed
  simp only [Bool.or_eq_true, Bool.and_eq_true, hthread, hcopies, matrixBusy_iff, pushing_iff, or_assoc]
  refine or_congr_right (or_congr_right (or_congr_left (and_congr_right fun _ => List.any_eq_true.trans
    (exists_congr fun r => and_congr_right fun _ => ?_))))
  cases r.src <;> simp

theorem storesOf_isEmpty_iff (s : State) (t : Nat) :
    (s.storesOf t).isEmpty = true ↔ ∀ r ∈ s.net, r.tid? = some t → r.isWrite = false := by
  simp only [State.storesOf, State.reqsOf, List.isEmpty_iff, List.filter_eq_nil_iff, List.mem_filter, beq_iff_eq, Bool.not_eq_true,
    and_imp]

/-! ### What a fence leaves to be read in the past -/

theorem notMem_seen {done : Past → Bool} {a : Past} {ws : List Nat} {w : Nat} :
    w ∉ (if done a then a.word :: ws else ws) ↔ (a.word = w → done a = false) ∧ w ∉ ws := by
  cases h : done a
  · simp
  · simp [eq_comm]

/-- An entry that is ordered before every reader is left for none. -/
theorem ordered_entry_left {seen : List Nat} {a e : Past} :
    (e = if seen.contains a.word then { a with left := a.left &&& ~~~7 } else a) ∧ e.left ≠ 0 ↔ e = a ∧ e.left ≠ 0 ∧ e.word ∉ seen := by
  by_cases hmem : a.word ∈ seen
  · rw [if_pos (List.contains_iff_mem.2 hmem)]
    refine iff_of_false ?_ ?_
    · rintro ⟨rfl, h⟩
      exact h BitVec.and_zero
    · rintro ⟨rfl, -, h⟩
      exact h hmem
  · rw [if_neg (mt List.contains_iff_mem.1 hmem)]
    refine and_congr_right ?_
    rintro rfl
    exact (and_iff_left hmem).symm

/-- Of the past of a doubleword what is newer than all that was ordered before every reader stays. -/
theorem mem_orderPast (done : Past → Bool) (e : Past) (l : List Past) (ws : List Nat) :
    e ∈ orderPast done 7 ws l ∧ e.left ≠ 0 ↔
      e.word ∉ ws ∧ ∃ newer older, l = newer ++ e :: older ∧ e.left ≠ 0 ∧ ∀ x ∈ newer ++ [e], x.word = e.word → done x = false := by
  induction l generalizing ws with
  | nil => simp [orderPast]
  | cons a r ih =>
    generalize hseen : (if done a then a.word :: ws else ws) = seen
    have hnot (w : Nat) : w ∉ seen ↔ (a.word = w → done a = false) ∧ w ∉ ws := hseen ▸ notMem_seen
    have hcons : e ∈ orderPast done 7 ws (a :: r) ↔
        (e = if seen.contains a.word then { a with left := a.left &&& ~~~7 } else a) ∨ e ∈ orderPast done 7 seen r := by
      rw [← hseen]
      exact List.mem_cons
    rw [hcons, or_and_right, ordered_entry_left, ih, hnot]
    constructor
    · rintro (⟨rfl, hleft, hdone, hws⟩ | ⟨⟨hdone, hws⟩, newer, older, rfl, hleft, hnewer⟩)
      · exact ⟨hws, [], r, rfl, hleft, by simpa using hdone⟩
      · exact ⟨hws, a :: newer, older, rfl, hleft, List.forall_mem_cons.2 ⟨hdone, hnewer⟩⟩
    · rintro ⟨hws, newer, older, hl, hleft, hnewer⟩
      cases newer with
      | nil =>
        obtain ⟨rfl, rfl⟩ := List.cons.inj hl
        exact .inl ⟨rfl, hleft, hnewer a (.head _), hws⟩
      | cons b newer =>
        obtain ⟨rfl, rfl⟩ := List.cons.inj hl
        obtain ⟨hdone, hnewer⟩ := List.forall_mem_cons.1 hnewer
        exact .inr ⟨⟨hdone, hws⟩, newer, older, rfl, hleft, hnewer⟩

/-! ### How a fence ends -/

/-- A fence that ends in y, which differs from s in cores at most, discards what was fetched where f holds, and completes. -/
theorem fence_finish {s y : State} (f : Bool) (hy : { y with cores := s.cores } = s) :
    let t := (if f then y.refetch s.cur else y).finish s.cur 4 class1
    completed s t (s.th.pc + 4) 4 ∧ still t.th = still { s.th with fetched := if f then [] else s.th.fetched } ∧
      t.cores = y.cores ∧ { t with threads := s.threads, cores := s.cores } = s ∧ ∀ u, u ≠ s.cur → t.thread u = s.thread u := by
  have hthreads : y.threads = s.threads := (congrArg State.threads hy :)
  have hcur : y.cur = s.cur := (congrArg State.cur hy :)
  have hthread (u : Nat) : y.thread u = s.thread u := by simp only [State.thread, hthreads]
  have hth : y.th = s.th := by rw [State.th, hcur, hthread, State.th]
  have hown {t : State} {x : Thread} (h : completed y t (s.th.pc + 4) 4 ∧ still t.th = still x ∧ onlyOwnThread y t) :
      completed s t (s.th.pc + 4) 4 ∧ still t.th = still x ∧ t.cores = y.cores ∧
        { t with threads := s.threads, cores := s.cores } = s ∧ ∀ u, u ≠ s.cur → t.thread u = s.thread u := by
    obtain ⟨hc, hst, hframe, -, hothers, -⟩ := h
    refine ⟨completed_congr (hth ▸ sameFlow_refl _) hc, hst, (congrArg State.cores hframe :), ?_, fun u hu =>
      (hothers u (hcur ▸ hu)).trans (hthread u)⟩
    rw [hthreads] at hframe
    exact (congrArg (fun x => { x with cores := s.cores }) hframe :).trans hy
  cases f with
  | false =>
    have e : y.finish s.cur 4 class1 = y.done 4 := by rw [← hcur]; rfl
    have h := done_own y 4
    rw [hth] at h
    exact e ▸ hown h
  | true =>
    have e : (y.refetch s.cur).finish s.cur 4 class1 = (y.modTh fun th => { th with fetched := [] }).done 4 := by rw [← hcur]; rfl
    have h := edit_done y (fun th => { th with fetched := [] }) 4 ⟨rfl, rfl, rfl, rfl, rfl, rfl, rfl, rfl⟩
    rw [hth] at h
    exact e ▸ hown h

theorem reportMatrix_traps {s : State} (e : Err) :
    trappedAt s s.cur e.cause e.tval (s.reportMatrix s.cur e) ∧ (s.reportMatrix s.cur e).th.mxErr = none := by
  have hy : (s.reportMatrix s.cur e).thread s.cur = ({ s.th with mxErr := none } : Thread).trap s.now e.cause e.tval := by
    simp [State.reportMatrix, State.trap]
  refine ⟨⟨?_, fun _ => rfl⟩, congrArg Thread.mxErr hy⟩
  unfold trapsAt
  rw [hy]
  refine ⟨rfl, rfl, rfl, rfl, privTrap _, rfl, rfl, rfl, rfl, rfl, rfl, rfl, rfl, rfl, rfl, rfl, fun v hv => ?_⟩
  rw [State.reportMatrix, State.trap, State.thread_modThread, if_neg hv, State.thread_modThread, if_neg hv]

/-- The past of a core after a fence of thread t. -/
theorem mem_settlePast (s : State) (t : Nat) (classes : BitVec 3) (e : Past) :
    e ∈ ((s.settlePast t classes 7).core (t / 16)).past ↔ ∃ newer older, (s.core (t / 16)).past = newer ++ e :: older ∧ e.left ≠ 0 ∧
      ∀ x ∈ newer ++ [e], x.word = e.word → ¬ (x.tid = t ∧ classes.getLsbD (RClass.bit x.cls) = true) := by
  have h := mem_orderPast (fun e => e.tid == t && classes.getLsbD (RClass.bit e.cls)) e (s.core (t / 16)).past []
  simp only [← Bool.not_eq_true, Bool.and_eq_true, beq_iff_eq, List.not_mem_nil, not_false_eq_true, true_and] at h
  rw [State.settlePast, State.core_modCore, coreOf, if_pos rfl, List.mem_filter, bne_iff_ne, h]

theorem fence_ends {s y : State} {i : Instr} (f : Bool) {past : State → Prop}
    (he : exec i s = .next ((if f then y.refetch s.cur else y).finish s.cur 4 class1)) (hy : { y with cores := s.cores } = s)
    (hk : { y.core (s.cur / 16) with past := (s.core (s.cur / 16)).past } = s.core (s.cur / 16))
    (ho : ∀ c, c ≠ s.cur / 16 → y.core c = s.core c) (hp : ∀ t : State, t.cores = y.cores → past t) :
    Answers i s fun t => completed s t (s.th.pc + 4) 4 ∧ still t.th = still { s.th with fetched := if f then [] else s.th.fetched } ∧
      past t ∧ { t with threads := s.threads, cores := s.cores } = s ∧
      { t.core (s.cur / 16) with past := (s.core (s.cur / 16)).past } = s.core (s.cur / 16) ∧
      (∀ c, c ≠ s.cur / 16 → t.core c = s.core c) ∧ (∀ u, u ≠ s.cur → t.thread u = s.thread u) := by
  obtain ⟨hc, hst, hcores, hframe, hothers⟩ := fence_finish f hy
  generalize (if f then y.refetch s.cur else y).finish s.cur 4 class1 = t at he hc hst hcores hframe hothers
  have hcore (c : Nat) : t.core c = y.core c := by rw [State.core, hcores, State.core]
  exact ⟨t, he, hc, hst, hp t hcores, hframe, by rw [hcore, hk], fun c h => (hcore c).trans (ho c h), hothers⟩

/-- What FENCE does unless it has a matrix error to report. -/
theorem exec_fence {s : State} {paths : BitVec 6} (sc : Scope) (classes : BitVec 3) (h : paths.getLsbD 2 = true → s.th.mxErr = none) :
    exec (.fence paths sc classes) s = .next (s.fence s.cur paths classes) := by
  have hnone : (if paths.getLsbD 2 then s.th.mxErr else none) = none := by
    split
    · exact h ‹_›
    · rfl
  change execFence paths sc classes s = _
  rw [execFence, hnone]

theorem exec_fence_error {s : State} {paths : BitVec 6} (sc : Scope) (classes : BitVec 3) {e : Err} (hp : paths.getLsbD 2 = true)
    (he : s.th.mxErr = some e) : exec (.fence paths sc classes) s = .next (s.reportMatrix s.cur e) := by
  change execFence paths sc classes s = _
  rw [execFence, if_pos hp, he]

end Sys2Proof.Machine

namespace Sys2Proof.Proofs
open Sys2Proof.Machine Sys2Proof.Spec

/-- Settles O33: what a fence waits for is `outstanding_iff`, how it ends `fence_finish`, and what it leaves of the past `mem_settlePast`. -/
theorem fencesWaitForWhatTheyName : Obligations.FencesWaitForWhatTheyName := by
  unfold Obligations.FencesWaitForWhatTheyName
  intro paths sc classes s k ends covered settles
  refine ⟨fun hm => ⟨fun hdone => ?_, fun hwait => ?_⟩, fun e hp he => ⟨_, exec_fence_error sc classes hp he, reportMatrix_traps e⟩,
    fun hdone => ?_, fun ⟨r, hr, ht, hw⟩ => ?_⟩
  · have hf : s.fence s.cur paths classes = ((if paths.getLsbD 5 && classes != 0 then
        (if paths.getLsbD 0 then s.settlePast s.cur classes 7 else s).refetch s.cur
        else if paths.getLsbD 0 then s.settlePast s.cur classes 7 else s).finish s.cur 4 class1) :=
      if_neg (mt (outstanding_iff s paths classes).1 hdone)
    have he := (exec_fence sc classes hm).trans (congrArg Host.Outcome.next hf)
    have hfetched : (if paths.getLsbD 5 = true ∧ classes ≠ 0 then [] else s.th.fetched) =
        if paths.getLsbD 5 && classes != 0 then [] else s.th.fetched := by
      simp only [Bool.and_eq_true, bne_iff_ne]
    rw [hfetched]
    by_cases hpath : paths.getLsbD 0 = true
    · rw [if_pos hpath] at he
      refine fence_ends _ he rfl ?_ (fun c hc => ?_) fun t ht => ?_
      · rw [State.settlePast, State.core_modCore, coreOf, if_pos rfl]
      · rw [State.settlePast, State.core_modCore, coreOf, if_neg hc]
      · rw [if_pos hpath]
        intro e
        rw [State.core, ht]
        exact mem_settlePast s s.cur classes e
    · rw [if_neg hpath] at he
      refine fence_ends _ he rfl rfl (fun _ _ => rfl) fun t ht => ?_
      rw [if_neg hpath]
      exact ht
  · have hf : s.fence s.cur paths classes = s.parkOn s.cur (.fence paths classes) .performed :=
      if_pos ((outstanding_iff s paths classes).2 hwait)
    exact ⟨_, exec_fence sc classes hm, hf ▸ waitFor_waits s s _ _ [] [] rfl rfl rfl⟩
  · have hf : s.ifence s.cur = (s.refetch s.cur).finish s.cur 4 class1 := if_pos ((storesOf_isEmpty_iff s s.cur).2 hdone)
    exact fence_ends true (congrArg Host.Outcome.next hf) rfl rfl (fun _ _ => rfl) fun _ ht => ht
  · have hf : s.ifence s.cur = s.parkOn s.cur .ifence .performed := if_neg fun h =>
      Bool.false_ne_true (((storesOf_isEmpty_iff s s.cur).1 h r hr ht).symm.trans hw)
    exact ⟨_, rfl, hf ▸ waitFor_waits s s _ _ [] [] rfl rfl rfl⟩

end Sys2Proof.Proofs
end
